-- ==== Sys2Proof/Word.lean ====
section
/-! DEFINITION. The one word type of the part's serial lines. Everything wider than a byte is a number
with a stated range (the AG1620 counts frames, days, sequence numbers and milliseconds; it does not
mask or shift registers), so the model uses `Nat` and `Int` there and narrows explicitly. -/

namespace Sys2Proof

/-- One character of a line: all lines of the part carry 8 data bits (00_scope, "The AG1620 and its lines"). -/
abbrev Byte := BitVec 8

end Sys2Proof
end

