-- ==== Sys2Proof/Config.lean ====
section
/-! DEFINITION. The free choices: each is a constant without a body, so nothing can be proved of its value.
Every one stands where the guide says that two things at one instant "may be taken in either order", or
where a reply reports a value the guide does not state. Each use takes the next value of a counter that
`State` holds as plain data. -/

namespace Sys2Proof.Config

/-- The order in which the channels of a reference take one frame start (R75: "are not ordered among themselves";
R185, R167: "may be placed in either order", "may take their indexes in either order"). The number is read as a
Lehmer code, so every order is one of its values. Log entry 3. -/
opaque channelOrder : Nat → Nat

/-- True where retirement is taken before the change of cue state at one frame start (R42: "the two may be taken in
either order"). Log entry 4. -/
opaque retireFirst : Nat → Bool

/-- True where the expiry of a confirm window is taken before the watch's evaluation at the same frame start
(R145: "either may be taken first"). Log entry 5. -/
opaque expiryFirst : Nat → Bool

/-- True where the reply is taken before a notice made at the same instant on an idle line (R188: "may be taken in
either order"). Log entry 6. -/
opaque replyFirst : Nat → Bool

/-- True where the Control Line Interface is still occupied, so that a request arriving next waits in the request queue
before it is carried out (R182: a request is judged "by the state of the part at that moment, not at its arrival"). Log
entry 10. -/
opaque occupied : Nat → Bool

/-- The warm-up parameter that READ WATCH reports for a channel in IDLE, whose configuration is empty
(R91, R92 state no value). Log entry 7. -/
opaque idleWarmUp : Nat → Nat

/-- What the three bytes of a clip frame hold where som plus a join offset exceeds them (R117, R151 with R192: unstated).
Log entry 11. -/
opaque wideClipFrame : Nat → Nat

end Sys2Proof.Config
end

