-- ==== Sys2Proof/Syntax.lean ====
section
/-! DEFINITION. The commands of the part: one constructor of `Instr` for each row of spec/opcode_table.json,
with the operands the rule of that row gives it. A request's operands are the fields of its body as the host
sends them (R192), not yet judged: a field may be out of range, and the meaning then answers as the owning
rule says. `Form.faulty` stands for a body that does not have the form its kind requires (R180, R194). -/

namespace Sys2Proof

/-- A channel inside the part (00_scope: channels 0 to 15). -/
abbrev Chan := Fin 16
/-- A device port inside the part (00_scope: ports 0 to 19). -/
abbrev PortNo := Fin 20

/-- The two house references, in the order 00_scope lists them. -/
inductive RefId where
  | a | b
  deriving DecidableEq, Repr

/-- The two replication links. -/
inductive LinkId where
  | l0 | l1
  deriving DecidableEq, Repr

/-- The four rate families (section 1.1). -/
inductive Family where
  | f25 | f29df | f50 | f59df
  deriving DecidableEq, Repr

/-- A time label HH:MM:SS:FF as received, one byte each (R192); its range is judged under R9. -/
structure Label where
  hh : Nat
  mm : Nat
  ss : Nat
  ff : Nat
  deriving DecidableEq, Repr

/-- A day number and a label: the form in which every CTF travels (R16, R192). -/
structure DayLabel where
  day : Nat
  label : Label
  deriving DecidableEq, Repr

/-- A request's body after R180 has judged its form. -/
inductive Form (α : Type) where
  | faulty
  | sound (body : α)
  deriving DecidableEq, Repr

/-- The clip part of an event description (section 10.3). -/
structure RawClip where
  template : Nat
  som : Nat
  clip : List Byte
  deriving DecidableEq, Repr

/-- An event description sound in form (R194), contents not yet judged (R20). -/
structure RawDesc where
  id : Nat
  kind : Nat
  rule : Nat
  duration : Nat
  start : Option DayLabel
  clip : Option RawClip
  eom : Option Nat
  noJoin : Bool
  deriving DecidableEq, Repr

/-- One step of SET TEMPLATE as sent: enumerated fields as their codes, absent fields `none` (section 6.1). -/
structure RawStep where
  kind : Nat
  command : Option Nat
  argument : Option Nat
  constant : Option (List Byte)
  anchor : Nat
  offset : Int
  condition : Nat
  repeats : Nat
  spacing : Nat
  expected : Option Nat
  clipMatch : Option Nat
  onMismatch : Option Nat
  deriving DecidableEq, Repr

/-- The weights of the eight conditions, in the order of section 4.5. -/
structure Weights where
  noSignal : Nat
  black : Nat
  frozen : Nat
  silent : Nat
  tcLoss : Nat
  tcJump : Nat
  noProbe : Nat
  siteSilent : Nat
  deriving DecidableEq, Repr

/-- The watch parameters of section 4.5. -/
structure WatchParams where
  weights : Weights
  sensitivity : Nat
  recovery : Nat
  degradeAt : Nat
  failAt : Nat
  recoverAt : Nat
  warmUp : Nat
  agreeTol : Nat
  deriving DecidableEq, Repr

/-- The configuration record of section 7.1 as SET CHANNEL carries it; `spares` is the spare set as a bit set
(R192: member k is bit k). -/
structure RawConfig where
  reference : Nat
  primary : Nat
  spares : Nat
  standby : Nat
  policy : Nat
  confirmWindow : Nat
  bridge : Nat
  cueLead : Nat
  tailGuard : Nat
  returnLead : Nat
  verifyTol : Nat
  switchLine : Nat
  baseDay : Nat
  watch : WatchParams
  heartbeat : Option Nat
  deriving DecidableEq, Repr

structure SetReferenceArgs where
  reference : Nat
  family : Nat
  deriving DecidableEq, Repr

/-- A link's settings as SET LINKS carries them (R48). -/
structure LinkArgs where
  divisor : Nat
  parity : Nat
  deriving DecidableEq, Repr

structure SetLinksArgs where
  l0 : LinkArgs
  l1 : LinkArgs
  heartbeat : Nat
  deriving DecidableEq, Repr

structure InsertArgs where
  channel : Nat
  pred : Nat
  desc : RawDesc
  deriving DecidableEq, Repr

structure ReplaceArgs where
  channel : Nat
  desc : RawDesc
  deriving DecidableEq, Repr

structure DeleteArgs where
  channel : Nat
  id : Nat
  deriving DecidableEq, Repr

structure ReadPlaylistArgs where
  channel : Nat
  start : Nat
  deriving DecidableEq, Repr

structure SetPortArgs where
  port : Nat
  role : Nat
  divisor : Nat
  parity : Nat
  replyTimeout : Nat
  retries : Nat
  preroll : Nat
  deriving DecidableEq, Repr

/-- A pass-through command's argument as sent. -/
inductive PassArg where
  | none
  | clip (id : List Byte)
  | frame (f : Nat)
  | bytes (b : List Byte)
  deriving DecidableEq, Repr

structure PassThroughArgs where
  port : Nat
  kind : Nat
  arg : PassArg
  deriving DecidableEq, Repr

structure SetTemplateArgs where
  template : Nat
  steps : List RawStep
  deriving DecidableEq, Repr

structure SetChannelArgs where
  channel : Nat
  config : RawConfig
  deriving DecidableEq, Repr

structure TakeArgs where
  channel : Nat
  option : Nat
  deriving DecidableEq, Repr

structure ReturnArgs where
  channel : Nat
  notBefore : Option DayLabel
  force : Bool
  deriving DecidableEq, Repr

structure AdoptArgs where
  channel : Nat
  spare : Option Nat
  deriving DecidableEq, Repr

structure ReleaseArgs where
  channel : Nat
  target : Nat
  after : Option Nat
  deriving DecidableEq, Repr

/-- What the receive side of the control line met (R179). -/
inductive ControlFault where
  | framing | overrun | brk | oversize | crc
  deriving DecidableEq, Repr

/-- What a link's or a device port's receive side met (R45, R96). -/
inductive LineFault where
  | framing | parity | overrun | brk | check
  deriving DecidableEq, Repr

/-- What the probe line's receive side met (R72); the line has no parity. -/
inductive ProbeFault where
  | framing | overrun | brk | check
  deriving DecidableEq, Repr

/-- A probe record's flags and label (R73, section 10.5). -/
structure Probe where
  signal : Bool
  black : Bool
  frozen : Bool
  silent : Bool
  labelValid : Bool
  label : Label
  deriving DecidableEq, Repr

/-- The device mode a server reports (section 5.2). -/
inductive DevMode where
  | idle | cued | rolling | stopped | fault
  deriving DecidableEq, Repr

/-- A good reply frame's content (section 5.2). -/
inductive DevReply where
  | done
  | refused (reason : Option Nat)
  | state (mode : DevMode) (clip : List Byte) (frame : Nat)
  deriving DecidableEq, Repr

/-- The commands: the rows of spec/opcode_table.json in the table's order. A command of a request carries the
request's tag; a command of an event names the reference, link, channel or port it happens on. The position
of a frame pulse is counted in whole crystal lines from the point at which line 1 of the frame in progress
began (R3; log entry 9). -/
inductive Instr where
  | powerOn
  | resetPart (tag : Nat) (body : Form Unit)
  | setReference (tag : Nat) (body : Form SetReferenceArgs)
  | setLinks (tag : Nat) (body : Form SetLinksArgs)
  | replicaReset (tag : Nat) (body : Form Nat)
  | editEventInsert (tag : Nat) (body : Form InsertArgs)
  | editEventReplace (tag : Nat) (body : Form ReplaceArgs)
  | editEventDelete (tag : Nat) (body : Form DeleteArgs)
  | readPlaylist (tag : Nat) (body : Form ReadPlaylistArgs)
  | readWatch (tag : Nat) (body : Form Nat)
  | setPort (tag : Nat) (body : Form SetPortArgs)
  | passThrough (tag : Nat) (body : Form PassThroughArgs)
  | setTemplate (tag : Nat) (body : Form SetTemplateArgs)
  | halt (tag : Nat) (body : Form Nat)
  | resume (tag : Nat) (body : Form Nat)
  | setChannel (tag : Nat) (body : Form SetChannelArgs)
  | clearChannel (tag : Nat) (body : Form Nat)
  | take (tag : Nat) (body : Form TakeArgs)
  | confirm (tag : Nat) (body : Form Nat)
  | veto (tag : Nat) (body : Form Nat)
  | abortTake (tag : Nat) (body : Form Nat)
  | readChannel (tag : Nat) (body : Form Nat)
  | returnToMain (tag : Nat) (body : Form ReturnArgs)
  | cancelReturn (tag : Nat) (body : Form Nat)
  | adopt (tag : Nat) (body : Form AdoptArgs)
  | release (tag : Nat) (body : Form ReleaseArgs)
  | readAsRun (tag : Nat) (body : Form Nat)
  | unknownRequest (tag : Nat) (kind : Nat)
  | tagZeroFrame
  | controlReceiveFault (fault : ControlFault) (held : List Byte)
  | controlFrameSent
  | framePulse (ref : RefId) (line : Nat)
  | pulseWindowClose (ref : RefId)
  | rephaseWindowClose (ref : RefId)
  | crystalFrameEnd (ref : RefId)
  | inPhaseRunLapse (ref : RefId)
  | referenceLabel (ref : RefId) (label : Label)
  | dayRoll (channel : Chan)
  | switchLine (channel : Chan)
  | confirmExpiry (channel : Chan)
  | evPut (link : LinkId) (channel seq pred : Nat) (desc : RawDesc)
  | evSwap (link : LinkId) (channel seq : Nat) (desc : RawDesc)
  | evDrop (link : LinkId) (channel seq id : Nat)
  | chWipe (link : LinkId) (channel seq : Nat)
  | batchOpen (link : LinkId) (channel seq count : Nat)
  | batchClose (link : LinkId) (channel seq : Nat)
  | base (link : LinkId) (channel seq : Nat)
  | pulse (link : LinkId) (number day : Nat) (ids : List (Option Nat))
  | unreadableRecord (link : LinkId)
  | linkReceiveFault (link : LinkId) (fault : LineFault) (left : List Byte)
  | linkBreakDown (link : LinkId)
  | askFillTimer (channel : Chan)
  | gapTimeout (channel : Chan)
  | reloadTimer (channel : Chan)
  | batchTimeout (channel : Chan)
  | heartbeatTimeout
  | backChannelFrameSent (link : LinkId)
  | probeRecord (channel : Nat) (probe : Probe)
  | probeReceiveFault (fault : ProbeFault) (left : List Byte)
  | deviceReply (port : PortNo) (reply : DevReply)
  | deviceReceiveFault (port : PortNo) (fault : LineFault) (begun : Bool) (left : List Byte)
  | commandFrameSent (port : PortNo)
  | replyTimeout (port : PortNo)
  | portBreakDown (port : PortNo)
  | recoveryBreakEnd (port : PortNo)
  | probeTimerExpiry (port : PortNo)
  | unknownRecordKind (link : LinkId)
  deriving DecidableEq, Repr

/-- The tag and the KIND of a command that is a request (sections 9.6, 10.2). -/
def Instr.request : Instr → Option (Nat × Nat)
  | .resetPart t _ => some (t, 0x18)
  | .setReference t _ => some (t, 0x01)
  | .setLinks t _ => some (t, 0x02)
  | .replicaReset t _ => some (t, 0x03)
  | .editEventInsert t _ | .editEventReplace t _ | .editEventDelete t _ => some (t, 0x04)
  | .readPlaylist t _ => some (t, 0x05)
  | .readWatch t _ => some (t, 0x06)
  | .setPort t _ => some (t, 0x07)
  | .passThrough t _ => some (t, 0x08)
  | .setTemplate t _ => some (t, 0x09)
  | .halt t _ => some (t, 0x0A)
  | .resume t _ => some (t, 0x0B)
  | .setChannel t _ => some (t, 0x0C)
  | .clearChannel t _ => some (t, 0x0D)
  | .take t _ => some (t, 0x0E)
  | .confirm t _ => some (t, 0x0F)
  | .veto t _ => some (t, 0x10)
  | .abortTake t _ => some (t, 0x11)
  | .readChannel t _ => some (t, 0x12)
  | .returnToMain t _ => some (t, 0x13)
  | .cancelReturn t _ => some (t, 0x14)
  | .adopt t _ => some (t, 0x15)
  | .release t _ => some (t, 0x16)
  | .readAsRun t _ => some (t, 0x17)
  | .unknownRequest t k => some (t, k)
  | _ => none

/-- The request with which everything behind it in the queue is discarded (R189). -/
def Instr.resets : Instr → Bool
  | .resetPart _ (.sound _) => true
  | _ => false

end Sys2Proof
end

