-- ==== Sys2Proof/Machine/State.lean ====
section
/-! DEFINITION. The state of the part, as plain data, block by block (00_scope, "Block overview"), and its value
after power-on. INVENTORY.md lists every field with the rule that names it. Ranges that a rule gives a number
(a score from 0 to 255, a queue of at most 16 places) are kept by the operations, not by the types. -/

namespace Sys2Proof.Machine

/-! ## Timebase Unit (chapter 1) -/

/-- R3 to R7. -/
inductive LockState where
  | locked | lost | rephasing
  deriving DecidableEq, Repr

/-- One reference (section 1.1). `line` is the line in progress; `raised` counts the line events of the frame in
progress that have been raised (R1: each once); `label` is the first label received in the frame (R13);
`lastPulse` is the position of the last pulse of the in-phase run in lines from the origin of the frame in
progress (R5); `predicted` is where the next pulse is predicted while REPHASING (R6). -/
structure Reference where
  family : Family
  configured : Bool
  lock : LockState
  line : Nat
  raised : Nat
  station : Nat
  timeSet : Bool
  miss : Nat
  run : Nat
  offset : Option Int
  offsetRun : Nat
  faulty : Bool
  label : Option Label
  lastPulse : Option Int
  predicted : Nat
  deriving DecidableEq, Repr

/-- R18: a reference after power-on. -/
def Reference.reset : Reference :=
  { family := .f25, configured := false, lock := .lost, line := 1, raised := 0, station := 0, timeSet := false,
    miss := 3, run := 0, offset := none, offsetRun := 0, faulty := false, label := none, lastPulse := none,
    predicted := 0 }

/-! ## Cue templates (section 6.1) -/

/-- The six device commands (section 5.2). -/
inductive DevCmd where
  | select (clip : List Byte)
  | point (frame : Nat)
  | roll
  | stop
  | aux (bytes : List Byte)
  | ask
  deriving DecidableEq, Repr

inductive Anchor where
  | start | rollPoint | finish
  deriving DecidableEq, Repr

inductive Cond where
  | always | ifDone | ifNotDone | ifCued | ifRolling | ifTimeout
  deriving DecidableEq, Repr

inductive Mismatch where
  | ignore | skipEvent | halt
  deriving DecidableEq, Repr

/-- What a step sends or checks. A SEND step's command and argument are one of five suited pairs (R115). -/
inductive StepBody where
  | sendSelect
  | sendPoint
  | sendRoll
  | sendStop
  | sendAux (const : List Byte)
  | sendAsk
  | verify (mode : DevMode) (clipMatch : Bool) (action : Mismatch)
  deriving DecidableEq, Repr

structure Step where
  body : StepBody
  anchor : Anchor
  offset : Int
  cond : Cond
  repeats : Nat
  spacing : Nat
  deriving DecidableEq, Repr

/-! ## Playlist Store (chapter 2) -/

inductive EventKind where
  | clip | filler
  deriving DecidableEq, Repr

inductive StartRule where
  | fixedHard | fixedSoft | follow
  deriving DecidableEq, Repr

inductive CueState where
  | pending | cueing | rolling | airing | done | skipped
  deriving DecidableEq, Repr

/-- The clip part of a stored description (section 2.2). -/
structure ClipInfo where
  template : Nat
  som : Nat
  clip : List Byte
  eom : Option Nat
  noJoin : Bool
  deriving DecidableEq, Repr

/-- A record of the pool on a playlist: the description (R20), the items of R21, and what the Cue Sequencer keeps
with the event (chapter 6: step progress, bound copy, join offset, passed-over flag). `skipEnded` marks an AIRING
event whose airing SKIP_EVENT has ended (R126); `emptyTold` that its EMPTY_TEMPLATE notice has been sent (R128).
`progress` lists the (step, repetition) pairs queued or taken. `begunHalted` says that the halt flag was set when the
event became AIRING (R132, R133). -/
structure Event where
  id : Nat
  kind : EventKind
  rule : StartRule
  start : Option DayLabel
  duration : Nat
  clip : Option ClipInfo
  labelCtf : Option Nat
  rstart : Nat
  rend : Nat
  cut : Option Nat
  eclipsed : Bool
  beyond : Bool
  late : Bool
  cue : CueState
  asRun : Bool
  progress : List (Nat × Nat)
  bound : Option (List Step)
  joinOffset : Option Nat
  passedOver : Bool
  skipEnded : Bool
  emptyTold : Bool
  begunHalted : Bool
  deriving DecidableEq, Repr

/-! ## Replication Unit (chapter 3) -/

inductive Parity where
  | none | odd | even
  deriving DecidableEq, Repr

inductive LinkState where
  | unknown | up | down
  deriving DecidableEq, Repr

/-- The five line status flags of a link or a device port (R45, R96). -/
structure LineFlags where
  framing : Bool
  parity : Bool
  overrun : Bool
  brk : Bool
  check : Bool
  deriving DecidableEq, Repr

/-- Every flag clear. -/
def LineFlags.clear : LineFlags := ⟨false, false, false, false, false⟩

/-- A replication link (chapter 3, state table). `rx` is the frame being gathered, empty while hunting. -/
structure Link where
  divisor : Nat
  parity : Parity
  state : LinkState
  flags : LineFlags
  rx : List Byte
  deriving DecidableEq, Repr

/-- R71: a link after power-on. -/
def Link.reset : Link := { divisor := 16, parity := .none, state := .unknown, flags := .clear, rx := [] }

inductive ReplicaState where
  | awaitBase | current | gap | stale
  deriving DecidableEq, Repr

/-- An open batch (R60): announced count, staged count, batch mark, and the batch timer in milliseconds. -/
structure Batch where
  count : Nat
  staged : Nat
  mark : Nat
  timer : Nat
  deriving DecidableEq, Repr

/-- A channel's replica. `next` is absent in AWAIT_BASE; a timer is `none` while stopped, and otherwise its value in
milliseconds as its last event left it (log entry 8). -/
structure Replica where
  state : ReplicaState
  next : Option Nat
  batch : Option Batch
  gapTimer : Option Nat
  reloadTimer : Option Nat
  deriving DecidableEq, Repr

/-- R71: a replica after power-on. -/
def Replica.reset : Replica :=
  { state := .awaitBase, next := none, batch := none, gapTimer := none, reloadTimer := none }

/-- A channel record's content (section 3.2). -/
inductive Rec where
  | put (pred : Nat) (desc : RawDesc)
  | swap (desc : RawDesc)
  | drop (id : Nat)
  | wipe
  | batchOpen (count : Nat)
  | batchClose
  | base
  deriving DecidableEq, Repr

inductive HoldKind where
  | early | staged | deferred
  deriving DecidableEq, Repr

/-- One entry of the replication hold (R52). -/
structure HoldEntry where
  channel : Chan
  seq : Nat
  content : Rec
  kind : HoldKind
  mark : Option Nat
  deriving DecidableEq, Repr

/-- The heartbeat timer (R68): the value a running timer expires at is the timeout it was started with (R48). -/
inductive Heartbeat where
  | stopped
  | running (timeout : Nat)
  | expired
  deriving DecidableEq, Repr

/-! ## Site Watch Unit (chapter 4) -/

/-- A set of the eight conditions (R76 to R78). -/
structure Conds where
  noSignal : Bool
  black : Bool
  frozen : Bool
  silent : Bool
  tcLoss : Bool
  tcJump : Bool
  noProbe : Bool
  siteSilent : Bool
  deriving DecidableEq, Repr

def Conds.empty : Conds := ⟨false, false, false, false, false, false, false, false⟩

inductive Health where
  | unknown | healthy | degraded | failed
  deriving DecidableEq, Repr

structure Verdict where
  conds : Conds
  score : Nat
  deriving DecidableEq, Repr

structure Watch where
  latch : Option Probe
  conds : Conds
  score : Nat
  health : Health
  warm : Nat
  history : List Verdict
  labelMem : Option Nat
  change : Conds
  lastEnded : Option (Nat × Nat)
  agree : Nat
  disagree : Nat
  lastMain : Option Nat
  diverged : Bool
  deriving DecidableEq, Repr

/-- R92: a watch after power-on, and R82, R90: a watch when it is started. -/
def Watch.reset : Watch :=
  { latch := none, conds := .empty, score := 0, health := .unknown, warm := 0, history := [], labelMem := none,
    change := .empty, lastEnded := none, agree := 0, disagree := 0, lastMain := none, diverged := false }

/-- The probe line's flags (R72). -/
structure ProbeFlags where
  framing : Bool
  overrun : Bool
  brk : Bool
  check : Bool
  deriving DecidableEq, Repr

def ProbeFlags.clear : ProbeFlags := ⟨false, false, false, false⟩

/-! ## Cue Sequencer (chapter 6) -/

/-- The outcome of a command (section 5.3). -/
inductive DevOutcome where
  | done
  | refused (reason : Option Nat)
  | state (mode : DevMode) (clip : List Byte) (frame : Nat)
  | timeout
  | lineError
  deriving DecidableEq, Repr

/-- A channel's last outcome (R119): the kind, and for STATE the device mode. -/
inductive LastOutcome where
  | done
  | refused
  | state (mode : DevMode)
  | timeout
  | lineError
  deriving DecidableEq, Repr

inductive EntryAction where
  | send (cmd : DevCmd)
  | verify (mode : DevMode) (clip : Option (List Byte)) (action : Mismatch)
  deriving DecidableEq, Repr

/-- Where a step entry's event stands: on the playlist; retired, its entries taken in their turn (R129); or removed or
its queue flushed, when an outcome moves no cue state and takes no mismatch action (R129, R131). -/
inductive Standing where
  | live | retired | removed
  deriving DecidableEq, Repr

/-- One step entry (R117): everything needed to send it. `standing` keeps the entry from moving an event that bears the
same id later (R124). -/
structure StepEntry where
  event : Nat
  step : Nat
  rep : Nat
  isLast : Bool
  due : Nat
  cond : Cond
  action : EntryAction
  standing : Standing
  deriving DecidableEq, Repr

/-- A channel's sequencing state. `cursor` is the id of the event it stands on, `none` at the end of the list (R120).
`issuing` says whether steps are issued, as the last frame start found it (R122). -/
structure Sequencer where
  cursor : Option Nat
  queue : List StepEntry
  last : Option LastOutcome
  halted : Bool
  issuing : Bool
  deriving DecidableEq, Repr

/-- R135: after power-on. -/
def Sequencer.reset : Sequencer := { cursor := none, queue := [], last := none, halted := false, issuing := false }

/-! ## Changeover Unit (chapters 7 and 8) -/

inductive Standby where
  | cold | hot
  deriving DecidableEq, Repr

inductive Policy where
  | manual | auto | autoConfirm
  deriving DecidableEq, Repr

inductive SwitchPos where
  | main | onLocal | filler
  deriving DecidableEq, Repr

inductive Bridge where
  | main | filler
  deriving DecidableEq, Repr

inductive Mode where
  | idle | shadow | confirming | taking | onLocal | returning | orphaned
  deriving DecidableEq, Repr

/-- The configuration record (section 7.1), its fields judged. -/
structure ChannelConfig where
  reference : RefId
  primary : PortNo
  spares : Nat
  standby : Standby
  policy : Policy
  confirmWindow : Nat
  bridge : Bridge
  cueLead : Nat
  tailGuard : Nat
  returnLead : Nat
  verifyTol : Nat
  switchLine : Nat
  baseDay : Nat
  watch : WatchParams
  heartbeat : Option Nat
  deriving DecidableEq, Repr

inductive SwitchCause where
  | take | bridge | follow | abort | portLoss | retn | release
  deriving DecidableEq, Repr

inductive FailReason where
  | refused | timeout | lineError | lateTwice | noPort
  deriving DecidableEq, Repr

/-- What a pending switch brings with it (R140: "in one act"): `bridge` the bridge of a take (R148); `joinLocal` a
join's LOCAL at its T (R151); `joinBridge t` the FILLER outcome of a join that bridges at T = t (R150);
`takeFailed` the FILLER outcome of a take without a port (R154); `plain` no more than the position (R161, R154 in
local running); `abort` the way back to SHADOW (R157); `release` a RELEASE (R177). -/
inductive SwAct where
  | bridge
  | joinLocal
  | joinBridge (t : Nat)
  | takeFailed (port : PortNo) (reason : FailReason)
  | plain
  | abort
  | release
  deriving DecidableEq, Repr

/-- A change decided and not yet made (R141). -/
structure PendingSw where
  pos : SwitchPos
  frame : Nat
  cause : SwitchCause
  act : SwAct
  deriving DecidableEq, Repr

structure ConfirmRec where
  deadline : Nat
  demoted : Bool
  deriving DecidableEq, Repr

inductive TakeKind where
  | auto | confirmed | manual | localJoin
  deriving DecidableEq, Repr

inductive TakeOption where
  | join | fillerFirst
  deriving DecidableEq, Repr

inductive Stage where
  | verifying | joining | rejoining | aborting | ended
  deriving DecidableEq, Repr

inductive BridgeReason where
  | noEvent | fillerEvent | noJoin | tailGuard | endOfMaterial | eventChanged
  deriving DecidableEq, Repr

inductive VerifyResult where
  | verified | refused | timeout | lineError | mismatch | noEvent | fillerEvent | limit
  deriving DecidableEq, Repr

inductive TakeResult where
  | onLocal | fillerBridge | failed
  deriving DecidableEq, Repr

/-- The join of a take record (section 7.4). -/
structure JoinRec where
  now0 : Nat
  t : Nat
  event : Nat
  offset : Nat
  cue : Nat
  roll : Option Nat
  deriving DecidableEq, Repr

/-- The take record (section 7.4); `rejoined` is the "whether a rejoin was made" of R155. -/
structure TakeRec where
  kind : TakeKind
  option : TakeOption
  start : Nat
  stage : Stage
  port : Option PortNo
  join : Option JoinRec
  bridgeReason : Option BridgeReason
  verify : Option VerifyResult
  result : Option TakeResult
  failure : Option FailReason
  rejoined : Bool
  deriving DecidableEq, Repr

inductive ReturnState where
  | pending | done | cancelled
  deriving DecidableEq, Repr

inductive CancelReason where
  | host | mainFailed
  deriving DecidableEq, Repr

/-- The return record (section 8.3). -/
structure ReturnRec where
  state : ReturnState
  tRet : Nat
  event : Nat
  sent : DayLabel
  notBefore : Option Nat
  force : Bool
  against : Bool
  cancel : Option CancelReason
  deriving DecidableEq, Repr

structure Adoption where
  event : Nat
  port : PortNo
  deriving DecidableEq, Repr

inductive AfterState where
  | shadow | idle
  deriving DecidableEq, Repr

/-- A RELEASE accepted and not yet carried out (R177). -/
inductive ReleaseTarget where
  | main (after : AfterState)
  | filler
  deriving DecidableEq, Repr

inductive EntryKind where
  | start | join | filler
  deriving DecidableEq, Repr

inductive ExitKind where
  | finish | cut | notAired
  deriving DecidableEq, Repr

/-- A channel's open as-run entry (R164). `cutDue` says that the Changeover Unit has decided FILLER for a loss or failure of the port
its event is on air from, so that it ends CUT at the next switch line (R154, R161). -/
structure OpenEntry where
  event : Nat
  start : Nat
  kind : EntryKind
  port : Option PortNo
  cutDue : Bool := false
  deriving DecidableEq, Repr

/-- Everything the part holds for one channel. `lineInForce` is the switch line the frame in progress uses (R138);
`cover` is the covering event switch following last acted on (R132). -/
structure Channel where
  now : Nat
  baseDay : Nat
  playlist : List Event
  watch : Watch
  replica : Replica
  seq : Sequencer
  config : Option ChannelConfig
  mode : Mode
  switch : SwitchPos
  pendingSw : List PendingSw
  portInUse : Option PortNo
  confirm : Option ConfirmRec
  takeRec : Option TakeRec
  returnRec : Option ReturnRec
  adoption : Option Adoption
  release : Option ReleaseTarget
  openEntry : Option OpenEntry
  lineInForce : Nat
  cover : Option Nat
  deriving DecidableEq, Repr

/-- A channel after power-on (R18, R44, R71, R92, R135, R159, R178). -/
def Channel.reset : Channel :=
  { now := 0, baseDay := 0, playlist := [], watch := .reset, replica := .reset, seq := .reset, config := none,
    mode := .idle, switch := .main, pendingSw := [], portInUse := none, confirm := none, takeRec := none,
    returnRec := none, adoption := none, release := none, openEntry := none, lineInForce := 0, cover := none }

/-! ## Device Line Controller (chapter 5) -/

inductive Role where
  | primary | spare | off
  deriving DecidableEq, Repr

inductive PortState where
  | off | up | down
  deriving DecidableEq, Repr

inductive FailKind where
  | noReply | garbled
  deriving DecidableEq, Repr

/-- The work a Changeover command list belongs to. -/
inductive Purpose where
  | verify | join | stop
  deriving DecidableEq, Repr

/-- Whose command is outstanding (R108). `live` is cleared when the list the command came from is withdrawn. -/
inductive Requester where
  | changeover (channel : Chan) (purpose : Purpose) (live : Bool)
  | cue (channel : Chan) (entry : StepEntry)
  | pass
  | probe
  deriving DecidableEq, Repr

structure Outstanding where
  cmd : DevCmd
  requester : Requester
  deriving DecidableEq, Repr

/-- A command of a Changeover list, with the frame before which it is not to be sent (R107). -/
structure ListCmd where
  cmd : DevCmd
  notBefore : Option Nat
  deriving DecidableEq, Repr

/-- A Changeover command list: the commands not yet presented. -/
structure CmdList where
  channel : Chan
  purpose : Purpose
  cmds : List ListCmd
  deriving DecidableEq, Repr

/-- What the shift stage sends: a frame or the recovery break (R95). -/
inductive ShiftItem where
  | frame (bytes : List Byte)
  | brk
  deriving DecidableEq, Repr

/-- One device port (chapter 5, state table). `replyTimer` is running while the port awaits a reply (R97), `probeTimer`
while a DOWN port's probe awaits its reply (R103); `tryTimeout` and `tryRetries` are the reply timeout and retries the
attempt in progress began with (R94). `claim` lists the Changeover command lists in turn, the first working the port
(R107). `grantHeld` is the model's own: within one step it keeps the arbiter from granting between a third TIMEOUT and
the entry to DOWN (R100); it is clear between steps. -/
structure Port where
  role : Role
  divisor : Nat
  parity : Parity
  replyTimeout : Nat
  retries : Nat
  preroll : Nat
  state : PortState
  holding : Option (List Byte)
  shift : Option ShiftItem
  rx : List Byte
  flags : LineFlags
  outstanding : Option Outstanding
  replyTimer : Option Nat
  attempt : Nat
  tryTimeout : Nat
  tryRetries : Nat
  failures : List FailKind
  timeouts : Nat
  slotCue : Option (Chan × StepEntry)
  slotPass : Option DevCmd
  claim : List CmdList
  probeTimer : Option Nat
  holder : Option Chan
  grantHeld : Bool
  deriving DecidableEq, Repr

/-- R113: a port after power-on. -/
def Port.reset : Port :=
  { role := .off, divisor := 40, parity := .none, replyTimeout := 20, retries := 0, preroll := 0, state := .off,
    holding := none, shift := none, rx := [], flags := .clear, outstanding := none, replyTimer := none, attempt := 1,
    tryTimeout := 20, tryRetries := 0, failures := [], timeouts := 0, slotCue := none, slotPass := none, claim := [],
    probeTimer := none, holder := none, grantHeld := false }

/-! ## Notices, replies and back-channel records -/

/-- The notices, in the order of their KIND codes (section 10.2). -/
inductive NoticeKind where
  | switch | takeDone | takeFailed | joinDone | joinFailed | takeWithheld | confirmNeeded | returnSet | returnDone
  | returnCancelled | adoptDone | adoptFailed | portState | spareGranted | cueFault | sequenceHalted | health | diverged
  | replicaState | linkState | referenceState | dayRolled | timeStep | cueLate
  deriving DecidableEq, Repr

/-- A notice: its contents are fixed when it is made (section 9.4). `content` is what follows class and channel. -/
structure Notice where
  kind : NoticeKind
  channel : Option Chan
  content : List Byte
  deriving DecidableEq, Repr

/-- A back-channel record (section 3.2). -/
inductive BackRec where
  | askFill (channel : Chan) (seq : Nat)
  | askReload (channel : Chan)
  | resumeAt (channel : Chan) (event : Nat) (at' : DayLabel) (cancel : Bool)
  deriving DecidableEq, Repr

/-- An as-run entry before it has taken its index (R167). -/
structure AsRunItem where
  channel : Chan
  event : Nat
  start : DayLabel
  finish : DayLabel
  kind : Option EntryKind
  exit : ExitKind
  port : Option PortNo
  deriving DecidableEq, Repr

/-- What a block hands to the Control Line Interface, the As-Run Log or the back channel within one step, in the order
made. -/
inductive Outgoing where
  | notice (n : Notice)
  | passOutcome (port : PortNo) (outcome : DevOutcome)
  | clearMissed (channel : Chan)
  | clearMissedPart
  | asRun (item : AsRunItem)
  | back (record : BackRec)
  | dropBack (channel : Chan)
  deriving DecidableEq, Repr

/-- All blocks but the Control Line Interface, the As-Run Log and the back-channel queues. `outbox` is empty between
steps; `free` counts the free choices made (log entry 2). -/
structure Plant where
  refA : Reference
  refB : Reference
  chans : Vector Channel 16
  templates : Vector (List Step) 32
  ports : Vector Port 20
  spareQueue : List Chan
  link0 : Link
  link1 : Link
  hold : List HoldEntry
  hbTimeout : Nat
  heartbeat : Heartbeat
  pulseMem : Option Nat
  probeFlags : ProbeFlags
  probeRx : List Byte
  mainDay : Option Nat
  free : Nat
  outbox : List Outgoing
  deriving DecidableEq, Repr

/-- Every block of the plant after power-on. -/
def Plant.reset : Plant :=
  { refA := .reset, refB := .reset, chans := Vector.replicate 16 .reset, templates := Vector.replicate 32 [],
    ports := Vector.replicate 20 .reset, spareQueue := [], link0 := .reset, link1 := .reset, hold := [],
    hbTimeout := 1000, heartbeat := .stopped, pulseMem := none, probeFlags := .clear, probeRx := [], mainDay := none,
    free := 0, outbox := [] }

/-! ## Back channel (section 3.9) -/

/-- One link's back-channel transmit side: the waiting records and the frame being sent. -/
structure BackLink where
  queue : List BackRec
  sending : Option (BackRec × List Byte)
  deriving DecidableEq, Repr

def BackLink.reset : BackLink := { queue := [], sending := none }

/-! ## As-Run Log (section 8.2) -/

structure AsRunEntry where
  index : Nat
  item : AsRunItem
  deriving DecidableEq, Repr

structure AsRunLog where
  ring : List AsRunEntry
  index : Nat
  deriving DecidableEq, Repr

def AsRunLog.reset : AsRunLog := { ring := [], index := 0 }

/-! ## Control Line Interface (chapter 9) -/

/-- The status codes (R183). -/
inductive Status where
  | ok | adjusted | late | busy | badArgument | badTime | noSuchChannel | noSuchEvent | duplicateId | full | wrongMode
  | replicaOwns | noAnchor | outOfWindow | notConfigured | stale | portTaken | mainFailed | noBoundary | empty
  deriving DecidableEq, Repr

/-- What ends when a frame's last byte has left (R182, R184): a place of the request queue, a pass-through, or nothing
(a BUSY reply, the reply to RESET PART, a notice). -/
inductive Origin where
  | queued
  | pass (port : PortNo)
  | nothing
  deriving DecidableEq, Repr

structure Reply where
  tag : Nat
  kind : Nat
  status : Status
  content : List Byte
  origin : Origin
  deriving DecidableEq, Repr

inductive TxItem where
  | reply (r : Reply)
  | notice (n : Notice)
  deriving DecidableEq, Repr

/-- The frame now leaving the part, with its bytes on the line. -/
structure Sending where
  item : TxItem
  bytes : List Byte
  deriving DecidableEq, Repr

structure QueuedRequest where
  tag : Nat
  kind : Nat
  deriving DecidableEq, Repr

/-- Chapter 9, state table. The request queue stands in two parts, one behind the other: `requests` holds the requests
carried out and not yet answered to the last byte, `waiting` those not yet carried out (R182). `occupied` is the model's own:
a request that arrives while it is set waits although none waits before it, and an idle step sets it freely (log entry 10).
`passTable` holds the tag of each port's pending PASS THROUGH; `free` counts the free choices made here. -/
structure ControlLine where
  rx : List Byte
  requests : List QueuedRequest
  waiting : List Instr
  occupied : Bool
  busy : List Reply
  replies : List Reply
  passTable : Vector (Option Nat) 20
  notices : List Notice
  missed : Vector Bool 16
  missedPart : Bool
  tx : Option Sending
  free : Nat
  deriving DecidableEq, Repr

/-- R191: the control line after power-on. -/
def ControlLine.reset : ControlLine :=
  { rx := [], requests := [], waiting := [], occupied := false, busy := [], replies := [], passTable := Vector.replicate 20 none, notices := [],
    missed := Vector.replicate 16 false, missedPart := false, tx := none, free := 0 }

/-! ## The whole part -/

/-- The state of the part, and the queue of the commands that are waiting. -/
structure State where
  plant : Plant
  ctl : ControlLine
  back0 : BackLink
  back1 : BackLink
  log : AsRunLog
  pending : List Instr
  deriving DecidableEq, Repr

/-- The part right after power-on, no command waiting. -/
def State.reset : State :=
  { plant := .reset, ctl := .reset, back0 := .reset, back1 := .reset, log := .reset, pending := [] }

/-- The reasons a step can stop with a fault: none. No rule of the guide stops the part, and the guide gives every
command of the table an effect in every state. -/
inductive Fault where
  deriving DecidableEq, Repr

/-- The reasons a step can be refused. -/
inductive Refusal where
  /-- Raised by `exec` for a command that has no meaning yet (safe: the run stops). No arm raises it any more. -/
  | notModelled (mnemonic : String)
  deriving DecidableEq, Repr

end Sys2Proof.Machine
end

