-- ==== Sys2Proof/Machine/Operands.lean ====
section
/-! DEFINITION. The operand forms: enumerated codes (R192: the value's place in the list the owning rule gives, counting
from 0), the rate-family arithmetic of labels and counts (R9 to R12), and the channel timeline (R16). -/

namespace Sys2Proof

def RefId.ofCode : Nat → Option RefId
  | 0 => some .a
  | 1 => some .b
  | _ => none

def RefId.code : RefId → Nat
  | .a => 0
  | .b => 1

def Family.ofCode : Nat → Option Family
  | 0 => some .f25
  | 1 => some .f29df
  | 2 => some .f50
  | 3 => some .f59df
  | _ => none

def Family.code : Family → Nat
  | .f25 => 0
  | .f29df => 1
  | .f50 => 2
  | .f59df => 3

def LinkId.code : LinkId → Nat
  | .l0 => 0
  | .l1 => 1

def DevMode.ofCode : Nat → Option DevMode
  | 0 => some .idle
  | 1 => some .cued
  | 2 => some .rolling
  | 3 => some .stopped
  | 4 => some .fault
  | _ => none

def DevMode.code : DevMode → Nat
  | .idle => 0
  | .cued => 1
  | .rolling => 2
  | .stopped => 3
  | .fault => 4

/-! ## Rate families (section 1.1) -/

/-- Frames per day. -/
def Family.fpd : Family → Nat
  | .f25 => 2160000
  | .f29df => 2589408
  | .f50 => 4320000
  | .f59df => 5178816

/-- Lines per frame. -/
def Family.lines : Family → Nat
  | .f25 => 625
  | .f29df => 525
  | .f50 => 1125
  | .f59df => 1125

/-- Nominal label rate. -/
def Family.rate : Family → Nat
  | .f25 => 25
  | .f29df => 30
  | .f50 => 50
  | .f59df => 60

/-- The drop k, 0 where no labels are dropped. -/
def Family.drop : Family → Nat
  | .f25 => 0
  | .f29df => 2
  | .f50 => 0
  | .f59df => 4

/-! ## Labels and counts (section 1.3) -/

/-- R9. -/
def Label.valid (f : Family) (l : Label) : Bool :=
  l.hh < 24 && l.mm < 60 && l.ss < 60 && l.ff < f.rate

/-- R11: a dropped label names no frame. -/
def Label.dropped (f : Family) (l : Label) : Bool :=
  l.ff < f.drop && l.ss == 0 && l.mm % 10 != 0

/-- R11: a dropped label is moved forward to the first existing label of its minute. -/
def Label.moved (f : Family) (l : Label) : Label :=
  if l.dropped f then { l with ff := f.drop } else l

/-- R10, with k = 0 for the families without dropped labels. A dropped label is counted as its moved label (R11: "the same
count"), so R10's formula is applied to the moved label. -/
def Label.count (f : Family) (l : Label) : Nat :=
  let m := 60 * l.hh + l.mm
  (l.hh * 3600 + l.mm * 60 + l.ss) * f.rate + (l.moved f).ff - f.drop * (m - m / 10)

/-- Hours, minutes, seconds and frames of a count at the nominal rate (R12). -/
def splitLabel (n c : Nat) : Label :=
  { hh := c / n / 3600, mm := c / n / 60 % 60, ss := c / n % 60, ff := c % n }

/-- R12: the count with the dropped labels added back. -/
def adjustedCount (f : Family) (c : Nat) : Nat :=
  let k := f.drop
  let first := 60 * f.rate
  let block := 10 * first - 9 * k
  let d := c / block
  let r := c % block
  if r < first then c + 9 * k * d else c + 9 * k * d + k * ((r - k) / (first - k))

/-- R12: the label of a count. -/
def labelOf (f : Family) (c : Nat) : Label :=
  if f.drop = 0 then splitLabel f.rate c else splitLabel f.rate (adjustedCount f c)

end Sys2Proof

namespace Sys2Proof.Machine

/-! ## Enumerated codes -/

def LockState.code : LockState → Nat
  | .locked => 0
  | .lost => 1
  | .rephasing => 2

def Parity.ofCode : Nat → Option Parity
  | 0 => some .none
  | 1 => some .odd
  | 2 => some .even
  | _ => Option.none

def Parity.code : Parity → Nat
  | .none => 0
  | .odd => 1
  | .even => 2

def LinkState.code : LinkState → Nat
  | .unknown => 0
  | .up => 1
  | .down => 2

def EventKind.ofCode : Nat → Option EventKind
  | 0 => some .clip
  | 1 => some .filler
  | _ => none

def EventKind.code : EventKind → Nat
  | .clip => 0
  | .filler => 1

def StartRule.ofCode : Nat → Option StartRule
  | 0 => some .fixedHard
  | 1 => some .fixedSoft
  | 2 => some .follow
  | _ => none

def StartRule.code : StartRule → Nat
  | .fixedHard => 0
  | .fixedSoft => 1
  | .follow => 2

def CueState.code : CueState → Nat
  | .pending => 0
  | .cueing => 1
  | .rolling => 2
  | .airing => 3
  | .done => 4
  | .skipped => 5

def Role.ofCode : Nat → Option Role
  | 0 => some .primary
  | 1 => some .spare
  | 2 => some .off
  | _ => none

def Role.code : Role → Nat
  | .primary => 0
  | .spare => 1
  | .off => 2

def PortState.code : PortState → Nat
  | .off => 0
  | .up => 1
  | .down => 2

def ReplicaState.code : ReplicaState → Nat
  | .awaitBase => 0
  | .current => 1
  | .gap => 2
  | .stale => 3

def Health.code : Health → Nat
  | .unknown => 0
  | .healthy => 1
  | .degraded => 2
  | .failed => 3

def Standby.ofCode : Nat → Option Standby
  | 0 => some .cold
  | 1 => some .hot
  | _ => none

def Standby.code : Standby → Nat
  | .cold => 0
  | .hot => 1

def Policy.ofCode : Nat → Option Policy
  | 0 => some .manual
  | 1 => some .auto
  | 2 => some .autoConfirm
  | _ => none

def Policy.code : Policy → Nat
  | .manual => 0
  | .auto => 1
  | .autoConfirm => 2

def Bridge.ofCode : Nat → Option Bridge
  | 0 => some .main
  | 1 => some .filler
  | _ => none

def Bridge.code : Bridge → Nat
  | .main => 0
  | .filler => 1

def SwitchPos.code : SwitchPos → Nat
  | .main => 0
  | .onLocal => 1
  | .filler => 2

def Mode.code : Mode → Nat
  | .idle => 0
  | .shadow => 1
  | .confirming => 2
  | .taking => 3
  | .onLocal => 4
  | .returning => 5
  | .orphaned => 6

def SwitchCause.code : SwitchCause → Nat
  | .take => 0
  | .bridge => 1
  | .follow => 2
  | .abort => 3
  | .portLoss => 4
  | .retn => 5
  | .release => 6

def TakeOption.ofCode : Nat → Option TakeOption
  | 0 => some .join
  | 1 => some .fillerFirst
  | _ => none

def TakeOption.code : TakeOption → Nat
  | .join => 0
  | .fillerFirst => 1

def TakeKind.code : TakeKind → Nat
  | .auto => 0
  | .confirmed => 1
  | .manual => 2
  | .localJoin => 3

def Stage.code : Stage → Nat
  | .verifying => 0
  | .joining => 1
  | .rejoining => 2
  | .aborting => 3
  | .ended => 4

def BridgeReason.code : BridgeReason → Nat
  | .noEvent => 0
  | .fillerEvent => 1
  | .noJoin => 2
  | .tailGuard => 3
  | .endOfMaterial => 4
  | .eventChanged => 5

/-- VERIFIED, then the failing checks in the order R149 takes them. -/
def VerifyResult.code : VerifyResult → Nat
  | .verified => 0
  | .refused => 1
  | .timeout => 2
  | .lineError => 3
  | .mismatch => 4
  | .noEvent => 5
  | .fillerEvent => 6
  | .limit => 7

def TakeResult.code : TakeResult → Nat
  | .onLocal => 0
  | .fillerBridge => 1
  | .failed => 2

def FailReason.code : FailReason → Nat
  | .refused => 0
  | .timeout => 1
  | .lineError => 2
  | .lateTwice => 3
  | .noPort => 4

def ReturnState.code : ReturnState → Nat
  | .pending => 0
  | .done => 1
  | .cancelled => 2

def CancelReason.code : CancelReason → Nat
  | .host => 0
  | .mainFailed => 1

def EntryKind.code : EntryKind → Nat
  | .start => 0
  | .join => 1
  | .filler => 2

def ExitKind.code : ExitKind → Nat
  | .finish => 0
  | .cut => 1
  | .notAired => 2

def Mismatch.ofCode : Nat → Option Mismatch
  | 0 => some .ignore
  | 1 => some .skipEvent
  | 2 => some .halt
  | _ => none

def Mismatch.code : Mismatch → Nat
  | .ignore => 0
  | .skipEvent => 1
  | .halt => 2

def Anchor.ofCode : Nat → Option Anchor
  | 0 => some .start
  | 1 => some .rollPoint
  | 2 => some .finish
  | _ => none

def Cond.ofCode : Nat → Option Cond
  | 0 => some .always
  | 1 => some .ifDone
  | 2 => some .ifNotDone
  | 3 => some .ifCued
  | 4 => some .ifRolling
  | 5 => some .ifTimeout
  | _ => none

/-- Section 10.2, the status codes. -/
def Status.code : Status → Nat
  | .ok => 0x00
  | .adjusted => 0x01
  | .late => 0x02
  | .busy => 0x10
  | .badArgument => 0x11
  | .badTime => 0x12
  | .noSuchChannel => 0x13
  | .noSuchEvent => 0x14
  | .duplicateId => 0x15
  | .full => 0x16
  | .wrongMode => 0x17
  | .replicaOwns => 0x18
  | .noAnchor => 0x19
  | .outOfWindow => 0x1A
  | .notConfigured => 0x1B
  | .stale => 0x1C
  | .portTaken => 0x1D
  | .mainFailed => 0x1E
  | .noBoundary => 0x1F
  | .empty => 0x20

/-- Section 10.2: a status code from 0x00 to 0x0F reports success (R183). -/
def Status.success (s : Status) : Bool := s.code < 0x10

/-- Section 10.2, the notice KIND codes. -/
def NoticeKind.code : NoticeKind → Nat
  | .switch => 0x40
  | .takeDone => 0x41
  | .takeFailed => 0x42
  | .joinDone => 0x43
  | .joinFailed => 0x44
  | .takeWithheld => 0x45
  | .confirmNeeded => 0x46
  | .returnSet => 0x47
  | .returnDone => 0x48
  | .returnCancelled => 0x49
  | .adoptDone => 0x4A
  | .adoptFailed => 0x4B
  | .portState => 0x4C
  | .spareGranted => 0x4D
  | .cueFault => 0x4E
  | .sequenceHalted => 0x4F
  | .health => 0x50
  | .diverged => 0x51
  | .replicaState => 0x52
  | .linkState => 0x53
  | .referenceState => 0x54
  | .dayRolled => 0x55
  | .timeStep => 0x56
  | .cueLate => 0x57

/-- Section 9.4: the class of each notice, 0 the highest priority. -/
def NoticeKind.cls : NoticeKind → Nat
  | .health | .diverged => 1
  | .replicaState | .linkState | .referenceState => 2
  | .dayRolled | .timeStep | .cueLate => 3
  | _ => 0

/-- A channel number of a request; above 15 there is no such channel. -/
def chanOf (n : Nat) : Option Chan := if h : n < 16 then some ⟨n, h⟩ else none

/-- A port number of a request; above 19 there is no such port. -/
def portOf (n : Nat) : Option PortNo := if h : n < 20 then some ⟨n, h⟩ else none

/-! ## The channel timeline (section 1.5) -/

/-- R16: the day offset; a negative offset reads as 32768 or more. -/
def dayOffset (baseDay day : Nat) : Nat := (day + 65536 - baseDay % 65536) % 65536

/-- R16: the CTF of a day number and a valid label, where it lies in the window. -/
def ctfOf (f : Family) (baseDay : Nat) (dl : DayLabel) : Option Nat :=
  let o := dayOffset baseDay dl.day
  if o < 4 then some (o * f.fpd + dl.label.count f) else none

/-- R16: a CTF as the day number and label in which it is reported. -/
def dayLabelOf (f : Family) (baseDay t : Nat) : DayLabel :=
  { day := (baseDay + t / f.fpd) % 65536, label := labelOf f (t % f.fpd) }

end Sys2Proof.Machine
end

