-- ==== Sys2Proof/Machine/Formats.lean ====
section
/-! DEFINITION. Chapter 10: the field codings (R192), the two check computations (R193, R196), the layouts of the frames
and records the part sends, and the form checks of those it receives (R194, R195). -/

namespace Sys2Proof.Machine

/-! ## Field coding (R192): most significant byte first -/

def u8 (n : Nat) : List Byte := [BitVec.ofNat 8 n]
def u16 (n : Nat) : List Byte := [BitVec.ofNat 8 (n / 256), BitVec.ofNat 8 n]
def u24raw (n : Nat) : List Byte := [BitVec.ofNat 8 (n / 65536), BitVec.ofNat 8 (n / 256), BitVec.ofNat 8 n]

/-- A clip frame. The guide does not say what stands in the field where a cue point som + o lies above 16,777,215: a free
value (log entry 11). -/
def u24 (n : Nat) : List Byte := if n < 16777216 then u24raw n else u24raw (Config.wideClipFrame n)
def u32 (n : Nat) : List Byte :=
  [BitVec.ofNat 8 (n / 16777216), BitVec.ofNat 8 (n / 65536), BitVec.ofNat 8 (n / 256), BitVec.ofNat 8 n]

/-- A signed value of 32 bits, two's complement. -/
def s32 (i : Int) : List Byte := u32 (i % 4294967296).toNat

def flag (b : Bool) : List Byte := u8 (if b then 1 else 0)

/-- A single optional field: a presence byte, then the field when present. -/
def opt {α : Type} (f : α → List Byte) : Option α → List Byte
  | none => u8 0
  | some x => u8 1 ++ f x

/-- A channel that may be none. -/
def chanOrNone : Option Chan → List Byte
  | none => u8 0xFF
  | some c => u8 c.val

/-- A port that may be none. -/
def portOrNone : Option PortNo → List Byte
  | none => u8 0xFF
  | some p => u8 p.val

/-- A clip id or a byte string: a length byte, then the bytes. -/
def str (b : List Byte) : List Byte := u8 b.length ++ b

/-- A list: a count byte, then the items. -/
def items {α : Type} (f : α → List Byte) (l : List α) : List Byte := u8 l.length ++ l.flatMap f

/-- A set of members numbered from 0: member k is bit k. -/
def bits : List Bool → Nat
  | [] => 0
  | b :: bs => (if b then 1 else 0) + 2 * bits bs

def labelBytes (l : Label) : List Byte := u8 l.hh ++ u8 l.mm ++ u8 l.ss ++ u8 l.ff

/-- A CTF on a line: a day number followed by a label. -/
def dayLabelBytes (d : DayLabel) : List Byte := u16 d.day ++ labelBytes d.label

def LineFlags.bytes (f : LineFlags) : List Byte := u8 (bits [f.framing, f.parity, f.overrun, f.brk, f.check])

/-- R91: the probe line's flags as a set in one byte, bit k for the k-th flag in the order of R72 (DESIGN CHOICE, log entry
60). -/
def ProbeFlags.bytes (f : ProbeFlags) : List Byte := u8 (bits [f.framing, f.overrun, f.brk, f.check])

/-- R91, R85: a set of conditions in one byte, bit k for the k-th condition of the table of section 4.2; the change flags are
sent so too (DESIGN CHOICE, log entry 60: the guide does not number them). -/
def Conds.bytes (c : Conds) : List Byte :=
  u8 (bits [c.noSignal, c.black, c.frozen, c.silent, c.tcLoss, c.tcJump, c.noProbe, c.siteSilent])

/-! ## Check computations -/

/-- R193: one shift of the CRC register. -/
def crcShift (r : BitVec 16) : BitVec 16 := if r.msb then (r <<< 1) ^^^ 0x1021 else r <<< 1

/-- R193: one byte into the CRC register. -/
def crcByte (r : BitVec 16) (b : Byte) : BitVec 16 :=
  (List.range 8).foldl (fun r _ => crcShift r) (r ^^^ (b.zeroExtend 16 <<< 8))

/-- R193: the CRC-16 over a run of bytes. -/
def crc16 (bytes : List Byte) : BitVec 16 := bytes.foldl crcByte 0xFFFF

/-- The sum of a frame's bytes modulo 256 (R196). -/
def byteSum (bytes : List Byte) : Byte := bytes.foldl (· + ·) 0

/-- R196: the check byte brings the sum of all the frame's bytes to 0 modulo 256. -/
def checkByte (bytes : List Byte) : Byte := - byteSum bytes

/-! ## Frames the part sends -/

/-- Section 10.2: SYNC, LEN, TAG, KIND, BODY, CRC. -/
def controlFrame (tag kind : Nat) (body : List Byte) : List Byte :=
  let inner := u16 body.length ++ u8 tag ++ u8 kind ++ body
  u8 0xA5 ++ inner ++ u16 (crc16 inner).toNat

/-- Section 10.4: start byte, length, record, check byte. -/
def linkFrame (record : List Byte) : List Byte :=
  let f := u8 0x5A ++ u8 record.length ++ record
  f ++ [checkByte f]

/-- Section 10.5: SYNC, length, body, check byte. -/
def deviceFrame (body : List Byte) : List Byte :=
  let f := u8 0x96 ++ u8 body.length ++ body
  f ++ [checkByte f]

/-- Section 10.5: the body of a command. -/
def DevCmd.body : DevCmd → List Byte
  | .select c => u8 0x10 ++ c
  | .point f => u8 0x11 ++ u24 f
  | .roll => u8 0x12
  | .stop => u8 0x13
  | .aux b => u8 0x14 ++ b
  | .ask => u8 0x15

/-- A command's frame on the device line. -/
def DevCmd.frame (c : DevCmd) : List Byte := deviceFrame c.body

/-- Section 10.4: the back-channel records. -/
def BackRec.record : BackRec → List Byte
  | .askFill c s => u8 0x81 ++ u8 c.val ++ u16 s
  | .askReload c => u8 0x82 ++ u8 c.val
  | .resumeAt c e d x => u8 0x83 ++ u8 c.val ++ u32 e ++ dayLabelBytes d ++ flag x

def BackRec.frame (r : BackRec) : List Byte := linkFrame r.record

/-- Section 10.3: an event description. -/
def descBytes (d : RawDesc) : List Byte :=
  u32 d.id ++ u8 d.kind ++ u8 d.rule ++ u8 (bits [d.start.isSome, d.clip.isSome, d.eom.isSome, d.noJoin]) ++
    u32 d.duration ++
    (match d.start with | none => [] | some s => dayLabelBytes s) ++
    (match d.clip with | none => [] | some c => u8 c.template ++ u24 c.som ++ str c.clip) ++
    (match d.eom with | none => [] | some e => u24 e)

/-- Section 10.4: the record of each channel record kind. -/
def Rec.record (channel seq : Nat) : Rec → List Byte
  | .put p d => u8 1 ++ u8 channel ++ u16 seq ++ u32 p ++ descBytes d
  | .swap d => u8 2 ++ u8 channel ++ u16 seq ++ descBytes d
  | .drop e => u8 3 ++ u8 channel ++ u16 seq ++ u32 e
  | .wipe => u8 4 ++ u8 channel ++ u16 seq
  | .batchOpen n => u8 5 ++ u8 channel ++ u16 seq ++ u8 n
  | .batchClose => u8 6 ++ u8 channel ++ u16 seq
  | .base => u8 7 ++ u8 channel ++ u16 seq

/-- The body of a reply: the status byte, then the contents (R192). -/
def Reply.frame (r : Reply) : List Byte := controlFrame r.tag r.kind (u8 r.status.code ++ r.content)

/-- The body of a notice: class, channel or 0xFF, contents (R192). Notices travel on tag 0. -/
def Notice.frame (n : Notice) : List Byte :=
  controlFrame 0 n.kind.code (u8 n.kind.cls ++ chanOrNone n.channel ++ n.content)

def TxItem.frame : TxItem → List Byte
  | .reply r => r.frame
  | .notice n => n.frame

/-- The place of an outcome in the list of section 5.3. -/
def DevOutcome.code : DevOutcome → Nat
  | .done => 0
  | .refused _ => 1
  | .state _ _ _ => 2
  | .timeout => 3
  | .lineError => 4

/-- An outcome in a pass-through reply (R112): its kind, the reason byte of a REFUSED that has one, and the device mode, clip
id and clip frame of a STATE. Fields that only some outcomes have carry a presence byte (R192). -/
def DevOutcome.bytes (o : DevOutcome) : List Byte :=
  u8 o.code ++ match o with
    | .refused r => opt u8 r ++ opt u8 none ++ opt str none ++ opt u24 none
    | .state m c f => opt u8 none ++ opt u8 (some m.code) ++ opt str (some c) ++ opt u24 (some f)
    | .done | .timeout | .lineError => opt u8 none ++ opt u8 none ++ opt str none ++ opt u24 none

/-- A channel's last outcome (R158): its kind, and the device mode, which only STATE has, with its presence byte (R192). -/
def LastOutcome.bytes : LastOutcome → List Byte
  | .done => u8 0 ++ opt u8 none
  | .refused => u8 1 ++ opt u8 none
  | .state m => u8 2 ++ opt u8 (some m.code)
  | .timeout => u8 3 ++ opt u8 none
  | .lineError => u8 4 ++ opt u8 none

/-- Section 10.5: an as-run entry, 24 bytes. -/
def AsRunEntry.bytes (e : AsRunEntry) : List Byte :=
  u32 e.index ++ u8 e.item.channel.val ++ u32 e.item.event ++ dayLabelBytes e.item.start ++
    dayLabelBytes e.item.finish ++ u8 ((e.item.kind.map EntryKind.code).getD 0xFF) ++ u8 e.item.exit.code ++
    portOrNone e.item.port

/-! ## Reading fields -/

/-- A reader takes a field off the front of a run of bytes, or finds that the form is wrong. -/
abbrev Reader (α : Type) := List Byte → Option (α × List Byte)

def r8 : Reader Nat
  | a :: t => some (a.toNat, t)
  | _ => none

def r16 : Reader Nat
  | a :: b :: t => some (a.toNat * 256 + b.toNat, t)
  | _ => none

def r24 : Reader Nat
  | a :: b :: c :: t => some (a.toNat * 65536 + b.toNat * 256 + c.toNat, t)
  | _ => none

def r32 : Reader Nat
  | a :: b :: c :: d :: t => some (a.toNat * 16777216 + b.toNat * 65536 + c.toNat * 256 + d.toNat, t)
  | _ => none

/-- A signed value of 16 bits. -/
def rs16 : Reader Int := fun b => (r16 b).map fun (n, t) => (if n < 32768 then (n : Int) else (n : Int) - 65536, t)

def rTake (n : Nat) : Reader (List Byte) := fun b => if n ≤ b.length then some (b.take n, b.drop n) else none

/-- A clip id or byte string. -/
def rStr : Reader (List Byte) := fun b => (r8 b).bind fun (n, t) => rTake n t

/-- A single optional field; a presence byte other than 0 or 1 is a fault of form. -/
def rOpt {α : Type} (r : Reader α) : Reader (Option α)
  | a :: t => if a = 0 then some (none, t) else if a = 1 then (r t).map fun (x, t) => (some x, t) else none
  | [] => none

/-- n items one after another. -/
def rMany {α : Type} (r : Reader α) : Nat → Reader (List α)
  | 0 => fun b => some ([], b)
  | n + 1 => fun b => (r b).bind fun (x, t) => (rMany r n t).map fun (xs, t) => (x :: xs, t)

/-- A list with its count byte. -/
def rItems {α : Type} (r : Reader α) : Reader (List α) := fun b => (r8 b).bind fun (n, t) => rMany r n t

def rLabel : Reader Label
  | a :: b :: c :: d :: t => some (⟨a.toNat, b.toNat, c.toNat, d.toNat⟩, t)
  | _ => none

def rDayLabel : Reader DayLabel := fun b =>
  (r16 b).bind fun (d, t) => (rLabel t).map fun (l, t) => (⟨d, l⟩, t)

/-- The form of a body is sound when its fields end where the body ends. -/
def whole {α : Type} (r : Reader α) (b : List Byte) : Option α :=
  match r b with
  | some (x, []) => some x
  | _ => none

def formOf {α : Type} (r : Reader α) (b : List Byte) : Form α :=
  match whole r b with
  | some x => .sound x
  | none => .faulty

/-- The clip part of a description; its length byte lies from 1 to 32 (R194). -/
def rClip : Reader RawClip := fun b =>
  (r8 b).bind fun (t, b) => (r24 b).bind fun (som, b) => (rStr b).bind fun (c, b) =>
    if 1 ≤ c.length ∧ c.length ≤ 32 then some (⟨t, som, c⟩, b) else none

/-- A part of a description that its presence bit announces. -/
def rPart {α : Type} (present : Bool) (r : Reader α) : Reader (Option α) := fun b =>
  if present then (r b).map fun (x, t) => (some x, t) else some (none, b)

/-- R194: an event description, read for its form. -/
def rDesc : Reader RawDesc := fun b =>
  (r32 b).bind fun (id, b) => (r8 b).bind fun (kind, b) => (r8 b).bind fun (rule, b) => (r8 b).bind fun (p, b) =>
  (r32 b).bind fun (dur, b) =>
    if p < 16 then
      (rPart (p.testBit 0) rDayLabel b).bind fun (start, b) =>
      (rPart (p.testBit 1) rClip b).bind fun (clip, b) =>
      (rPart (p.testBit 2) r24 b).map fun (eom, b) =>
        ({ id := id, kind := kind, rule := rule, duration := dur, start := start, clip := clip, eom := eom,
           noJoin := p.testBit 3 }, b)
    else none

/-- R195: a channel record's fields after its header. -/
def readRec (kind : Nat) (b : List Byte) : Option Rec :=
  match kind with
  | 1 => (r32 b).bind fun (p, t) => (whole rDesc t).map fun d => .put p d
  | 2 => (whole rDesc b).map .swap
  | 3 => (whole r32 b).map .drop
  | 4 => if b = [] then some .wipe else none
  | 5 => (whole r8 b).map .batchOpen
  | 6 => if b = [] then some .batchClose else none
  | 7 => if b = [] then some .base else none
  | _ => none

/-- The ids of a PULSE for the channels from c on, given its presence set (section 10.4). -/
def rPulseIds (set : Nat) : Nat → Nat → Reader (List (Option Nat))
  | _, 0 => fun b => some ([], b)
  | c, n + 1 => fun b =>
    (rPart (set.testBit c) r32 b).bind fun (x, t) => (rPulseIds set (c + 1) n t).map fun (xs, t) => (x :: xs, t)

/-- Section 10.5: a reply's body. A body that does not fit its kind is discarded (R96). -/
def readReply : List Byte → Option DevReply
  | [] => none
  | k :: t =>
    if k = 0x20 then (if t = [] then some .done else none)
    else if k = 0x21 then
      (match t with
       | [] => some (.refused none)
       | [r] => some (.refused (some r.toNat))
       | _ => none)
    else if k = 0x22 then
      (r8 t).bind fun (m, t) => (r24 t).bind fun (f, t) =>
        if t.length ≤ 32 then (DevMode.ofCode m).map fun m => .state m t f else none
    else none

/-- Section 10.5: a probe record after its start byte and before its check byte; flag bits 5 to 7 are disregarded
(R196). -/
def readProbe : List Byte → Option (Nat × Probe)
  | [c, f, h, m, s, x] =>
    some (c.toNat, { signal := f.toNat.testBit 0, black := f.toNat.testBit 1, frozen := f.toNat.testBit 2,
                     silent := f.toNat.testBit 3, labelValid := f.toNat.testBit 4,
                     label := ⟨h.toNat, m.toNat, s.toNat, x.toNat⟩ })
  | _ => none

end Sys2Proof.Machine
end

