-- ==== Sys2Proof/Decode.lean ====
section
/-! DEFINITION. From the bytes on the part's lines to the commands they spell (R179, R180, R194 to R196), and the host's
`decodeTableWord`: spec/opcode_table.json gives no row any bits, so no word spells a command. -/

namespace Sys2Proof

open Sys2Proof.Machine

/-- The command a table word spells: none, since no row of the table has bits. -/
def decodeTableWord (_nbits _w : Nat) : Option Instr := none

/-! ## Control-line requests (R180, section 10.2) -/

def rLinkArgs : Reader LinkArgs := fun b =>
  (r16 b).bind fun (d, b) => (r8 b).map fun (p, b) => (⟨d, p⟩, b)

def rSetReference : Reader SetReferenceArgs := fun b =>
  (r8 b).bind fun (r, b) => (r8 b).map fun (f, b) => (⟨r, f⟩, b)

def rSetLinks : Reader SetLinksArgs := fun b =>
  (rLinkArgs b).bind fun (l0, b) => (rLinkArgs b).bind fun (l1, b) => (r16 b).map fun (h, b) => (⟨l0, l1, h⟩, b)

def rReadPlaylist : Reader ReadPlaylistArgs := fun b =>
  (r8 b).bind fun (c, b) => (r32 b).map fun (i, b) => (⟨c, i⟩, b)

def rSetPort : Reader SetPortArgs := fun b =>
  (r8 b).bind fun (p, b) => (r8 b).bind fun (r, b) => (r16 b).bind fun (d, b) => (r8 b).bind fun (y, b) =>
  (r16 b).bind fun (t, b) => (r8 b).bind fun (n, b) => (r32 b).map fun (q, b) => (⟨p, r, d, y, t, n, q⟩, b)

/-- A pass-through's argument follows its kind (R112), with no presence byte, since the kind says whether there is one (DESIGN CHOICE,
log entry 76); a kind that is none of the six carries none. -/
def rPassArg : Nat → Reader PassArg
  | 0 => fun b => (rStr b).map fun (c, b) => (.clip c, b)
  | 1 => fun b => (r24 b).map fun (f, b) => (.frame f, b)
  | 4 => fun b => (rStr b).map fun (c, b) => (.bytes c, b)
  | _ => fun b => some (.none, b)

def rPassThrough : Reader PassThroughArgs := fun b =>
  (r8 b).bind fun (p, b) => (r8 b).bind fun (k, b) => (rPassArg k b).map fun (a, b) => (⟨p, k, a⟩, b)

def rStep : Reader RawStep := fun b =>
  (r8 b).bind fun (kind, b) => (rOpt r8 b).bind fun (cmd, b) => (rOpt r8 b).bind fun (arg, b) =>
  (rOpt rStr b).bind fun (const, b) => (r8 b).bind fun (anchor, b) => (rs16 b).bind fun (off, b) =>
  (r8 b).bind fun (cond, b) => (r8 b).bind fun (rep, b) => (r8 b).bind fun (sp, b) =>
  (rOpt r8 b).bind fun (mode, b) => (rOpt r8 b).bind fun (clip, b) => (rOpt r8 b).map fun (act, b) =>
    ({ kind := kind, command := cmd, argument := arg, constant := const, anchor := anchor, offset := off,
       condition := cond, repeats := rep, spacing := sp, expected := mode, clipMatch := clip, onMismatch := act }, b)

def rSetTemplate : Reader SetTemplateArgs := fun b =>
  (r8 b).bind fun (t, b) => (rItems rStep b).map fun (s, b) => (⟨t, s⟩, b)

def rWeights : Reader Weights
  | a :: b :: c :: d :: e :: f :: g :: h :: t =>
    some (⟨a.toNat, b.toNat, c.toNat, d.toNat, e.toNat, f.toNat, g.toNat, h.toNat⟩, t)
  | _ => none

def rWatchParams : Reader WatchParams := fun b =>
  (rWeights b).bind fun (w, b) => (r8 b).bind fun (sens, b) => (r8 b).bind fun (rec, b) => (r8 b).bind fun (deg, b) =>
  (r8 b).bind fun (fail, b) => (r8 b).bind fun (back, b) => (r32 b).bind fun (warm, b) => (r32 b).map fun (tol, b) =>
    ({ weights := w, sensitivity := sens, recovery := rec, degradeAt := deg, failAt := fail, recoverAt := back,
       warmUp := warm, agreeTol := tol }, b)

def rConfig : Reader RawConfig := fun b =>
  (r8 b).bind fun (ref, b) => (r8 b).bind fun (prim, b) => (r24 b).bind fun (sp, b) => (r8 b).bind fun (stb, b) =>
  (r8 b).bind fun (pol, b) => (r32 b).bind fun (cw, b) => (r8 b).bind fun (br, b) => (r32 b).bind fun (lead, b) =>
  (r32 b).bind fun (tail, b) => (r32 b).bind fun (ret, b) => (r32 b).bind fun (tol, b) => (r16 b).bind fun (line, b) =>
  (r16 b).bind fun (day, b) => (rWatchParams b).bind fun (w, b) => (rOpt r16 b).map fun (hb, b) =>
    ({ reference := ref, primary := prim, spares := sp, standby := stb, policy := pol, confirmWindow := cw,
       bridge := br, cueLead := lead, tailGuard := tail, returnLead := ret, verifyTol := tol, switchLine := line,
       baseDay := day, watch := w, heartbeat := hb }, b)

def rSetChannel : Reader SetChannelArgs := fun b =>
  (r8 b).bind fun (c, b) => (rConfig b).map fun (g, b) => (⟨c, g⟩, b)

def rTake : Reader TakeArgs := fun b =>
  (r8 b).bind fun (c, b) => (r8 b).map fun (o, b) => (⟨c, o⟩, b)

/-- FORCE is a flag byte, 0 clear and 1 set. -/
def rFlag : Reader Bool := fun b =>
  (r8 b).bind fun (n, b) => if n = 0 then some (false, b) else if n = 1 then some (true, b) else none

def rReturn : Reader ReturnArgs := fun b =>
  (r8 b).bind fun (c, b) => (rOpt rDayLabel b).bind fun (nb, b) => (rFlag b).map fun (f, b) => (⟨c, nb, f⟩, b)

def rAdopt : Reader AdoptArgs := fun b =>
  (r8 b).bind fun (c, b) => (rOpt r8 b).map fun (p, b) => (⟨c, p⟩, b)

def rRelease : Reader ReleaseArgs := fun b =>
  (r8 b).bind fun (c, b) => (r8 b).bind fun (t, b) => (rOpt r8 b).map fun (a, b) => (⟨c, t, a⟩, b)

def rNothing : Reader Unit := fun b => some ((), b)

def rInsert : Reader InsertArgs := fun b =>
  (r32 b).bind fun (p, b) => (rDesc b).map fun (d, b) => (⟨0, p, d⟩, b)

/-- R194: an EDIT EVENT body is sound in form when its operation is 0, 1 or 2 and its length is what that operation
carries. A body without its channel and operation, or of another operation, is a fault of form. -/
def editOf (tag : Nat) : List Byte → Instr
  | c :: o :: b =>
    if o = 0 then
      .editEventInsert tag (match formOf rInsert b with | .sound a => .sound { a with channel := c.toNat } | .faulty => .faulty)
    else if o = 1 then
      .editEventReplace tag (match formOf rDesc b with | .sound d => .sound ⟨c.toNat, d⟩ | .faulty => .faulty)
    else if o = 2 then
      .editEventDelete tag (match formOf r32 b with | .sound i => .sound ⟨c.toNat, i⟩ | .faulty => .faulty)
    else .editEventInsert tag .faulty
  | _ => .editEventInsert tag .faulty

/-- R180: the command of a good control-line frame. -/
def requestOf (tag kind : Nat) (b : List Byte) : Instr :=
  if tag = 0 then .tagZeroFrame
  else match kind with
    | 0x01 => .setReference tag (formOf rSetReference b)
    | 0x02 => .setLinks tag (formOf rSetLinks b)
    | 0x03 => .replicaReset tag (formOf r8 b)
    | 0x04 => editOf tag b
    | 0x05 => .readPlaylist tag (formOf rReadPlaylist b)
    | 0x06 => .readWatch tag (formOf r8 b)
    | 0x07 => .setPort tag (formOf rSetPort b)
    | 0x08 => .passThrough tag (formOf rPassThrough b)
    | 0x09 => .setTemplate tag (formOf rSetTemplate b)
    | 0x0A => .halt tag (formOf r8 b)
    | 0x0B => .resume tag (formOf r8 b)
    | 0x0C => .setChannel tag (formOf rSetChannel b)
    | 0x0D => .clearChannel tag (formOf r8 b)
    | 0x0E => .take tag (formOf rTake b)
    | 0x0F => .confirm tag (formOf r8 b)
    | 0x10 => .veto tag (formOf r8 b)
    | 0x11 => .abortTake tag (formOf r8 b)
    | 0x12 => .readChannel tag (formOf r8 b)
    | 0x13 => .returnToMain tag (formOf rReturn b)
    | 0x14 => .cancelReturn tag (formOf r8 b)
    | 0x15 => .adopt tag (formOf rAdopt b)
    | 0x16 => .release tag (formOf rRelease b)
    | 0x17 => .readAsRun tag (formOf r32 b)
    | 0x18 => .resetPart tag (formOf rNothing b)
    | k => .unknownRequest tag k

/-- R179: the commands of the good frames in a run of bytes on the control line, and the bytes of the frame left being
gathered, from its SYNC on. A LEN above 1024 and a CRC that does not match discard the frame, and the hunt resumes at the byte
after its SYNC; `fuel` bounds the bytes examined. -/
def scanControl : (fuel : Nat) → List Byte → List Instr × List Byte
  | 0, b => ([], b)
  | _ + 1, [] => ([], [])
  | fuel + 1, s :: rest =>
    if s ≠ 0xA5 then scanControl fuel rest
    else match rest with
      | h :: l :: more =>
        let len := h.toNat * 256 + l.toNat
        if len > 1024 then scanControl fuel rest
        else match more with
          | tag :: kind :: tail =>
            if tail.length < len + 2 then ([], s :: rest)
            else
              let body := tail.take len
              if u16 (crc16 (h :: l :: tag :: kind :: body)).toNat = (tail.drop len).take 2 then
                let (is, left) := scanControl fuel (tail.drop (len + 2))
                (requestOf tag.toNat kind.toNat body :: is, left)
              else scanControl fuel rest
          | _ => ([], s :: rest)
      | _ => ([], s :: rest)

/-! ## Replication-link records (R47, R195) -/

/-- The command of a readable channel record. -/
def channelRecord (l : LinkId) (c seq : Nat) : Rec → Instr
  | .put p d => .evPut l c seq p d
  | .swap d => .evSwap l c seq d
  | .drop e => .evDrop l c seq e
  | .wipe => .chWipe l c seq
  | .batchOpen n => .batchOpen l c seq n
  | .batchClose => .batchClose l c seq
  | .base => .base l c seq

/-- R195: the command of a good link frame's record, read for its form against its kind. -/
def recordOf (l : LinkId) : List Byte → Instr
  | [] => .unreadableRecord l
  | k :: t =>
    if k = 0x08 then
      match t with
      | n :: d1 :: d0 :: s1 :: s0 :: ids =>
        (match whole (rPulseIds (s1.toNat * 256 + s0.toNat) 0 16) ids with
         | some xs => .pulse l n.toNat (d1.toNat * 256 + d0.toNat) xs
         | none => .unreadableRecord l)
      | _ => .unreadableRecord l
    else if k = 0 ∨ 8 < k.toNat then .unknownRecordKind l
    else match t with
      | c :: q1 :: q0 :: fields =>
        (match readRec k.toNat fields with
         | some r => channelRecord l c.toNat (q1.toNat * 256 + q0.toNat) r
         | none => .unreadableRecord l)
      | _ => .unreadableRecord l

/-- R45, R195: the commands a run of bytes on a replication link makes, and the frame left being gathered. -/
def scanLink (l : LinkId) : (fuel : Nat) → List Byte → List Instr × List Byte
  | 0, b => ([], b)
  | _ + 1, [] => ([], [])
  | fuel + 1, s :: rest =>
    if s ≠ 0x5A then scanLink l fuel rest
    else match rest with
      | n :: more =>
        if n.toNat < 1 ∨ 80 < n.toNat then
          let (is, left) := scanLink l fuel rest
          (.linkReceiveFault l .check [] :: is, left)
        else if more.length < n.toNat + 1 then ([], s :: rest)
        else if byteSum (s :: n :: more.take (n.toNat + 1)) = 0 then
          let (is, left) := scanLink l fuel (more.drop (n.toNat + 1))
          (recordOf l (more.take n.toNat) :: is, left)
        else
          let (is, left) := scanLink l fuel rest
          (.linkReceiveFault l .check [] :: is, left)
      | _ => ([], s :: rest)

/-! ## Device-line frames (R96) and probe records (R72) -/

/-- R96: the commands a run of bytes on a device line makes, and the frame left being gathered. -/
def scanDevice (p : PortNo) : (fuel : Nat) → List Byte → List Instr × List Byte
  | 0, b => ([], b)
  | _ + 1, [] => ([], [])
  | fuel + 1, s :: rest =>
    if s ≠ 0x96 then scanDevice p fuel rest
    else match rest with
      | n :: more =>
        let bad :=
          let (is, left) := scanDevice p fuel rest
          (.deviceReceiveFault p .check true [] :: is, left)
        if n.toNat < 1 ∨ 40 < n.toNat then bad
        else if more.length < n.toNat + 1 then ([], s :: rest)
        else if byteSum (s :: n :: more.take (n.toNat + 1)) = 0 then
          (match readReply (more.take n.toNat) with
           | some r =>
             let (is, left) := scanDevice p fuel (more.drop (n.toNat + 1))
             (.deviceReply p r :: is, left)
           | none => bad)
        else bad
      | _ => ([], s :: rest)

/-- R72: the commands a run of bytes on the probe line makes, and the record left being gathered. -/
def scanProbe : (fuel : Nat) → List Byte → List Instr × List Byte
  | 0, b => ([], b)
  | _ + 1, [] => ([], [])
  | fuel + 1, s :: rest =>
    if s ≠ 0xC3 then scanProbe fuel rest
    else if rest.length < 7 then ([], s :: rest)
    else if byteSum (s :: rest.take 7) = 0 then
      match readProbe (rest.take 6) with
      | some (c, p) =>
        let (is, left) := scanProbe fuel (rest.drop 7)
        (.probeRecord c p :: is, left)
      | none => ([], s :: rest)
    else
      let (is, left) := scanProbe fuel rest
      (.probeReceiveFault .check [] :: is, left)

end Sys2Proof
end

