-- ==== Sys2Proof/Machine/Flags.lean ====
section
/-! DEFINITION. Flag computations: line status flags (R45, R72, R96), the condition set and its change flags (R76 to R81),
and the weighted sum of the conditions (R79). -/

namespace Sys2Proof.Machine

/-- R45, R96: a fault sets its flag; a flag already set stays set. -/
def LineFlags.mark (f : LineFlags) : LineFault → LineFlags
  | .framing => { f with framing := true }
  | .parity => { f with parity := true }
  | .overrun => { f with overrun := true }
  | .brk => { f with brk := true }
  | .check => { f with check := true }

/-- R72. -/
def ProbeFlags.mark (f : ProbeFlags) : ProbeFault → ProbeFlags
  | .framing => { f with framing := true }
  | .overrun => { f with overrun := true }
  | .brk => { f with brk := true }
  | .check => { f with check := true }

/-- The conditions of two sets combined place by place. -/
def Conds.zip (f : Bool → Bool → Bool) (a b : Conds) : Conds :=
  { noSignal := f a.noSignal b.noSignal, black := f a.black b.black, frozen := f a.frozen b.frozen,
    silent := f a.silent b.silent, tcLoss := f a.tcLoss b.tcLoss, tcJump := f a.tcJump b.tcJump,
    noProbe := f a.noProbe b.noProbe, siteSilent := f a.siteSilent b.siteSilent }

/-- R81: a change flag is set where the presence differs, and one already set stays set. -/
def Conds.changed (change before after : Conds) : Conds :=
  change.zip (fun x y => x || y) (before.zip (fun x y => x != y) after)

/-- One condition's share of W: its weight where it is present. -/
def share (present : Bool) (weight : Nat) : Nat := if present then weight else 0

/-- R79: the sum of the weights of the conditions present. -/
def Conds.weight (w : Weights) (c : Conds) : Nat :=
  share c.noSignal w.noSignal + share c.black w.black + share c.frozen w.frozen + share c.silent w.silent +
    share c.tcLoss w.tcLoss + share c.tcJump w.tcJump + share c.noProbe w.noProbe + share c.siteSilent w.siteSilent

/-- R79: the score after a frame with weighted sum W. -/
def nextScore (p : WatchParams) (score w : Nat) : Nat :=
  if 0 < w then min 255 (score + w * 2 ^ p.sensitivity) else score - p.recovery

/-- R83: health judged from the score without hysteresis. -/
def judge (p : WatchParams) (score : Nat) : Health :=
  if p.failAt ≤ score then .failed else if p.degradeAt ≤ score then .degraded else .healthy

/-- R82 to R84: health after an evaluation whose warm-up count (after the increase) is `warm`. -/
def nextHealth (p : WatchParams) (health : Health) (warm score : Nat) : Health :=
  match health with
  | .unknown => if warm < p.warmUp then .unknown else judge p score
  | .failed =>
    if p.recoverAt < score then .failed else if p.degradeAt ≤ score then .degraded else .healthy
  | _ => judge p score

/-- The last outcome a command's outcome leaves (R119). -/
def DevOutcome.last : DevOutcome → LastOutcome
  | .done => .done
  | .refused _ => .refused
  | .state m _ _ => .state m
  | .timeout => .timeout
  | .lineError => .lineError

/-- R119: a step's condition against the last outcome. -/
def Cond.holds : Cond → Option LastOutcome → Bool
  | .always, _ => true
  | .ifDone, o => o == some .done
  | .ifNotDone, o => o != some .done
  | .ifCued, o => o == some (.state .cued)
  | .ifRolling, o => o == some (.state .rolling)
  | .ifTimeout, o => o == some .timeout

end Sys2Proof.Machine
end

