-- ==== Sys2Proof/Machine/Ops.lean ====
section
/-! DEFINITION. The named operations over the plant's parts: references, channels, ports, links, and what a block hands
out within a step. -/

namespace Sys2Proof.Machine

/-! ## Parts of the plant -/

def Plant.ref (p : Plant) : RefId → Reference
  | .a => p.refA
  | .b => p.refB

def Plant.setRef (p : Plant) (r : RefId) (x : Reference) : Plant :=
  match r with
  | .a => { p with refA := x }
  | .b => { p with refB := x }

def Plant.chan (p : Plant) (c : Chan) : Channel := p.chans[c.val]

def Plant.setChan (p : Plant) (c : Chan) (x : Channel) : Plant := { p with chans := p.chans.set c.val x }

def Plant.modChan (p : Plant) (c : Chan) (f : Channel → Channel) : Plant := p.setChan c (f (p.chan c))

def Plant.port (p : Plant) (i : PortNo) : Port := p.ports[i.val]

def Plant.setPort (p : Plant) (i : PortNo) (x : Port) : Plant := { p with ports := p.ports.set i.val x }

def Plant.modPort (p : Plant) (i : PortNo) (f : Port → Port) : Plant := p.setPort i (f (p.port i))

def Plant.link (p : Plant) : LinkId → Link
  | .l0 => p.link0
  | .l1 => p.link1

def Plant.setLink (p : Plant) (l : LinkId) (x : Link) : Plant :=
  match l with
  | .l0 => { p with link0 := x }
  | .l1 => { p with link1 := x }

def Plant.modLink (p : Plant) (l : LinkId) (f : Link → Link) : Plant := p.setLink l (f (p.link l))

/-- The channels and the ports, in order. -/
def allChans : List Chan := List.finRange 16
def allPorts : List PortNo := List.finRange 20

/-! ## What a block hands out -/

def Plant.emit (p : Plant) (o : Outgoing) : Plant := { p with outbox := p.outbox ++ [o] }

/-- A notice is made, its contents fixed (section 9.4). -/
def Plant.notify (p : Plant) (kind : NoticeKind) (channel : Option Chan) (content : List Byte) : Plant :=
  p.emit (.notice { kind := kind, channel := channel, content := content })

/-- A back-channel record is made (R69). -/
def Plant.sendBack (p : Plant) (r : BackRec) : Plant := p.emit (.back r)

/-! ## Free choices -/

/-- The order a Lehmer code gives a list; every order has a code. -/
def permute {α : Type} : (fuel : Nat) → (code : Nat) → List α → List α
  | 0, _, l => l
  | _ + 1, _, [] => []
  | _ + 1, _, [x] => [x]
  | n + 1, code, l =>
    (l[code % l.length]?).toList ++ permute n (code / l.length) (l.eraseIdx (code % l.length))

/-- The channels in a free order (log entry 3). -/
def Plant.inFreeOrder (p : Plant) (l : List Chan) : List Chan := permute l.length (Config.channelOrder p.free) l

def Plant.tickFree (p : Plant) : Plant := { p with free := p.free + 1 }

/-! ## A channel's configuration and timeline -/

/-- The configuration the channel runs with; a channel in IDLE has none. -/
def Plant.config (p : Plant) (c : Chan) : Option ChannelConfig := (p.chan c).config

/-- The rate family of a channel's reference. -/
def Plant.family (p : Plant) (c : Chan) : Family :=
  match p.config c with
  | some g => (p.ref g.reference).family
  | none => .f25

/-- The channel's cue lead. -/
def Plant.lead (p : Plant) (c : Chan) : Nat :=
  match p.config c with
  | some g => g.cueLead
  | none => 0

/-- R16: a CTF of the channel as it is reported. -/
def Plant.dayLabel (p : Plant) (c : Chan) (t : Nat) : DayLabel := dayLabelOf (p.family c) (p.chan c).baseDay t

def Plant.ctfBytes (p : Plant) (c : Chan) (t : Nat) : List Byte := dayLabelBytes (p.dayLabel c t)

/-- A channel is bound to a reference by its configuration. -/
def Plant.boundTo (p : Plant) (r : RefId) (c : Chan) : Bool :=
  match p.config c with
  | some g => g.reference == r && (p.chan c).mode != .idle
  | none => false

/-- The channels bound to a reference that are not IDLE. -/
def Plant.bound (p : Plant) (r : RefId) : List Chan := allChans.filter (p.boundTo r)

/-- The modes in which the channel is in deferral (R64). -/
def Mode.deferral : Mode → Bool
  | .onLocal | .returning | .orphaned => true
  | _ => false

/-- LOCAL and RETURNING. -/
def Mode.running : Mode → Bool
  | .onLocal | .returning => true
  | _ => false

/-- R143: the channel's replica or agreement is in doubt. -/
def Plant.doubt (p : Plant) (c : Chan) : Bool :=
  let x := p.chan c
  x.replica.state == .stale || x.replica.state == .awaitBase || x.watch.diverged

/-- The spare lent to the channel (chapter 5: the port whose holder it is). -/
def Plant.heldSpare (p : Plant) (c : Chan) : Option PortNo :=
  allPorts.find? fun i => (p.port i).holder == some c

/-- The channel's primary port. -/
def Plant.primary (p : Plant) (c : Chan) : Option PortNo := (p.config c).map (·.primary)

/-- The preroll of the channel's port in use, or of its primary port when it has none (R118). -/
def Plant.prerollInUse (p : Plant) (c : Chan) : Nat :=
  match (p.chan c).portInUse with
  | some i => (p.port i).preroll
  | none => match p.primary c with
    | some i => (p.port i).preroll
    | none => 0

/-! ## Events -/

/-- R32: neither ECLIPSED nor BEYOND, and not SKIPPED. -/
def Event.unmarked (e : Event) : Bool := !e.eclipsed && !e.beyond && e.cue != .skipped

/-- R21: an event is frozen once its cue state has left PENDING. -/
def Event.frozen (e : Event) : Bool := e.cue != .pending

/-- An unmarked event whose resolved interval covers a frame. -/
def Event.covers (t : Nat) (e : Event) : Bool := e.unmarked && e.rstart ≤ t && t < e.rend

/-- The event covering a frame (R88, R150). -/
def coverAt (l : List Event) (t : Nat) : Option Event := l.find? (Event.covers t)

def findEvent (l : List Event) (id : Nat) : Option Event := l.find? (·.id == id)

/-- Changes the event that bears an id. -/
def modEvent (l : List Event) (id : Nat) (f : Event → Event) : List Event :=
  l.map fun e => if e.id == id then f e else e

def Plant.modEvent (p : Plant) (c : Chan) (id : Nat) (f : Event → Event) : Plant :=
  p.modChan c fun x => { x with playlist := Machine.modEvent x.playlist id f }

/-- The events after the one that bears an id. -/
def eventsAfter : List Event → Nat → List Event
  | [], _ => []
  | e :: l, id => if e.id == id then l else eventsAfter l id

/-- The pool's free records: those that belong to no playlist (R19). -/
def Plant.freeRecords (p : Plant) : Nat := 4096 - (allChans.map fun c => (p.chan c).playlist.length).sum

/-! ## Ordered insertion -/

/-- Inserts behind every element that does not come after the new one: a stable sort's step. -/
def insertBy {α : Type} (before : α → α → Bool) (x : α) : List α → List α
  | [] => [x]
  | y :: l => if before x y then x :: y :: l else y :: insertBy before x l

def sortBy {α : Type} (before : α → α → Bool) (l : List α) : List α := l.foldl (fun acc x => insertBy before x acc) []

end Sys2Proof.Machine
end

