-- ==== Sys2Proof/Machine/Resolution.lean ====
section
/-! DEFINITION. Timeline resolution (section 2.6): one forward pass over a playlist. `done` always holds the events already
visited, the nearest first, so that a walk back towards the head is a walk down that list. -/

namespace Sys2Proof.Machine

/-- R32: the previous end, from the events visited, nearest first; absent where there is no predecessor. -/
def prevEnd (done : List Event) : Option Nat := (done.find? Event.unmarked).map (·.rend)

/-- R40: start plus duration, or the cut point where that is earlier, clamped to the window's end. -/
def endOf (window start duration : Nat) (cut : Option Nat) : Nat :=
  min window (match cut with | some k => min k (start + duration) | none => start + duration)

/-- R37: an event eclipsed by a walk, placed at `h` with zero length. A hard event so placed after its label is LATE
(R36). -/
def Event.eclipse (h : Nat) (e : Event) : Event :=
  { e with rstart := h, rend := h, eclipsed := true, beyond := false, cut := none,
           late := e.rule == .fixedHard && decide (e.labelCtf.getD 0 < h) }

/-- R37, R39: cut at `h` where the event ends after it. An event that ends at `h` already is not cut short and takes no cut point, also
where `h` is the end floor that R38 has moved to (DEDUCED, log entry 81). -/
def Event.cutAt (h : Nat) (e : Event) : Event := if h < e.rend then { e with cut := some h, rend := h } else e

/-- R37: the walk passes over this event: SKIPPED, or eclipsed already. An event marked BEYOND in this pass is not passed
over. -/
def Event.passed (e : Event) : Bool := e.cue == .skipped || (e.cue == .pending && e.eclipsed)

/-- R37: the walk eclipses this event: pending, with its start at or after `h`. -/
def Event.under (h : Nat) (e : Event) : Bool := e.cue == .pending && decide (h ≤ e.rstart)

/-- R37: the event at which a walk back from `h` stops. -/
def stopOf (h : Nat) : List Event → Option Event
  | [] => none
  | e :: l => if e.passed || e.under h then stopOf h l else some e

/-- R38: where the walk stops at a frozen event that ends after `h`, the hard start moves to its end floor. -/
def hardStart (floor h : Nat) (done : List Event) : Nat :=
  match stopOf h done with
  | some e => if e.frozen && decide (h < e.rend) then max h (max (e.rstart + 1) floor) else h
  | none => h

/-- R37, R39: the walk back: events starting at or after `h` are eclipsed and placed at `place`, and the event it stops
at is cut there. -/
def walkBack (h place : Nat) : List Event → List Event
  | [] => []
  | e :: l =>
    if e.passed then e :: walkBack h place l
    else if e.under h then e.eclipse place :: walkBack h place l
    else e.cutAt place :: l

/-- R34 to R36: a pending event placed at a start, its marks computed afresh (R40, R41). -/
def Event.place (window start : Nat) (e : Event) : Event :=
  let late := e.rule == .fixedHard && decide (e.labelCtf.getD 0 < start)
  if window ≤ start then
    { e with rstart := window, rend := window, cut := none, eclipsed := false, beyond := true, late := late }
  else
    { e with rstart := start, rend := endOf window start e.duration none, cut := none, eclipsed := false,
             beyond := false, late := late }

/-- One event of the pass. -/
def visit (window floor : Nat) (done : List Event) (e : Event) : List Event :=
  match e.cue with
  | .skipped => e :: done
  | .pending =>
    match e.rule with
    | .follow => e.place window (max ((prevEnd done).getD e.rstart) floor) :: done
    | .fixedSoft =>
      e.place window (max (e.labelCtf.getD 0) (max ((prevEnd done).getD 0) floor)) :: done
    | .fixedHard =>
      let h := max (e.labelCtf.getD 0) floor
      let h' := hardStart floor h done
      e.place window h' :: walkBack h (min window h') done
  | _ => { e with rend := endOf window e.rstart e.duration e.cut } :: walkBack e.rstart e.rstart done

/-- R32: resolution of a playlist, with the end of the window and the floor. -/
def resolveList (window floor : Nat) (l : List Event) : List Event := (l.foldl (visit window floor) []).reverse

/-- R32: timeline resolution of a channel with its present now and cue lead. -/
def Plant.resolve (p : Plant) (c : Chan) : Plant :=
  let window := 4 * (p.family c).fpd
  p.modChan c fun x => { x with playlist := resolveList window (x.now + p.lead c) x.playlist }

end Sys2Proof.Machine
end

