-- ==== Sys2Proof/Machine/Playlist.lean ====
section
/-! DEFINITION. The Playlist Store's operations (sections 2.2 to 2.4): the checks of an event description, INSERT, REPLACE,
DELETE and emptying, operation lists, and what each does to the Cue Sequencer's entries (R129). -/

namespace Sys2Proof.Machine

/-! ## Event descriptions (R20) -/

/-- A character of a clip id. -/
def clipChar (b : Byte) : Bool := decide (0x20 ≤ b.toNat) && decide (b.toNat ≤ 0x7E)

/-- The table of section 2.2 for a clip part. -/
def clipSound (c : RawClip) : Bool :=
  decide (c.template < 32) && decide (c.som < 16777216) && decide (1 ≤ c.clip.length) &&
    decide (c.clip.length ≤ 32) && c.clip.all clipChar

/-- R20, the first check: fields present and in range. -/
def descSound (f : Family) (d : RawDesc) : Bool :=
  decide (0 < d.id) && decide (d.id < 4294967296) && decide (0 < d.duration) && decide (d.duration < f.fpd) &&
    (match StartRule.ofCode d.rule with
     | some .follow => d.start.isNone
     | some _ => d.start.isSome && decide ((d.start.map DayLabel.day).getD 0 < 65536)
     | none => false) &&
    (match EventKind.ofCode d.kind, d.clip with
     | some .clip, some c =>
       clipSound c && (match d.eom with | some e => decide (c.som < e) && decide (e < 16777216) | none => true)
     | some .filler, none => d.eom.isNone && !d.noJoin
     | _, _ => false)

/-- A well-formed description: the record it makes, and whether its label was moved forward (R11). -/
structure Accepted where
  event : Event
  moved : Bool
  deriving DecidableEq, Repr

/-- R21: a new record, with no marks, no cut point and cue state PENDING. Its start is 0 until a resolution has run or, for FOLLOW, until
it is placed; an operation list that makes a FIXED event a FOLLOW one before that keeps this 0 as its last resolved start (DESIGN
CHOICE, log entry 80). -/
def newEvent (d : RawDesc) (start : Option DayLabel) (ctf : Option Nat) : Event :=
  { id := d.id, kind := (EventKind.ofCode d.kind).getD .clip, rule := (StartRule.ofCode d.rule).getD .follow,
    start := start, duration := d.duration,
    clip := d.clip.map fun c => { template := c.template, som := c.som, clip := c.clip, eom := d.eom, noJoin := d.noJoin },
    labelCtf := ctf, rstart := 0, rend := 0, cut := none, eclipsed := false, beyond := false, late := false,
    cue := .pending, asRun := false, progress := [], bound := none, joinOffset := none, passedOver := false,
    skipEnded := false, emptyTold := false, begunHalted := false }

/-- R20: the three checks in order. -/
def checkDesc (f : Family) (baseDay : Nat) (d : RawDesc) : Except Status Accepted :=
  if descSound f d then
    match d.start with
    | none => .ok { event := newEvent d none none, moved := false }
    | some s =>
      if s.label.valid f then
        match ctfOf f baseDay s with
        | some t =>
          .ok { event := newEvent d (some { s with label := s.label.moved f }) (some t), moved := s.label.dropped f }
        | none => .error .outOfWindow
      else .error .badTime
  else .error .badArgument

/-! ## Operations on a list (R23 to R29) -/

inductive PlOp where
  | insert (pred : Nat) (desc : RawDesc)
  | replace (desc : RawDesc)
  | delete (id : Nat)
  | empty
  deriving DecidableEq, Repr

/-- What the store reads besides the playlist: `floor` is now plus cue lead. -/
structure PlEnv where
  family : Family
  baseDay : Nat
  floor : Nat
  deriving DecidableEq, Repr

/-- What an operation did: the list, the free records left, and whether its status is LATE under R24, R26 or R27 or its
label was moved (R31). -/
structure PlDone where
  list : List Event
  free : Nat
  late : Bool
  moved : Bool
  deriving DecidableEq, Repr

/-- R24: the resolved start of the nearest frozen event after the position. -/
def frozenAfter (after : List Event) : Option Nat := (after.find? Event.frozen).map (·.rstart)

/-- The list split after the predecessor, or at the head for 0. -/
def splitAfter (l : List Event) (pred : Nat) : Option (List Event × List Event) :=
  if pred = 0 then some ([], l)
  else match l with
    | [] => none
    | e :: t => if e.id = pred then some ([e], t) else (splitAfter t pred).map fun (a, b) => (e :: a, b)

/-- R23, R24. -/
def plInsert (v : PlEnv) (l : List Event) (free pred : Nat) (d : RawDesc) : Except Status PlDone :=
  match checkDesc v.family v.baseDay d with
  | .error s => .error s
  | .ok a =>
    match splitAfter l pred with
    | none => .error .noSuchEvent
    | some (before, after) =>
      if l.any (·.id == d.id) then .error .duplicateId
      else if 1024 ≤ l.length ∨ free = 0 then .error .full
      else if a.event.rule = .follow ∧ l = [] then .error .noAnchor
      else match frozenAfter after with
        | some t =>
          let e := { a.event with cue := .skipped, rstart := t, rend := t }
          .ok { list := before ++ e :: after, free := free - 1, late := true, moved := a.moved }
        | none =>
          let e := if a.event.rule = .follow then { a.event with rstart := v.floor } else a.event
          .ok { list := before ++ e :: after, free := free - 1, late := false, moved := a.moved }

/-- R25: a PENDING event takes the new description and keeps its last resolved start; its steps are queued afresh
(R129). -/
def Event.replaced (old new : Event) : Event := { new with rstart := old.rstart, rend := old.rend }

/-- R26: the two descriptions differ in the duration alone. -/
def Event.sameButDuration (old new : Event) : Bool :=
  old.kind == new.kind && old.rule == new.rule && old.start == new.start && old.clip == new.clip

/-- R26: the duration a frozen event takes. -/
def frozenDuration (v : PlEnv) (old : Event) (duration : Nat) : Nat := max duration (min old.rend v.floor - old.rstart)

/-- R25, R26. -/
def plReplace (v : PlEnv) (l : List Event) (free : Nat) (d : RawDesc) : Except Status PlDone :=
  match checkDesc v.family v.baseDay d with
  | .error s => .error s
  | .ok a =>
    match findEvent l d.id with
    | none => .error .noSuchEvent
    | some old =>
      match old.cue with
      | .pending =>
        .ok { list := modEvent l d.id fun e => e.replaced a.event, free := free, late := false, moved := a.moved }
      | .done | .skipped =>
        .ok { list := l, free := free, late := true, moved := a.moved }
      | _ =>
        let n := frozenDuration v old d.duration
        .ok { list := modEvent l d.id fun e => { e with duration := n }, free := free,
              late := !(old.sameButDuration a.event && n == d.duration), moved := a.moved }

/-- R27. -/
def plDelete (v : PlEnv) (l : List Event) (free id : Nat) : Except Status PlDone :=
  match findEvent l id with
  | none => .error .noSuchEvent
  | some old =>
    match old.cue with
    | .airing => .ok { list := modEvent l id (Event.cutAt v.floor), free := free, late := true, moved := false }
    | _ => .ok { list := l.filter (·.id != id), free := free + 1, late := false, moved := false }

/-- One operation, without the resolution that follows it. -/
def plApply (v : PlEnv) (l : List Event) (free : Nat) : PlOp → Except Status PlDone
  | .insert pred d => plInsert v l free pred d
  | .replace d => plReplace v l free d
  | .delete id => plDelete v l free id
  | .empty => .ok { list := [], free := free + l.length, late := false, moved := false }

/-- R29: the check of an operation list: the place of the first operation refused, and its status. -/
def plCheck (v : PlEnv) : (place : Nat) → List Event → (free : Nat) → List PlOp → Except (Nat × Status) Unit
  | _, _, _, [] => .ok ()
  | n, l, free, o :: os =>
    match plApply v l free o with
    | .error s => .error (n, s)
    | .ok r => plCheck v (n + 1) r.list r.free os

/-! ## The Cue Sequencer's side (R120, R129) -/

/-- R120: the first event neither DONE nor SKIPPED whose passed-over flag is clear. -/
def cursorOf (l : List Event) : Option Nat :=
  (l.find? fun e => e.cue != .done && e.cue != .skipped && !e.passedOver).map (·.id)

def Channel.recursor (x : Channel) : Channel := { x with seq := { x.seq with cursor := cursorOf x.playlist } }

/-- An entry of this event, still standing for it. -/
def StepEntry.isOf (id : Nat) (s : StepEntry) : Bool := s.event == id && s.standing == .live

/-- Drops the queued entries of an event. -/
def Channel.dropEntries (x : Channel) (id : Nat) : Channel :=
  { x with seq := { x.seq with queue := x.seq.queue.filter fun s => !s.isOf id } }

/-- Drops the queued entries of the event that an entry stands for. -/
def Channel.dropEntriesLike (x : Channel) (s : StepEntry) : Channel :=
  { x with seq := { x.seq with queue := x.seq.queue.filter fun t => !(t.event == s.event && t.standing == s.standing) } }

/-- Changes the standing of an event's entries. -/
def StepEntry.leave (now : Standing) (id : Nat) (s : StepEntry) : StepEntry := if s.isOf id then { s with standing := now } else s

/-- Changes every port. -/
def Plant.mapPorts (p : Plant) (f : Port → Port) : Plant := { p with ports := p.ports.map f }

/-- An outstanding command of the channel's Cue Sequencer is marked, so that its outcome moves nothing. -/
def Port.markOutstanding (x : Port) (c : Chan) (f : StepEntry → StepEntry) : Port :=
  match x.outstanding with
  | some ⟨cmd, .cue c' s⟩ => if c' = c then { x with outstanding := some ⟨cmd, .cue c' (f s)⟩ } else x
  | _ => x

/-- R108: the channel's Cue Sequencer withdraws its command from the waiting slot. -/
def Port.withdrawSlot (x : Port) (c : Chan) (which : StepEntry → Bool) : Port :=
  match x.slotCue with
  | some (c', s) => if c' = c && which s then { x with slotCue := none } else x
  | none => x

/-- The slot commands of the channel withdrawn on every port, and its outstanding commands marked as removed (R129,
R131). -/
def Plant.withdrawCue (p : Plant) (c : Chan) (which : StepEntry → Bool) : Plant :=
  p.mapPorts fun x =>
    (x.withdrawSlot c which).markOutstanding c fun s => if which s then { s with standing := .removed } else s

/-- R129: a DELETE takes the event off the playlist. -/
def Plant.eventRemoved (p : Plant) (c : Chan) (id : Nat) : Plant :=
  (p.modChan c fun x => (x.dropEntries id).recursor).withdrawCue c (StepEntry.isOf id)

/-- R129: an emptying flushes the queue and withdraws the slot command; the last-ended memory becomes absent (R87). -/
def Plant.emptied (p : Plant) (c : Chan) : Plant :=
  (p.modChan c fun x =>
    { x with seq := { x.seq with queue := [], cursor := none }, watch := { x.watch with lastEnded := none } }).withdrawCue
    c fun _ => true

/-- What an operation on the list means for the sequencer and the watch. -/
def Plant.cueEffect (p : Plant) (c : Chan) (old : List Event) : PlOp → Plant
  | .insert _ d =>
    (match findEvent (p.chan c).playlist d.id with
     | some e => if e.cue = .skipped then p else p.modChan c Channel.recursor
     | none => p)
  | .replace d =>
    (match findEvent old d.id with
     | some e => if e.cue = .pending then p.modChan c fun x => x.dropEntries d.id else p
     | none => p)
  | .delete id =>
    (match findEvent (p.chan c).playlist id with
     | some _ => p
     | none => p.eventRemoved c id)
  | .empty => p.emptied c

/-! ## Operations on a channel's playlist -/

def Plant.plEnv (p : Plant) (c : Chan) : PlEnv :=
  { family := p.family c, baseDay := (p.chan c).baseDay, floor := (p.chan c).now + p.lead c }

/-- One operation carried out, without resolution. -/
def Plant.plRun (p : Plant) (c : Chan) (o : PlOp) : Except Status (Plant × PlDone) :=
  let old := (p.chan c).playlist
  match plApply (p.plEnv c) old p.freeRecords o with
  | .error s => .error s
  | .ok r => .ok ((p.modChan c fun x => { x with playlist := r.list }).cueEffect c old o, r)

/-- R23, R25, R27, R28: one operation outside an operation list, with the resolution that follows (an emptied playlist
needs none). -/
def Plant.plOne (p : Plant) (c : Chan) (o : PlOp) : Except Status (Plant × PlDone) :=
  match p.plRun c o with
  | .error s => .error s
  | .ok (q, r) => .ok (q.resolve c, r)

/-- The operations of a checked list, one after another. -/
def Plant.plRunAll (p : Plant) (c : Chan) : List PlOp → Plant
  | [] => p
  | o :: os =>
    match p.plRun c o with
    | .error _ => p.plRunAll c os
    | .ok (q, _) => q.plRunAll c os

/-- R29: an operation list, carried out all together or not at all. -/
def Plant.plList (p : Plant) (c : Chan) (ops : List PlOp) : Except (Nat × Status) Plant :=
  match plCheck (p.plEnv c) 0 (p.chan c).playlist p.freeRecords ops with
  | .error e => .error e
  | .ok () => .ok ((p.plRunAll c ops).resolve c)

/-- R28: emptying outside an operation list. -/
def Plant.emptyPlaylist (p : Plant) (c : Chan) : Plant :=
  (p.modChan c fun x => { x with playlist := [] }).emptied c

/-! ## Reporting an event (R31, R43) -/

/-- An event's stored description, as it is laid out in section 10.3. -/
def Event.desc (e : Event) : RawDesc :=
  { id := e.id, kind := e.kind.code, rule := e.rule.code, duration := e.duration, start := e.start,
    clip := e.clip.map fun c => { template := c.template, som := c.som, clip := c.clip },
    eom := e.clip.bind (·.eom), noJoin := (e.clip.map (·.noJoin)).getD false }

/-- R21: TRUNCATED, a cut point below start plus duration. -/
def Event.truncated (e : Event) : Bool :=
  match e.cut with
  | some k => decide (k < e.rstart + e.duration)
  | none => false

end Sys2Proof.Machine
end

