-- ==== Sys2Proof/Machine/AsRun.lean ====
section
/-! DEFINITION. The As-Run Log as its channels see it (section 8.2): opening and closing a channel's entry, and the entry of
an event retired without having been on air. The ring itself takes the entries when the step ends (Delivery). -/

namespace Sys2Proof.Machine

/-- R167: an entry is handed to the ring. -/
def Plant.appendEntry (p : Plant) (item : AsRunItem) : Plant := p.emit (.asRun item)

/-- R165: the channel's open entry is closed and appended, its CTFs turned into labels against the base day in force; the
event's as-run written becomes yes. -/
def Plant.closeEntry (p : Plant) (c : Chan) (exit : ExitKind) (finish : Nat) : Plant :=
  match (p.chan c).openEntry with
  | none => p
  | some o =>
    let item : AsRunItem :=
      { channel := c, event := o.event, start := p.dayLabel c o.start, finish := p.dayLabel c finish, kind := some o.kind,
        exit := exit, port := o.port }
    ((p.appendEntry item).modChan c fun x => { x with openEntry := none }).modEvent c o.event fun e =>
      { e with asRun := true }

/-- R165: END where the open entry's event has its resolved end at or before a frame, CUT otherwise. -/
def Plant.exitAt (p : Plant) (c : Chan) (event frame : Nat) : ExitKind :=
  match findEvent (p.chan c).playlist event with
  | some e => if e.rend ≤ frame then .finish else .cut
  | none => .cut

/-- R164: an open entry is made; the open entry of another event is closed at the new entry's actual start. -/
def Plant.openEntryFor (p : Plant) (c : Chan) (event start : Nat) (kind : EntryKind) (port : Option PortNo) : Plant :=
  let q := match (p.chan c).openEntry with
    | some o => p.closeEntry c (p.exitAt c o.event start) start
    | none => p
  q.modChan c fun x => { x with openEntry := some { event := event, start := start, kind := kind, port := port } }

/-- R164: a join for an event at frame t. An entry of the event open with kind START or JOIN stays as it stands, whatever port it
names (log entry 86), and one of kind FILLER is closed CUT; so is one that a port loss or a failed join has made due to end CUT (R154,
R161). -/
def Plant.joinEntry (p : Plant) (c : Chan) (event t : Nat) (kind : EntryKind) (port : Option PortNo) : Plant :=
  match (p.chan c).openEntry with
  | some o =>
    if o.event = event then
      (if o.kind = .filler ∨ o.cutDue then (p.closeEntry c .cut t).openEntryFor c event t kind port else p)
    else p.openEntryFor c event t kind port
  | none => p.openEntryFor c event t kind port

/-- R161, R165: the open entry is of a CLIP event put on air from a port; a FILLER event's own source is FILLER, whatever port
an adoption noted for it. -/
def Channel.fromServer (x : Channel) (o : OpenEntry) : Bool :=
  o.port.isSome && o.kind != .filler && (findEvent x.playlist o.event).all fun e => e.kind == .clip

/-- R161, R165: the open entry ends where the switch, which stood at `before`, is at FILLER: one of a CLIP event put on air from a port.
Where the switch stood at FILLER already, an event such as an adopted one keeps its entry, and only one opened at this frame's start,
whose LOCAL switch has not been made, ends (DEDUCED, log entry 71). -/
def Channel.endsOnFiller (x : Channel) (before : SwitchPos) (o : OpenEntry) : Bool :=
  x.fromServer o && (before != .filler || o.kind == .start)

/-- R154, R161: the open entry of a CLIP event on air from a port is due to end CUT at the next switch line. -/
def Channel.markCut (x : Channel) : Channel :=
  if x.switch = .onLocal then
    { x with openEntry := x.openEntry.map fun o => { o with cutDue := o.cutDue || x.fromServer o } }
  else x

/-- R166: the entry of an event retired without one. -/
def Plant.notAired (p : Plant) (c : Chan) (e : Event) : Plant :=
  p.appendEntry { channel := c, event := e.id, start := p.dayLabel c e.rstart, finish := p.dayLabel c e.rend, kind := none,
                  exit := .notAired, port := none }

/-- The Changeover Unit holds the switch for a join, a port loss or another change of its own (R132, R163). -/
def Channel.held (x : Channel) : Bool := x.pendingSw.any fun w => w.cause != .follow

/-- R172, R170: a return is pending and its frame has come. -/
def Channel.returnDue (x : Channel) : Bool :=
  match x.returnRec with
  | some r => x.mode == .returning && r.state == .pending && decide (r.tRet ≤ x.now)
  | none => false

/-- R164: an event becomes AIRING at its start; `halted` is the halt flag as it stands then (R133). A FILLER event has its entry also
where a forward step has passed its end too (R127, R15); a CLIP event has none then, since switch following never acts on it (DEDUCED,
log entry 40). -/
def Plant.airingEntry (p : Plant) (c : Chan) (halted : Bool) (e : Event) : Plant :=
  let x := p.chan c
  if x.mode.running && !x.returnDue then
    match e.kind with
    | .filler => p.openEntryFor c e.id e.rstart .start none
    | .clip =>
      if x.held || decide (e.rend ≤ x.now) then p
      else if halted || x.portInUse.isNone then p.openEntryFor c e.id e.rstart .filler none
      else p.openEntryFor c e.id e.rstart .start x.portInUse
  else p

/-- R165: an event becomes DONE: END at its resolved end, or CUT at the new now where a forward step has passed the end
(R15). -/
def Plant.doneEntry (p : Plant) (c : Chan) (stepped : Bool) (e : Event) : Plant :=
  match (p.chan c).openEntry with
  | some o =>
    if o.event = e.id then
      (if stepped then p.closeEntry c .cut (p.chan c).now else p.closeEntry c .finish e.rend)
    else p
  | none => p

end Sys2Proof.Machine
end

