-- ==== Sys2Proof/Machine/Cue.lean ====
section
/-! DEFINITION. The Cue Sequencer (chapter 6): due frames, the step queue, outcomes and VERIFY, cue states, HALT, joins and
retirement. -/

namespace Sys2Proof.Machine

/-! ## Templates and due frames (sections 6.1, R118) -/

/-- The template an event uses: its bound copy, or while PENDING the template it names (R116). -/
def Plant.templateOf (p : Plant) (e : Event) : List Step :=
  match e.bound with
  | some t => t
  | none => match e.clip with
    | some k => if h : k.template < 32 then p.templates[k.template] else []
    | none => []

/-- Every (step, repetition) of a template. -/
def repetitions (t : List Step) : List (Nat × Nat) :=
  t.zipIdx.flatMap fun (s, n) => (List.range (s.repeats + 1)).map fun k => (n, k)

/-- R118: a step's anchor frame for an event, with the preroll P. -/
def Anchor.frame (a : Anchor) (preroll : Nat) (e : Event) : Int :=
  match a with
  | .start => e.rstart
  | .rollPoint => (e.rstart : Int) - preroll
  | .finish => e.rend

/-- R118: the due frame of repetition k; below 0 it is 0. Where the step's own due frame lies below 0, repetition k's is counted from
there, and only the sum is raised to 0 (DESIGN CHOICE, log entry 84). -/
def dueFrame (preroll : Nat) (e : Event) (s : Step) (k : Nat) : Nat :=
  (s.anchor.frame preroll e + s.offset + (k * s.spacing : Nat)).toNat

/-- R118: the roll point. -/
def rollPoint (preroll : Nat) (e : Event) : Nat := e.rstart - preroll

/-- R117: what an entry sends or checks, its arguments taken from the event as it stands. -/
def entryAction (e : Event) (b : StepBody) : EntryAction :=
  let clip := (e.clip.map ClipInfo.clip).getD []
  match b with
  | .sendSelect => .send (.select clip)
  | .sendPoint => .send (.point ((e.clip.map ClipInfo.som).getD 0 + e.joinOffset.getD 0))
  | .sendRoll => .send .roll
  | .sendStop => .send .stop
  | .sendAux k => .send (.aux k)
  | .sendAsk => .send .ask
  | .verify m withClip a => .verify m (if withClip then some clip else none) a

/-- A step's entries for an event that are neither queued nor taken and are due by now (R121). A repetition due after the
event's resolved end is due after DONE and is not queued (R118). -/
def dueEntries (preroll now : Nat) (e : Event) (t : List Step) : List StepEntry :=
  t.zipIdx.flatMap fun (s, n) =>
    (List.range (s.repeats + 1)).filterMap fun k =>
      let due := dueFrame preroll e s k
      if e.progress.contains (n, k) || decide (now < due) || decide (e.rend < due) then none
      else some { event := e.id, step := n, rep := k, isLast := k == s.repeats, due := due, cond := s.cond,
                  action := entryAction e s.body, standing := .live }

/-- The events from the cursor on. -/
def fromCursor (l : List Event) : Option Nat → List Event
  | none => []
  | some id => l.dropWhile (·.id != id)

/-- R121: the newly due entries of a channel, in the order in which they join the queue. -/
def Plant.newlyDue (p : Plant) (c : Chan) : List StepEntry :=
  let x := p.chan c
  let events := (fromCursor x.playlist x.seq.cursor).filter fun e => e.unmarked && e.cue != .done
  sortBy (fun a b => decide (a.due < b.due)) (events.flatMap fun e => dueEntries (p.prerollInUse c) x.now e (p.templateOf e))

/-- An entry's repetition is queued or taken. -/
def markProgress (l : List Event) (s : StepEntry) : List Event :=
  modEvent l s.event fun e => { e with progress := e.progress ++ [(s.step, s.rep)] }

/-- R121: queueing; a full queue leaves the rest out. -/
def Plant.enqueueDue (p : Plant) (c : Chan) : Plant :=
  let entries := (p.newlyDue c).take (16 - (p.chan c).seq.queue.length)
  p.modChan c fun x =>
    { x with seq := { x.seq with queue := x.seq.queue ++ entries }, playlist := entries.foldl markProgress x.playlist }

/-- R122: whether the channel's steps are issued. -/
def Plant.issues (p : Plant) (c : Chan) : Bool :=
  let x := p.chan c
  !x.seq.halted &&
    match x.mode with
    | .onLocal | .returning => true
    | .shadow | .confirming | .taking => (p.config c).any fun g => g.standby == .hot
    | .idle | .orphaned => false

/-! ## Cue states -/

/-- An event leaves PENDING and binds its template (R116). -/
def Plant.bindTo (p : Plant) (s : CueState) (e : Event) : Event :=
  { e with cue := s, bound := some (p.templateOf e) }

/-- An event becomes SKIPPED; one that leaves PENDING so binds its template (R116). -/
def Plant.skip (p : Plant) (e : Event) : Event := if e.cue = .pending then p.bindTo .skipped e else { e with cue := .skipped }

/-- R123: the first entry taken of a PENDING event moves it to CUEING. An event that has become ECLIPSED or BEYOND since its
entry was queued stays PENDING (R21, R40), and the entry is taken and sent all the same (DEDUCED, log entry 55). -/
def Plant.taken (p : Plant) (c : Chan) (s : StepEntry) : Plant :=
  if s.standing = .live then
    p.modEvent c s.event fun e => if e.cue = .pending ∧ e.unmarked then p.bindTo .cueing e else e
  else p

/-! ## Notices -/

/-- The causes of SEQUENCE HALTED (R133), in the order listed. -/
inductive HaltCause where
  | host
  | verify (event step : Nat)
  deriving DecidableEq, Repr

/-- R133: SEQUENCE HALTED: the flag and, where it is set, the cause. -/
def Plant.tellHalted (p : Plant) (c : Chan) : Option HaltCause → Plant
  | some .host => p.notify .sequenceHalted (some c) (flag true ++ opt u8 (some 0) ++ opt u32 none ++ opt u8 none)
  | some (.verify e s) => p.notify .sequenceHalted (some c) (flag true ++ opt u8 (some 1) ++ opt u32 (some e) ++ opt u8 (some s))
  | none => p.notify .sequenceHalted (some c) (flag false ++ opt u8 none ++ opt u32 none ++ opt u8 none)

/-- The reasons of CUE FAULT, in the order R125 and R128 list them. -/
inductive CueReason where
  | mismatch (expected reported : DevMode) (clip : List Byte)
  | refused
  | timeout
  | lineError
  | emptyTemplate
  deriving DecidableEq, Repr

def CueReason.bytes : CueReason → List Byte
  | .mismatch e m k => u8 0 ++ opt u8 (some e.code) ++ opt u8 (some m.code) ++ opt str (some k)
  | .refused => u8 1 ++ u8 0 ++ u8 0 ++ u8 0
  | .timeout => u8 2 ++ u8 0 ++ u8 0 ++ u8 0
  | .lineError => u8 3 ++ u8 0 ++ u8 0 ++ u8 0
  | .emptyTemplate => u8 4 ++ u8 0 ++ u8 0 ++ u8 0

/-- R125: CUE FAULT for a VERIFY entry; the action is carried where one is taken. -/
def Plant.tellCueFault (p : Plant) (c : Chan) (s : StepEntry) (r : CueReason) (action : Option Mismatch) : Plant :=
  p.notify .cueFault (some c)
    (u32 s.event ++ opt u8 (some s.step) ++ opt u8 (some s.rep) ++ opt flag (some s.isLast) ++ r.bytes ++
      opt u8 (action.map Mismatch.code))

/-- R128: CUE FAULT with reason EMPTY_TEMPLATE. -/
def Plant.tellEmpty (p : Plant) (c : Chan) (event : Nat) : Plant :=
  p.notify .cueFault (some c)
    (u32 event ++ opt u8 none ++ opt u8 none ++ opt flag none ++ CueReason.emptyTemplate.bytes ++ opt u8 none)

/-- R130: CUE LATE. -/
def Plant.tellCueLate (p : Plant) (c : Chan) (s : StepEntry) : Plant :=
  let now := (p.chan c).now
  p.notify .cueLate (some c)
    (u32 s.event ++ u8 s.step ++ u8 s.rep ++ p.ctfBytes c s.due ++ p.ctfBytes c now ++ u32 (now - s.due))

/-! ## Halting (R133) -/

/-- The channel's slot commands are withdrawn; what is outstanding runs to its outcome. -/
def Plant.withdrawSlots (p : Plant) (c : Chan) : Plant := p.mapPorts fun x => x.withdrawSlot c fun _ => true

/-- R133: the halt flag becomes set. -/
def Plant.haltSequence (p : Plant) (c : Chan) (cause : HaltCause) : Plant :=
  if (p.chan c).seq.halted then p
  else
    ((p.modChan c fun x => { x with seq := { x.seq with halted := true, queue := [] } }).withdrawSlots c).tellHalted c
      (some cause)

/-- R133, R134: the halt flag is cleared, with the notice where it was set. -/
def Plant.clearHalt (p : Plant) (c : Chan) : Plant :=
  if (p.chan c).seq.halted then
    (p.modChan c fun x => { x with seq := { x.seq with halted := false } }).tellHalted c none
  else p

/-! ## The next switch line (R141) -/

/-- The frame of the next switch-line event of a channel: the frame in progress while its switch line has not been
raised. -/
def Plant.nextLineFrame (p : Plant) (c : Chan) : Nat :=
  let x := p.chan c
  match p.config c with
  | some g => if x.lineInForce ≤ (p.ref g.reference).raised then x.now + 1 else x.now
  | none => x.now

/-- R141: the pending changes that a decision for a frame leaves: those for an earlier switch line that is still to come. A change whose
frame a forward step has passed is made at the next switch line (R15), so a decision for that line leaves none. -/
def Plant.pendingBefore (p : Plant) (c : Chan) (frame : Nat) : List PendingSw :=
  if p.nextLineFrame c < frame then (p.chan c).pendingSw.filter fun w => decide (w.frame < frame) else []

/-- R141: a change of switch decided; it replaces the pending ones for the same or a later switch line. -/
def Plant.decideSwitch (p : Plant) (c : Chan) (pos : SwitchPos) (frame : Nat) (cause : SwitchCause) (act : SwAct) : Plant :=
  p.modChan c fun x =>
    { x with pendingSw := p.pendingBefore c frame ++ [{ pos := pos, frame := frame, cause := cause, act := act }] }

/-! ## Outcomes (R119, R124 to R126) -/

/-- R119: the last outcome is written; an IDLE channel disregards it. -/
def Plant.writeLast (p : Plant) (c : Chan) (o : DevOutcome) : Plant :=
  if (p.chan c).mode = .idle then p
  else p.modChan c fun x => { x with seq := { x.seq with last := some o.last } }

/-- R125: an ASK's outcome matches. -/
def verifyMatches (mode : DevMode) (clip : Option (List Byte)) : DevOutcome → Bool
  | .state m k _ => m == mode && (match clip with | some want => k == want | none => true)
  | _ => false

/-- R125: the reason of a mismatch. -/
def mismatchReason (mode : DevMode) : DevOutcome → CueReason
  | .state m k _ => .mismatch mode m k
  | .timeout => .timeout
  | .lineError => .lineError
  | .refused _ | .done => .refused

/-- R125: a match drops the step's remaining repetitions. -/
def Plant.dropRepetitions (p : Plant) (c : Chan) (s : StepEntry) : Plant :=
  let q := p.modChan c fun x =>
    { x with seq := { x.seq with queue := x.seq.queue.filter fun t =>
        !(t.event == s.event && t.step == s.step && t.standing == s.standing) } }
  if s.standing = .live then
    q.modEvent c s.event fun e =>
      { e with progress := e.progress ++ (repetitions (p.templateOf e)).filter fun r => r.1 == s.step }
  else q

/-- R126, SKIP_EVENT. Every queued entry of the event is dropped, also where it is retired (R129) and nothing else is left of it. A
PENDING event that carries BEYOND becomes SKIPPED too (DEDUCED, log entry 65). -/
def Plant.skipEvent (p : Plant) (c : Chan) (s : StepEntry) : Plant :=
  let q := p.modChan c fun x => x.dropEntriesLike s
  if s.standing != .live then q
  else match findEvent (p.chan c).playlist s.event with
    | none => q
    | some e =>
      let done := fun e : Event => { e with progress := e.progress ++ repetitions (p.templateOf e) }
      match e.cue with
      | .pending | .cueing | .rolling => q.modEvent c s.event fun e => p.skip (done e)
      | .airing =>
        if (p.chan c).mode.running then
          let q := q.modEvent c s.event fun e => { done e with skipEnded := true }
          if (q.chan c).held then q else q.decideSwitch c .filler (q.nextLineFrame c) .follow .plain
        else q.modEvent c s.event done
      | _ => q.modEvent c s.event done

/-- R126: the mismatch action. -/
def Plant.mismatchAction (p : Plant) (c : Chan) (s : StepEntry) : Mismatch → Plant
  | .ignore => p
  | .skipEvent => p.skipEvent c s
  | .halt => p.haltSequence c (.verify s.event s.step)

/-- R124, R125: the outcome of an entry's command. -/
def Plant.cueOutcome (p : Plant) (c : Chan) (s : StepEntry) (o : DevOutcome) : Plant :=
  if (p.chan c).mode = .idle then p
  else
    let q := p.writeLast c o
    match s.action with
    | .send cmd =>
      if cmd = .roll ∧ o = .done ∧ s.standing = .live then
        q.modEvent c s.event fun e => if e.cue = .cueing then { e with cue := .rolling } else e
      else q
    | .verify mode clip action =>
      if verifyMatches mode clip o then q.dropRepetitions c s
      else if s.isLast && s.standing != .removed then
        (q.tellCueFault c s (mismatchReason mode o) (some action)).mismatchAction c s action
      else q.tellCueFault c s (mismatchReason mode o) none

/-! ## Taking entries (R123) -/

/-- The command an entry makes: a VERIFY makes an ASK. -/
def EntryAction.cmd : EntryAction → DevCmd
  | .send k => k
  | .verify _ _ _ => .ask

/-- The channel's Cue Sequencer has a command outstanding on the port. -/
def Port.cueBusy (x : Port) (c : Chan) : Bool :=
  match x.outstanding with
  | some ⟨_, .cue c' _⟩ => c' == c
  | _ => false

/-- R123: while the four conditions hold, the heads of the queue are taken in turn; `fuel` is the queue's length. A port
that is DOWN or OFF, or no port in use, ends a command at once with TIMEOUT. -/
def Plant.takeHeadsN : (fuel : Nat) → Chan → Plant → Plant
  | 0, _, p => p
  | n + 1, c, p =>
    let x := p.chan c
    match x.seq.queue with
    | [] => p
    | s :: rest =>
      if !x.seq.issuing || decide (x.now < s.due) then p
      else
        let pop := fun p : Plant => (p.modChan c fun x => { x with seq := { x.seq with queue := rest } }).taken c s
        match x.portInUse with
        | none =>
          if s.cond.holds x.seq.last then takeHeadsN n c ((pop p).cueOutcome c s .timeout)
          else takeHeadsN n c (pop p)
        | some i =>
          let port := p.port i
          if port.slotCue.isSome || port.cueBusy c || !port.claim.isEmpty then p
          else if !s.cond.holds x.seq.last then takeHeadsN n c (pop p)
          else if port.state = .up then (pop p).modPort i fun y => { y with slotCue := some (c, s) }
          else takeHeadsN n c ((pop p).cueOutcome c s .timeout)

def Plant.takeHeads (p : Plant) (c : Chan) : Plant := Plant.takeHeadsN (p.chan c).seq.queue.length c p

/-- R122: whether steps are issued is settled anew at each frame start. -/
def Plant.renewIssuing (p : Plant) (c : Chan) : Plant :=
  p.modChan c fun x => { x with seq := { x.seq with issuing := p.issues c } }

/-- R121 to R123 at a frame start: queueing, then the queue is consumed or its heads are taken. Whether steps are issued at
this frame start is settled here, before the heads are taken, and R127 reads it so although a VERIFY may halt the channel
meanwhile (DEDUCED, log entry 56). -/
def Plant.sequence (p : Plant) (c : Chan) : Plant :=
  let q := (p.renewIssuing c).enqueueDue c
  if p.issues c then q.takeHeads c else q.modChan c fun x => { x with seq := { x.seq with queue := [] } }

/-! ## Cue states at a frame start (R127, R128) -/

/-- R127, rule 3: the template has a SEND ROLL step. -/
def sendsRoll (t : List Step) : Bool := t.any fun s => s.body == .sendRoll

/-- R127: the earliest due frame; with no steps, the roll point (R128). -/
def earliestDue (preroll : Nat) (e : Event) (t : List Step) : Nat :=
  match (repetitions t).filterMap fun (n, k) => (t[n]?).map fun s => dueFrame preroll e s k with
  | [] => rollPoint preroll e
  | d :: ds => ds.foldl min d

/-- R127, rules 2 to 4 for an event before AIRING, as it is moved at `now`. -/
def Plant.nextCue (p : Plant) (now preroll : Nat) (issuing : Bool) (e : Event) : CueState :=
  let t := p.templateOf e
  if e.rstart ≤ now ∧ e.unmarked then .airing
  else if e.rstart ≤ now ∧ e.eclipsed then .skipped
  else if !e.unmarked then e.cue
  else if e.kind = .clip ∧ e.cue ≠ .rolling ∧ rollPoint preroll e ≤ now ∧ (!sendsRoll t || !issuing) then .rolling
  else if e.kind = .clip ∧ e.cue = .pending ∧ earliestDue preroll e t ≤ now ∧ !issuing then .cueing
  else e.cue

/-- An event's cue state moves; leaving PENDING binds the template. -/
def Plant.setCue (p : Plant) (c : Chan) (id : Nat) (s : CueState) : Plant :=
  p.modEvent c id fun e => if e.cue = .pending ∧ s ≠ .pending then p.bindTo s e else { e with cue := s }

/-- R127, rule 1: an AIRING event at its resolved end becomes DONE. -/
def Plant.finishIfEnded (p : Plant) (c : Chan) (stepped : Bool) (id : Nat) : Plant :=
  match findEvent (p.chan c).playlist id with
  | some e =>
    if e.cue = .airing ∧ e.rend ≤ (p.chan c).now then (p.doneEntry c stepped e).setCue c id .done else p
  | none => p

/-- R128: EMPTY_TEMPLATE, once for each event. -/
def Plant.tellIfEmpty (p : Plant) (c : Chan) (e : Event) : Plant :=
  if e.kind = .clip ∧ (e.cue = .pending ∨ e.cue = .cueing) ∧ e.unmarked ∧ !e.emptyTold ∧ p.templateOf e = [] ∧
      rollPoint (p.prerollInUse c) e ≤ (p.chan c).now then
    (p.modEvent c e.id fun e => { e with emptyTold := true }).tellEmpty c e.id
  else p

/-- R127 for one event. -/
def Plant.moveCue (p : Plant) (c : Chan) (stepped : Bool) (id : Nat) : Plant :=
  match findEvent (p.chan c).playlist id with
  | none => p
  | some e =>
    match e.cue with
    | .airing => p.finishIfEnded c stepped id
    | .done | .skipped => p
    | _ =>
      let x := p.chan c
      let s := p.nextCue x.now (p.prerollInUse c) x.seq.issuing e
      let q := p.tellIfEmpty c e
      if s = e.cue then q
      else match s with
        | .airing =>
          let q := (q.setCue c id .airing).modEvent c id fun e => { e with begunHalted := x.seq.halted }
          (q.airingEntry c x.seq.halted e).finishIfEnded c stepped id
        | .skipped => (q.setCue c id .skipped).modChan c fun x => x.dropEntries id
        | s => q.setCue c id s

/-- The events R127 moves: those from the cursor on, and AIRING ones behind it, in list order. -/
def movedIds (l : List Event) (cursor : Option Nat) : List Nat :=
  let rest := (fromCursor l cursor).length
  (((l.take (l.length - rest)).filter fun e => e.cue == .airing) ++ l.drop (l.length - rest)).map (·.id)

/-- R127: the cue states move, then the cursor (R120). -/
def Plant.moveCues (p : Plant) (c : Chan) (stepped : Bool) : Plant :=
  let x := p.chan c
  ((movedIds x.playlist x.seq.cursor).foldl (fun q id => q.moveCue c stepped id) p).modChan c Channel.recursor

/-! ## Joins and the cursor (R131) -/

/-- A queued entry's repetition is neither queued nor taken any more. -/
def unmarkProgress (l : List Event) (s : StepEntry) : List Event :=
  if s.standing = .live then modEvent l s.event fun e => { e with progress := e.progress.filter (· != (s.step, s.rep)) } else l

/-- R131, 1: the queue is flushed and the slot command withdrawn. The repetitions flushed have not been taken, so that those of
the events from the cursor on are queued again (R131, 4). -/
def Plant.flushCue (p : Plant) (c : Chan) : Plant :=
  (p.modChan c fun x =>
    { x with seq := { x.seq with queue := [] }, playlist := x.seq.queue.foldl unmarkProgress x.playlist }).withdrawCue c fun _ => true

/-- R131, 3: an event before the cursor is passed over; a PENDING one that carries BEYOND too (DEDUCED, log entry 65). -/
def Plant.passOver (p : Plant) (e : Event) : Event :=
  match e.cue with
  | .done | .skipped => e
  | .airing => { e with passedOver := true }
  | .pending | .cueing | .rolling => { p.skip e with passedOver := true }

/-- R131, 2 and 3: the cursor goes on an event, and those before it are passed over; with no event, all are. The event joined is
passed over no longer, where an earlier join had passed it (DEDUCED, log entry 68). -/
def Plant.passOverTo (p : Plant) (target : Option Nat) : List Event → List Event
  | [] => []
  | e :: l => if some e.id = target then { e with passedOver := false } :: l else p.passOver e :: p.passOverTo target l

def Plant.cursorTo (p : Plant) (c : Chan) (target : Option Nat) : Plant :=
  p.modChan c fun x =>
    { x with playlist := p.passOverTo target x.playlist, seq := { x.seq with cursor := target } }

/-- The repetitions of an event due before a frame. -/
def Plant.dueBefore (p : Plant) (c : Chan) (t : Nat) (e : Event) : List (Nat × Nat) :=
  let steps := p.templateOf e
  (repetitions steps).filter fun (n, k) =>
    match steps[n]? with
    | some s => decide (dueFrame (p.prerollInUse c) e s k < t)
    | none => false

/-- R131 for a join on an event with offset o at frame T. -/
def Plant.cueJoin (p : Plant) (c : Chan) (event offset t : Nat) : Plant :=
  ((p.flushCue c).cursorTo c (some event)).modEvent c event fun e =>
    { e with joinOffset := some offset, progress := e.progress ++ p.dueBefore c t e }

/-- R131, R155: the first event that starts after T. -/
def firstAfter (l : List Event) (t : Nat) : Option Nat :=
  (l.find? fun e => decide (t < e.rstart) && e.cue != .done && e.cue != .skipped).map (·.id)

/-- R131 for a join that bridges at T. -/
def Plant.cueBridge (p : Plant) (c : Chan) (t : Nat) : Plant :=
  (p.flushCue c).cursorTo c (firstAfter (p.chan c).playlist t)

/-- R131 for ADOPT. -/
def Plant.cueAdopt (p : Plant) (c : Chan) (event : Nat) : Plant :=
  ((p.flushCue c).cursorTo c (some event)).modEvent c event fun e =>
    { e with progress := e.progress ++ repetitions (p.templateOf e) }

/-! ## Retirement (R42, R87) -/

/-- R42: the event is to be retired at now. -/
def Event.retires (now : Nat) (e : Event) : Bool := (e.cue == .done || e.cue == .skipped) && decide (e.rend ≤ now)

/-- R87: the last-ended memory after the retirement of an event. -/
def lastEndedAfter (held : Option (Nat × Nat)) (e : Event) : Option (Nat × Nat) :=
  if e.cue = .done ∧ !e.eclipsed ∧ !e.beyond then
    match held with
    | some (i, t) => if e.rend < t then some (i, t) else some (e.id, e.rend)
    | none => some (e.id, e.rend)
  else held

/-- Entries of a retired event stay to be taken in their turn (R129). -/
def Plant.retireEntries (p : Plant) (c : Chan) (id : Nat) : Plant :=
  (p.modChan c fun x => { x with seq := { x.seq with queue := x.seq.queue.map (StepEntry.leave .retired id) } }).mapPorts
    fun y =>
      let z := y.markOutstanding c (StepEntry.leave .retired id)
      match z.slotCue with
      | some (c', s) => if c' = c then { z with slotCue := some (c', s.leave .retired id) } else z
      | none => z

/-- R42, R166: one event is retired. -/
def Plant.retireOne (p : Plant) (c : Chan) (e : Event) : Plant :=
  let p := if (p.chan c).mode.running && !e.asRun then p.notAired c e else p
  (p.modChan c fun x =>
    { x with playlist := x.playlist.filter (·.id != e.id),
             watch := { x.watch with lastEnded := lastEndedAfter x.watch.lastEnded e } }).retireEntries c e.id

/-- R42: retirement at a frame start; the cursor moves where the event it stands on has left. Several events of the channel that retire
together are handed to the As-Run Log in the order of the list (DESIGN CHOICE, log entry 82). -/
def Plant.retire (p : Plant) (c : Chan) : Plant :=
  let x := p.chan c
  match x.playlist.filter (Event.retires x.now) with
  | [] => p
  | gone => (gone.foldl (fun q e => q.retireOne c e) p).modChan c Channel.recursor

end Sys2Proof.Machine
end

