-- ==== Sys2Proof/Machine/Arbiter.lean ====
section
/-! DEFINITION. The ports' transmit stages, commands and arbiters (sections 5.2, 5.3, 5.5), and the spare arbiter's queue
(section 5.6), up to the point where an outcome or a grant is handed to its requester. -/

namespace Sys2Proof.Machine

/-! ## Transmit stages (R95) -/

/-- A frame handed to the port goes into the holding stage, and passes to an empty shift stage at once. -/
def Port.handFrame (x : Port) (bytes : List Byte) : Port :=
  match x.shift with
  | none => { x with shift := some (.frame bytes), holding := none }
  | some _ => { x with holding := some bytes }

/-- The shift stage has emptied; a frame in the holding stage passes to it. -/
def Port.shiftDone (x : Port) : Port :=
  match x.holding with
  | some f => { x with shift := some (.frame f), holding := none }
  | none => { x with shift := none }

/-- Both stages emptied, cutting off what is being sent. -/
def Port.clearStages (x : Port) : Port := { x with shift := none, holding := none }

/-- R95: the holding-empty and both-empty flags. -/
def Port.holdingEmpty (x : Port) : Bool := x.holding.isNone
def Port.bothEmpty (x : Port) : Bool := x.holding.isNone && x.shift.isNone

/-! ## Grants (R97, R106, R107) -/

/-- R97: the grant of a command. -/
def Port.grant (x : Port) (cmd : DevCmd) (r : Requester) : Port :=
  { x.handFrame cmd.frame with
    outstanding := some { cmd := cmd, requester := r }, attempt := 1, failures := [], replyTimer := none,
    tryTimeout := x.replyTimeout, tryRetries := x.retries }

/-- R107: the command of the head list that is to be presented now: its frame, if any, has begun on the channel. -/
def Plant.dueCommand (p : Plant) (x : Port) : Option (CmdList × DevCmd) :=
  match x.claim with
  | [] => none
  | l :: _ => match l.cmds with
    | [] => none
    | k :: _ =>
      match k.notBefore with
      | none => some (l, k.cmd)
      | some f => if f ≤ (p.chan l.channel).now then some (l, k.cmd) else none

/-- The head list without its first command. -/
def Port.popCommand (x : Port) : Port :=
  match x.claim with
  | [] => x
  | l :: rest => { x with claim := { l with cmds := l.cmds.tail } :: rest }

/-- The outstanding command is one of a Changeover list. -/
def Port.listBusy (x : Port) : Bool :=
  match x.outstanding with
  | some ⟨_, .changeover _ _ _⟩ => true
  | _ => false

/-- Lists whose last command has its outcome leave the claim. -/
def Port.dropFinished (x : Port) : Port :=
  if x.listBusy then x else { x with claim := x.claim.dropWhile fun l => l.cmds.isEmpty }

/-- R106: the arbiter's grant, where the port is UP and has no outstanding command. -/
def Plant.arbitrate (p : Plant) (i : PortNo) : Plant :=
  let x := (p.port i).dropFinished
  if x.state ≠ .up ∨ x.outstanding.isSome ∨ x.grantHeld then p.setPort i x
  else match p.dueCommand x with
    | some (l, cmd) => p.setPort i (x.popCommand.grant cmd (.changeover l.channel l.purpose true))
    | none =>
      if !x.claim.isEmpty then p.setPort i x
      else match x.slotCue with
        | some (c, s) =>
          let q := p.setPort i ({ x with slotCue := none }.grant s.action.cmd (.cue c s))
          if s.due + 2 < (p.chan c).now then q.tellCueLate c s else q
        | none => match x.slotPass with
          | some cmd => p.setPort i ({ x with slotPass := none }.grant cmd .pass)
          | none => p.setPort i x

/-- The channels whose port in use a port is. An ORPHANED channel whose spare was lost may be one beside the channel that the spare was
lent to since (log entry 37); its steps are not issued. -/
def Plant.usersOf (p : Plant) (i : PortNo) : List Chan :=
  allChans.filter fun c => (p.chan c).portInUse == some i && (p.chan c).mode != .idle

/-- R123: the Cue Sequencer of each channel that works with a port takes the heads it may. -/
def Plant.userTakes (p : Plant) (i : PortNo) : Plant := (p.usersOf i).foldl Plant.takeHeads p

/-- The port settles: its users' Cue Sequencers take what they may (R123), then the arbiter grants (R106). -/
def Plant.settlePort (p : Plant) (i : PortNo) : Plant :=
  (({ p with ports := p.ports.set i.val (p.port i).dropFinished } : Plant).userTakes i).arbitrate i

/-- R123: the four things may have come to hold together for a channel: its port in use settles, and with no port in use the
heads that are due end at once. -/
def Plant.wakeCue (p : Plant) (c : Chan) : Plant :=
  match (p.chan c).portInUse with
  | some i => p.settlePort i
  | none => p.takeHeads c

/-! ## Changes that uncover a head (R123, R129) -/

/-- R123: the channel's steps are issued and the head of its queue is due. -/
def Channel.headDue (x : Channel) : Bool := x.seq.issuing && x.seq.queue.head?.any fun s => decide (s.due ≤ x.now)

/-- A change has withdrawn the command in a slot, or dropped entries of the channel's queue. -/
def Plant.uncovers (before q : Plant) (c : Chan) : Bool :=
  (allPorts.any fun i => (before.port i).slotCue.isSome && (q.port i).slotCue.isNone) ||
    (before.chan c).seq.queue != (q.chan c).seq.queue

/-- R123, R129, R116: where a change has uncovered a head that is due, the Cue Sequencer considers it again; the change's own
resolution comes first. -/
def Plant.wakeAfter (before q : Plant) (c : Chan) : Plant :=
  if (q.chan c).headDue && before.uncovers q c then q.wakeCue c else q

/-- One operation of the Playlist Store, and what it means for the channel's slot. -/
def Plant.edit (p : Plant) (c : Chan) (o : PlOp) : Except Status (Plant × PlDone) :=
  match p.plOne c o with
  | .error s => .error s
  | .ok (q, r) => .ok (p.wakeAfter q c, r)

/-- An operation list of the Playlist Store, and what it means for the channel's slot. -/
def Plant.editList (p : Plant) (c : Chan) (ops : List PlOp) : Except (Nat × Status) Plant :=
  match p.plList c ops with
  | .error e => .error e
  | .ok q => .ok (p.wakeAfter q c)

/-! ## Claims (R107) -/

/-- A list is handed to a port, behind any earlier list. -/
def Port.addList (x : Port) (l : CmdList) : Port := { x with claim := x.claim ++ [l] }

def Plant.handList (p : Plant) (i : PortNo) (l : CmdList) : Plant := (p.modPort i fun x => x.addList l).arbitrate i

/-- The list of one STOP (R157, R172), not to be sent before a frame, if any. -/
def stopList (c : Chan) (notBefore : Option Nat) : CmdList :=
  { channel := c, purpose := .stop, cmds := [{ cmd := .stop, notBefore := notBefore }] }

/-- R107: a list of one STOP is handed to a port. On a port that is not UP, with no earlier list before it, a STOP whose frame has begun
ends at once with TIMEOUT, which is written as the last outcome (R157, R172). -/
def Plant.handStop (p : Plant) (c : Chan) (i : PortNo) (notBefore : Option Nat) : Plant :=
  let q := p.handList i (stopList c notBefore)
  if (q.port i).state ≠ .up ∧ (q.port i).claim = [stopList c notBefore] ∧ ∀ f ∈ notBefore, f ≤ (p.chan c).now then
    (q.modPort i fun x => { x with claim := [] }).writeLast c .timeout
  else q

/-- The rest of a channel's lists is withdrawn; the head list stands, empty, while its command is outstanding, and that
command's outcome is no longer wanted. `all` includes lists of one STOP. -/
def Port.withdrawLists (x : Port) (c : Chan) (all : Bool) : Port :=
  let mine := fun l : CmdList => l.channel == c && (all || l.purpose != .stop)
  let claim := match x.claim with
    | [] => []
    | l :: rest =>
      let rest := rest.filter fun l => !mine l
      if mine l then (if x.listBusy then { l with cmds := [] } :: rest else rest) else l :: rest
  let out := match x.outstanding with
    | some ⟨k, .changeover c' u live⟩ =>
      some { cmd := k, requester := .changeover c' u (if c' = c && (all || u != .stop) then false else live) : Outstanding }
    | o => o
  { x with claim := claim, outstanding := out }

/-- The channel's join or verify lists on a port are withdrawn. -/
def Plant.withdrawJoin (p : Plant) (c : Chan) (i : PortNo) : Plant :=
  (p.modPort i fun x => x.withdrawLists c false).settlePort i

/-- A port loses the channel as its owner (R108, R111, R138, R139): its lists and its slot command are withdrawn. -/
def Plant.disown (p : Plant) (c : Chan) (i : PortNo) : Plant :=
  (p.modPort i fun x => (x.withdrawLists c true).withdrawSlot c fun _ => true).settlePort i

/-! ## The spare arbiter's queue (R109, R110) -/

/-- R109: the port is eligible for the channel. -/
def Plant.eligible (p : Plant) (c : Chan) (i : PortNo) : Bool :=
  let x := p.port i
  x.role == .spare && x.state == .up && (match p.config c with | some g => g.spares.testBit i.val | none => false)

/-- R109: the lowest-numbered free spare eligible for the channel. -/
def Plant.freeSpareFor (p : Plant) (c : Chan) : Option PortNo :=
  allPorts.find? fun i => (p.port i).holder.isNone && p.eligible c i

/-- R109: a spare is lent to the channel. -/
def Plant.lend (p : Plant) (c : Chan) (i : PortNo) : Plant :=
  (p.modPort i fun x => { x with holder := some c }).notify .spareGranted (some c) (u8 i.val)

/-- R109: a request. The port granted at once, or none: the channel waits, or the request had no effect. -/
def Plant.requestSpare (p : Plant) (c : Chan) : Plant × Option PortNo :=
  if (p.heldSpare c).isSome || p.spareQueue.contains c then (p, none)
  else match p.freeSpareFor c with
    | some i => (p.lend c i, some i)
    | none => ({ p with spareQueue := p.spareQueue ++ [c] }, none)

/-- R110: the channel's place in the queue is withdrawn. -/
def Plant.leaveQueue (p : Plant) (c : Chan) : Plant := { p with spareQueue := p.spareQueue.filter (· != c) }

/-- R110: the oldest waiting channel for which a freed spare is eligible. -/
def Plant.oldestFor (p : Plant) (i : PortNo) : Option Chan := p.spareQueue.find? fun c => p.eligible c i

/-! ## PORT STATE (R104) -/

inductive PortCause where
  | timeouts | brk | reply | configured | roleOff
  deriving DecidableEq, Repr

def PortCause.code : PortCause → Nat
  | .timeouts => 0
  | .brk => 1
  | .reply => 2
  | .configured => 3
  | .roleOff => 4

/-- R106: the channel that owns a port. -/
def Plant.ownerOf (p : Plant) (i : PortNo) : Option Chan :=
  let x := p.port i
  match x.role with
  | .primary => allChans.find? fun c => p.primary c == some i && (p.chan c).mode != .idle
  | .spare => x.holder
  | .off => none

/-- R104: PORT STATE, which clears the line status flags it carries. The owner stands in its place in R104's list, besides being
the channel that the notice concerns (DEDUCED, log entry 42). -/
def Plant.tellPort (p : Plant) (i : PortNo) (before : PortState) (cause : PortCause) : Plant :=
  let x := p.port i
  let owner := p.ownerOf i
  (p.modPort i fun y => { y with flags := .clear }).notify .portState owner
    (u8 i.val ++ u8 x.role.code ++ u8 before.code ++ u8 x.state.code ++ u8 cause.code ++ chanOrNone owner ++
      opt chanOrNone (if x.role = .spare then some x.holder else none) ++ flag x.holdingEmpty ++ flag x.bothEmpty ++
      x.flags.bytes)

end Sys2Proof.Machine
end

