-- ==== Sys2Proof/Machine/Replication.lean ====
section
/-! DEFINITION. The Replication Unit (chapter 3): the links, the sequence window and the hold, replica states, batches,
deferral and the application of deferred entries. -/

namespace Sys2Proof.Machine

/-! ## Links (R45, R46) -/

/-- R46: LINK STATE, which clears the flags it carries. -/
def Plant.tellLink (p : Plant) (l : LinkId) : Plant :=
  let k := p.link l
  (p.modLink l fun k => { k with flags := .clear }).notify .linkState none (u8 l.code ++ u8 k.state.code ++ k.flags.bytes)

/-- R46: a good frame. -/
def Plant.goodFrame (p : Plant) (l : LinkId) : Plant :=
  let q := p.modLink l fun k => { k with rx := [], state := .up }
  if (p.link l).state = .up then q else q.tellLink l

/-! ## Replica state notices (R58) -/

/-- The reasons of REPLICA STATE, in the order R58 lists them. -/
inductive ReplicaReason where
  | configured | baseTaken | gapOpened | gapClosed | tooFarAhead | holdFull | gapTimeout | recordRefused | batchRefused
  | batchTimeout | deferOverflow | returnRefused | resetRequest | released
  deriving DecidableEq, Repr

def ReplicaReason.code : ReplicaReason → Nat
  | .configured => 0
  | .baseTaken => 1
  | .gapOpened => 2
  | .gapClosed => 3
  | .tooFarAhead => 4
  | .holdFull => 5
  | .gapTimeout => 6
  | .recordRefused => 7
  | .batchRefused => 8
  | .batchTimeout => 9
  | .deferOverflow => 10
  | .returnRefused => 11
  | .resetRequest => 12
  | .released => 13

/-- The number of the channel's hold entries of a kind. -/
def Plant.holdCount (p : Plant) (c : Chan) (k : HoldKind) : Nat :=
  (p.hold.filter fun h => h.channel == c && h.kind == k).length

/-- R58: next and the three counts, as they are reported. -/
def Plant.replicaBytes (p : Plant) (c : Chan) : List Byte :=
  opt u16 (p.chan c).replica.next ++ u8 (p.holdCount c .early) ++ u8 (p.holdCount c .staged) ++
    u8 (p.holdCount c .deferred)

/-- R58, R62: REPLICA STATE. -/
def Plant.tellReplica (p : Plant) (c : Chan) (before : ReplicaState) (r : ReplicaReason) (refused : Option (Status × Nat)) :
    Plant :=
  p.notify .replicaState (some c)
    (u8 before.code ++ u8 (p.chan c).replica.state.code ++ u8 r.code ++ opt u8 (refused.map fun x => x.1.code) ++
      opt u16 (refused.map (·.2)) ++ p.replicaBytes c)

def Plant.modReplica (p : Plant) (c : Chan) (f : Replica → Replica) : Plant :=
  p.modChan c fun x => { x with replica := f x.replica }

/-- Every hold entry of the channel that a test picks is discarded. -/
def Plant.discard (p : Plant) (c : Chan) (which : HoldEntry → Bool) : Plant :=
  { p with hold := p.hold.filter fun h => !(h.channel == c && which h) }

/-- R55: the replica becomes STALE, from CURRENT or GAP. -/
def Plant.goStale (p : Plant) (c : Chan) (r : ReplicaReason) (refused : Option (Status × Nat)) : Plant :=
  let before := (p.chan c).replica.state
  if before = .current ∨ before = .gap then
    (((p.discard c fun _ => true).modReplica c fun x =>
      { x with state := .stale, batch := none, gapTimer := none, reloadTimer := some 0 }).sendBack (.askReload c)).tellReplica
        c before r refused
  else p

/-- R53: entry to AWAIT_BASE, without the ASK RELOAD and the notice. -/
def Plant.clearReplica (p : Plant) (c : Chan) : Plant := (p.discard c fun _ => true).modReplica c fun _ => .reset

/-- R53: entry to AWAIT_BASE of a channel that is not IDLE. -/
def Plant.awaitBase (p : Plant) (c : Chan) : Plant :=
  ((p.clearReplica c).modReplica c fun x => { x with reloadTimer := some 0 }).sendBack (.askReload c)

/-! ## Applying records (R59 to R66) -/

/-- The store's operation for a record. -/
def Rec.op : Rec → PlOp
  | .put pred d => .insert pred d
  | .swap d => .replace d
  | .drop id => .delete id
  | _ => .empty

/-- The channel is in deferral (R64). -/
def Plant.deferring (p : Plant) (c : Chan) : Bool := (p.chan c).mode.deferral

/-- A new entry of the hold. -/
def Plant.addHold (p : Plant) (h : HoldEntry) : Plant := { p with hold := p.hold ++ [h] }

/-- R61: a record is staged. Where the batch would pass 64 records while the hold is full, the reason is BATCH_REFUSED (DESIGN
CHOICE, log entry 57: R61 gives both reasons and no order). -/
def Plant.stage (p : Plant) (c : Chan) (seq : Nat) (r : Rec) (b : Batch) : Plant :=
  if 64 < b.staged + 1 then p.goStale c .batchRefused none
  else if 256 ≤ p.hold.length then p.goStale c .holdFull none
  else
    (p.addHold { channel := c, seq := seq, content := r, kind := .staged, mark := some b.mark }).modReplica c fun x =>
      { x with batch := some { b with staged := b.staged + 1 } }

/-- R64, R65: a record is deferred. While the hold is full it is no overflow, whatever the channel has deferred. -/
def Plant.defer (p : Plant) (c : Chan) (seq : Nat) (r : Rec) : Plant :=
  if 256 ≤ p.hold.length then p.goStale c .holdFull none
  else if 128 ≤ p.holdCount c .deferred then p.goStale c .deferOverflow none
  else p.addHold { channel := c, seq := seq, content := r, kind := .deferred, mark := none }

/-- R59: a record applied at once. -/
def Plant.applyRecord (p : Plant) (c : Chan) (seq : Nat) (r : Rec) : Plant :=
  match p.edit c r.op with
  | .ok (q, _) => q
  | .error s => p.goStale c .recordRefused (some (s, seq))

/-- R60: BATCH OPEN. -/
def Plant.openBatch (p : Plant) (c : Chan) (seq n : Nat) : Plant :=
  if (p.chan c).replica.batch.isSome ∨ n < 1 ∨ 64 < n then p.goStale c .batchRefused none
  else p.modReplica c fun x => { x with batch := some { count := n, staged := 0, mark := seq, timer := 0 } }

/-- The staged entries of the channel, in sequence order. -/
def Plant.stagedEntries (p : Plant) (c : Chan) : List HoldEntry :=
  p.hold.filter fun h => h.channel == c && h.kind == .staged

/-- R64: a batch kept as a deferred group. -/
def Plant.deferBatch (p : Plant) (c : Chan) : Plant :=
  if 128 < p.holdCount c .deferred + p.holdCount c .staged then p.goStale c .deferOverflow none
  else
    { p with hold := p.hold.map fun h => if h.channel == c && h.kind == .staged then { h with kind := .deferred } else h }

/-- R62: a batch handed to the store as one operation list. -/
def Plant.applyBatch (p : Plant) (c : Chan) : Plant :=
  let entries := p.stagedEntries c
  let q := p.discard c fun h => h.kind == .staged
  match q.editList c (entries.map fun h => h.content.op) with
  | .ok q => q
  | .error (n, s) => q.goStale c .batchRefused (some (s, (entries[n]?.map HoldEntry.seq).getD 0))

/-- R62: BATCH CLOSE. -/
def Plant.closeBatch (p : Plant) (c : Chan) : Plant :=
  match (p.chan c).replica.batch with
  | none => p.goStale c .batchRefused none
  | some b =>
    let q := p.modReplica c fun x => { x with batch := none }
    if b.staged ≠ b.count then q.goStale c .batchRefused none
    else if p.deferring c then q.deferBatch c
    else q.applyBatch c

/-- R59 to R64: the handling of a taken record other than BASE. -/
def Plant.handleRecord (p : Plant) (c : Chan) (seq : Nat) (r : Rec) : Plant :=
  match r with
  | .batchOpen n => p.openBatch c seq n
  | .batchClose => p.closeBatch c
  | r =>
    match (p.chan c).replica.batch with
    | some b => p.stage c seq r b
    | none => if p.deferring c then p.defer c seq r else p.applyRecord c seq r

/-- The replica still takes records in order. -/
def Plant.tracking (p : Plant) (c : Chan) : Bool :=
  (p.chan c).replica.state == .current || (p.chan c).replica.state == .gap

def Plant.advanceNext (p : Plant) (c : Chan) : Plant :=
  p.modReplica c fun x => { x with next := x.next.map fun n => (n + 1) % 65536 }

/-- The early entry whose sequence number is next. -/
def Plant.nextEarly (p : Plant) (c : Chan) : Option HoldEntry :=
  p.hold.find? fun h => h.channel == c && h.kind == .early && some h.seq == (p.chan c).replica.next

/-- R50: the drain; `fuel` bounds the entries taken. -/
def Plant.drain : (fuel : Nat) → Chan → Plant → Plant
  | 0, _, p => p
  | n + 1, c, p =>
    if !p.tracking c then p
    else match p.nextEarly c with
      | none => p
      | some h =>
        Plant.drain n c
          (((p.discard c fun k => k.kind == .early && k.seq == h.seq).advanceNext c).handleRecord c h.seq h.content)

/-- R50: what a drain leaves: GAP closed, or the gap timer started again. -/
def Plant.afterDrain (p : Plant) (c : Chan) : Plant :=
  if (p.chan c).replica.state != .gap then p
  else if p.holdCount c .early = 0 then
    (p.modReplica c fun x => { x with state := .current, gapTimer := none }).tellReplica c .gap .gapClosed none
  else p.modReplica c fun x => { x with gapTimer := some 0 }

/-- R50: an in-order record. -/
def Plant.inOrder (p : Plant) (c : Chan) (seq : Nat) (r : Rec) : Plant :=
  (Plant.drain (p.hold.length + 1) c ((p.advanceNext c).handleRecord c seq r)).afterDrain c

/-- R51: an early record. -/
def Plant.holdEarly (p : Plant) (c : Chan) (seq : Nat) (r : Rec) : Plant :=
  if p.hold.any fun h => h.channel == c && h.seq == seq then p
  else if 32 ≤ p.holdCount c .early ∨ 256 ≤ p.hold.length then p.goStale c .holdFull none
  else
    let q := p.addHold { channel := c, seq := seq, content := r, kind := .early, mark := none }
    if (p.chan c).replica.state = .current then
      (q.modReplica c fun x => { x with state := .gap, gapTimer := some 0 }).tellReplica c .current .gapOpened none
    else q

/-- R57, R65: a BASE is taken. -/
def Plant.takeBase (p : Plant) (c : Chan) (seq : Nat) : Plant :=
  let before := (p.chan c).replica.state
  let q := (p.discard c fun h => h.kind != .deferred || p.deferring c).modReplica c fun _ =>
    { state := .current, next := some ((seq + 1) % 65536), batch := none, gapTimer := none, reloadTimer := none }
  let tell := fun q : Plant => if before = .current then q else q.tellReplica c before .baseTaken none
  if p.deferring c then
    (if 256 ≤ q.hold.length then (tell q).goStale c .holdFull none
     else tell (q.addHold { channel := c, seq := seq, content := .base, kind := .deferred, mark := none }))
  else (tell q).emptyPlaylist c

/-- R49: a channel record that has reached its channel. -/
def Plant.classify (p : Plant) (c : Chan) (seq : Nat) (r : Rec) : Plant :=
  if p.tracking c then
    let d := (seq + 65536 - (p.chan c).replica.next.getD 0) % 65536
    if 32768 ≤ d then p
    else match r with
      | .base => p.takeBase c seq
      | r =>
        if d = 0 then p.inOrder c seq r
        else if d ≤ 255 then p.holdEarly c seq r
        else p.goStale c .tooFarAhead none
  else match r with
    | .base => p.takeBase c seq
    | _ => p

/-- R47: a good frame carries a channel record. -/
def Plant.channelRecord (p : Plant) (l : LinkId) (channel seq : Nat) (r : Rec) : Plant :=
  let q := p.goodFrame l
  match chanOf channel with
  | some c => if (q.chan c).mode = .idle then q else q.classify c (seq % 65536) r
  | none => q

/-! ## The return switch (R66) -/

/-- The deferred entries of the channel, in the order taken. -/
def Plant.deferredEntries (p : Plant) (c : Chan) : List HoldEntry :=
  p.hold.filter fun h => h.channel == c && h.kind == .deferred

/-- The front of a deferred list that is applied together: one entry, or a group of one batch mark. -/
def frontGroup (l : List HoldEntry) : List HoldEntry × List HoldEntry :=
  match l with
  | [] => ([], [])
  | h :: t =>
    match h.mark with
    | none => ([h], t)
    | some m => ((h :: t).takeWhile (fun k => k.mark == some m), (h :: t).dropWhile fun k => k.mark == some m)

/-- A lone entry or a group handed to the store. -/
def Plant.applyGroup (p : Plant) (c : Chan) (g : List HoldEntry) : Except (Nat × Status) Plant :=
  match g with
  | [h] =>
    if h.mark = none then
      match p.edit c h.content.op with
      | .ok (q, _) => .ok q
      | .error s => .error (0, s)
    else p.editList c [h.content.op]
  | g => p.editList c (g.map fun h => h.content.op)

/-- R66: the deferred entries applied until the first refusal; `fuel` is their number. -/
def Plant.applyDeferredN : (fuel : Nat) → Chan → List HoldEntry → Plant → Plant
  | 0, _, _, p => p
  | _ + 1, _, [], p => p
  | n + 1, c, l, p =>
    let (g, rest) := frontGroup l
    match p.applyGroup c g with
    | .ok q => Plant.applyDeferredN n c rest q
    | .error (k, s) => p.goStale c .returnRefused (some (s, (g[k]?.map HoldEntry.seq).getD 0))

def Plant.applyDeferred (p : Plant) (c : Chan) : Plant :=
  let l := p.deferredEntries c
  Plant.applyDeferredN l.length c l (p.discard c fun h => h.kind == .deferred)

end Sys2Proof.Machine
end

