-- ==== Sys2Proof/Machine/Watch.lean ====
section
/-! DEFINITION. The Site Watch Unit (chapter 4): the probe latch, the frame's evaluation, and schedule agreement. -/

namespace Sys2Proof.Machine

/-! ## Conditions (R73, R76 to R78) -/

/-- R73: the count of a record's label where it is usable. -/
def usableCount (f : Family) (r : Probe) : Option Nat :=
  if r.labelValid && r.label.valid f && !r.label.dropped f then some (r.label.count f) else none

/-- R76 to R78: the frame's condition set. -/
def condsOf (f : Family) (latch : Option Probe) (memory : Option Nat) (silent : Bool) : Conds :=
  match latch with
  | none => { Conds.empty with noProbe := true, siteSilent := silent }
  | some r =>
    let count := usableCount f r
    { noSignal := !r.signal, black := r.black, frozen := r.frozen, silent := r.silent, tcLoss := count.isNone,
      tcJump := (match count, memory with
        | some n, some m => n != (m + 1) % f.fpd
        | _, _ => false),
      noProbe := false, siteSilent := silent }

/-! ## The evaluation (R75) -/

/-- R75, steps 1 to 6, on the watch alone. -/
def evaluate (f : Family) (g : WatchParams) (silent : Bool) (w : Watch) : Watch :=
  let conds := condsOf f w.latch w.labelMem silent
  let score := nextScore g w.score (conds.weight g.weights)
  let warm := min 255 (w.warm + 1)
  { w with latch := none, conds := conds, score := score, health := nextHealth g w.health warm score, warm := warm,
           history := (w.history ++ [(⟨conds, score⟩ : Verdict)]).drop (w.history.length + 1 - 16),
           labelMem := w.latch.bind (usableCount f), change := w.change.changed w.conds conds }

/-- The history window as it is carried (R85, R91). -/
def historyBytes (l : List Verdict) : List Byte := items (fun v => v.conds.bytes ++ u8 v.score) l

/-- R85: HEALTH. -/
def Plant.tellHealth (p : Plant) (c : Chan) (before : Health) : Plant :=
  let w := (p.chan c).watch
  p.notify .health (some c) (u8 before.code ++ u8 w.health.code ++ u8 w.score ++ w.conds.bytes ++ historyBytes w.history)

/-- R75: the frame just ended is evaluated; a change of health is told. -/
def Plant.evaluateWatch (p : Plant) (c : Chan) : Plant :=
  match p.config c with
  | none => p
  | some g =>
    let before := (p.chan c).watch.health
    let q := p.modChan c fun x => { x with watch := evaluate (p.family c) g.watch (p.heartbeat == .expired) x.watch }
    if (q.chan c).watch.health = before then q else q.tellHealth c before

/-! ## Schedule agreement (R88, R89) -/

/-- R88: the unmarked events before and after the event with an id. -/
def splitAt (l : List Event) (id : Nat) : List Event × List Event :=
  ((l.takeWhile (·.id != id)).filter Event.unmarked, (eventsAfter l id).filter Event.unmarked)

/-- R88: the id is that of a previous neighbour of E. -/
def previousNeighbour (before : List Event) (memory : Option (Nat × Nat)) (e : Event) (id : Nat) : Bool :=
  match before.reverse.find? fun k => k.rend == e.rstart with
  | some k => k.id == id
  | none => match memory with
    | some (i, t) => i == id && t == e.rstart
    | none => false

/-- R88: the outcome of a comparison. -/
def agrees (l : List Event) (memory : Option (Nat × Nat)) (now tol : Nat) (id : Nat) : Bool :=
  match coverAt l now with
  | some e =>
    let (before, after) := splitAt l e.id
    e.id == id || (decide (now - e.rstart ≤ tol) && previousNeighbour before memory e id) ||
      (decide (e.rend - now ≤ tol) &&
        match after.head? with
        | some k => k.id == id && k.rstart == e.rend
        | none => false)
  | none =>
    (l.any fun e => e.unmarked && e.id == id && decide (now < e.rstart) && decide (e.rstart ≤ now + tol)) ||
      (l.any fun e => e.unmarked && e.id == id && decide (e.rend ≤ now) && decide (now ≤ e.rend + tol)) ||
      (match memory with
       | some (i, t) => i == id && decide (t ≤ now) && decide (now ≤ t + tol)
       | none => false)

/-- R89: the runs and the flag after a comparison. -/
def agreementRuns (ok : Bool) (w : Watch) : Watch :=
  if ok then
    let n := min 3 (w.agree + 1)
    { w with agree := n, disagree := 0, diverged := w.diverged && n != 3 }
  else
    let n := min 3 (w.disagree + 1)
    { w with disagree := n, agree := 0, diverged := w.diverged || n == 3 }

/-- R88, R89: a PULSE compared for one channel. -/
def Plant.comparePulse (p : Plant) (c : Chan) (id : Option Nat) : Plant :=
  match p.config c with
  | none => p
  | some g =>
    let x := p.chan c
    let ok := match id with
      | some i => agrees x.playlist x.watch.lastEnded x.now g.watch.agreeTol i
      | none => true
    let q := p.modChan c fun x => { x with watch := { agreementRuns ok x.watch with lastMain := id } }
    let w := (q.chan c).watch
    if w.diverged = x.watch.diverged then q
    else q.notify .diverged (some c) (flag w.diverged ++ opt u32 w.lastMain ++ opt u32 ((coverAt x.playlist x.now).map (·.id)))

/-- R67: a PULSE, where it is no copy. The channels are compared in increasing order, and so their DIVERGED notices are made
(DESIGN CHOICE, log entry 59: R185 leaves the order of different channels open). -/
def Plant.takePulse (p : Plant) (number day : Nat) (ids : List (Option Nat)) : Plant :=
  if p.pulseMem = some number then p
  else
    let q := { p with pulseMem := some number, heartbeat := .running p.hbTimeout, mainDay := some day }
    (allChans.filter fun c => (q.chan c).mode != .idle).foldl (fun q c => q.comparePulse c ((ids[c.val]?).join)) q

end Sys2Proof.Machine
end

