-- ==== Sys2Proof/Machine/Changeover.lean ====
section
/-! DEFINITION. The Changeover Unit (chapter 7, with R161 to R163 of chapter 8): the switch, takes, the HOT verify, joins and
their failures, and the grants of the spare arbiter. -/

namespace Sys2Proof.Machine

/-! ## The channel's items -/

/-- A field of the channel's configuration; 0 for a channel that has none. -/
def Plant.conf (p : Plant) (c : Chan) (f : ChannelConfig → Nat) : Nat :=
  match p.config c with
  | some g => f g
  | none => 0

def Plant.setMode (p : Plant) (c : Chan) (m : Mode) : Plant := p.modChan c fun x => { x with mode := m }

def Plant.usePort (p : Plant) (c : Chan) (i : Option PortNo) : Plant := p.modChan c fun x => { x with portInUse := i }

def Plant.modTake (p : Plant) (c : Chan) (f : TakeRec → TakeRec) : Plant :=
  p.modChan c fun x => { x with takeRec := x.takeRec.map f }

/-- The stage of the channel's take record. -/
def Plant.stageOf (p : Plant) (c : Chan) : Option Stage := (p.chan c).takeRec.map (·.stage)

/-- A join or a verify is in progress: it has not ended (R155) and is not being aborted. -/
def Plant.working (p : Plant) (c : Chan) : Bool :=
  match p.stageOf c with
  | some .verifying | some .joining | some .rejoining => true
  | _ => false

/-- The pending switch is the outcome switch of a join: LOCAL at its T, or the FILLER of a join that bridges. -/
def SwAct.ofJoin : SwAct → Bool
  | .joinLocal | .joinBridge _ => true
  | _ => false

/-- The pending outcome switch of a join that is no longer live is cancelled (R153, R154, R161, R198); the rules name its LOCAL, and the
FILLER of one that bridges goes too (DEDUCED, log entry 94). -/
def Plant.cancelJoinSwitch (p : Plant) (c : Chan) : Plant :=
  p.modChan c fun x => { x with pendingSw := x.pendingSw.filter fun w => !w.act.ofJoin }

/-- R132: the covering event of switch following. After a backward step an AIRING event covers every frame up to its
end. -/
def Channel.covering (x : Channel) : Option Event :=
  x.playlist.find? fun e =>
    e.unmarked && e.cue != .done && decide (x.now < e.rend) && (decide (e.rstart ≤ x.now) || e.cue == .airing)

/-- Switch following takes its next change from the event that covers now. -/
def Plant.noteCover (p : Plant) (c : Chan) : Plant := p.modChan c fun x => { x with cover := x.covering.map (·.id) }

/-- The channel waits in the spare queue. -/
def Plant.waits (p : Plant) (c : Chan) : Bool := p.spareQueue.contains c

/-! ## The switch (R141) -/

/-- R141: the position is set; a change sends SWITCH, and a setting that leaves it as it stood sends none. -/
def Plant.setSwitch (p : Plant) (c : Chan) (pos : SwitchPos) (cause : SwitchCause) : Plant :=
  let x := p.chan c
  if x.switch = pos then p
  else (p.modChan c fun x => { x with switch := pos }).notify .switch (some c)
    (u8 x.switch.code ++ u8 pos.code ++ u8 x.mode.code ++ p.ctfBytes c x.now ++ u8 cause.code)

/-! ## The bridge of a take (R148) -/

/-- R148: the bridge of a take. -/
def Plant.takeBridge (p : Plant) (c : Chan) (o : TakeOption) : Bridge :=
  match o, p.config c with
  | .join, some g => g.bridge
  | .join, none => .main
  | .fillerFirst, _ => .filler

/-- R148: the bridge is on air until the take's outcome switch. Where it is FILLER, the switch still stands at MAIN and no change is
pending, because the LOCAL of a join that is no longer live had replaced it (R141), FILLER is decided for the next switch line again
(DEDUCED, log entry 35). -/
def Plant.keepBridge (p : Plant) (c : Chan) : Plant :=
  let x := p.chan c
  if x.mode = .taking ∧ x.switch = .main ∧ x.pendingSw = [] ∧
      p.takeBridge c ((x.takeRec.map (·.option)).getD .join) = .filler then
    p.decideSwitch c .filler (p.nextLineFrame c) .bridge .bridge
  else p

/-! ## The join (R150, R151) -/

/-- R150: why a join on the event covering T is refused. Where more than one case holds, the reason is that of the first in the table's
order (DESIGN CHOICE, log entry 77). -/
def joinRefusal (tail t : Nat) (e : Event) : Option BridgeReason :=
  match e.kind, e.clip with
  | .clip, some k =>
    if k.noJoin ∧ e.rstart < t then some .noJoin
    else if e.rend ≤ t + tail then some .tailGuard
    else match k.eom with
      | some m => if m ≤ k.som + (t - e.rstart) then some .endOfMaterial else none
      | none => none
  | _, _ => some .fillerEvent

/-- An event's som. -/
def Event.som (e : Event) : Nat := (e.clip.map ClipInfo.som).getD 0

/-- An event's clip id. -/
def Event.clipId (e : Event) : List Byte := (e.clip.map ClipInfo.clip).getD []

/-- R150: a join that bridges at T. The take record then holds no join, also where an earlier join had filled it in (DESIGN CHOICE, log
entry 78). -/
def Plant.bridgeAt (p : Plant) (c : Chan) (t : Nat) (r : BridgeReason) : Plant :=
  let q := (p.modTake c fun k => { k with join := none, bridgeReason := some r }).cueBridge c t
  q.decideSwitch c .filler (q.nextLineFrame c) .bridge (.joinBridge t)

/-- R151: a cold join on an event at T. -/
def Plant.joinOn (p : Plant) (c : Chan) (i : PortNo) (now0 t : Nat) (e : Event) : Plant :=
  let o := t - e.rstart
  let roll := t - (p.port i).preroll
  let q := p.modTake c fun k =>
    { k with join := some { now0 := now0, t := t, event := e.id, offset := o, cue := e.som + o, roll := some roll },
             bridgeReason := none }
  let q := q.modEvent c e.id fun e => if e.cue = .pending then p.bindTo .cueing e else e
  let q := (q.cueJoin c e.id o t).decideSwitch c .onLocal t .take .joinLocal
  q.handList i
    { channel := c, purpose := .join,
      cmds := [{ cmd := .select e.clipId, notBefore := none }, { cmd := .point (e.som + o), notBefore := none },
               { cmd := .roll, notBefore := some roll }] }

/-- R150: a cold join computed from now0 on a port. In a take its bridge stays decided (R148). -/
def Plant.coldJoin (p : Plant) (c : Chan) (i : PortNo) (now0 : Nat) (stage : Stage) : Plant :=
  let q := (p.keepBridge c).modTake c fun k => { k with stage := stage, port := some i }
  let t := now0 + p.conf c (·.cueLead) + (p.port i).preroll
  match coverAt (p.chan c).playlist t with
  | none => q.bridgeAt c t .noEvent
  | some e =>
    match joinRefusal (p.conf c (·.tailGuard)) t e with
    | some r => q.bridgeAt c t r
    | none => q.joinOn c i now0 t e

/-- R155, R163: the take record of a join in local running; a bridge that an earlier join has decided and not made is no
longer due (DEDUCED, log entry 94). Its option, start frame and verify result stay those of the take before, and JOIN DONE carries that verify
result; with no record they are JOIN, now and absent (DESIGN CHOICE, log entry 69). -/
def Plant.startLocalRec (p : Plant) (c : Chan) : Plant :=
  p.modChan c fun x =>
    let base : TakeRec := x.takeRec.getD
      { kind := .localJoin, option := .join, start := x.now, stage := .joining, port := none, join := none,
        bridgeReason := none, verify := none, result := none, failure := none, rejoined := false }
    let next : TakeRec :=
      { base with kind := .localJoin, stage := .joining, port := x.portInUse, join := none, bridgeReason := none,
                  result := none, failure := none, rejoined := false }
    { x with takeRec := some next
             pendingSw := x.pendingSw.filter fun w => match w.act with | .joinBridge _ => false | _ => true }

/-- R163: a join in local running on an UP port. -/
def Plant.localJoinOn (p : Plant) (c : Chan) (i : PortNo) : Plant :=
  (p.startLocalRec c).coldJoin c i (p.chan c).now .joining

/-! ## Grants (R109, R110, R162) -/

/-- A granted spare reaches the Changeover Unit (R162). In TAKING it becomes the port in use, and the join follows when
the take has ended. -/
def Plant.spareGranted (p : Plant) (c : Chan) (i : PortNo) : Plant :=
  match (p.chan c).mode with
  | .onLocal | .returning => (p.usePort c (some i)).localJoinOn c i
  | .taking => p.usePort c (some i)
  | _ => p

/-- R110: a spare has become free. -/
def Plant.spareFreed (p : Plant) (i : PortNo) : Plant :=
  let x := p.port i
  if x.role = .spare ∧ x.state = .up ∧ x.holder = none then
    match p.oldestFor i with
    | some c => ((p.leaveQueue c).lend c i).spareGranted c i
    | none => p
  else p

/-- R111: the channel's held spare is released. -/
def Plant.releaseSpare (p : Plant) (c : Chan) : Plant :=
  match p.heldSpare c with
  | none => p
  | some i =>
    let q := p.modPort i fun x =>
      { (x.withdrawLists c true).withdrawSlot c (fun _ => true) with holder := none }
    (q.spareFreed i).settlePort i

/-- R142: the port in use becomes the primary port. -/
def Plant.backToPrimary (p : Plant) (c : Chan) : Plant := p.usePort c (p.primary c)

/-! ## Failures (R154, R161) -/

/-- JOIN FAILED or TAKE FAILED (R155). -/
def Plant.tellFailed (p : Plant) (c : Chan) (k : NoticeKind) (kind : TakeKind) (r : FailReason) (i : PortNo) : Plant :=
  p.notify k (some c) (u8 kind.code ++ u8 r.code ++ u8 i.val ++ flag (p.waits c))

/-- R162: a channel in LOCAL or RETURNING that waits, with its primary port UP, goes back to it. -/
def Plant.tryPrimary (p : Plant) (c : Chan) : Plant :=
  match p.primary c with
  | some i =>
    if p.waits c ∧ (p.port i).state = .up ∧ (p.chan c).mode.running then
      ((p.leaveQueue c).usePort c (some i)).localJoinOn c i
    else if p.waits c ∧ (p.port i).state = .up ∧ (p.chan c).mode = .taking ∧ (p.chan c).portInUse = none ∧
        p.stageOf c ≠ some .aborting then
      (p.leaveQueue c).usePort c (some i)
    else p
  | none => p

/-- A local join's failure in the take record. -/
def Plant.failRecord (p : Plant) (c : Chan) (r : FailReason) : Plant :=
  p.modTake c fun k =>
    { k with kind := .localJoin, stage := .ended, bridgeReason := none, result := some .failed, failure := some r }

/-- R154, R161: the switch of a channel in local running goes to FILLER at the next switch line, with cause PORT_LOSS, and what it
takes off air there ends CUT. -/
def Plant.leaveServer (p : Plant) (c : Chan) : Plant :=
  (p.modChan c Channel.markCut).decideSwitch c .filler (p.nextLineFrame c) .portLoss .plain

/-- R154, the second and third bullets: no further port. `drop` says that the channel has none in use. A local join's record is ended and
its JOIN FAILED sent at the failure, not at the FILLER line (DESIGN CHOICE, log entry 89) and before R162's look at the primary port (93).
R162's look at the primary port as
the channel joins the queue is made in local running alone: a take that ends FAILED on a primary port that stays UP waits until that
port becomes UP anew (DESIGN CHOICE, log entry 85). -/
def Plant.noFurtherPort (p : Plant) (c : Chan) (i : PortNo) (r : FailReason) (t : Nat) (drop : Bool) : Plant :=
  let p := if drop then p.usePort c none else p
  let p := p.cueBridge c t
  if (p.chan c).mode = .taking then
    p.decideSwitch c .filler (p.nextLineFrame c) .portLoss (.takeFailed i r)
  else
    let p := ((p.failRecord c r).leaveServer c).tellFailed c .joinFailed .localJoin r i
    if drop && (match p.primary c with | some k => (p.port k).state == .up | none => false) then p.tryPrimary c else p

/-- R154: a join that has already made its LOCAL switch has failed. Its record is ended and its JOIN FAILED sent at once (DESIGN CHOICE,
log entry 89). -/
def Plant.failedAfterSwitch (p : Plant) (c : Chan) (i : PortNo) (r : FailReason) : Plant :=
  ((p.failRecord c r).leaveServer c).tellFailed c .joinFailed .localJoin r i

/-- R154: the bridge frame of the last two cases. -/
def Plant.bridgeFrame (p : Plant) (c : Chan) : Nat :=
  match (p.chan c).takeRec.bind (·.join) with
  | some j => j.t
  | none => (p.chan c).now + p.conf c (·.cueLead) +
      (match p.primary c with | some i => (p.port i).preroll | none => 0)

/-- R154, the first two bullets: a spare is asked for. `i` is the port that failed and `after` says that the join had
made its LOCAL switch. With a spare one rejoin is allowed again, and the take record's "whether a rejoin was made" starts
afresh (DESIGN CHOICE, log entry 58). A local join that fails before its LOCAL switch and finds a spare at once goes on there, with no
JOIN FAILED of its own (DEDUCED, log entry 72). -/
def Plant.askSpare (p : Plant) (c : Chan) (i : PortNo) (r : FailReason) (t : Nat) (after : Bool) : Plant :=
  match p.requestSpare c with
  | (q, some s) =>
    let q := if after then q.failedAfterSwitch c i r else q
    let q := q.usePort c (some s)
    if (q.chan c).mode.running then q.localJoinOn c s
    else (q.modTake c fun k => { k with rejoined := false }).coldJoin c s (q.chan c).now .joining
  | (q, none) => q.noFurtherPort c i r t true

/-- R147, R149: a take turns to a spare because its port is not UP. Where none is granted the stage stays as it stands until the
take ends: JOINING at the take's beginning, VERIFYING after a verify (DESIGN CHOICE, log entry 70). -/
def Plant.turnToSpare (p : Plant) (c : Chan) (i : PortNo) : Plant :=
  let p := p.modTake c fun k => { k with join := none }
  p.askSpare c i .noPort (p.bridgeFrame c) false

/-- R154: a join fails on its port. -/
def Plant.joinFail (p : Plant) (c : Chan) (i : PortNo) (r : FailReason) : Plant :=
  let after := p.stageOf c == some .ended
  let t := p.bridgeFrame c
  let q := (p.modPort i fun x => x.withdrawLists c false).cancelJoinSwitch c
  if (q.chan c).mode = .taking ∨ (q.chan c).mode.running then
    (if (q.port i).holder = some c then q.noFurtherPort c i r t false else q.askSpare c i r t after).settlePort i
  else q.settlePort i

/-- R161, step 4: the spare that follows a port loss: one lent since the loss (R176), else a request. -/
def Plant.spareAnew (p : Plant) (c : Chan) : Plant × Option PortNo :=
  match p.heldSpare c with
  | some s => (p, some s)
  | none => p.requestSpare c

/-- R161: the port in use of a channel in LOCAL or RETURNING is lost. Where the switch does not stand at LOCAL, an open entry of that
port ends at the next switch line as FILLER ends it; one of an event whose switch had already gone to FILLER stays open. With no port in
use the heads that are due end at once (R123). JOIN FAILED goes before R162's look at the primary port, so it tells that the channel
waits also where that port is UP (DESIGN CHOICE, log entry 93). A FILLER decided here that the LOCAL of the join on the spare replaces,
being due at the same line, is not decided again where that join's POINT is late (DESIGN CHOICE, log entry 88). -/
def Plant.portLost (p : Plant) (c : Chan) (i : PortNo) : Plant :=
  let q := (p.modPort i fun x => x.withdrawLists c false).cancelJoinSwitch c
  let q := if q.working c then q.failRecord c .timeout else q
  let line := q.nextLineFrame c
  let q := if (q.chan c).switch = .onLocal then q.leaveServer c
    else match (q.chan c).openEntry with
      | some o => if o.port = some i ∧ (q.chan c).endsOnFiller (q.chan c).switch o then q.closeEntry c .cut line else q
      | none => q
  match q.spareAnew c with
  | (q, some s) => ((q.usePort c (some s)).tellFailed c .joinFailed .localJoin .timeout i).localJoinOn c s
  | (q, none) => (((q.usePort c none).tellFailed c .joinFailed .localJoin .timeout i).tryPrimary c).wakeCue c

/-- The failure reason of a join that has failed on the channel's spare, whose end as FAILED is still pending (R154). -/
def Channel.failing (x : Channel) : Option FailReason :=
  x.pendingSw.findSome? fun w => match w.act with
    | .takeFailed _ r => some r
    | _ => none

/-- R111, R154: the spare in use goes DOWN in TAKING; it has been taken from the channel, and the request anew is handled as
a failure on the primary port. A join on the spare, one that bridges among them, is no longer live; the reason is that of the
join where it had failed before, and TIMEOUT otherwise (DESIGN CHOICE, log entry 92). -/
def Plant.spareLost (p : Plant) (c : Chan) (i : PortNo) : Plant :=
  let t := p.bridgeFrame c
  let r := (p.chan c).failing.getD .timeout
  let q := ((p.modPort i fun x => x.withdrawLists c false).cancelJoinSwitch c).modTake c fun k => { k with bridgeReason := none }
  let q := q.modChan c fun x =>
    { x with pendingSw := x.pendingSw.filter fun w => match w.act with | .takeFailed _ _ => false | _ => true }
  q.askSpare c i r t false

/-- R134, R163: a join in local running on the port in use, whatever its state: the first command on a port that is not
UP ends at once with TIMEOUT (R106). -/
def Plant.localJoin (p : Plant) (c : Chan) (i : PortNo) : Plant :=
  let q := p.localJoinOn c i
  if (p.port i).state ≠ .up ∧ ((q.chan c).takeRec.bind (·.join)).isSome then
    (q.writeLast c .timeout).joinFail c i .timeout
  else q

/-! ## A take (R147 to R149) -/

/-- R147: the take's path, from the port in use, which is the primary port. -/
def Plant.takePath (p : Plant) (c : Chan) : Plant :=
  match p.primary c with
  | none => p
  | some i =>
    if (p.port i).state ≠ .up then p.turnToSpare c i
    else match p.config c with
      | some g =>
        if g.standby = .hot then
          p.handList i { channel := c, purpose := .verify, cmds := [{ cmd := .ask, notBefore := none }] }
        else p.coldJoin c i (p.chan c).now .joining
      | none => p

/-- R147: a take begins. One that turns to a spare at once shows the stage JOINING (DESIGN CHOICE, log entry 70). -/
def Plant.beginTake (p : Plant) (c : Chan) (kind : TakeKind) (o : TakeOption) : Plant :=
  let hot := (p.config c).any fun g => g.standby == .hot && (p.port g.primary).state == .up
  let fresh : TakeRec :=
    { kind := kind, option := o, start := (p.chan c).now, stage := if hot then .verifying else .joining, port := p.primary c, join := none,
      bridgeReason := none, verify := none, result := none, failure := none, rejoined := false }
  let q := (p.modChan c fun x =>
    { x with takeRec := some fresh, mode := .taking, confirm := none, portInUse := p.primary c, pendingSw := [] }).clearHalt c
  let q := if q.takeBridge c o = .filler then q.decideSwitch c .filler (q.nextLineFrame c) .bridge .bridge else q
  q.takePath c

/-- R149: a reported clip frame within the verify tolerance of som + (f − start). -/
def frameNear (tol : Nat) (reported : Nat) (e : Event) (f : Nat) : Bool :=
  let want : Int := (e.som : Int) + f - e.rstart
  decide ((reported : Int) - want ≤ tol) && decide (want - (reported : Int) ≤ tol)

/-- R149: the result of a verify's outcome handed back in frame f, and the event a verified take joins. -/
def Plant.verifyCheck (p : Plant) (c : Chan) (f : Nat) (o : DevOutcome) : VerifyResult × Option Event :=
  match o with
  | .refused _ | .done => (.refused, none)
  | .timeout => (.timeout, none)
  | .lineError => (.lineError, none)
  | .state mode clip frame =>
    if mode ≠ .rolling then (.mismatch, none)
    else match coverAt (p.chan c).playlist (f + 1) with
      | none => (.noEvent, none)
      | some e =>
        if e.kind = .filler then (.fillerEvent, none)
        else if clip ≠ e.clipId ∨ !frameNear (p.conf c (·.verifyTol)) frame e f then (.mismatch, none)
        else if (joinRefusal (p.conf c (·.tailGuard)) (f + 1) e).isSome then (.limit, none)
        else (.verified, some e)

/-- R149: the outcome of a take's ASK. -/
def Plant.verifyOutcome (p : Plant) (c : Chan) (i : PortNo) (o : DevOutcome) : Plant :=
  let f := (p.chan c).now
  let (r, e) := p.verifyCheck c f o
  let q := p.modTake c fun k => { k with verify := some r }
  match e with
  | some e =>
    let off := f + 1 - e.rstart
    let q := q.modTake c fun k =>
      { k with join := some { now0 := f, t := f + 1, event := e.id, offset := off, cue := e.som + off, roll := none } }
    (q.cueJoin c e.id off (f + 1)).decideSwitch c .onLocal (f + 1) .take .joinLocal
  | none => if (p.port i).state = .up then q.coldJoin c i f .joining else q.turnToSpare c i

/-- R153: a POINT's DONE is handed back. A join that is late is computed again once; a second late POINT ends it. A join
whose LOCAL switch has been made is computed again in local running. -/
def Plant.pointDone (p : Plant) (c : Chan) (i : PortNo) : Plant :=
  let x := p.chan c
  match x.takeRec with
  | some k =>
    match k.join.bind (·.roll) with
    | some roll =>
      if x.now < roll then p
      else if k.rejoined then p.joinFail c i .lateTwice
      else
        let q := (p.modPort i fun y => y.withdrawLists c false).cancelJoinSwitch c
        let q := q.modTake c fun k =>
          { k with rejoined := true, kind := if x.mode = .taking then k.kind else .localJoin, result := none }
        q.coldJoin c i x.now .rejoining
    | none => p
  | none => p

/-- R119, R149, R153, R154: the outcome of a Changeover command. -/
def Plant.listOutcome (p : Plant) (c : Chan) (i : PortNo) (purpose : Purpose) (live : Bool) (cmd : DevCmd) (o : DevOutcome) :
    Plant :=
  let q := p.writeLast c o
  if !live ∨ (q.chan c).mode = .idle then q
  else match purpose with
    | .stop => q
    | .verify => q.verifyOutcome c i o
    | .join =>
      match o with
      | .done => (match cmd with | .point _ => q.pointDone c i | _ => q)
      | .refused _ => q.joinFail c i .refused
      | .timeout => q.joinFail c i .timeout
      | .lineError => q.joinFail c i .lineError
      | .state _ _ _ => q

/-! ## Triggers and confirmation (R143 to R145) -/

inductive WithholdReason where
  | manual | doubt | recovered | vetoed
  deriving DecidableEq, Repr

def WithholdReason.code : WithholdReason → Nat
  | .manual => 0
  | .doubt => 1
  | .recovered => 2
  | .vetoed => 3

/-- The health, score, replica state and DIVERGED that TAKE WITHHELD and CONFIRM NEEDED carry. -/
def Plant.evidence (p : Plant) (c : Chan) : List Byte :=
  let x := p.chan c
  u8 x.watch.health.code ++ u8 x.watch.score ++ u8 x.replica.state.code ++ flag x.watch.diverged

def Plant.withhold (p : Plant) (c : Chan) (r : WithholdReason) : Plant :=
  p.notify .takeWithheld (some c) (u8 r.code ++ p.evidence c)

/-- R144: entry to CONFIRMING. -/
def Plant.beginConfirm (p : Plant) (c : Chan) (demoted : Bool) : Plant :=
  let deadline := (p.chan c).now + p.conf c (·.confirmWindow)
  let q := p.modChan c fun x => { x with mode := .confirming, confirm := some { deadline := deadline, demoted := demoted } }
  q.notify .confirmNeeded (some c) (q.ctfBytes c deadline ++ flag demoted ++ q.evidence c)

/-- R144, R145: the channel returns to SHADOW from CONFIRMING. -/
def Plant.leaveConfirm (p : Plant) (c : Chan) (r : WithholdReason) : Plant :=
  (p.modChan c fun x => { x with mode := .shadow, confirm := none }).withhold c r

/-- R144: the confirm window expires. -/
def Plant.expireConfirm (p : Plant) (c : Chan) : Plant :=
  match (p.chan c).confirm with
  | some r =>
    if (p.chan c).mode = .confirming ∧ r.deadline ≤ (p.chan c).now then
      (if r.demoted || p.doubt c then p.leaveConfirm c .doubt else p.beginTake c .auto .join)
    else p
  | none => p

/-- R143: a change into FAILED in SHADOW. -/
def Plant.trigger (p : Plant) (c : Chan) : Plant :=
  match p.config c with
  | none => p
  | some g =>
    match g.policy with
    | .manual => p.withhold c .manual
    | .auto => if p.doubt c then p.beginConfirm c true else p.beginTake c .auto .join
    | .autoConfirm => p.beginConfirm c false

/-! ## RESUME AT and the cancellation of a return (R169 to R173) -/

def Plant.tellResume (p : Plant) (c : Chan) (r : ReturnRec) (cancel : Bool) : Plant :=
  p.sendBack (.resumeAt c r.event r.sent cancel)

/-- R173: a covering event that began at T_ret is handed to the log once the return is cancelled, with the halt flag of its
beginning, which switch following reads too (R132). -/
def Plant.logAtReturn (p : Plant) (c : Chan) (tRet : Nat) : Plant :=
  match (p.chan c).covering with
  | some e => if e.cue = .airing ∧ tRet ≤ e.rstart ∧ e.rstart ≤ (p.chan c).now then p.airingEntry c e.begunHalted e else p
  | none => p

/-- R173: the pending return is cancelled. -/
def Plant.cancelReturn (p : Plant) (c : Chan) (why : CancelReason) : Plant :=
  match (p.chan c).returnRec with
  | none => p
  | some r =>
    let due := (p.chan c).returnDue
    let q := (p.tellResume c r true).modChan c fun x =>
      { x with mode := .onLocal, returnRec := some { r with state := .cancelled, cancel := some why } }
    let q := q.notify .returnCancelled (some c) (u32 r.event ++ q.ctfBytes c r.tRet ++ u8 why.code)
    if due then q.logAtReturn c r.tRet else q

/-- R85, R143, R145, R171, R173: a change of health into or out of FAILED reaches the Changeover Unit. -/
def Plant.healthReport (p : Plant) (c : Chan) (before after : Health) : Plant :=
  if before = after then p
  else if after = .failed then
    match (p.chan c).mode with
    | .shadow => p.trigger c
    | .returning => p.cancelReturn c .mainFailed
    | _ => p
  else if before = .failed then
    match (p.chan c).mode with
    | .confirming => p.leaveConfirm c .recovered
    | .returning => p.modChan c fun x => { x with returnRec := x.returnRec.map fun r => { r with against := false } }
    | _ => p
  else p

end Sys2Proof.Machine
end

