-- ==== Sys2Proof/Machine/LocalRunning.lean ====
section
/-! DEFINITION. What happens at a channel's switch line (R140, R141, R151 to R155, R172, R176, R177), switch following
(R132), and CLEAR CHANNEL's work on a channel (R139). -/

namespace Sys2Proof.Machine

/-! ## FILLER and the open entry (R165) -/

/-- R165: the switch, which stood at `before`, has been set to FILLER at its line; an entry that ends so is closed CUT there. -/
def Plant.cutOnFiller (p : Plant) (c : Chan) (before : SwitchPos) : Plant :=
  let x := p.chan c
  match x.openEntry with
  | some o =>
    if x.mode.running && x.endsOnFiller before o then p.closeEntry c .cut x.now else p
  | none => p

def Plant.toFiller (p : Plant) (c : Chan) (cause : SwitchCause) : Plant :=
  (p.setSwitch c .filler cause).cutOnFiller c (p.chan c).switch

/-! ## The ends of takes and joins (R152, R155) -/

/-- R140, R155: at its outcome switch a take's channel enters LOCAL. -/
def Plant.enterLocal (p : Plant) (c : Chan) : Plant := if (p.chan c).mode = .taking then p.setMode c .onLocal else p

/-- R155: which notice reports a result. -/
def TakeKind.doneNotice : TakeKind → NoticeKind
  | .localJoin => .joinDone
  | _ => .takeDone

/-- What TAKE DONE and JOIN DONE carry (R155): the kind, the port and T, and the fields that only one of the two results has,
each with its presence byte (R192), in the order R155 lists them (DEDUCED, log entry 43). -/
structure DoneBody where
  kind : TakeKind
  port : Option PortNo
  event : Option Nat
  entry : Option EntryKind
  bridge : Option BridgeReason
  t : DayLabel
  cue : Option Nat
  verify : Option VerifyResult
  rejoined : Option Bool
  next : Option Nat
  deriving DecidableEq, Repr

def DoneBody.bytes (d : DoneBody) : List Byte :=
  u8 d.kind.code ++ portOrNone d.port ++ opt u32 d.event ++ opt (fun k => u8 (EntryKind.code k)) d.entry ++
    opt (fun r => u8 (BridgeReason.code r)) d.bridge ++ dayLabelBytes d.t ++ opt u24 d.cue ++
    opt (fun r => u8 (VerifyResult.code r)) d.verify ++ opt flag d.rejoined ++ opt u32 d.next

/-- R155, result LOCAL. -/
def Plant.tellDone (p : Plant) (c : Chan) (k : TakeRec) (j : JoinRec) (kind : EntryKind) : Plant :=
  p.notify k.kind.doneNotice (some c)
    ({ kind := k.kind, port := k.port, event := some j.event, entry := some kind, bridge := none, t := p.dayLabel c j.t,
       cue := some j.cue, verify := k.verify, rejoined := some k.rejoined, next := none } : DoneBody).bytes

/-- R155, result FILLER_BRIDGE. -/
def Plant.tellBridge (p : Plant) (c : Chan) (k : TakeRec) (r : BridgeReason) (t : Nat) : Plant :=
  p.notify k.kind.doneNotice (some c)
    ({ kind := k.kind, port := k.port, event := none, entry := none, bridge := some r, t := p.dayLabel c t,
       cue := none, verify := none, rejoined := none, next := firstAfter (p.chan c).playlist t } : DoneBody).bytes

/-- R152: the checks made again at the switch line of T. -/
def Plant.joinHolds (p : Plant) (c : Chan) (j : JoinRec) : Bool :=
  match findEvent (p.chan c).playlist j.event with
  | some e =>
    e.cue != .skipped && decide (j.t + p.conf c (·.tailGuard) < e.rend) &&
      (match e.clip.bind (·.eom) with
       | some m => decide (j.cue < m)
       | none => true)
  | none => false

/-- R150, R152, R155: a take or join ends on the bridge. -/
def Plant.endOnBridge (p : Plant) (c : Chan) (t : Nat) (r : BridgeReason) : Plant :=
  let q := ((p.enterLocal c).toFiller c .bridge).modTake c fun k =>
    { k with stage := .ended, result := some .fillerBridge, bridgeReason := some r }
  match (q.chan c).takeRec with
  | some k => q.tellBridge c k r t
  | none => q

/-- R151, R152: the switch line of a join's T. -/
def Plant.joinLine (p : Plant) (c : Chan) : Plant :=
  match (p.chan c).takeRec with
  | none => p
  | some k =>
    match k.join with
    | none => p
    | some j =>
      if p.joinHolds c j then
        let kind : EntryKind := if j.offset = 0 then .start else .join
        let q := ((p.enterLocal c).setSwitch c .onLocal .take).modTake c fun k =>
          { k with stage := .ended, result := some .onLocal }
        (q.joinEntry c j.event j.t kind (p.chan c).portInUse).tellDone c k j kind
      else
        let q := match k.port with
          | some i => p.withdrawJoin c i
          | none => p
        (q.cueBridge c j.t).endOnBridge c j.t .eventChanged

/-- R154, R155: a take ends FAILED at its switch line. A port that has come meanwhile leads to a join in local running. -/
def Plant.failLine (p : Plant) (c : Chan) (i : PortNo) (r : FailReason) : Plant :=
  let kind := ((p.chan c).takeRec.map (·.kind)).getD .manual
  let q := ((p.enterLocal c).toFiller c .portLoss).modTake c fun k =>
    { k with stage := .ended, result := some .failed, failure := some r }
  let q := q.tellFailed c .takeFailed kind r i
  match (q.chan c).portInUse with
  | some s => if s = i ∧ (q.port i).holder = some c then q else q.localJoin c s
  | none => q

/-! ## CLEAR CHANNEL (R139) -/

/-- R139, R71, R92, R110, R111, R135, R178: the channel goes back to IDLE. -/
def Plant.clearChannel (p : Plant) (c : Chan) : Plant :=
  let primary := p.primary c
  let q := ((p.setMode c .idle).usePort c none).leaveQueue c
  let q := q.releaseSpare c
  let q := match primary with
    | some i => q.disown c i
    | none => q
  let q := (q.withdrawCue c fun _ => true).discard c fun _ => true
  ((q.setChan c { Channel.reset with switch := (p.chan c).switch }).emit (.dropBack c)).emit (.clearMissed c)

/-! ## RELEASE (R177) -/

/-- R177: the switch line of an accepted RELEASE. -/
def Plant.releaseLine (p : Plant) (c : Chan) : Plant :=
  match (p.chan c).release with
  | none => p
  | some t =>
    if (p.chan c).mode ≠ .orphaned then p
    else
      let q := p.modChan c fun x => { x with release := none }
      match t with
      | .filler => q.setSwitch c .filler .release
      | .main .shadow =>
        let before := (q.chan c).replica.state
        let q := ((((q.setMode c .shadow).setSwitch c .main .release).backToPrimary c).awaitBase c)
        if before = .awaitBase then q else q.tellReplica c before .released none
      | .main .idle => ((q.setMode c .idle).setSwitch c .main .release).clearChannel c

/-! ## ADOPT (R176) -/

inductive AdoptReason where
  | eventGone | released
  deriving DecidableEq, Repr

def AdoptReason.code : AdoptReason → Nat
  | .eventGone => 0
  | .released => 1

/-- R176: an adoption fails or is cancelled. -/
def Plant.adoptFailed (p : Plant) (c : Chan) (r : AdoptReason) : Plant :=
  let q := ((p.modChan c fun x => { x with adoption := none }).backToPrimary c).leaveQueue c
  (q.releaseSpare c).notify .adoptFailed (some c) (u8 r.code)

/-- R176: the port in use is UP and, where it is a spare, still the channel's (R111). -/
def Plant.portWorks (p : Plant) (c : Chan) (i : PortNo) : Bool :=
  (p.port i).state == .up && ((p.port i).role != .spare || (p.port i).holder == some c)

/-- R176: an adoption is carried out. The event becomes AIRING, also one that is DONE and covers the frame again after a backward step
(DESIGN CHOICE, log entry 95). -/
def Plant.adopt (p : Plant) (c : Chan) (a : Adoption) : Plant :=
  let now := (p.chan c).now
  let q := (p.modChan c fun x => { x with adoption := none, mode := .onLocal }).cueAdopt c a.event
  let q := q.modEvent c a.event fun e => if e.cue = .airing then e else
    if e.cue = .pending then { q.bindTo .airing e with begunHalted := (p.chan c).seq.halted }
    else { e with cue := .airing, begunHalted := (p.chan c).seq.halted }
  let q := q.openEntryFor c a.event now .join (p.chan c).portInUse
  let q := q.notify .adoptDone (some c) (u32 a.event ++ q.ctfBytes c now ++ u8 a.port.val)
  match (p.chan c).portInUse with
  | some i => if p.portWorks c i then q else q.portLost c i
  | none => q

/-- R176: the first switch line after an ADOPT is accepted. -/
def Plant.adoptLine (p : Plant) (c : Chan) : Plant :=
  let x := p.chan c
  match x.adoption with
  | none => p
  | some a =>
    if (coverAt x.playlist x.now).map (·.id) = some a.event then p.adopt c a else p.adoptFailed c .eventGone

/-! ## The return switch (R172) -/

/-- R172: the channel is handed back. A join in progress ends with the take record's stage ENDED and no result or failure (DESIGN
CHOICE, log entry 79). Last, the Cue Sequencer considers its queue on the primary port (R123). -/
def Plant.returnSwitch (p : Plant) (c : Chan) (r : ReturnRec) : Plant :=
  let x := p.chan c
  let wasPrimary := x.portInUse.isSome && x.portInUse == p.primary c
  let q := match x.openEntry with
    | some o => p.closeEntry c (p.exitAt c o.event r.tRet) r.tRet
    | none => p
  let q := (q.modChan c fun x =>
    { x with mode := .shadow, pendingSw := [], returnRec := some { r with state := .done } }).setSwitch c .main .retn
  let q := if q.working c then q.modTake c fun k => { k with stage := .ended } else q
  let q := match x.portInUse with
    | some i => q.modPort i fun y => y.withdrawLists c false
    | none => q
  let q := ((q.backToPrimary c).leaveQueue c).releaseSpare c
  let q := q.applyDeferred c
  let q := match p.config c with
    | some g =>
      if g.standby = Standby.cold ∧ wasPrimary then
        q.handStop c g.primary (some (r.tRet + 1))
      else q
    | none => q
  (q.notify .returnDone (some c) (u32 r.event ++ q.ctfBytes c r.tRet ++ u8 (q.chan c).replica.state.code)).wakeCue c

/-! ## The switch line (R141, R132) -/

/-- One pending switch is made. -/
def Plant.makeSwitch (p : Plant) (c : Chan) (w : PendingSw) : Plant :=
  let m := (p.chan c).mode
  match w.act with
  | .bridge => if m = .taking then p.setSwitch c .filler .bridge else p
  | .joinLocal => if m = .taking || m.running then p.joinLine c else p
  | .joinBridge t =>
    if m = .taking || m.running then
      p.endOnBridge c t (((p.chan c).takeRec.bind (·.bridgeReason)).getD .noEvent)
    else p
  | .takeFailed i r => if m = .taking then p.failLine c i r else p
  | .plain => if m.running then p.toFiller c w.cause else p
  | .abort => if m = .taking then (p.setMode c .shadow).setSwitch c .main .abort else p
  | .release => p.releaseLine c

/-- R132, R133: the halt flag as it stood when the event began: at the frame start that made it AIRING, and now for one that
begins at this line. -/
def Channel.haltedFor (x : Channel) (e : Event) : Bool := if e.cue = .airing then e.begunHalted else x.seq.halted

/-- R132: where the switch follows the covering event to. -/
def Channel.followPos (x : Channel) : SwitchPos :=
  match x.covering with
  | some e => if e.kind = .clip ∧ !x.haltedFor e ∧ !e.skipEnded ∧ x.portInUse.isSome then .onLocal else .filler
  | none => .filler

/-- R132: switch following acts. -/
def Plant.follow (p : Plant) (c : Chan) : Plant :=
  let q := p.noteCover c
  match (p.chan c).followPos with
  | .onLocal => q.setSwitch c .onLocal .follow
  | _ => q.toFiller c .follow

/-- The line event of a channel's switch line: the return switch; else the pending switches and a pending adoption, or
switch following where nothing holds the switch. Two changes that a forward step has both passed are both made here, in the order in
which they were decided (R15; DEDUCED, log entry 87). -/
def Plant.switchLine (p : Plant) (c : Chan) : Plant :=
  let x := p.chan c
  match x.returnRec, x.returnDue with
  | some r, true => p.returnSwitch c r
  | _, _ =>
    let due := x.pendingSw.filter fun w => w.frame ≤ x.now
    let later := p.modChan c fun x => { x with pendingSw := x.pendingSw.filter fun w => !decide (w.frame ≤ x.now) }
    if x.mode.running && !x.held && x.covering.map (·.id) != x.cover then later.follow c
    else
      let q := (due.foldl (fun q w => q.makeSwitch c w) later).adoptLine c
      if (q.chan c).mode.running then q.noteCover c else q

end Sys2Proof.Machine
end

