-- ==== Sys2Proof/Machine/Ports.lean ====
section
/-! DEFINITION. Device ports at work (sections 5.3, 5.4): outcomes handed to their requesters, failed attempts, entry to
DOWN, recovery, and the port's return to UP. -/

namespace Sys2Proof.Machine

/-! ## Outcomes (R108) -/

/-- R108: an outcome is handed to the requester whose command it was. Where it drops entries of a channel that works with another
port by now, that channel's Cue Sequencer considers its queue there (R123). -/
def Plant.handOutcome (p : Plant) (i : PortNo) (out : Outstanding) (o : DevOutcome) : Plant :=
  match out.requester with
  | .changeover c u live => p.listOutcome c i u live out.cmd o
  | .cue c s =>
    let q := p.cueOutcome c s o
    if (p.chan c).portInUse = some i then q else p.wakeAfter q c
  | .pass => p.emit (.passOutcome i o)
  | .probe => p

/-- The port has no outstanding command any more. -/
def Port.endCommand (x : Port) : Port :=
  { x with outstanding := none, replyTimer := none, attempt := 1, failures := [] }

/-- R98, R99: the outstanding command ends; the outcome is handed over and the port settles. -/
def Plant.endCommand (p : Plant) (i : PortNo) (out : Outstanding) (o : DevOutcome) : Plant :=
  ((p.modPort i Port.endCommand).handOutcome i out o).settlePort i

/-! ## Claims on a port that is not UP (R107) -/

/-- R107: the commands of a claim that are due on a DOWN or OFF port end at once with TIMEOUT; `fuel` bounds them. -/
def Plant.timeoutClaims : (fuel : Nat) → PortNo → Plant → Plant
  | 0, _, p => p
  | n + 1, i, p =>
    let x := (p.port i).dropFinished
    let p := p.setPort i x
    if x.state = .up ∨ x.listBusy then p
    else match p.dueCommand x with
      | some (l, cmd) =>
        Plant.timeoutClaims n i ((p.setPort i x.popCommand).listOutcome l.channel i l.purpose true cmd .timeout)
      | none => p

/-- The commands of a port's claim that are due: presented where the port is UP, ended with TIMEOUT where it is not. -/
def Plant.serveClaim (p : Plant) (i : PortNo) : Plant :=
  if (p.port i).state = .up then p.arbitrate i
  else (Plant.timeoutClaims (((p.port i).claim.map fun l => l.cmds.length).sum + 4) i p).settlePort i

/-! ## DOWN (R102, R111) -/

/-- R102: the port's state on entry to DOWN: both stages emptied, the recovery break in the shift stage and the first
probe behind it. The commands in the slots stand until each has ended or has been withdrawn (R108). -/
def Port.down (x : Port) : Port :=
  { x with state := .down, outstanding := some { cmd := .ask, requester := .probe }, replyTimer := none, attempt := 1,
           failures := [], tryTimeout := x.replyTimeout, tryRetries := x.retries,
           shift := some .brk, holding := some DevCmd.ask.frame, timeouts := 0, probeTimer := none, grantHeld := false }

/-- R102, R105: the Cue Sequencer's command waiting in its slot ends with TIMEOUT. -/
def Plant.timeoutSlotCue (p : Plant) (i : PortNo) : Plant :=
  match (p.port i).slotCue with
  | some (c, s) => (p.modPort i fun x => { x with slotCue := none }).cueOutcome c s .timeout
  | none => p

/-- R102, R105: the pass-through waiting in its slot ends with TIMEOUT. -/
def Plant.timeoutSlotPass (p : Plant) (i : PortNo) : Plant :=
  match (p.port i).slotPass with
  | some _ => (p.modPort i fun x => { x with slotPass := none }).emit (.passOutcome i .timeout)
  | none => p

/-- R102, R105: the commands that wait in the slots end with TIMEOUT. One that the outcome handed over before it has withdrawn, as a
join does (R131), is in its slot no longer and has no outcome (R108). -/
def Plant.timeoutSlots (p : Plant) (i : PortNo) : Plant := (p.timeoutSlotCue i).timeoutSlotPass i

/-- R106, R107: the Changeover command that stands in its slot: the head list's next command, which is due while another
requester's command is outstanding. -/
def Plant.presented (p : Plant) (i : PortNo) : Option (CmdList × DevCmd) :=
  let x := (p.port i).dropFinished
  if x.listBusy then none else p.dueCommand x

/-- R102: the Changeover command that stood in its slot ends with TIMEOUT. Where its list has been withdrawn meanwhile, the
outcome is written and changes nothing else (R161, step 1). -/
def Plant.timeoutPresented (p : Plant) (i : PortNo) : Option (CmdList × DevCmd) → Plant
  | none => p
  | some (l, cmd) =>
    let x := (p.port i).dropFinished
    if x.claim.head? = some l then (p.setPort i x.popCommand).listOutcome l.channel i l.purpose true cmd .timeout
    else p.listOutcome l.channel i l.purpose false cmd .timeout

/-- R111, R160, R161, R154: the loss of a port reaches the Changeover Unit of its owner. A channel in ORPHANED that has lost the
spare of its adoption requests another; R176 acts at the switch line (DEDUCED, log entry 37). -/
def Plant.reportLoss (p : Plant) (i : PortNo) (owner : Option Chan) : Plant :=
  match owner with
  | none => p
  | some c =>
    if (p.chan c).mode = .orphaned ∧ (p.port i).role = .spare then (p.requestSpare c).1
    else if (p.chan c).portInUse ≠ some i then p
    else if (p.chan c).mode.running then p.portLost c i
    else if (p.chan c).mode = .taking ∧ (p.port i).role = .spare then p.spareLost c i
    else p

/-- A channel in LOCAL or RETURNING that loses its port in use: its join is no longer live before the outcome of an
outstanding command is handed over (R161). -/
def Plant.releaseJoin (p : Plant) (i : PortNo) (owner : Option Chan) : Plant :=
  match owner with
  | some c =>
    if (p.chan c).mode.running ∧ (p.chan c).portInUse = some i then p.modPort i fun x => x.withdrawLists c false else p
  | none => p

/-- R102: entry to DOWN. When the commands in the slots have ended, the Cue Sequencer considers its queue again, and each head
that is due ends with TIMEOUT in its turn (R123, R124). PORT STATE goes before the spare is taken from its holder, whom it names
(DEDUCED, log entry 67). The waiting commands end in the arbiter's order, Changeover Unit, Cue Sequencer, pass-through, so that a join
which the Changeover command's outcome begins or ends withdraws the Cue Sequencer's (DESIGN CHOICE, log entry 83). -/
def Plant.enterDown (p : Plant) (i : PortNo) (cause : PortCause) : Plant :=
  let owner := p.ownerOf i
  let due := p.presented i
  let q := p.releaseJoin i owner
  let x := q.port i
  let q := q.modPort i Port.down
  let q := match x.outstanding with
    | some out => q.handOutcome i out .timeout
    | none => q
  let q := ((((q.timeoutPresented i due).timeoutSlots i).userTakes i).tellPort i x.state cause)
  let q := q.modPort i fun y => { y with holder := none }
  (q.reportLoss i owner).serveClaim i

/-! ## Failed attempts (R99, R100) -/

/-- R99: the outcome of a command all of whose attempts have failed. -/
def failedOutcome (failures : List FailKind) : DevOutcome :=
  if failures.all (· == .garbled) then .lineError else .timeout

/-- R99: the command is resent. -/
def Port.resend (x : Port) (cmd : DevCmd) (failures : List FailKind) : Port :=
  { x.handFrame cmd.frame with
    attempt := x.attempt + 1, failures := failures, replyTimer := none, tryTimeout := x.replyTimeout,
    tryRetries := x.retries }

/-- R99, R100: an attempt of the outstanding command fails. After a third TIMEOUT the requester may place its next command, which
is not granted and ends at the entry to DOWN. -/
def Plant.attemptFails (p : Plant) (i : PortNo) (k : FailKind) : Plant :=
  let x := p.port i
  match x.outstanding with
  | none => p
  | some out =>
    let failures := x.failures ++ [k]
    if x.attempt ≤ x.tryRetries then p.modPort i fun x => x.resend out.cmd failures
    else match failedOutcome failures with
      | .timeout =>
        if x.timeouts + 1 = 3 then
          let q := p.modPort i fun x => { x.endCommand with timeouts := 3, grantHeld := true }
          ((q.handOutcome i out .timeout).settlePort i).enterDown i .timeouts
        else (p.modPort i fun x => { x with timeouts := x.timeouts + 1 }).endCommand i out .timeout
      | o => p.endCommand i out o

/-! ## UP again (R103, R94, R110, R162) -/

/-- R103, R94: what follows a port's becoming UP: a free spare goes to the arbiter, and a channel that waits goes back to its
primary port. -/
def Plant.nowUp (p : Plant) (i : PortNo) : Plant :=
  let q := p.spareFreed i
  let q := match q.ownerOf i with
    | some c => if q.primary c = some i then q.tryPrimary c else q
    | none => q
  q.settlePort i

/-- R98: the outcome of a reply to a command. -/
def replyOutcome (cmd : DevCmd) (r : DevReply) : DevOutcome :=
  match r, cmd with
  | .done, .ask => .refused none
  | .done, _ => .done
  | .refused n, _ => .refused n
  | .state m k f, .ask => .state m k f
  | .state _ _ _, _ => .refused none

/-- R98, R101, R103: a good frame. -/
def Plant.goodReply (p : Plant) (i : PortNo) (r : DevReply) : Plant :=
  let x := p.port i
  let p := if x.state = .off then p else p.modPort i fun x => { x with rx := [] }
  match x.state, x.outstanding with
  | .up, some out =>
    if x.replyTimer.isSome then
      (p.modPort i fun x => { x with timeouts := 0 }).endCommand i out (replyOutcome out.cmd r)
    else p
  | .down, _ =>
    if x.probeTimer.isSome then
      ((p.modPort i fun x => { x.endCommand with state := .up, probeTimer := none, timeouts := 0 }).tellPort i .down
        .reply).nowUp i
    else p
  | _, _ => p

/-! ## OFF (R105) -/

/-- R105: the port becomes OFF. -/
def Plant.enterOff (p : Plant) (i : PortNo) : Plant :=
  let x := p.port i
  let q := p.modPort i fun x =>
    { x.endCommand.clearStages with role := .off, state := .off, claim := [],
                                    probeTimer := none, timeouts := 0, rx := [], grantHeld := false }
  let q := match x.outstanding with
    | some out => q.handOutcome i out .timeout
    | none => q
  (q.timeoutSlots i).tellPort i x.state .roleOff

end Sys2Proof.Machine
end

