-- ==== Sys2Proof/Machine/Timebase.lean ====
section
/-! DEFINITION. The Timebase Unit (chapter 1): line events and frame starts of a reference, lock and re-phase, labels and
time steps, and the day roll. A frame start is taken whole here: every block's part of it, in the order of the chapters. -/

namespace Sys2Proof.Machine

/-! ## Notices -/

/-- R8: REFERENCE STATE. -/
def Plant.tellReference (p : Plant) (r : RefId) : Plant :=
  let x := p.ref r
  p.notify .referenceState none
    (u8 r.code ++ u8 x.family.code ++ u8 x.lock.code ++ flag x.timeSet ++ flag x.faulty ++ u32 x.station)

/-! ## Line events (R1) -/

def Plant.setRaised (p : Plant) (r : RefId) (line : Nat) : Plant :=
  let x := p.ref r
  p.setRef r { x with raised := line, line := max x.line line }

/-- The channels of a reference whose switch line is raised when its lines up to `upto` are, in line order; those of one
line are in a free order. -/
def Plant.lineChannels (p : Plant) (r : RefId) (upto : Nat) : List Chan :=
  let here := (p.bound r).filter fun c => decide ((p.ref r).raised < (p.chan c).lineInForce) && decide ((p.chan c).lineInForce ≤ upto)
  sortBy (fun a b => decide ((p.chan a).lineInForce < (p.chan b).lineInForce)) (p.inFreeOrder here)

/-- The line events of the lines not yet raised, up to a line, in order. -/
def Plant.raiseLines (p : Plant) (r : RefId) (upto : Nat) : Plant :=
  if upto ≤ (p.ref r).raised then p
  else
    let cs := p.lineChannels r upto
    ((cs.foldl (fun q c => (q.setRaised r (p.chan c).lineInForce).switchLine c) p).tickFree).setRaised r upto

/-! ## The day roll (R17) -/

/-- R17: a queued or waiting step entry's due frame. -/
def StepEntry.shift (d : Nat) (s : StepEntry) : StepEntry := { s with due := s.due - d }

def Event.shift (d : Nat) (e : Event) : Event :=
  { e with labelCtf := e.labelCtf.map (· - d), rstart := e.rstart - d, rend := e.rend - d, cut := e.cut.map (· - d) }

def SwAct.shift (d : Nat) : SwAct → SwAct
  | .joinBridge t => .joinBridge (t - d)
  | a => a

def JoinRec.shift (d : Nat) (j : JoinRec) : JoinRec :=
  { j with now0 := j.now0 - d, t := j.t - d, roll := j.roll.map (· - d) }

def TakeRec.shift (d : Nat) (k : TakeRec) : TakeRec := { k with start := k.start - d, join := k.join.map (JoinRec.shift d) }

def ReturnRec.shift (d : Nat) (r : ReturnRec) : ReturnRec :=
  { r with tRet := r.tRet - d, notBefore := r.notBefore.map (· - d) }

/-- R17: every CTF-valued item of the channel decreases by d, not below 0. -/
def Channel.shift (d : Nat) (x : Channel) : Channel :=
  { x with
    now := x.now - d
    playlist := x.playlist.map (Event.shift d)
    watch := { x.watch with lastEnded := x.watch.lastEnded.map fun (i, t) => (i, t - d) }
    seq := { x.seq with queue := x.seq.queue.map (StepEntry.shift d) }
    pendingSw := x.pendingSw.map fun w => { w with frame := w.frame - d, act := w.act.shift d }
    confirm := x.confirm.map fun k => { k with deadline := k.deadline - d }
    takeRec := x.takeRec.map (TakeRec.shift d)
    returnRec := x.returnRec.map (ReturnRec.shift d)
    openEntry := x.openEntry.map fun o => { o with start := o.start - d } }

/-- R17: what a port holds for the channel. -/
def Port.shiftFor (d : Nat) (c : Chan) (x : Port) : Port :=
  let y := x.markOutstanding c (StepEntry.shift d)
  { y with
    slotCue := y.slotCue.map fun (c', s) => (c', if c' = c then s.shift d else s)
    claim := y.claim.map fun l =>
      if l.channel = c then { l with cmds := l.cmds.map fun k => { k with notBefore := k.notBefore.map (· - d) } } else l }

/-- R17: the day roll, where the channel's now has reached 2 × FPD. -/
def Plant.rollIfDue (p : Plant) (c : Chan) : Plant :=
  let d := (p.family c).fpd
  if (p.chan c).mode = .idle ∨ (p.chan c).now < 2 * d then p
  else
    let q := (p.modChan c fun x => { x.shift d with baseDay := (x.baseDay + 1) % 65536 }).mapPorts (Port.shiftFor d c)
    (q.resolve c).notify .dayRolled (some c) (u16 (q.chan c).baseDay)

/-! ## Labels (R13, R14) -/

/-- The label kept for a frame, where it is valid in the reference's family and not dropped. -/
def Reference.goodLabel (x : Reference) : Option Label :=
  match x.label with
  | some l => if l.valid x.family && !l.dropped x.family then some l else none
  | none => none

/-- R13: the station count that follows a frame whose label has this count. -/
def Reference.after (x : Reference) (count : Nat) : Nat := (count + 1) % x.family.fpd

/-- R14: a frame's offset δ, held over frames. -/
def Reference.offsetSeen (x : Reference) (d : Int) : Reference :=
  { x with offset := some d, offsetRun := if x.offset = some d then x.offsetRun + 1 else 1 }

/-- R13, R14: the label kept for the frame just ended is examined; `allowed` says whether a negative step leaves every
channel's now high enough. The reference with the new frame's station count, and the step applied, if any. -/
def Reference.examine (x : Reference) (allowed : Int → Bool) : Reference × Option Int :=
  let next := { x with station := x.after x.station }
  let half : Int := (x.family.fpd / 2 : Nat)
  match x.timeSet, x.goodLabel with
  | false, none => (next, none)
  | false, some l => ({ next with station := x.after (l.count x.family), timeSet := true }, none)
  | true, none => ({ next with offset := none, offsetRun := 0 }, none)
  | true, some l =>
    let n := l.count x.family
    let d : Int := (n : Int) - x.station
    if d = 0 then ({ next with offset := none, offsetRun := 0, faulty := false }, none)
    else if x.offset = some d ∧ 3 ≤ x.offsetRun then (next, none)
    else
      let seen := next.offsetSeen d
      if seen.offsetRun < 3 then (seen, none)
      else if -half ≤ d ∧ d ≤ half ∧ (0 ≤ d ∨ allowed d) then
        ({ seen with station := x.after n, offset := none, offsetRun := 0 }, some d)
      else ({ seen with faulty := true }, none)

/-- R14: a negative step leaves the now of every channel bound to the reference at or above FPD/2. -/
def Plant.stepAllowed (p : Plant) (r : RefId) (d : Int) : Bool :=
  (p.bound r).all fun c => decide (((p.ref r).family.fpd / 2 : Nat) ≤ ((p.chan c).now : Int) + 1 + d)

/-! ## A channel's frame start -/

/-- R141, R15: a pending switch of the next switch line is made at the first switch-line event after its decision, whatever
step comes between; only the LOCAL of a join waits for a frame of its own. -/
def PendingSw.notAfter (now : Nat) (w : PendingSw) : PendingSw :=
  if w.act = .joinLocal then w else { w with frame := min w.frame now }

/-- R1, R15: now advances by 1 and is moved by the step. -/
def Plant.advanceNow (p : Plant) (c : Chan) (step : Option Int) : Plant :=
  p.modChan c fun x =>
    let now := ((x.now : Int) + 1 + step.getD 0).toNat
    { x with now := now, pendingSw := x.pendingSw.map (PendingSw.notAfter now) }

/-- R15: TIME STEP, and the resolution with the new now. -/
def Plant.tellStep (p : Plant) (c : Chan) (step : Option Int) : Plant :=
  match step with
  | none => p
  | some d => (p.notify .timeStep (some c) (s32 d ++ p.ctfBytes c (p.chan c).now)).resolve c

/-- R75, R85: the watch evaluates the frame just ended and reports. -/
def Plant.watchFrame (p : Plant) (c : Chan) : Plant :=
  let before := (p.chan c).watch.health
  let q := p.evaluateWatch c
  q.healthReport c before (q.chan c).watch.health

/-- R144, R145: the watch and the expiry of a confirm window, in either order where both fall at this frame start. -/
def Plant.watchAndExpiry (p : Plant) (c : Chan) : Plant :=
  match (p.chan c).confirm with
  | some k =>
    if (p.chan c).mode = .confirming ∧ k.deadline ≤ (p.chan c).now then
      (if Config.expiryFirst p.free then (p.expireConfirm c).watchFrame c else (p.watchFrame c).expireConfirm c).tickFree
    else p.watchFrame c
  | none => p.watchFrame c

/-- R107: the commands of the channel's lists whose frame has begun. -/
def Plant.serveClaims (p : Plant) (c : Chan) : Plant :=
  (allPorts.filter fun i => (p.port i).claim.any fun l => l.channel == c).foldl (fun q i => q.serveClaim i) p

/-- R121 to R123: the sequencer's part, and the grant that may follow on the port in use. -/
def Plant.sequenceFrame (p : Plant) (c : Chan) : Plant :=
  let q := p.sequence c
  match (q.chan c).portInUse with
  | some i => q.arbitrate i
  | none => q

/-- The events that this frame start's change of cue state makes ready for retirement. -/
def freshlyRetiring (before after : Channel) : List Nat :=
  ((after.playlist.filter (Event.retires after.now)).map (·.id)).filter fun i =>
    !((before.playlist.filter (Event.retires before.now)).map (·.id)).contains i

/-- R42, R127: cue states and retirement, in either order. -/
def Plant.cuesAndRetirement (p : Plant) (c : Chan) (stepped : Bool) : Plant :=
  let moved := p.moveCues c stepped
  match freshlyRetiring (p.chan c) (moved.chan c) with
  | [] => moved.retire c
  | _ => (if Config.retireFirst p.free then (p.retire c).moveCues c stepped else moved.retire c).tickFree

/-- R138: the switch line of the frame that begins. -/
def Plant.latchLine (p : Plant) (c : Chan) : Plant :=
  match p.config c with
  | some g => p.modChan c fun x => { x with lineInForce := g.switchLine }
  | none => p

/-- R1, R15, R17: a channel's frame start begins: its now advances and rolls, and a step is told. -/
def Plant.beginFrame (step : Option Int) (p : Plant) (c : Chan) : Plant :=
  ((p.advanceNow c step).rollIfDue c).tellStep c step

/-- R1: a frame start of a channel that is not IDLE. Whether its steps are issued is renewed before any head is taken at this frame
start (R122); a head that an eclipsed event's skip uncovers is considered after the cue states and the retirement (DEDUCED, log
entry 73). -/
def Plant.channelFrame (step : Option Int) (p : Plant) (c : Chan) : Plant :=
  let q := (((Plant.beginFrame step p c).watchAndExpiry c).renewIssuing c).serveClaims c
  let q := q.sequenceFrame c
  (q.wakeAfter (q.cuesAndRetirement c (step.any fun d => decide (0 < d))) c).latchLine c

/-! ## A reference's frame start -/

/-- A reference at the start of a frame whose origin lies `length` lines after that of the frame before. -/
def Reference.newFrame (x : Reference) (line length : Nat) : Reference :=
  { x with line := line, raised := 0, label := none, lastPulse := x.lastPulse.map fun q => q - length }

/-- R14: the offset has been held for 3 frames and stands: a confirmed step has been refused at this frame start. -/
def Reference.refusedStep (before after : Reference) : Bool := before.offsetRun == 2 && after.offsetRun == 3

/-- R8, R14: the examination of a label is reported: time set or labels faulty has changed, or a step has been refused. -/
def Reference.newsOfLabel (before after : Reference) : Bool :=
  before.timeSet != after.timeSet || before.faulty != after.faulty || before.refusedStep after

/-- R1, R13 to R15: a frame start: the label of the frame just ended is examined, then every channel bound to the
reference takes the frame start. -/
def Plant.frameStart (p : Plant) (r : RefId) (line length : Nat) : Plant :=
  let before := p.ref r
  let (x, step) := before.examine (p.stepAllowed r)
  let q := p.setRef r (x.newFrame line length)
  let q := if before.newsOfLabel x then q.tellReference r else q
  let cs := q.bound r
  ((q.inFreeOrder cs).foldl (Plant.channelFrame step) q.tickFree)

/-- The frame in progress ends: the line events of the lines not reached are raised, then the next frame starts (R1). -/
def Plant.endFrame (p : Plant) (r : RefId) (line length : Nat) : Plant :=
  (p.raiseLines r (p.ref r).family.lines).frameStart r line length

/-! ## Lock, holdover and re-phase (R3 to R7) -/

def Plant.modRef (p : Plant) (r : RefId) (f : Reference → Reference) : Plant := p.setRef r (f (p.ref r))

/-- R3, R6: the reference becomes LOCKED. -/
def Reference.lockOn (x : Reference) : Reference := { x with lock := .locked, miss := 0, run := 0, lastPulse := none }

/-- R4: a missed pulse; the third makes the reference LOST. -/
def Plant.missPulse (p : Plant) (r : RefId) : Plant :=
  let q := p.modRef r fun x => { x with miss := min 3 (x.miss + 1) }
  if (q.ref r).miss = 3 then
    (q.modRef r fun x => { x with lock := .lost, run := 0, lastPulse := none }).tellReference r
  else q

/-- Within 8 lines either side. -/
def near (a b : Nat) : Bool := decide (a ≤ b + 8) && decide (b ≤ a + 8)

/-- R5: the pulse is in phase with its predecessor. -/
def Reference.inPhase (x : Reference) (pos : Nat) : Bool :=
  match x.lastPulse with
  | some q => decide (q + x.family.lines ≤ pos + 8) && decide ((pos : Int) ≤ q + x.family.lines + 8)
  | none => false

/-- R5: a pulse while LOST moves the in-phase run. -/
def Reference.pulseLost (x : Reference) (pos : Nat) : Reference :=
  { x with run := if x.inPhase pos then x.run + 1 else 1, lastPulse := some pos }

/-- R1: the frame in progress has passed `pos` lines: their line events are raised, each once (those past the family's last line raise
none), and the line counter stands behind them. -/
def Plant.passLines (p : Plant) (r : RefId) (pos : Nat) : Plant :=
  (p.raiseLines r (min pos (p.ref r).family.lines)).modRef r fun x => { x with line := max x.line (pos + 1) }

/-- R6: the frame ends at a pulse, and the reference becomes LOCKED. A REFERENCE STATE notice of that frame start's own label
examination goes first and carries the lock state from before the change (DESIGN CHOICE, log entry 64). -/
def Plant.relock (p : Plant) (r : RefId) (pos : Nat) : Plant :=
  ((p.endFrame r 1 pos).modRef r Reference.lockOn).tellReference r

/-- R6: the re-phase at the restoring pulse. -/
def Plant.rephase (p : Plant) (r : RefId) (pos : Nat) : Plant :=
  let n := (p.ref r).family.lines
  if n - pos ≤ pos then p.relock r pos
  else (p.passLines r pos).modRef r fun x => { x.pulseLost pos with lock := .rephasing, predicted := pos + n }

/-- R3 to R7: a frame pulse at a position in whole lines from the origin of the frame in progress. Where the frame goes on, the lines
before the pulse have raised their line events by then (R1). A position that the frame has already passed, or that lies beyond the
frame's end, names no instant of this frame: nothing happens. -/
def Plant.pulseAt (p : Plant) (r : RefId) (pos : Nat) : Plant :=
  let x := p.ref r
  let n := x.family.lines
  if pos + 1 < x.line then p
  else match x.lock with
    | .locked =>
      if n + 8 < pos then p
      else if near pos n then (p.endFrame r 1 pos).modRef r fun x => { x with miss := 0 }
      else (p.passLines r pos).missPulse r
    | .lost =>
      if n < pos then p
      else if (x.pulseLost pos).run = 8 then p.rephase r pos
      else (p.passLines r pos).modRef r fun x => x.pulseLost pos
    | .rephasing =>
      if x.predicted + 8 < pos then p
      else if near pos x.predicted then p.relock r pos
      else (p.passLines r pos).modRef r fun x => { x with run := 1, lastPulse := some (pos : Int) }

/-- R4: the pulse window closes without a pulse; the new frame's lines are counted from the predicted point. -/
def Plant.windowClose (p : Plant) (r : RefId) : Plant :=
  let n := (p.ref r).family.lines
  if (p.ref r).lock = .locked then ((p.endFrame r 9 n).raiseLines r 8).missPulse r else p

/-- R6, R7: the re-phase window closes without a pulse; a run begun by a stray pulse is kept. A REFERENCE STATE notice of that
frame start's own label examination carries the lock state REPHASING (DESIGN CHOICE, log entry 64). -/
def Plant.rephaseClose (p : Plant) (r : RefId) : Plant :=
  let x := p.ref r
  if x.lock = .rephasing then
    (p.endFrame r 1 (x.predicted + 8)).modRef r fun x => { x with lock := .lost, run := if x.run = 8 then 0 else x.run }
  else p

/-- R5: the crystal end of a frame while LOST, the family's lines after the frame's origin. For a frame begun at a window close with its
line counter at 9, and LOST from there, that is the predicted point (DESIGN CHOICE, log entry 74). -/
def Plant.crystalEnd (p : Plant) (r : RefId) : Plant :=
  if (p.ref r).lock = .lost then p.endFrame r 1 (p.ref r).family.lines else p

/-- R5: one frame period and 8 lines have passed without another pulse. -/
def Plant.runLapse (p : Plant) (r : RefId) : Plant :=
  if (p.ref r).lock = .lost then p.modRef r fun x => { x with run := 0, lastPulse := none } else p

end Sys2Proof.Machine
end

