-- ==== Sys2Proof/Machine/Delivery.lean ====
section
/-! DEFINITION. What the blocks hand out reaches the Control Line Interface (chapter 9), the As-Run Log (R167) and the back
channel (R69); and how a request is taken, carried out and answered (R180 to R184). -/

namespace Sys2Proof.Machine

/-! ## The transmit side (R188) -/

/-- A frame begins on the idle line. -/
def ControlLine.begin (k : ControlLine) (item : TxItem) : ControlLine := { k with tx := some ⟨item, item.frame⟩ }

/-- R188: the next frame is chosen: the oldest BUSY reply, else the oldest reply, else the head notice. -/
def ControlLine.choose (k : ControlLine) : ControlLine :=
  match k.busy, k.replies, k.notices with
  | r :: rest, _, _ => { k with busy := rest }.begin (.reply r)
  | [], r :: rest, _ => { k with replies := rest }.begin (.reply r)
  | [], [], n :: rest => { k with notices := rest }.begin (.notice n)
  | [], [], [] => k

/-- An idle line takes the next frame, if there is one. -/
def ControlLine.kick (k : ControlLine) : ControlLine :=
  match k.tx with
  | some _ => k
  | none => k.choose

/-! ## The notice queue (R185, R186) -/

/-- R185: behind every notice of its own class and of classes of higher priority. -/
def insertNotice (n : Notice) (l : List Notice) : List Notice := insertBy (fun a b => decide (a.kind.cls < b.kind.cls)) n l

/-- R186: a notice is lost. -/
def ControlLine.lose (k : ControlLine) (n : Notice) : ControlLine :=
  match n.channel with
  | some c => { k with missed := k.missed.set c.val true }
  | none => { k with missedPart := true }

/-- R185, R186: a notice joins the queue of 32 places. -/
def ControlLine.enqueue (k : ControlLine) (n : Notice) : ControlLine :=
  if k.notices.length < 32 then { k with notices := insertNotice n k.notices }
  else match k.notices.getLast? with
    | none => { k with notices := insertNotice n k.notices }
    | some last =>
      if last.kind.cls ≤ n.kind.cls then k.lose n
      else { k.lose last with notices := insertNotice n k.notices.dropLast }

/-! ## The As-Run Log (R167) -/

/-- R167: an entry takes the running index; the oldest of 512 is dropped. -/
def AsRunLog.append (g : AsRunLog) (item : AsRunItem) : AsRunLog :=
  { ring := (g.ring ++ [({ index := g.index, item := item } : AsRunEntry)]).drop (g.ring.length + 1 - 512), index := (g.index + 1) % 4294967296 }

/-! ## The back channel (R69) -/

/-- The channel of a back-channel record. -/
def BackRec.channel : BackRec → Chan
  | .askFill c _ => c
  | .askReload c => c
  | .resumeAt c _ _ _ => c

/-- The two records are of one kind and one channel. -/
def BackRec.sameKind : BackRec → BackRec → Bool
  | .askFill c _, .askFill d _ => c == d
  | .askReload c, .askReload d => c == d
  | .resumeAt c _ _ _, .resumeAt d _ _ _ => c == d
  | _, _ => false

/-- A waiting record of the same kind and channel is replaced in its place; otherwise the record takes the tail. -/
def putRecord (r : BackRec) (l : List BackRec) : List BackRec :=
  if l.any r.sameKind then l.map fun k => if r.sameKind k then r else k else l ++ [r]

/-- A link that is sending nothing sends the head of its queue. -/
def BackLink.kick (b : BackLink) : BackLink :=
  match b.sending, b.queue with
  | none, r :: rest => { queue := rest, sending := some (r, r.frame) }
  | _, _ => b

def BackLink.put (b : BackLink) (r : BackRec) : BackLink := { b with queue := putRecord r b.queue }.kick

/-- R69, R139: a channel back in IDLE has no waiting records. -/
def BackLink.removeChannel (b : BackLink) (c : Chan) : BackLink :=
  { b with queue := b.queue.filter fun r => r.channel != c }

/-- R69: the frame being sent has left the line. -/
def BackLink.sent (b : BackLink) : BackLink := { b with sending := none }.kick

/-! ## Replies (R184, R188) -/

def ControlLine.addReply (k : ControlLine) (r : Reply) : ControlLine := { k with replies := k.replies ++ [r] }

/-- R112, R184: the reply of a pending PASS THROUGH; its kind is 0x88. -/
def ControlLine.passReply (k : ControlLine) (i : PortNo) (o : DevOutcome) : ControlLine :=
  match k.passTable[i.val] with
  | some tag => k.addReply { tag := tag, kind := 0x88, status := .ok, content := o.bytes, origin := .pass i }
  | none => k

/-! ## Handing out -/

/-- One item reaches its block. `first` says that a notice made on an idle line begins at once. -/
def State.deliver (first : Bool) (s : State) : Outgoing → State
  | .notice n =>
    { s with ctl := if first && s.ctl.tx.isNone then s.ctl.begin (.notice n) else s.ctl.enqueue n }
  | .passOutcome i o => { s with ctl := s.ctl.passReply i o }
  | .clearMissed c => { s with ctl := { s.ctl with missed := s.ctl.missed.set c.val false } }
  | .clearMissedPart => { s with ctl := { s.ctl with missedPart := false } }
  | .asRun item => { s with log := s.log.append item }
  | .back r => { s with back0 := s.back0.put r, back1 := s.back1.put r }
  | .dropBack c => { s with back0 := s.back0.removeChannel c, back1 := s.back1.removeChannel c }

def Outgoing.isNotice : Outgoing → Bool
  | .notice _ => true
  | _ => false

def Outgoing.isReply : Outgoing → Bool
  | .passOutcome _ _ => true
  | _ => false

/-- R188: at the end of a step, what the blocks have handed out is placed, the step's own reply, if any, joins the reply
list, and an idle line begins to send. A reply and a notice made at once on an idle line are taken in a free order (log
entry 6); with no reply, the first notice made begins. -/
def State.settle (s : State) (reply : Option Reply) : State :=
  let out := s.plant.outbox
  let idle := s.ctl.tx.isNone && out.any Outgoing.isNotice
  let both := idle && (reply.isSome || out.any Outgoing.isReply)
  let first := idle && (!both || !Config.replyFirst s.ctl.free)
  let s1 := out.foldl (State.deliver first) { s with plant := { s.plant with outbox := [] } }
  let k : ControlLine := match reply with
    | some r => s1.ctl.addReply r
    | none => s1.ctl
  { s1 with ctl := ControlLine.kick { k with free := k.free + (if both then 1 else 0) } }

/-- An event that is no request: the plant's part, and what it hands out. -/
def State.event (s : State) (f : Plant → Plant) : State := { s with plant := f s.plant }.settle none

/-! ## Requests (R180 to R184) -/

/-- The answer of a request's owning block: its status, the contents that follow, and the port whose outcome an accepted
PASS THROUGH waits for. -/
structure Answer where
  status : Status
  content : List Byte
  passPort : Option PortNo
  deriving DecidableEq, Repr

/-- A refusal carries the status alone (R183). -/
def refuse (s : Status) : Answer := { status := s, content := [], passPort := none }

def reply (s : Status) (content : List Byte) : Answer := { status := s, content := content, passPort := none }

/-- R180: a reply's kind is the request's with the top bit set. -/
def replyKind (kind : Nat) : Nat := if kind < 128 then kind + 128 else kind

/-- R181: the request queue holds 4 requests. -/
def ControlLine.full (k : ControlLine) : Bool := decide (4 ≤ k.requests.length + k.waiting.length)

/-- R182: a request that joins the queue now is not carried out at once: one before it has not been, or the interface is
occupied (log entry 10). -/
def ControlLine.mustWait (k : ControlLine) : Bool := k.occupied || !k.waiting.isEmpty

/-- R181: the queue is full: a BUSY reply while the store holds fewer than 4, and otherwise no reply. -/
def ControlLine.answerBusy (k : ControlLine) (tag kind : Nat) : ControlLine :=
  if k.busy.length < 4 then
    let r : Reply := { tag := tag, kind := replyKind kind, status := .busy, content := [], origin := .nothing }
    ControlLine.kick { k with busy := k.busy ++ [r] }
  else k

/-- R180: the body's form decides before every check of the owning rule. -/
def judged {α : Type} (body : Form α) (h : α → State → Plant × Answer) (s : State) : Plant × Answer :=
  match body with
  | .faulty => (s.plant, refuse .badArgument)
  | .sound a => h a s

/-- R182, R184: a request carried out: its reply joins the reply list and it keeps its place in the queue, or, for an
accepted PASS THROUGH, it is entered in the pass-through table. -/
def State.conclude (s : State) (tag kind : Nat) (r : Plant × Answer) : State :=
  match r.2.passPort with
  | some i =>
    { s with plant := r.1, ctl := { s.ctl with passTable := s.ctl.passTable.set i.val (some tag) } }.settle none
  | none =>
    { s with plant := r.1, ctl := { s.ctl with requests := s.ctl.requests ++ [({ tag := tag, kind := kind } : QueuedRequest)] } }.settle
      (some { tag := tag, kind := replyKind kind, status := r.2.status, content := r.2.content, origin := .queued })

/-- R180, R181: a request that is not carried out at its arrival: one of tag 0 is discarded, one that finds the queue full
is answered BUSY, and any other joins the tail of the queue. -/
def ControlLine.arrive (k : ControlLine) (c : Instr) : ControlLine :=
  match c.request with
  | none => k
  | some (tag, kind) =>
    if tag = 0 then k
    else if k.full then k.answerBusy tag kind
    else { k with waiting := k.waiting ++ [c] }

/-- The request of a good frame is carried out at its arrival: it is one, the queue has a place for it, and it is the oldest
not yet carried out (R180 to R182; log entry 10). -/
def ControlLine.takesNow (k : ControlLine) (tag : Nat) : Bool := decide (tag ≠ 0) && !k.full && !k.mustWait

/-- R180 to R182: the command `c`, a request of a good frame. -/
def State.request {α : Type} (s : State) (c : Instr) (tag kind : Nat) (body : Form α) (h : α → State → Plant × Answer) :
    State :=
  let k := { s.ctl with rx := [] }
  if k.takesNow tag then { s with ctl := k }.conclude tag kind (judged body h { s with ctl := k })
  else { s with ctl := k.arrive c }

/-- A handler that needs no more than the plant. -/
def onPlant {α : Type} (h : α → Plant → Plant × Answer) : α → State → Plant × Answer := fun a s => h a s.plant

/-- A refused request changes nothing. -/
def Plant.refuse (p : Plant) (s : Status) : Plant × Answer := (p, Machine.refuse s)

/-- What a command's meaning answers. -/
abbrev Meaning := Host.Outcome State Fault Refusal

/-! ## The turn of a waiting request (R182) -/

/-- R182: the interface's own time, which passes while no command comes: the oldest request not yet carried out is carried
out by `run`, against the state as it stands now; where none waits, the interface may become occupied (log entry 10). -/
def State.idle (run : Instr → State → Meaning) (s : State) : Meaning :=
  match s.ctl.waiting with
  | [] =>
    .next { s with ctl := { s.ctl with occupied := Config.occupied s.ctl.free, free := s.ctl.free + 1 } }
  | c :: rest =>
    match run c { s with ctl := { s.ctl with waiting := [], occupied := false } } with
    | .next t =>
      if c.resets then .next t
      else .next { t with ctl := { t.ctl with waiting := rest, rx := s.ctl.rx } }
    | o => o

/-- R188, R182, R184: the frame being sent has left the line to its last byte. -/
def ControlLine.frameSent (k : ControlLine) : ControlLine :=
  match k.tx with
  | none => k
  | some t =>
    let k := { k with tx := none }
    let k := match t.item with
      | .reply r =>
        (match r.origin with
         | .queued => { k with requests := k.requests.drop 1 }
         | .pass i => { k with passTable := k.passTable.set i.val none }
         | .nothing => k)
      | .notice _ => k
    k.kick

end Sys2Proof.Machine
end

