-- ==== Sys2Proof/Machine/ChannelCommands.lean ====
section
/-! DEFINITION. Meanings of the Changeover Unit's requests of chapter 7: SET CHANNEL (R136 to R138), CLEAR CHANNEL (R139), TAKE
(R146), CONFIRM and VETO (R145), ABORT TAKE (R157) and READ CHANNEL (R158). -/

namespace Sys2Proof.Machine

/-! ## SET CHANNEL -/

/-- Section 4.5: the watch parameters within their ranges and constraints (R86). -/
def watchSound (w : WatchParams) : Bool :=
  [w.weights.noSignal, w.weights.black, w.weights.frozen, w.weights.silent, w.weights.tcLoss, w.weights.tcJump,
    w.weights.noProbe, w.weights.siteSilent].all (fun n => decide (n ≤ 15)) &&
  decide (w.sensitivity ≤ 3) && decide (1 ≤ w.recovery) && decide (w.recovery ≤ 15) &&
  decide (1 ≤ w.degradeAt) && decide (w.degradeAt ≤ w.failAt) && decide (1 ≤ w.failAt) && decide (w.failAt ≤ 255) &&
  decide (w.recoverAt < w.failAt) && decide (1 ≤ w.warmUp) && decide (w.warmUp ≤ 255) && decide (w.agreeTol ≤ 250)

/-- Section 7.1: the numbers of a configuration record within their values; `lines` is the lines per frame in force on the
named reference. -/
def numbersSound (lines : Nat) (g : RawConfig) : Bool :=
  decide (g.spares < 2 ^ 20) && decide (1 ≤ g.confirmWindow) && decide (g.confirmWindow ≤ 600) &&
  decide (1 ≤ g.cueLead) && decide (g.cueLead ≤ 250) && decide (g.tailGuard ≤ 1500) &&
  decide (25 ≤ g.returnLead) && decide (g.returnLead ≤ 1500) && decide (g.verifyTol ≤ 10) &&
  decide (1 ≤ g.switchLine) && decide (g.switchLine ≤ lines) && decide (g.baseDay < 65536) && watchSound g.watch &&
  (match g.heartbeat with | some h => decide (50 ≤ h) && decide (h ≤ 5000) | none => true)

/-- R136: a configuration record whose fields are within their values. -/
def Plant.configOf (p : Plant) (g : RawConfig) : Option ChannelConfig :=
  match RefId.ofCode g.reference, portOf g.primary, Standby.ofCode g.standby, Policy.ofCode g.policy, Bridge.ofCode g.bridge with
  | some r, some i, some s, some y, some b =>
    if numbersSound (p.ref r).family.lines g then
      some { reference := r, primary := i, spares := g.spares, standby := s, policy := y, confirmWindow := g.confirmWindow,
             bridge := b, cueLead := g.cueLead, tailGuard := g.tailGuard, returnLead := g.returnLead,
             verifyTol := g.verifyTol, switchLine := g.switchLine, baseDay := g.baseDay, watch := g.watch,
             heartbeat := g.heartbeat }
    else none
  | _, _, _, _, _ => none

/-- R136: the mode goes on to the next check: IDLE, or SHADOW with the reference and the base day that the channel already
has, which is the base day in force after any day roll (R17, R18; log entry 12). -/
def Plant.modeAllows (p : Plant) (c : Chan) (g : ChannelConfig) : Bool :=
  match (p.chan c).mode, p.config c with
  | .idle, _ => true
  | .shadow, some old => old.reference == g.reference && (p.chan c).baseDay == g.baseDay
  | _, _ => false

/-- R136: the port is the primary port of another channel that is not IDLE. -/
def Plant.primaryElsewhere (p : Plant) (c : Chan) (i : PortNo) : Bool :=
  allChans.any fun d => d != c && p.primary d == some i && (p.chan d).mode != .idle

/-- R137: a channel leaves IDLE; every block starts its state for it. -/
def Plant.startChannel (p : Plant) (c : Chan) (g : ChannelConfig) : Plant :=
  let k := p.ref g.reference
  let q := p.setChan c { Channel.reset with
    now := k.family.fpd + k.station, baseDay := g.baseDay, config := some g, mode := .shadow,
    portInUse := some g.primary, lineInForce := g.switchLine }
  (q.awaitBase c).tellReplica c .awaitBase .configured none

/-- R138: a channel in SHADOW takes a new configuration; a new primary port becomes the port in use at once. -/
def Plant.reconfigure (p : Plant) (c : Chan) (g : ChannelConfig) : Plant :=
  let old := p.primary c
  let q := p.modChan c fun x => { x with config := some g }
  if old = some g.primary then q
  else
    let q := q.usePort c (some g.primary)
    let q := match old with
      | some i => q.disown c i
      | none => q
    q.settlePort g.primary

/-- R136: the heartbeat timeout, as from SET LINKS (R48). -/
def Plant.takeHeartbeat (p : Plant) : Option Nat → Plant
  | some h => { p with hbTimeout := h }
  | none => p

/-- R136: an accepted SET CHANNEL. -/
def Plant.acceptChannel (p : Plant) (c : Chan) (g : ChannelConfig) : Plant :=
  (if (p.chan c).mode = .idle then p.startChannel c g else p.reconfigure c g).takeHeartbeat g.heartbeat

/-- R136: what the reply carries. -/
def Plant.channelBytes (p : Plant) (c : Chan) : List Byte :=
  let x := p.chan c
  u8 x.mode.code ++ u8 x.replica.state.code ++ u8 x.watch.health.code

/-- R136: the checks in their order. -/
def setChannel (a : SetChannelArgs) (p : Plant) : Plant × Answer :=
  match chanOf a.channel with
  | none => p.refuse .noSuchChannel
  | some c =>
    match p.configOf a.config with
    | none => p.refuse .badArgument
    | some g =>
      if !p.modeAllows c g then p.refuse .wrongMode
      else if !(p.ref g.reference).configured then p.refuse .wrongMode
      else if (p.port g.primary).role ≠ .primary ∨ p.primaryElsewhere c g.primary then p.refuse .portTaken
      else
        let q := p.acceptChannel c g
        (q, reply .ok (q.channelBytes c))

def execSetChannel (tag : Nat) (body : Form SetChannelArgs) (s : State) : Meaning :=
  .next (s.request (.setChannel tag body) tag 0x0C body (onPlant setChannel))

/-! ## CLEAR CHANNEL -/

/-- R139. In IDLE there is nothing to put back. -/
def clearChannel (n : Nat) (p : Plant) : Plant × Answer :=
  match chanOf n with
  | none => p.refuse .noSuchChannel
  | some c =>
    match (p.chan c).mode with
    | .idle => (p.emit (.clearMissed c), reply .ok [])
    | .shadow => (p.clearChannel c, reply .ok [])
    | _ => p.refuse .wrongMode

def execClearChannel (tag : Nat) (body : Form Nat) (s : State) : Meaning :=
  .next (s.request (.clearChannel tag body) tag 0x0D body (onPlant clearChannel))

/-! ## TAKE, CONFIRM and VETO -/

/-- R146: what the reply carries: the take's start frame. -/
def Plant.startBytes (p : Plant) (c : Chan) : List Byte := p.ctfBytes c (p.chan c).now

/-- R146. -/
def take (a : TakeArgs) (p : Plant) : Plant × Answer :=
  match chanOf a.channel with
  | none => p.refuse .noSuchChannel
  | some c =>
    match TakeOption.ofCode a.option with
    | none => p.refuse .badArgument
    | some o =>
      match (p.chan c).mode with
      | .idle => p.refuse .notConfigured
      | .shadow | .confirming => (p.beginTake c .manual o, reply .ok (p.startBytes c))
      | .taking | .onLocal | .returning | .orphaned => p.refuse .wrongMode

def execTake (tag : Nat) (body : Form TakeArgs) (s : State) : Meaning := .next (s.request (.take tag body) tag 0x0E body (onPlant take))

/-- R145. -/
def confirm (n : Nat) (p : Plant) : Plant × Answer :=
  match chanOf n with
  | none => p.refuse .noSuchChannel
  | some c =>
    if (p.chan c).mode = .confirming then (p.beginTake c .confirmed .join, reply .ok []) else p.refuse .wrongMode

def execConfirm (tag : Nat) (body : Form Nat) (s : State) : Meaning := .next (s.request (.confirm tag body) tag 0x0F body (onPlant confirm))

/-- R145. -/
def veto (n : Nat) (p : Plant) : Plant × Answer :=
  match chanOf n with
  | none => p.refuse .noSuchChannel
  | some c => if (p.chan c).mode = .confirming then (p.leaveConfirm c .vetoed, reply .ok []) else p.refuse .wrongMode

def execVeto (tag : Nat) (body : Form Nat) (s : State) : Meaning := .next (s.request (.veto tag body) tag 0x10 body (onPlant veto))

/-! ## ABORT TAKE -/

/-- R157: the list of one STOP, where the port in use is the primary port. On a port that is not UP it ends at once with
TIMEOUT (R107), which is written as the last outcome. -/
def Plant.abortStop (p : Plant) (c : Chan) (i : PortNo) : Plant :=
  if p.primary c = some i then p.handStop c i none else p

/-- R157: the switch's way back to MAIN, and the channel's to SHADOW. -/
def Plant.abortSwitch (p : Plant) (c : Chan) : Plant :=
  if (p.chan c).switch = .main then p.setMode c .shadow
  else p.decideSwitch c .main (p.nextLineFrame c) .abort .abort

/-- R157: an accepted ABORT TAKE. The Cue Sequencer goes on with the primary port (R123). -/
def Plant.abort (p : Plant) (c : Chan) : Plant :=
  let used := (p.chan c).portInUse
  let q := p.modChan c fun x => { x with pendingSw := [] }
  let q := match used with
    | some i => (q.modPort i fun x => x.withdrawLists c false).abortStop c i
    | none => q
  let q := (((q.backToPrimary c).leaveQueue c).releaseSpare c).wakeCue c
  (q.modTake c fun k => { k with stage := .aborting }).abortSwitch c

/-- R157. -/
def abortTake (n : Nat) (p : Plant) : Plant × Answer :=
  match chanOf n with
  | none => p.refuse .noSuchChannel
  | some c =>
    if (p.chan c).mode ≠ .taking then p.refuse .wrongMode
    else if p.stageOf c = some .aborting then (p, reply .ok [])
    else (p.abort c, reply .ok [])

def execAbortTake (tag : Nat) (body : Form Nat) (s : State) : Meaning :=
  .next (s.request (.abortTake tag body) tag 0x11 body (onPlant abortTake))

/-! ## READ CHANNEL -/

/-- The watch parameters in the order of section 4.5. -/
def watchParamBytes (w : WatchParams) : List Byte :=
  u8 w.weights.noSignal ++ u8 w.weights.black ++ u8 w.weights.frozen ++ u8 w.weights.silent ++ u8 w.weights.tcLoss ++
    u8 w.weights.tcJump ++ u8 w.weights.noProbe ++ u8 w.weights.siteSilent ++ u8 w.sensitivity ++ u8 w.recovery ++
    u8 w.degradeAt ++ u8 w.failAt ++ u8 w.recoverAt ++ u32 w.warmUp ++ u32 w.agreeTol

/-- The configuration record in the order of section 7.1. -/
def ChannelConfig.bytes (g : ChannelConfig) : List Byte :=
  u8 g.reference.code ++ u8 g.primary.val ++ u24raw g.spares ++ u8 g.standby.code ++ u8 g.policy.code ++
    u32 g.confirmWindow ++ u8 g.bridge.code ++ u32 g.cueLead ++ u32 g.tailGuard ++ u32 g.returnLead ++ u32 g.verifyTol ++
    u16 g.switchLine ++ u16 g.baseDay ++ watchParamBytes g.watch ++ opt u16 g.heartbeat

/-- R158: the pending switch: the earliest change decided, or the return switch of a pending return (R170). -/
def Channel.nextSwitch (x : Channel) : Option (SwitchPos × Nat) :=
  match x.pendingSw, x.returnRec with
  | w :: _, _ => some (w.pos, w.frame)
  | [], some r => if r.state = .pending then some (.main, r.tRet) else none
  | [], none => none

def Plant.confirmBytes (p : Plant) (c : Chan) (r : ConfirmRec) : List Byte := p.ctfBytes c r.deadline ++ flag r.demoted

/-- The join of the take record; its offset is sent as a frame count of 4 bytes (DESIGN CHOICE, log entry 45). -/
def Plant.joinBytes (p : Plant) (c : Chan) (j : JoinRec) : List Byte :=
  p.ctfBytes c j.now0 ++ p.ctfBytes c j.t ++ u32 j.event ++ u32 j.offset ++ u24 j.cue ++ opt (p.ctfBytes c) j.roll

/-- The take record in the order of section 7.4. -/
def Plant.takeBytes (p : Plant) (c : Chan) (k : TakeRec) : List Byte :=
  u8 k.kind.code ++ u8 k.option.code ++ p.ctfBytes c k.start ++ u8 k.stage.code ++ portOrNone k.port ++
    opt (p.joinBytes c) k.join ++ opt u8 (k.bridgeReason.map BridgeReason.code) ++
    opt u8 (k.verify.map VerifyResult.code) ++ opt u8 (k.result.map TakeResult.code) ++
    opt u8 (k.failure.map FailReason.code)

/-- The return record in the order of section 8.3. -/
def Plant.returnBytes (p : Plant) (c : Chan) (r : ReturnRec) : List Byte :=
  u8 r.state.code ++ p.ctfBytes c r.tRet ++ u32 r.event ++ dayLabelBytes r.sent ++ opt (p.ctfBytes c) r.notBefore ++
    flag r.force ++ flag r.against ++ opt u8 (r.cancel.map CancelReason.code)

def Adoption.bytes (a : Adoption) : List Byte := u32 a.event ++ u8 a.port.val

def AfterState.code : AfterState → Nat
  | .shadow => 0
  | .idle => 1

def ReleaseTarget.bytes : ReleaseTarget → List Byte
  | .main a => u8 0 ++ opt u8 (some a.code)
  | .filler => u8 1 ++ opt u8 none

/-- The channel's place in the spare queue, 1 for the oldest. -/
def Plant.queuePlace (p : Plant) (c : Chan) : Option Nat := (p.spareQueue.idxOf? c).map (· + 1)

/-- R158, the first five lines of the list: mode and switch, configuration, now, ports, sequencing. -/
def Plant.readHead (p : Plant) (c : Chan) : List Byte :=
  let x := p.chan c
  u8 x.mode.code ++ u8 x.switch.code ++ opt (fun w : SwitchPos × Nat => u8 w.1.code ++ p.ctfBytes c w.2) x.nextSwitch ++
    opt ChannelConfig.bytes x.config ++ p.ctfBytes c x.now ++ u16 x.baseDay ++ portOrNone x.portInUse ++
    portOrNone (p.heldSpare c) ++ opt u8 (p.queuePlace c) ++ flag x.seq.halted ++ opt LastOutcome.bytes x.seq.last

/-- R158, the other lines: watch, replica, records. -/
def Plant.readTail (p : Plant) (c : Chan) : List Byte :=
  let x := p.chan c
  u8 x.watch.health.code ++ u8 x.watch.score ++ flag x.watch.diverged ++ u8 x.replica.state.code ++ p.replicaBytes c ++
    opt (p.confirmBytes c) x.confirm ++ opt (p.takeBytes c) x.takeRec ++ opt (p.returnBytes c) x.returnRec ++
    opt Adoption.bytes x.adoption ++ opt ReleaseTarget.bytes x.release

/-- R158, R187: the reply carries the channel's missed-notice flag and the part-wide flag, and both are cleared after it. -/
def readChannel (n : Nat) (s : State) : Plant × Answer :=
  match chanOf n with
  | none => s.plant.refuse .noSuchChannel
  | some c =>
    ((s.plant.emit (.clearMissed c)).emit .clearMissedPart,
     reply .ok (s.plant.readHead c ++ s.plant.readTail c ++ flag s.ctl.missed[c.val] ++ flag s.ctl.missedPart))

def execReadChannel (tag : Nat) (body : Form Nat) (s : State) : Meaning := .next (s.request (.readChannel tag body) tag 0x12 body readChannel)

end Sys2Proof.Machine
end

