-- ==== Sys2Proof/Machine/CueCommands.lean ====
section
/-! DEFINITION. Meanings of the Cue Sequencer's requests: SET TEMPLATE (R115, R116), HALT (R133) and RESUME (R134, R198). -/

namespace Sys2Proof.Machine

/-! ## SET TEMPLATE -/

/-- R115: a SEND step's command with the argument that suits it. -/
def sendBody (command argument : Nat) (const : Option (List Byte)) : Option StepBody :=
  match command, argument, const with
  | 0, 1, none => some .sendSelect
  | 1, 2, none => some .sendPoint
  | 2, 0, none => some .sendRoll
  | 3, 0, none => some .sendStop
  | 4, 3, some k => if k.length ≤ 8 then some (.sendAux k) else none
  | 5, 0, none => some .sendAsk
  | _, _, _ => none

/-- R115: the yes or no of clip match, 0 for no and 1 for yes (DESIGN CHOICE, log entry 61). -/
def yesNo : Nat → Option Bool
  | 0 => some false
  | 1 => some true
  | _ => none

/-- R115: what a step sends or checks, with the fields of its kind and no others. -/
def stepBody (a : RawStep) : Option StepBody :=
  match a.kind, a.command, a.argument, a.expected, a.clipMatch, a.onMismatch with
  | 0, some c, some g, none, none, none => sendBody c g a.constant
  | 1, none, none, some m, some k, some x =>
    (match DevMode.ofCode m, yesNo k, Mismatch.ofCode x, a.constant with
     | some m, some k, some x, none => some (.verify m k x)
     | _, _, _, _ => none)
  | _, _, _, _, _, _ => none

/-- R115: a step's fields within their values. -/
def stepOf (a : RawStep) : Option Step :=
  match stepBody a, Anchor.ofCode a.anchor, Cond.ofCode a.condition with
  | some b, some n, some k =>
    if -3000 ≤ a.offset ∧ a.offset ≤ 3000 ∧ a.repeats ≤ 15 ∧ 1 ≤ a.spacing ∧ a.spacing ≤ 255 then
      some { body := b, anchor := n, offset := a.offset, cond := k, repeats := a.repeats, spacing := a.spacing }
    else none
  | _, _, _ => none

/-- R116: an event PENDING that names the template. -/
def Event.waitsFor (t : Nat) (e : Event) : Bool :=
  e.cue == .pending && (match e.clip with | some k => k.template == t | none => false)

/-- R116: such events lose their queued entries and their step progress. -/
def Channel.retemplate (t : Nat) (x : Channel) : Channel :=
  let ids := (x.playlist.filter (Event.waitsFor t)).map (·.id)
  { x with
    playlist := x.playlist.map fun e => if e.waitsFor t then { e with progress := [] } else e
    seq := { x.seq with queue := x.seq.queue.filter fun s => !(s.standing == .live && ids.contains s.event) } }

/-- R115, R116: the steps are checked and the template is loaded. Where that uncovers due heads on several channels (log entry 73), their
Cue Sequencers take them in increasing order of the channels (DESIGN CHOICE, log entry 91). -/
def setTemplate (a : SetTemplateArgs) (p : Plant) : Plant × Answer :=
  if h : a.template < 32 then
    match a.steps.mapM stepOf with
    | some steps =>
      if 1 ≤ steps.length ∧ steps.length ≤ 8 then
        let q : Plant := { p with
          templates := p.templates.set a.template steps, chans := p.chans.map (Channel.retemplate a.template) }
        (allChans.foldl (fun r c => p.wakeAfter r c) q,
         reply .ok (u8 a.template ++ u8 steps.length))
      else p.refuse .badArgument
    | none => p.refuse .badArgument
  else p.refuse .badArgument

def execSetTemplate (tag : Nat) (body : Form SetTemplateArgs) (s : State) : Meaning :=
  .next (s.request (.setTemplate tag body) tag 0x09 body (onPlant setTemplate))

/-! ## HALT and RESUME -/

def halt (n : Nat) (p : Plant) : Plant × Answer :=
  match chanOf n with
  | none => p.refuse .noSuchChannel
  | some c =>
    if (p.chan c).mode = .idle then p.refuse .notConfigured else (p.haltSequence c .host, reply .ok [])

def execHalt (tag : Nat) (body : Form Nat) (s : State) : Meaning := .next (s.request (.halt tag body) tag 0x0A body (onPlant halt))

/-- R134, R198: the join that a RESUME starts in local running; a join in progress is no longer live. -/
def Plant.resumeJoin (p : Plant) (c : Chan) : Plant :=
  match (p.chan c).portInUse with
  | some i =>
    if (p.chan c).mode.running then
      (((p.modPort i fun x => x.withdrawLists c false).cancelJoinSwitch c).localJoin c i).settlePort i
    else p
  | none => p

def resume (n : Nat) (p : Plant) : Plant × Answer :=
  match chanOf n with
  | none => p.refuse .noSuchChannel
  | some c =>
    if (p.chan c).mode = .idle then p.refuse .notConfigured
    else if !(p.chan c).seq.halted then p.refuse .wrongMode
    else ((p.clearHalt c).resumeJoin c, reply .ok [])

def execResume (tag : Nat) (body : Form Nat) (s : State) : Meaning := .next (s.request (.resume tag body) tag 0x0B body (onPlant resume))

end Sys2Proof.Machine
end

