-- ==== Sys2Proof/Machine/DeviceCommands.lean ====
section
/-! DEFINITION. Meanings of the Device Line Controller's commands: SET PORT, PASS THROUGH, and the events on a device line
(chapter 5). -/

namespace Sys2Proof.Machine

/-! ## SET PORT (R93, R94) -/

/-- R93: a port's settings in range. -/
structure PortSettings where
  port : PortNo
  role : Role
  divisor : Nat
  parity : Parity
  replyTimeout : Nat
  retries : Nat
  preroll : Nat
  deriving DecidableEq, Repr

def portSettings (a : SetPortArgs) : Option PortSettings :=
  match portOf a.port, Role.ofCode a.role, Parity.ofCode a.parity with
  | some i, some r, some y =>
    if 1 ≤ a.divisor ∧ a.divisor ≤ 65535 ∧ 1 ≤ a.replyTimeout ∧ a.replyTimeout ≤ 1000 ∧ a.retries ≤ 3 ∧ a.preroll ≤ 300 then
      some { port := i, role := r, divisor := a.divisor, parity := y, replyTimeout := a.replyTimeout, retries := a.retries,
             preroll := a.preroll }
    else none
  | _, _, _ => none

/-- R93: the port is the primary port of a channel that is not IDLE. -/
def Plant.isPrimary (p : Plant) (i : PortNo) : Bool :=
  allChans.any fun c => p.primary c == some i && (p.chan c).mode != .idle

/-- R93: the roles the port may take. -/
def Plant.roleTaken (p : Plant) (v : PortSettings) : Bool :=
  (p.isPrimary v.port && v.role != .primary) || ((p.port v.port).holder.isSome && v.role != .spare)

/-- R94: the settings other than the role; a new divisor or parity discards a frame being gathered. -/
def Port.settings (v : PortSettings) (x : Port) : Port :=
  { x with divisor := v.divisor, parity := v.parity, replyTimeout := v.replyTimeout, retries := v.retries,
           preroll := v.preroll, rx := if x.divisor = v.divisor ∧ x.parity = v.parity then x.rx else [] }

/-- R94: the role. -/
def Plant.setRole (p : Plant) (i : PortNo) (r : Role) : Plant :=
  let x := p.port i
  if x.role = r then p
  else match x.role, r with
    | .off, _ =>
      ((p.modPort i fun x => { x.clearStages with role := r, state := .up, timeouts := 0, rx := [] }).tellPort i .off
        .configured).nowUp i
    | _, .off => p.enterOff i
    | _, .spare => ((p.modPort i fun x => { x with role := .spare }).spareFreed i).settlePort i
    | _, .primary => p.modPort i fun x => { x with role := .primary }

/-- R93: what the reply carries. The holder is one byte, 0xFF where there is none (DESIGN CHOICE, log entry 46). -/
def Plant.portBytes (p : Plant) (i : PortNo) : List Byte :=
  let x := p.port i
  u8 x.role.code ++ u8 x.state.code ++ flag x.holdingEmpty ++ flag x.bothEmpty ++ u8 x.timeouts ++ chanOrNone x.holder ++
    x.flags.bytes

def setPort (a : SetPortArgs) (p : Plant) : Plant × Answer :=
  match portSettings a with
  | none => p.refuse .badArgument
  | some v =>
    if p.roleTaken v then p.refuse .portTaken
    else
      let q := (p.modPort v.port (Port.settings v)).setRole v.port v.role
      (q.modPort v.port fun x => { x with flags := .clear }, reply .ok (q.portBytes v.port))

def execSetPort (tag : Nat) (body : Form SetPortArgs) (s : State) : Meaning :=
  .next (s.request (.setPort tag body) tag 0x07 body (onPlant setPort))

/-! ## PASS THROUGH (R112) -/

/-- R112: the command asked for, where its kind is one of the six and its argument in the ranges of section 5.2. -/
def passCommand (kind : Nat) : PassArg → Option DevCmd
  | .clip b => if kind = 0 ∧ 1 ≤ b.length ∧ b.length ≤ 32 then some (.select b) else none
  | .frame f => if kind = 1 ∧ f < 16777216 then some (.point f) else none
  | .bytes b => if kind = 4 ∧ b.length ≤ 8 then some (.aux b) else none
  | .none => if kind = 2 then some .roll else if kind = 3 then some .stop else if kind = 5 then some .ask else none

/-- R112: an accepted command takes the slot, or on a DOWN port ends at once with TIMEOUT. -/
def Plant.placePass (p : Plant) (i : PortNo) (k : DevCmd) : Plant :=
  if (p.port i).state = .up then (p.modPort i fun x => { x with slotPass := some k }).settlePort i
  else p.emit (.passOutcome i .timeout)

def passThrough (a : PassThroughArgs) (s : State) : Plant × Answer :=
  match portOf a.port, passCommand a.kind a.arg with
  | some i, some k =>
    if (s.plant.port i).state = .off then s.plant.refuse .wrongMode
    else if s.ctl.passTable[i.val].isSome then s.plant.refuse .busy
    else (s.plant.placePass i k, { status := .ok, content := [], passPort := some i })
  | _, _ => s.plant.refuse .badArgument

def execPassThrough (tag : Nat) (body : Form PassThroughArgs) (s : State) : Meaning :=
  .next (s.request (.passThrough tag body) tag 0x08 body passThrough)

/-! ## The device line -/

/-- R98, R101, R103. -/
def execDeviceReply (i : PortNo) (r : DevReply) (s : State) : Meaning := .next (s.event fun p => p.goodReply i r)

/-- R96, R99: the flag is set and a frame being gathered is discarded; a discard of a frame begun with SYNC is a garbled
reply, and fails an attempt that awaits its reply. An OFF port receives nothing. -/
def Plant.deviceFault (p : Plant) (i : PortNo) (fault : LineFault) (begun : Bool) (left : List Byte) : Plant :=
  let x := p.port i
  if x.state = .off then p
  else
    let q := p.modPort i fun x => { x with flags := x.flags.mark fault, rx := if begun then left else x.rx }
    if begun ∧ x.state = .up ∧ x.replyTimer.isSome then q.attemptFails i .garbled else q

def execDeviceReceiveFault (i : PortNo) (fault : LineFault) (begun : Bool) (left : List Byte) (s : State) : Meaning :=
  .next (s.event fun p => p.deviceFault i fault begun left)

/-- R97, R103: the last character of the frame in the shift stage has left; the port begins to await the reply, or the probe
timer starts. -/
def Port.frameSent (x : Port) : Port :=
  match x.shift with
  | some (.frame _) =>
    let y := x.shiftDone
    match x.state, x.outstanding with
    | .up, some _ => { y with replyTimer := some 0 }
    | .down, some _ => { y with probeTimer := some 0 }
    | _, _ => y
  | _ => x

def execCommandFrameSent (i : PortNo) (s : State) : Meaning := .next (s.event fun p => p.modPort i Port.frameSent)

/-- R99: the reply timer reaches the reply timeout. -/
def Plant.replyExpired (p : Plant) (i : PortNo) : Plant :=
  let x := p.port i
  if x.state = .up ∧ x.replyTimer.isSome then p.attemptFails i .noReply else p

def execReplyTimeout (i : PortNo) (s : State) : Meaning := .next (s.event fun p => p.replyExpired i)

/-- R102: a break on an UP port reaches 100 ms. -/
def Plant.portBreak (p : Plant) (i : PortNo) : Plant :=
  if (p.port i).state = .up then
    (p.modPort i fun x => { x with flags := x.flags.mark .brk, rx := [] }).enterDown i .brk
  else p

def execPortBreakDown (i : PortNo) (s : State) : Meaning := .next (s.event fun p => p.portBreak i)

/-- R95, R102: the recovery break ends, and the probe's frame passes to the shift stage. -/
def Port.breakEnds (x : Port) : Port :=
  match x.shift with
  | some .brk => x.shiftDone
  | _ => x

def execRecoveryBreakEnd (i : PortNo) (s : State) : Meaning := .next (s.event fun p => p.modPort i Port.breakEnds)

/-- R103: 500 ms have passed without a reply; a new probe is handed over. -/
def Port.probeAgain (x : Port) : Port :=
  if x.state = .down ∧ x.probeTimer.isSome then { x.handFrame DevCmd.ask.frame with probeTimer := none } else x

def execProbeTimerExpiry (i : PortNo) (s : State) : Meaning := .next (s.event fun p => p.modPort i Port.probeAgain)

end Sys2Proof.Machine
end

