-- ==== Sys2Proof/Machine/LocalCommands.lean ====
section
/-! DEFINITION. Meanings of the requests of chapter 8: RETURN (R169, R170), CANCEL RETURN (R173), ADOPT (R175), RELEASE (R177)
and READ ASRUN (R168). -/

namespace Sys2Proof.Machine

/-! ## RETURN and CANCEL RETURN -/

/-- R169, check 3: the CTF of a not_before and whether its label was moved forward, or the status that refuses it. -/
def Plant.notBeforeOf (p : Plant) (c : Chan) : Option DayLabel → Except Status (Option Nat × Bool)
  | none => .ok (none, false)
  | some d =>
    if d.label.valid (p.family c) then
      match ctfOf (p.family c) (p.chan c).baseDay d with
      | some t => .ok (some t, d.label.dropped (p.family c))
      | none => .error .outOfWindow
    else .error .badTime

/-- R169, check 6: the candidate frame. -/
def Plant.candidate (p : Plant) (c : Chan) (notBefore : Option Nat) : Nat :=
  max ((p.chan c).now + p.conf c (·.returnLead)) (notBefore.getD 0)

/-- R169, R170: the event at which the return is made. -/
def Plant.returnEvent (p : Plant) (c : Chan) (notBefore : Option Nat) : Option Event :=
  (p.chan c).playlist.find? fun e =>
    e.unmarked && decide (p.candidate c notBefore ≤ e.rstart) && decide (e.rstart < 4 * (p.family c).fpd)

/-- R170: an accepted RETURN. -/
def Plant.setReturn (p : Plant) (c : Chan) (e : Event) (notBefore : Option Nat) (force : Bool) : Plant :=
  let r : ReturnRec :=
    { state := .pending, tRet := e.rstart, event := e.id, sent := p.dayLabel c e.rstart, notBefore := notBefore, force := force,
      against := (p.chan c).watch.health == .failed, cancel := none }
  ((p.modChan c fun x => { x with mode := .returning, returnRec := some r }).tellResume c r false).notify .returnSet (some c)
    (u32 r.event ++ p.ctfBytes c r.tRet ++ flag r.force ++ flag r.against)

/-- R169: the checks in their order. -/
def returnToMain (a : ReturnArgs) (p : Plant) : Plant × Answer :=
  match chanOf a.channel with
  | none => p.refuse .noSuchChannel
  | some c =>
    if (p.chan c).mode ≠ .onLocal then p.refuse .wrongMode
    else match p.notBeforeOf c a.notBefore with
      | .error s => p.refuse s
      | .ok (nb, moved) =>
        if (p.chan c).replica.state ≠ .current then p.refuse .stale
        else if (p.chan c).watch.health = .failed ∧ !a.force then p.refuse .mainFailed
        else match p.returnEvent c nb with
          | none => p.refuse .noBoundary
          | some e =>
            (p.setReturn c e nb a.force, reply (if moved then .adjusted else .ok) (p.ctfBytes c e.rstart ++ u32 e.id))

def execReturnToMain (tag : Nat) (body : Form ReturnArgs) (s : State) : Meaning :=
  .next (s.request (.returnToMain tag body) tag 0x13 body (onPlant returnToMain))

/-- R173. -/
def cancelReturn (n : Nat) (p : Plant) : Plant × Answer :=
  match chanOf n with
  | none => p.refuse .noSuchChannel
  | some c =>
    if (p.chan c).mode = .returning then (p.cancelReturn c .host, reply .ok []) else p.refuse .wrongMode

def execCancelReturn (tag : Nat) (body : Form Nat) (s : State) : Meaning :=
  .next (s.request (.cancelReturn tag body) tag 0x14 body (onPlant cancelReturn))

/-! ## ADOPT -/

/-- R175, check 4: the spare named is of role SPARE and in the channel's spare set. -/
def Plant.spareNamed (p : Plant) (c : Chan) (n : Nat) : Option PortNo :=
  match portOf n, p.config c with
  | some i, some g => if (p.port i).role = .spare ∧ g.spares.testBit i.val then some i else none
  | _, _ => none

/-- R175: the port of an ADOPT, and whether it is a spare: absent means the primary port. -/
def Plant.adoptPort (p : Plant) (c : Chan) : Option Nat → Option (PortNo × Bool)
  | none => (p.primary c).map fun i => (i, false)
  | some n => (p.spareNamed c n).map fun i => (i, true)

/-- R175: an accepted ADOPT. -/
def Plant.acceptAdopt (p : Plant) (c : Chan) (e : Event) (i : PortNo) (spare : Bool) : Plant :=
  ((if spare then p.lend c i else p).usePort c (some i)).modChan c fun x =>
    { x with adoption := some { event := e.id, port := i } }

/-- R175: the checks in their order. -/
def adopt (a : AdoptArgs) (p : Plant) : Plant × Answer :=
  match chanOf a.channel with
  | none => p.refuse .noSuchChannel
  | some c =>
    let x := p.chan c
    if x.mode ≠ .orphaned then p.refuse .wrongMode
    else if x.adoption.isSome ∨ x.release.isSome then p.refuse .busy
    else match p.adoptPort c a.spare with
      | none => p.refuse .badArgument
      | some (i, spare) =>
        match coverAt x.playlist x.now with
        | none => p.refuse .empty
        | some e =>
          if spare ∧ ((p.port i).holder.isSome ∨ (p.port i).state ≠ .up) then p.refuse .portTaken
          else (p.acceptAdopt c e i spare, reply .ok (u32 e.id ++ u8 i.val))

def execAdopt (tag : Nat) (body : Form AdoptArgs) (s : State) : Meaning := .next (s.request (.adopt tag body) tag 0x15 body (onPlant adopt))

/-! ## RELEASE -/

/-- R177: the target and after-state. -/
def releaseTarget (target : Nat) (after : Option Nat) : Option ReleaseTarget :=
  match target, after with
  | 0, some 0 => some (.main .shadow)
  | 0, some 1 => some (.main .idle)
  | 1, none => some .filler
  | _, _ => none

def ReleaseTarget.pos : ReleaseTarget → SwitchPos
  | .main _ => .main
  | .filler => .filler

/-- R177: an accepted RELEASE. -/
def Plant.acceptRelease (p : Plant) (c : Chan) (t : ReleaseTarget) : Plant :=
  let q := if (p.chan c).adoption.isSome then p.adoptFailed c .released else p
  ((q.releaseSpare c).decideSwitch c t.pos (q.nextLineFrame c) .release .release).modChan c fun x => { x with release := some t }

/-- R177. -/
def release (a : ReleaseArgs) (p : Plant) : Plant × Answer :=
  match chanOf a.channel with
  | none => p.refuse .noSuchChannel
  | some c =>
    if (p.chan c).mode ≠ .orphaned then p.refuse .wrongMode
    else match releaseTarget a.target a.after with
      | none => p.refuse .badArgument
      | some t => (p.acceptRelease c t, reply .ok [])

def execRelease (tag : Nat) (body : Form ReleaseArgs) (s : State) : Meaning :=
  .next (s.request (.release tag body) tag 0x16 body (onPlant release))

/-! ## READ ASRUN -/

/-- R168: an index minus the starting index, modulo 2^32. -/
def indexFrom (start x : Nat) : Nat := (x + 4294967296 - start % 4294967296) % 4294967296

/-- R168: the index is at or above the starting index. -/
def atOrAbove (start x : Nat) : Bool := decide (indexFrom start x < 2147483648)

/-- R168: entries from the starting index on have been dropped. -/
def AsRunLog.lost (g : AsRunLog) (start : Nat) : Bool :=
  match g.ring with
  | [] => false
  | e :: _ => decide (1 ≤ indexFrom start e.index) && decide (indexFrom start e.index ≤ 2147483647)

/-- R168: the entries from the oldest held at or above the starting index on. -/
def AsRunLog.since (g : AsRunLog) (start : Nat) : List AsRunEntry := g.ring.dropWhile fun e => !atOrAbove start e.index

/-- Section 10.5: the contents of the reply. -/
def AsRunLog.readBytes (g : AsRunLog) (start : Nat) : List Byte :=
  let l := g.since start
  u32 g.index ++ opt u32 (g.ring.head?.map (·.index)) ++ flag (g.lost start) ++ u8 (l.take 8).length ++
    flag (decide (8 < l.length)) ++ (l.take 8).flatMap AsRunEntry.bytes

def readAsRun (start : Nat) (s : State) : Plant × Answer := (s.plant, reply .ok (s.log.readBytes start))

def execReadAsRun (tag : Nat) (body : Form Nat) (s : State) : Meaning := .next (s.request (.readAsRun tag body) tag 0x17 body readAsRun)

end Sys2Proof.Machine
end

