-- ==== Sys2Proof/Machine/PartCommands.lean ====
section
/-! DEFINITION. Meanings of the Control Line Interface's commands: power-on, RESET PART (R174, R189, R190), requests of an
unknown kind, frames that are no requests, and the end of a frame (chapter 9). -/

namespace Sys2Proof.Machine

/-! ## Power-on (R18, R44, R71, R92, R113, R135, R159, R178, R191) -/

/-- Power-on. The model's own counters of free choices run on, so that no choice is made twice. -/
def execPowerOn (s : State) : Meaning :=
  .next { State.reset with
    plant := { Plant.reset with free := s.plant.free }, ctl := { ControlLine.reset with free := s.ctl.free },
    pending := s.pending }

/-! ## RESET PART -/

/-- R174: the channel comes up ORPHANED: its switch is not at MAIN. -/
def Channel.orphans (x : Channel) : Bool := x.switch != .main

/-- R18, R159, R174: a channel after RESET PART. -/
def Channel.afterReset (x : Channel) : Channel :=
  if x.orphans then
    { Channel.reset with
      now := x.now, baseDay := x.baseDay, config := x.config, mode := .orphaned, switch := x.switch,
      portInUse := x.config.map (·.primary), replica := { Replica.reset with reloadTimer := some 0 },
      lineInForce := x.lineInForce }
  else Channel.reset

/-- The channels that come up ORPHANED, in increasing order. -/
def Plant.orphanList (p : Plant) : List Chan := allChans.filter fun c => (p.chan c).orphans

/-- R18: a reference to which a channel coming up ORPHANED is bound is kept as it stands, the label received in the frame in progress
too (DESIGN CHOICE, log entry 90). -/
def Plant.refAfterReset (p : Plant) (r : RefId) : Reference :=
  if p.orphanList.any fun c => (p.config c).any fun g => g.reference == r then p.ref r else Reference.reset

/-- R18, R44, R71, R92, R113, R135, R159, R174, R178: every block at RESET PART. The ASK RELOAD of each channel that comes
up ORPHANED is handed out, in increasing order of the channels (DESIGN CHOICE, log entry 62: the guide gives no order). -/
def Plant.afterReset (p : Plant) : Plant :=
  { Plant.reset with
    refA := p.refAfterReset .a, refB := p.refAfterReset .b, chans := p.chans.map Channel.afterReset, free := p.free,
    outbox := p.orphanList.map fun c => .back (.askReload c) }

/-- R190: the list of channels that came up ORPHANED, each with its switch position. -/
def Plant.orphanBytes (p : Plant) : List Byte :=
  items (fun c : Chan => u8 c.val ++ u8 (p.chan c).switch.code) p.orphanList

/-- R189, R190: RESET PART carried out; its reply is the first frame sent, and the request queue is empty. -/
def State.resetPart (s : State) (tag : Nat) : State :=
  let r : Reply := { tag := tag, kind := replyKind 0x18, status := .ok, content := s.plant.orphanBytes, origin := .nothing }
  ({ State.reset with
      plant := s.plant.afterReset, ctl := { ControlLine.reset with free := s.ctl.free }.begin (.reply r),
      pending := s.pending } : State).settle none

/-- RESET PART: a body that is not empty has the wrong form (R189). -/
def execResetPart (tag : Nat) (body : Form Unit) (s : State) : Meaning :=
  .next (match body with
    | .faulty =>
      s.request (.resetPart tag .faulty) tag 0x18 (Form.faulty : Form Unit) fun _ s => (s.plant, refuse .badArgument)
    | .sound u =>
      if s.ctl.takesNow tag then s.resetPart tag
      else { s with ctl := ControlLine.arrive { s.ctl with rx := [] } (.resetPart tag (.sound u)) })

/-! ## Other frames (R179, R180) -/

/-- R180: a request whose KIND is none of the request kinds is answered BAD_ARGUMENT. -/
def execUnknownRequest (tag kind : Nat) (s : State) : Meaning :=
  .next (s.request (.unknownRequest tag kind) tag kind (Form.faulty : Form Unit) fun _ s => (s.plant, refuse .badArgument))

/-- R180: a good frame with tag 0 is discarded. -/
def execTagZeroFrame (s : State) : Meaning := .next { s with ctl := { s.ctl with rx := [] } }

/-- R179: the frame being gathered is discarded, without a mark, whatever the fault. `held` is what was received after its
SYNC: the hunt resumes there, and these bytes are examined again as if they were arriving. A good frame found among them is
judged by R180 and R181; a request that so enters the queue waits there for its turn (R182). What is left being gathered
stands in `rx`. -/
def execControlReceiveFault (_fault : ControlFault) (held : List Byte) (s : State) : Meaning :=
  let found := scanControl held.length held
  .next { s with ctl := { found.1.foldl ControlLine.arrive s.ctl with rx := found.2 } }

/-- R182, R184, R188: the last byte of a control-line frame leaves. -/
def execControlFrameSent (s : State) : Meaning := .next { s with ctl := s.ctl.frameSent }

end Sys2Proof.Machine
end

