-- ==== Sys2Proof/Machine/PlaylistCommands.lean ====
section
/-! DEFINITION. Meanings of the Playlist Store's requests: EDIT EVENT (R30, R31) and READ PLAYLIST (R43). -/

namespace Sys2Proof.Machine

/-- The marks of an event in one byte: ECLIPSED, BEYOND, LATE and, where asked for, TRUNCATED are its bits 0 to 3 (DESIGN CHOICE,
log entry 60). -/
def Event.markBytes (e : Event) (truncated : Bool) : List Byte := u8 (bits [e.eclipsed, e.beyond, e.late, truncated])

/-- R31: the event as the reply to INSERT and REPLACE carries it; the stored label and its day number come in the order R31
lists them, behind one presence byte (DESIGN CHOICE, log entry 66). -/
def Plant.editedBytes (p : Plant) (c : Chan) (e : Event) : List Byte :=
  u32 e.id ++ opt (fun d : DayLabel => labelBytes d.label ++ u16 d.day) e.start ++ p.ctfBytes c e.rstart ++
    p.ctfBytes c e.rend ++ u8 e.cue.code ++ e.markBytes false

/-- R31: the status of an accepted edit. -/
def editStatus (late moved : Bool) : Status := if late then .late else if moved then .adjusted else .ok

/-- R30: acceptance of EDIT EVENT by channel and mode, and the operation. -/
def editEvent (n : Nat) (o : PlOp) (report : Plant → Chan → PlDone → Answer) (p : Plant) : Plant × Answer :=
  match chanOf n with
  | none => p.refuse .noSuchChannel
  | some c =>
    match (p.chan c).mode with
    | .idle => p.refuse .notConfigured
    | .shadow | .confirming | .taking => p.refuse .replicaOwns
    | .onLocal | .returning | .orphaned =>
      match p.edit c o with
      | .error s => p.refuse s
      | .ok (q, r) => (q, report q c r)

/-- R31 for INSERT and REPLACE. An event that resolution leaves both ECLIPSED and LATE is answered LATE (DESIGN CHOICE, log
entry 63: two sentences of R31 meet). A REPLACE that changes a frozen event's duration alone, as given, is answered LATE where the event
carries LATE (DEDUCED, log entry 75: R31's words for the mark against R26's OK). -/
def reportEvent (id : Nat) (p : Plant) (c : Chan) (r : PlDone) : Answer :=
  match findEvent (p.chan c).playlist id with
  | some e => reply (editStatus (r.late || e.late) r.moved) (p.editedBytes c e)
  | none => reply (editStatus r.late r.moved) []

/-- R31 for DELETE: where the event stayed, its resolved end. -/
def reportDelete (id : Nat) (p : Plant) (c : Chan) (r : PlDone) : Answer :=
  reply (editStatus r.late r.moved) (opt (p.ctfBytes c) ((findEvent (p.chan c).playlist id).map (·.rend)))

/-- R23. -/
def editInsert (a : InsertArgs) (p : Plant) : Plant × Answer :=
  editEvent a.channel (.insert a.pred a.desc) (reportEvent a.desc.id) p

def execEditEventInsert (tag : Nat) (body : Form InsertArgs) (s : State) : Meaning :=
  .next (s.request (.editEventInsert tag body) tag 0x04 body (onPlant editInsert))

/-- R25, R26. -/
def editReplace (a : ReplaceArgs) (p : Plant) : Plant × Answer :=
  editEvent a.channel (.replace a.desc) (reportEvent a.desc.id) p

def execEditEventReplace (tag : Nat) (body : Form ReplaceArgs) (s : State) : Meaning :=
  .next (s.request (.editEventReplace tag body) tag 0x04 body (onPlant editReplace))

/-- R27. -/
def editDelete (a : DeleteArgs) (p : Plant) : Plant × Answer :=
  editEvent a.channel (.delete a.id) (reportDelete a.id) p

def execEditEventDelete (tag : Nat) (body : Form DeleteArgs) (s : State) : Meaning :=
  .next (s.request (.editEventDelete tag body) tag 0x04 body (onPlant editDelete))

/-! ## READ PLAYLIST (R43) -/

/-- R43: an event as it is returned. -/
def Plant.listedBytes (p : Plant) (c : Chan) (e : Event) : List Byte :=
  descBytes e.desc ++ p.ctfBytes c e.rstart ++ p.ctfBytes c e.rend ++ u8 e.cue.code ++ e.markBytes e.truncated

/-- R43: the events asked for. -/
def playlistFrom (l : List Event) (start : Nat) : Option (List Event) :=
  if start = 0 then some l
  else if l.any (·.id == start) then some (eventsAfter l start)
  else none

def readPlaylist (a : ReadPlaylistArgs) (p : Plant) : Plant × Answer :=
  match chanOf a.channel with
  | none => p.refuse .noSuchChannel
  | some c =>
    let x := p.chan c
    match playlistFrom x.playlist a.start with
    | none => p.refuse .noSuchEvent
    | some l =>
      (p, reply .ok
        (u16 x.playlist.length ++ u16 p.freeRecords ++ p.ctfBytes c x.now ++ items (p.listedBytes c) (l.take 8) ++
          flag (decide (8 < l.length))))

def execReadPlaylist (tag : Nat) (body : Form ReadPlaylistArgs) (s : State) : Meaning :=
  .next (s.request (.readPlaylist tag body) tag 0x05 body (onPlant readPlaylist))

end Sys2Proof.Machine
end

