-- ==== Sys2Proof/Machine/ReferenceCommands.lean ====
section
/-! DEFINITION. Meanings of the Timebase Unit's commands: SET REFERENCE, the reference inputs, and the events at a channel's
frames (chapter 1, R141, R144). -/

namespace Sys2Proof.Machine

/-! ## SET REFERENCE (R2) -/

/-- R2: what the reply carries. -/
def Plant.referenceBytes (p : Plant) (r : RefId) : List Byte :=
  let x := p.ref r
  u8 r.code ++ u8 x.family.code ++ flag x.configured ++ u8 x.lock.code ++ flag x.timeSet ++ flag x.faulty ++ u32 x.station

/-- R2: a new family takes effect at once. -/
def Reference.newFamily (f : Family) : Reference := { Reference.reset with family := f, configured := true }

/-- R2, R8: whether a new family changes what REFERENCE STATE reports: from LOCKED, from time set, or from labels
faulty. -/
def Reference.newsOnReset (x : Reference) : Bool := x.lock == .locked || x.timeSet || x.faulty

def setReference (a : SetReferenceArgs) (p : Plant) : Plant × Answer :=
  match RefId.ofCode a.reference, Family.ofCode a.family with
  | some r, some f =>
    let x := p.ref r
    if x.family = f then
      let q := p.setRef r { x with configured := true }
      (q, reply .ok (q.referenceBytes r))
    else if p.bound r ≠ [] then p.refuse .wrongMode
    else
      let q := p.setRef r (Reference.newFamily f)
      let q := if x.newsOnReset then q.tellReference r else q
      (q, reply .ok (q.referenceBytes r))
  | _, _ => p.refuse .badArgument

def execSetReference (tag : Nat) (body : Form SetReferenceArgs) (s : State) : Meaning :=
  .next (s.request (.setReference tag body) tag 0x01 body (onPlant setReference))

/-! ## The reference inputs (R3 to R7, R13) -/

/-- R3 to R7. -/
def execFramePulse (r : RefId) (line : Nat) (s : State) : Meaning := .next (s.event fun p => p.pulseAt r line)

/-- R4. -/
def execPulseWindowClose (r : RefId) (s : State) : Meaning := .next (s.event fun p => p.windowClose r)

/-- R6, R7. -/
def execRephaseWindowClose (r : RefId) (s : State) : Meaning := .next (s.event fun p => p.rephaseClose r)

/-- R5. -/
def execCrystalFrameEnd (r : RefId) (s : State) : Meaning := .next (s.event fun p => p.crystalEnd r)

/-- R5. -/
def execInPhaseRunLapse (r : RefId) (s : State) : Meaning := .next (s.event fun p => p.runLapse r)

/-- R13: the first label of a frame is kept for it. -/
def Reference.keepLabel (l : Label) (x : Reference) : Reference :=
  match x.label with
  | some _ => x
  | none => { x with label := some l }

def execReferenceLabel (r : RefId) (l : Label) (s : State) : Meaning :=
  .next (s.event fun p => p.modRef r (Reference.keepLabel l))

/-! ## Events at a channel's frames -/

/-- R17: a frame start and a time step roll the channel themselves; taken by itself, the roll acts where now has reached
2 × FPD. -/
def execDayRoll (c : Chan) (s : State) : Meaning := .next (s.event fun p => p.rollIfDue c)

/-- R1, R141: the line counter reaches the channel's switch line: the lines up to it are raised. -/
def Plant.reachLine (p : Plant) (c : Chan) : Plant :=
  match p.config c with
  | some g => if (p.chan c).mode = .idle then p else p.raiseLines g.reference (p.chan c).lineInForce
  | none => p

def execSwitchLine (c : Chan) (s : State) : Meaning := .next (s.event fun p => p.reachLine c)

/-- R144: the confirm window expires where now has reached the deadline. -/
def execConfirmExpiry (c : Chan) (s : State) : Meaning := .next (s.event fun p => p.expireConfirm c)

end Sys2Proof.Machine
end

