-- ==== Sys2Proof/Machine/ReplicationCommands.lean ====
section
/-! DEFINITION. Meanings of the Replication Unit's commands: SET LINKS, REPLICA RESET, the link records and faults, the timers
and the back channel (chapter 3). -/

namespace Sys2Proof.Machine

/-! ## SET LINKS (R48) -/

/-- R48: a link's settings, in range. -/
def linkSettings (a : LinkArgs) : Option (Nat × Parity) :=
  match Parity.ofCode a.parity with
  | some y => if 1 ≤ a.divisor ∧ a.divisor ≤ 65535 then some (a.divisor, y) else none
  | none => none

/-- R48: new line settings; a frame being gathered is discarded without a flag. -/
def Link.set (k : Link) (v : Nat × Parity) : Link := { k with divisor := v.1, parity := v.2, rx := [] }

/-- A link's state and flags, as the reply carries them. -/
def Link.bytes (k : Link) : List Byte := u8 k.state.code ++ k.flags.bytes

def setLinks (a : SetLinksArgs) (p : Plant) : Plant × Answer :=
  match linkSettings a.l0, linkSettings a.l1 with
  | some v0, some v1 =>
    if 50 ≤ a.heartbeat ∧ a.heartbeat ≤ 5000 then
      ({ p with link0 := { p.link0.set v0 with flags := .clear }, link1 := { p.link1.set v1 with flags := .clear },
                hbTimeout := a.heartbeat },
       reply .ok (p.link0.bytes ++ p.link1.bytes))
    else p.refuse .badArgument
  | _, _ => p.refuse .badArgument

def execSetLinks (tag : Nat) (body : Form SetLinksArgs) (s : State) : Meaning :=
  .next (s.request (.setLinks tag body) tag 0x02 body (onPlant setLinks))

/-! ## REPLICA RESET (R70) -/

/-- R70 in SHADOW. -/
def Plant.resetShadow (p : Plant) (c : Chan) : Plant :=
  let before := (p.chan c).replica.state
  let q := (p.emptyPlaylist c).awaitBase c
  if before = .awaitBase then q else q.tellReplica c before .resetRequest none

/-- R70 in LOCAL, RETURNING and ORPHANED. -/
def Plant.resetRunning (p : Plant) (c : Chan) : Plant :=
  if p.tracking c then p.goStale c .resetRequest none
  else
    ((p.discard c fun _ => true).modReplica c fun x => { x with reloadTimer := some 0 }).sendBack (.askReload c)

def replicaReset (n : Nat) (p : Plant) : Plant × Answer :=
  match chanOf n with
  | none => p.refuse .noSuchChannel
  | some c =>
    match (p.chan c).mode with
    | .idle => p.refuse .notConfigured
    | .confirming | .taking => p.refuse .wrongMode
    | .shadow => (p.resetShadow c, reply .ok [])
    | .onLocal | .returning | .orphaned => (p.resetRunning c, reply .ok [])

def execReplicaReset (tag : Nat) (body : Form Nat) (s : State) : Meaning :=
  .next (s.request (.replicaReset tag body) tag 0x03 body (onPlant replicaReset))

/-! ## Records (R47, R49 to R67, R195) -/

def execEvPut (l : LinkId) (channel seq pred : Nat) (d : RawDesc) (s : State) : Meaning :=
  .next (s.event fun p => p.channelRecord l channel seq (.put pred d))

def execEvSwap (l : LinkId) (channel seq : Nat) (d : RawDesc) (s : State) : Meaning :=
  .next (s.event fun p => p.channelRecord l channel seq (.swap d))

def execEvDrop (l : LinkId) (channel seq id : Nat) (s : State) : Meaning :=
  .next (s.event fun p => p.channelRecord l channel seq (.drop id))

def execChWipe (l : LinkId) (channel seq : Nat) (s : State) : Meaning :=
  .next (s.event fun p => p.channelRecord l channel seq .wipe)

def execBatchOpen (l : LinkId) (channel seq count : Nat) (s : State) : Meaning :=
  .next (s.event fun p => p.channelRecord l channel seq (.batchOpen count))

def execBatchClose (l : LinkId) (channel seq : Nat) (s : State) : Meaning :=
  .next (s.event fun p => p.channelRecord l channel seq .batchClose)

def execBase (l : LinkId) (channel seq : Nat) (s : State) : Meaning :=
  .next (s.event fun p => p.channelRecord l channel seq .base)

/-- R67, R68. -/
def execPulse (l : LinkId) (number day : Nat) (ids : List (Option Nat)) (s : State) : Meaning :=
  .next (s.event fun p => (p.goodFrame l).takePulse number day ids)

/-- R195: an unreadable record sets CHECK; its frame still counts as a good frame (R46). -/
def execUnreadableRecord (l : LinkId) (s : State) : Meaning :=
  .next (s.event fun p => (p.goodFrame l).modLink l fun k => { k with flags := k.flags.mark .check })

/-- R47: a record of any other kind is discarded without a flag; its frame counts as a good frame. -/
def execUnknownRecordKind (l : LinkId) (s : State) : Meaning := .next (s.event fun p => p.goodFrame l)

/-! ## Link faults (R45, R46) -/

/-- R45: the frame being gathered is discarded and the flag is set; `left` is what the bytes examined again leave. -/
def execLinkReceiveFault (l : LinkId) (fault : LineFault) (left : List Byte) (s : State) : Meaning :=
  .next (s.event fun p => p.modLink l fun k => { k with flags := k.flags.mark fault, rx := left })

/-- R46: a break reaches 100 ms; on a link already DOWN it changes nothing. -/
def Plant.linkBreak (p : Plant) (l : LinkId) : Plant :=
  if (p.link l).state = .down then p
  else (p.modLink l fun k => { k with state := .down, flags := k.flags.mark .brk, rx := [] }).tellLink l

def execLinkBreakDown (l : LinkId) (s : State) : Meaning := .next (s.event fun p => p.linkBreak l)

/-! ## Timers (R53, R54, R63, R68) -/

/-- R54: the gap timer reaches 500 ms. -/
def Plant.askFill (p : Plant) (c : Chan) : Plant :=
  match (p.chan c).replica.gapTimer, (p.chan c).replica.next with
  | some t, some n =>
    if t < 500 then (p.modReplica c fun x => { x with gapTimer := some 500 }).sendBack (.askFill c n) else p
  | _, _ => p

def execAskFillTimer (c : Chan) (s : State) : Meaning := .next (s.event fun p => p.askFill c)

/-- R54: the gap timer reaches 2000 ms. -/
def Plant.gapExpired (p : Plant) (c : Chan) : Plant :=
  match (p.chan c).replica.gapTimer with
  | some _ => p.goStale c .gapTimeout none
  | none => p

def execGapTimeout (c : Chan) (s : State) : Meaning := .next (s.event fun p => p.gapExpired c)

/-- R53, R55: the reload timer reaches 2000 ms. -/
def Plant.reloadExpired (p : Plant) (c : Chan) : Plant :=
  match (p.chan c).replica.reloadTimer with
  | some _ => (p.modReplica c fun x => { x with reloadTimer := some 0 }).sendBack (.askReload c)
  | none => p

def execReloadTimer (c : Chan) (s : State) : Meaning := .next (s.event fun p => p.reloadExpired c)

/-- R63: the batch timer reaches 1000 ms. -/
def Plant.batchExpired (p : Plant) (c : Chan) : Plant :=
  match (p.chan c).replica.batch with
  | some _ => p.goStale c .batchTimeout none
  | none => p

def execBatchTimeout (c : Chan) (s : State) : Meaning := .next (s.event fun p => p.batchExpired c)

/-- R68: the heartbeat timer expires. -/
def Plant.heartbeatExpired (p : Plant) : Plant :=
  match p.heartbeat with
  | .running _ => { p with heartbeat := .expired }
  | _ => p

def execHeartbeatTimeout (s : State) : Meaning := .next (s.event Plant.heartbeatExpired)

/-! ## The back channel (R69) -/

/-- R69: the last character of a back-channel frame has left the link. -/
def execBackChannelFrameSent (l : LinkId) (s : State) : Meaning :=
  .next (match l with
    | .l0 => { s with back0 := s.back0.sent }
    | .l1 => { s with back1 := s.back1.sent })

end Sys2Proof.Machine
end

