-- ==== Sys2Proof/Machine/WatchCommands.lean ====
section
/-! DEFINITION. Meanings of the Site Watch Unit's commands: READ WATCH (R91) and the probe line (R72 to R74). -/

namespace Sys2Proof.Machine

/-- R91: the warm-up parameter reported; a channel in IDLE has none, and the guide states no value (log entry 7). -/
def Plant.warmUpReported (p : Plant) (c : Chan) : Nat :=
  match p.config c with
  | some g => g.watch.warmUp
  | none => Config.idleWarmUp p.free

/-- R91: what the reply carries; the warm-up count is sent in 1 byte, the warm-up parameter in 4 (DESIGN CHOICE, log entry 45). -/
def Plant.watchBytes (p : Plant) (c : Chan) : List Byte :=
  let w := (p.chan c).watch
  u8 w.health.code ++ u8 w.score ++ u8 w.warm ++ u32 (p.warmUpReported c) ++ w.conds.bytes ++ historyBytes w.history ++
    w.change.bytes ++ opt labelBytes (w.labelMem.map (labelOf (p.family c))) ++ flag w.diverged ++ u8 w.agree ++
    u8 w.disagree ++ opt u32 w.lastMain ++ opt (fun m : Nat × Nat => u32 m.1 ++ p.ctfBytes c m.2) w.lastEnded ++
    opt u16 p.mainDay ++ p.probeFlags.bytes

def readWatch (n : Nat) (p : Plant) : Plant × Answer :=
  match chanOf n with
  | none => p.refuse .noSuchChannel
  | some c =>
    let q := p.modChan c fun x => { x with watch := { x.watch with change := .empty } }
    ({ q with probeFlags := .clear, free := p.free + 1 }, reply .ok (p.watchBytes c))

def execReadWatch (tag : Nat) (body : Form Nat) (s : State) : Meaning :=
  .next (s.request (.readWatch tag body) tag 0x06 body (onPlant readWatch))

/-- R73, R74: a good probe record; the latch takes the first of a frame. -/
def Plant.latchProbe (p : Plant) (n : Nat) (r : Probe) : Plant :=
  let p := { p with probeRx := [] }
  match chanOf n with
  | some c =>
    if (p.chan c).mode = .idle ∨ (p.chan c).watch.latch.isSome then p
    else p.modChan c fun x => { x with watch := { x.watch with latch := some r } }
  | none => p

def execProbeRecord (n : Nat) (r : Probe) (s : State) : Meaning := .next (s.event fun p => p.latchProbe n r)

/-- R72: the record being gathered is discarded and the flag is set; `left` is what the bytes examined again leave. -/
def execProbeReceiveFault (fault : ProbeFault) (left : List Byte) (s : State) : Meaning :=
  .next (s.event fun p => { p with probeFlags := p.probeFlags.mark fault, probeRx := left })

end Sys2Proof.Machine
end

