-- ==== Sys2Proof/Machine/Dispatch.lean ====
section
/-! DEFINITION. The meaning of each command: one arm per constructor of `Instr`, in the order of spec/opcode_table.json. -/

namespace Sys2Proof.Machine

def exec (i : Instr) (s : State) : Host.Outcome State Fault Refusal :=
  match i with
  | .powerOn => Sys2Proof.Machine.execPowerOn s
  -- requests and control-line frames
  | .resetPart tag body => Sys2Proof.Machine.execResetPart tag body s
  | .setReference tag body => Sys2Proof.Machine.execSetReference tag body s
  | .setLinks tag body => Sys2Proof.Machine.execSetLinks tag body s
  | .replicaReset tag body => Sys2Proof.Machine.execReplicaReset tag body s
  | .editEventInsert tag body => Sys2Proof.Machine.execEditEventInsert tag body s
  | .editEventReplace tag body => Sys2Proof.Machine.execEditEventReplace tag body s
  | .editEventDelete tag body => Sys2Proof.Machine.execEditEventDelete tag body s
  | .readPlaylist tag body => Sys2Proof.Machine.execReadPlaylist tag body s
  | .readWatch tag body => Sys2Proof.Machine.execReadWatch tag body s
  | .setPort tag body => Sys2Proof.Machine.execSetPort tag body s
  | .passThrough tag body => Sys2Proof.Machine.execPassThrough tag body s
  | .setTemplate tag body => Sys2Proof.Machine.execSetTemplate tag body s
  | .halt tag body => Sys2Proof.Machine.execHalt tag body s
  | .resume tag body => Sys2Proof.Machine.execResume tag body s
  | .setChannel tag body => Sys2Proof.Machine.execSetChannel tag body s
  | .clearChannel tag body => Sys2Proof.Machine.execClearChannel tag body s
  | .take tag body => Sys2Proof.Machine.execTake tag body s
  | .confirm tag body => Sys2Proof.Machine.execConfirm tag body s
  | .veto tag body => Sys2Proof.Machine.execVeto tag body s
  | .abortTake tag body => Sys2Proof.Machine.execAbortTake tag body s
  | .readChannel tag body => Sys2Proof.Machine.execReadChannel tag body s
  | .returnToMain tag body => Sys2Proof.Machine.execReturnToMain tag body s
  | .cancelReturn tag body => Sys2Proof.Machine.execCancelReturn tag body s
  | .adopt tag body => Sys2Proof.Machine.execAdopt tag body s
  | .release tag body => Sys2Proof.Machine.execRelease tag body s
  | .readAsRun tag body => Sys2Proof.Machine.execReadAsRun tag body s
  | .unknownRequest tag kind => Sys2Proof.Machine.execUnknownRequest tag kind s
  | .tagZeroFrame => Sys2Proof.Machine.execTagZeroFrame s
  | .controlReceiveFault fault left => Sys2Proof.Machine.execControlReceiveFault fault left s
  | .controlFrameSent => Sys2Proof.Machine.execControlFrameSent s
  -- the references and the channels' frames
  | .framePulse ref line => Sys2Proof.Machine.execFramePulse ref line s
  | .pulseWindowClose ref => Sys2Proof.Machine.execPulseWindowClose ref s
  | .rephaseWindowClose ref => Sys2Proof.Machine.execRephaseWindowClose ref s
  | .crystalFrameEnd ref => Sys2Proof.Machine.execCrystalFrameEnd ref s
  | .inPhaseRunLapse ref => Sys2Proof.Machine.execInPhaseRunLapse ref s
  | .referenceLabel ref label => Sys2Proof.Machine.execReferenceLabel ref label s
  | .dayRoll channel => Sys2Proof.Machine.execDayRoll channel s
  | .switchLine channel => Sys2Proof.Machine.execSwitchLine channel s
  | .confirmExpiry channel => Sys2Proof.Machine.execConfirmExpiry channel s
  -- the replication links
  | .evPut link channel seq pred desc => Sys2Proof.Machine.execEvPut link channel seq pred desc s
  | .evSwap link channel seq desc => Sys2Proof.Machine.execEvSwap link channel seq desc s
  | .evDrop link channel seq id => Sys2Proof.Machine.execEvDrop link channel seq id s
  | .chWipe link channel seq => Sys2Proof.Machine.execChWipe link channel seq s
  | .batchOpen link channel seq count => Sys2Proof.Machine.execBatchOpen link channel seq count s
  | .batchClose link channel seq => Sys2Proof.Machine.execBatchClose link channel seq s
  | .base link channel seq => Sys2Proof.Machine.execBase link channel seq s
  | .pulse link number day ids => Sys2Proof.Machine.execPulse link number day ids s
  | .unreadableRecord link => Sys2Proof.Machine.execUnreadableRecord link s
  | .linkReceiveFault link fault left => Sys2Proof.Machine.execLinkReceiveFault link fault left s
  | .linkBreakDown link => Sys2Proof.Machine.execLinkBreakDown link s
  | .askFillTimer channel => Sys2Proof.Machine.execAskFillTimer channel s
  | .gapTimeout channel => Sys2Proof.Machine.execGapTimeout channel s
  | .reloadTimer channel => Sys2Proof.Machine.execReloadTimer channel s
  | .batchTimeout channel => Sys2Proof.Machine.execBatchTimeout channel s
  | .heartbeatTimeout => Sys2Proof.Machine.execHeartbeatTimeout s
  | .backChannelFrameSent link => Sys2Proof.Machine.execBackChannelFrameSent link s
  -- the probe line
  | .probeRecord channel probe => Sys2Proof.Machine.execProbeRecord channel probe s
  | .probeReceiveFault fault left => Sys2Proof.Machine.execProbeReceiveFault fault left s
  -- the device lines
  | .deviceReply port reply => Sys2Proof.Machine.execDeviceReply port reply s
  | .deviceReceiveFault port fault begun left => Sys2Proof.Machine.execDeviceReceiveFault port fault begun left s
  | .commandFrameSent port => Sys2Proof.Machine.execCommandFrameSent port s
  | .replyTimeout port => Sys2Proof.Machine.execReplyTimeout port s
  | .portBreakDown port => Sys2Proof.Machine.execPortBreakDown port s
  | .recoveryBreakEnd port => Sys2Proof.Machine.execRecoveryBreakEnd port s
  | .probeTimerExpiry port => Sys2Proof.Machine.execProbeTimerExpiry port s
  | .unknownRecordKind link => Sys2Proof.Machine.execUnknownRecordKind link s

end Sys2Proof.Machine
end

