-- ==== Sys2Proof/Machine/Step.lean ====
section
/-! DEFINITION. One step: the command at the front of the queue is taken and carried out on the state with the queue's rest. On an
empty queue the Control Line Interface gives the oldest request that waits in its own queue its turn, and where none waits
the part idles (log entries 1 and 10). -/

namespace Sys2Proof.Machine

def step (s : State) : Host.Outcome State Fault Refusal :=
  match s.pending with
  | [] => s.idle exec
  | c :: rest => exec c { s with pending := rest }

/-- The command a table word spells, put at the front of the queue. No row of the table has bits, so no word spells one and
the state stands unchanged; a command comes to run by standing in the queue (log entry 1). -/
def State.withFetchWord (s : State) (nbits w : Nat) : State :=
  match Sys2Proof.decodeTableWord nbits w with
  | some i => { s with pending := i :: s.pending }
  | none => s

end Sys2Proof.Machine
end

