-- ==== Sys2Proof/WellFormed.lean ====
section
/-! DEFINITION. Well-formed commands: what the lines of the part can carry (R192, R180, R195, section 10.2 to 10.5). A tag lies from
1 to 255, a field fits the bytes of its coding, a clip id or byte string has its length in one byte, a PULSE names the 16
channels. Whether a field's value is one its owning rule accepts is for the meanings to judge, not for this file. -/

namespace Sys2Proof

/-- One byte: channel, port, template, count, flag, enumerated value, label part (R192). -/
def fits8 (n : Nat) : Bool := decide (n < 256)
/-- Two bytes: sequence number, day number, milliseconds, divisor (R192). -/
def fits16 (n : Nat) : Bool := decide (n < 65536)
/-- Three bytes: clip frame, the spare set (R192). -/
def fits24 (n : Nat) : Bool := decide (n < 16777216)
/-- Four bytes: event id, duration, frame count (R192). -/
def fits32 (n : Nat) : Bool := decide (n < 4294967296)

/-- R192: an offset of two bytes, two's complement. -/
def fitsOffset (i : Int) : Bool := decide (-32768 ≤ i) && decide (i < 32768)

/-- R192: a string with its length in one byte. -/
def fitsStr (b : List Byte) : Bool := decide (b.length < 256)

def fitsOpt (f : Nat → Bool) : Option Nat → Bool
  | none => true
  | some n => f n

/-- Section 10.2: a request's tag. -/
def tagOk (tag : Nat) : Bool := decide (1 ≤ tag) && fits8 tag

def labelFits (l : Label) : Bool := fits8 l.hh && fits8 l.mm && fits8 l.ss && fits8 l.ff

def dayLabelFits (d : DayLabel) : Bool := fits16 d.day && labelFits d.label

/-- R194: a clip part's length byte lies from 1 to 32. -/
def clipFits (c : RawClip) : Bool :=
  fits8 c.template && fits24 c.som && decide (1 ≤ c.clip.length) && decide (c.clip.length ≤ 32)

def descFits (d : RawDesc) : Bool :=
  fits32 d.id && fits8 d.kind && fits8 d.rule && fits32 d.duration && (d.start.map dayLabelFits).getD true &&
    (d.clip.map clipFits).getD true && fitsOpt fits24 d.eom

def stepFits (a : RawStep) : Bool :=
  fits8 a.kind && fitsOpt fits8 a.command && fitsOpt fits8 a.argument && (a.constant.map fitsStr).getD true &&
    fits8 a.anchor && fitsOffset a.offset && fits8 a.condition && fits8 a.repeats && fits8 a.spacing &&
    fitsOpt fits8 a.expected && fitsOpt fits8 a.clipMatch && fitsOpt fits8 a.onMismatch

def weightsFit (w : Weights) : Bool :=
  fits8 w.noSignal && fits8 w.black && fits8 w.frozen && fits8 w.silent && fits8 w.tcLoss && fits8 w.tcJump &&
    fits8 w.noProbe && fits8 w.siteSilent

def watchFits (w : WatchParams) : Bool :=
  weightsFit w.weights && fits8 w.sensitivity && fits8 w.recovery && fits8 w.degradeAt && fits8 w.failAt &&
    fits8 w.recoverAt && fits32 w.warmUp && fits32 w.agreeTol

def configFits (g : RawConfig) : Bool :=
  fits8 g.reference && fits8 g.primary && fits24 g.spares && fits8 g.standby && fits8 g.policy && fits32 g.confirmWindow &&
    fits8 g.bridge && fits32 g.cueLead && fits32 g.tailGuard && fits32 g.returnLead && fits32 g.verifyTol &&
    fits16 g.switchLine && fits16 g.baseDay && watchFits g.watch && fitsOpt fits16 g.heartbeat

/-- R112: the argument travels with the kind it belongs to. -/
def passFits : PassArg → Bool
  | .none => true
  | .clip b => fitsStr b
  | .frame f => fits24 f
  | .bytes b => fitsStr b

/-- A request: its tag, and its body where the form is sound. -/
def requestFits {α : Type} (tag : Nat) (body : Form α) (f : α → Bool) : Bool :=
  tagOk tag && match body with
    | .faulty => true
    | .sound a => f a

/-- Section 10.4: the ids of the 16 channels. -/
def pulseFits (number day : Nat) (ids : List (Option Nat)) : Bool :=
  fits8 number && fits16 day && decide (ids.length = 16) && ids.all (fitsOpt fits32)

/-- R179: a frame left being gathered begins with its SYNC, and is not yet whole. -/
def leftFits (sync : Byte) (left : List Byte) : Bool :=
  match left with
  | [] => true
  | b :: _ => b == sync

/-- R179: what can have been received after the SYNC of a discarded frame: LEN, TAG, KIND, at most 1024 body bytes, and the
CRC. -/
def heldFits (held : List Byte) : Bool := decide (held.length ≤ 1030)

/-- A command that the lines of the part can carry. -/
def Instr.wf : Instr → Bool
  | .powerOn => true
  | .resetPart t b => requestFits t b fun _ => true
  | .setReference t b => requestFits t b fun a => fits8 a.reference && fits8 a.family
  | .setLinks t b => requestFits t b fun a =>
      fits16 a.l0.divisor && fits8 a.l0.parity && fits16 a.l1.divisor && fits8 a.l1.parity && fits16 a.heartbeat
  | .replicaReset t b => requestFits t b fits8
  | .editEventInsert t b => requestFits t b fun a => fits8 a.channel && fits32 a.pred && descFits a.desc
  | .editEventReplace t b => requestFits t b fun a => fits8 a.channel && descFits a.desc
  | .editEventDelete t b => requestFits t b fun a => fits8 a.channel && fits32 a.id
  | .readPlaylist t b => requestFits t b fun a => fits8 a.channel && fits32 a.start
  | .readWatch t b => requestFits t b fits8
  | .setPort t b => requestFits t b fun a =>
      fits8 a.port && fits8 a.role && fits16 a.divisor && fits8 a.parity && fits16 a.replyTimeout && fits8 a.retries &&
        fits32 a.preroll
  | .passThrough t b => requestFits t b fun a => fits8 a.port && fits8 a.kind && passFits a.arg
  | .setTemplate t b => requestFits t b fun a =>
      fits8 a.template && decide (a.steps.length < 256) && a.steps.all stepFits
  | .halt t b => requestFits t b fits8
  | .resume t b => requestFits t b fits8
  | .setChannel t b => requestFits t b fun a => fits8 a.channel && configFits a.config
  | .clearChannel t b => requestFits t b fits8
  | .take t b => requestFits t b fun a => fits8 a.channel && fits8 a.option
  | .confirm t b => requestFits t b fits8
  | .veto t b => requestFits t b fits8
  | .abortTake t b => requestFits t b fits8
  | .readChannel t b => requestFits t b fits8
  | .returnToMain t b => requestFits t b fun a => fits8 a.channel && (a.notBefore.map dayLabelFits).getD true
  | .cancelReturn t b => requestFits t b fits8
  | .adopt t b => requestFits t b fun a => fits8 a.channel && fitsOpt fits8 a.spare
  | .release t b => requestFits t b fun a => fits8 a.channel && fits8 a.target && fitsOpt fits8 a.after
  | .readAsRun t b => requestFits t b fits32
  | .unknownRequest t k => tagOk t && fits8 k && (decide (k = 0) || decide (0x18 < k))
  | .tagZeroFrame => true
  | .controlReceiveFault _ held => heldFits held
  | .controlFrameSent => true
  | .framePulse _ line => fits16 line
  | .pulseWindowClose _ => true
  | .rephaseWindowClose _ => true
  | .crystalFrameEnd _ => true
  | .inPhaseRunLapse _ => true
  | .referenceLabel _ l => labelFits l
  | .dayRoll _ => true
  | .switchLine _ => true
  | .confirmExpiry _ => true
  | .evPut _ c q p d => fits8 c && fits16 q && fits32 p && descFits d
  | .evSwap _ c q d => fits8 c && fits16 q && descFits d
  | .evDrop _ c q e => fits8 c && fits16 q && fits32 e
  | .chWipe _ c q => fits8 c && fits16 q
  | .batchOpen _ c q n => fits8 c && fits16 q && fits8 n
  | .batchClose _ c q => fits8 c && fits16 q
  | .base _ c q => fits8 c && fits16 q
  | .pulse _ n d ids => pulseFits n d ids
  | .unreadableRecord _ => true
  | .linkReceiveFault _ _ left => leftFits 0x5A left
  | .linkBreakDown _ => true
  | .askFillTimer _ => true
  | .gapTimeout _ => true
  | .reloadTimer _ => true
  | .batchTimeout _ => true
  | .heartbeatTimeout => true
  | .backChannelFrameSent _ => true
  | .probeRecord c p => fits8 c && labelFits p.label
  | .probeReceiveFault _ left => leftFits 0xC3 left
  | .deviceReply _ r =>
      (match r with
       | .done => true
       | .refused b => fitsOpt fits8 b
       | .state _ clip f => decide (clip.length ≤ 32) && fits24 f)
  | .deviceReceiveFault _ _ _ left => leftFits 0x96 left
  | .commandFrameSent _ => true
  | .replyTimeout _ => true
  | .portBreakDown _ => true
  | .recoveryBreakEnd _ => true
  | .probeTimerExpiry _ => true
  | .unknownRecordKind _ => true

end Sys2Proof
end

