-- ==== Sys2Proof/Safety.lean ====
section
/-! DEFINITION. What a safe run is, the bounds that every step keeps, and the words in which the statements say what a
command does. -/

namespace Sys2Proof.Machine

/-! ## Safe runs -/

/-- The part goes on: its next step answers a next state, no fault and no refusal. -/
def Safe (s : State) : Prop := ∃ t, step s = .next t

/-! ## Bounds that every step keeps -/

/-- The tags of the replies that answer a place of the request queue, in the order in which they are sent. -/
def ControlLine.owed (k : ControlLine) : List Nat :=
  let sent := match k.tx with
    | some ⟨.reply r, _⟩ => [r]
    | _ => []
  ((sent ++ k.replies).filter fun r => r.origin == .queued).map (·.tag)

/-- Chapter 9: the request queue holds at most 4 requests, those still to be carried out among them (R181, R182); the BUSY store
holds 4 replies and the notice queue 32 notices (R181, R186); the notices stand by class (R185); the transmit side is idle only
when nothing waits (R188); and the requests carried out are those whose replies are still to leave, in their order (R182; that
a request has its reply as soon as it is carried out is log entry 10). -/
structure ControlLine.Sound (k : ControlLine) : Prop where
  requests : k.requests.length + k.waiting.length ≤ 4
  waiting : ∀ c ∈ k.waiting, ∃ tag kind, c.request = some (tag, kind) ∧ 1 ≤ tag
  busy : k.busy.length ≤ 4
  notices : k.notices.length ≤ 32
  order : k.notices.Pairwise fun a b => a.kind.cls ≤ b.kind.cls
  idle : k.tx = none → k.busy = [] ∧ k.replies = [] ∧ k.notices = []
  owed : k.requests.map (·.tag) = k.owed

/-- R167: the ring holds at most 512 entries, and their indexes run on without a gap up to the running index. -/
structure AsRunLog.Sound (g : AsRunLog) : Prop where
  size : g.ring.length ≤ 512
  index : g.index < 4294967296
  run : ∀ k (h : k < g.ring.length), (g.ring[k].index + (g.ring.length - k)) % 4294967296 = g.index

/-- R69: a link's queue holds at most one record of each kind for each channel, and a link with a record waiting is
sending one. -/
structure BackLink.Sound (b : BackLink) : Prop where
  single : b.queue.Pairwise fun x y => x.sameKind y = false
  busy : b.sending = none → b.queue = []

/-- The bounds of the part's outer blocks; nothing is handed out between steps. -/
structure State.Sound (s : State) : Prop where
  ctl : s.ctl.Sound
  log : s.log.Sound
  back0 : s.back0.Sound
  back1 : s.back1.Sound
  outbox : s.plant.outbox = []

/-- R19, R22: on every channel's playlist the ids differ and are at most 1024, and all playlists together hold no more than
the pool's 4096 records. -/
structure Plant.PoolSound (p : Plant) : Prop where
  ids : ∀ c, ((p.chan c).playlist.map (·.id)).Nodup
  each : ∀ c, (p.chan c).playlist.length ≤ 1024
  all : (allChans.map fun c => (p.chan c).playlist.length).sum ≤ 4096

/-- R114, R115: every template holds at most 8 steps. -/
def Plant.TemplatesSound (p : Plant) : Prop := ∀ t (h : t < 32), p.templates[t].length ≤ 8

/-- R51, R52, R65: the hold's 256 entries, and of one channel at most 32 early and 128 deferred ones. -/
structure Plant.HoldSound (p : Plant) : Prop where
  size : p.hold.length ≤ 256
  early : ∀ c, p.holdCount c .early ≤ 32
  deferred : ∀ c, p.holdCount c .deferred ≤ 128

/-! ## What a request or an event answers -/

/-- A request with this tag enters the request queue and is carried out at once: its tag is not 0 and fits its byte, the queue
has a free place, and no request waits in it before this one (R180 to R182; the model's own `occupied`, log entry 10, is
clear). -/
def State.Admits (s : State) (tag : Nat) : Prop :=
  1 ≤ tag ∧ tag < 256 ∧ s.ctl.requests.length < 4 ∧ s.ctl.waiting = [] ∧ s.ctl.occupied = false

/-- The state after a request has been carried out with this plant, status and contents: its place in the queue is taken, its
reply made, and everything the blocks handed out is placed (R182 to R184). -/
def State.answered (s : State) (tag kind : Nat) (q : Plant) (status : Status) (content : List Byte) : State :=
  ({ s with
      plant := q
      ctl := { s.ctl with rx := [], requests := s.ctl.requests ++ [({ tag := tag, kind := kind } : QueuedRequest)] } } : State).settle
    (some { tag := tag, kind := replyKind kind, status := status, content := content, origin := .queued })

/-- The state after an event that is no request has left this plant. -/
def State.passed (s : State) (q : Plant) : State := ({ s with plant := q } : State).settle none

/-- A reply waits in the reply list, or its frame is leaving the part. -/
def ControlLine.Carries (k : ControlLine) (r : Reply) : Prop := r ∈ k.replies ∨ k.tx.map (·.item) = some (.reply r)

/-- A notice waits in the queue, or its frame is leaving the part. -/
def ControlLine.Tells (k : ControlLine) (n : Notice) : Prop := n ∈ k.notices ∨ k.tx.map (·.item) = some (.notice n)

/-- What ends when a frame has left the line (R182, R184); a notice ends nothing. -/
def TxItem.origin : TxItem → Origin
  | .reply r => r.origin
  | .notice _ => .nothing

/-! ## What the blocks hand out -/

/-- The notices handed out, in the order made. -/
def Plant.notices (p : Plant) : List Notice :=
  p.outbox.filterMap fun o => match o with
    | .notice n => some n
    | _ => none

/-- R8: the REFERENCE STATE notice of a reference as it stands. -/
def Plant.referenceNotice (p : Plant) (r : RefId) : Notice :=
  { kind := .referenceState, channel := none,
    content := u8 r.code ++ u8 (p.ref r).family.code ++ u8 (p.ref r).lock.code ++ flag (p.ref r).timeSet ++
      flag (p.ref r).faulty ++ u32 (p.ref r).station }

/-- The as-run entries handed out, in the order made. -/
def Plant.entries (p : Plant) : List AsRunItem :=
  p.outbox.filterMap fun o => match o with
    | .asRun e => some e
    | _ => none

/-- The back-channel records handed out, in the order made. -/
def Plant.records (p : Plant) : List BackRec :=
  p.outbox.filterMap fun o => match o with
    | .back r => some r
    | _ => none

/-! ## Words for chapters 2 and 3 -/

/-- What becomes of a playlist and of the pool's free records under operations carried out one after another, each against the
list as the earlier ones leave it (R29); none where one of them is refused. -/
def plAfter (v : PlEnv) : List Event → (free : Nat) → List PlOp → Option (List Event × Nat)
  | l, free, [] => some (l, free)
  | l, free, o :: os =>
    match plApply v l free o with
    | .ok r => plAfter v r.list r.free os
    | .error _ => none

/-- The same for operation lists carried out one after another, the playlist resolved after each (R50, R59, R66). -/
def plGroups (v : PlEnv) (window : Nat) : List Event → (free : Nat) → List (List PlOp) → Option (List Event × Nat)
  | l, free, [] => some (l, free)
  | l, free, g :: gs =>
    match plAfter v l free g with
    | some (l', free') => plGroups v window (resolveList window v.floor l') free' gs
    | none => none

/-- An event without what the Cue Sequencer changes of it when it takes an entry: its description and its place. -/
def Event.plan (e : Event) : Event := { e with cue := .pending, bound := none, progress := [], skipEnded := false }

/-- No command of the channel's Cue Sequencer waits in a port's slot. -/
def Plant.NoSlot (p : Plant) (c : Chan) : Prop := ∀ i k, (p.port i).slotCue ≠ some (c, k)

/-- R123: no head of the channel's queue may be taken now: its steps are not issued, or no entry queued is due. -/
def Plant.NoneDue (p : Plant) (c : Chan) : Prop :=
  (p.chan c).seq.issuing = false ∨ ∀ k ∈ (p.chan c).seq.queue, (p.chan c).now < k.due

/-- R129: a DELETE or a REPLACE of the event that a step entry stands for. -/
def PlOp.Hits (o : PlOp) (k : StepEntry) : Prop :=
  k.standing = .live ∧ (o = .delete k.event ∨ ∃ d, o = .replace d ∧ d.id = k.event)

/-- R123, R129: the operations uncover no head of the channel's queue that may be taken. -/
def Plant.Undisturbed (p : Plant) (c : Chan) (os : List PlOp) : Prop :=
  p.NoneDue c ∨ ∀ o ∈ os, ∀ k, k ∈ (p.chan c).seq.queue ∨ (∃ i, (p.port i).slotCue = some (c, k)) → ¬o.Hits k

/-- R58: the REPLICA STATE notice of a channel, with the status and sequence number of a refused record where it carries
them. -/
def Plant.replicaNotice (p : Plant) (c : Chan) (before : ReplicaState) (reason : Nat) (refused : Option (Status × Nat)) : Notice :=
  { kind := .replicaState, channel := some c,
    content := u8 before.code ++ u8 (p.chan c).replica.state.code ++ u8 reason ++ opt u8 (refused.map fun x => x.1.code) ++
      opt u16 (refused.map (·.2)) ++ opt u16 (p.chan c).replica.next ++ u8 (p.holdCount c .early) ++
      u8 (p.holdCount c .staged) ++ u8 (p.holdCount c .deferred) }

/-- R55: the plant after the channel's replica has become STALE: its hold entries are gone, its batch is closed, its gap timer
stopped, its reload timer at 0; an ASK RELOAD is made and REPLICA STATE sent. -/
def Plant.staled (p : Plant) (c : Chan) (reason : Nat) (refused : Option (Status × Nat)) : Plant :=
  let q := { p.setChan c { p.chan c with
      replica := { (p.chan c).replica with state := .stale, batch := none, gapTimer := none, reloadTimer := some 0 } } with
    hold := p.hold.filter fun h => h.channel != c }
  { q with outbox := p.outbox ++
      [.back (.askReload c), .notice (q.replicaNotice c (p.chan c).replica.state reason refused)] }

/-- The plant after the channel's next has advanced past an in-order record. -/
def Plant.stepNext (p : Plant) (c : Chan) (seq : Nat) : Plant :=
  p.setChan c { p.chan c with replica := { (p.chan c).replica with next := some ((seq + 1) % 65536) } }

/-! ## Words for chapters 5 and 6 -/

/-- No channel works with the port, and nothing but its outstanding command concerns it: no claim, empty slots. -/
structure Plant.Unshared (p : Plant) (i : PortNo) : Prop where
  claim : (p.port i).claim = []
  slotCue : (p.port i).slotCue = none
  slotPass : (p.port i).slotPass = none
  held : (p.port i).grantHeld = false
  user : ∀ c, (p.chan c).portInUse ≠ some i

/-- The same, but for one channel that may work with the port. -/
structure Plant.OnlyFor (p : Plant) (i : PortNo) (c : Chan) : Prop where
  claim : (p.port i).claim = []
  slotCue : (p.port i).slotCue = none
  slotPass : (p.port i).slotPass = none
  held : (p.port i).grantHeld = false
  user : ∀ d, d ≠ c → (p.chan d).portInUse ≠ some i

/-- R104: the PORT STATE notice of a port that stands as `x`, owned by `owner`. -/
def portNotice (i : PortNo) (x : Port) (before : PortState) (cause : Nat) (owner : Option Chan) : Notice :=
  { kind := .portState, channel := owner,
    content := u8 i.val ++ u8 x.role.code ++ u8 before.code ++ u8 x.state.code ++ u8 cause ++ chanOrNone owner ++
      opt chanOrNone (if x.role = .spare then some x.holder else none) ++ flag x.holding.isNone ++
      flag (x.holding.isNone && x.shift.isNone) ++ x.flags.bytes }

/-- A port without an outstanding command. -/
def Port.ended (x : Port) : Port := { x with outstanding := none, replyTimer := none, attempt := 1, failures := [] }

/-- R102: a port right after its entry to DOWN. -/
def Port.fallen (x : Port) : Port :=
  { x with
    state := .down, outstanding := some { cmd := .ask, requester := .probe }, replyTimer := none, attempt := 1,
    failures := [], tryTimeout := x.replyTimeout, tryRetries := x.retries, shift := some .brk,
    holding := some DevCmd.ask.frame, timeouts := 0, probeTimer := none }

/-! ## Frames -/

/-- What no work on a channel's playlist, steps, switch or ports touches: the references, the templates, the links, the
heartbeat, the pulse memory, the main day and the probe line. -/
structure Plant.Still (p q : Plant) : Prop where
  refA : q.refA = p.refA
  refB : q.refB = p.refB
  templates : q.templates = p.templates
  link0 : q.link0 = p.link0
  link1 : q.link1 = p.link1
  hbTimeout : q.hbTimeout = p.hbTimeout
  heartbeat : q.heartbeat = p.heartbeat
  pulseMem : q.pulseMem = p.pulseMem
  probeFlags : q.probeFlags = p.probeFlags
  probeRx : q.probeRx = p.probeRx
  mainDay : q.mainDay = p.mainDay

/-- The same but for one reference, which is working. -/
structure Plant.StillBut (p q : Plant) (r : RefId) : Prop where
  ref : ∀ o, o ≠ r → q.ref o = p.ref o
  rest : p.Still { q with refA := p.refA, refB := p.refB }

/-- Every channel but one stands as it stood. -/
def Plant.OtherChans (p q : Plant) (c : Chan) : Prop := ∀ d, d ≠ c → q.chan d = p.chan d

/-- Every port but one stands as it stood where the channel's Cue Sequencer has no command on it. -/
def Plant.OtherUse (p q : Plant) (c : Chan) (i : PortNo) : Prop :=
  ∀ j, j ≠ i → (∀ k, (p.port j).slotCue ≠ some (c, k)) → (∀ cmd k, (p.port j).outstanding ≠ some ⟨cmd, .cue c k⟩) →
    q.port j = p.port j

/-- Every port but one stands as it stood. -/
def Plant.OtherPorts (p q : Plant) (i : PortNo) : Prop := ∀ j, j ≠ i → q.port j = p.port j

end Sys2Proof.Machine
end

