-- ==== Sys2Proof/Certificates/Slice0/Obligations.lean ====
section
/-! DEFINITION. The statements for the provers. A statement about a command gives the state that the command leaves:
`s.answered` is the state after an answered request and `s.passed` that after any other event (Safety.lean). -/

open Sys2Proof Sys2Proof.Machine

/-! ## The whole command set -/

/-- The model's step (log entry 1): the command at the front of the queue is carried out on the queue's rest. -/
def Obligations.StepRunsFrontCommand : Prop :=
  ∀ (c : Instr) (rest : List Instr) (s : State), step { s with pending := c :: rest } = exec c { s with pending := rest }

/-- Every command has an effect in every state, and none touches the commands that wait behind it. -/
def Obligations.EveryCommandAnswersNext : Prop :=
  (∀ (c : Instr) (s : State), ∃ t, exec c s = .next t ∧ t.pending = s.pending) ∧ ∀ s : State, Safe s

/-- R183: a reply with a refusing status follows a request that has changed no state of the part, and carries the status
alone. An accepted PASS THROUGH is not answered when it is carried out (R184), and RESET PART answers by R190. -/
def Obligations.RefusalChangesNothing : Prop :=
  ∀ (c : Instr) (tag kind : Nat) (s : State), c.request = some (tag, kind) → s.Admits tag →
    (∃ q u b, exec c s = .next (s.answered tag kind q u b) ∧ (u.success = false → q = s.plant ∧ b = [])) ∨
    (∃ i k q, (∃ a, c = .passThrough tag (.sound a) ∧ portOf a.port = some i ∧ passCommand a.kind a.arg = some k) ∧
      exec c s = .next (({ s with
        plant := q, ctl := { s.ctl with rx := [], passTable := s.ctl.passTable.set i.val (some tag) } } : State).settle none)) ∨
    c = .resetPart tag (.sound ())

/-- R181, R182: a request that arrives while the queue holds 4 is answered BUSY and is not carried out, and the reply is lost where
the BUSY store holds 4; one that arrives while another waits, or while the interface is occupied, takes the queue's tail. The idle
step carries the oldest waiting request out against the state as it then stands; what waits behind it still waits, but behind
RESET PART, which empties the queue (R190). The idle step, and `occupied` with its free value, are the model's (log entries 1 and
10). -/
def Obligations.RequestsTakeTheirTurn : Prop :=
  (∀ (c : Instr) (tag kind : Nat) (s : State), c.request = some (tag, kind) → 1 ≤ tag →
    (4 ≤ s.ctl.requests.length + s.ctl.waiting.length →
      (s.ctl.busy.length < 4 →
        exec c s = .next { s with ctl := ControlLine.kick { s.ctl with
          rx := []
          busy := s.ctl.busy ++
            [({ tag := tag, kind := replyKind kind, status := .busy, content := [], origin := .nothing } : Reply)] } }) ∧
      (4 ≤ s.ctl.busy.length → exec c s = .next { s with ctl := { s.ctl with rx := [] } })) ∧
    (s.ctl.requests.length + s.ctl.waiting.length < 4 → s.ctl.waiting ≠ [] ∨ s.ctl.occupied = true →
      exec c s = .next { s with ctl := { s.ctl with rx := [], waiting := s.ctl.waiting ++ [c] } })) ∧
  (∀ (c : Instr) (rest : List Instr) (s t : State), s.pending = [] → s.ctl.waiting = c :: rest →
    exec c { s with ctl := { s.ctl with waiting := [], occupied := false } } = .next t →
    ((∀ tag, c ≠ .resetPart tag (.sound ())) →
      step s = .next { t with ctl := { t.ctl with waiting := rest, rx := s.ctl.rx } }) ∧
    (∀ tag, c = .resetPart tag (.sound ()) → step s = .next t)) ∧
  (∀ s : State, s.pending = [] → s.ctl.waiting = [] →
    ∃ b, step s = .next { s with ctl := { s.ctl with occupied := b, free := s.ctl.free + 1 } })

/-- R180: a frame of tag 0 is no request; a request of an unknown kind and a body that has not the form of its kind are
answered BAD_ARGUMENT before every other check, and nothing else changes. -/
def Obligations.FormIsJudgedFirst : Prop :=
  (∀ s : State, exec .tagZeroFrame s = .next { s with ctl := { s.ctl with rx := [] } }) ∧
  (∀ (c : Instr) (kind : Nat) (s : State), c.request = some (0, kind) → exec c s = .next { s with ctl := { s.ctl with rx := [] } }) ∧
  (∀ (tag kind : Nat) (s : State), s.Admits tag →
    exec (.unknownRequest tag kind) s = .next (s.answered tag kind s.plant .badArgument [])) ∧
  (∀ (c : Instr) (tag kind : Nat) (s : State), c.request = some (tag, kind) → s.Admits tag →
    c ∈ [.resetPart tag .faulty, .setReference tag .faulty, .setLinks tag .faulty, .replicaReset tag .faulty,
      .editEventInsert tag .faulty, .editEventReplace tag .faulty, .editEventDelete tag .faulty, .readPlaylist tag .faulty,
      .readWatch tag .faulty, .setPort tag .faulty, .passThrough tag .faulty, .setTemplate tag .faulty, .halt tag .faulty,
      .resume tag .faulty, .setChannel tag .faulty, .clearChannel tag .faulty, .take tag .faulty, .confirm tag .faulty,
      .veto tag .faulty, .abortTake tag .faulty, .readChannel tag .faulty, .returnToMain tag .faulty,
      .cancelReturn tag .faulty, .adopt tag .faulty, .release tag .faulty, .readAsRun tag .faulty] →
    exec c s = .next (s.answered tag kind s.plant .badArgument []))

/-! ## Bounds -/

/-- R181, R182, R185, R186, R188, R167, R69: the request queue, the BUSY store, the notice queue, the replies still owed, the
as-run ring and the back-channel queues keep their bounds at every step. (That a request carried out has its reply at once, so
that the queued requests are those whose replies are still to leave, is the model's, log entry 10.) -/
def Obligations.StepKeepsOuterBounds : Prop := ∀ s t : State, s.Sound → step s = .next t → t.Sound

/-- R19, R22: the pool and the playlists keep their bounds, and no playlist ever holds two events of one id. -/
def Obligations.StepKeepsPool : Prop := ∀ s t : State, s.plant.PoolSound → step s = .next t → t.plant.PoolSound

/-- R51, R52, R65: the replication hold keeps its bounds. -/
def Obligations.StepKeepsHold : Prop := ∀ s t : State, s.plant.HoldSound → step s = .next t → t.plant.HoldSound

/-- R114: every template keeps to at most 8 steps, and no command but SET TEMPLATE, RESET PART and power-on changes one. -/
def Obligations.StepKeepsTemplates : Prop :=
  (∀ s t : State, s.plant.TemplatesSound → step s = .next t → t.plant.TemplatesSound) ∧
  ∀ (c : Instr) (s t : State), exec c s = .next t → c ≠ .powerOn → (∀ tag a, c ≠ .setTemplate tag (.sound a)) →
    (∀ tag, c ≠ .resetPart tag (.sound ())) → t.plant.templates = s.plant.templates

/-! ## Power-on and RESET PART -/

/-- The starting state of every block, in the values that R18, R44, R71, R92, R113, R135, R159, R178 and R191 give, reached by
power-on from every state; the commands that wait in the model's queue stand, and so do its two counters of free choices (log
entries 1 and 2). The bounds that every step keeps hold of it. -/
def Obligations.PowerOnStartsEveryBlock : Prop :=
  (State.reset.Sound ∧ State.reset.plant.PoolSound ∧ State.reset.plant.HoldSound ∧ State.reset.plant.TemplatesSound) ∧
  (∀ s : State, ∃ t, exec .powerOn s = .next t ∧ t.pending = s.pending ∧ t.ctl = { ControlLine.reset with free := s.ctl.free } ∧
    t.plant = { Plant.reset with free := s.plant.free } ∧ t.back0 = .reset ∧ t.back1 = .reset ∧ t.log = .reset) ∧
  (∀ r, (State.reset.plant.ref r).configured = false ∧ (State.reset.plant.ref r).family = .f25 ∧
    (State.reset.plant.ref r).lock = .lost ∧ (State.reset.plant.ref r).miss = 3 ∧ (State.reset.plant.ref r).run = 0 ∧
    (State.reset.plant.ref r).station = 0 ∧ (State.reset.plant.ref r).timeSet = false ∧
    (State.reset.plant.ref r).offset = none ∧ (State.reset.plant.ref r).offsetRun = 0 ∧
    (State.reset.plant.ref r).faulty = false) ∧
  (∀ l, (State.reset.plant.link l).state = .unknown ∧ (State.reset.plant.link l).flags = .clear ∧
    (State.reset.plant.link l).divisor = 16 ∧ (State.reset.plant.link l).parity = .none) ∧
  (State.reset.plant.hold = [] ∧ State.reset.plant.hbTimeout = 1000 ∧ State.reset.plant.heartbeat = .stopped ∧
    State.reset.plant.pulseMem = none ∧ State.reset.plant.probeFlags = .clear ∧ State.reset.plant.mainDay = none ∧
    State.reset.plant.spareQueue = [] ∧ State.reset.plant.freeRecords = 4096) ∧
  (∀ i, (State.reset.plant.port i).role = .off ∧ (State.reset.plant.port i).state = .off ∧
    (State.reset.plant.port i).divisor = 40 ∧ (State.reset.plant.port i).parity = .none ∧
    (State.reset.plant.port i).replyTimeout = 20 ∧ (State.reset.plant.port i).retries = 0 ∧
    (State.reset.plant.port i).preroll = 0 ∧ (State.reset.plant.port i).bothEmpty = true ∧
    (State.reset.plant.port i).flags = .clear ∧ (State.reset.plant.port i).outstanding = none ∧
    (State.reset.plant.port i).timeouts = 0 ∧ (State.reset.plant.port i).slotCue = none ∧
    (State.reset.plant.port i).slotPass = none ∧ (State.reset.plant.port i).claim = [] ∧
    (State.reset.plant.port i).probeTimer = none ∧ (State.reset.plant.port i).holder = none) ∧
  (∀ c, (State.reset.plant.chan c).mode = .idle ∧ (State.reset.plant.chan c).config = none ∧
    (State.reset.plant.chan c).switch = .main ∧ (State.reset.plant.chan c).pendingSw = [] ∧
    (State.reset.plant.chan c).portInUse = none ∧ (State.reset.plant.chan c).confirm = none ∧
    (State.reset.plant.chan c).takeRec = none ∧ (State.reset.plant.chan c).returnRec = none ∧
    (State.reset.plant.chan c).adoption = none ∧ (State.reset.plant.chan c).release = none ∧
    (State.reset.plant.chan c).openEntry = none ∧ (State.reset.plant.chan c).now = 0 ∧
    (State.reset.plant.chan c).baseDay = 0 ∧ (State.reset.plant.chan c).playlist = [] ∧
    (State.reset.plant.chan c).watch = .reset ∧ (State.reset.plant.chan c).replica = .reset ∧
    (State.reset.plant.chan c).seq.queue = [] ∧ (State.reset.plant.chan c).seq.last = none ∧
    (State.reset.plant.chan c).seq.halted = false) ∧
  (∀ t (h : t < 32), State.reset.plant.templates[t] = []) ∧
  (State.reset.ctl.requests = [] ∧ State.reset.ctl.busy = [] ∧ State.reset.ctl.replies = [] ∧ State.reset.ctl.notices = [] ∧
    State.reset.ctl.tx = none ∧ State.reset.ctl.waiting = [] ∧ State.reset.ctl.occupied = false ∧ State.reset.ctl.missedPart = false ∧
    (∀ i : PortNo, State.reset.ctl.passTable[i.val] = none) ∧ ∀ c : Chan, State.reset.ctl.missed[c.val] = false) ∧
  (State.reset.log.ring = [] ∧ State.reset.log.index = 0)

/-- R174, R189, R190 (with R18, R44, R71, R113, R135, R159): RESET PART leaves every switch where it stands. A channel at MAIN
comes up IDLE; one at LOCAL or FILLER comes up ORPHANED with its configuration, now and base day, and its ASK RELOAD stands on
both links, in increasing order of the channels (log entry 62). A reference that no orphan keeps begins anew at line 1 (log
entries 28 and 48); one that it keeps keeps the label of the frame in progress too (90); an orphan's port in use is its primary
port (log entry 48). The reply begins at once, listing the orphans; the request queue and every other store are empty. -/
def Obligations.ResetPartKeepsSwitches : Prop :=
  ∀ (tag : Nat) (s : State), s.Admits tag →
    ∃ t, exec (.resetPart tag (.sound ())) s = .next t ∧ t.pending = s.pending ∧
      (∀ c, (t.plant.chan c).switch = (s.plant.chan c).switch) ∧
      (∀ c, (s.plant.chan c).switch = .main → t.plant.chan c = Channel.reset) ∧
      (∀ c, (s.plant.chan c).switch ≠ .main →
        (t.plant.chan c).mode = .orphaned ∧ (t.plant.chan c).config = (s.plant.chan c).config ∧
        (t.plant.chan c).now = (s.plant.chan c).now ∧ (t.plant.chan c).baseDay = (s.plant.chan c).baseDay ∧
        (t.plant.chan c).portInUse = s.plant.primary c ∧ (t.plant.chan c).playlist = [] ∧
        (t.plant.chan c).watch = .reset ∧ (t.plant.chan c).replica = { Replica.reset with reloadTimer := some 0 } ∧
        (t.plant.chan c).seq = .reset ∧ (t.plant.chan c).pendingSw = [] ∧ (t.plant.chan c).confirm = none ∧
        (t.plant.chan c).takeRec = none ∧ (t.plant.chan c).returnRec = none ∧ (t.plant.chan c).adoption = none ∧
        (t.plant.chan c).release = none ∧ (t.plant.chan c).openEntry = none) ∧
      (∀ r, ((∃ c g, (s.plant.chan c).switch ≠ .main ∧ s.plant.config c = some g ∧ g.reference = r) →
          t.plant.ref r = s.plant.ref r) ∧
        ((∀ c g, (s.plant.chan c).switch ≠ .main → s.plant.config c = some g → g.reference ≠ r) →
          t.plant.ref r = Reference.reset)) ∧
      (∀ i, t.plant.port i = Port.reset) ∧ (∀ k (h : k < 32), t.plant.templates[k] = []) ∧
      (∀ l, t.plant.link l = Link.reset) ∧ t.plant.hold = [] ∧ t.plant.spareQueue = [] ∧ t.plant.hbTimeout = 1000 ∧
      t.plant.heartbeat = .stopped ∧ t.plant.pulseMem = none ∧ t.plant.mainDay = none ∧ t.plant.probeFlags = .clear ∧
      t.log = .reset ∧
      (∀ orphans : List Chan, orphans = allChans.filter (fun c => (s.plant.chan c).switch != .main) →
        (orphans = [] → t.back0 = ⟨[], none⟩) ∧
        (∀ c rest, orphans = c :: rest →
          t.back0 = ⟨rest.map BackRec.askReload, some (.askReload c, (BackRec.askReload c).frame)⟩)) ∧ t.back1 = t.back0 ∧
      t.ctl.requests = [] ∧ t.ctl.waiting = [] ∧ t.ctl.busy = [] ∧ t.ctl.replies = [] ∧ t.ctl.notices = [] ∧
      (∀ i : PortNo, t.ctl.passTable[i.val] = none) ∧ (∀ c : Chan, t.ctl.missed[c.val] = false) ∧ t.ctl.missedPart = false ∧
      t.ctl.tx.map (·.item) = some (.reply
        { tag := tag, kind := 0x98, status := .ok, origin := .nothing,
          content := items (fun c : Chan => u8 c.val ++ u8 (s.plant.chan c).switch.code)
            (allChans.filter fun c => (s.plant.chan c).switch != .main) })

/-! ## The control line -/

/-- R182, R184, R188: when a frame has left the line, what it answered is no longer pending, and the next frame is the oldest
BUSY reply, else the oldest reply, else the head notice; on an idle line there is no frame to leave and nothing changes (log entry
13). R179: a receive fault discards the frame being gathered, and the bytes behind its SYNC, which the command carries (log entry
29), are hunted again: a byte that begins no good frame is passed over, a good frame is judged as R180 and R181 say and its
request waits for its turn (log entry 10), and what is left is being gathered. Nothing else changes. -/
def Obligations.ControlLineEvents : Prop :=
  (∀ (f : ControlFault) (s : State), exec (.controlReceiveFault f []) s = .next { s with ctl := { s.ctl with rx := [] } }) ∧
  (∀ (f : ControlFault) (b : Byte) (rest : List Byte) (s : State),
    b ≠ 0xA5 ∨
      (∃ h l more, rest = h :: l :: more ∧ 1024 < h.toNat * 256 + l.toNat) ∨
      (∃ h l tag kind body x y more, rest = h :: l :: tag :: kind :: (body ++ x :: y :: more) ∧
        body.length = h.toNat * 256 + l.toNat ∧ body.length ≤ 1024 ∧
        u16 (crc16 (h :: l :: tag :: kind :: body)).toNat ≠ [x, y]) →
    exec (.controlReceiveFault f (b :: rest)) s = exec (.controlReceiveFault f rest) s) ∧
  (∀ (f : ControlFault) (rest : List Byte) (s : State),
    rest.length < 2 ∨
      (∃ h l more, rest = h :: l :: more ∧ h.toNat * 256 + l.toNat ≤ 1024 ∧ more.length < h.toNat * 256 + l.toNat + 4) →
    exec (.controlReceiveFault f (0xA5 :: rest)) s = .next { s with ctl := { s.ctl with rx := 0xA5 :: rest } }) ∧
  (∀ (f : ControlFault) (tag kind : Nat) (body rest : List Byte) (s : State) (k : ControlLine), tag < 256 → kind < 256 →
    body.length ≤ 1024 →
    (tag = 0 ∧ k = s.ctl) ∨
      (1 ≤ tag ∧ s.ctl.requests.length + s.ctl.waiting.length < 4 ∧
        k = { s.ctl with waiting := s.ctl.waiting ++ [requestOf tag kind body] }) ∨
      (1 ≤ tag ∧ 4 ≤ s.ctl.requests.length + s.ctl.waiting.length ∧ s.ctl.busy.length < 4 ∧
        k = ControlLine.kick { s.ctl with busy := s.ctl.busy ++
          [({ tag := tag, kind := replyKind kind, status := .busy, content := [], origin := .nothing } : Reply)] }) ∨
      (1 ≤ tag ∧ 4 ≤ s.ctl.requests.length + s.ctl.waiting.length ∧ 4 ≤ s.ctl.busy.length ∧ k = s.ctl) →
    exec (.controlReceiveFault f (controlFrame tag kind body ++ rest)) s = exec (.controlReceiveFault f rest) { s with ctl := k }) ∧
  (∀ s : State, s.ctl.tx = none → exec .controlFrameSent s = .next s) ∧
  ∀ (x : Sending) (s : State), s.ctl.tx = some x → ∃ t, exec .controlFrameSent s = .next t ∧
    t.plant = s.plant ∧ t.log = s.log ∧ t.back0 = s.back0 ∧ t.back1 = s.back1 ∧ t.pending = s.pending ∧
    t.ctl.rx = s.ctl.rx ∧ t.ctl.waiting = s.ctl.waiting ∧ t.ctl.occupied = s.ctl.occupied ∧
    t.ctl.missed = s.ctl.missed ∧ t.ctl.missedPart = s.ctl.missedPart ∧
    t.ctl.requests = (if x.item.origin = .queued then s.ctl.requests.tail else s.ctl.requests) ∧
    (∀ i : PortNo, t.ctl.passTable[i.val] =
      if x.item.origin = .pass i then none else s.ctl.passTable[i.val]) ∧
    (∀ r rest, s.ctl.busy = r :: rest →
      t.ctl.tx = some ⟨.reply r, (TxItem.reply r).frame⟩ ∧ t.ctl.busy = rest ∧ t.ctl.replies = s.ctl.replies ∧
        t.ctl.notices = s.ctl.notices) ∧
    (∀ r rest, s.ctl.busy = [] → s.ctl.replies = r :: rest →
      t.ctl.tx = some ⟨.reply r, (TxItem.reply r).frame⟩ ∧ t.ctl.busy = [] ∧ t.ctl.replies = rest ∧
        t.ctl.notices = s.ctl.notices) ∧
    (∀ n rest, s.ctl.busy = [] → s.ctl.replies = [] → s.ctl.notices = n :: rest →
      t.ctl.tx = some ⟨.notice n, (TxItem.notice n).frame⟩ ∧ t.ctl.busy = [] ∧ t.ctl.replies = [] ∧ t.ctl.notices = rest) ∧
    (s.ctl.busy = [] → s.ctl.replies = [] → s.ctl.notices = [] →
      t.ctl.tx = none ∧ t.ctl.busy = [] ∧ t.ctl.replies = [] ∧ t.ctl.notices = [])

/-- R185, R186: a notice joins the queue behind every notice of its own class or a higher one and ahead of every notice of a
lower one; a full queue of 32 loses one notice, the new one or the youngest of the lowest class, and its flag is set. -/
def Obligations.NoticeJoinsByClass : Prop :=
  ∀ (k : ControlLine) (n : Notice), k.notices.Pairwise (fun a b => a.kind.cls ≤ b.kind.cls) →
    (k.notices.length < 32 → ∃ ahead behind, k.notices = ahead ++ behind ∧ (k.enqueue n).notices = ahead ++ n :: behind ∧
      (∀ m ∈ ahead, m.kind.cls ≤ n.kind.cls) ∧ (∀ m ∈ behind, n.kind.cls < m.kind.cls) ∧
      (k.enqueue n).missed = k.missed ∧ (k.enqueue n).missedPart = k.missedPart) ∧
    (∀ last, k.notices.length = 32 → k.notices.getLast? = some last →
      (∀ m ∈ k.notices, m.kind.cls ≤ last.kind.cls) ∧ (k.enqueue n).notices.length = 32 ∧
      (last.kind.cls ≤ n.kind.cls → (k.enqueue n).notices = k.notices) ∧
      (n.kind.cls < last.kind.cls → (k.enqueue n).notices = insertNotice n k.notices.dropLast) ∧
      (∀ lost : Notice, lost = (if last.kind.cls ≤ n.kind.cls then n else last) →
        (∀ c, lost.channel = some c → (k.enqueue n).missed = k.missed.set c.val true ∧ (k.enqueue n).missedPart = k.missedPart) ∧
        (lost.channel = none → (k.enqueue n).missedPart = true ∧ (k.enqueue n).missed = k.missed)))

/-- R167: a full ring drops its oldest entry as the new one joins; the entry takes the running index, which then increases by
1, wrapping from 4,294,967,295 to 0; appending changes nothing else of the part, and no notice is made. -/
def Obligations.AsRunRingTakesEntries : Prop :=
  (∀ (g : AsRunLog) (x : AsRunItem), g.ring.length ≤ 512 → g.index < 4294967296 →
    (g.append x).ring.length ≤ 512 ∧
    (g.append x).ring = (if g.ring.length = 512 then g.ring.tail else g.ring) ++ [{ index := g.index, item := x }] ∧
    (g.index < 4294967295 → (g.append x).index = g.index + 1) ∧ (g.index = 4294967295 → (g.append x).index = 0)) ∧
  ∀ (b : Bool) (s : State) (x : AsRunItem), s.deliver b (.asRun x) = { s with log := s.log.append x }

/-- R43, R91, R158, R168: the four reads are answered OK with what they read, and change nothing but what they clear: READ WATCH
the channel's change flags and the probe line's flags, READ CHANNEL the channel's missed-notice flag and the part-wide one. The
first three are refused a channel above 15, and READ PLAYLIST a starting event that is not on the playlist; READ ASRUN is never
refused. (The value that READ WATCH gives for the warm-up parameter of an IDLE channel is free, log entry 7. The widths of a
length and of a count of free records, and the codings of the READ WATCH and READ CHANNEL bodies where R192 leaves them open, are
the model's, log entries 41, 45, 46 and 60.) -/
def Obligations.ReadsChangeOnlyWhatTheyClear : Prop :=
  (∀ (tag n start : Nat) (s : State), s.Admits tag → 15 < n →
    exec (.readPlaylist tag (.sound ⟨n, start⟩)) s = .next (s.answered tag 0x05 s.plant .noSuchChannel []) ∧
    exec (.readWatch tag (.sound n)) s = .next (s.answered tag 0x06 s.plant .noSuchChannel []) ∧
    exec (.readChannel tag (.sound n)) s = .next (s.answered tag 0x12 s.plant .noSuchChannel [])) ∧
  (∀ (tag start : Nat) (c : Chan) (s : State), s.Admits tag → start ≠ 0 →
    (∀ e ∈ (s.plant.chan c).playlist, e.id ≠ start) →
    exec (.readPlaylist tag (.sound ⟨c.val, start⟩)) s = .next (s.answered tag 0x05 s.plant .noSuchEvent [])) ∧
  (∀ (tag : Nat) (a : ReadPlaylistArgs) (c : Chan) (l : List Event) (s : State), s.Admits tag → chanOf a.channel = some c →
    (a.start = 0 ∧ l = (s.plant.chan c).playlist ∨
      a.start ≠ 0 ∧ (∃ e ∈ (s.plant.chan c).playlist, e.id = a.start) ∧ l = eventsAfter (s.plant.chan c).playlist a.start) →
    exec (.readPlaylist tag (.sound a)) s = .next (s.answered tag 0x05 s.plant .ok
      (u16 (s.plant.chan c).playlist.length ++ u16 s.plant.freeRecords ++ s.plant.ctfBytes c (s.plant.chan c).now ++
        items (s.plant.listedBytes c) (l.take 8) ++ flag (decide (8 < l.length))))) ∧
  (∀ (tag n : Nat) (c : Chan) (s : State), s.Admits tag → chanOf n = some c →
    ∃ q, exec (.readWatch tag (.sound n)) s = .next (s.answered tag 0x06 q .ok (s.plant.watchBytes c)) ∧
      q.chan c = { s.plant.chan c with watch := { (s.plant.chan c).watch with change := .empty } } ∧ q.probeFlags = .clear ∧
      { q with chans := s.plant.chans, probeFlags := s.plant.probeFlags, free := s.plant.free } = s.plant ∧
      s.plant.OtherChans q c) ∧
  (∀ (tag n : Nat) (c : Chan) (s : State), s.Admits tag → chanOf n = some c → s.plant.outbox = [] →
    ∃ q t, exec (.readChannel tag (.sound n)) s = .next t ∧ t = s.answered tag 0x12 q .ok
        (s.plant.readHead c ++ s.plant.readTail c ++ flag s.ctl.missed[c.val] ++ flag s.ctl.missedPart) ∧
      t.plant = s.plant ∧ t.ctl.missed = s.ctl.missed.set c.val false ∧ t.ctl.missedPart = false ∧ t.log = s.log ∧
      t.back0 = s.back0 ∧ t.back1 = s.back1) ∧
  (∀ (tag start : Nat) (s : State), s.Admits tag →
    exec (.readAsRun tag (.sound start)) s = .next (s.answered tag 0x17 s.plant .ok (s.log.readBytes start)))

/-- R69: a record made takes the tail of each queue, or the place of the waiting record of its kind and channel; a frame that has
left the link makes room for the head of its queue. -/
def Obligations.BackChannelSendsInOrder : Prop :=
  (∀ (r : BackRec) (l : List BackRec), l.Pairwise (fun x y => x.sameKind y = false) →
    (∀ ahead k behind, l = ahead ++ k :: behind → r.sameKind k = true → putRecord r l = ahead ++ r :: behind) ∧
    ((∀ k ∈ l, r.sameKind k = false) → putRecord r l = l ++ [r])) ∧
  (∀ (b : BackLink) (r : BackRec) (x : BackRec × List Byte), b.sending = some x →
    b.put r = { b with queue := putRecord r b.queue }) ∧
  (∀ (l : LinkId) (s : State), ∃ t, exec (.backChannelFrameSent l) s = .next t ∧ t.plant = s.plant ∧ t.ctl = s.ctl ∧
    t.log = s.log ∧ t.pending = s.pending ∧
    (l = .l0 → t.back1 = s.back1 ∧ (∀ r rest, s.back0.queue = r :: rest → t.back0 = ⟨rest, some (r, r.frame)⟩) ∧
      (s.back0.queue = [] → t.back0 = ⟨[], none⟩)) ∧
    (l = .l1 → t.back0 = s.back0 ∧ (∀ r rest, s.back1.queue = r :: rest → t.back1 = ⟨rest, some (r, r.frame)⟩) ∧
      (s.back1.queue = [] → t.back1 = ⟨[], none⟩)))

/-! ## The timebase (chapter 1) -/

/-- R2, whole: refusals, a family already in force, and a new family, which sends REFERENCE STATE where it changes what R8 names
but for a leave from REPHASING (log entry 16); the reply's contents; and no other part of the plant changes. -/
def Obligations.SetReferenceFollowsR2 : Prop :=
  ∀ (tag : Nat) (a : SetReferenceArgs) (s : State), s.Admits tag →
    (1 < a.reference ∨ 3 < a.family →
      exec (.setReference tag (.sound a)) s = .next (s.answered tag 0x01 s.plant .badArgument [])) ∧
    ∀ r f, RefId.ofCode a.reference = some r → Family.ofCode a.family = some f →
      ((s.plant.ref r).family = f → ∃ q, q = s.plant.setRef r { s.plant.ref r with configured := true } ∧
        exec (.setReference tag (.sound a)) s = .next (s.answered tag 0x01 q .ok (q.referenceBytes r))) ∧
      ((s.plant.ref r).family ≠ f →
        ((∃ c g, s.plant.config c = some g ∧ g.reference = r ∧ (s.plant.chan c).mode ≠ .idle) →
          exec (.setReference tag (.sound a)) s = .next (s.answered tag 0x01 s.plant .wrongMode [])) ∧
        ((∀ c g, s.plant.config c = some g → g.reference = r → (s.plant.chan c).mode = .idle) →
          ∃ q, exec (.setReference tag (.sound a)) s = .next (s.answered tag 0x01 q .ok (q.referenceBytes r)) ∧
            (q.ref r).family = f ∧ (q.ref r).configured = true ∧ (q.ref r).lock = .lost ∧ (q.ref r).miss = 3 ∧
            (q.ref r).run = 0 ∧ (q.ref r).station = 0 ∧ (q.ref r).timeSet = false ∧ (q.ref r).offset = none ∧
            (q.ref r).offsetRun = 0 ∧ (q.ref r).faulty = false ∧ (q.ref r).line = 1 ∧ (q.ref r).raised = 0 ∧
            (∀ o, o ≠ r → q.ref o = s.plant.ref o) ∧
            { q with refA := s.plant.refA, refB := s.plant.refB, outbox := s.plant.outbox } = s.plant ∧
            q.notices = s.plant.notices ++
              (if (s.plant.ref r).lock = .locked ∨ (s.plant.ref r).timeSet = true ∨ (s.plant.ref r).faulty = true then
                [q.referenceNotice r] else [])))

/-- R10 to R12, R16: in every family the label of each count of the day is a valid label, never a dropped one, and counts back to
that count; each valid label that is not dropped is the label of its count; a dropped label moves forward to the first label of its
minute that is not dropped, and has that label's count (DEDUCED, log entry 15). A CTF of the window, reported as a day number and a
label, is read back as the same CTF, and a day outside the four days of the window gives none. -/
def Obligations.LabelsCountsAndCtfsAgree : Prop :=
  ∀ f : Family,
    (∀ c, c < f.fpd → (labelOf f c).valid f = true ∧ (labelOf f c).dropped f = false ∧ (labelOf f c).count f = c) ∧
    (∀ l : Label, l.valid f = true → l.dropped f = false → l.count f < f.fpd ∧ labelOf f (l.count f) = l) ∧
    (∀ l : Label, l.valid f = true →
      (l.moved f).valid f = true ∧ (l.moved f).dropped f = false ∧ (l.moved f).count f = l.count f ∧
      (l.dropped f = false → l.moved f = l) ∧
      (l.dropped f = true → l.moved f = { l with ff := f.drop } ∧ l.ss = 0 ∧ l.mm % 10 ≠ 0 ∧ l.ff < f.drop)) ∧
    ∀ base : Nat, base < 65536 →
      (∀ t, t < 4 * f.fpd → ctfOf f base (dayLabelOf f base t) = some t) ∧
      (∀ d : DayLabel, d.label.valid f = true → d.day < 65536 →
        ((∃ k, k < 4 ∧ d.day = (base + k) % 65536 ∧ ctfOf f base d = some (k * f.fpd + d.label.count f)) ∨
         ((∀ k, k < 4 → d.day ≠ (base + k) % 65536) ∧ ctfOf f base d = none)))

/-- R3 to R7: what a frame pulse does, by lock state and by its place in the frame, given in whole lines from the frame's
origin (log entry 9). Where the frame goes on, the lines before the pulse have raised their line events first (R1): what those do is
SwitchLineMakesPending, and where no switch line lies among them nothing but the reference's counters moves (and the model's own
counter of free choices). What the frame's end does to a channel's now is FrameStartMovesNow. The order of the notices at a pulse that
ends a re-phase is log entry 64. -/
def Obligations.PulseMovesLock : Prop :=
  ∀ (r : RefId) (pos : Nat) (s : State), (s.plant.ref r).line ≤ pos + 1 →
    (∀ x n m y, s.plant.ref r = x → x.family.lines = n → m = s.plant.raiseLines r (min pos n) →
      y = { x with raised := max x.raised (min pos n), line := max x.line (min pos n) } →
      (x.raised < min pos n → m.ref r = y) ∧ (min pos n ≤ x.raised → m = s.plant) ∧ s.plant.StillBut m r ∧
      (x.raised < min pos n → (∀ c g, s.plant.config c = some g → g.reference = r → (s.plant.chan c).mode = .idle ∨
          (s.plant.chan c).lineInForce ≤ x.raised ∨ min pos n < (s.plant.chan c).lineInForce) →
        ∃ k, m = { s.plant.setRef r y with free := k }) ∧
      (x.lock = .locked →
        (n ≤ pos + 8 → pos ≤ n + 8 → ∃ q, exec (.framePulse r pos) s = .next (s.passed q) ∧
          (q.ref r).lock = .locked ∧ (q.ref r).miss = 0 ∧ (q.ref r).line = 1 ∧ (q.ref r).raised = 0 ∧
          (q.ref r).label = none ∧ (q.ref r).family = x.family ∧ (q.ref r).configured = x.configured ∧
          (x.label = none → (q.ref r).station = (x.station + 1) % x.family.fpd ∧ (q.ref r).timeSet = x.timeSet) ∧
          s.plant.StillBut q r) ∧
        (pos + 8 < n → x.miss + 1 < 3 → exec (.framePulse r pos) s =
          .next (s.passed (m.setRef r { m.ref r with line := pos + 1, miss := x.miss + 1 }))) ∧
        (pos + 8 < n → 2 ≤ x.miss → ∃ q,
          q = m.setRef r { m.ref r with line := pos + 1, miss := 3, lock := .lost, run := 0, lastPulse := none } ∧
          exec (.framePulse r pos) s = .next (s.passed (q.emit (.notice (q.referenceNotice r)))))) ∧
      (x.lock = .lost → pos ≤ n → ∀ k,
        ((∃ o : Int, x.lastPulse = some o ∧ o + n ≤ pos + 8 ∧ (pos : Int) ≤ o + n + 8) → k = x.run + 1) →
        ((∀ o : Int, x.lastPulse = some o → ¬(o + n ≤ pos + 8 ∧ (pos : Int) ≤ o + n + 8)) → k = 1) →
        (k ≠ 8 → exec (.framePulse r pos) s =
          .next (s.passed (m.setRef r { m.ref r with run := k, lastPulse := some pos, line := pos + 1 }))) ∧
        (k = 8 → n - pos ≤ pos → ∃ q, exec (.framePulse r pos) s = .next (s.passed q) ∧
          (q.ref r).lock = .locked ∧ (q.ref r).miss = 0 ∧ (q.ref r).line = 1 ∧ (q.ref r).raised = 0 ∧
          (q.ref r).family = x.family ∧ q.referenceNotice r ∈ q.notices ∧ s.plant.StillBut q r) ∧
        (k = 8 → pos < n - pos → exec (.framePulse r pos) s = .next (s.passed (m.setRef r
          { m.ref r with run := 8, lastPulse := some pos, line := pos + 1, lock := .rephasing,
                         predicted := pos + n })))) ∧
      (x.lock = .rephasing →
        (x.predicted ≤ pos + 8 → pos ≤ x.predicted + 8 → ∃ q, exec (.framePulse r pos) s = .next (s.passed q) ∧
          (q.ref r).lock = .locked ∧ (q.ref r).miss = 0 ∧ (q.ref r).line = 1 ∧ (q.ref r).raised = 0 ∧
          (q.ref r).family = x.family ∧ q.referenceNotice r ∈ q.notices ∧ s.plant.StillBut q r) ∧
        (pos + 8 < x.predicted → exec (.framePulse r pos) s =
          .next (s.passed (m.setRef r { m.ref r with run := 1, lastPulse := some pos, line := pos + 1 })))))

/-- R4 to R7, R13: the ends of frames that come without a pulse: the close of the pulse window while LOCKED, the close of the
re-phase window, and the crystal end of a frame while LOST, each doing nothing in another lock state (log entry 13); the lapse of
the in-phase run while LOST; and a label received, the first of a frame kept for it and a later one discarded. The run that the
close of a re-phase window leaves is log entry 17; that the missed pulse is counted after the new frame's start is log entry 18;
where the crystal end of a frame begun at a window close lies is log entry 74. -/
def Obligations.FramesEndWithoutPulse : Prop :=
  ∀ (r : RefId) (s : State) (x : Reference), s.plant.ref r = x →
    (x.lock = .locked → ∃ q, exec (.pulseWindowClose r) s = .next (s.passed q) ∧ (q.ref r).line = 9 ∧ (q.ref r).raised = 8 ∧
      (q.ref r).miss = min 3 (x.miss + 1) ∧ (q.ref r).family = x.family ∧ (q.ref r).label = none ∧
      (x.miss < 2 → (q.ref r).lock = .locked) ∧
      (2 ≤ x.miss → (q.ref r).lock = .lost ∧ (q.ref r).run = 0 ∧ q.referenceNotice r ∈ q.notices) ∧
      (x.label = none → (q.ref r).station = (x.station + 1) % x.family.fpd) ∧ s.plant.StillBut q r) ∧
    (x.lock ≠ .locked → exec (.pulseWindowClose r) s = .next (s.passed s.plant)) ∧
    (x.lock = .rephasing → ∃ q, exec (.rephaseWindowClose r) s = .next (s.passed q) ∧ (q.ref r).line = 1 ∧
      (q.ref r).raised = 0 ∧ (q.ref r).lock = .lost ∧ (q.ref r).family = x.family ∧
      (q.ref r).run = (if x.run = 8 then 0 else x.run) ∧
      (x.label = none → (q.ref r).station = (x.station + 1) % x.family.fpd) ∧ s.plant.StillBut q r) ∧
    (x.lock ≠ .rephasing → exec (.rephaseWindowClose r) s = .next (s.passed s.plant)) ∧
    (x.lock = .lost → ∃ q, exec (.crystalFrameEnd r) s = .next (s.passed q) ∧ (q.ref r).line = 1 ∧ (q.ref r).raised = 0 ∧
      (q.ref r).lock = .lost ∧ (q.ref r).miss = x.miss ∧ (q.ref r).run = x.run ∧ (q.ref r).family = x.family ∧
      (q.ref r).lastPulse = x.lastPulse.map (fun o : Int => o - x.family.lines) ∧
      (x.label = none → (q.ref r).station = (x.station + 1) % x.family.fpd) ∧ s.plant.StillBut q r) ∧
    (x.lock ≠ .lost → exec (.crystalFrameEnd r) s = .next (s.passed s.plant)) ∧
    (x.lock = .lost → exec (.inPhaseRunLapse r) s =
      .next (s.passed (s.plant.setRef r { x with run := 0, lastPulse := none }))) ∧
    (x.lock ≠ .lost → exec (.inPhaseRunLapse r) s = .next (s.passed s.plant)) ∧
    (∀ l, x.label = none → exec (.referenceLabel r l) s =
      .next (s.passed (s.plant.setRef r { x with label := some l }))) ∧
    (∀ l k, x.label = some k → exec (.referenceLabel r l) s = .next (s.passed s.plant))

/-- R13, R14: the label kept for a frame, examined at the next frame start: the first setting of station time, agreement, and the
offset that is confirmed when it has been seen in three frames running. A frame without a label, or with one out of range or
dropped, clears the offset and breaks the run (that a dropped label counts as none is log entry 15). R8, R13, R14: before the
channels of the reference take the frame start, one after another (log entry 3), REFERENCE STATE is sent where time set or labels
faulty has changed or a step has been refused. -/
def Obligations.LabelsSetStationTime : Prop :=
  (∀ (x : Reference) (allowed : Int → Bool), (∀ l, x.label = some l → l.valid x.family = false ∨ l.dropped x.family = true) →
    (x.timeSet = false → x.examine allowed = ({ x with station := (x.station + 1) % x.family.fpd }, none)) ∧
    (x.timeSet = true → x.examine allowed =
      ({ x with station := (x.station + 1) % x.family.fpd, offset := none, offsetRun := 0 }, none))) ∧
  (∀ (p : Plant) (r : RefId) (line length : Nat) (x y : Reference) (step : Option Int), p.ref r = x →
    x.examine (p.stepAllowed r) = (y, step) →
    ∃ (cs : List Chan) (m : Plant), p.frameStart r line length = cs.foldl (Plant.channelFrame step) m ∧ cs.Nodup ∧
      (∀ c, c ∈ cs ↔ (p.chan c).mode ≠ .idle ∧ ∃ g, p.config c = some g ∧ g.reference = r) ∧
      (m.ref r = { y with
        line := line, raised := 0, label := none, lastPulse := y.lastPulse.map (fun o : Int => o - length) }) ∧
      { m with refA := p.refA, refB := p.refB, free := p.free, outbox := p.outbox } = p ∧ (∀ o, o ≠ r → m.ref o = p.ref o) ∧
      m.outbox = p.outbox ++
        (if y.timeSet ≠ x.timeSet ∨ y.faulty ≠ x.faulty ∨ (x.offsetRun = 2 ∧ y.offsetRun = 3) then
          [.notice (m.referenceNotice r)] else [])) ∧
  ∀ (x : Reference) (allowed : Int → Bool) (l : Label), x.label = some l → l.valid x.family = true → l.dropped x.family = false →
    ∀ y step, x.examine allowed = (y, step) →
      (x.timeSet = false → y.timeSet = true ∧ y.station = (l.count x.family + 1) % x.family.fpd ∧ step = none) ∧
      (x.timeSet = true → (l.count x.family : Int) = x.station →
        y.offset = none ∧ y.offsetRun = 0 ∧ y.faulty = false ∧ y.station = (x.station + 1) % x.family.fpd ∧ step = none) ∧
      (x.timeSet = true → ∀ d : Int, d = (l.count x.family : Int) - x.station → d ≠ 0 →
        (x.offset ≠ some d → y.offset = some d ∧ y.offsetRun = 1 ∧ y.station = (x.station + 1) % x.family.fpd ∧ step = none) ∧
        (x.offset = some d → x.offsetRun < 2 →
          y.offset = some d ∧ y.offsetRun = x.offsetRun + 1 ∧ y.station = (x.station + 1) % x.family.fpd ∧ step = none) ∧
        (x.offset = some d → x.offsetRun = 2 →
          (-(x.family.fpd / 2 : Nat) ≤ d ∧ d ≤ (x.family.fpd / 2 : Nat) ∧ (d < 0 → allowed d = true) →
            step = some d ∧ y.offset = none ∧ y.offsetRun = 0 ∧ y.station = (l.count x.family + 1) % x.family.fpd) ∧
          (¬(-(x.family.fpd / 2 : Nat) ≤ d ∧ d ≤ (x.family.fpd / 2 : Nat) ∧ (d < 0 → allowed d = true)) →
            step = none ∧ y.offset = some d ∧ y.offsetRun = 3 ∧ y.faulty = true ∧
              y.station = (x.station + 1) % x.family.fpd)) ∧
        (x.offset = some d → 3 ≤ x.offsetRun →
          y = { x with station := (x.station + 1) % x.family.fpd } ∧ step = none))

/-- R17: a day roll moves the base day on by a day and every frame the channel holds back by one, resolves the playlist and sends
DAY ROLLED; no other channel moves. The command does nothing below twice the frames of a day (log entry 20). -/
def Obligations.DayRollShiftsChannel : Prop :=
  ∀ (c : Chan) (s : State) (d : Nat) (x : Channel), (s.plant.family c).fpd = d → s.plant.chan c = x →
    (x.mode = .idle ∨ x.now < 2 * d → exec (.dayRoll c) s = .next (s.passed s.plant)) ∧
    (x.mode ≠ .idle → 2 * d ≤ x.now → ∃ q y, exec (.dayRoll c) s = .next (s.passed q) ∧ q.chan c = y ∧
      y.now = x.now - d ∧ y.baseDay = (x.baseDay + 1) % 65536 ∧
      y.playlist = resolveList (4 * d) (x.now - d + s.plant.lead c) (x.playlist.map (Event.shift d)) ∧
      y.pendingSw.map (·.frame) = x.pendingSw.map (fun w => w.frame - d) ∧
      y.confirm = x.confirm.map (fun k => { k with deadline := k.deadline - d }) ∧
      y.takeRec = x.takeRec.map (TakeRec.shift d) ∧ y.returnRec = x.returnRec.map (ReturnRec.shift d) ∧
      y.openEntry = x.openEntry.map (fun o => { o with start := o.start - d }) ∧
      y.watch = { x.watch with lastEnded := x.watch.lastEnded.map fun m => (m.1, m.2 - d) } ∧
      y.seq.queue = x.seq.queue.map (StepEntry.shift d) ∧ y.seq.last = x.seq.last ∧ y.seq.halted = x.seq.halted ∧
      y.config = x.config ∧ y.mode = x.mode ∧ y.switch = x.switch ∧ y.replica = x.replica ∧ y.portInUse = x.portInUse ∧
      y.adoption = x.adoption ∧ y.release = x.release ∧
      (∀ i, q.port i = (s.plant.port i).shiftFor d c) ∧ q.hold = s.plant.hold ∧ q.spareQueue = s.plant.spareQueue ∧
      q.outbox = s.plant.outbox ++ [.notice ⟨.dayRolled, some c, u16 y.baseDay⟩] ∧
      s.plant.Still q ∧ s.plant.OtherChans q c)

/-- R1, R13 to R17: the commands that end a frame. The label kept for the frame is examined (LabelsSetStationTime), a negative step
only where it leaves the now of every bound channel that is not IDLE at or above FPD/2; then every such channel's now advances by 1
and by the step applied, and rolls where it reaches 2 × FPD, and no other channel's now moves. The switch lines of the ending frame
come first, so the channels bound are those that they leave. A channel's frame start begins with its now, its day roll and, at a
step, the playlist resolved anew and TIME STEP sent with the new now (R15). -/
def Obligations.FrameStartMovesNow : Prop :=
  (∀ (c : Chan) (step : Option Int) (p q : Plant) (x y : Channel) (n d : Nat) (at' : Nat → Nat → List Byte),
    (p.family c).fpd = d → p.chan c = x → x.mode ≠ .idle → (x.now : Int) + 1 + step.getD 0 = n → q = Plant.beginFrame step p c →
    (∀ day t, at' day t = dayLabelBytes (dayLabelOf (p.family c) day t)) →
    y = { x with
      now := n, pendingSw := x.pendingSw.map fun w => if w.act = .joinLocal then w else { w with frame := min w.frame n } } →
    (n < 2 * d → step = none → q = p.setChan c y) ∧
    (∀ δ, n < 2 * d → step = some δ → q =
      { p.setChan c { y with playlist := resolveList (4 * d) (n + p.lead c) x.playlist } with
        outbox := p.outbox ++ [.notice ⟨.timeStep, some c, s32 δ ++ at' x.baseDay n⟩] }) ∧
    (2 * d ≤ n → ∀ day, day = (x.baseDay + 1) % 65536 →
      (step = none → q.outbox = p.outbox ++ [.notice ⟨.dayRolled, some c, u16 day⟩]) ∧
      ∀ δ, step = some δ → q.outbox = p.outbox ++
        [.notice ⟨.dayRolled, some c, u16 day⟩, .notice ⟨.timeStep, some c, s32 δ ++ at' day (n - d)⟩])) ∧
  (∀ (c : Chan) (step : Option Int) (p : Plant) (n d : Nat), (p.family c).fpd = d → (p.chan c).mode ≠ .idle →
    ((p.chan c).now : Int) + 1 + step.getD 0 = n →
    (n < 2 * d → ((Plant.channelFrame step p c).chan c).now = n ∧
      ((Plant.channelFrame step p c).chan c).baseDay = (p.chan c).baseDay) ∧
    (2 * d ≤ n → ((Plant.channelFrame step p c).chan c).now = n - d ∧
      ((Plant.channelFrame step p c).chan c).baseDay = ((p.chan c).baseDay + 1) % 65536) ∧
    p.Still (Plant.channelFrame step p c)) ∧
  ∀ (r : RefId) (cmd : Instr) (s : State) (x : Reference) (m : Plant) (n : Nat), s.plant.ref r = x → x.family.lines = n →
    m = s.plant.raiseLines r n →
    (∃ pos, cmd = .framePulse r pos ∧ x.line ≤ pos + 1 ∧
        ((x.lock = .locked ∧ n ≤ pos + 8 ∧ pos ≤ n + 8) ∨
         (x.lock = .rephasing ∧ x.predicted ≤ pos + 8 ∧ pos ≤ x.predicted + 8) ∨
         (x.lock = .lost ∧ pos ≤ n ∧ n - pos ≤ pos ∧ x.run = 7 ∧
           ∃ o : Int, x.lastPulse = some o ∧ o + n ≤ pos + 8 ∧ (pos : Int) ≤ o + n + 8))) ∨
      (cmd = .pulseWindowClose r ∧ x.lock = .locked) ∨ (cmd = .rephaseWindowClose r ∧ x.lock = .rephasing) ∨
      (cmd = .crystalFrameEnd r ∧ x.lock = .lost) →
    ∀ allowed : Int → Bool,
      (∀ k, allowed k = true ↔ ∀ c g, m.config c = some g → g.reference = r → (m.chan c).mode ≠ .idle →
        ((x.family.fpd / 2 : Nat) : Int) ≤ ((m.chan c).now : Int) + 1 + k) →
      ∀ y step, x.examine allowed = (y, step) →
        ∃ q, exec cmd s = .next (s.passed q) ∧ (q.ref r).station = y.station ∧ (q.ref r).timeSet = y.timeSet ∧
          (q.ref r).offset = y.offset ∧ (q.ref r).offsetRun = y.offsetRun ∧ (q.ref r).faulty = y.faulty ∧
          (∀ c g (t : Nat), m.config c = some g → g.reference = r → (m.chan c).mode ≠ .idle → (q.chan c).mode ≠ .idle →
            ((s.plant.chan c).now : Int) + 1 + step.getD 0 = t →
            (t < 2 * x.family.fpd → (q.chan c).now = t ∧ (q.chan c).baseDay = (s.plant.chan c).baseDay) ∧
            (2 * x.family.fpd ≤ t → (q.chan c).now = t - x.family.fpd ∧
              (q.chan c).baseDay = ((s.plant.chan c).baseDay + 1) % 65536)) ∧
          (∀ c, (∀ g, s.plant.config c = some g → g.reference ≠ r) →
            (q.chan c).now = (s.plant.chan c).now ∧ (q.chan c).baseDay = (s.plant.chan c).baseDay)

/-! ## Replication (chapter 3) -/

/-- R48: SET LINKS. R45, R46, R47, R195: what a good frame, a record of no known kind, an unreadable record, a receive fault and a
long break do to a link, and that they touch nothing else. What a receive fault leaves being gathered is log entry 29, the flag at
a long break 30, and the place of an unreadable record's flag 31. -/
def Obligations.LinkSettingsAndEvents : Prop :=
  (∀ (tag : Nat) (a : SetLinksArgs) (s : State), s.Admits tag →
    (∀ y0 y1, Parity.ofCode a.l0.parity = some y0 → Parity.ofCode a.l1.parity = some y1 →
      1 ≤ a.l0.divisor → a.l0.divisor ≤ 65535 → 1 ≤ a.l1.divisor → a.l1.divisor ≤ 65535 →
      50 ≤ a.heartbeat → a.heartbeat ≤ 5000 →
      exec (.setLinks tag (.sound a)) s = .next (s.answered tag 0x02
        { s.plant with
          link0 := { s.plant.link0 with divisor := a.l0.divisor, parity := y0, rx := [], flags := .clear }
          link1 := { s.plant.link1 with divisor := a.l1.divisor, parity := y1, rx := [], flags := .clear }
          hbTimeout := a.heartbeat } .ok
        (u8 s.plant.link0.state.code ++ s.plant.link0.flags.bytes ++ u8 s.plant.link1.state.code ++
          s.plant.link1.flags.bytes))) ∧
    (2 < a.l0.parity ∨ 2 < a.l1.parity ∨ a.l0.divisor < 1 ∨ 65535 < a.l0.divisor ∨
        a.l1.divisor < 1 ∨ 65535 < a.l1.divisor ∨ a.heartbeat < 50 ∨ 5000 < a.heartbeat →
      exec (.setLinks tag (.sound a)) s = .next (s.answered tag 0x02 s.plant .badArgument []))) ∧
  ∀ (l : LinkId) (s : State) (k : Link), s.plant.link l = k →
    (k.state = .up → s.plant.goodFrame l = s.plant.setLink l { k with rx := [] }) ∧
    (k.state ≠ .up → s.plant.goodFrame l =
      { s.plant.setLink l { k with rx := [], state := .up, flags := .clear } with
        outbox := s.plant.outbox ++ [.notice ⟨.linkState, none, u8 l.code ++ u8 1 ++ k.flags.bytes⟩] }) ∧
    exec (.unknownRecordKind l) s = .next (s.passed (s.plant.goodFrame l)) ∧
    (∃ q, q = s.plant.goodFrame l ∧ exec (.unreadableRecord l) s =
      .next (s.passed (q.setLink l { q.link l with flags := { (q.link l).flags with check := true } }))) ∧
    (∀ f left, exec (.linkReceiveFault l f left) s =
      .next (s.passed (s.plant.setLink l { k with rx := left, flags :=
        { framing := k.flags.framing || f == .framing, parity := k.flags.parity || f == .parity,
          overrun := k.flags.overrun || f == .overrun, brk := k.flags.brk || f == .brk,
          check := k.flags.check || f == .check } }))) ∧
    (k.state = .down → exec (.linkBreakDown l) s = .next (s.passed s.plant)) ∧
    (k.state ≠ .down → exec (.linkBreakDown l) s = .next (s.passed
      { s.plant.setLink l { k with rx := [], state := .down, flags := .clear } with
        outbox := s.plant.outbox ++
          [.notice ⟨.linkState, none, u8 l.code ++ u8 2 ++ { k.flags with brk := true }.bytes⟩] }))

/-- R49, R51, R47: the classes of the sequence window, for a record that is no BASE, after its good frame: to no channel, to a
channel in IDLE, to a replica in AWAIT_BASE or STALE, old, early and too far ahead. -/
def Obligations.WindowClasses : Prop :=
  ∀ (l : LinkId) (n seq : Nat) (s : State) (p : Plant) (cmd : Instr) (r : Rec), p = s.plant.goodFrame l → seq < 65536 →
    ((∃ pred d, cmd = .evPut l n seq pred d ∧ r = .put pred d) ∨ (∃ d, cmd = .evSwap l n seq d ∧ r = .swap d) ∨
      (∃ e, cmd = .evDrop l n seq e ∧ r = .drop e) ∨ (cmd = .chWipe l n seq ∧ r = .wipe) ∨
      (∃ k, cmd = .batchOpen l n seq k ∧ r = .batchOpen k) ∨ (cmd = .batchClose l n seq ∧ r = .batchClose)) →
    (15 < n → exec cmd s = .next (s.passed p)) ∧
    ∀ (c : Chan) (x : Replica), n = c.val → x = (p.chan c).replica →
      ((p.chan c).mode = .idle ∨ x.state = .awaitBase ∨ x.state = .stale → exec cmd s = .next (s.passed p)) ∧
      ((p.chan c).mode ≠ .idle → x.state = .current ∨ x.state = .gap →
        ∀ next d, x.next = some next → next < 65536 → d = (seq + 65536 - next) % 65536 →
          (32768 ≤ d → exec cmd s = .next (s.passed p)) ∧
          (256 ≤ d → d ≤ 32767 → exec cmd s = .next (s.passed (p.staled c 4 none))) ∧
          (1 ≤ d → d ≤ 255 →
            ((∃ h ∈ p.hold, h.channel = c ∧ h.seq = seq) → exec cmd s = .next (s.passed p)) ∧
            ((∀ h ∈ p.hold, h.channel = c → h.seq ≠ seq) →
              (32 ≤ p.holdCount c .early ∨ 256 ≤ p.hold.length → exec cmd s = .next (s.passed (p.staled c 5 none))) ∧
              (p.holdCount c .early < 32 → p.hold.length < 256 → ∃ q,
                q = { p with hold := p.hold ++ [{ channel := c, seq := seq, content := r, kind := .early, mark := none }] } ∧
                (x.state = .gap → exec cmd s = .next (s.passed q)) ∧
                (x.state = .current → ∃ y,
                  y = q.setChan c { p.chan c with replica := { x with state := .gap, gapTimer := some 0 } } ∧
                  exec cmd s = .next (s.passed (y.emit (.notice (y.replicaNotice c .current 2 none)))))))))

/-- R50, R59, R64, R65, R55: an EV PUT, EV SWAP, EV DROP or CH WIPE in order, with no batch open. With no early entry waiting it
is applied at once and resolved, or refused and the replica STALE; in deferral it is kept, or finds the hold full, or overflows.
Where the operation withdraws the command in the channel's slot or drops entries of its queue and a due head is left, the Cue
Sequencer takes it (R123, DueStepsAreQueued), and only what it changes of the events is left open. With early entries waiting
(R50), those that follow without a gap are applied after it, in sequence order; where none is left the replica is CURRENT again,
with GAP_CLOSED, and else its gap timer starts again. -/
def Obligations.InOrderRecords : Prop :=
  ∀ (l : LinkId) (c : Chan) (seq : Nat) (s : State) (p m : Plant) (cmd : Instr) (r : Rec), p = s.plant.goodFrame l →
    ((∃ pred d, cmd = .evPut l c.val seq pred d ∧ r = .put pred d) ∨ (∃ d, cmd = .evSwap l c.val seq d ∧ r = .swap d) ∨
      (∃ e, cmd = .evDrop l c.val seq e ∧ r = .drop e) ∨ (cmd = .chWipe l c.val seq ∧ r = .wipe)) →
    (p.chan c).mode ≠ .idle → (p.chan c).replica.next = some seq → seq < 65536 → (p.chan c).replica.batch = none →
    m = p.stepNext c seq →
    ((p.chan c).replica.state = .current → p.holdCount c .early = 0 → (p.chan c).mode.deferral = false →
      (∀ st, plApply (p.plEnv c) (p.chan c).playlist p.freeRecords r.op = .error st →
        exec cmd s = .next (s.passed (m.staled c 7 (some (st, seq))))) ∧
      (∀ done, plApply (p.plEnv c) (p.chan c).playlist p.freeRecords r.op = .ok done →
        ∃ q, exec cmd s = .next (s.passed q) ∧
          (q.chan c).playlist.map Event.plan =
            (resolveList (4 * (p.family c).fpd) ((p.chan c).now + p.lead c) done.list).map Event.plan ∧
          (q.chan c).replica = { (p.chan c).replica with next := some ((seq + 1) % 65536) } ∧
          q.hold = p.hold ∧ q.spareQueue = p.spareQueue ∧ p.outbox <+: q.outbox ∧ p.Still q ∧
          (p.Undisturbed c [r.op] →
            (q.chan c).playlist = resolveList (4 * (p.family c).fpd) ((p.chan c).now + p.lead c) done.list ∧
            { q.chan c with playlist := [], replica := .reset, seq := .reset, watch := .reset } =
              { p.chan c with playlist := [], replica := .reset, seq := .reset, watch := .reset } ∧
            q.outbox = p.outbox ∧ p.OtherChans q c))) ∧
    ((p.chan c).replica.state = .current → p.holdCount c .early = 0 → (p.chan c).mode.deferral = true →
      (p.holdCount c .deferred < 128 → p.hold.length < 256 → exec cmd s = .next (s.passed
        { m with hold := p.hold ++ [{ channel := c, seq := seq, content := r, kind := .deferred, mark := none }] })) ∧
      (128 ≤ p.holdCount c .deferred → p.hold.length < 256 → exec cmd s = .next (s.passed (m.staled c 10 none))) ∧
      (256 ≤ p.hold.length → exec cmd s = .next (s.passed (m.staled c 5 none)))) ∧
    ((p.chan c).replica.state = .gap → (p.chan c).mode.deferral = false → p.PoolSound →
      ∀ (behind left : List HoldEntry) (list : List Event) (free : Nat),
        left = p.hold.filter (fun h => h.channel == c && h.kind == .early && !behind.contains h) →
        (∀ k (h : k < behind.length), behind[k] ∈ p.hold ∧ behind[k].channel = c ∧ behind[k].kind = .early ∧
          behind[k].seq = (seq + 1 + k) % 65536 ∧
          ((∃ pred d, behind[k].content = .put pred d) ∨ (∃ d, behind[k].content = .swap d) ∨ (∃ e, behind[k].content = .drop e) ∨
            behind[k].content = .wipe)) →
        (∀ h ∈ p.hold, h.channel = c → h.kind = .early → ∀ k ∈ behind, h.seq = k.seq → h = k) →
        (∀ h ∈ left, h.seq ≠ (seq + 1 + behind.length) % 65536) → behind.length < 65536 →
        p.Undisturbed c (r.op :: behind.map fun h => h.content.op) →
        plGroups (p.plEnv c) (4 * (p.family c).fpd) (p.chan c).playlist p.freeRecords
          ([r.op] :: behind.map fun h => [h.content.op]) = some (list, free) →
        ∃ q, exec cmd s = .next (s.passed q) ∧ (q.chan c).playlist = list ∧
          q.hold = p.hold.filter (fun h => !behind.contains h) ∧ p.Still q ∧ p.OtherChans q c ∧
          (left = [] →
            (q.chan c).replica = { (p.chan c).replica with
              state := .current, next := some ((seq + 1 + behind.length) % 65536), gapTimer := none } ∧
            q.outbox = p.outbox ++ [.notice (q.replicaNotice c .gap 3 none)]) ∧
          (left ≠ [] →
            (q.chan c).replica = { (p.chan c).replica with
              next := some ((seq + 1 + behind.length) % 65536), gapTimer := some 0 } ∧
            q.outbox = p.outbox))

/-- R60 to R62, R64, R65, R55: BATCH OPEN, the staging of each kind of record, and BATCH CLOSE, each in order with no early entry
waiting. A record that finds the batch at 64 and the hold full is BATCH_REFUSED (the model's order, log entry 57). A close with
another count, a batch that would overflow the deferral, and one whose operations the store refuses leave the replica STALE. Where
a batch applied uncovers a due head of the channel's queue, only what the Cue Sequencer then changes of the events is left open.
-/
def Obligations.BatchFraming : Prop :=
  ∀ (l : LinkId) (c : Chan) (seq : Nat) (s : State) (p m : Plant) (x : Replica), p = s.plant.goodFrame l →
    (p.chan c).mode ≠ .idle → (p.chan c).replica = x → x.state = .current → x.next = some seq → seq < 65536 →
    p.holdCount c .early = 0 → m = p.stepNext c seq →
    (∀ n, x.batch = none → 1 ≤ n → n ≤ 64 → exec (.batchOpen l c.val seq n) s = .next (s.passed
      (p.setChan c { p.chan c with replica :=
        { x with next := some ((seq + 1) % 65536), batch := some { count := n, staged := 0, mark := seq, timer := 0 } } }))) ∧
    (∀ n, x.batch ≠ none ∨ n < 1 ∨ 64 < n → exec (.batchOpen l c.val seq n) s = .next (s.passed (m.staled c 8 none))) ∧
    (∀ b cmd r, x.batch = some b →
      ((∃ pred d, cmd = .evPut l c.val seq pred d ∧ r = .put pred d) ∨ (∃ d, cmd = .evSwap l c.val seq d ∧ r = .swap d) ∨
        (∃ e, cmd = .evDrop l c.val seq e ∧ r = .drop e) ∨ (cmd = .chWipe l c.val seq ∧ r = .wipe)) →
      (64 ≤ b.staged → exec cmd s = .next (s.passed (m.staled c 8 none))) ∧
      (b.staged < 64 → 256 ≤ p.hold.length → exec cmd s = .next (s.passed (m.staled c 5 none))) ∧
      (b.staged < 64 → p.hold.length < 256 → exec cmd s = .next (s.passed
        { p.setChan c { p.chan c with replica :=
            { x with next := some ((seq + 1) % 65536), batch := some { b with staged := b.staged + 1 } } } with
          hold := p.hold ++ [{ channel := c, seq := seq, content := r, kind := .staged, mark := some b.mark }] }))) ∧
    (x.batch = none → exec (.batchClose l c.val seq) s = .next (s.passed (m.staled c 8 none))) ∧
    (∀ b, x.batch = some b → b.staged ≠ b.count → exec (.batchClose l c.val seq) s = .next (s.passed (m.staled c 8 none))) ∧
    (∀ b, x.batch = some b → b.staged = b.count → (p.chan c).mode.deferral = true →
      (p.holdCount c .deferred + p.holdCount c .staged ≤ 128 → exec (.batchClose l c.val seq) s = .next (s.passed
        { p.setChan c { p.chan c with replica := { x with next := some ((seq + 1) % 65536), batch := none } } with
          hold := p.hold.map fun h => if h.channel = c ∧ h.kind = .staged then { h with kind := .deferred } else h })) ∧
      (128 < p.holdCount c .deferred + p.holdCount c .staged →
        exec (.batchClose l c.val seq) s = .next (s.passed (m.staled c 10 none)))) ∧
    (∀ (b : Batch) (staged : List HoldEntry), x.batch = some b → b.staged = b.count → (p.chan c).mode.deferral = false →
      staged = p.hold.filter (fun h => h.channel == c && h.kind == .staged) →
      (∀ k (h : k < staged.length) list free st,
        plAfter (p.plEnv c) (p.chan c).playlist p.freeRecords ((staged.take k).map fun h => h.content.op) = some (list, free) →
        plApply (p.plEnv c) list free staged[k].content.op = .error st →
        exec (.batchClose l c.val seq) s = .next (s.passed (m.staled c 8 (some (st, staged[k].seq))))) ∧
      (p.PoolSound → ∀ list free,
        plAfter (p.plEnv c) (p.chan c).playlist p.freeRecords (staged.map fun h => h.content.op) = some (list, free) →
        ∃ q, exec (.batchClose l c.val seq) s = .next (s.passed q) ∧
          (q.chan c).playlist.map Event.plan =
            (resolveList (4 * (p.family c).fpd) ((p.chan c).now + p.lead c) list).map Event.plan ∧
          (q.chan c).replica = { x with next := some ((seq + 1) % 65536), batch := none } ∧
          q.hold = p.hold.filter (fun h => !(h.channel == c && h.kind == .staged)) ∧ p.outbox <+: q.outbox ∧ p.Still q ∧
          (p.Undisturbed c (staged.map fun h => h.content.op) →
            (q.chan c).playlist = resolveList (4 * (p.family c).fpd) ((p.chan c).now + p.lead c) list ∧
            q.outbox = p.outbox ∧ p.OtherChans q c)))

/-- R57, R65, R49: a BASE restarts the replica from its own sequence number; outside deferral it empties the playlist, in deferral
it becomes the channel's one deferred entry; an old BASE is discarded. -/
def Obligations.BaseRestarts : Prop :=
  ∀ (l : LinkId) (c : Chan) (seq : Nat) (s : State) (p : Plant) (x : Replica), p = s.plant.goodFrame l → seq < 65536 →
    (p.chan c).mode ≠ .idle → x = (p.chan c).replica →
    (∀ next, x.state = .current ∨ x.state = .gap → x.next = some next → next < 65536 →
      32768 ≤ (seq + 65536 - next) % 65536 → exec (.base l c.val seq) s = .next (s.passed p)) ∧
    (x.state = .awaitBase ∨ x.state = .stale ∨
        (∃ next, x.next = some next ∧ next < 65536 ∧ (seq + 65536 - next) % 65536 ≤ 32767) →
      ∀ y : Replica, y = { state := .current, next := some ((seq + 1) % 65536), batch := none, gapTimer := none,
                           reloadTimer := none } →
        ((p.chan c).mode.deferral = false → ∃ q, exec (.base l c.val seq) s = .next (s.passed q) ∧
          (q.chan c).replica = y ∧ (q.chan c).playlist = [] ∧ (q.chan c).seq.queue = [] ∧ (q.chan c).seq.cursor = none ∧
          (q.chan c).watch = { (p.chan c).watch with lastEnded := none } ∧
          { q.chan c with playlist := [], replica := .reset, seq := .reset, watch := .reset } =
            { p.chan c with playlist := [], replica := .reset, seq := .reset, watch := .reset } ∧
          q.hold = p.hold.filter (fun h => !(h.channel == c && h.kind != .deferred)) ∧
          q.notices = p.notices ++ (if x.state = .current then [] else [q.replicaNotice c x.state 1 none]) ∧
          (∀ i k, (q.port i).slotCue = some (c, k) → False) ∧ p.Still q ∧ p.OtherChans q c) ∧
        ((p.chan c).mode.deferral = true → (p.hold.filter fun h => h.channel != c).length < 256 →
          ∃ q, exec (.base l c.val seq) s = .next (s.passed q) ∧ (q.chan c) = { p.chan c with replica := y } ∧
          q.hold = p.hold.filter (fun h => h.channel != c) ++
            [{ channel := c, seq := seq, content := .base, kind := .deferred, mark := none }] ∧
          q.notices = p.notices ++ (if x.state = .current then [] else [q.replicaNotice c x.state 1 none]) ∧
          p.Still q ∧ p.OtherChans q c ∧ q.ports = p.ports))

/-- R67, R68, R88, R89: a PULSE that is a copy is discarded; one that is taken sets the memory, the heartbeat timer and the main
site's day, and moves the agreement of every channel that is not IDLE. An id agrees that is absent, that is the covering event's,
within the tolerance that of its neighbour before or after it, and in a gap that of an event or of the last-ended memory within the
tolerance; any other disagrees. Each change of DIVERGED sends its notice, in increasing order of the channels (log entry 59). -/
def Obligations.PulseMovesAgreement : Prop :=
  ∀ (l : LinkId) (n day : Nat) (ids : List (Option Nat)) (s : State) (p : Plant), p = s.plant.goodFrame l → ids.length = 16 →
    (p.pulseMem = some n → exec (.pulse l n day ids) s = .next (s.passed p)) ∧
    (p.pulseMem ≠ some n → ∃ q, exec (.pulse l n day ids) s = .next (s.passed q) ∧
      q.pulseMem = some n ∧ q.heartbeat = .running p.hbTimeout ∧ q.mainDay = some day ∧
      { q with chans := p.chans, pulseMem := p.pulseMem, heartbeat := p.heartbeat, mainDay := p.mainDay, outbox := p.outbox } = p ∧
      q.outbox = p.outbox ++ (allChans.filter fun c => (q.chan c).watch.diverged != (p.chan c).watch.diverged).map (fun c =>
        .notice ⟨.diverged, some c, flag (q.chan c).watch.diverged ++ opt u32 (q.chan c).watch.lastMain ++
          opt u32 ((coverAt (p.chan c).playlist (p.chan c).now).map (·.id))⟩) ∧
      ∀ c, ((p.chan c).mode = .idle → q.chan c = p.chan c) ∧
        ∀ g x w id tol, (p.chan c).mode ≠ .idle → p.config c = some g → p.chan c = x → w = x.watch → ids[c.val]? = some id →
          tol = g.watch.agreeTol → (x.playlist.map (·.id)).Nodup →
          ∃ ok : Bool,
            q.chan c = { x with watch := { w with
              lastMain := id, agree := if ok then min 3 (w.agree + 1) else 0
              disagree := if ok then 0 else min 3 (w.disagree + 1)
              diverged := if ok then w.diverged && decide (w.agree + 1 < 3) else w.diverged || decide (3 ≤ w.disagree + 1) } } ∧
            (id = none → ok = true) ∧
            (∀ n e before after, id = some n → coverAt x.playlist x.now = some e → x.playlist = before ++ e :: after →
              (ok = true ↔ n = e.id ∨
                (x.now - e.rstart ≤ tol ∧
                  ((∃ ahead k behind, before = ahead ++ k :: behind ∧ k.unmarked = true ∧ k.rend = e.rstart ∧
                      (∀ j ∈ behind, j.unmarked = true → j.rend ≠ e.rstart) ∧ k.id = n) ∨
                   ((∀ k ∈ before, k.unmarked = true → k.rend ≠ e.rstart) ∧ w.lastEnded = some (n, e.rstart)))) ∨
                (e.rend - x.now ≤ tol ∧ ∃ ahead k behind, after = ahead ++ k :: behind ∧ k.unmarked = true ∧
                  (∀ j ∈ ahead, j.unmarked = false) ∧ k.id = n ∧ k.rstart = e.rend))) ∧
            (∀ n, id = some n → coverAt x.playlist x.now = none →
              (ok = true ↔
                (∃ e ∈ x.playlist, e.unmarked = true ∧ e.id = n ∧
                  ((x.now < e.rstart ∧ e.rstart ≤ x.now + tol) ∨ (e.rend ≤ x.now ∧ x.now ≤ e.rend + tol))) ∨
                (∃ t, w.lastEnded = some (n, t) ∧ t ≤ x.now ∧ x.now ≤ t + tol))))

/-- R53 to R55, R63, R68: the timers of the Replication Unit, where each is running (log entry 8) and where it is not (log entry
13); an ASK FILL is made once in a run of the gap timer (log entry 27). R70: REPLICA RESET, in every mode. -/
def Obligations.ReplicaTimersAndReset : Prop :=
  (∀ (c : Chan) (s : State) (x : Replica), (s.plant.chan c).replica = x →
    (∀ t n, x.gapTimer = some t → x.next = some n → t < 500 → exec (.askFillTimer c) s = .next (s.passed
      ((s.plant.setChan c { s.plant.chan c with replica := { x with gapTimer := some 500 } }).emit (.back (.askFill c n))))) ∧
    (x.gapTimer = none ∨ (∃ t, x.gapTimer = some t ∧ 500 ≤ t) → exec (.askFillTimer c) s = .next (s.passed s.plant)) ∧
    (x.gapTimer.isSome → x.state = .current ∨ x.state = .gap →
      exec (.gapTimeout c) s = .next (s.passed (s.plant.staled c 6 none))) ∧
    (x.gapTimer = none → exec (.gapTimeout c) s = .next (s.passed s.plant)) ∧
    (x.reloadTimer.isSome → exec (.reloadTimer c) s = .next (s.passed
      ((s.plant.setChan c { s.plant.chan c with replica := { x with reloadTimer := some 0 } }).emit (.back (.askReload c))))) ∧
    (x.reloadTimer = none → exec (.reloadTimer c) s = .next (s.passed s.plant)) ∧
    (x.batch.isSome → x.state = .current ∨ x.state = .gap →
      exec (.batchTimeout c) s = .next (s.passed (s.plant.staled c 9 none))) ∧
    (x.batch = none → exec (.batchTimeout c) s = .next (s.passed s.plant)) ∧
    (∀ t, s.plant.heartbeat = .running t →
      exec .heartbeatTimeout s = .next (s.passed { s.plant with heartbeat := .expired })) ∧
    ((∀ t, s.plant.heartbeat ≠ .running t) → exec .heartbeatTimeout s = .next (s.passed s.plant))) ∧
  ∀ (tag n : Nat) (s : State), s.Admits tag →
    (15 < n → exec (.replicaReset tag (.sound n)) s = .next (s.answered tag 0x03 s.plant .noSuchChannel [])) ∧
    ∀ (c : Chan) (x : Replica), n = c.val → x = (s.plant.chan c).replica →
      ((s.plant.chan c).mode = .idle →
        exec (.replicaReset tag (.sound n)) s = .next (s.answered tag 0x03 s.plant .notConfigured [])) ∧
      ((s.plant.chan c).mode = .confirming ∨ (s.plant.chan c).mode = .taking →
        exec (.replicaReset tag (.sound n)) s = .next (s.answered tag 0x03 s.plant .wrongMode [])) ∧
      ((s.plant.chan c).mode = .shadow → ∃ q, exec (.replicaReset tag (.sound n)) s = .next (s.answered tag 0x03 q .ok []) ∧
        (q.chan c).playlist = [] ∧ (q.chan c).seq.queue = [] ∧ (q.chan c).watch = { (s.plant.chan c).watch with lastEnded := none } ∧
        (q.chan c).replica = { state := .awaitBase, next := none, batch := none, gapTimer := none, reloadTimer := some 0 } ∧
        { q.chan c with playlist := [], replica := .reset, seq := .reset, watch := .reset } =
          { s.plant.chan c with playlist := [], replica := .reset, seq := .reset, watch := .reset } ∧
        q.hold = s.plant.hold.filter (fun h => h.channel != c) ∧ q.records = s.plant.records ++ [.askReload c] ∧
        q.notices = s.plant.notices ++ (if x.state = .awaitBase then [] else [q.replicaNotice c x.state 12 none]) ∧
        s.plant.Still q ∧ s.plant.OtherChans q c) ∧
      ((s.plant.chan c).mode.deferral = true →
        (x.state = .current ∨ x.state = .gap →
          exec (.replicaReset tag (.sound n)) s = .next (s.answered tag 0x03 (s.plant.staled c 12 none) .ok [])) ∧
        (x.state = .stale ∨ x.state = .awaitBase →
          exec (.replicaReset tag (.sound n)) s = .next (s.answered tag 0x03
            { s.plant.setChan c { s.plant.chan c with replica := { x with reloadTimer := some 0 } } with
              hold := s.plant.hold.filter fun h => h.channel != c
              outbox := s.plant.outbox ++ [.back (.askReload c)] } .ok [])))

/-- R66, with R172: the return switch applies what was deferred, in the order taken, a lone entry by itself and the entries of one
batch together, the playlist resolved after each; nothing of it stays in the hold. The first refusal leaves the replica STALE with
RETURN_REFUSED, the status and the refused record's sequence number, and what follows it is discarded. (For operations that
uncover no due head of the channel's queue; and at the switch line for a channel with no step queued.) -/
def Obligations.DeferredAreApplied : Prop :=
  ∀ (p : Plant) (c : Chan) (groups : List (List HoldEntry)), p.PoolSound →
    p.Undisturbed c (groups.flatten.map fun h => h.content.op) →
    p.hold.filter (fun h => h.channel == c && h.kind == .deferred) = groups.flatten →
    (∀ g ∈ groups, (∃ h, g = [h] ∧ h.mark = none) ∨ (g ≠ [] ∧ ∃ k, ∀ h ∈ g, h.mark = some k)) →
    (∀ before g g' after, groups = before ++ g :: g' :: after → ∀ h ∈ g, ∀ h' ∈ g', h.mark = none ∨ h.mark ≠ h'.mark) →
    (∀ list free,
      plGroups (p.plEnv c) (4 * (p.family c).fpd) (p.chan c).playlist p.freeRecords
        (groups.map fun g => g.map fun h => h.content.op) = some (list, free) →
      ((p.applyDeferred c).chan c).playlist = list ∧ ((p.applyDeferred c).chan c).replica = (p.chan c).replica ∧
      (p.applyDeferred c).hold = p.hold.filter (fun h => !(h.channel == c && h.kind == .deferred)) ∧
      (p.applyDeferred c).outbox = p.outbox ∧ p.Still (p.applyDeferred c) ∧ p.OtherChans (p.applyDeferred c) c) ∧
    (∀ (before : List (List HoldEntry)) (g : List HoldEntry) (after : List (List HoldEntry)) (list : List Event) (free k : Nat)
        (h : k < g.length) (list' : List Event) (free' : Nat) (st : Status), groups = before ++ g :: after →
      (p.chan c).replica.state = .current ∨ (p.chan c).replica.state = .gap →
      plGroups (p.plEnv c) (4 * (p.family c).fpd) (p.chan c).playlist p.freeRecords
        (before.map fun g => g.map fun h => h.content.op) = some (list, free) →
      plAfter (p.plEnv c) list free ((g.take k).map fun h => h.content.op) = some (list', free') →
      plApply (p.plEnv c) list' free' g[k].content.op = .error st →
      ∃ m : Plant, p.applyDeferred c = m.staled c 11 (some (st, g[k].seq)) ∧ (m.chan c).playlist = list ∧
        (m.chan c).replica = (p.chan c).replica ∧
        m.hold = p.hold.filter (fun h => !(h.channel == c && h.kind == .deferred)) ∧ m.outbox = p.outbox ∧ p.Still m ∧
        p.OtherChans m c) ∧
    (∀ r x, p.chan c = x → x.mode = .returning → x.returnRec = some r → r.state = .pending → r.tRet ≤ x.now → x.seq.queue = [] →
      ((p.switchLine c).chan c).playlist.map (fun e => { e.plan with asRun := false }) =
        ((p.applyDeferred c).chan c).playlist.map (fun e => { e.plan with asRun := false }) ∧
      ((p.switchLine c).chan c).replica = ((p.applyDeferred c).chan c).replica ∧
      ∀ h ∈ (p.switchLine c).hold, h.channel = c → h.kind ≠ .deferred)

/-! ## Playlists and the timeline (chapter 2) -/

/-- R30, R31, R32: EDIT EVENT by channel and mode, and an operation carried out: the playlist is the store's list resolved, and
the reply tells the event, or for DELETE its end where it stayed. The status of an event both ECLIPSED and LATE is LATE (log entry
63), and where each LATE comes from is log entries 24, 25 and 75; the marks are log entry 60 and the one presence byte of label
and day log entry 66. Where a DELETE or a REPLACE uncovers a due head of the channel's queue, the Cue Sequencer takes it (R123,
log entry 73), and only what it changes of the events is left open. -/
def Obligations.EditEventCarriesOut : Prop :=
  ∀ (tag n : Nat) (cmd : Instr) (op : PlOp) (s : State), s.Admits tag →
    ((∃ pred d, cmd = .editEventInsert tag (.sound ⟨n, pred, d⟩) ∧ op = .insert pred d) ∨
      (∃ d, cmd = .editEventReplace tag (.sound ⟨n, d⟩) ∧ op = .replace d) ∨
      (∃ id, cmd = .editEventDelete tag (.sound ⟨n, id⟩) ∧ op = .delete id)) →
    (15 < n → exec cmd s = .next (s.answered tag 0x04 s.plant .noSuchChannel [])) ∧
    ∀ (c : Chan) (x : Channel), n = c.val → s.plant.chan c = x →
      (x.mode = .idle → exec cmd s = .next (s.answered tag 0x04 s.plant .notConfigured [])) ∧
      (x.mode = .shadow ∨ x.mode = .confirming ∨ x.mode = .taking →
        exec cmd s = .next (s.answered tag 0x04 s.plant .replicaOwns [])) ∧
      (x.mode = .onLocal ∨ x.mode = .returning ∨ x.mode = .orphaned →
        (∀ st, plApply (s.plant.plEnv c) x.playlist s.plant.freeRecords op = .error st →
          exec cmd s = .next (s.answered tag 0x04 s.plant st [])) ∧
        (∀ done list, plApply (s.plant.plEnv c) x.playlist s.plant.freeRecords op = .ok done →
          list = resolveList (4 * (s.plant.family c).fpd) (x.now + s.plant.lead c) done.list →
          ∃ q st body, exec cmd s = .next (s.answered tag 0x04 q st body) ∧
            (q.chan c).playlist.map Event.plan = list.map Event.plan ∧
            q.hold = s.plant.hold ∧ q.spareQueue = s.plant.spareQueue ∧ s.plant.outbox <+: q.outbox ∧ s.plant.Still q ∧
            (s.plant.Undisturbed c [op] →
              (q.chan c).playlist = list ∧
              { q.chan c with playlist := [], seq := .reset } = { x with playlist := [], seq := .reset } ∧
              q.outbox = s.plant.outbox ∧ s.plant.OtherChans q c) ∧
            (∀ at' : Nat → List Byte, (∀ t, at' t = dayLabelBytes (dayLabelOf (s.plant.family c) x.baseDay t)) →
              (∀ d pred e, op = .insert pred d ∨ op = .replace d → findEvent (q.chan c).playlist d.id = some e →
                st = (if done.late = true ∨ e.late = true then .late else if done.moved = true then .adjusted else .ok) ∧
                body = u32 e.id ++ opt (fun k : DayLabel => labelBytes k.label ++ u16 k.day) e.start ++ at' e.rstart ++
                  at' e.rend ++ u8 e.cue.code ++ u8 (bits [e.eclipsed, e.beyond, e.late, false])) ∧
              (∀ id, op = .delete id → st = (if done.late = true then .late else .ok) ∧
                body = opt at' ((findEvent (q.chan c).playlist id).map (·.rend))))))

/-- R20, R23 to R27: the store's operations: the refusals in their order, where an accepted insertion stands and what it makes,
what a replacement keeps, and what a deletion takes away. A replacement of a DONE or SKIPPED event is LATE (log entry 24); one of
an event in CUEING, ROLLING or AIRING is LATE unless it differs in the duration alone and that is taken as given. -/
def Obligations.StoreOperations : Prop :=
  ∀ (v : PlEnv) (l : List Event) (free : Nat), (l.map (·.id)).Nodup →
    (∀ d pred, (descSound v.family d = false →
        plApply v l free (.insert pred d) = .error .badArgument ∧ plApply v l free (.replace d) = .error .badArgument) ∧
      (∀ t, descSound v.family d = true → d.start = some t → t.label.valid v.family = false →
        plApply v l free (.insert pred d) = .error .badTime ∧ plApply v l free (.replace d) = .error .badTime) ∧
      (∀ t, descSound v.family d = true → d.start = some t → t.label.valid v.family = true → ctfOf v.family v.baseDay t = none →
        plApply v l free (.insert pred d) = .error .outOfWindow ∧ plApply v l free (.replace d) = .error .outOfWindow)) ∧
    (∀ d pred a, checkDesc v.family v.baseDay d = .ok a →
      (pred ≠ 0 → (∀ e ∈ l, e.id ≠ pred) → plApply v l free (.insert pred d) = .error .noSuchEvent) ∧
      (pred = 0 ∨ (∃ e ∈ l, e.id = pred) →
        ((∃ e ∈ l, e.id = d.id) → plApply v l free (.insert pred d) = .error .duplicateId) ∧
        ((∀ e ∈ l, e.id ≠ d.id) →
          (1024 ≤ l.length ∨ free = 0 → plApply v l free (.insert pred d) = .error .full) ∧
          (l.length < 1024 → free ≠ 0 →
            (l = [] → a.event.rule = .follow → plApply v l free (.insert pred d) = .error .noAnchor) ∧
            (l ≠ [] ∨ a.event.rule ≠ .follow → ∃ before e after r, plApply v l free (.insert pred d) = .ok r ∧
              l = before ++ after ∧ (pred = 0 → before = []) ∧ (pred ≠ 0 → before.getLast?.map (·.id) = some pred) ∧
              r.list = before ++ e :: after ∧ r.free = free - 1 ∧ r.moved = a.moved ∧
              { e with cue := .pending, rstart := 0, rend := 0 } = a.event ∧
              ((∀ k ∈ after, k.cue = .pending) → r.late = false ∧ e.cue = .pending ∧
                (e.rule = .follow → e.rstart = v.floor)) ∧
              (∀ pend k rest, after = pend ++ k :: rest → (∀ j ∈ pend, j.cue = .pending) → k.cue ≠ .pending →
                r.late = true ∧ e.cue = .skipped ∧ e.rstart = k.rstart ∧ e.rend = k.rstart)))))) ∧
    (∀ d a, checkDesc v.family v.baseDay d = .ok a →
      ((∀ e ∈ l, e.id ≠ d.id) → plApply v l free (.replace d) = .error .noSuchEvent) ∧
      (∀ before old after, l = before ++ old :: after → old.id = d.id → ∃ r, plApply v l free (.replace d) = .ok r ∧
        r.free = free ∧
        (old.cue = .pending → r.late = false ∧
          r.list = before ++ { a.event with rstart := old.rstart, rend := old.rend } :: after) ∧
        (old.cue = .done ∨ old.cue = .skipped → r.late = true ∧ r.list = l) ∧
        (old.cue = .cueing ∨ old.cue = .rolling ∨ old.cue = .airing →
          r.list = before ++ { old with duration := max d.duration (min old.rend v.floor - old.rstart) } :: after ∧
          (r.late = false ↔ a.event.kind = old.kind ∧ a.event.rule = old.rule ∧ a.event.start = old.start ∧
            a.event.clip = old.clip ∧ min old.rend v.floor - old.rstart ≤ d.duration)))) ∧
    (∀ id, ((∀ e ∈ l, e.id ≠ id) → plApply v l free (.delete id) = .error .noSuchEvent) ∧
      ∀ before old after, l = before ++ old :: after → old.id = id → ∃ r, plApply v l free (.delete id) = .ok r ∧
        (old.cue ≠ .airing → r.list = before ++ after ∧ r.free = free + 1 ∧ r.late = false) ∧
        (old.cue = .airing → r.free = free ∧ r.late = true ∧
          (old.rend ≤ v.floor → r.list = l) ∧
          (v.floor < old.rend → r.list = before ++ { old with cut := some v.floor, rend := v.floor } :: after)))

/-- R32: after a pass, the unmarked events stand in list order, each starting no earlier than the one before it ends, and all lie
in the window; the pass moves no event. The premises are what R21, R24 and R33 say of frozen events. -/
def Obligations.ResolutionKeepsOrder : Prop :=
  ∀ (window floor : Nat) (l : List Event),
    (∀ e ∈ l, e.cue ≠ .pending → e.cue ≠ .skipped →
      e.eclipsed = false ∧ e.beyond = false ∧ e.rstart ≤ window ∧ ∀ k, e.cut = some k → e.rstart ≤ k) →
    (l.filter fun e => e.cue != .pending && e.cue != .skipped).Pairwise (fun a b => a.rstart ≤ b.rstart) →
    ((resolveList window floor l).filter Event.unmarked).Pairwise (fun a b => a.rend ≤ b.rstart) ∧
    (∀ e ∈ resolveList window floor l, e.unmarked = true → e.rstart ≤ e.rend ∧ e.rend ≤ window) ∧
    (resolveList window floor l).map (·.id) = l.map (·.id) ∧
    ∀ e ∈ resolveList window floor l, e.cue = .pending → floor ≤ e.rstart ∨ e.eclipsed = true ∨ e.beyond = true

/-- R33 to R36, R40: where the pass places the last event of a list, given what it has made of the events before it, and what it
leaves of a frozen and of a SKIPPED one. -/
def Obligations.PassPlacesLastEvent : Prop :=
  ∀ (window floor : Nat) (l r : List Event) (e : Event) (prev : Option Nat),
    r = resolveList window floor l → prev = ((r.filter Event.unmarked).getLast?).map (·.rend) →
    (∀ start, e.cue = .pending →
      (e.rule = .follow ∧ start = max (prev.getD e.rstart) floor) ∨
        (e.rule = .fixedSoft ∧ ∃ t, e.labelCtf = some t ∧ start = max t (max (prev.getD 0) floor)) ∨
        (e.rule = .fixedHard ∧ ∃ t, e.labelCtf = some t ∧ start = max t floor ∧
          ∀ k ∈ r, k.cue ≠ .skipped ∧ k.rend ≤ start ∧ k.rend ≤ window ∧ (k.cue = .pending → k.rstart < start)) →
      ∃ y, resolveList window floor (l ++ [e]) = r ++ [y] ∧
        { y with rstart := 0, rend := 0, cut := none, eclipsed := false, beyond := false, late := false } =
          { e with rstart := 0, rend := 0, cut := none, eclipsed := false, beyond := false, late := false } ∧
        y.cut = none ∧ y.eclipsed = false ∧
        (start < window → y.beyond = false ∧ y.rstart = start ∧ y.rend = min window (start + e.duration)) ∧
        (window ≤ start → y.beyond = true ∧ y.rstart = window ∧ y.rend = window) ∧
        (y.late = true ↔ e.rule = .fixedHard ∧ ∃ t, e.labelCtf = some t ∧ t < start)) ∧
    (e.cue = .skipped → resolveList window floor (l ++ [e]) = r ++ [e]) ∧
    (e.cue ≠ .skipped → e.cue ≠ .pending → ∃ r', resolveList window floor (l ++ [e]) = r' ++
        [{ e with rend := min window (match e.cut with | some k => min k (e.rstart + e.duration) | none => e.rstart + e.duration) }] ∧
      r'.map (·.id) = r.map (·.id) ∧
      ((∀ k ∈ r, k.rend ≤ e.rstart ∧ (k.cue = .pending → k.rstart < e.rstart)) → r' = r))

/-- R36 to R38: a FIXED_HARD event whose label lies in the events before it: those that would start at or after it are eclipsed at
its start, without a cut point and LATE where they are hard and past their label (log entry 25), and the event in which it falls is
cut there; a frozen one is not cut below its end floor, and the hard event moves on and is LATE. -/
def Obligations.HardStartCuts : Prop :=
  ∀ (window floor t h start : Nat) (l before after : List Event) (k e : Event),
    resolveList window floor l = before ++ k :: after → e.cue = .pending → e.rule = .fixedHard → e.labelCtf = some t →
    h = max t floor → h < k.rend → (∀ j ∈ after, j.cue = .pending ∧ j.eclipsed = false ∧ h ≤ j.rstart) →
    (k.cue = .pending ∧ k.eclipsed = false ∧ k.rstart < h ∧ start = h) ∨
      ((k.cue = .cueing ∨ k.cue = .rolling ∨ k.cue = .airing) ∧ start = max h (max (k.rstart + 1) floor)) →
    start < window → start < k.rend →
    ∃ y, resolveList window floor (l ++ [e]) =
        before ++ { k with cut := some start, rend := start } ::
          (after.map fun j => { j with rstart := start, rend := start, eclipsed := true, beyond := false, cut := none,
                                       late := j.rule == .fixedHard && decide (j.labelCtf.getD 0 < start) }) ++ [y] ∧
      y.id = e.id ∧ y.rstart = start ∧ y.rend = min window (start + e.duration) ∧ y.eclipsed = false ∧ y.beyond = false ∧
      (y.late = true ↔ t < start)

/-! ## The watch (chapter 4) -/

/-- R79, whole: the score after the evaluation of a frame, in every mode and in warm-up as after it, and where it is carried. -/
def Obligations.ScoreFollowsR79 : Prop :=
  ∀ (c : Chan) (p : Plant) (g : ChannelConfig) (before after : Watch) (w : Nat), p.config c = some g →
    before = (p.chan c).watch → after = ((p.evaluateWatch c).chan c).watch →
    w = (if after.conds.noSignal = true then g.watch.weights.noSignal else 0) +
      (if after.conds.black = true then g.watch.weights.black else 0) +
      (if after.conds.frozen = true then g.watch.weights.frozen else 0) +
      (if after.conds.silent = true then g.watch.weights.silent else 0) +
      (if after.conds.tcLoss = true then g.watch.weights.tcLoss else 0) +
      (if after.conds.tcJump = true then g.watch.weights.tcJump else 0) +
      (if after.conds.noProbe = true then g.watch.weights.noProbe else 0) +
      (if after.conds.siteSilent = true then g.watch.weights.siteSilent else 0) →
    (0 < w → after.score = min 255 (before.score + w * 2 ^ g.watch.sensitivity)) ∧
    (w = 0 → after.score = max 0 (before.score - g.watch.recovery)) ∧
    (before.score ≤ 255 → after.score ≤ 255) ∧
    (g.watch.weights.noSignal ≤ 15 ∧ g.watch.weights.black ≤ 15 ∧ g.watch.weights.frozen ≤ 15 ∧ g.watch.weights.silent ≤ 15 ∧
      g.watch.weights.tcLoss ≤ 15 ∧ g.watch.weights.tcJump ≤ 15 ∧ g.watch.weights.noProbe ≤ 15 ∧
      g.watch.weights.siteSilent ≤ 15 → w ≤ 120 ∧ (g.watch.sensitivity = 3 → w * 2 ^ g.watch.sensitivity ≤ 960)) ∧
    after.history.getLast? = some ⟨after.conds, after.score⟩ ∧
    after.health = nextHealth g.watch before.health after.warm after.score ∧
    (after.health ≠ before.health → (p.evaluateWatch c).notices = p.notices ++
      [⟨.health, some c, u8 before.health.code ++ u8 after.health.code ++ u8 after.score ++ after.conds.bytes ++
        historyBytes after.history⟩])

/-- R76 to R78, R80 to R84, R74: the rest of a frame's evaluation: the conditions of an empty latch and of a record, the label
memory, the history, the change flags, the warm-up count and the health. R72 to R74: a probe record is taken by the latch of its
channel where the latch is empty and the channel is not IDLE; a receive fault sets its flag, keeps the others, leaves being
gathered what the command names (log entry 29), and touches nothing else. R85: at a frame start a change of health that the
evaluation makes reaches the Changeover Unit (ConfirmEndsAndAbort says what it does), and an evaluation that changes none reaches
nobody. -/
def Obligations.EvaluationFollowsRules : Prop :=
  (∀ (p q : Plant) (c : Chan) (before after : Health), before = (p.chan c).watch.health → q = p.evaluateWatch c →
    after = (q.chan c).watch.health →
    (before = after → p.watchFrame c = q) ∧ (before ≠ after → p.watchFrame c = q.healthReport c before after)) ∧
  (∀ (f : Family) (g : WatchParams) (silent : Bool) (w v : Watch), v = evaluate f g silent w →
    v.latch = none ∧ v.conds.siteSilent = silent ∧ v.warm = min 255 (w.warm + 1) ∧
    (w.latch = none → v.labelMem = none ∧
      v.conds = { noSignal := false, black := false, frozen := false, silent := false, tcLoss := false, tcJump := false,
                  noProbe := true, siteSilent := silent }) ∧
    (∀ r, w.latch = some r → v.conds.noProbe = false ∧ v.conds.noSignal = !r.signal ∧ v.conds.black = r.black ∧
      v.conds.frozen = r.frozen ∧ v.conds.silent = r.silent ∧
      (r.labelValid = true ∧ r.label.valid f = true ∧ r.label.dropped f = false →
        v.conds.tcLoss = false ∧ v.labelMem = some (r.label.count f) ∧
        (v.conds.tcJump = true ↔ ∃ m, w.labelMem = some m ∧ r.label.count f ≠ (m + 1) % f.fpd)) ∧
      (r.labelValid = false ∨ r.label.valid f = false ∨ r.label.dropped f = true →
        v.conds.tcLoss = true ∧ v.labelMem = none ∧ v.conds.tcJump = false)) ∧
    (w.history.length < 16 → v.history = w.history ++ [⟨v.conds, v.score⟩]) ∧
    (w.history.length = 16 → v.history = w.history.tail ++ [⟨v.conds, v.score⟩]) ∧
    (∀ pick : Conds → Bool, pick ∈ [Conds.noSignal, Conds.black, Conds.frozen, Conds.silent, Conds.tcLoss, Conds.tcJump,
        Conds.noProbe, Conds.siteSilent] →
      (pick v.change = true ↔ pick w.change = true ∨ pick w.conds ≠ pick v.conds)) ∧
    (w.health = .unknown → v.warm < g.warmUp → v.health = .unknown) ∧
    (w.health ≠ .failed → (w.health = .unknown → g.warmUp ≤ v.warm) →
      (g.failAt ≤ v.score → v.health = .failed) ∧
      (v.score < g.failAt → g.degradeAt ≤ v.score → v.health = .degraded) ∧
      (v.score < g.failAt → v.score < g.degradeAt → v.health = .healthy)) ∧
    (w.health = .failed →
      (g.recoverAt < v.score → v.health = .failed) ∧
      (v.score ≤ g.recoverAt → g.degradeAt ≤ v.score → v.health = .degraded) ∧
      (v.score ≤ g.recoverAt → v.score < g.degradeAt → v.health = .healthy)) ∧
    v.agree = w.agree ∧ v.disagree = w.disagree ∧ v.diverged = w.diverged ∧ v.lastMain = w.lastMain ∧ v.lastEnded = w.lastEnded) ∧
  ∀ (s : State),
    (∀ n r, 15 < n → exec (.probeRecord n r) s = .next (s.passed { s.plant with probeRx := [] })) ∧
    (∀ (c : Chan) r, (s.plant.chan c).mode = .idle ∨ (s.plant.chan c).watch.latch ≠ none →
      exec (.probeRecord c.val r) s = .next (s.passed { s.plant with probeRx := [] })) ∧
    (∀ (c : Chan) r, (s.plant.chan c).mode ≠ .idle → (s.plant.chan c).watch.latch = none →
      exec (.probeRecord c.val r) s = .next (s.passed { s.plant.setChan c { s.plant.chan c with
        watch := { (s.plant.chan c).watch with latch := some r } } with probeRx := [] })) ∧
    (∀ f left, exec (.probeReceiveFault f left) s = .next (s.passed { s.plant with
      probeRx := left
      probeFlags :=
        { framing := s.plant.probeFlags.framing || f == .framing, overrun := s.plant.probeFlags.overrun || f == .overrun,
          brk := s.plant.probeFlags.brk || f == .brk, check := s.plant.probeFlags.check || f == .check } }))

/-- R84: a FAILED channel whose output is clean leaves FAILED after at most (fail_at − recover_at) / recovery step clean frames
from a score at fail_at, rounded up. -/
def Obligations.CleanFramesLeaveFailed : Prop :=
  ∀ (f : Family) (g : WatchParams) (run : Nat → Watch),
    1 ≤ g.recovery → g.recoverAt < g.failAt → (run 0).health = .failed → (run 0).score = g.failAt →
    (∀ k, ∃ silent latch, run (k + 1) = evaluate f g silent { run k with latch := latch } ∧
      (run (k + 1)).conds.weight g.weights = 0) →
    ∃ k, k ≤ (g.failAt - g.recoverAt + g.recovery - 1) / g.recovery ∧ (run k).health ≠ .failed

/-! ## Device lines (chapter 5) -/

/-- R93, R94, R110: SET PORT: its refusals; a port that keeps its role, also one that a channel uses as its primary port or holds
as its spare; one that goes from SPARE to PRIMARY or from PRIMARY to SPARE; and a port brought up from OFF or turned OFF. Where it
is said so, no channel works with the port, and none waits for a spare that it could be. The reply's holder is one byte and PORT
STATE's has a presence byte (log entry 46). -/
def Obligations.SetPortTakesEffect : Prop :=
  ∀ (tag : Nat) (a : SetPortArgs) (s : State), s.Admits tag →
    (19 < a.port ∨ 2 < a.role ∨ 2 < a.parity ∨ a.divisor < 1 ∨ 65535 < a.divisor ∨
        a.replyTimeout < 1 ∨ 1000 < a.replyTimeout ∨ 3 < a.retries ∨ 300 < a.preroll →
      exec (.setPort tag (.sound a)) s = .next (s.answered tag 0x07 s.plant .badArgument [])) ∧
    ∀ (i : PortNo) (r : Role) (y : Parity) (x z : Port), a.port = i.val → Role.ofCode a.role = some r →
      Parity.ofCode a.parity = some y → 1 ≤ a.divisor → a.divisor ≤ 65535 → 1 ≤ a.replyTimeout → a.replyTimeout ≤ 1000 →
      a.retries ≤ 3 → a.preroll ≤ 300 → x = s.plant.port i →
      z = { x with divisor := a.divisor, parity := y, replyTimeout := a.replyTimeout, retries := a.retries, preroll := a.preroll,
                   rx := if x.divisor = a.divisor ∧ x.parity = y then x.rx else [] } →
      (((∃ c, s.plant.primary c = some i ∧ (s.plant.chan c).mode ≠ .idle) ∧ r ≠ .primary) ∨ (x.holder.isSome ∧ r ≠ .spare) →
        exec (.setPort tag (.sound a)) s = .next (s.answered tag 0x07 s.plant .portTaken [])) ∧
      ((∀ c, s.plant.primary c = some i → (s.plant.chan c).mode = .idle) ∨ r = .primary → x.holder = none ∨ r = .spare →
        (r = x.role ∨ (r = .primary ∧ x.role = .spare) ∨
            (r = .spare ∧ x.role = .primary ∧ s.plant.Unshared i ∧
              (x.state ≠ .up ∨ x.holder ≠ none ∨ s.plant.spareQueue = [])) →
          exec (.setPort tag (.sound a)) s = .next (s.answered tag 0x07
            (s.plant.setPort i { z with role := r, flags := .clear }) .ok
            (u8 r.code ++ u8 x.state.code ++ flag x.holding.isNone ++ flag (x.holding.isNone && x.shift.isNone) ++
              u8 x.timeouts ++ chanOrNone x.holder ++ x.flags.bytes)))) ∧
      ((∀ c, s.plant.primary c = some i → (s.plant.chan c).mode = .idle) → x.holder = none →
        (x.role = .off → x.outstanding = none → s.plant.Unshared i → s.plant.spareQueue = [] →
          r ≠ .off → ∃ q, exec (.setPort tag (.sound a)) s = .next (s.answered tag 0x07 q .ok
              (u8 r.code ++ u8 1 ++ u8 1 ++ u8 1 ++ u8 0 ++ u8 0xFF ++ LineFlags.clear.bytes)) ∧
            q = { s.plant.setPort i { z with role := r, state := .up, timeouts := 0, rx := [], shift := none, holding := none,
                                             flags := .clear } with
              outbox := s.plant.outbox ++ [.notice (portNotice i
                { x with role := r, state := .up, shift := none, holding := none } .off 3 none)] }) ∧
        (x.role ≠ .off → x.outstanding = none → s.plant.Unshared i → r = .off →
          ∃ q, exec (.setPort tag (.sound a)) s = .next (s.answered tag 0x07 q .ok
              (u8 2 ++ u8 0 ++ u8 1 ++ u8 1 ++ u8 0 ++ u8 0xFF ++ LineFlags.clear.bytes)) ∧
            q = { s.plant.setPort i { z.ended with role := .off, state := .off, timeouts := 0, rx := [], shift := none,
                                                   holding := none, probeTimer := none, flags := .clear } with
              outbox := s.plant.outbox ++ [.notice (portNotice i
                { x with role := .off, state := .off, shift := none, holding := none } x.state 4 none)] }))

/-- R112, R106, R184: PASS THROUGH: its refusals in their order; a command placed on an idle port is granted as it is placed, one
placed behind an outstanding command waits in the slot, and one placed on a DOWN port is answered TIMEOUT (with presence bytes for
what only other outcomes carry, log entry 44). -/
def Obligations.PassThroughIsPlaced : Prop :=
  ∀ (tag : Nat) (a : PassThroughArgs) (s : State), s.Admits tag →
    (19 < a.port ∨ passCommand a.kind a.arg = none →
      exec (.passThrough tag (.sound a)) s = .next (s.answered tag 0x08 s.plant .badArgument [])) ∧
    ∀ (i : PortNo) (k : DevCmd) (x : Port) (ctl : ControlLine), a.port = i.val → passCommand a.kind a.arg = some k →
      s.plant.port i = x →
      ctl = { s.ctl with rx := [], passTable := s.ctl.passTable.set i.val (some tag) } →
      (x.state = .off → exec (.passThrough tag (.sound a)) s = .next (s.answered tag 0x08 s.plant .wrongMode [])) ∧
      (x.state ≠ .off → s.ctl.passTable[i.val] ≠ none →
        exec (.passThrough tag (.sound a)) s = .next (s.answered tag 0x08 s.plant .busy [])) ∧
      (x.state ≠ .off → s.ctl.passTable[i.val] = none →
        (x.state = .down → ∃ t, exec (.passThrough tag (.sound a)) s = .next t ∧
          t = ({ s with plant := s.plant.emit (.passOutcome i .timeout), ctl := ctl } : State).settle none ∧
          t.ctl.Carries { tag := tag, kind := 0x88, status := .ok, content := u8 3 ++ u8 0 ++ u8 0 ++ u8 0 ++ u8 0, origin := .pass i }) ∧
        (x.state = .up → s.plant.Unshared i →
          (x.outstanding = none → x.shift = none → exec (.passThrough tag (.sound a)) s = .next (({ s with
            ctl := ctl
            plant := s.plant.setPort i { x with
              outstanding := some { cmd := k, requester := .pass }, attempt := 1, failures := [], replyTimer := none,
              tryTimeout := x.replyTimeout, tryRetries := x.retries, shift := some (.frame k.frame), holding := none } } : State).settle
                none)) ∧
          (x.outstanding ≠ none → exec (.passThrough tag (.sound a)) s = .next (({ s with
            ctl := ctl, plant := s.plant.setPort i { x with slotPass := some k } } : State).settle none))))

/-- R95, R97 to R104: the events of a device line, given in full for a port whose outstanding command is a pass-through and that
no channel works with: frames sent, the recovery break's end, replies taken and discarded, garbled replies, the reply timeout,
resends, the last attempt, a DOWN port's probes and its recovery; and its entry to DOWN, by a long break and by the third TIMEOUT:
its command ends with TIMEOUT, its holder is taken from it, the recovery break is in the shift stage and the first probe behind it
(where the holder is an ORPHANED channel, it asks for another spare, log entry 37); a Cue Sequencer's command that still waits in its
slot then ends with TIMEOUT too (the order of the slots is log entry 83). Where a command finds nothing to do it changes
nothing (log entry 13); a receive fault leaves being gathered what it names (29); the flag at a long break is 30, the notice's
bytes 46; that the notice of a held spare that goes DOWN still names its holder, as owner and as holder, is 67. R108: the outcome
of a Cue Sequencer's command, on a port with nothing else on it, is handed to the channel that placed it (what that does is
OutcomesMoveSteps); where the port is that channel's port in use, the heads of its queue are then taken and the arbiter grants
(DueStepsAreQueued), and where it is so no longer, nothing more happens. The outcome of a command of a Changeover list is handed to
the Changeover Unit, and the port settles: it is written as the last outcome, and moves nothing more where it is no longer wanted, is
a STOP's, or is DONE for another command of a join than its POINT; any other outcome fails the join (R119, R154; a POINT done, a failed
join and a verify are followed in TakeBeginsWithColdJoin and HotTakeVerifies). R99: a last attempt that is garbled where another had
no reply ends with TIMEOUT. -/
def Obligations.DeviceLineEvents : Prop :=
  ∀ (i : PortNo) (s : State) (x : Port), s.plant.port i = x →
    (∀ b, x.shift = some (.frame b) → ∃ y,
      y = { x with
        shift := x.holding.map ShiftItem.frame, holding := none,
        replyTimer := if x.state = .up ∧ x.outstanding ≠ none then some 0 else x.replyTimer,
        probeTimer := if x.state = .down ∧ x.outstanding ≠ none then some 0 else x.probeTimer } ∧
      exec (.commandFrameSent i) s = .next (s.passed (s.plant.setPort i y))) ∧
    ((∀ b, x.shift ≠ some (.frame b)) → exec (.commandFrameSent i) s = .next (s.passed s.plant)) ∧
    (x.shift = some .brk → exec (.recoveryBreakEnd i) s =
      .next (s.passed (s.plant.setPort i { x with shift := x.holding.map ShiftItem.frame, holding := none }))) ∧
    (x.shift ≠ some .brk → exec (.recoveryBreakEnd i) s = .next (s.passed s.plant)) ∧
    (x.state = .down → x.probeTimer ≠ none → x.shift = none → exec (.probeTimerExpiry i) s = .next (s.passed
      (s.plant.setPort i { x with shift := some (.frame DevCmd.ask.frame), holding := none, probeTimer := none }))) ∧
    (x.state ≠ .down ∨ x.probeTimer = none → exec (.probeTimerExpiry i) s = .next (s.passed s.plant)) ∧
    (∀ r, x.state = .off → exec (.deviceReply i r) s = .next (s.passed s.plant)) ∧
    (∀ r, (x.state = .up ∧ (x.outstanding = none ∨ x.replyTimer = none)) ∨ (x.state = .down ∧ x.probeTimer = none) →
      exec (.deviceReply i r) s = .next (s.passed (s.plant.setPort i { x with rx := [] }))) ∧
    (∀ f b left, x.state = .off → exec (.deviceReceiveFault i f b left) s = .next (s.passed s.plant)) ∧
    (∀ f left, x.state ≠ .off → exec (.deviceReceiveFault i f false left) s =
      .next (s.passed (s.plant.setPort i { x with flags := x.flags.mark f }))) ∧
    (∀ f left, x.state = .down ∨ (x.state = .up ∧ x.replyTimer = none) → exec (.deviceReceiveFault i f true left) s =
      .next (s.passed (s.plant.setPort i { x with flags := x.flags.mark f, rx := left }))) ∧
    (x.state ≠ .up ∨ x.replyTimer = none → exec (.replyTimeout i) s = .next (s.passed s.plant)) ∧
    (∀ out, x.state = .up → x.replyTimer ≠ none → x.shift = none → x.outstanding = some out → x.attempt ≤ x.tryRetries →
      ∃ y, y = { x with
        shift := some (.frame out.cmd.frame), holding := none, attempt := x.attempt + 1, replyTimer := none,
        tryTimeout := x.replyTimeout, tryRetries := x.retries } ∧
      exec (.replyTimeout i) s = .next (s.passed (s.plant.setPort i { y with failures := x.failures ++ [.noReply] })) ∧
      ∀ f left, exec (.deviceReceiveFault i f true left) s = .next (s.passed (s.plant.setPort i
        { y with failures := x.failures ++ [.garbled], flags := x.flags.mark f, rx := left }))) ∧
    (∀ k, x.state = .up → x.replyTimer ≠ none → x.outstanding = some ⟨k, .pass⟩ → s.plant.Unshared i →
      (∀ r o, o = (match r with
          | .done => if k = .ask then DevOutcome.refused none else .done
          | .refused n => .refused n
          | .state m clip fr => if k = .ask then .state m clip fr else .refused none) →
        exec (.deviceReply i r) s = .next (s.passed
          ((s.plant.setPort i { x.ended with rx := [], timeouts := 0 }).emit (.passOutcome i o)))) ∧
      (x.tryRetries < x.attempt → x.timeouts ≠ 2 → exec (.replyTimeout i) s = .next (s.passed
        ((s.plant.setPort i { x.ended with timeouts := x.timeouts + 1 }).emit (.passOutcome i .timeout)))) ∧
      (x.tryRetries < x.attempt → (∀ k ∈ x.failures, k = .garbled) → ∀ f left,
        exec (.deviceReceiveFault i f true left) s = .next (s.passed
          ((s.plant.setPort i { x.ended with flags := x.flags.mark f, rx := left }).emit (.passOutcome i .lineError)))) ∧
      (x.tryRetries < x.attempt → x.timeouts ≠ 2 → .noReply ∈ x.failures → ∀ f left,
        exec (.deviceReceiveFault i f true left) s = .next (s.passed
          ((s.plant.setPort i { x.ended with timeouts := x.timeouts + 1, flags := x.flags.mark f, rx := left }).emit
            (.passOutcome i .timeout))))) ∧
    (∀ k c e cmd y o m, x.state = .up → x.replyTimer ≠ none → x.outstanding = some ⟨k, .cue c e⟩ → s.plant.OnlyFor i c →
      (∃ r, cmd = .deviceReply i r ∧ y = { x.ended with rx := [], timeouts := 0 } ∧ o = (match r with
          | .done => if k = .ask then DevOutcome.refused none else .done
          | .refused n => .refused n
          | .state d clip fr => if k = .ask then .state d clip fr else .refused none)) ∨
        (cmd = .replyTimeout i ∧ x.tryRetries < x.attempt ∧ x.timeouts ≠ 2 ∧ y = { x.ended with timeouts := x.timeouts + 1 } ∧
          o = .timeout) ∨
        (∃ f left, cmd = .deviceReceiveFault i f true left ∧ x.tryRetries < x.attempt ∧ (∀ k ∈ x.failures, k = .garbled) ∧
          y = { x.ended with flags := x.flags.mark f, rx := left } ∧ o = .lineError) ∨
        (∃ f left, cmd = .deviceReceiveFault i f true left ∧ x.tryRetries < x.attempt ∧ x.timeouts ≠ 2 ∧ .noReply ∈ x.failures ∧
          y = { x.ended with timeouts := x.timeouts + 1, flags := x.flags.mark f, rx := left } ∧ o = .timeout) →
      m = (s.plant.setPort i y).cueOutcome c e o →
      ((s.plant.chan c).portInUse = some i → (s.plant.chan c).mode ≠ .idle →
        exec cmd s = .next (s.passed ((m.takeHeads c).arbitrate i))) ∧
      ((s.plant.chan c).portInUse ≠ some i ∨ (s.plant.chan c).mode = .idle → s.plant.NoneDue c →
        exec cmd s = .next (s.passed m))) ∧
    (∀ k c u live cmd y o, x.state = .up → x.replyTimer ≠ none → x.outstanding = some ⟨k, .changeover c u live⟩ →
      (∃ r, cmd = .deviceReply i r ∧ y = { x.ended with rx := [], timeouts := 0 } ∧ o = (match r with
          | .done => if k = .ask then DevOutcome.refused none else .done
          | .refused n => .refused n
          | .state d clip fr => if k = .ask then .state d clip fr else .refused none)) ∨
        (cmd = .replyTimeout i ∧ x.tryRetries < x.attempt ∧ x.timeouts ≠ 2 ∧ y = { x.ended with timeouts := x.timeouts + 1 } ∧
          o = .timeout) ∨
        (∃ f left, cmd = .deviceReceiveFault i f true left ∧ x.tryRetries < x.attempt ∧ (∀ k ∈ x.failures, k = .garbled) ∧
          y = { x.ended with flags := x.flags.mark f, rx := left } ∧ o = .lineError) ∨
        (∃ f left, cmd = .deviceReceiveFault i f true left ∧ x.tryRetries < x.attempt ∧ x.timeouts ≠ 2 ∧ .noReply ∈ x.failures ∧
          y = { x.ended with timeouts := x.timeouts + 1, flags := x.flags.mark f, rx := left } ∧ o = .timeout) →
      exec cmd s = .next (s.passed (((s.plant.setPort i y).listOutcome c i u live k o).settlePort i))) ∧
    (∀ (p w : Plant) (c : Chan) (z : Channel) (u : Purpose) (live : Bool) (k : DevCmd) (o : DevOutcome), p.chan c = z →
      (z.mode = .idle → p.listOutcome c i u live k o = p) ∧
      (z.mode ≠ .idle → w = p.setChan c { z with seq := { z.seq with last := some o.last } } →
        (live = false ∨ u = .stop ∨ (u = .join ∧ o = .done ∧ ∀ f, k ≠ .point f) → p.listOutcome c i u live k o = w) ∧
        (∀ r, live = true → u = .join →
          ((∃ n, o = .refused n) ∧ r = FailReason.refused) ∨ (o = .timeout ∧ r = .timeout) ∨ (o = .lineError ∧ r = .lineError) →
          p.listOutcome c i u live k o = w.joinFail c i r))) ∧
    (∀ r, x.state = .down → x.probeTimer ≠ none → s.plant.Unshared i → s.plant.spareQueue = [] →
      exec (.deviceReply i r) s = .next (s.passed ((s.plant.setPort i
        { x.ended with rx := [], state := .up, probeTimer := none, timeouts := 0, flags := .clear }).emit
          (.notice (portNotice i { x with state := .up } .down 2 (s.plant.ownerOf i)))))) ∧
    (x.state ≠ .up → exec (.portBreakDown i) s = .next (s.passed s.plant)) ∧
    (∀ y k, x.state = .up → s.plant.Unshared i →
      (x.role = .spare → ∀ c, x.holder = some c → (s.plant.chan c).mode ≠ .orphaned) → x.outstanding = some ⟨k, .pass⟩ →
      y = x.fallen →
      exec (.portBreakDown i) s = .next (s.passed
        { s.plant.setPort i { y with flags := .clear, rx := [], holder := none } with
          outbox := s.plant.outbox ++ [.passOutcome i .timeout,
            .notice (portNotice i { y with flags := { x.flags with brk := true } } .up 1 (s.plant.ownerOf i))] }) ∧
      (x.replyTimer ≠ none → x.tryRetries < x.attempt → x.timeouts = 2 → exec (.replyTimeout i) s = .next (s.passed
        { s.plant.setPort i { y with flags := .clear, holder := none } with
          outbox := s.plant.outbox ++ [.passOutcome i .timeout, .notice (portNotice i y .up 0 (s.plant.ownerOf i))] }))) ∧
    (∀ y k c e cmd z, x.state = .up → x.role = .primary → x.claim = [] → x.slotPass = none → x.grantHeld = false →
      (∀ d, d ≠ c → (s.plant.chan d).portInUse ≠ some i) → s.plant.chan c = z → z.mode = .shadow ∨ z.mode = .confirming →
      z.portInUse = some i → z.seq.queue = [] → x.outstanding = some ⟨k, .pass⟩ → x.slotCue = some (c, e) → e.action = .send cmd →
      y = x.fallen →
      exec (.portBreakDown i) s = .next (s.passed
        { (s.plant.setChan c { z with seq := { z.seq with last := some .timeout } }).setPort i
            { y with slotCue := none, flags := .clear, rx := [], holder := none } with
          outbox := s.plant.outbox ++ [.passOutcome i .timeout,
            .notice (portNotice i { y with flags := { x.flags with brk := true } } .up 1 (s.plant.ownerOf i))] })) ∧
    (∀ y k c, x.state = .up → s.plant.Unshared i → x.role = .spare → x.holder = some c → (s.plant.chan c).mode = .orphaned →
      x.outstanding = some ⟨k, .pass⟩ → y = x.fallen →
      exec (.portBreakDown i) s = .next (s.passed (({ s.plant.setPort i { y with flags := .clear, rx := [], holder := none } with
        outbox := s.plant.outbox ++ [.passOutcome i .timeout,
          .notice (portNotice i { y with flags := { x.flags with brk := true } } .up 1 (some c))] } : Plant).requestSpare c).1))

/-- R109, R110, R111: the spare arbiter. A request of a channel that holds a spare or waits for one has no effect; otherwise the
lowest-numbered free spare that is UP and in the channel's set is lent to it, with SPARE GRANTED, or the channel takes the tail of
the queue. A spare that becomes free goes to the oldest channel waiting for which it is eligible; in TAKING it becomes the port in
use (log entry 34), and in LOCAL and RETURNING a join follows on it (R162). A channel that releases its spare holds none. -/
def Obligations.SparesAreLent : Prop :=
  ∀ (p : Plant) (c : Chan) (x : Channel) (g : ChannelConfig) (free : PortNo → Prop), p.chan c = x → x.config = some g →
    (∀ i, free i ↔ (p.port i).role = .spare ∧ (p.port i).state = .up ∧ (p.port i).holder = none ∧ g.spares.testBit i.val = true) →
    ((∃ i, (p.port i).holder = some c) ∨ c ∈ p.spareQueue → p.requestSpare c = (p, none)) ∧
    ((∀ i, (p.port i).holder ≠ some c) → c ∉ p.spareQueue →
      (∀ i, free i → (∀ j : PortNo, j.val < i.val → ¬free j) → p.requestSpare c =
        ({ p.setPort i { p.port i with holder := some c } with
           outbox := p.outbox ++ [.notice ⟨.spareGranted, some c, u8 i.val⟩] }, some i)) ∧
      ((∀ i, ¬free i) → p.requestSpare c = ({ p with spareQueue := p.spareQueue ++ [c] }, none))) ∧
    (∀ i, (p.port i).role ≠ .spare ∨ (p.port i).state ≠ .up ∨ (p.port i).holder ≠ none ∨
        (∀ d ∈ p.spareQueue, ∀ k, p.config d = some k → k.spares.testBit i.val = false) → p.spareFreed i = p) ∧
    (∀ i before after, free i → p.spareQueue = before ++ c :: after →
      (∀ d ∈ before, ∀ k, p.config d = some k → k.spares.testBit i.val = false) →
      ∃ q, p.spareFreed i = q ∧ (q.port i).holder = some c ∧ q.spareQueue = before ++ after.filter (· != c) ∧
        ⟨.spareGranted, some c, u8 i.val⟩ ∈ q.notices ∧ q.hold = p.hold ∧ p.Still q ∧ p.OtherChans q c ∧ p.OtherUse q c i ∧
        (x.mode = .taking → q.chan c = { x with portInUse := some i }) ∧
        (x.mode = .onLocal ∨ x.mode = .returning → (q.chan c).portInUse = some i ∧ (q.chan c).mode = x.mode ∧
          ∃ k, (q.chan c).takeRec = some k ∧ k.kind = .localJoin ∧ k.port = some i ∧ k.stage = .joining) ∧
        (x.mode ≠ .taking → x.mode ≠ .onLocal → x.mode ≠ .returning → q.chan c = x)) ∧
    (∀ i, (p.port i).holder = some c → (∀ j, (p.port j).holder = some c → j = i) → c ∉ p.spareQueue →
      ∀ j, ((p.releaseSpare c).port j).holder ≠ some c)

/-! ## Cue templates and sequencing (chapter 6) -/

/-- R115, R116: SET TEMPLATE: its refusals, how each step is read from its fields (the coding of clip match is log entry 61), and
what an accepted one changes: the template as one, and the queued entries and the progress of the PENDING events that name it.
Where that uncovers a due head of a channel's queue, the Cue Sequencer then takes it (R123, log entries 73 and 91). -/
def Obligations.SetTemplateLoads : Prop :=
  ∀ (tag : Nat) (a : SetTemplateArgs) (s : State), s.Admits tag →
    (31 < a.template ∨ a.steps = [] ∨ 8 < a.steps.length ∨ (∃ r ∈ a.steps, stepOf r = none) →
      exec (.setTemplate tag (.sound a)) s = .next (s.answered tag 0x09 s.plant .badArgument [])) ∧
    (∀ r : RawStep, r.offset < -3000 ∨ 3000 < r.offset ∨ 15 < r.repeats ∨ r.spacing < 1 ∨ 255 < r.spacing ∨ 2 < r.anchor ∨
        5 < r.condition ∨ 1 < r.kind ∨ (r.kind = 1 ∧ (r.command ≠ none ∨ r.argument ≠ none)) → stepOf r = none) ∧
    (∀ r : RawStep, ∀ st, stepOf r = some st ↔
      st.offset = r.offset ∧ -3000 ≤ r.offset ∧ r.offset ≤ 3000 ∧ st.repeats = r.repeats ∧ r.repeats ≤ 15 ∧
      st.spacing = r.spacing ∧ 1 ≤ r.spacing ∧ r.spacing ≤ 255 ∧
      [Anchor.start, .rollPoint, .finish][r.anchor]? = some st.anchor ∧
      [Cond.always, .ifDone, .ifNotDone, .ifCued, .ifRolling, .ifTimeout][r.condition]? = some st.cond ∧
      ((r.kind = 0 ∧ r.expected = none ∧ r.clipMatch = none ∧ r.onMismatch = none ∧ ∃ k g, r.command = some k ∧ r.argument = some g ∧
          ((k = 0 ∧ g = 1 ∧ r.constant = none ∧ st.body = .sendSelect) ∨ (k = 1 ∧ g = 2 ∧ r.constant = none ∧ st.body = .sendPoint) ∨
           (k = 2 ∧ g = 0 ∧ r.constant = none ∧ st.body = .sendRoll) ∨ (k = 3 ∧ g = 0 ∧ r.constant = none ∧ st.body = .sendStop) ∨
           (k = 4 ∧ g = 3 ∧ ∃ bytes, r.constant = some bytes ∧ bytes.length ≤ 8 ∧ st.body = .sendAux bytes) ∨
           (k = 5 ∧ g = 0 ∧ r.constant = none ∧ st.body = .sendAsk))) ∨
       (r.kind = 1 ∧ r.command = none ∧ r.argument = none ∧ r.constant = none ∧ ∃ m k x mode clip action, r.expected = some m ∧
          r.clipMatch = some k ∧ r.onMismatch = some x ∧ [DevMode.idle, .cued, .rolling, .stopped, .fault][m]? = some mode ∧
          [false, true][k]? = some clip ∧ [Mismatch.ignore, .skipEvent, .halt][x]? = some action ∧
          st.body = .verify mode clip action))) ∧
    (∀ steps, a.template ≤ 31 → a.steps ≠ [] → a.steps.length ≤ 8 → a.steps.map stepOf = steps.map some →
      ∃ w q : Plant, exec (.setTemplate tag (.sound a)) s =
          .next (s.answered tag 0x09 q .ok (u8 a.template ++ u8 a.steps.length)) ∧
        w.Still q ∧ q.hold = w.hold ∧ q.spareQueue = w.spareQueue ∧
        (∀ t (h : t < 32), w.templates[t] = if t = a.template then steps else s.plant.templates[t]) ∧
        { w with templates := s.plant.templates, chans := s.plant.chans } = s.plant ∧
        ∀ names : Event → Bool,
          (∀ e : Event, names e = true ↔ e.cue = .pending ∧ ∃ k, e.clip = some k ∧ k.template = a.template) →
          ((∀ c, s.plant.NoneDue c ∨ ∀ k ∈ (s.plant.chan c).seq.queue,
              ¬(k.standing = .live ∧ ∃ e ∈ (s.plant.chan c).playlist, names e = true ∧ e.id = k.event)) → q = w) ∧
          ∀ c : Chan, ∃ queue, w.chan c = { s.plant.chan c with
              playlist := (s.plant.chan c).playlist.map (fun e => if names e then { e with progress := [] } else e)
              seq := { (s.plant.chan c).seq with queue := queue } } ∧
            queue.Sublist (s.plant.chan c).seq.queue ∧
            ∀ k ∈ (s.plant.chan c).seq.queue,
              (k ∈ queue ↔ ¬(k.standing = .live ∧ ∃ e ∈ (s.plant.chan c).playlist, names e = true ∧ e.id = k.event)))

/-- R133, R134, R198: HALT and RESUME, by mode and flag (the presence bytes of SEQUENCE HALTED are log entry 44); the join that a
RESUME in local running starts on a port that is UP; and, on a primary port that is not UP with no spare to be lent, the TIMEOUT
that ends its first command at once, with which the join fails: the channel waits for a spare, FILLER is pending and JOIN FAILED
is sent (at the failure, log entry 89). -/
def Obligations.HaltAndResume : Prop :=
  ∀ (tag n : Nat) (s : State), s.Admits tag →
    (15 < n → exec (.halt tag (.sound n)) s = .next (s.answered tag 0x0A s.plant .noSuchChannel []) ∧
      exec (.resume tag (.sound n)) s = .next (s.answered tag 0x0B s.plant .noSuchChannel [])) ∧
    ∀ (c : Chan) (x : Channel), n = c.val → s.plant.chan c = x →
      (x.mode = .idle → exec (.halt tag (.sound n)) s = .next (s.answered tag 0x0A s.plant .notConfigured []) ∧
        exec (.resume tag (.sound n)) s = .next (s.answered tag 0x0B s.plant .notConfigured [])) ∧
      (x.mode ≠ .idle → x.seq.halted = true → exec (.halt tag (.sound n)) s = .next (s.answered tag 0x0A s.plant .ok [])) ∧
      (x.mode ≠ .idle → x.seq.halted = false →
        exec (.resume tag (.sound n)) s = .next (s.answered tag 0x0B s.plant .wrongMode []) ∧
        ∃ q, exec (.halt tag (.sound n)) s = .next (s.answered tag 0x0A q .ok []) ∧
          q.chan c = { x with seq := { x.seq with halted := true, queue := [] } } ∧
          (∀ i, (∀ k, (s.plant.port i).slotCue = some (c, k) → q.port i = { s.plant.port i with slotCue := none }) ∧
            ((∀ k, (s.plant.port i).slotCue ≠ some (c, k)) → q.port i = s.plant.port i)) ∧
          q.outbox = s.plant.outbox ++ [.notice ⟨.sequenceHalted, some c, u8 1 ++ u8 1 ++ u8 0 ++ u8 0 ++ u8 0⟩] ∧
          q.hold = s.plant.hold ∧ q.spareQueue = s.plant.spareQueue ∧ s.plant.Still q ∧ s.plant.OtherChans q c) ∧
      (x.mode ≠ .idle → x.seq.halted = true →
        ∀ y : Plant, y = (s.plant.setChan c { x with seq := { x.seq with halted := false } }).emit
            (.notice ⟨.sequenceHalted, some c, u8 0 ++ u8 0 ++ u8 0 ++ u8 0⟩) →
          (x.mode.running = false ∨ x.portInUse = none →
            exec (.resume tag (.sound n)) s = .next (s.answered tag 0x0B y .ok [])) ∧
          (∀ i, x.mode.running = true → x.portInUse = some i → (s.plant.port i).state = .up →
            ∃ q, exec (.resume tag (.sound n)) s = .next (s.answered tag 0x0B q .ok []) ∧
              (q.chan c).seq.halted = false ∧ (q.chan c).mode = x.mode ∧ (q.chan c).switch = x.switch ∧
              (∃ k, (q.chan c).takeRec = some k ∧ k.kind = .localJoin ∧ k.port = some i ∧ k.stage = .joining) ∧
              s.plant.Still q) ∧
          (∀ i g e t line, x.mode.running = true → x.portInUse = some i → x.config = some g → i = g.primary →
            (s.plant.port i).state ≠ .up → t = x.now + g.cueLead + (s.plant.port i).preroll → coverAt x.playlist t = some e →
            joinRefusal g.tailGuard t e = none → c ∉ s.plant.spareQueue → (∀ j, (s.plant.port j).holder ≠ some c) →
            (∀ j, (s.plant.port j).role = .spare → (s.plant.port j).state = .up → (s.plant.port j).holder = none →
              g.spares.testBit j.val = false) →
            line = (if x.lineInForce ≤ (s.plant.ref g.reference).raised then x.now + 1 else x.now) →
            ∃ q, exec (.resume tag (.sound n)) s = .next (s.answered tag 0x0B q .ok []) ∧
              (q.chan c).seq.halted = false ∧ (q.chan c).seq.last = some .timeout ∧ (q.chan c).seq.queue = [] ∧
              (q.chan c).mode = x.mode ∧ (q.chan c).switch = x.switch ∧ (q.chan c).portInUse = none ∧
              q.spareQueue = s.plant.spareQueue ++ [c] ∧
              (∃ k, (q.chan c).takeRec = some k ∧ k.kind = .localJoin ∧ k.stage = .ended ∧ k.result = some .failed ∧
                k.failure = some .timeout ∧ k.bridgeReason = none ∧ ∃ j, k.join = some j ∧ j.t = t ∧ j.event = e.id) ∧
              (q.chan c).pendingSw.getLast? = some { pos := .filler, frame := line, cause := .portLoss, act := .plain } ∧
              (∀ w ∈ (q.chan c).pendingSw, w.act ≠ .joinLocal) ∧
              ⟨.joinFailed, some c, u8 3 ++ u8 FailReason.timeout.code ++ u8 i.val ++ u8 1⟩ ∈ q.notices ∧ s.plant.Still q))

/-- R117, R118, R121: the entries that a frame start queues: they stand behind those already queued, up to 16. From the cursor on,
every repetition of a step of an unmarked event that is not DONE, due by now and not queued or taken before, is queued once and
marked so, but for those that find 16 queued; they are in order of due frame, and what is left out is due no earlier. A repetition
due after its event's end is not queued (log entry 22). R122: where steps are not issued the whole queue is then consumed; where
they are, R119, R123 and R130: a head that is not due, or finds the slot, the Cue Sequencer's command or a claim on the port,
stays; one whose condition is false is consumed; one whose condition holds goes into the slot of an UP port, and ends at once with
TIMEOUT on another or on none; and the next head follows. The first one taken moves its event to CUEING (a marked event stays, log
entry 55). A command granted from the slot more than 2 frames after its due frame sends CUE LATE. Among entries of one due frame those of
the event that stands first in the list go first, then those of the lower step number, then the earlier repetition. That a due frame
below 0 is raised to 0 only as the sum over a repetition's spacing is log entry 84. -/
def Obligations.DueStepsAreQueued : Prop :=
  (∀ (c : Chan) (p q : Plant) (x : Channel) (past events : List Event) (due : Event → Step → Nat → Int), q = p.enqueueDue c →
    p.chan c = x → x.seq.queue.length ≤ 16 → x.playlist = past ++ events → (∀ e ∈ past, x.seq.cursor ≠ some e.id) →
    x.seq.cursor = events.head?.map (·.id) →
    (∀ e st rep, due e st rep = max 0 ((match st.anchor with
      | .start => (e.rstart : Int)
      | .rollPoint => (e.rstart : Int) - p.prerollInUse c
      | .finish => (e.rend : Int)) + st.offset + (rep * st.spacing : Nat))) →
    ∃ fresh, (q.chan c).seq.queue = x.seq.queue ++ fresh ∧ (q.chan c).seq.queue.length ≤ 16 ∧
      (∀ before : StepEntry → Int → Nat → Nat → Nat → Prop, (x.playlist.map (·.id)).Nodup →
        (∀ k d id step rep, before k d id step rep ↔ (k.due : Int) < d ∨ ((k.due : Int) = d ∧
          ((events.map (·.id)).idxOf k.event < (events.map (·.id)).idxOf id ∨
            (k.event = id ∧ (k.step < step ∨ (k.step = step ∧ k.rep < rep)))))) →
        fresh.Pairwise (fun a b => before a b.due b.event b.step b.rep) ∧
        ∀ e ∈ events, e.unmarked = true → e.cue ≠ .done → ∀ step rep st, (p.templateOf e)[step]? = some st → rep ≤ st.repeats →
          (step, rep) ∉ e.progress → due e st rep ≤ x.now → due e st rep ≤ e.rend →
          (∃ k ∈ fresh, k.event = e.id ∧ k.step = step ∧ k.rep = rep) ∨ ∀ k ∈ fresh, before k (due e st rep) e.id step rep) ∧
      fresh.Pairwise (fun a b => a.due ≤ b.due) ∧
      (∀ k ∈ fresh, k.due ≤ x.now ∧ k.standing = .live ∧ ∃ e ∈ events, e.id = k.event ∧ e.unmarked = true ∧ e.cue ≠ .done ∧
        (k.step, k.rep) ∉ e.progress ∧ k.due ≤ e.rend ∧
        ∃ st, (p.templateOf e)[k.step]? = some st ∧ k.rep ≤ st.repeats ∧ (k.isLast = true ↔ k.rep = st.repeats) ∧
          k.cond = st.cond ∧ k.action = entryAction e st.body ∧ (k.due : Int) = due e st k.rep) ∧
      (∀ e ∈ events, e.unmarked = true → e.cue ≠ .done → ∀ step rep st, (p.templateOf e)[step]? = some st → rep ≤ st.repeats →
        (step, rep) ∉ e.progress → due e st rep ≤ x.now → due e st rep ≤ e.rend →
        (∃ k ∈ fresh, k.event = e.id ∧ k.step = step ∧ k.rep = rep) ∨
          ((q.chan c).seq.queue.length = 16 ∧ ∀ k ∈ fresh, (k.due : Int) ≤ due e st rep)) ∧
      ((x.playlist.map (·.id)).Nodup → (fresh.map fun k => (k.event, k.step, k.rep)).Nodup) ∧
      (∀ k ∈ fresh, ∀ e ∈ (q.chan c).playlist, e.id = k.event → (k.step, k.rep) ∈ e.progress) ∧
      (q.chan c).playlist.map (fun e => { e with progress := [] }) = x.playlist.map (fun e => { e with progress := [] }) ∧
      { q.chan c with playlist := x.playlist, seq := { (q.chan c).seq with queue := x.seq.queue } } = x ∧
      p.OtherChans q c ∧ { q with chans := p.chans } = p) ∧
  (∀ (c : Chan) (p q : Plant) (x : Channel), p.chan c = x → q = (p.renewIssuing c).enqueueDue c →
    ((q.chan c).seq.issuing = true ↔ x.seq.halted = false ∧ (x.mode = .onLocal ∨ x.mode = .returning ∨
      ((x.mode = .shadow ∨ x.mode = .confirming ∨ x.mode = .taking) ∧ ∃ g, x.config = some g ∧ g.standby = .hot))) ∧
    ((q.chan c).seq.issuing = true → p.sequence c = q.takeHeads c) ∧
    ((q.chan c).seq.issuing = false →
      p.sequence c = q.setChan c { q.chan c with seq := { (q.chan c).seq with queue := [] } })) ∧
  (∀ (o : Option LastOutcome) (k : Cond), k.holds o = true ↔ k = .always ∨ (k = .ifDone ∧ o = some .done) ∨
    (k = .ifNotDone ∧ o ≠ some .done) ∨ (k = .ifCued ∧ o = some (.state .cued)) ∨ (k = .ifRolling ∧ o = some (.state .rolling)) ∨
    (k = .ifTimeout ∧ o = some .timeout)) ∧
  (∀ (c : Chan) (p m : Plant) (x : Channel), p.chan c = x →
    (x.seq.queue = [] → p.takeHeads c = p) ∧
    ∀ k rest, x.seq.queue = k :: rest →
      (x.seq.issuing = false ∨ x.now < k.due ∨ (∃ i, x.portInUse = some i ∧ ((p.port i).slotCue ≠ none ∨ (p.port i).claim ≠ [] ∨
          ∃ cmd j, (p.port i).outstanding = some ⟨cmd, .cue c j⟩)) → p.takeHeads c = p) ∧
      (x.seq.issuing = true → k.due ≤ x.now → (∀ i, x.portInUse = some i → (p.port i).slotCue = none ∧ (p.port i).claim = [] ∧
          ∀ cmd j, (p.port i).outstanding ≠ some ⟨cmd, .cue c j⟩) →
        m = p.setChan c { x with
          seq := { x.seq with queue := rest }
          playlist := x.playlist.map fun e => if k.standing = .live ∧ e.id = k.event ∧ e.cue = .pending ∧ e.unmarked = true then
            { e with cue := .cueing, bound := some (p.templateOf e) } else e } →
        (k.cond.holds x.seq.last = false → p.takeHeads c = m.takeHeads c) ∧
        (k.cond.holds x.seq.last = true →
          (∀ i, x.portInUse = some i → (p.port i).state = .up →
            p.takeHeads c = m.setPort i { p.port i with slotCue := some (c, k) }) ∧
          (x.portInUse = none ∨ (∃ i, x.portInUse = some i ∧ (p.port i).state ≠ .up) →
            p.takeHeads c = (m.cueOutcome c k .timeout).takeHeads c)))) ∧
  (∀ (c : Chan) (p : Plant) (i : PortNo) (y : Port) (k : StepEntry) (x : Channel) (at' : Nat → List Byte), p.chan c = x →
    p.port i = y → y.state = .up → y.outstanding = none → y.grantHeld = false → y.claim = [] → y.shift = none →
    y.slotCue = some (c, k) → (∀ t, at' t = dayLabelBytes (dayLabelOf (p.family c) x.baseDay t)) →
    p.arbitrate i = { p.setPort i { y with
        slotCue := none, outstanding := some { cmd := k.action.cmd, requester := .cue c k }
        shift := some (.frame k.action.cmd.frame), holding := none, replyTimer := none, attempt := 1, failures := []
        tryTimeout := y.replyTimeout, tryRetries := y.retries } with
      outbox := p.outbox ++ (if k.due + 2 < x.now then
        [.notice ⟨.cueLate, some c, u32 k.event ++ u8 k.step ++ u8 k.rep ++ at' k.due ++ at' x.now ++ u32 (x.now - k.due)⟩]
        else []) })

/-- R119, R124 to R126: an outcome handed to a channel's Cue Sequencer is its last outcome; a ROLL done moves its event from
CUEING to ROLLING; a VERIFY that matches drops the rest of its step. A VERIFY that mismatches, is refused, or has no reply or none
that is whole sends CUE FAULT with its reason (presence bytes and numbers: log entry 44), and moves nothing before its last
repetition; the last takes the step's action: IGNORE nothing, HALT the halt, SKIP_EVENT by the event's cue state; a PENDING event,
also one that carries BEYOND (log entry 65), binds its template as it becomes SKIPPED (R116). An entry of an event retired
takes its action too (R129, log entry 32), and SKIP_EVENT then finds only its queued entries; one removed takes none; the FILLER of a skipped event on air is decided where nothing holds the switch (log entry
39). -/
def Obligations.OutcomesMoveSteps : Prop :=
  ∀ (c : Chan) (k : StepEntry) (o : DevOutcome) (p q : Plant) (x y : Channel), q = p.cueOutcome c k o → p.chan c = x →
    (x.mode = .idle → q = p) ∧
    (x.mode ≠ .idle → y = { x with seq := { x.seq with last := some o.last } } →
      (∀ cmd, k.action = .send cmd →
        ((cmd ≠ .roll ∨ o ≠ .done ∨ k.standing ≠ .live) → q = p.setChan c y) ∧
        (cmd = .roll → o = .done → k.standing = .live → q = p.setChan c { y with
          playlist := x.playlist.map fun e => if e.id = k.event ∧ e.cue = .cueing then { e with cue := .rolling } else e })) ∧
      (∀ mode clip action, k.action = .verify mode clip action →
        ((∃ m id fr, o = .state m id fr ∧ m = mode ∧ (clip = none ∨ clip = some id)) → k.standing = .live →
          q = p.setChan c { y with
            playlist := x.playlist.map fun e => if e.id = k.event then
              { e with progress := e.progress ++ (repetitions (p.templateOf e)).filter fun r => r.1 == k.step } else e
            seq := { y.seq with queue := x.seq.queue.filter fun t =>
              !(t.event == k.event && t.step == k.step && t.standing == .live) } }) ∧
        ∀ (reason : List Byte) (f : Option Mismatch → Plant),
          ((∃ m id fr, o = .state m id fr ∧ (m ≠ mode ∨ (∃ want, clip = some want ∧ want ≠ id)) ∧
              reason = u8 0 ++ u8 1 ++ u8 mode.code ++ u8 1 ++ u8 m.code ++ u8 1 ++ str id) ∨
            (((∃ n, o = .refused n) ∨ o = .done) ∧ reason = u8 1 ++ u8 0 ++ u8 0 ++ u8 0) ∨
            (o = .timeout ∧ reason = u8 2 ++ u8 0 ++ u8 0 ++ u8 0) ∨
            (o = .lineError ∧ reason = u8 3 ++ u8 0 ++ u8 0 ++ u8 0)) →
          (∀ a, f a = (p.setChan c y).emit (.notice ⟨.cueFault, some c,
            u32 k.event ++ u8 1 ++ u8 k.step ++ u8 1 ++ u8 k.rep ++ u8 1 ++ flag k.isLast ++ reason ++
              opt u8 (a.map Mismatch.code)⟩)) →
          (k.isLast = false ∨ k.standing = .removed → q = f none) ∧
          (k.isLast = true → k.standing ≠ .removed →
            (action = .ignore → q = f (some .ignore)) ∧
            (action = .halt → x.seq.halted = true → q = f (some .halt)) ∧
            (action = .halt → x.seq.halted = false →
              q.chan c = { y with seq := { y.seq with halted := true, queue := [] } } ∧
              (∀ i, (∀ e, (p.port i).slotCue = some (c, e) → q.port i = { p.port i with slotCue := none }) ∧
                ((∀ e, (p.port i).slotCue ≠ some (c, e)) → q.port i = p.port i)) ∧
              q.outbox = (f (some .halt)).outbox ++ [.notice ⟨.sequenceHalted, some c,
                u8 1 ++ u8 1 ++ u8 1 ++ u8 1 ++ u32 k.event ++ u8 1 ++ u8 k.step⟩] ∧
              q.hold = p.hold ∧ p.Still q ∧ p.OtherChans q c) ∧
            (action = .skipEvent → k.standing = .retired ∨ findEvent x.playlist k.event = none →
              q = (f (some .skipEvent)).setChan c { y with
                seq := { y.seq with queue := x.seq.queue.filter fun t => !(t.event == k.event && t.standing == k.standing) } }) ∧
            (action = .skipEvent → k.standing = .live → ∀ (e : Event) (z : Channel) (spent : Event → Event),
              findEvent x.playlist k.event = some e →
              (∀ j, spent j = { j with progress := j.progress ++ repetitions (p.templateOf j) }) →
              z = { y with seq := { y.seq with queue := x.seq.queue.filter fun t => !(t.event == k.event && t.standing == .live) } } →
              (e.cue = .pending ∨ e.cue = .cueing ∨ e.cue = .rolling → q = (f (some .skipEvent)).setChan c { z with
                playlist := x.playlist.map fun j => if j.id = k.event then { spent j with
                  cue := .skipped, bound := if j.cue = .pending then some (p.templateOf j) else j.bound } else j }) ∧
              (e.cue = .done ∨ e.cue = .skipped ∨ (e.cue = .airing ∧ x.mode.running = false) →
                q = (f (some .skipEvent)).setChan c { z with
                  playlist := x.playlist.map fun j => if j.id = k.event then spent j else j }) ∧
              (e.cue = .airing → x.mode.running = true → ∀ line, line = p.nextLineFrame c →
                q = (f (some .skipEvent)).setChan c { z with
                  playlist := x.playlist.map fun j => if j.id = k.event then { spent j with skipEnded := true } else j
                  pendingSw := if x.pendingSw.any (fun w => w.cause != .follow) then x.pendingSw else
                    [{ pos := .filler, frame := line, cause := .follow, act := .plain }] })))))

/-- R127, R128, R120: the cue states that a frame start moves: an AIRING event at its end is DONE; an unmarked one that has
reached its start is AIRING (or DONE, its end passed with it), an eclipsed one SKIPPED; a CLIP at its roll point is ROLLING where
no ROLL is sent for it, and with a step due CUEING while steps are not issued; a marked event stays as it is before its start. An
event that leaves PENDING binds its template. EMPTY_TEMPLATE is told once (the presence bytes of that CUE FAULT: log entry 44).
The cursor then stands on the first event neither DONE nor SKIPPED nor passed over. Whether steps are issued is what the frame
start settled (log entry 56). -/
def Obligations.CueStatesMove : Prop :=
  (∀ (c : Chan) (stepped : Bool) (p q : Plant) (x : Channel), q = p.moveCues c stepped → p.chan c = x →
    (x.playlist.map (·.id)).Nodup →
    (q.chan c).seq.cursor = ((q.chan c).playlist.find? fun e => e.cue != .done && e.cue != .skipped && !e.passedOver).map (·.id) ∧
    (∀ past events : List Event, x.playlist = past ++ events → (∀ e ∈ past, x.seq.cursor ≠ some e.id) →
      x.seq.cursor = events.head?.map (·.id) →
      (q.chan c).playlist.map (fun e => { e with
          cue := .pending, bound := none, asRun := false, emptyTold := false, begunHalted := false }) =
        x.playlist.map (fun e => { e with
          cue := .pending, bound := none, asRun := false, emptyTold := false, begunHalted := false }) ∧
      ∀ e ∈ x.playlist, ∀ y ∈ (q.chan c).playlist, y.id = e.id →
        ∀ (roll : Nat) (sends : Bool), roll = e.rstart - p.prerollInUse c →
          (sends = true ↔ ∃ st ∈ p.templateOf e, st.body = .sendRoll) →
        (e.cue = .airing → (e.rend ≤ x.now → y.cue = .done) ∧ (x.now < e.rend → y.cue = .airing)) ∧
        (e.cue = .done ∨ e.cue = .skipped ∨ (e.cue ≠ .airing ∧ e ∈ past) → y.cue = e.cue ∧ y.bound = e.bound) ∧
        (e ∈ events → e.cue = .pending ∨ e.cue = .cueing ∨ e.cue = .rolling →
          (e.unmarked = true → e.rstart ≤ x.now →
            (e.rend ≤ x.now → y.cue = .done) ∧ (x.now < e.rend → y.cue = .airing ∧ y.begunHalted = x.seq.halted)) ∧
          (e.eclipsed = true → e.rstart ≤ x.now → y.cue = .skipped) ∧
          (e.unmarked = false → (e.eclipsed = false ∨ x.now < e.rstart) → y.cue = e.cue) ∧
          (e.unmarked = true → x.now < e.rstart →
            (e.kind = .clip → e.cue ≠ .rolling → roll ≤ x.now → sends = false ∨ x.seq.issuing = false → y.cue = .rolling) ∧
            (e.kind = .clip → e.cue = .pending → x.now < roll → x.seq.issuing = false →
              (∃ (n : Nat) (st : Step) (rep : Nat), (p.templateOf e)[n]? = some st ∧ rep ≤ st.repeats ∧
                dueFrame (p.prerollInUse c) e st rep ≤ x.now) →
              y.cue = .cueing) ∧
            (e.kind = .filler ∨ e.cue = .rolling ∨ (sends = true ∧ x.seq.issuing = true) ∨
              (x.now < roll ∧ (e.cue ≠ .pending ∨ x.seq.issuing = true ∨
                ∀ (n : Nat) (st : Step) (rep : Nat), (p.templateOf e)[n]? = some st → rep ≤ st.repeats →
                  x.now < dueFrame (p.prerollInUse c) e st rep)) →
              y.cue = e.cue)) ∧
          (e.cue = .pending → y.cue ≠ .pending → y.bound = some (p.templateOf e)) ∧
          (e.cue ≠ .pending ∨ y.cue = .pending → y.bound = e.bound)))) ∧
  (∀ (c : Chan) (stepped : Bool) (p : Plant) (x : Channel) (e : Event), p.chan c = x → findEvent x.playlist e.id = some e →
    e.cue = .pending ∨ e.cue = .cueing → e.kind = .clip → e.unmarked = true → p.templateOf e = [] →
    e.rstart - p.prerollInUse c ≤ x.now → x.now < e.rstart →
    (p.moveCue c stepped e.id).outbox = p.outbox ++ (if e.emptyTold then [] else
      [.notice ⟨.cueFault, some c, u32 e.id ++ u8 0 ++ u8 0 ++ u8 0 ++ u8 4 ++ u8 0 ++ u8 0 ++ u8 0 ++ u8 0⟩]) ∧
    findEvent ((p.moveCue c stepped e.id).chan c).playlist e.id =
      some { e with cue := .rolling, emptyTold := true, bound := if e.cue = .pending then some [] else e.bound })

/-! ## Channels and takeover (chapter 7) -/

/-- R136, R137: SET CHANNEL: its refusals in their order, and a channel that leaves IDLE, every block's state started. R138: a
channel in SHADOW that keeps its primary port takes the new configuration and keeps everything else; one that takes a new primary
port works with that port at once, its lists and its slot on the old port withdrawn (where nothing of it stood there and no step is
queued, nothing else changes). The base day compared is the one in force (log entry 12). R136, with R86: a configuration record is
judged field by field, and one that passes is stored as sent. -/
def Obligations.SetChannelFollowsR136 : Prop :=
  (∀ (tag : Nat) (a : SetChannelArgs) (s : State), s.Admits tag →
    (15 < a.channel → exec (.setChannel tag (.sound a)) s = .next (s.answered tag 0x0C s.plant .noSuchChannel [])) ∧
    ∀ (c : Chan) (x : Channel), a.channel = c.val → s.plant.chan c = x →
      (s.plant.configOf a.config = none →
        exec (.setChannel tag (.sound a)) s = .next (s.answered tag 0x0C s.plant .badArgument [])) ∧
      ∀ g, s.plant.configOf a.config = some g →
        ((x.mode ≠ .idle ∧ x.mode ≠ .shadow) ∨
            (x.mode = .shadow ∧ ∃ old, x.config = some old ∧ (old.reference ≠ g.reference ∨ x.baseDay ≠ g.baseDay)) ∨
            ((x.mode = .idle ∨ x.mode = .shadow) ∧ (s.plant.ref g.reference).configured = false) →
          exec (.setChannel tag (.sound a)) s = .next (s.answered tag 0x0C s.plant .wrongMode [])) ∧
        (x.mode = .idle ∨ (x.mode = .shadow ∧ ∃ old, x.config = some old ∧ old.reference = g.reference ∧ x.baseDay = g.baseDay) →
          (s.plant.ref g.reference).configured = true →
          ((s.plant.port g.primary).role ≠ .primary ∨
              (∃ d, d ≠ c ∧ s.plant.primary d = some g.primary ∧ (s.plant.chan d).mode ≠ .idle) →
            exec (.setChannel tag (.sound a)) s = .next (s.answered tag 0x0C s.plant .portTaken [])) ∧
          ((s.plant.port g.primary).role = .primary →
            (∀ d, d ≠ c → s.plant.primary d = some g.primary → (s.plant.chan d).mode = .idle) →
            ∀ hb, hb = g.heartbeat.getD s.plant.hbTimeout →
            (x.mode = .idle → ∃ q, exec (.setChannel tag (.sound a)) s =
                .next (s.answered tag 0x0C q .ok (u8 1 ++ u8 0 ++ u8 0)) ∧
              q = { s.plant.setChan c { Channel.reset with
                      now := (s.plant.ref g.reference).family.fpd + (s.plant.ref g.reference).station, baseDay := g.baseDay,
                      config := some g, mode := .shadow, portInUse := some g.primary, lineInForce := g.switchLine,
                      replica := { Replica.reset with reloadTimer := some 0 } } with
                    hold := s.plant.hold.filter fun h => h.channel != c
                    hbTimeout := hb
                    outbox := s.plant.outbox ++ [.back (.askReload c), .notice ⟨.replicaState, some c,
                      u8 0 ++ u8 0 ++ u8 0 ++ u8 0 ++ u8 0 ++ u8 0 ++ u8 0 ++ u8 0 ++ u8 0⟩] }) ∧
            (x.mode = .shadow → s.plant.primary c = some g.primary →
              exec (.setChannel tag (.sound a)) s = .next (s.answered tag 0x0C
                { s.plant.setChan c { x with config := some g } with hbTimeout := hb } .ok
                (u8 1 ++ u8 x.replica.state.code ++ u8 x.watch.health.code))) ∧
            (∀ old, x.mode = .shadow → s.plant.primary c = some old → old ≠ g.primary →
              (∃ q, exec (.setChannel tag (.sound a)) s = .next (s.answered tag 0x0C q .ok
                  (u8 1 ++ u8 x.replica.state.code ++ u8 x.watch.health.code)) ∧
                (q.chan c).config = some g ∧ (q.chan c).portInUse = some g.primary ∧ (q.chan c).mode = .shadow ∧
                (q.chan c).switch = x.switch ∧ (q.chan c).now = x.now ∧ (q.chan c).baseDay = x.baseDay ∧
                (q.chan c).replica = x.replica ∧ (q.chan c).watch = x.watch ∧
                (q.chan c).playlist.map Event.plan = x.playlist.map Event.plan ∧ q.hbTimeout = hb ∧
                q.hold = s.plant.hold ∧ q.spareQueue = s.plant.spareQueue ∧
                (∀ l ∈ (q.port old).claim, l.channel = c → l.cmds = []) ∧ ∀ k, (q.port old).slotCue ≠ some (c, k)) ∧
              (x.seq.queue = [] → s.plant.OnlyFor old c → s.plant.OnlyFor g.primary c →
                (∀ k u live, (s.plant.port old).outstanding ≠ some ⟨k, .changeover c u live⟩) →
                exec (.setChannel tag (.sound a)) s = .next (s.answered tag 0x0C
                  { s.plant.setChan c { x with config := some g, portInUse := some g.primary } with hbTimeout := hb } .ok
                  (u8 1 ++ u8 x.replica.state.code ++ u8 x.watch.health.code))))))) ∧
  (∀ (p : Plant) (r : RawConfig),
    (∀ g, p.configOf r = some g ↔
      RefId.ofCode r.reference = some g.reference ∧ r.primary = g.primary.val ∧ r.spares = g.spares ∧ g.spares < 1048576 ∧
      Standby.ofCode r.standby = some g.standby ∧ Policy.ofCode r.policy = some g.policy ∧
      r.confirmWindow = g.confirmWindow ∧ 1 ≤ g.confirmWindow ∧ g.confirmWindow ≤ 600 ∧ Bridge.ofCode r.bridge = some g.bridge ∧
      r.cueLead = g.cueLead ∧ 1 ≤ g.cueLead ∧ g.cueLead ≤ 250 ∧ r.tailGuard = g.tailGuard ∧ g.tailGuard ≤ 1500 ∧
      r.returnLead = g.returnLead ∧ 25 ≤ g.returnLead ∧ g.returnLead ≤ 1500 ∧ r.verifyTol = g.verifyTol ∧ g.verifyTol ≤ 10 ∧
      r.switchLine = g.switchLine ∧ 1 ≤ g.switchLine ∧ g.switchLine ≤ (p.ref g.reference).family.lines ∧
      r.baseDay = g.baseDay ∧ g.baseDay ≤ 65535 ∧ r.watch = g.watch ∧ watchSound g.watch = true ∧
      r.heartbeat = g.heartbeat ∧ ∀ h, g.heartbeat = some h → 50 ≤ h ∧ h ≤ 5000) ∧
    (∀ w : WatchParams, watchSound w = true ↔
      w.weights.noSignal ≤ 15 ∧ w.weights.black ≤ 15 ∧ w.weights.frozen ≤ 15 ∧ w.weights.silent ≤ 15 ∧
      w.weights.tcLoss ≤ 15 ∧ w.weights.tcJump ≤ 15 ∧ w.weights.noProbe ≤ 15 ∧ w.weights.siteSilent ≤ 15 ∧
      w.sensitivity ≤ 3 ∧ 1 ≤ w.recovery ∧ w.recovery ≤ 15 ∧ 1 ≤ w.degradeAt ∧ w.degradeAt ≤ w.failAt ∧ w.failAt ≤ 255 ∧
      w.recoverAt < w.failAt ∧ 1 ≤ w.warmUp ∧ w.warmUp ≤ 255 ∧ w.agreeTol ≤ 250))

/-- R139: CLEAR CHANNEL puts a channel in SHADOW back to IDLE, its switch where it stands, its hold entries and its place in the
spare queue gone, its lists on its primary port and on a spare that it held withdrawn, an outstanding command of them no longer
wanted; in IDLE it clears the channel's missed-notice flag alone (log entry 49); in every other mode it is refused. -/
def Obligations.ClearChannelEmpties : Prop :=
  ∀ (tag n : Nat) (s : State), s.Admits tag →
    (15 < n → exec (.clearChannel tag (.sound n)) s = .next (s.answered tag 0x0D s.plant .noSuchChannel [])) ∧
    ∀ c : Chan, n = c.val →
      ((s.plant.chan c).mode ≠ .idle → (s.plant.chan c).mode ≠ .shadow →
        exec (.clearChannel tag (.sound n)) s = .next (s.answered tag 0x0D s.plant .wrongMode [])) ∧
      ((s.plant.chan c).mode = .idle → exec (.clearChannel tag (.sound n)) s =
        .next (s.answered tag 0x0D (s.plant.emit (.clearMissed c)) .ok [])) ∧
      ((s.plant.chan c).mode = .shadow → ∃ q, exec (.clearChannel tag (.sound n)) s = .next (s.answered tag 0x0D q .ok []) ∧
        q.chan c = { Channel.reset with switch := (s.plant.chan c).switch } ∧
        q.hold = s.plant.hold.filter (fun h => h.channel != c) ∧ c ∉ q.spareQueue ∧
        (∀ i k, (q.port i).slotCue ≠ some (c, k)) ∧ .dropBack c ∈ q.outbox ∧ .clearMissed c ∈ q.outbox ∧
        (∀ i, s.plant.primary c = some i ∨ ((s.plant.port i).holder = some c ∧ ∀ j, (s.plant.port j).holder = some c → j = i) →
          (∀ l ∈ (q.port i).claim, l.channel = c → l.cmds = []) ∧
          ∀ k u live, (q.port i).outstanding = some ⟨k, .changeover c u live⟩ → live = false) ∧
        (∀ i, s.plant.primary c = some i → (∀ j, (s.plant.port j).holder ≠ some c) →
          (∀ k d u live, (s.plant.port i).outstanding ≠ some ⟨k, .changeover d u live⟩) →
          ∀ l ∈ (q.port i).claim, l.channel ≠ c) ∧
        s.plant.Still q)

/-- R145 to R148, R150, R151: TAKE and CONFIRM: what refuses them, and the take that they begin on a COLD channel whose primary
port is UP and works for nobody: its record, the mode TAKING, the bridge made pending, and the cold join from now at T = now + L +
P, with its list on the port and its LOCAL switch pending at T, or the bridge to FILLER. R133: a halt flag is cleared, with its
notice. R141: a decision for the next line replaces all that is pending. What is not named stands as it stood.
R153: a POINT done before the ROLL frame changes nothing but the last outcome; a late one computes the join again once, and the
second fails it with LATE_TWICE. R154: a join of a take that fails turns to a spare granted at once (whether a rejoin was made
starts afresh, log entry 58), and otherwise FILLER is pending with which the take ends FAILED, the channel waiting with no port,
or keeping the spare it holds. R162: a local join that fails on a primary port that is UP with no spare to be lent goes back to
that port at once. The model's choices in this: the cursor of a bridge (log entry 23), a POINT that is late after the LOCAL switch
makes a local join (33), the bridge of a take decided again where a join that is no longer live had replaced it (35), the wait of a
take that ends FAILED on a primary port that stays UP (85), JOIN FAILED sent as a local join fails (89), before the look
at the primary port (93), the FILLER of a bridge cancelled with its join (94), what that join keeps of the
record, its verify result among it (69), the stage left as it stands until the FAILED line (70), which bridge reason is recorded where more than one holds (77), and no join in the record of one that
bridges (78). -/
def Obligations.TakeBeginsWithColdJoin : Prop :=
  (∀ (tag n k : Nat) (s : State), s.Admits tag →
    (15 < n → exec (.take tag (.sound ⟨n, k⟩)) s = .next (s.answered tag 0x0E s.plant .noSuchChannel [])) ∧
    (n < 16 → 1 < k → exec (.take tag (.sound ⟨n, k⟩)) s = .next (s.answered tag 0x0E s.plant .badArgument []))) ∧
  ∀ (tag n : Nat) (cmd : Instr) (kind : TakeKind) (o : TakeOption) (body : List Byte) (code : Nat) (s : State) (c : Chan)
      (x : Channel), s.Admits tag → s.plant.chan c = x →
    ((cmd = .take tag (.sound ⟨n, o.code⟩) ∧ kind = .manual ∧ code = 0x0E ∧
        body = dayLabelBytes (dayLabelOf (s.plant.family c) x.baseDay x.now)) ∨
      (cmd = .confirm tag (.sound n) ∧ kind = .confirmed ∧ o = .join ∧ code = 0x0F ∧ body = [])) →
    (15 < n → exec cmd s = .next (s.answered tag code s.plant .noSuchChannel [])) ∧
    (n = c.val →
      (x.mode = .taking ∨ x.mode = .onLocal ∨ x.mode = .returning ∨ x.mode = .orphaned ∨ (kind = .confirmed ∧ x.mode ≠ .confirming) →
        exec cmd s = .next (s.answered tag code s.plant .wrongMode [])) ∧
      (kind = .manual → x.mode = .idle → exec cmd s = .next (s.answered tag code s.plant .notConfigured [])) ∧
      ∀ g i z t line, x.mode = .confirming ∨ (kind = .manual ∧ x.mode = .shadow) → x.config = some g → g.standby = .cold →
        i = g.primary → z = s.plant.port i → z.state = .up → z.outstanding = none → z.shift = none → s.plant.OnlyFor i c →
        t = x.now + g.cueLead + z.preroll →
        line = (if x.lineInForce ≤ (s.plant.ref g.reference).raised then x.now + 1 else x.now) →
        ∃ (q : Plant) (k : TakeRec) (y : Channel), exec cmd s = .next (s.answered tag code q .ok body) ∧ y = q.chan c ∧
          k.kind = kind ∧ k.option = o ∧ k.start = x.now ∧ k.stage = .joining ∧ k.port = some i ∧
          k.verify = none ∧ k.result = none ∧ k.failure = none ∧ k.rejoined = false ∧
          y = { x with
            takeRec := some k, mode := .taking, confirm := none, portInUse := some i, pendingSw := y.pendingSw
            playlist := y.playlist, seq := { x.seq with queue := [], cursor := y.seq.cursor, halted := false } } ∧
          y.playlist.map (fun e => { e with cue := .pending, bound := none, progress := [], joinOffset := none, passedOver := false }) =
            x.playlist.map (fun e => { e with cue := .pending, bound := none, progress := [], joinOffset := none, passedOver := false }) ∧
          q.hold = s.plant.hold ∧ q.spareQueue = s.plant.spareQueue ∧
          q.outbox = s.plant.outbox ++ (if x.seq.halted = true then
            [.notice ⟨.sequenceHalted, some c, u8 0 ++ u8 0 ++ u8 0 ++ u8 0⟩] else []) ∧
          s.plant.Still q ∧ s.plant.OtherChans q c ∧ s.plant.OtherUse q c i ∧
          (∀ e, coverAt x.playlist t = some e → joinRefusal g.tailGuard t e = none →
            k.bridgeReason = none ∧
            k.join = some { now0 := x.now, t := t, event := e.id, offset := t - e.rstart, cue := e.som + (t - e.rstart),
                            roll := some (t - z.preroll) } ∧
            (q.port i).claim = [{ channel := c, purpose := .join, cmds :=
              [{ cmd := .point (e.som + (t - e.rstart)), notBefore := none },
               { cmd := .roll, notBefore := some (t - z.preroll) }] }] ∧
            (q.port i).outstanding = some { cmd := .select e.clipId, requester := .changeover c .join true } ∧
            (q.port i).shift = some (.frame (DevCmd.select e.clipId).frame) ∧
            y.seq.cursor = some e.id ∧
            y.pendingSw = (if (o = .fillerFirst ∨ g.bridge = .filler) ∧ line < t then
                [{ pos := .filler, frame := line, cause := .bridge, act := .bridge }] else []) ++
              [{ pos := .onLocal, frame := t, cause := .take, act := .joinLocal }]) ∧
          (∀ r, (coverAt x.playlist t = none ∧ r = .noEvent) ∨
              (∃ e, coverAt x.playlist t = some e ∧ joinRefusal g.tailGuard t e = some r) →
            k.join = none ∧ k.bridgeReason = some r ∧ (q.port i).claim = [] ∧ (q.port i).outstanding = none ∧
            y.seq.cursor = (x.playlist.find? fun e => decide (t < e.rstart) && e.cue != .done && e.cue != .skipped).map (·.id) ∧
            y.pendingSw = [{ pos := .filler, frame := line, cause := .bridge, act := .joinBridge t }])) ∧
  ∀ (p : Plant) (c : Chan) (i : PortNo) (x : Channel) (g : ChannelConfig) (k : TakeRec) (z : Port) (line : Nat)
      (kept : List PendingSw) (joined : Plant → PortNo → Nat → Prop),
    p.chan c = x → x.config = some g → x.takeRec = some k → p.port i = z → x.mode = .taking ∨ x.mode = .onLocal ∨ x.mode = .returning →
    z.state = .up → z.outstanding = none → z.shift = none → z.grantHeld = false → z.slotPass = none →
    (∀ l ∈ z.claim, l.channel = c ∧ l.purpose = .join) → (∀ d, d ≠ c → (p.chan d).portInUse ≠ some i) →
    (∀ y, z.slotCue = some y → y.1 = c) →
    line = (if x.lineInForce ≤ (p.ref g.reference).raised then x.now + 1 else x.now) →
    kept = (if x.mode = .taking ∧ x.switch = .main ∧ x.pendingSw.filter (fun w => !w.act.ofJoin) = [] ∧
        (k.option = .fillerFirst ∨ g.bridge = .filler) then [{ pos := .filler, frame := line, cause := .bridge, act := .bridge }]
      else x.pendingSw.filter (fun w => !w.act.ofJoin)) →
    (∀ q n t, joined q n t ↔ ∃ m : TakeRec, (q.chan c).takeRec = some m ∧
      (∀ e, coverAt x.playlist t = some e → joinRefusal g.tailGuard t e = none →
        m.join = some { now0 := x.now, t := t, event := e.id, offset := t - e.rstart, cue := e.som + (t - e.rstart),
                        roll := some (t - (p.port n).preroll) } ∧ m.bridgeReason = none ∧
        (q.chan c).pendingSw = (if line < t then kept.filter (fun w => w.frame < t) else []) ++
          [{ pos := .onLocal, frame := t, cause := .take, act := .joinLocal }] ∧
        ∃ l ∈ (q.port n).claim, l.channel = c ∧ l.purpose = .join) ∧
      (∀ r, (coverAt x.playlist t = none ∧ r = .noEvent) ∨
          (∃ e, coverAt x.playlist t = some e ∧ joinRefusal g.tailGuard t e = some r) →
        m.join = none ∧ m.bridgeReason = some r ∧
        (q.chan c).pendingSw = [{ pos := .filler, frame := line, cause := .bridge, act := .joinBridge t }])) →
    (∀ j roll f q, k.join = some j → j.roll = some roll → q = p.listOutcome c i .join true (.point f) .done →
      (x.now < roll → q = p.setChan c { x with seq := { x.seq with last := some .done } }) ∧
      (roll ≤ x.now → k.rejoined = true →
        q = (p.setChan c { x with seq := { x.seq with last := some .done } }).joinFail c i .lateTwice) ∧
      (roll ≤ x.now → k.rejoined = false →
        joined q i (x.now + g.cueLead + z.preroll) ∧ q.outbox = p.outbox ∧
        (∃ m, (q.chan c).takeRec = some m ∧ m.stage = .rejoining ∧ m.rejoined = true ∧ m.port = some i ∧ m.verify = k.verify ∧
          (x.mode = .taking → m.kind = k.kind) ∧ (x.mode ≠ .taking → m.kind = .localJoin)) ∧
        (q.chan c).mode = x.mode ∧ (q.chan c).switch = x.switch ∧ (q.chan c).portInUse = x.portInUse ∧
        (q.chan c).seq.queue = [] ∧ (q.chan c).seq.last = some .done ∧ q.spareQueue = p.spareQueue ∧ p.Still q ∧ p.OtherChans q c)) ∧
    (∀ r q, q = p.joinFail c i r → x.mode = .taking →
      (z.holder = some c → q.chan c = { x with
          playlist := (q.chan c).playlist, seq := { x.seq with queue := [], cursor := (q.chan c).seq.cursor }
          pendingSw := [{ pos := .filler, frame := line, cause := .portLoss, act := .takeFailed i r }] } ∧
        q.spareQueue = p.spareQueue ∧ p.Still q ∧ p.OtherChans q c) ∧
      (i = g.primary → z.role = .primary → (∀ s, (p.port s).holder ≠ some c) → c ∉ p.spareQueue →
        ((∀ s, (p.port s).role = .spare → (p.port s).state = .up → (p.port s).holder = none → g.spares.testBit s.val = false) →
          q.chan c = { x with
            playlist := (q.chan c).playlist, seq := { x.seq with queue := [], cursor := (q.chan c).seq.cursor }, portInUse := none
            pendingSw := [{ pos := .filler, frame := line, cause := .portLoss, act := .takeFailed i r }] } ∧
          q.spareQueue = p.spareQueue ++ [c] ∧ p.Still q ∧ p.OtherChans q c) ∧
        (k.stage ≠ .ended → ∀ s : PortNo, (p.port s).role = .spare → (p.port s).state = .up → (p.port s).holder = none →
          g.spares.testBit s.val = true →
          (∀ s' : PortNo, s'.val < s.val → (p.port s').role = .spare → (p.port s').state = .up → (p.port s').holder = none →
            g.spares.testBit s'.val = false) →
          joined q s (x.now + g.cueLead + (p.port s).preroll) ∧
          (∃ m, (q.chan c).takeRec = some m ∧ m.stage = .joining ∧ m.rejoined = false ∧ m.port = some s ∧ m.kind = k.kind) ∧
          (q.chan c).mode = .taking ∧ (q.chan c).switch = x.switch ∧ (q.chan c).portInUse = some s ∧ (q.chan c).seq.queue = [] ∧
          (q.port s).holder = some c ∧ q.spareQueue = p.spareQueue ∧ ⟨.spareGranted, some c, u8 s.val⟩ ∈ q.notices ∧
          p.Still q ∧ p.OtherChans q c))) ∧
    (∀ r q, q = p.joinFail c i r → x.mode ≠ .taking → i = g.primary → (∀ s, (p.port s).holder ≠ some c) → c ∉ p.spareQueue →
      (∀ s, (p.port s).role = .spare → (p.port s).state = .up → (p.port s).holder = none → g.spares.testBit s.val = false) →
      (q.chan c).mode = x.mode ∧ (q.chan c).switch = x.switch ∧ (q.chan c).portInUse = some i ∧ q.spareQueue = p.spareQueue ∧
      (∃ m, (q.chan c).takeRec = some m ∧ m.kind = .localJoin ∧ m.stage = .joining ∧ m.port = some i ∧ m.result = none) ∧
      ⟨.joinFailed, some c, u8 3 ++ u8 r.code ++ u8 i.val ++ u8 1⟩ ∈ q.notices ∧ p.Still q ∧ p.OtherChans q c)

/-- R147, R149: a take on a HOT channel whose primary port is UP and works for nobody sends one ASK and waits in VERIFYING. Its
outcome, handed back in frame f, is judged in the order of the rule (a halt flag is cleared as the take begins, R133); a verified take joins at f + 1 with nothing more sent, and
any other goes on with a cold join from f on the same port. What is not named of the channel stands as it stood. R161, R162: the
port in use of a channel in local running is lost: its join is no longer live, the switch leaves LOCAL at its next line, the entry
of a CLIP event put on air from the port is closed (where the switch stands elsewhere, at once, log entry 36), but that of an event
whose switch had already gone to FILLER, as of an adopted one, stays open (log entry 71), and JOIN FAILED is
sent; an entry that is to end at the line is marked so. A spare to be lent becomes the port in use and a local join begins on it, and else the channel waits with none. A channel
that waits goes back to its primary port when that is UP. The cursor of a bridge is log entry 23, which bridge reason is recorded
where more than one holds 77, that a join which bridges leaves none in the record 78, a take's bridge decided again 35, and the
FILLER of a bridge cancelled with its join 94. -/
def Obligations.HotTakeVerifies : Prop :=
  (∀ (tag n : Nat) (cmd : Instr) (kind : TakeKind) (o : TakeOption) (body : List Byte) (code : Nat) (s : State) (c : Chan)
      (x : Channel) (g : ChannelConfig) (i : PortNo) (z : Port) (line : Nat), s.Admits tag → s.plant.chan c = x → n = c.val →
    ((cmd = .take tag (.sound ⟨n, o.code⟩) ∧ kind = .manual ∧ code = 0x0E ∧
        body = dayLabelBytes (dayLabelOf (s.plant.family c) x.baseDay x.now)) ∨
      (cmd = .confirm tag (.sound n) ∧ kind = .confirmed ∧ o = .join ∧ code = 0x0F ∧ body = [])) →
    x.mode = .confirming ∨ (kind = .manual ∧ x.mode = .shadow) → x.config = some g → g.standby = .hot → i = g.primary →
    z = s.plant.port i → z.state = .up → z.outstanding = none → z.shift = none → s.plant.OnlyFor i c →
    line = (if x.lineInForce ≤ (s.plant.ref g.reference).raised then x.now + 1 else x.now) →
    exec cmd s = .next (s.answered tag code
      { (s.plant.setChan c { x with
          seq := { x.seq with halted := false }
          takeRec := some { kind := kind, option := o, start := x.now, stage := .verifying, port := some i, join := none,
                            bridgeReason := none, verify := none, result := none, failure := none, rejoined := false }
          mode := .taking, confirm := none, portInUse := some i
          pendingSw := if o = .fillerFirst ∨ g.bridge = .filler then
            [{ pos := .filler, frame := line, cause := .bridge, act := .bridge }] else [] }).setPort i { z with
        outstanding := some { cmd := .ask, requester := .changeover c .verify true }, shift := some (.frame DevCmd.ask.frame)
        holding := none, replyTimer := none, attempt := 1, failures := [], tryTimeout := z.replyTimeout, tryRetries := z.retries
        claim := [{ channel := c, purpose := .verify, cmds := [] }] } with
        outbox := s.plant.outbox ++ (if x.seq.halted = true then
          [.notice ⟨.sequenceHalted, some c, u8 0 ++ u8 0 ++ u8 0 ++ u8 0⟩] else []) } .ok body)) ∧
  (∀ (s : State) (c : Chan) (x : Channel) (g : ChannelConfig) (i : PortNo) (z : Port) (k : TakeRec) (cmd : Instr) (o : DevOutcome)
      (v : VerifyResult), s.plant.chan c = x → x.mode = .taking → x.config = some g → x.takeRec = some k → k.stage = .verifying →
    x.portInUse = some i → (∀ d, d ≠ c → (s.plant.chan d).portInUse ≠ some i) → s.plant.port i = z → z.state = .up →
    z.outstanding = some { cmd := .ask, requester := .changeover c .verify true } → z.replyTimer.isSome →
    z.claim = [{ channel := c, purpose := .verify, cmds := [] }] → z.shift = none → z.slotCue = none → z.slotPass = none →
    z.grantHeld = false →
    (cmd = .deviceReply i .done ∧ o = .refused none) ∨ (∃ m, cmd = .deviceReply i (.refused m) ∧ o = .refused m) ∨
      (∃ m clip f, cmd = .deviceReply i (.state m clip f) ∧ o = .state m clip f) ∨
      (cmd = .replyTimeout i ∧ z.tryRetries < z.attempt ∧ z.timeouts ≠ 2 ∧ o = .timeout) →
    (v = .refused ∧ ∃ m, o = .refused m) ∨ (v = .timeout ∧ o = .timeout) ∨
      (v = .mismatch ∧ ∃ m clip f, o = .state m clip f ∧ m ≠ .rolling) ∨
      (v = .noEvent ∧ (∃ clip f, o = .state .rolling clip f) ∧ coverAt x.playlist (x.now + 1) = none) ∨
      (∃ clip f e, o = .state .rolling clip f ∧ coverAt x.playlist (x.now + 1) = some e ∧
        ((v = .fillerEvent ∧ e.kind = .filler) ∨
         (v = .mismatch ∧ e.kind = .clip ∧ (clip ≠ e.clipId ∨
            (f : Int) < (e.som : Int) + x.now - e.rstart - g.verifyTol ∨ (e.som : Int) + x.now - e.rstart + g.verifyTol < f)) ∨
         (e.kind = .clip ∧ clip = e.clipId ∧ (e.som : Int) + x.now - e.rstart - g.verifyTol ≤ f ∧
            (f : Int) ≤ (e.som : Int) + x.now - e.rstart + g.verifyTol ∧
            ((v = .limit ∧ joinRefusal g.tailGuard (x.now + 1) e ≠ none) ∨
             (v = .verified ∧ joinRefusal g.tailGuard (x.now + 1) e = none))))) →
    ∀ (line : Nat) (kept : List PendingSw),
    line = (if x.lineInForce ≤ (s.plant.ref g.reference).raised then x.now + 1 else x.now) →
    kept = (if x.switch = .main ∧ x.pendingSw = [] ∧ (k.option = .fillerFirst ∨ g.bridge = .filler) then
      [{ pos := .filler, frame := line, cause := .bridge, act := .bridge }] else x.pendingSw) →
    ∃ (q : Plant) (y : Channel), exec cmd s = .next (s.passed q) ∧ y = q.chan c ∧
      y = { x with
        takeRec := y.takeRec, pendingSw := y.pendingSw, playlist := y.playlist
        seq := { x.seq with queue := [], cursor := y.seq.cursor, last := some o.last } } ∧
      y.playlist.map (fun e => { e with cue := .pending, bound := none, progress := [], joinOffset := none, passedOver := false }) =
        x.playlist.map (fun e => { e with cue := .pending, bound := none, progress := [], joinOffset := none, passedOver := false }) ∧
      q.hold = s.plant.hold ∧ q.spareQueue = s.plant.spareQueue ∧ q.outbox = s.plant.outbox ∧
      s.plant.Still q ∧ s.plant.OtherChans q c ∧ s.plant.OtherUse q c i ∧
      (v = .verified → ∀ e t, t = x.now + 1 → coverAt x.playlist t = some e →
        y.takeRec = some { k with
          verify := some .verified
          join := some { now0 := x.now, t := t, event := e.id, offset := t - e.rstart, cue := e.som + (t - e.rstart), roll := none } } ∧
        y.seq.cursor = some e.id ∧ (q.port i).claim = [] ∧ (q.port i).outstanding = none ∧ (q.port i).shift = none ∧
        y.pendingSw = (if line < t then x.pendingSw.filter (fun w => w.frame < t) else []) ++
          [{ pos := .onLocal, frame := t, cause := .take, act := .joinLocal }]) ∧
      (v ≠ .verified → ∀ t, t = x.now + g.cueLead + z.preroll →
        (∀ e, coverAt x.playlist t = some e → joinRefusal g.tailGuard t e = none →
          y.takeRec = some { k with
            verify := some v, stage := .joining, port := some i, bridgeReason := none
            join := some { now0 := x.now, t := t, event := e.id, offset := t - e.rstart, cue := e.som + (t - e.rstart),
                           roll := some (t - z.preroll) } } ∧
          y.seq.cursor = some e.id ∧
          (q.port i).claim = [{ channel := c, purpose := .join, cmds :=
            [{ cmd := .point (e.som + (t - e.rstart)), notBefore := none },
             { cmd := .roll, notBefore := some (t - z.preroll) }] }] ∧
          (q.port i).outstanding = some { cmd := .select e.clipId, requester := .changeover c .join true } ∧
          (q.port i).shift = some (.frame (DevCmd.select e.clipId).frame) ∧
          y.pendingSw = (if line < t then kept.filter (fun w => w.frame < t) else []) ++
            [{ pos := .onLocal, frame := t, cause := .take, act := .joinLocal }]) ∧
        (∀ r, (coverAt x.playlist t = none ∧ r = .noEvent) ∨
            (∃ e, coverAt x.playlist t = some e ∧ joinRefusal g.tailGuard t e = some r) →
          y.takeRec = some { k with
            verify := some v, stage := .joining, port := some i, join := none, bridgeReason := some r } ∧
          y.seq.cursor = (x.playlist.find? fun e => decide (t < e.rstart) && e.cue != .done && e.cue != .skipped).map (·.id) ∧
          (q.port i).claim = [] ∧ (q.port i).outstanding = none ∧
          y.pendingSw = [{ pos := .filler, frame := line, cause := .bridge, act := .joinBridge t }]))) ∧
  ∀ (p : Plant) (c : Chan) (x : Channel) (g : ChannelConfig) (i : PortNo) (line : Nat) (kept : List PendingSw) (label : Nat → DayLabel),
    p.chan c = x → x.config = some g → x.mode = .onLocal ∨ x.mode = .returning →
    line = (if x.lineInForce ≤ (p.ref g.reference).raised then x.now + 1 else x.now) →
    kept = x.pendingSw.filter (fun w => !w.act.ofJoin) → (∀ t, label t = dayLabelOf (p.family c) x.baseDay t) →
    (x.portInUse = some i → p.NoneDue c → (∀ s, (p.port s).holder ≠ some c) → c ∉ p.spareQueue → ∀ q cut, q = p.reportLoss i (some c) →
      (x.openEntry = none → cut = none) →
      (∀ o, x.openEntry = some o → cut = some { o with cutDue := o.cutDue || (o.port.isSome && o.kind != .filler &&
        (findEvent x.playlist o.event).all fun e => e.kind == .clip) }) →
      ((∀ s, (p.port s).role = .spare → (p.port s).state = .up → (p.port s).holder = none → g.spares.testBit s.val = false) →
        (p.port g.primary).state ≠ .up →
        (q.chan c).mode = x.mode ∧ (q.chan c).switch = x.switch ∧ (q.chan c).portInUse = none ∧ (q.chan c).seq = x.seq ∧
        q.spareQueue = p.spareQueue ++ [c] ∧ p.Still q ∧ p.OtherChans q c ∧
        ⟨.joinFailed, some c, u8 3 ++ u8 FailReason.timeout.code ++ u8 i.val ++ u8 1⟩ ∈ q.notices ∧
        (∀ k, x.takeRec = some k → k.stage = .verifying ∨ k.stage = .joining ∨ k.stage = .rejoining →
          (q.chan c).takeRec = some { k with
            kind := .localJoin, stage := .ended, bridgeReason := none, result := some .failed, failure := some .timeout }) ∧
        (x.switch = .onLocal → (q.chan c).openEntry = cut ∧ q.entries = p.entries ∧
          (q.chan c).pendingSw = [{ pos := .filler, frame := line, cause := .portLoss, act := .plain }]) ∧
        (x.switch ≠ .onLocal → (q.chan c).pendingSw = kept ∧
          (∀ o, x.openEntry = some o → o.port = some i → o.kind ≠ .filler → x.switch ≠ .filler ∨ o.kind = .start →
            (∀ e, findEvent x.playlist o.event = some e → e.kind = .clip) →
            (q.chan c).openEntry = none ∧ q.entries = p.entries ++ [{
              channel := c, event := o.event, start := label o.start, finish := label line, kind := some o.kind, exit := .cut
              port := o.port }]) ∧
          ((∀ o, x.openEntry = some o → o.port ≠ some i ∨ o.kind = .filler ∨ (x.switch = .filler ∧ o.kind ≠ .start) ∨
              ∃ e, findEvent x.playlist o.event = some e ∧ e.kind = .filler) →
            (q.chan c).openEntry = x.openEntry ∧ q.entries = p.entries))) ∧
      (∀ s : PortNo, (p.port s).role = .spare → (p.port s).state = .up → (p.port s).holder = none → g.spares.testBit s.val = true →
        (∀ s' : PortNo, s'.val < s.val → (p.port s').role = .spare → (p.port s').state = .up → (p.port s').holder = none →
          g.spares.testBit s'.val = false) →
        (q.chan c).mode = x.mode ∧ (q.chan c).switch = x.switch ∧ (q.chan c).portInUse = some s ∧ (q.port s).holder = some c ∧
        q.spareQueue = p.spareQueue ∧ (q.chan c).seq.queue = [] ∧
        (∃ m, (q.chan c).takeRec = some m ∧ m.kind = .localJoin ∧ m.stage = .joining ∧ m.port = some s ∧ m.result = none) ∧
        ⟨.spareGranted, some c, u8 s.val⟩ ∈ q.notices ∧
        ⟨.joinFailed, some c, u8 3 ++ u8 FailReason.timeout.code ++ u8 i.val ++ u8 0⟩ ∈ q.notices ∧ p.Still q ∧ p.OtherChans q c ∧
        (x.switch = .onLocal → (q.chan c).openEntry = cut ∧ q.entries = p.entries) ∧
        (x.switch = .filler → (∀ o, x.openEntry = some o → o.kind ≠ .start) →
          (q.chan c).openEntry = x.openEntry ∧ q.entries = p.entries) ∧
        ∀ t e, t = x.now + g.cueLead + (p.port s).preroll → coverAt x.playlist t = some e → joinRefusal g.tailGuard t e = none →
          (q.chan c).pendingSw = (if line < t then ((if x.switch = .onLocal then
              [{ pos := .filler, frame := line, cause := .portLoss, act := .plain }] else kept).filter
            fun w => (match w.act with | .joinBridge _ => false | _ => true)).filter (fun w => w.frame < t) else []) ++
            [{ pos := .onLocal, frame := t, cause := .take, act := .joinLocal }])) ∧
    (c ∈ p.spareQueue → (p.port g.primary).state = .up → ∀ q, q = p.tryPrimary c →
      (q.chan c).mode = x.mode ∧ (q.chan c).switch = x.switch ∧ (q.chan c).portInUse = some g.primary ∧ c ∉ q.spareQueue ∧
      (q.chan c).seq.queue = [] ∧
      (∃ m, (q.chan c).takeRec = some m ∧ m.kind = .localJoin ∧ m.stage = .joining ∧ m.port = some g.primary ∧ m.result = none) ∧
      q.notices = p.notices ∧ p.Still q ∧ p.OtherChans q c)

/-- R150 to R152, R154, R155: how a take or join ends at its switch line, given for the function that makes a channel's line
(R141), with one change pending: a join that still holds sets LOCAL, one found changed ends on the bridge, one that bridges ends
there, and a take whose port failed ends FAILED. The mode becomes LOCAL, the record ENDED, and SWITCH and the notice of the result
are sent (the order of its optional fields and their presence bytes are log entry 43). The cursor of a bridge and the next event
that it tells are log entry 23; that a FAILED take waits on where its primary port has stayed UP is 85; a port got between a failure and this line, and the join that follows TAKE FAILED on it, 34; and
the verify result that JOIN DONE carries 69. -/
def Obligations.TakeEndsAtItsLine : Prop :=
  ∀ (c : Chan) (p : Plant) (x : Channel) (g : ChannelConfig) (k : TakeRec) (w : PendingSw) (cov : Option Nat)
      (swTo : SwitchPos → Nat → List Outgoing) (told : List Byte → Outgoing) (at' : Nat → List Byte) (next : Nat → List Byte),
    p.chan c = x → x.config = some g → x.takeRec = some k → x.pendingSw = [w] → w.frame ≤ x.now → w.cause ≠ .follow →
    x.adoption = none → x.mode = .taking ∨ x.mode = .onLocal →
    cov = (x.playlist.find? fun e => e.unmarked && e.cue != .done && decide (x.now < e.rend) &&
      (decide (e.rstart ≤ x.now) || e.cue == .airing)).map (·.id) →
    (∀ t, at' t = dayLabelBytes (dayLabelOf (p.family c) x.baseDay t)) →
    (∀ t, next t = opt u32 ((x.playlist.find? fun e => decide (t < e.rstart) && e.cue != .done && e.cue != .skipped).map (·.id))) →
    (∀ pos cause, swTo pos cause = if x.switch = pos then [] else
      [.notice ⟨.switch, some c, u8 x.switch.code ++ u8 pos.code ++ u8 4 ++ at' x.now ++ u8 cause⟩]) →
    (∀ b, told b = .notice ⟨if k.kind = .localJoin then .joinDone else .takeDone, some c, u8 k.kind.code ++ portOrNone k.port ++ b⟩) →
    (∀ j, w.act = .joinLocal → k.join = some j →
      (∀ e entry, findEvent x.playlist j.event = some e → e.cue ≠ .skipped → j.t + g.tailGuard < e.rend →
        (∀ m, e.clip.bind (·.eom) = some m → j.cue < m) → entry = (if j.offset = 0 then EntryKind.start else .join) →
        x.openEntry = none →
        p.switchLine c = { p.setChan c { x with
            mode := .onLocal, switch := .onLocal, pendingSw := [], cover := cov
            takeRec := some { k with stage := .ended, result := some .onLocal }
            openEntry := some { event := j.event, start := j.t, kind := entry, port := x.portInUse } } with
          outbox := p.outbox ++ swTo .onLocal 0 ++ [told (u8 1 ++ u32 j.event ++ u8 1 ++ u8 entry.code ++ u8 0 ++ at' j.t ++
            u8 1 ++ u24 j.cue ++ opt (fun v => u8 v.code) k.verify ++ u8 1 ++ flag k.rejoined ++ u8 0)] }) ∧
      ((findEvent x.playlist j.event = none ∨
          (∃ e, findEvent x.playlist j.event = some e ∧
            (e.cue = .skipped ∨ e.rend ≤ j.t + g.tailGuard ∨ ∃ m, e.clip.bind (·.eom) = some m ∧ m ≤ j.cue))) →
        x.seq.queue = [] →
        ∃ (q : Plant) (y : Channel), q = p.switchLine c ∧ y = q.chan c ∧ y.mode = .onLocal ∧ y.switch = .filler ∧
          y.pendingSw = [] ∧ y.portInUse = x.portInUse ∧ y.seq.queue = [] ∧
          y.seq.cursor = (x.playlist.find? fun e => decide (j.t < e.rstart) && e.cue != .done && e.cue != .skipped).map (·.id) ∧
          y.takeRec = some { k with stage := .ended, result := some .fillerBridge, bridgeReason := some .eventChanged } ∧
          (∀ o ∈ swTo .filler 1, o ∈ q.outbox) ∧
          told (u8 0 ++ u8 0 ++ u8 1 ++ u8 5 ++ at' j.t ++ u8 0 ++ u8 0 ++ u8 0 ++ next j.t) ∈ q.outbox ∧
          (∀ i, k.port = some i → ∀ l ∈ (q.port i).claim, l.channel = c → l.purpose = .stop ∨ l.cmds = []) ∧
          p.Still q ∧ ∀ d, d ≠ c → (∀ i, k.port = some i → (p.chan d).portInUse ≠ some i) → q.chan d = p.chan d)) ∧
    (∀ t r, w.act = .joinBridge t → k.bridgeReason = some r → x.openEntry = none →
      p.switchLine c = { p.setChan c { x with
          mode := .onLocal, switch := .filler, pendingSw := [], cover := cov
          takeRec := some { k with stage := .ended, result := some .fillerBridge } } with
        outbox := p.outbox ++ swTo .filler 1 ++
          [told (u8 0 ++ u8 0 ++ u8 1 ++ u8 r.code ++ at' t ++ u8 0 ++ u8 0 ++ u8 0 ++ next t)] }) ∧
    (∀ i r, w.act = .takeFailed i r → x.mode = .taking → x.openEntry = none →
      (x.portInUse = none ∨ (x.portInUse = some i ∧ (p.port i).holder = some c) →
        p.switchLine c = { p.setChan c { x with
            mode := .onLocal, switch := .filler, pendingSw := [], cover := cov
            takeRec := some { k with stage := .ended, result := some .failed, failure := some r } } with
          outbox := p.outbox ++ swTo .filler 4 ++ [.notice ⟨.takeFailed, some c,
            u8 k.kind.code ++ u8 r.code ++ u8 i.val ++ flag (p.spareQueue.contains c)⟩] }) ∧
      (∀ n, x.portInUse = some n → n ≠ i ∨ (p.port n).holder ≠ some c → (p.port n).state = .up →
        ∃ (q : Plant) (y : Channel) (m : TakeRec), q = p.switchLine c ∧ y = q.chan c ∧ y.mode = .onLocal ∧ y.switch = .filler ∧
          y.portInUse = some n ∧ y.takeRec = some m ∧ m.kind = .localJoin ∧ m.stage = .joining ∧ m.port = some n ∧
          m.result = none ∧ (∀ o ∈ swTo .filler 4, o ∈ q.outbox) ∧
          .notice ⟨.takeFailed, some c, u8 k.kind.code ++ u8 r.code ++ u8 i.val ++ flag (p.spareQueue.contains c)⟩ ∈ q.outbox ∧
          p.Still q ∧ p.OtherChans q c))

/-- R150: the join on the event covering T is refused in the cases of the table, in its order (which reason is recorded where more
than one case holds is the model's choice, log entry 77), and otherwise its offset and cue point keep the bounds that every join
has. -/
def Obligations.JoinLimitsFollowR150 : Prop :=
  ∀ (tail t : Nat) (e : Event), e.rstart ≤ t → t < e.rend → (e.kind = .clip ↔ e.clip.isSome) →
    (e.kind = .filler → joinRefusal tail t e = some .fillerEvent) ∧
    ∀ k, e.kind = .clip → e.clip = some k →
      (k.noJoin = true → e.rstart < t → joinRefusal tail t e = some .noJoin) ∧
      (k.noJoin = false ∨ t = e.rstart →
        (e.rend - t ≤ tail → joinRefusal tail t e = some .tailGuard) ∧
        (tail < e.rend - t →
          (∀ m, k.eom = some m → m ≤ k.som + (t - e.rstart) → joinRefusal tail t e = some .endOfMaterial) ∧
          ((∀ m, k.eom = some m → k.som + (t - e.rstart) < m) → joinRefusal tail t e = none ∧
            (t - e.rstart) + tail < e.rend - e.rstart)))

/-- R143 to R145, R157: VETO, the expiry of the confirm window, and ABORT TAKE: their refusals and what each leaves. ABORT TAKE is
given for a take that waits for no spare: on its primary port, which sends the one STOP where it is UP and ends it with TIMEOUT
where it is not (log entry 38), and on a held spare, which sends none and is released; with the switch at MAIN the channel is back
in SHADOW, and otherwise its way back is pending. An expiry that finds nothing to do changes nothing (log entry 13). R143 to R145,
R160, R171, R173: what a change of health does: into FAILED, in SHADOW by the policy and doubt (TAKE WITHHELD, CONFIRM NEEDED, or
a take), in RETURNING the cancellation of the return; out of FAILED, in CONFIRMING back to SHADOW and in RETURNING against failure
clear; and nothing in any other mode. -/
def Obligations.ConfirmEndsAndAbort : Prop :=
  (∀ (p : Plant) (c : Chan) (x : Channel) (before after : Health) (evidence at' : List Byte), p.chan c = x →
    evidence = u8 x.watch.health.code ++ u8 x.watch.score ++ u8 x.replica.state.code ++ flag x.watch.diverged →
    (before = after ∨ (before ≠ .failed ∧ after ≠ .failed) → p.healthReport c before after = p) ∧
    (before ≠ .failed → after = .failed →
      (∀ g doubt, x.mode = .shadow → x.config = some g →
        (doubt = true ↔ x.replica.state = .stale ∨ x.replica.state = .awaitBase ∨ x.watch.diverged = true) →
        at' = dayLabelBytes (dayLabelOf (p.family c) x.baseDay (x.now + g.confirmWindow)) →
        (g.policy = .manual →
          p.healthReport c before after = p.emit (.notice ⟨.takeWithheld, some c, u8 0 ++ evidence⟩)) ∧
        (g.policy = .auto → doubt = false → p.healthReport c before after = p.beginTake c .auto .join) ∧
        (∀ demoted, (g.policy = .auto ∧ doubt = true ∧ demoted = true) ∨ (g.policy = .autoConfirm ∧ demoted = false) →
          p.healthReport c before after =
            (p.setChan c { x with
              mode := .confirming, confirm := some { deadline := x.now + g.confirmWindow, demoted := demoted } }).emit
              (.notice ⟨.confirmNeeded, some c, at' ++ flag demoted ++ evidence⟩))) ∧
      (∀ r, x.mode = .returning → x.returnRec = some r → r.state ≠ .pending ∨ x.now < r.tRet →
        p.healthReport c before after = { p.setChan c { x with
            mode := .onLocal, returnRec := some { r with state := .cancelled, cancel := some .mainFailed } } with
          outbox := p.outbox ++ [.back (.resumeAt c r.event r.sent true), .notice ⟨.returnCancelled, some c,
            u32 r.event ++ dayLabelBytes (dayLabelOf (p.family c) x.baseDay r.tRet) ++ u8 1⟩] }) ∧
      (x.mode ≠ .shadow → x.mode ≠ .returning → p.healthReport c before after = p)) ∧
    (before = .failed → after ≠ .failed →
      (x.mode = .confirming → p.healthReport c before after =
        (p.setChan c { x with mode := .shadow, confirm := none }).emit (.notice ⟨.takeWithheld, some c, u8 2 ++ evidence⟩)) ∧
      (x.mode = .returning → p.healthReport c before after =
        p.setChan c { x with returnRec := x.returnRec.map fun r => { r with against := false } }) ∧
      (x.mode ≠ .confirming → x.mode ≠ .returning → p.healthReport c before after = p))) ∧
  ∀ (tag n : Nat) (s : State) (c : Chan) (x : Channel), s.plant.chan c = x →
    (s.Admits tag → 15 < n →
      exec (.veto tag (.sound n)) s = .next (s.answered tag 0x10 s.plant .noSuchChannel []) ∧
      exec (.abortTake tag (.sound n)) s = .next (s.answered tag 0x11 s.plant .noSuchChannel [])) ∧
    (s.Admits tag → n = c.val →
      (x.mode ≠ .confirming → exec (.veto tag (.sound n)) s = .next (s.answered tag 0x10 s.plant .wrongMode [])) ∧
      (x.mode = .confirming → exec (.veto tag (.sound n)) s = .next (s.answered tag 0x10
        ((s.plant.setChan c { x with mode := .shadow, confirm := none }).emit (.notice ⟨.takeWithheld, some c,
          u8 3 ++ u8 x.watch.health.code ++ u8 x.watch.score ++ u8 x.replica.state.code ++ flag x.watch.diverged⟩)) .ok [])) ∧
      (x.mode ≠ .taking → exec (.abortTake tag (.sound n)) s = .next (s.answered tag 0x11 s.plant .wrongMode [])) ∧
      (∀ k, x.mode = .taking → x.takeRec = some k →
        (k.stage = .aborting → exec (.abortTake tag (.sound n)) s = .next (s.answered tag 0x11 s.plant .ok [])) ∧
        (k.stage ≠ .aborting → x.switch = .main → (∀ i, (s.plant.port i).holder ≠ some c) → c ∉ s.plant.spareQueue →
          ∀ g i, x.config = some g → x.portInUse = some i → i = g.primary → s.plant.OnlyFor i c → (s.plant.port i).state ≠ .up →
            x.seq.queue = [] →
            (s.plant.port i).outstanding = none →
            exec (.abortTake tag (.sound n)) s = .next (s.answered tag 0x11 (s.plant.setChan c { x with
              mode := .shadow, pendingSw := [], takeRec := some { k with stage := .aborting },
              seq := { x.seq with last := some .timeout } }) .ok [])) ∧
        (k.stage ≠ .aborting → (∀ i, (s.plant.port i).holder ≠ some c) → c ∉ s.plant.spareQueue →
          ∀ g i z y line, x.config = some g → x.portInUse = some i → i = g.primary → s.plant.OnlyFor i c → s.plant.port i = z →
            z.state = .up → x.seq.queue = [] → z.outstanding = none → z.shift = none →
            line = (if x.lineInForce ≤ (s.plant.ref g.reference).raised then x.now + 1 else x.now) →
            (x.switch = .main ∧ y = { x with mode := .shadow, pendingSw := [], takeRec := some { k with stage := .aborting } }) ∨
              (x.switch ≠ .main ∧ y = { x with
                takeRec := some { k with stage := .aborting }
                pendingSw := [{ pos := .main, frame := line, cause := .abort, act := .abort }] }) →
            exec (.abortTake tag (.sound n)) s = .next (s.answered tag 0x11 ((s.plant.setChan c y).setPort i { z with
              outstanding := some { cmd := .stop, requester := .changeover c .stop true }
              shift := some (.frame DevCmd.stop.frame), holding := none, replyTimer := none, attempt := 1, failures := []
              tryTimeout := z.replyTimeout, tryRetries := z.retries
              claim := [{ channel := c, purpose := .stop, cmds := [] }] }) .ok [])) ∧
        (k.stage ≠ .aborting → ∀ g i j, x.config = some g → x.portInUse = some i → i ≠ g.primary → (s.plant.port i).role = .spare →
          (s.plant.port i).holder = some c → (∀ d, (s.plant.port d).holder = some c → d = i) → s.plant.OnlyFor i c →
          (s.plant.port i).outstanding = none → s.plant.spareQueue = [] → x.seq.queue = [] → j = g.primary → s.plant.OnlyFor j c →
          (s.plant.port j).outstanding = none → x.switch = .main →
          exec (.abortTake tag (.sound n)) s = .next (s.answered tag 0x11 ((s.plant.setChan c { x with
            mode := .shadow, pendingSw := [], portInUse := some j, takeRec := some { k with stage := .aborting } }).setPort i
              { s.plant.port i with holder := none }) .ok [])))) ∧
    (x.confirm = none ∨ x.mode ≠ .confirming → exec (.confirmExpiry c) s = .next (s.passed s.plant)) ∧
    (∀ r, x.mode = .confirming → x.confirm = some r →
      (x.now < r.deadline → exec (.confirmExpiry c) s = .next (s.passed s.plant)) ∧
      (r.deadline ≤ x.now → r.demoted = true ∨ x.replica.state = .stale ∨ x.replica.state = .awaitBase ∨ x.watch.diverged = true →
        exec (.confirmExpiry c) s = .next (s.passed
          ((s.plant.setChan c { x with mode := .shadow, confirm := none }).emit (.notice ⟨.takeWithheld, some c,
            u8 1 ++ u8 x.watch.health.code ++ u8 x.watch.score ++ u8 x.replica.state.code ++ flag x.watch.diverged⟩)))) ∧
      (r.deadline ≤ x.now → r.demoted = false → x.replica.state = .current ∨ x.replica.state = .gap → x.watch.diverged = false →
        exec (.confirmExpiry c) s = .next (s.passed (s.plant.beginTake c .auto .join))))

/-! ## Running locally and handing back (chapter 8) -/

/-- R42, R87, R164 to R166: at a frame start every DONE or SKIPPED event whose end has come is retired, an event of a channel in
local running that has no entry being handed to the log as NOT_AIRED; the watch keeps the latest end of those that were DONE and
unmarked; the queued steps of a retired event stay to be taken. An event that becomes AIRING in local running opens its entry,
which closes the one open before it; one that becomes DONE closes its own; and a join's entry keeps, closes or follows the one it
finds, one of the same event on air being left as it stands whatever port it names (log entry 86), unless a port loss or a failed
join has made it due to end CUT. An event that a step has passed whole has an entry where it is a FILLER event (R127, R15), closed CUT
at the new now, and none where it is a CLIP event (log entry 40). The order of the entries of events retired together is log entry
82. -/
def Obligations.RetirementAndAsRunEntries : Prop :=
  ∀ (c : Chan) (p : Plant) (x : Channel) (label : Nat → DayLabel) (closed : OpenEntry → Nat → ExitKind → Outgoing), p.chan c = x →
    (x.playlist.map (·.id)).Nodup → (∀ t, label t = dayLabelOf (p.family c) x.baseDay t) →
    (∀ o t exit, closed o t exit = .asRun { channel := c, event := o.event, start := label o.start, finish := label t,
                                            kind := some o.kind, exit := exit, port := o.port }) →
    (∀ gone q, gone = x.playlist.filter (fun e => (e.cue == .done || e.cue == .skipped) && decide (e.rend ≤ x.now)) →
      q = p.retire c →
      (gone = [] → q = p) ∧
      (gone ≠ [] → ∀ y, y = q.chan c →
        y = { x with
          playlist := x.playlist.filter fun e => !((e.cue == .done || e.cue == .skipped) && decide (e.rend ≤ x.now))
          watch := { x.watch with lastEnded := y.watch.lastEnded }
          seq := { x.seq with
            queue := x.seq.queue.map fun k =>
              if k.standing = .live ∧ k.event ∈ gone.map (·.id) then { k with standing := .retired } else k
            cursor := (y.playlist.find? fun e => e.cue != .done && e.cue != .skipped && !e.passedOver).map (·.id) } } ∧
        q.outbox = p.outbox ++ (if x.mode = .onLocal ∨ x.mode = .returning then
            (gone.filter fun e => !e.asRun).map (fun e =>
              .asRun { channel := c, event := e.id, start := label e.rstart, finish := label e.rend, kind := none, exit := .notAired,
                       port := none }) else []) ∧
        ((∀ e ∈ gone, e.cue ≠ .done ∨ e.eclipsed = true ∨ e.beyond = true) → y.watch.lastEnded = x.watch.lastEnded) ∧
        (∀ e ∈ gone, e.cue = .done → e.eclipsed = false → e.beyond = false →
          ∃ n t, y.watch.lastEnded = some (n, t) ∧ e.rend ≤ t ∧ (∀ m u, x.watch.lastEnded = some (m, u) → u ≤ t) ∧
            ((x.watch.lastEnded = some (n, t) ∧ e.rend < t) ∨
              ∃ k ∈ gone, k.cue = .done ∧ k.eclipsed = false ∧ k.beyond = false ∧ k.id = n ∧ k.rend = t)) ∧
        q.hold = p.hold ∧ q.spareQueue = p.spareQueue ∧ p.Still q ∧ p.OtherChans q c)) ∧
    (∀ stepped e q y, findEvent x.playlist e.id = some e → q = p.moveCue c stepped e.id → y = q.chan c →
      (e.cue = .pending ∨ e.cue = .cueing ∨ e.cue = .rolling → e.unmarked = true → e.rstart ≤ x.now → x.now < e.rend →
        ((x.mode ≠ .onLocal ∧ x.mode ≠ .returning) ∨
            (x.mode = .returning ∧ ∃ r, x.returnRec = some r ∧ r.state = .pending ∧ r.tRet ≤ x.now) ∨
            (e.kind = .clip ∧ ∃ w ∈ x.pendingSw, w.cause ≠ .follow) →
          y.openEntry = x.openEntry ∧ q.entries = p.entries) ∧
        (∀ kind port, x.mode = .onLocal ∨ (x.mode = .returning ∧ ∀ r, x.returnRec = some r → r.state = .pending → x.now < r.tRet) →
          (e.kind = .filler ∧ kind = EntryKind.start ∧ port = none) ∨
            (e.kind = .clip ∧ (∀ w ∈ x.pendingSw, w.cause = .follow) ∧
              (((x.seq.halted = true ∨ x.portInUse = none) ∧ kind = .filler ∧ port = none) ∨
               (x.seq.halted = false ∧ x.portInUse ≠ none ∧ kind = .start ∧ port = x.portInUse))) →
          y.openEntry = some { event := e.id, start := e.rstart, kind := kind, port := port } ∧
          (x.openEntry = none → q.entries = p.entries) ∧
          (∀ o exit, x.openEntry = some o →
            (exit = ExitKind.finish ∧ ∃ k ∈ x.playlist, k.id = o.event ∧ k.rend ≤ e.rstart) ∨
              (exit = .cut ∧ ∀ k ∈ x.playlist, k.id = o.event → e.rstart < k.rend) →
            q.entries.map Outgoing.asRun = p.entries.map Outgoing.asRun ++ [closed o e.rstart exit] ∧
            ∀ k ∈ y.playlist, k.id = o.event → k.asRun = true))) ∧
      (e.cue = .pending ∨ e.cue = .cueing ∨ e.cue = .rolling → e.unmarked = true → e.rstart ≤ x.now → e.rend ≤ x.now →
        (∀ o, x.openEntry = some o → o.event ≠ e.id) →
        ((x.mode ≠ .onLocal ∧ x.mode ≠ .returning) ∨
            (x.mode = .returning ∧ ∃ r, x.returnRec = some r ∧ r.state = .pending ∧ r.tRet ≤ x.now) ∨ e.kind = .clip →
          y.openEntry = x.openEntry ∧ q.entries = p.entries) ∧
        (e.kind = .filler →
          x.mode = .onLocal ∨ (x.mode = .returning ∧ ∀ r, x.returnRec = some r → r.state = .pending → x.now < r.tRet) →
          ∀ own, own = { event := e.id, start := e.rstart, kind := .start, port := none } →
          y.openEntry = none ∧ (∀ k ∈ y.playlist, k.id = e.id → k.cue = .done ∧ k.asRun = true) ∧
          (x.openEntry = none → q.entries.map Outgoing.asRun = p.entries.map Outgoing.asRun ++
            [if stepped = true then closed own x.now .cut else closed own e.rend .finish]) ∧
          (∀ o exit, x.openEntry = some o →
            (exit = ExitKind.finish ∧ ∃ k ∈ x.playlist, k.id = o.event ∧ k.rend ≤ e.rstart) ∨
              (exit = .cut ∧ ∀ k ∈ x.playlist, k.id = o.event → e.rstart < k.rend) →
            q.entries.map Outgoing.asRun = p.entries.map Outgoing.asRun ++
              [closed o e.rstart exit, if stepped = true then closed own x.now .cut else closed own e.rend .finish]))) ∧
      (e.cue = .airing → e.rend ≤ x.now →
        (∀ o, x.openEntry = some o → o.event = e.id →
          q = { p.setChan c { x with
              openEntry := none
              playlist := x.playlist.map fun k => if k.id = e.id then { k with cue := .done, asRun := true } else k } with
            outbox := p.outbox ++ [if stepped = true then closed o x.now .cut else closed o e.rend .finish] }) ∧
        ((∀ o, x.openEntry = some o → o.event ≠ e.id) →
          q = p.setChan c { x with playlist := x.playlist.map fun k => if k.id = e.id then { k with cue := .done } else k }))) ∧
    (∀ event t kind port y, y = { x with openEntry := some { event := event, start := t, kind := kind, port := port } } →
      (x.openEntry = none → p.joinEntry c event t kind port = p.setChan c y) ∧
      (∀ o, x.openEntry = some o →
        (o.event = event → o.kind ≠ .filler → o.cutDue = false → p.joinEntry c event t kind port = p) ∧
        (∀ exit, (o.event = event ∧ (o.kind = .filler ∨ o.cutDue = true) ∧ exit = ExitKind.cut) ∨
            (o.event ≠ event ∧ exit = .finish ∧ ∃ k ∈ x.playlist, k.id = o.event ∧ k.rend ≤ t) ∨
            (o.event ≠ event ∧ exit = .cut ∧ ∀ k ∈ x.playlist, k.id = o.event → t < k.rend) →
          p.joinEntry c event t kind port = { p.setChan c { y with
              playlist := x.playlist.map fun k => if k.id = o.event then { k with asRun := true } else k } with
            outbox := p.outbox ++ [closed o t exit] })))

/-- R169, R170, R173: RETURN's refusals in their order and its acceptance, and CANCEL RETURN. (A channel without a configuration,
which no run reaches in LOCAL, counts with return lead 0, log entry 21.) -/
def Obligations.ReturnIsSetAndCancelled : Prop :=
  ∀ (tag n : Nat) (s : State) (c : Chan) (x : Channel), s.Admits tag → s.plant.chan c = x →
    (15 < n → (∀ nb force, exec (.returnToMain tag (.sound ⟨n, nb, force⟩)) s =
        .next (s.answered tag 0x13 s.plant .noSuchChannel [])) ∧
      exec (.cancelReturn tag (.sound n)) s = .next (s.answered tag 0x14 s.plant .noSuchChannel [])) ∧
    (n = c.val →
      (x.mode ≠ .onLocal → ∀ nb force, exec (.returnToMain tag (.sound ⟨n, nb, force⟩)) s =
        .next (s.answered tag 0x13 s.plant .wrongMode [])) ∧
      (∀ d force, x.mode = .onLocal →
        (d.label.valid (s.plant.family c) = false → exec (.returnToMain tag (.sound ⟨n, some d, force⟩)) s =
          .next (s.answered tag 0x13 s.plant .badTime [])) ∧
        (d.label.valid (s.plant.family c) = true → ctfOf (s.plant.family c) x.baseDay d = none →
          exec (.returnToMain tag (.sound ⟨n, some d, force⟩)) s = .next (s.answered tag 0x13 s.plant .outOfWindow []))) ∧
      (∀ nb force at' moved, x.mode = .onLocal →
        (nb = none ∧ at' = none ∧ moved = false) ∨
          (∃ d t, nb = some d ∧ d.label.valid (s.plant.family c) = true ∧ ctfOf (s.plant.family c) x.baseDay d = some t ∧
            at' = some t ∧ moved = d.label.dropped (s.plant.family c)) →
        ∀ cmd from', cmd = .returnToMain tag (.sound ⟨n, nb, force⟩) →
        (∀ g, x.config = some g → from' = max (x.now + g.returnLead) (at'.getD 0)) →
        (x.config = none → from' = max x.now (at'.getD 0)) →
        (x.replica.state ≠ .current → exec cmd s = .next (s.answered tag 0x13 s.plant .stale [])) ∧
        (x.replica.state = .current → x.watch.health = .failed → force = false →
          exec cmd s = .next (s.answered tag 0x13 s.plant .mainFailed [])) ∧
        (x.replica.state = .current → x.watch.health ≠ .failed ∨ force = true →
          ((∀ e ∈ x.playlist, e.unmarked = true → from' ≤ e.rstart → 4 * (s.plant.family c).fpd ≤ e.rstart) →
            exec cmd s = .next (s.answered tag 0x13 s.plant .noBoundary [])) ∧
          (∀ before e after r, x.playlist = before ++ e :: after → e.unmarked = true → from' ≤ e.rstart →
            e.rstart < 4 * (s.plant.family c).fpd →
            (∀ k ∈ before, k.unmarked = true → from' ≤ k.rstart → 4 * (s.plant.family c).fpd ≤ k.rstart) →
            r = { state := .pending, tRet := e.rstart, event := e.id, notBefore := at', force := force,
                  sent := dayLabelOf (s.plant.family c) x.baseDay e.rstart, against := x.watch.health == .failed,
                  cancel := none } →
            exec cmd s = .next (s.answered tag 0x13
              { s.plant.setChan c { x with mode := .returning, returnRec := some r } with
                outbox := s.plant.outbox ++ [.back (.resumeAt c r.event r.sent false), .notice ⟨.returnSet, some c,
                  u32 r.event ++ dayLabelBytes r.sent ++ flag r.force ++ flag r.against⟩] }
              (if moved = true then .adjusted else .ok) (dayLabelBytes r.sent ++ u32 e.id))))) ∧
      (x.mode ≠ .returning → exec (.cancelReturn tag (.sound n)) s = .next (s.answered tag 0x14 s.plant .wrongMode [])) ∧
      (∀ r, x.mode = .returning → x.returnRec = some r → r.state ≠ .pending ∨ x.now < r.tRet →
        exec (.cancelReturn tag (.sound n)) s = .next (s.answered tag 0x14
          { s.plant.setChan c { x with
              mode := .onLocal, returnRec := some { r with state := .cancelled, cancel := some .host } } with
            outbox := s.plant.outbox ++ [.back (.resumeAt c r.event r.sent true), .notice ⟨.returnCancelled, some c,
              u32 r.event ++ dayLabelBytes (dayLabelOf (s.plant.family c) x.baseDay r.tRet) ++ u8 0⟩] } .ok [])))

/-- R175, R177: ADOPT and RELEASE: their refusals in their order, and their acceptance; a RELEASE cancels a pending adoption with
ADOPT FAILED and releases a held spare, and where there is neither it changes nothing more. That RELEASE to MAIN without an
after-state is BAD_ARGUMENT is log entry 46. -/
def Obligations.AdoptAndRelease : Prop :=
  ∀ (tag n : Nat) (s : State) (c : Chan) (x : Channel), s.Admits tag → s.plant.chan c = x →
    (15 < n → (∀ sp, exec (.adopt tag (.sound ⟨n, sp⟩)) s = .next (s.answered tag 0x15 s.plant .noSuchChannel [])) ∧
      ∀ t a, exec (.release tag (.sound ⟨n, t, a⟩)) s = .next (s.answered tag 0x16 s.plant .noSuchChannel [])) ∧
    (n = c.val →
      (x.mode ≠ .orphaned → (∀ sp, exec (.adopt tag (.sound ⟨n, sp⟩)) s = .next (s.answered tag 0x15 s.plant .wrongMode [])) ∧
        ∀ t a, exec (.release tag (.sound ⟨n, t, a⟩)) s = .next (s.answered tag 0x16 s.plant .wrongMode [])) ∧
      (x.mode = .orphaned → x.adoption ≠ none ∨ x.release ≠ none → ∀ sp,
        exec (.adopt tag (.sound ⟨n, sp⟩)) s = .next (s.answered tag 0x15 s.plant .busy [])) ∧
      (∀ g, x.mode = .orphaned → x.adoption = none → x.release = none → x.config = some g →
        (∀ k, 19 < k ∨ (∃ i : PortNo, k = i.val ∧ ((s.plant.port i).role ≠ .spare ∨ g.spares.testBit k = false)) →
          exec (.adopt tag (.sound ⟨n, some k⟩)) s = .next (s.answered tag 0x15 s.plant .badArgument [])) ∧
        (coverAt x.playlist x.now = none →
          exec (.adopt tag (.sound ⟨n, none⟩)) s = .next (s.answered tag 0x15 s.plant .empty []) ∧
          ∀ i : PortNo, (s.plant.port i).role = .spare → g.spares.testBit i.val = true →
            exec (.adopt tag (.sound ⟨n, some i.val⟩)) s = .next (s.answered tag 0x15 s.plant .empty [])) ∧
        (∀ e, coverAt x.playlist x.now = some e → exec (.adopt tag (.sound ⟨n, none⟩)) s = .next (s.answered tag 0x15
          (s.plant.setChan c { x with portInUse := some g.primary, adoption := some ⟨e.id, g.primary⟩ }) .ok
          (u32 e.id ++ u8 g.primary.val))) ∧
        (∀ e (i : PortNo), coverAt x.playlist x.now = some e → (s.plant.port i).role = .spare → g.spares.testBit i.val = true →
          ((s.plant.port i).holder ≠ none ∨ (s.plant.port i).state ≠ .up →
            exec (.adopt tag (.sound ⟨n, some i.val⟩)) s = .next (s.answered tag 0x15 s.plant .portTaken [])) ∧
          ((s.plant.port i).holder = none → (s.plant.port i).state = .up →
            exec (.adopt tag (.sound ⟨n, some i.val⟩)) s = .next (s.answered tag 0x15
              { (s.plant.setPort i { s.plant.port i with holder := some c }).setChan c
                  { x with portInUse := some i, adoption := some ⟨e.id, i⟩ } with
                outbox := s.plant.outbox ++ [.notice ⟨.spareGranted, some c, u8 i.val⟩] } .ok
              (u32 e.id ++ u8 i.val))))) ∧
      (∀ t a, x.mode = .orphaned → (1 < t ∨ (t = 1 ∧ a ≠ none) ∨ (t = 0 ∧ a ≠ some 0 ∧ a ≠ some 1)) →
        exec (.release tag (.sound ⟨n, t, a⟩)) s = .next (s.answered tag 0x16 s.plant .badArgument [])) ∧
      (∀ t a tgt pos g line, x.mode = .orphaned → x.config = some g → s.plant.NoneDue c →
        (x.adoption ≠ none ∨ c ∉ s.plant.spareQueue) →
        ((t = 1 ∧ a = none ∧ tgt = .filler ∧ pos = .filler) ∨ (t = 0 ∧ a = some 0 ∧ tgt = .main .shadow ∧ pos = .main) ∨
          (t = 0 ∧ a = some 1 ∧ tgt = .main .idle ∧ pos = .main)) →
        line = (if x.lineInForce ≤ (s.plant.ref g.reference).raised then x.now + 1 else x.now) →
        ∃ q, exec (.release tag (.sound ⟨n, t, a⟩)) s = .next (s.answered tag 0x16 q .ok []) ∧
          q.chan c = { x with
            release := some tgt, adoption := none, portInUse := if x.adoption ≠ none then some g.primary else x.portInUse
            pendingSw := [{ pos := pos, frame := line, cause := .release, act := .release }] } ∧
          c ∉ q.spareQueue ∧ s.plant.Still q ∧
          (x.adoption ≠ none → ⟨.adoptFailed, some c, u8 1⟩ ∈ q.notices) ∧
          ((∀ i j, (s.plant.port i).holder = some c → (s.plant.port j).holder = some c → i = j) →
            ∀ i, (q.port i).holder ≠ some c)) ∧
      (∀ t a tgt pos g, x.mode = .orphaned → x.adoption = none → (∀ i, (s.plant.port i).holder ≠ some c) → x.config = some g →
        ((t = 1 ∧ a = none ∧ tgt = .filler ∧ pos = .filler) ∨ (t = 0 ∧ a = some 0 ∧ tgt = .main .shadow ∧ pos = .main) ∨
          (t = 0 ∧ a = some 1 ∧ tgt = .main .idle ∧ pos = .main)) →
        ∀ line, line = (if x.lineInForce ≤ (s.plant.ref g.reference).raised then x.now + 1 else x.now) →
        exec (.release tag (.sound ⟨n, t, a⟩)) s = .next (s.answered tag 0x16 (s.plant.setChan c { x with
          release := some tgt,
          pendingSw := [{ pos := pos, frame := line, cause := .release, act := .release }] }) .ok [])))

/-- R1, R141, R132, R157, R172, R176, R177: a channel's switch line: the line counter of its reference comes to it (a line already
raised changes nothing, log entry 13), and what is pending is made: nothing, outside local running; an accepted RELEASE, to FILLER
and to MAIN with either after-state; a return that is due, which hands the channel back in one act, with SWITCH, RETURN DONE and,
for a COLD channel on its primary port, the STOP listed there, or ended with TIMEOUT where the port is not UP and a forward step has
passed its frame (R107); the way back of an abort; an adoption, carried out or failed (a DONE event that covers
the frame again becomes AIRING too, log entry 95); and where nothing holds the switch, switch following (whose halt flag is that of the covering event's beginning; which entry its
FILLER closes is log entry 71). -/
def Obligations.SwitchLineMakesPending : Prop :=
  ∀ (c : Chan) (s : State) (x : Channel) (g : ChannelConfig) (r : Reference) (p : Plant), s.plant.chan c = x → x.config = some g →
    r = s.plant.ref g.reference →
    (x.mode = .idle → exec (.switchLine c) s = .next (s.passed s.plant)) ∧
    (x.mode ≠ .idle → x.lineInForce ≤ r.raised → exec (.switchLine c) s = .next (s.passed s.plant)) ∧
    (x.mode ≠ .idle → r.raised < x.lineInForce →
      (∀ d, d ≠ c → ∀ k, s.plant.config d = some k → k.reference = g.reference →
        (s.plant.chan d).mode = .idle ∨ (s.plant.chan d).lineInForce ≤ r.raised ∨ x.lineInForce < (s.plant.chan d).lineInForce) →
      p = s.plant.setRef g.reference { r with raised := x.lineInForce, line := max r.line x.lineInForce } →
      ∃ q, exec (.switchLine c) s = .next (s.passed { p.switchLine c with free := q }) ∧
        (x.pendingSw = [] → x.mode = .shadow ∨ x.mode = .confirming ∨ x.mode = .taking → x.adoption = none →
          p.switchLine c = p) ∧
        (∀ w, x.mode = .orphaned → x.adoption = none → x.release = some .filler → x.pendingSw = [w] → w.act = .release →
          w.frame ≤ x.now → x.switch ≠ .filler → p.switchLine c =
            { p.setChan c { x with switch := .filler, release := none, pendingSw := [] } with
              outbox := p.outbox ++ [.notice ⟨.switch, some c, u8 x.switch.code ++ u8 2 ++ u8 6 ++
                dayLabelBytes (dayLabelOf (p.family c) x.baseDay x.now) ++ u8 6⟩] }) ∧
        (∀ k, x.mode = .returning → x.returnRec = some k → k.state = .pending → k.tRet ≤ x.now →
          ((p.switchLine c).chan c).mode = .shadow ∧ ((p.switchLine c).chan c).switch = .main ∧
          ((p.switchLine c).chan c).portInUse = some g.primary ∧ ((p.switchLine c).chan c).pendingSw = [] ∧
          ((p.switchLine c).chan c).returnRec = some { k with state := .done } ∧
          ((p.switchLine c).chan c).openEntry = none ∧
          (∀ h ∈ (p.switchLine c).hold, h.channel = c → h.kind ≠ .deferred) ∧ p.Still (p.switchLine c) ∧
          c ∉ (p.switchLine c).spareQueue ∧
          ((∀ i j, (s.plant.port i).holder = some c → (s.plant.port j).holder = some c → i = j) →
            ∀ i, ((p.switchLine c).port i).holder ≠ some c) ∧
          (x.switch ≠ .main → .notice ⟨.switch, some c, u8 x.switch.code ++ u8 SwitchPos.main.code ++ u8 Mode.shadow.code ++
            dayLabelBytes (dayLabelOf (p.family c) x.baseDay x.now) ++ u8 SwitchCause.retn.code⟩ ∈ (p.switchLine c).outbox) ∧
          .notice ⟨.returnDone, some c, u32 k.event ++ dayLabelBytes (dayLabelOf (p.family c) x.baseDay k.tRet) ++
            u8 ((p.switchLine c).chan c).replica.state.code⟩ ∈ (p.switchLine c).outbox ∧
          (g.standby = .cold → x.portInUse = some g.primary → x.now = k.tRet →
            ((p.switchLine c).port g.primary).claim.getLast? =
              some { channel := c, purpose := .stop, cmds := [{ cmd := .stop, notBefore := some (k.tRet + 1) }] }) ∧
          (g.standby = .cold → x.portInUse = some g.primary → k.tRet < x.now → (s.plant.port g.primary).state ≠ .up →
            (s.plant.port g.primary).claim = [] → ((p.switchLine c).port g.primary).claim = [] ∧
            ((p.switchLine c).chan c).seq.last = some .timeout) ∧
          (g.standby = .hot ∨ x.portInUse ≠ some g.primary → ∀ i, ∀ l ∈ ((p.switchLine c).port i).claim,
            l.channel = c → l.purpose = .stop → ∃ l' ∈ (s.plant.port i).claim, l'.channel = c ∧ l'.purpose = .stop)) ∧
        (∀ (cov : Option Event) (at' : List Byte) (swTo : SwitchPos → SwitchCause → Mode → List Outgoing) (cuts : OpenEntry → Prop),
          (∀ o, cuts o ↔ o.port ≠ none ∧ o.kind ≠ .filler ∧ (x.switch ≠ .filler ∨ o.kind = .start) ∧
            ∀ e, findEvent x.playlist o.event = some e → e.kind = .clip) →
          cov = (x.playlist.find? fun e => e.unmarked && e.cue != .done && decide (x.now < e.rend) &&
            (decide (e.rstart ≤ x.now) || e.cue == .airing)) →
          at' = dayLabelBytes (dayLabelOf (p.family c) x.baseDay x.now) →
          (∀ pos cause m, swTo pos cause m = if x.switch = pos then [] else
            [.notice ⟨.switch, some c, u8 x.switch.code ++ u8 pos.code ++ u8 m.code ++ at' ++ u8 cause.code⟩]) →
          (∀ pos z, x.mode = .onLocal → x.adoption = none → (∀ w ∈ x.pendingSw, w.cause = .follow) →
            (cov.map (·.id) = x.cover → x.pendingSw = [] → p.switchLine c = p) ∧
            (cov.map (·.id) ≠ x.cover →
              (pos = .onLocal ∧ ∃ e, cov = some e ∧ e.kind = .clip ∧ e.skipEnded = false ∧ x.portInUse ≠ none ∧
                (if e.cue = .airing then e.begunHalted else x.seq.halted) = false) ∨
              (pos = .filler ∧ ((∀ e, cov = some e → e.kind = .filler ∨ e.skipEnded = true ∨ x.portInUse = none ∨
                (if e.cue = .airing then e.begunHalted else x.seq.halted) = true))) →
              z = { x with switch := pos, cover := cov.map (·.id), pendingSw := x.pendingSw.filter fun w => decide (x.now < w.frame) } →
              (pos = .onLocal ∨ (∀ o, x.openEntry = some o → ¬cuts o) →
                p.switchLine c = { p.setChan c z with outbox := p.outbox ++ swTo pos .follow .onLocal }) ∧
              (∀ o, pos = .filler → x.openEntry = some o → cuts o →
                p.switchLine c = { p.setChan c { z with
                    openEntry := none
                    playlist := x.playlist.map fun e => if e.id = o.event then { e with asRun := true } else e } with
                  outbox := p.outbox ++ swTo .filler .follow .onLocal ++ [.asRun {
                    channel := c, event := o.event, start := dayLabelOf (p.family c) x.baseDay o.start
                    finish := dayLabelOf (p.family c) x.baseDay x.now, kind := some o.kind, exit := .cut, port := o.port }] }))) ∧
          (∀ k, x.mode = .taking → x.takeRec = some k → k.stage = .aborting → x.adoption = none →
            (∃ w, x.pendingSw = [w] ∧ w.act = .abort ∧ w.frame ≤ x.now) →
            p.switchLine c = { p.setChan c { x with mode := .shadow, switch := .main, pendingSw := [] } with
              outbox := p.outbox ++ swTo .main .abort .shadow }) ∧
          (∀ a, x.mode = .orphaned → x.adoption = some a → x.pendingSw = [] → (x.playlist.map (·.id)).Nodup →
            ((coverAt x.playlist x.now).map (·.id) ≠ some a.event → c ∉ s.plant.spareQueue →
              (∀ i, (s.plant.port i).holder ≠ some c) →
              p.switchLine c = { p.setChan c { x with adoption := none, portInUse := some g.primary } with
                outbox := p.outbox ++ [.notice ⟨.adoptFailed, some c, u8 0⟩] }) ∧
            ((coverAt x.playlist x.now).map (·.id) ≠ some a.event → ∀ q, q = p.switchLine c →
              (q.chan c).mode = .orphaned ∧ (q.chan c).adoption = none ∧ (q.chan c).portInUse = some g.primary ∧
              c ∉ q.spareQueue ∧ ⟨.adoptFailed, some c, u8 0⟩ ∈ q.notices ∧
              ((∀ i j, (s.plant.port i).holder = some c → (s.plant.port j).holder = some c → i = j) →
                ∀ i, (q.port i).holder ≠ some c)) ∧
            ((coverAt x.playlist x.now).map (·.id) = some a.event → ∀ q, q = p.switchLine c →
              (q.chan c).mode = .onLocal ∧ (q.chan c).adoption = none ∧
              ⟨.adoptDone, some c, u32 a.event ++ at' ++ u8 a.port.val⟩ ∈ q.notices ∧
              (∀ e ∈ (q.chan c).playlist, e.id = a.event → e.cue = .airing) ∧
              (∀ i, x.portInUse = some i → (s.plant.port i).state = .up →
                ((s.plant.port i).role ≠ .spare ∨ (s.plant.port i).holder = some c) → x.openEntry = none →
                (q.chan c).switch = x.switch ∧ (q.chan c).seq.cursor = some a.event ∧ (q.chan c).seq.queue = [] ∧
                (q.chan c).openEntry = some { event := a.event, start := x.now, kind := .join, port := some i } ∧
                (q.chan c).portInUse = some i ∧ (q.chan c).pendingSw = [] ∧ q.entries = p.entries) ∧
              (∀ i, x.portInUse = some i → i = g.primary → (s.plant.port i).state ≠ .up → (∀ j, (s.plant.port j).holder ≠ some c) →
                (∀ j, (s.plant.port j).role = .spare → (s.plant.port j).state = .up → (s.plant.port j).holder = none →
                  g.spares.testBit j.val = false) →
                (q.chan c).portInUse = none ∧ c ∈ q.spareQueue ∧
                ⟨.joinFailed, some c, u8 3 ++ u8 FailReason.timeout.code ++ u8 i.val ++ u8 1⟩ ∈ q.notices ∧
                (x.switch = .onLocal → (q.chan c).pendingSw =
                  [{ pos := .filler, frame := x.now + 1, cause := .portLoss, act := .plain }]) ∧
                (x.switch ≠ .onLocal → (q.chan c).pendingSw = []) ∧
                (x.switch = .filler → x.openEntry = none → q.entries = p.entries ∧
                  (q.chan c).openEntry = some { event := a.event, start := x.now, kind := .join, port := some i })))) ∧
          (∀ t w, x.mode = .orphaned → x.adoption = none → x.release = some (.main t) → x.pendingSw = [w] → w.act = .release →
            w.frame ≤ x.now →
            (t = .shadow →
              p.switchLine c = { p.setChan c { x with
                  mode := .shadow, switch := .main, release := none, pendingSw := [], portInUse := some g.primary
                  replica := { Replica.reset with reloadTimer := some 0 } } with
                hold := p.hold.filter fun h => h.channel != c
                outbox := p.outbox ++ swTo .main .release .shadow ++ [.back (.askReload c)] ++
                  (if x.replica.state = .awaitBase then [] else
                    [.notice ⟨.replicaState, some c, u8 x.replica.state.code ++ u8 0 ++ u8 13 ++ u8 0 ++ u8 0 ++ u8 0 ++
                      u8 0 ++ u8 0 ++ u8 0⟩]) }) ∧
            (t = .idle → ∀ q, q = p.switchLine c →
              q.chan c = { Channel.reset with switch := .main } ∧ c ∉ q.spareQueue ∧ (∀ h ∈ q.hold, h.channel ≠ c) ∧
              (∀ o ∈ swTo .main .release .idle, o ∈ q.outbox) ∧ .dropBack c ∈ q.outbox ∧ .clearMissed c ∈ q.outbox ∧
              q.NoSlot c ∧ p.Still q))))

/-! ## Formats (chapter 10) -/

/-- R192, R194 and section 10.3: an event description that fits its fields, written out and read back, is the same description. -/
def Obligations.DescriptionsReadBack : Prop := ∀ d : RawDesc, descFits d = true → whole rDesc (descBytes d) = some d
end

