-- ==== Sys2Proof/Laws/State.lean ====
section
/-! SUPPORT. One lemma per field and update of the plant: what reading a part gives after another part was written. -/

namespace Sys2Proof.Machine

/-! ## A channel written -/

@[simp] theorem Plant.chan_setChan_same (p : Plant) (c : Chan) (x : Channel) : (p.setChan c x).chan c = x := by
  simp [Plant.chan, Plant.setChan]

theorem Plant.chan_setChan_other (p : Plant) {c d : Chan} (x : Channel) (h : d ≠ c) : (p.setChan c x).chan d = p.chan d := by
  have h' : c.val ≠ d.val := fun e => h (Fin.ext e.symm)
  simp [Plant.chan, Plant.setChan, h']

@[simp] theorem Plant.chan_modChan_same (p : Plant) (c : Chan) (f : Channel → Channel) :
    (p.modChan c f).chan c = f (p.chan c) := by
  simp [Plant.modChan]

theorem Plant.chan_modChan_other (p : Plant) {c d : Chan} (f : Channel → Channel) (h : d ≠ c) :
    (p.modChan c f).chan d = p.chan d := p.chan_setChan_other _ h

theorem Plant.chan_modChan (p : Plant) (c d : Chan) (f : Channel → Channel) :
    (p.modChan c f).chan d = if d = c then f (p.chan d) else p.chan d := by
  split
  · next h => subst h; simp
  · next h => exact p.chan_modChan_other f h

@[simp] theorem Plant.setChan_port (p : Plant) (c : Chan) (x : Channel) (i : PortNo) : (p.setChan c x).port i = p.port i := rfl
@[simp] theorem Plant.setChan_ref (p : Plant) (c : Chan) (x : Channel) (r : RefId) : (p.setChan c x).ref r = p.ref r := by
  cases r <;> rfl
@[simp] theorem Plant.setChan_link (p : Plant) (c : Chan) (x : Channel) (l : LinkId) : (p.setChan c x).link l = p.link l := by
  cases l <;> rfl
@[simp] theorem Plant.setChan_refA (p : Plant) (c : Chan) (x : Channel) : (p.setChan c x).refA = p.refA := rfl
@[simp] theorem Plant.setChan_refB (p : Plant) (c : Chan) (x : Channel) : (p.setChan c x).refB = p.refB := rfl
@[simp] theorem Plant.setChan_templates (p : Plant) (c : Chan) (x : Channel) : (p.setChan c x).templates = p.templates := rfl
@[simp] theorem Plant.setChan_ports (p : Plant) (c : Chan) (x : Channel) : (p.setChan c x).ports = p.ports := rfl
@[simp] theorem Plant.setChan_spareQueue (p : Plant) (c : Chan) (x : Channel) : (p.setChan c x).spareQueue = p.spareQueue := rfl
@[simp] theorem Plant.setChan_link0 (p : Plant) (c : Chan) (x : Channel) : (p.setChan c x).link0 = p.link0 := rfl
@[simp] theorem Plant.setChan_link1 (p : Plant) (c : Chan) (x : Channel) : (p.setChan c x).link1 = p.link1 := rfl
@[simp] theorem Plant.setChan_hold (p : Plant) (c : Chan) (x : Channel) : (p.setChan c x).hold = p.hold := rfl
@[simp] theorem Plant.setChan_hbTimeout (p : Plant) (c : Chan) (x : Channel) : (p.setChan c x).hbTimeout = p.hbTimeout := rfl
@[simp] theorem Plant.setChan_heartbeat (p : Plant) (c : Chan) (x : Channel) : (p.setChan c x).heartbeat = p.heartbeat := rfl
@[simp] theorem Plant.setChan_pulseMem (p : Plant) (c : Chan) (x : Channel) : (p.setChan c x).pulseMem = p.pulseMem := rfl
@[simp] theorem Plant.setChan_probeFlags (p : Plant) (c : Chan) (x : Channel) : (p.setChan c x).probeFlags = p.probeFlags := rfl
@[simp] theorem Plant.setChan_probeRx (p : Plant) (c : Chan) (x : Channel) : (p.setChan c x).probeRx = p.probeRx := rfl
@[simp] theorem Plant.setChan_mainDay (p : Plant) (c : Chan) (x : Channel) : (p.setChan c x).mainDay = p.mainDay := rfl
@[simp] theorem Plant.setChan_free (p : Plant) (c : Chan) (x : Channel) : (p.setChan c x).free = p.free := rfl
@[simp] theorem Plant.setChan_outbox (p : Plant) (c : Chan) (x : Channel) : (p.setChan c x).outbox = p.outbox := rfl

@[simp] theorem Plant.modChan_port (p : Plant) (c : Chan) (f : Channel → Channel) (i : PortNo) :
    (p.modChan c f).port i = p.port i := rfl
@[simp] theorem Plant.modChan_ref (p : Plant) (c : Chan) (f : Channel → Channel) (r : RefId) :
    (p.modChan c f).ref r = p.ref r := p.setChan_ref c _ r
@[simp] theorem Plant.modChan_link (p : Plant) (c : Chan) (f : Channel → Channel) (l : LinkId) :
    (p.modChan c f).link l = p.link l := p.setChan_link c _ l
@[simp] theorem Plant.modChan_templates (p : Plant) (c : Chan) (f : Channel → Channel) : (p.modChan c f).templates = p.templates := rfl
@[simp] theorem Plant.modChan_ports (p : Plant) (c : Chan) (f : Channel → Channel) : (p.modChan c f).ports = p.ports := rfl
@[simp] theorem Plant.modChan_spareQueue (p : Plant) (c : Chan) (f : Channel → Channel) :
    (p.modChan c f).spareQueue = p.spareQueue := rfl
@[simp] theorem Plant.modChan_hold (p : Plant) (c : Chan) (f : Channel → Channel) : (p.modChan c f).hold = p.hold := rfl
@[simp] theorem Plant.modChan_heartbeat (p : Plant) (c : Chan) (f : Channel → Channel) : (p.modChan c f).heartbeat = p.heartbeat := rfl
@[simp] theorem Plant.modChan_free (p : Plant) (c : Chan) (f : Channel → Channel) : (p.modChan c f).free = p.free := rfl
@[simp] theorem Plant.modChan_outbox (p : Plant) (c : Chan) (f : Channel → Channel) : (p.modChan c f).outbox = p.outbox := rfl

/-! ## A port written -/

@[simp] theorem Plant.port_setPort_same (p : Plant) (i : PortNo) (x : Port) : (p.setPort i x).port i = x := by
  simp [Plant.port, Plant.setPort]

theorem Plant.port_setPort_other (p : Plant) {i j : PortNo} (x : Port) (h : j ≠ i) : (p.setPort i x).port j = p.port j := by
  have h' : i.val ≠ j.val := fun e => h (Fin.ext e.symm)
  simp [Plant.port, Plant.setPort, h']

@[simp] theorem Plant.port_modPort_same (p : Plant) (i : PortNo) (f : Port → Port) : (p.modPort i f).port i = f (p.port i) := by
  simp [Plant.modPort]

theorem Plant.port_modPort_other (p : Plant) {i j : PortNo} (f : Port → Port) (h : j ≠ i) :
    (p.modPort i f).port j = p.port j := p.port_setPort_other _ h

theorem Plant.port_modPort (p : Plant) (i j : PortNo) (f : Port → Port) :
    (p.modPort i f).port j = if j = i then f (p.port j) else p.port j := by
  split
  · next h => subst h; simp
  · next h => exact p.port_modPort_other f h

@[simp] theorem Plant.port_mapPorts (p : Plant) (f : Port → Port) (i : PortNo) :
    ({ p with ports := p.ports.map f } : Plant).port i = f (p.port i) := by
  simp [Plant.port]

@[simp] theorem Plant.setPort_chan (p : Plant) (i : PortNo) (x : Port) (c : Chan) : (p.setPort i x).chan c = p.chan c := rfl
@[simp] theorem Plant.setPort_ref (p : Plant) (i : PortNo) (x : Port) (r : RefId) : (p.setPort i x).ref r = p.ref r := by
  cases r <;> rfl
@[simp] theorem Plant.setPort_link (p : Plant) (i : PortNo) (x : Port) (l : LinkId) : (p.setPort i x).link l = p.link l := by
  cases l <;> rfl
@[simp] theorem Plant.setPort_chans (p : Plant) (i : PortNo) (x : Port) : (p.setPort i x).chans = p.chans := rfl
@[simp] theorem Plant.setPort_refA (p : Plant) (i : PortNo) (x : Port) : (p.setPort i x).refA = p.refA := rfl
@[simp] theorem Plant.setPort_refB (p : Plant) (i : PortNo) (x : Port) : (p.setPort i x).refB = p.refB := rfl
@[simp] theorem Plant.setPort_templates (p : Plant) (i : PortNo) (x : Port) : (p.setPort i x).templates = p.templates := rfl
@[simp] theorem Plant.setPort_spareQueue (p : Plant) (i : PortNo) (x : Port) : (p.setPort i x).spareQueue = p.spareQueue := rfl
@[simp] theorem Plant.setPort_link0 (p : Plant) (i : PortNo) (x : Port) : (p.setPort i x).link0 = p.link0 := rfl
@[simp] theorem Plant.setPort_link1 (p : Plant) (i : PortNo) (x : Port) : (p.setPort i x).link1 = p.link1 := rfl
@[simp] theorem Plant.setPort_hold (p : Plant) (i : PortNo) (x : Port) : (p.setPort i x).hold = p.hold := rfl
@[simp] theorem Plant.setPort_hbTimeout (p : Plant) (i : PortNo) (x : Port) : (p.setPort i x).hbTimeout = p.hbTimeout := rfl
@[simp] theorem Plant.setPort_heartbeat (p : Plant) (i : PortNo) (x : Port) : (p.setPort i x).heartbeat = p.heartbeat := rfl
@[simp] theorem Plant.setPort_pulseMem (p : Plant) (i : PortNo) (x : Port) : (p.setPort i x).pulseMem = p.pulseMem := rfl
@[simp] theorem Plant.setPort_probeFlags (p : Plant) (i : PortNo) (x : Port) : (p.setPort i x).probeFlags = p.probeFlags := rfl
@[simp] theorem Plant.setPort_probeRx (p : Plant) (i : PortNo) (x : Port) : (p.setPort i x).probeRx = p.probeRx := rfl
@[simp] theorem Plant.setPort_mainDay (p : Plant) (i : PortNo) (x : Port) : (p.setPort i x).mainDay = p.mainDay := rfl
@[simp] theorem Plant.setPort_free (p : Plant) (i : PortNo) (x : Port) : (p.setPort i x).free = p.free := rfl
@[simp] theorem Plant.setPort_outbox (p : Plant) (i : PortNo) (x : Port) : (p.setPort i x).outbox = p.outbox := rfl

@[simp] theorem Plant.modPort_chan (p : Plant) (i : PortNo) (f : Port → Port) (c : Chan) : (p.modPort i f).chan c = p.chan c := rfl
@[simp] theorem Plant.modPort_chans (p : Plant) (i : PortNo) (f : Port → Port) : (p.modPort i f).chans = p.chans := rfl
@[simp] theorem Plant.modPort_ref (p : Plant) (i : PortNo) (f : Port → Port) (r : RefId) : (p.modPort i f).ref r = p.ref r :=
  p.setPort_ref i _ r
@[simp] theorem Plant.modPort_spareQueue (p : Plant) (i : PortNo) (f : Port → Port) :
    (p.modPort i f).spareQueue = p.spareQueue := rfl
@[simp] theorem Plant.modPort_hold (p : Plant) (i : PortNo) (f : Port → Port) : (p.modPort i f).hold = p.hold := rfl
@[simp] theorem Plant.modPort_outbox (p : Plant) (i : PortNo) (f : Port → Port) : (p.modPort i f).outbox = p.outbox := rfl

/-! ## A reference or a link written -/

@[simp] theorem Plant.ref_setRef_same (p : Plant) (r : RefId) (x : Reference) : (p.setRef r x).ref r = x := by cases r <;> rfl

theorem Plant.ref_setRef_other (p : Plant) {r q : RefId} (x : Reference) (h : q ≠ r) : (p.setRef r x).ref q = p.ref q := by
  cases r <;> cases q <;> first | rfl | exact absurd rfl h

@[simp] theorem Plant.setRef_chan (p : Plant) (r : RefId) (x : Reference) (c : Chan) : (p.setRef r x).chan c = p.chan c := by
  cases r <;> rfl
@[simp] theorem Plant.setRef_chans (p : Plant) (r : RefId) (x : Reference) : (p.setRef r x).chans = p.chans := by
  cases r <;> rfl
@[simp] theorem Plant.setRef_port (p : Plant) (r : RefId) (x : Reference) (i : PortNo) : (p.setRef r x).port i = p.port i := by
  cases r <;> rfl
@[simp] theorem Plant.setRef_ports (p : Plant) (r : RefId) (x : Reference) : (p.setRef r x).ports = p.ports := by
  cases r <;> rfl
@[simp] theorem Plant.setRef_link (p : Plant) (r : RefId) (x : Reference) (l : LinkId) : (p.setRef r x).link l = p.link l := by
  cases r <;> cases l <;> rfl
@[simp] theorem Plant.setRef_hold (p : Plant) (r : RefId) (x : Reference) : (p.setRef r x).hold = p.hold := by
  cases r <;> rfl
@[simp] theorem Plant.setRef_outbox (p : Plant) (r : RefId) (x : Reference) : (p.setRef r x).outbox = p.outbox := by
  cases r <;> rfl

@[simp] theorem Plant.link_setLink_same (p : Plant) (l : LinkId) (x : Link) : (p.setLink l x).link l = x := by cases l <;> rfl

theorem Plant.link_setLink_other (p : Plant) {l m : LinkId} (x : Link) (h : m ≠ l) : (p.setLink l x).link m = p.link m := by
  cases l <;> cases m <;> first | rfl | exact absurd rfl h

@[simp] theorem Plant.setLink_chan (p : Plant) (l : LinkId) (x : Link) (c : Chan) : (p.setLink l x).chan c = p.chan c := by
  cases l <;> rfl
@[simp] theorem Plant.setLink_chans (p : Plant) (l : LinkId) (x : Link) : (p.setLink l x).chans = p.chans := by
  cases l <;> rfl
@[simp] theorem Plant.setLink_port (p : Plant) (l : LinkId) (x : Link) (i : PortNo) : (p.setLink l x).port i = p.port i := by
  cases l <;> rfl
@[simp] theorem Plant.setLink_ref (p : Plant) (l : LinkId) (x : Link) (r : RefId) : (p.setLink l x).ref r = p.ref r := by
  cases l <;> cases r <;> rfl
@[simp] theorem Plant.setLink_hold (p : Plant) (l : LinkId) (x : Link) : (p.setLink l x).hold = p.hold := by
  cases l <;> rfl
@[simp] theorem Plant.setLink_outbox (p : Plant) (l : LinkId) (x : Link) : (p.setLink l x).outbox = p.outbox := by
  cases l <;> rfl

/-! ## What a block hands out -/

@[simp] theorem Plant.emit_chan (p : Plant) (o : Outgoing) (c : Chan) : (p.emit o).chan c = p.chan c := rfl
@[simp] theorem Plant.emit_chans (p : Plant) (o : Outgoing) : (p.emit o).chans = p.chans := rfl
@[simp] theorem Plant.emit_port (p : Plant) (o : Outgoing) (i : PortNo) : (p.emit o).port i = p.port i := rfl
@[simp] theorem Plant.emit_ports (p : Plant) (o : Outgoing) : (p.emit o).ports = p.ports := rfl
@[simp] theorem Plant.emit_ref (p : Plant) (o : Outgoing) (r : RefId) : (p.emit o).ref r = p.ref r := by cases r <;> rfl
@[simp] theorem Plant.emit_link (p : Plant) (o : Outgoing) (l : LinkId) : (p.emit o).link l = p.link l := by cases l <;> rfl
@[simp] theorem Plant.emit_refA (p : Plant) (o : Outgoing) : (p.emit o).refA = p.refA := rfl
@[simp] theorem Plant.emit_refB (p : Plant) (o : Outgoing) : (p.emit o).refB = p.refB := rfl
@[simp] theorem Plant.emit_templates (p : Plant) (o : Outgoing) : (p.emit o).templates = p.templates := rfl
@[simp] theorem Plant.emit_spareQueue (p : Plant) (o : Outgoing) : (p.emit o).spareQueue = p.spareQueue := rfl
@[simp] theorem Plant.emit_hold (p : Plant) (o : Outgoing) : (p.emit o).hold = p.hold := rfl
@[simp] theorem Plant.emit_free (p : Plant) (o : Outgoing) : (p.emit o).free = p.free := rfl
@[simp] theorem Plant.emit_outbox (p : Plant) (o : Outgoing) : (p.emit o).outbox = p.outbox ++ [o] := rfl

@[simp] theorem Plant.notify_chan (p : Plant) (k : NoticeKind) (d : Option Chan) (b : List Byte) (c : Chan) :
    (p.notify k d b).chan c = p.chan c := rfl
@[simp] theorem Plant.notify_chans (p : Plant) (k : NoticeKind) (d : Option Chan) (b : List Byte) :
    (p.notify k d b).chans = p.chans := rfl
@[simp] theorem Plant.notify_port (p : Plant) (k : NoticeKind) (d : Option Chan) (b : List Byte) (i : PortNo) :
    (p.notify k d b).port i = p.port i := rfl
@[simp] theorem Plant.notify_ref (p : Plant) (k : NoticeKind) (d : Option Chan) (b : List Byte) (r : RefId) :
    (p.notify k d b).ref r = p.ref r := p.emit_ref _ r
@[simp] theorem Plant.notify_hold (p : Plant) (k : NoticeKind) (d : Option Chan) (b : List Byte) :
    (p.notify k d b).hold = p.hold := rfl
@[simp] theorem Plant.notify_outbox (p : Plant) (k : NoticeKind) (d : Option Chan) (b : List Byte) :
    (p.notify k d b).outbox = p.outbox ++ [.notice { kind := k, channel := d, content := b }] := rfl

@[simp] theorem Plant.sendBack_chan (p : Plant) (r : BackRec) (c : Chan) : (p.sendBack r).chan c = p.chan c := rfl
@[simp] theorem Plant.sendBack_port (p : Plant) (r : BackRec) (i : PortNo) : (p.sendBack r).port i = p.port i := rfl
@[simp] theorem Plant.sendBack_outbox (p : Plant) (r : BackRec) : (p.sendBack r).outbox = p.outbox ++ [.back r] := rfl

@[simp] theorem Plant.tickFree_chan (p : Plant) (c : Chan) : p.tickFree.chan c = p.chan c := rfl
@[simp] theorem Plant.tickFree_port (p : Plant) (i : PortNo) : p.tickFree.port i = p.port i := rfl
@[simp] theorem Plant.tickFree_ref (p : Plant) (r : RefId) : p.tickFree.ref r = p.ref r := by cases r <;> rfl
@[simp] theorem Plant.tickFree_free (p : Plant) : p.tickFree.free = p.free + 1 := rfl

/-! ## What a channel's configuration gives -/

@[simp] theorem Plant.emit_config (p : Plant) (o : Outgoing) (c : Chan) : (p.emit o).config c = p.config c := rfl
@[simp] theorem Plant.setPort_config (p : Plant) (i : PortNo) (x : Port) (c : Chan) : (p.setPort i x).config c = p.config c := rfl
@[simp] theorem Plant.setRef_config (p : Plant) (r : RefId) (x : Reference) (c : Chan) : (p.setRef r x).config c = p.config c := by
  cases r <;> rfl

theorem Plant.config_modChan (p : Plant) (c d : Chan) (f : Channel → Channel) (h : ∀ x, (f x).config = x.config) :
    (p.modChan c f).config d = p.config d := by
  simp only [Plant.config, Plant.chan_modChan]
  split
  · rw [h]
  · rfl

/-! ## An event of a list -/

theorem map_id_modEvent (l : List Event) (id : Nat) (f : Event → Event) (h : ∀ e, (f e).id = e.id) :
    (modEvent l id f).map (·.id) = l.map (·.id) := by
  simp only [modEvent, List.map_map]
  apply List.map_congr_left
  intro e _
  simp only [Function.comp]
  split
  · exact h e
  · rfl

@[simp] theorem length_modEvent (l : List Event) (id : Nat) (f : Event → Event) : (modEvent l id f).length = l.length := by
  simp [modEvent]

theorem findEvent_modEvent_same (l : List Event) (id : Nat) (f : Event → Event) (h : ∀ e, (f e).id = e.id) :
    findEvent (modEvent l id f) id = (findEvent l id).map f := by
  induction l with
  | nil => rfl
  | cons e l ih =>
    simp only [modEvent, findEvent, List.map_cons, List.find?_cons] at ih ⊢
    by_cases hb : (e.id == id) = true
    · have : ((f e).id == id) = true := by rw [h]; exact hb
      simp [hb, this]
    · simp only [hb, Bool.false_eq_true, if_false]
      exact ih

theorem findEvent_modEvent_other (l : List Event) {id j : Nat} (f : Event → Event) (h : ∀ e, (f e).id = e.id) (hj : j ≠ id) :
    findEvent (modEvent l id f) j = findEvent l j := by
  induction l with
  | nil => rfl
  | cons e l ih =>
    simp only [modEvent, findEvent, List.map_cons, List.find?_cons] at ih ⊢
    by_cases hb : (e.id == id) = true
    · have h1 : e.id ≠ j := fun hh => hj (hh ▸ (beq_iff_eq.mp hb).symm ▸ rfl)
      have h2 : ((f e).id == j) = false := by rw [h]; simpa using h1
      have h3 : (e.id == j) = false := by simpa using h1
      simp only [hb, if_true, h2, h3]
      exact ih
    · simp only [hb, Bool.false_eq_true, if_false]
      split
      · rfl
      · exact ih

/-! ## Ordered insertion -/

@[simp] theorem length_insertBy {α : Type} (before : α → α → Bool) (x : α) (l : List α) :
    (insertBy before x l).length = l.length + 1 := by
  induction l with
  | nil => rfl
  | cons y l ih => simp only [insertBy]; split <;> simp [ih]

theorem mem_insertBy {α : Type} (before : α → α → Bool) (x y : α) (l : List α) : y ∈ insertBy before x l ↔ y = x ∨ y ∈ l := by
  induction l with
  | nil => simp [insertBy]
  | cons z l ih =>
    simp only [insertBy]
    split
    · simp
    · simp only [List.mem_cons, ih]; tauto

end Sys2Proof.Machine
end

