-- ==== Sys2Proof/Laws/Changeover.lean ====
section
/-! SUPPORT. What deciding a change of switch leaves pending (R141), when a take's bridge is decided again (R148), what handing over a
list of one STOP does (R107), what a switch that leaves its server decides and marks (R154, R161), which
open entry FILLER ends (R161, R165), which open entry a join leaves as it
stands (R164), and what SKIP_EVENT finds of an event off the playlist (R126, R129). -/

namespace Sys2Proof.Machine

/-- R141: a decision for the next switch line replaces every pending change. -/
theorem Plant.decideSwitch_next (p : Plant) (c : Chan) (pos : SwitchPos) (cause : SwitchCause) (act : SwAct) :
    p.decideSwitch c pos (p.nextLineFrame c) cause act =
      p.modChan c fun x => { x with pendingSw := [{ pos := pos, frame := p.nextLineFrame c, cause := cause, act := act }] } := by
  simp [Plant.decideSwitch, Plant.pendingBefore]

/-- R141: a decision for a later line keeps what is pending for the lines before it. -/
theorem Plant.decideSwitch_later (p : Plant) (c : Chan) (pos : SwitchPos) {frame : Nat} (cause : SwitchCause) (act : SwAct)
    (h : p.nextLineFrame c < frame) :
    p.decideSwitch c pos frame cause act = p.modChan c fun x =>
      { x with pendingSw := (p.chan c).pendingSw.filter (fun w => decide (w.frame < frame)) ++
                              [{ pos := pos, frame := frame, cause := cause, act := act }] } := by
  simp [Plant.decideSwitch, Plant.pendingBefore, h]

/-- R148: outside a take, or with a change pending, no bridge is decided again. -/
theorem Plant.keepBridge_quiet (p : Plant) (c : Chan) (h : (p.chan c).mode ≠ .taking ∨ (p.chan c).pendingSw ≠ []) :
    p.keepBridge c = p := by
  rcases h with h | h <;> simp [Plant.keepBridge, h]

/-- R148: a take's bridge of FILLER whose change is no longer pending is decided for the next switch line. -/
theorem Plant.keepBridge_again (p : Plant) (c : Chan) (hm : (p.chan c).mode = .taking) (hs : (p.chan c).switch = .main)
    (hp : (p.chan c).pendingSw = []) (hb : p.takeBridge c (((p.chan c).takeRec.map (·.option)).getD .join) = .filler) :
    p.keepBridge c = p.modChan c fun x =>
      { x with pendingSw := [{ pos := .filler, frame := p.nextLineFrame c, cause := .bridge, act := .bridge }] } := by
  simp [Plant.keepBridge, hm, hs, hp, hb, Plant.decideSwitch_next]

/-- A port written as it stands, and one written twice. -/
theorem Plant.setPort_port (p : Plant) (i : PortNo) : p.setPort i (p.port i) = p := by
  simp [Plant.setPort, Plant.port]

theorem Plant.setPort_setPort (p : Plant) (i : PortNo) (x y : Port) : (p.setPort i x).setPort i y = p.setPort i y := by
  simp [Plant.setPort]

/-- R106: the arbiter grants nothing on a port that is not UP. -/
theorem Plant.arbitrate_idle (p : Plant) (i : PortNo) (h : (p.port i).state ≠ .up) :
    p.arbitrate i = p.setPort i (p.port i).dropFinished := by
  have : (p.port i).dropFinished.state ≠ .up := by
    unfold Port.dropFinished
    split <;> exact h
  simp [Plant.arbitrate, this]

/-- R107: on a port that is not UP, with no list, a list of commands only stands in the claim. -/
theorem Plant.handList_idle (p : Plant) (i : PortNo) (l : CmdList) (hs : (p.port i).state ≠ .up) (hc : (p.port i).claim = [])
    (hl : l.cmds ≠ []) : p.handList i l = p.modPort i fun x => { x with claim := [l] } := by
  have hd : ((p.port i).addList l).dropFinished = { p.port i with claim := [l] } := by
    simp [Port.dropFinished, Port.addList, hc, hl]
  rw [Plant.handList, Plant.arbitrate_idle _ _ (by simpa [Port.addList] using hs), Plant.port_modPort_same, hd]
  simp [Plant.modPort, Plant.setPort_setPort]

/-- R107: a port that is UP sends the STOP in its turn. -/
theorem Plant.handStop_up (p : Plant) (c : Chan) (i : PortNo) (notBefore : Option Nat)
    (h : ((p.handList i (stopList c notBefore)).port i).state = .up) :
    p.handStop c i notBefore = p.handList i (stopList c notBefore) := by
  simp [Plant.handStop, h]

/-- R107: a STOP that may not be sent yet stands in the claim. -/
theorem Plant.handStop_waits (p : Plant) (c : Chan) (i : PortNo) (f : Nat) (h : (p.chan c).now < f) :
    p.handStop c i (some f) = p.handList i (stopList c (some f)) := by
  simp [Plant.handStop, h]

/-- R107: on a port that is not UP and has no list, a STOP that is due leaves nothing but the last outcome TIMEOUT. -/
theorem Plant.handStop_down (p : Plant) (c : Chan) (i : PortNo) (notBefore : Option Nat) (hs : (p.port i).state ≠ .up)
    (hc : (p.port i).claim = []) (hd : ∀ f ∈ notBefore, f ≤ (p.chan c).now) :
    p.handStop c i notBefore = p.writeLast c .timeout := by
  have hl := p.handList_idle i (stopList c notBefore) hs hc (by simp [stopList])
  have hp : (p.port i) = { p.port i with claim := [] } := by rw [← hc]
  simp only [Plant.handStop, hl, Plant.port_modPort_same]
  rw [if_pos ⟨hs, trivial, hd⟩]
  simp only [Plant.modPort, Plant.port_setPort_same, Plant.setPort_setPort]
  rw [← hp, Plant.setPort_port]

/-- R161: FILLER ends no entry of an event whose switch stood at FILLER, but one opened as its event starts. -/
theorem Channel.endsOnFiller_kept (x : Channel) (o : OpenEntry) (h : o.kind ≠ .start) : x.endsOnFiller .filler o = false := by
  simp [Channel.endsOnFiller, h]

theorem Channel.endsOnFiller_left (x : Channel) {before : SwitchPos} (o : OpenEntry) (h : before ≠ .filler) :
    x.endsOnFiller before o = x.fromServer o := by
  simp [Channel.endsOnFiller, h]

/-- R154, R161: nothing is due to end CUT where the switch does not stand at LOCAL; there, the entry of a CLIP event on air from a port. -/
theorem Channel.markCut_off (x : Channel) (h : x.switch ≠ .onLocal) : x.markCut = x := by simp [Channel.markCut, h]

theorem Channel.markCut_on (x : Channel) (h : x.switch = .onLocal) :
    x.markCut = { x with openEntry := x.openEntry.map fun o => { o with cutDue := o.cutDue || x.fromServer o } } := by
  simp [Channel.markCut, h]

@[simp] theorem Channel.markCut_rest (x : Channel) : { x.markCut with openEntry := x.openEntry } = x := by
  unfold Channel.markCut
  split <;> rfl

/-- R154, R161: FILLER at the next switch line in place of all that is pending, and the entry marked. -/
theorem Plant.leaveServer_eq (p : Plant) (c : Chan) :
    p.leaveServer c = p.modChan c fun x =>
      { x.markCut with pendingSw := [{ pos := .filler, frame := p.nextLineFrame c, cause := .portLoss, act := .plain }] } := by
  have h : (p.modChan c Channel.markCut).nextLineFrame c = p.nextLineFrame c := by
    by_cases hs : (p.chan c).switch = .onLocal <;>
      simp [Plant.nextLineFrame, Plant.config, Plant.chan_modChan_same, Plant.modChan_ref, Channel.markCut, hs]
  rw [Plant.leaveServer, ← h, Plant.decideSwitch_next]
  simp [Plant.modChan, Plant.setChan, Plant.chan]

/-- R164: a join leaves its event's own entry, open and not due to end, as it stands. -/
theorem Plant.joinEntry_stays (p : Plant) (c : Chan) {o : OpenEntry} (t : Nat) (kind : EntryKind) (port : Option PortNo)
    (h : (p.chan c).openEntry = some o) (hk : o.kind ≠ .filler) (hc : o.cutDue = false) :
    p.joinEntry c o.event t kind port = p := by
  simp [Plant.joinEntry, h, hk, hc]

/-- R126, R129: of an event off the playlist SKIP_EVENT finds the queued entries alone. -/
theorem Plant.skipEvent_gone (p : Plant) (c : Chan) (s : StepEntry)
    (h : s.standing ≠ .live ∨ findEvent (p.chan c).playlist s.event = none) :
    p.skipEvent c s = p.modChan c fun x => x.dropEntriesLike s := by
  rcases h with h | h <;> simp [Plant.skipEvent, h]

end Sys2Proof.Machine
end

