-- ==== Sys2Proof/Laws/Delivery.lean ====
section
/-! SUPPORT. What the end of a step does: the transmit side, the notice queue, the As-Run Log, the back channel, and the
placing of what the blocks hand out. -/

namespace Sys2Proof.Machine

/-! ## The transmit side -/

@[simp] theorem ControlLine.begin_rx (k : ControlLine) (x : TxItem) : (k.begin x).rx = k.rx := rfl
@[simp] theorem ControlLine.begin_requests (k : ControlLine) (x : TxItem) : (k.begin x).requests = k.requests := rfl
@[simp] theorem ControlLine.begin_busy (k : ControlLine) (x : TxItem) : (k.begin x).busy = k.busy := rfl
@[simp] theorem ControlLine.begin_replies (k : ControlLine) (x : TxItem) : (k.begin x).replies = k.replies := rfl
@[simp] theorem ControlLine.begin_passTable (k : ControlLine) (x : TxItem) : (k.begin x).passTable = k.passTable := rfl
@[simp] theorem ControlLine.begin_notices (k : ControlLine) (x : TxItem) : (k.begin x).notices = k.notices := rfl
@[simp] theorem ControlLine.begin_missed (k : ControlLine) (x : TxItem) : (k.begin x).missed = k.missed := rfl
@[simp] theorem ControlLine.begin_missedPart (k : ControlLine) (x : TxItem) : (k.begin x).missedPart = k.missedPart := rfl
@[simp] theorem ControlLine.begin_tx (k : ControlLine) (x : TxItem) : (k.begin x).tx = some ⟨x, x.frame⟩ := rfl
@[simp] theorem ControlLine.begin_free (k : ControlLine) (x : TxItem) : (k.begin x).free = k.free := rfl
@[simp] theorem ControlLine.begin_waiting (k : ControlLine) (x : TxItem) : (k.begin x).waiting = k.waiting := rfl
@[simp] theorem ControlLine.begin_occupied (k : ControlLine) (x : TxItem) : (k.begin x).occupied = k.occupied := rfl

/-- What choosing a frame can do: the head of the first list that is not empty begins, and nothing else moves. -/
theorem ControlLine.choose_cases (k : ControlLine) :
    (∃ r rest, k.busy = r :: rest ∧ k.choose = { k with busy := rest }.begin (.reply r)) ∨
    (∃ r rest, k.busy = [] ∧ k.replies = r :: rest ∧ k.choose = { k with replies := rest }.begin (.reply r)) ∨
    (∃ n rest, k.busy = [] ∧ k.replies = [] ∧ k.notices = n :: rest ∧ k.choose = { k with notices := rest }.begin (.notice n)) ∨
    (k.busy = [] ∧ k.replies = [] ∧ k.notices = [] ∧ k.choose = k) := by
  unfold ControlLine.choose
  split
  · next r rest h => exact .inl ⟨r, rest, h, rfl⟩
  · next r rest hb hr => exact .inr (.inl ⟨r, rest, hb, hr, rfl⟩)
  · next n rest hb hr hn => exact .inr (.inr (.inl ⟨n, rest, hb, hr, hn, rfl⟩))
  · next hb hr hn => exact .inr (.inr (.inr ⟨hb, hr, hn, rfl⟩))

/-- What an idle line does, and that a line that is sending stands as it is. -/
theorem ControlLine.kick_cases (k : ControlLine) :
    (∃ t, k.tx = some t ∧ k.kick = k) ∨ (k.tx = none ∧ k.kick = k.choose) := by
  unfold ControlLine.kick
  split
  · next t h => exact .inl ⟨t, h, rfl⟩
  · next h => exact .inr ⟨h, rfl⟩

@[simp] theorem ControlLine.kick_rx (k : ControlLine) : k.kick.rx = k.rx := by
  unfold ControlLine.kick ControlLine.choose; repeat' split
  all_goals rfl
@[simp] theorem ControlLine.kick_requests (k : ControlLine) : k.kick.requests = k.requests := by
  unfold ControlLine.kick ControlLine.choose; repeat' split
  all_goals rfl
@[simp] theorem ControlLine.kick_passTable (k : ControlLine) : k.kick.passTable = k.passTable := by
  unfold ControlLine.kick ControlLine.choose; repeat' split
  all_goals rfl
@[simp] theorem ControlLine.kick_missed (k : ControlLine) : k.kick.missed = k.missed := by
  unfold ControlLine.kick ControlLine.choose; repeat' split
  all_goals rfl
@[simp] theorem ControlLine.kick_missedPart (k : ControlLine) : k.kick.missedPart = k.missedPart := by
  unfold ControlLine.kick ControlLine.choose; repeat' split
  all_goals rfl
@[simp] theorem ControlLine.kick_free (k : ControlLine) : k.kick.free = k.free := by
  unfold ControlLine.kick ControlLine.choose; repeat' split
  all_goals rfl
@[simp] theorem ControlLine.kick_waiting (k : ControlLine) : k.kick.waiting = k.waiting := by
  unfold ControlLine.kick ControlLine.choose; repeat' split
  all_goals rfl
@[simp] theorem ControlLine.kick_occupied (k : ControlLine) : k.kick.occupied = k.occupied := by
  unfold ControlLine.kick ControlLine.choose; repeat' split
  all_goals rfl

/-! ## The notice queue -/

@[simp] theorem ControlLine.lose_rx (k : ControlLine) (n : Notice) : (k.lose n).rx = k.rx := by
  unfold ControlLine.lose; split <;> rfl
@[simp] theorem ControlLine.lose_requests (k : ControlLine) (n : Notice) : (k.lose n).requests = k.requests := by
  unfold ControlLine.lose; split <;> rfl
@[simp] theorem ControlLine.lose_busy (k : ControlLine) (n : Notice) : (k.lose n).busy = k.busy := by
  unfold ControlLine.lose; split <;> rfl
@[simp] theorem ControlLine.lose_replies (k : ControlLine) (n : Notice) : (k.lose n).replies = k.replies := by
  unfold ControlLine.lose; split <;> rfl
@[simp] theorem ControlLine.lose_passTable (k : ControlLine) (n : Notice) : (k.lose n).passTable = k.passTable := by
  unfold ControlLine.lose; split <;> rfl
@[simp] theorem ControlLine.lose_notices (k : ControlLine) (n : Notice) : (k.lose n).notices = k.notices := by
  unfold ControlLine.lose; split <;> rfl
@[simp] theorem ControlLine.lose_tx (k : ControlLine) (n : Notice) : (k.lose n).tx = k.tx := by
  unfold ControlLine.lose; split <;> rfl
@[simp] theorem ControlLine.lose_waiting (k : ControlLine) (n : Notice) : (k.lose n).waiting = k.waiting := by
  unfold ControlLine.lose; split <;> rfl
@[simp] theorem ControlLine.lose_occupied (k : ControlLine) (n : Notice) : (k.lose n).occupied = k.occupied := by
  unfold ControlLine.lose; split <;> rfl

/-- R185, R186: what handing over a notice can do. -/
theorem ControlLine.enqueue_cases (k : ControlLine) (n : Notice) :
    (k.notices.length < 32 ∧ k.enqueue n = { k with notices := insertNotice n k.notices }) ∨
    (∃ last, 32 ≤ k.notices.length ∧ k.notices.getLast? = some last ∧ last.kind.cls ≤ n.kind.cls ∧ k.enqueue n = k.lose n) ∨
    (∃ last, 32 ≤ k.notices.length ∧ k.notices.getLast? = some last ∧ n.kind.cls < last.kind.cls ∧
      k.enqueue n = { k.lose last with notices := insertNotice n k.notices.dropLast }) := by
  unfold ControlLine.enqueue
  split
  · next h => exact .inl ⟨h, rfl⟩
  · next h =>
    cases hl : k.notices.getLast? with
    | none =>
      have : k.notices = [] := List.getLast?_eq_none_iff.mp hl
      simp [this] at h
    | some last =>
      simp only
      split
      · next h2 => exact .inr (.inl ⟨last, by omega, rfl, h2, rfl⟩)
      · next h2 => exact .inr (.inr ⟨last, by omega, rfl, by omega, rfl⟩)

@[simp] theorem ControlLine.enqueue_rx (k : ControlLine) (n : Notice) : (k.enqueue n).rx = k.rx := by
  rcases k.enqueue_cases n with ⟨_, h⟩ | ⟨_, _, _, _, h⟩ | ⟨_, _, _, _, h⟩ <;> simp [h]
@[simp] theorem ControlLine.enqueue_requests (k : ControlLine) (n : Notice) : (k.enqueue n).requests = k.requests := by
  rcases k.enqueue_cases n with ⟨_, h⟩ | ⟨_, _, _, _, h⟩ | ⟨_, _, _, _, h⟩ <;> simp [h]
@[simp] theorem ControlLine.enqueue_busy (k : ControlLine) (n : Notice) : (k.enqueue n).busy = k.busy := by
  rcases k.enqueue_cases n with ⟨_, h⟩ | ⟨_, _, _, _, h⟩ | ⟨_, _, _, _, h⟩ <;> simp [h]
@[simp] theorem ControlLine.enqueue_replies (k : ControlLine) (n : Notice) : (k.enqueue n).replies = k.replies := by
  rcases k.enqueue_cases n with ⟨_, h⟩ | ⟨_, _, _, _, h⟩ | ⟨_, _, _, _, h⟩ <;> simp [h]
@[simp] theorem ControlLine.enqueue_passTable (k : ControlLine) (n : Notice) : (k.enqueue n).passTable = k.passTable := by
  rcases k.enqueue_cases n with ⟨_, h⟩ | ⟨_, _, _, _, h⟩ | ⟨_, _, _, _, h⟩ <;> simp [h]
@[simp] theorem ControlLine.enqueue_tx (k : ControlLine) (n : Notice) : (k.enqueue n).tx = k.tx := by
  rcases k.enqueue_cases n with ⟨_, h⟩ | ⟨_, _, _, _, h⟩ | ⟨_, _, _, _, h⟩ <;> simp [h]
@[simp] theorem ControlLine.enqueue_waiting (k : ControlLine) (n : Notice) : (k.enqueue n).waiting = k.waiting := by
  rcases k.enqueue_cases n with ⟨_, h⟩ | ⟨_, _, _, _, h⟩ | ⟨_, _, _, _, h⟩ <;> simp [h]
@[simp] theorem ControlLine.enqueue_occupied (k : ControlLine) (n : Notice) : (k.enqueue n).occupied = k.occupied := by
  rcases k.enqueue_cases n with ⟨_, h⟩ | ⟨_, _, _, _, h⟩ | ⟨_, _, _, _, h⟩ <;> simp [h]

/-- R186: the queue never holds more than 32 notices. -/
theorem ControlLine.enqueue_size (k : ControlLine) (n : Notice) (h : k.notices.length ≤ 32) : (k.enqueue n).notices.length ≤ 32 := by
  rcases k.enqueue_cases n with ⟨_, e⟩ | ⟨_, _, _, _, e⟩ | ⟨_, hl, _, _, e⟩
  · simp [e, insertNotice]; omega
  · simpa [e] using h
  · simp [e, insertNotice]; omega

/-- R185: a notice placed by its class keeps the queue in the order of the classes. -/
theorem insertNotice_order (n : Notice) (l : List Notice) (h : l.Pairwise fun a b => a.kind.cls ≤ b.kind.cls) :
    (insertNotice n l).Pairwise fun a b => a.kind.cls ≤ b.kind.cls := by
  induction l with
  | nil => simp [insertNotice, insertBy]
  | cons y l ih =>
    rw [List.pairwise_cons] at h
    simp only [insertNotice, insertBy] at ih ⊢
    split
    · next hb =>
      have hb : n.kind.cls < y.kind.cls := by simpa using hb
      rw [List.pairwise_cons]
      refine ⟨?_, List.pairwise_cons.mpr h⟩
      intro z hz
      rcases List.mem_cons.mp hz with rfl | hz
      · omega
      · have := h.1 z hz; omega
    · next hb =>
      have hb : y.kind.cls ≤ n.kind.cls := by simpa using hb
      rw [List.pairwise_cons]
      refine ⟨?_, ih h.2⟩
      intro z hz
      rcases (mem_insertBy _ _ _ _).mp hz with rfl | hz
      · exact hb
      · exact h.1 z hz

theorem ControlLine.enqueue_order (k : ControlLine) (n : Notice) (h : k.notices.Pairwise fun a b => a.kind.cls ≤ b.kind.cls) :
    (k.enqueue n).notices.Pairwise fun a b => a.kind.cls ≤ b.kind.cls := by
  rcases k.enqueue_cases n with ⟨_, e⟩ | ⟨_, _, _, _, e⟩ | ⟨_, _, _, _, e⟩
  · simpa [e] using insertNotice_order n _ h
  · simpa [e] using h
  · simpa [e] using insertNotice_order n _ (h.sublist (List.dropLast_sublist _))

/-! ## The back channel -/

theorem BackRec.sameKind_comm (a b : BackRec) : a.sameKind b = b.sameKind a := by
  cases a <;> cases b <;> simp [BackRec.sameKind, Bool.beq_comm]

/-- R69: the record stands in the queue. -/
theorem mem_putRecord (r : BackRec) (l : List BackRec) : r ∈ putRecord r l := by
  unfold putRecord
  split
  · next h =>
    obtain ⟨k, hk, hs⟩ := List.any_eq_true.mp h
    exact List.mem_map.mpr ⟨k, hk, by simp [hs]⟩
  · simp

/-- What a link does when it may send. -/
theorem BackLink.kick_cases (b : BackLink) :
    (∃ r rest, b.sending = none ∧ b.queue = r :: rest ∧ b.kick = { queue := rest, sending := some (r, r.frame) }) ∨
    ((b.sending ≠ none ∨ b.queue = []) ∧ b.kick = b) := by
  unfold BackLink.kick
  split
  · next r rest h1 h2 => exact .inl ⟨r, rest, h1, h2, rfl⟩
  · next h =>
    refine .inr ⟨?_, rfl⟩
    cases h1 : b.sending with
    | some x => exact .inl (by simp)
    | none =>
      cases h2 : b.queue with
      | nil => exact .inr rfl
      | cons r rest => exact absurd h2 (h r rest h1)

/-! ## The As-Run Log -/

theorem AsRunLog.append_size (g : AsRunLog) (x : AsRunItem) : (g.append x).ring.length ≤ 512 := by
  unfold AsRunLog.append
  rw [List.length_drop, List.length_append, List.length_singleton]
  omega

/-! ## Placing what the blocks hand out -/

@[simp] theorem State.deliver_plant (b : Bool) (s : State) (o : Outgoing) : (s.deliver b o).plant = s.plant := by
  cases o <;> simp only [State.deliver]
@[simp] theorem State.deliver_pending (b : Bool) (s : State) (o : Outgoing) : (s.deliver b o).pending = s.pending := by
  cases o <;> simp only [State.deliver]

@[simp] theorem ControlLine.addReply_requests (k : ControlLine) (r : Reply) : (k.addReply r).requests = k.requests := rfl
@[simp] theorem ControlLine.addReply_passTable (k : ControlLine) (r : Reply) : (k.addReply r).passTable = k.passTable := rfl
@[simp] theorem ControlLine.addReply_rx (k : ControlLine) (r : Reply) : (k.addReply r).rx = k.rx := rfl
@[simp] theorem ControlLine.addReply_waiting (k : ControlLine) (r : Reply) : (k.addReply r).waiting = k.waiting := rfl
@[simp] theorem ControlLine.addReply_occupied (k : ControlLine) (r : Reply) : (k.addReply r).occupied = k.occupied := rfl
@[simp] theorem ControlLine.passReply_requests (k : ControlLine) (i : PortNo) (o : DevOutcome) :
    (k.passReply i o).requests = k.requests := by
  unfold ControlLine.passReply; split <;> rfl
@[simp] theorem ControlLine.passReply_passTable (k : ControlLine) (i : PortNo) (o : DevOutcome) :
    (k.passReply i o).passTable = k.passTable := by
  unfold ControlLine.passReply; split <;> rfl
@[simp] theorem ControlLine.passReply_rx (k : ControlLine) (i : PortNo) (o : DevOutcome) : (k.passReply i o).rx = k.rx := by
  unfold ControlLine.passReply; split <;> rfl
@[simp] theorem ControlLine.passReply_waiting (k : ControlLine) (i : PortNo) (o : DevOutcome) :
    (k.passReply i o).waiting = k.waiting := by
  unfold ControlLine.passReply; split <;> rfl
@[simp] theorem ControlLine.passReply_occupied (k : ControlLine) (i : PortNo) (o : DevOutcome) :
    (k.passReply i o).occupied = k.occupied := by
  unfold ControlLine.passReply; split <;> rfl

@[simp] theorem State.deliver_requests (b : Bool) (s : State) (o : Outgoing) : (s.deliver b o).ctl.requests = s.ctl.requests := by
  cases o <;> simp [State.deliver]
  split <;> simp
@[simp] theorem State.deliver_passTable (b : Bool) (s : State) (o : Outgoing) :
    (s.deliver b o).ctl.passTable = s.ctl.passTable := by
  cases o <;> simp [State.deliver]
  split <;> simp
@[simp] theorem State.deliver_rx (b : Bool) (s : State) (o : Outgoing) : (s.deliver b o).ctl.rx = s.ctl.rx := by
  cases o <;> simp [State.deliver]
  split <;> simp
@[simp] theorem State.deliver_waiting (b : Bool) (s : State) (o : Outgoing) : (s.deliver b o).ctl.waiting = s.ctl.waiting := by
  cases o <;> simp [State.deliver]
  split <;> simp
@[simp] theorem State.deliver_occupied (b : Bool) (s : State) (o : Outgoing) : (s.deliver b o).ctl.occupied = s.ctl.occupied := by
  cases o <;> simp [State.deliver]
  split <;> simp

/-- A property that each delivery keeps holds after all of them. -/
theorem State.deliver_all {P : State → Prop} (b : Bool) (h : ∀ s o, P s → P (s.deliver b o)) (l : List Outgoing) (s : State)
    (hs : P s) : P (l.foldl (State.deliver b) s) := by
  induction l generalizing s with
  | nil => exact hs
  | cons o l ih => exact ih _ (h s o hs)

/-- An item that each delivery leaves alone stands after all of them. -/
theorem State.deliver_same {α : Type} (f : State → α) (b : Bool) (h : ∀ s o, f (s.deliver b o) = f s) (l : List Outgoing)
    (s : State) : f (l.foldl (State.deliver b) s) = f s := by
  induction l generalizing s with
  | nil => rfl
  | cons o l ih => rw [List.foldl_cons, ih, h]

/-- The plant after the end of a step. -/
@[simp] theorem State.settle_plant (s : State) (r : Option Reply) : (s.settle r).plant = { s.plant with outbox := [] } := by
  simp only [State.settle]
  exact State.deliver_same State.plant _ (fun s o => s.deliver_plant _ o) _ _

@[simp] theorem State.settle_pending (s : State) (r : Option Reply) : (s.settle r).pending = s.pending := by
  simp only [State.settle]
  exact State.deliver_same State.pending _ (fun s o => s.deliver_pending _ o) _ _

@[simp] theorem State.settle_requests (s : State) (r : Option Reply) : (s.settle r).ctl.requests = s.ctl.requests := by
  simp only [State.settle, ControlLine.kick_requests]
  cases r <;> simp <;>
    exact State.deliver_same (fun s => s.ctl.requests) _ (fun s o => s.deliver_requests _ o) _ _

@[simp] theorem State.settle_passTable (s : State) (r : Option Reply) : (s.settle r).ctl.passTable = s.ctl.passTable := by
  simp only [State.settle, ControlLine.kick_passTable]
  cases r <;> simp <;>
    exact State.deliver_same (fun s => s.ctl.passTable) _ (fun s o => s.deliver_passTable _ o) _ _

@[simp] theorem State.settle_rx (s : State) (r : Option Reply) : (s.settle r).ctl.rx = s.ctl.rx := by
  simp only [State.settle, ControlLine.kick_rx]
  cases r <;> simp <;>
    exact State.deliver_same (fun s => s.ctl.rx) _ (fun s o => s.deliver_rx _ o) _ _

@[simp] theorem State.settle_waiting (s : State) (r : Option Reply) : (s.settle r).ctl.waiting = s.ctl.waiting := by
  simp only [State.settle, ControlLine.kick_waiting]
  cases r <;> simp <;>
    exact State.deliver_same (fun s => s.ctl.waiting) _ (fun s o => s.deliver_waiting _ o) _ _

@[simp] theorem State.settle_occupied (s : State) (r : Option Reply) : (s.settle r).ctl.occupied = s.ctl.occupied := by
  simp only [State.settle, ControlLine.kick_occupied]
  cases r <;> simp <;>
    exact State.deliver_same (fun s => s.ctl.occupied) _ (fun s o => s.deliver_occupied _ o) _ _

/-! ## Requests and events -/

@[simp] theorem State.event_plant (s : State) (f : Plant → Plant) : (s.event f).plant = { f s.plant with outbox := [] } := by
  simp [State.event]

@[simp] theorem State.event_pending (s : State) (f : Plant → Plant) : (s.event f).pending = s.pending := by simp [State.event]

/-- An event is what it leaves of the plant, placed. -/
theorem State.event_eq (s : State) (f : Plant → Plant) : s.event f = s.passed (f s.plant) := rfl

/-- The plant after an answered request. -/
@[simp] theorem State.answered_plant (s : State) (tag kind : Nat) (q : Plant) (u : Status) (b : List Byte) :
    (s.answered tag kind q u b).plant = { q with outbox := [] } := by
  simp [State.answered]

@[simp] theorem State.passed_plant (s : State) (q : Plant) : (s.passed q).plant = { q with outbox := [] } := by
  simp [State.passed]

/-- R182: a request that the queue admits is carried out at once. -/
theorem State.Admits.takesNow {s : State} {tag : Nat} (ha : s.Admits tag) : s.ctl.takesNow tag = true := by
  obtain ⟨h1, _, h3, h4, h5⟩ := ha
  simp [ControlLine.takesNow, ControlLine.full, ControlLine.mustWait, h4, h5]
  omega

/-- The receive side's bytes do not decide it. -/
@[simp] theorem ControlLine.takesNow_rx (k : ControlLine) (b : List Byte) (tag : Nat) :
    ControlLine.takesNow { k with rx := b } tag = k.takesNow tag := rfl

/-- R180 to R182: a request that the queue admits, answered at once: the state is the one `answered` describes. -/
theorem State.request_admitted {α : Type} (s : State) (c : Instr) (tag kind : Nat) (a : α) (h : α → State → Plant × Answer)
    (ha : s.Admits tag)
    (hp : (h a { s with ctl := { s.ctl with rx := [] } }).2.passPort = none) :
    s.request c tag kind (.sound a) h =
      s.answered tag kind (h a { s with ctl := { s.ctl with rx := [] } }).1 (h a { s with ctl := { s.ctl with rx := [] } }).2.status
        (h a { s with ctl := { s.ctl with rx := [] } }).2.content := by
  simp only [State.request, ControlLine.takesNow_rx, ha.takesNow, if_true, judged, State.conclude, hp, State.answered]

/-- The same for a handler that needs the plant alone. -/
theorem State.request_onPlant {α : Type} (s : State) (c : Instr) (tag kind : Nat) (a : α) (h : α → Plant → Plant × Answer)
    (ha : s.Admits tag) (hp : (h a s.plant).2.passPort = none) :
    s.request c tag kind (.sound a) (onPlant h) =
      s.answered tag kind (h a s.plant).1 (h a s.plant).2.status (h a s.plant).2.content :=
  s.request_admitted c tag kind a (onPlant h) ha hp

/-- R180: a request whose body has not the form of its kind. -/
theorem State.request_faulty {α : Type} (s : State) (c : Instr) (tag kind : Nat) (h : α → State → Plant × Answer)
    (ha : s.Admits tag) : s.request c tag kind .faulty h = s.answered tag kind s.plant .badArgument [] := by
  simp only [State.request, ControlLine.takesNow_rx, ha.takesNow, if_true, judged, State.conclude, refuse, State.answered]

/-- R180 to R182: a request that is not carried out at its arrival leaves all but the control line as it stands. -/
theorem State.request_late {α : Type} (s : State) (c : Instr) (tag kind : Nat) (body : Form α) (h : α → State → Plant × Answer)
    (hn : s.ctl.takesNow tag = false) :
    s.request c tag kind body h = { s with ctl := ControlLine.arrive { s.ctl with rx := [] } c } := by
  simp [State.request, hn]

/-- R181: a request that arrives while the queue holds 4. -/
theorem ControlLine.arrive_full (k : ControlLine) (c : Instr) (tag kind : Nat) (hc : c.request = some (tag, kind)) (ht : tag ≠ 0)
    (hl : 4 ≤ k.requests.length + k.waiting.length) : k.arrive c = k.answerBusy tag kind := by
  simp [ControlLine.arrive, hc, ht, ControlLine.full, hl]

/-- R182: a request that the queue has a place for waits in it for its turn. -/
theorem ControlLine.arrive_waits (k : ControlLine) (c : Instr) (tag kind : Nat) (hc : c.request = some (tag, kind))
    (ht : tag ≠ 0) (hl : k.requests.length + k.waiting.length < 4) : k.arrive c = { k with waiting := k.waiting ++ [c] } := by
  simp [ControlLine.arrive, hc, ht, ControlLine.full, Nat.not_le.mpr hl]

/-- A reply that joins the list leaves it only to be sent. -/
theorem ControlLine.kick_carries (k : ControlLine) (r : Reply) (h : r ∈ k.replies) : k.kick.Carries r := by
  rcases k.kick_cases with ⟨t, _, hk⟩ | ⟨_, hk⟩
  · rw [hk]; exact .inl h
  · rw [hk]
    rcases k.choose_cases with ⟨x, rest, _, e⟩ | ⟨x, rest, _, hr, e⟩ | ⟨x, rest, _, hr, _, e⟩ | ⟨_, hr, _, _⟩
    · rw [e]; exact .inl h
    · rw [e]
      rw [hr] at h
      rcases List.mem_cons.mp h with rfl | h
      · exact .inr rfl
      · exact .inl h
    · rw [hr] at h; cases h
    · rw [hr] at h; cases h

/-- R182, R184: an answered request's reply is on its way. -/
theorem State.answered_carries (s : State) (tag kind : Nat) (q : Plant) (u : Status) (b : List Byte) :
    (s.answered tag kind q u b).ctl.Carries
      { tag := tag, kind := replyKind kind, status := u, content := b, origin := .queued } := by
  simp only [State.answered, State.settle]
  apply ControlLine.kick_carries
  simp [ControlLine.addReply]

@[simp] theorem State.answered_requests (s : State) (tag kind : Nat) (q : Plant) (u : Status) (b : List Byte) :
    (s.answered tag kind q u b).ctl.requests = s.ctl.requests ++ [({ tag := tag, kind := kind } : QueuedRequest)] := by
  simp [State.answered]

@[simp] theorem State.answered_pending (s : State) (tag kind : Nat) (q : Plant) (u : Status) (b : List Byte) :
    (s.answered tag kind q u b).pending = s.pending := by
  simp [State.answered]

/-! ## The turn of a waiting request -/

/-- R182: with no request waiting, the interface's own time settles whether it is occupied, and nothing else. -/
theorem State.idle_none (run : Instr → State → Meaning) (s : State) (h : s.ctl.waiting = []) :
    s.idle run = .next { s with ctl := { s.ctl with occupied := Config.occupied s.ctl.free, free := s.ctl.free + 1 } } := by
  simp [State.idle, h]

/-- R182, R190: the oldest waiting request is carried out; those behind it wait on, but behind RESET PART. -/
theorem State.idle_some (run : Instr → State → Meaning) (s t : State) (c : Instr) (rest : List Instr)
    (h : s.ctl.waiting = c :: rest) (hr : run c { s with ctl := { s.ctl with waiting := [], occupied := false } } = .next t) :
    s.idle run = .next (if c.resets then t else { t with ctl := { t.ctl with waiting := rest, rx := s.ctl.rx } }) := by
  simp only [State.idle, h, hr]
  split <;> rfl

end Sys2Proof.Machine
end

