-- ==== Sys2Proof/Laws/Formats.lean ====
section
/-! SUPPORT. Each field written by chapter 10's coding is read back as it was (R192), and a frame's check byte brings its sum
to 0 (R196). -/

namespace Sys2Proof.Machine

theorem r8_u8 (n : Nat) (h : n < 256) (t : List Byte) : r8 (u8 n ++ t) = some (n, t) := by
  simp [r8, u8, Nat.mod_eq_of_lt h]

theorem r16_u16 (n : Nat) (h : n < 65536) (t : List Byte) : r16 (u16 n ++ t) = some (n, t) := by
  simp only [r16, u16, List.cons_append, List.nil_append, BitVec.toNat_ofNat, Option.some.injEq, Prod.mk.injEq, and_true]
  omega

theorem r24_u24raw (n : Nat) (h : n < 16777216) (t : List Byte) : r24 (u24raw n ++ t) = some (n, t) := by
  simp only [r24, u24raw, List.cons_append, List.nil_append, BitVec.toNat_ofNat, Option.some.injEq, Prod.mk.injEq, and_true]
  omega

theorem r24_u24 (n : Nat) (h : n < 16777216) (t : List Byte) : r24 (u24 n ++ t) = some (n, t) := by
  simp only [u24, h, if_true]
  exact r24_u24raw n h t

theorem r32_u32 (n : Nat) (h : n < 4294967296) (t : List Byte) : r32 (u32 n ++ t) = some (n, t) := by
  simp only [r32, u32, List.cons_append, List.nil_append, BitVec.toNat_ofNat, Option.some.injEq, Prod.mk.injEq, and_true]
  omega

theorem rTake_append (b t : List Byte) : rTake b.length (b ++ t) = some (b, t) := by
  simp [rTake]

theorem rStr_str (b t : List Byte) (h : b.length < 256) : rStr (str b ++ t) = some (b, t) := by
  simp only [rStr, str, List.append_assoc, r8_u8 _ h, Option.bind_some, rTake_append]

theorem rLabel_labelBytes (l : Label) (h : labelFits l = true) (t : List Byte) : rLabel (labelBytes l ++ t) = some (l, t) := by
  obtain ⟨a, b, c, d⟩ := l
  simp only [labelFits, fits8, Bool.and_eq_true, decide_eq_true_eq] at h
  obtain ⟨⟨⟨h1, h2⟩, h3⟩, h4⟩ := h
  simp [rLabel, labelBytes, u8, Nat.mod_eq_of_lt, h1, h2, h3, h4]

theorem rDayLabel_dayLabelBytes (d : DayLabel) (h : dayLabelFits d = true) (t : List Byte) :
    rDayLabel (dayLabelBytes d ++ t) = some (d, t) := by
  simp only [dayLabelFits, fits16, Bool.and_eq_true, decide_eq_true_eq] at h
  simp only [rDayLabel, dayLabelBytes, List.append_assoc, r16_u16 _ h.1, Option.bind_some, rLabel_labelBytes _ h.2,
    Option.map_some]

theorem rOpt_opt {α : Type} (r : Reader α) (f : α → List Byte) (o : Option α) (t : List Byte)
    (h : ∀ x ∈ o, r (f x ++ t) = some (x, t)) : rOpt r (opt f o ++ t) = some (o, t) := by
  cases o with
  | none => simp [rOpt, opt, u8]
  | some x =>
    have := h x rfl
    simp [rOpt, opt, u8, this]

/-! ## Lengths -/

@[simp] theorem length_u8 (n : Nat) : (u8 n).length = 1 := rfl
@[simp] theorem length_u16 (n : Nat) : (u16 n).length = 2 := rfl
@[simp] theorem length_u32 (n : Nat) : (u32 n).length = 4 := rfl
@[simp] theorem length_u24 (n : Nat) : (u24 n).length = 3 := by unfold u24; split <;> rfl
@[simp] theorem length_str (b : List Byte) : (str b).length = b.length + 1 := by simp [str, Nat.add_comm]
@[simp] theorem length_labelBytes (l : Label) : (labelBytes l).length = 4 := rfl
@[simp] theorem length_dayLabelBytes (d : DayLabel) : (dayLabelBytes d).length = 6 := rfl

/-! ## The check byte (R196) -/

theorem byteSum_foldl (b : List Byte) (x : Byte) : b.foldl (· + ·) x = x + byteSum b := by
  induction b generalizing x with
  | nil => simp [byteSum]
  | cons a b ih =>
    have h := ih (x + a)
    have h0 := ih (0 + a)
    simp only [byteSum, List.foldl_cons] at h h0 ⊢
    rw [h, h0]
    simp [BitVec.add_assoc]

theorem byteSum_append (a b : List Byte) : byteSum (a ++ b) = byteSum a + byteSum b := by
  have h := byteSum_foldl b (byteSum a)
  rw [← h]
  simp [byteSum]

@[simp] theorem byteSum_singleton (x : Byte) : byteSum [x] = x := by simp [byteSum]

end Sys2Proof.Machine
end

