-- ==== Sys2Proof/Laws/Ports.lean ====
section
/-! SUPPORT. What ends in a port's slots at its entry to DOWN or OFF (R102, R105), and that a join's flush leaves no command of its
channel there (R131, R108). -/

namespace Sys2Proof.Machine

/-- R108: with nothing in the Cue Sequencer's slot nothing ends there. -/
theorem Plant.timeoutSlotCue_empty (p : Plant) (i : PortNo) (h : (p.port i).slotCue = none) : p.timeoutSlotCue i = p := by
  simp [Plant.timeoutSlotCue, h]

/-- R102: what stands in the Cue Sequencer's slot leaves it with TIMEOUT. -/
theorem Plant.timeoutSlotCue_ends (p : Plant) (i : PortNo) {c : Chan} {s : StepEntry} (h : (p.port i).slotCue = some (c, s)) :
    p.timeoutSlotCue i = (p.modPort i fun x => { x with slotCue := none }).cueOutcome c s .timeout := by
  simp [Plant.timeoutSlotCue, h]

/-- R102: the same of the pass-through's slot. -/
theorem Plant.timeoutSlotPass_empty (p : Plant) (i : PortNo) (h : (p.port i).slotPass = none) : p.timeoutSlotPass i = p := by
  simp [Plant.timeoutSlotPass, h]

theorem Plant.timeoutSlotPass_ends (p : Plant) (i : PortNo) {cmd : DevCmd} (h : (p.port i).slotPass = some cmd) :
    p.timeoutSlotPass i = (p.modPort i fun x => { x with slotPass := none }).emit (.passOutcome i .timeout) := by
  simp [Plant.timeoutSlotPass, h]

/-- R108: marking an outstanding command leaves the slot as it stands. -/
@[simp] theorem Port.markOutstanding_slotCue (x : Port) (c : Chan) (f : StepEntry → StepEntry) :
    (x.markOutstanding c f).slotCue = x.slotCue := by
  unfold Port.markOutstanding
  split
  · split <;> rfl
  · rfl

/-- R108: all that a channel withdraws is in the slot no longer. -/
theorem Port.withdrawSlot_all (x : Port) (c : Chan) (s : StepEntry) : (x.withdrawSlot c fun _ => true).slotCue ≠ some (c, s) := by
  unfold Port.withdrawSlot
  split
  · next h => split <;> simp_all
  · next h => simp [h]

/-- R131: a flush leaves no command of the channel in any slot. -/
theorem Plant.flushCue_slot (p : Plant) (c : Chan) (i : PortNo) (s : StepEntry) : ((p.flushCue c).port i).slotCue ≠ some (c, s) := by
  rw [Plant.flushCue, Plant.withdrawCue, Plant.mapPorts, Plant.port_mapPorts, Port.markOutstanding_slotCue]
  exact Port.withdrawSlot_all _ c s

end Sys2Proof.Machine
end

