-- ==== Sys2Proof/Laws/Still.lean ====
section
/-! SUPPORT. What the work on channels and ports leaves alone: each such operation keeps the references, the templates, the
links, the heartbeat, the pulse memory, the main day and the probe line. -/

namespace Sys2Proof.Machine

/-- The plant with the channels, the ports, the spare queue, the hold, the free counter and the outbox blanked. -/
def Plant.rest (p : Plant) : Plant :=
  { p with chans := Plant.reset.chans, ports := Plant.reset.ports, spareQueue := [], hold := [], free := 0, outbox := [] }

/-- Two plants of one rest agree in all that `Still` lists. -/
theorem Plant.still_of_rest {p q : Plant} (h : q.rest = p.rest) : p.Still q where
  refA := (congrArg Plant.refA h : q.rest.refA = p.rest.refA)
  refB := (congrArg Plant.refB h : q.rest.refB = p.rest.refB)
  templates := (congrArg Plant.templates h : q.rest.templates = p.rest.templates)
  link0 := (congrArg Plant.link0 h : q.rest.link0 = p.rest.link0)
  link1 := (congrArg Plant.link1 h : q.rest.link1 = p.rest.link1)
  hbTimeout := (congrArg Plant.hbTimeout h : q.rest.hbTimeout = p.rest.hbTimeout)
  heartbeat := (congrArg Plant.heartbeat h : q.rest.heartbeat = p.rest.heartbeat)
  pulseMem := (congrArg Plant.pulseMem h : q.rest.pulseMem = p.rest.pulseMem)
  probeFlags := (congrArg Plant.probeFlags h : q.rest.probeFlags = p.rest.probeFlags)
  probeRx := (congrArg Plant.probeRx h : q.rest.probeRx = p.rest.probeRx)
  mainDay := (congrArg Plant.mainDay h : q.rest.mainDay = p.rest.mainDay)

theorem Plant.ref_of_rest {p q : Plant} (h : q.rest = p.rest) (r : RefId) : q.ref r = p.ref r := by
  cases r
  · exact (congrArg Plant.refA h : q.rest.refA = p.rest.refA)
  · exact (congrArg Plant.refB h : q.rest.refB = p.rest.refB)

theorem Plant.foldl_rest {α : Type} (f : Plant → α → Plant) (h : ∀ q a, (f q a).rest = q.rest) (l : List α) (p : Plant) :
    (l.foldl f p).rest = p.rest := by
  induction l generalizing p with
  | nil => rfl
  | cons a l ih => rw [List.foldl_cons, ih, h]

/-! ## The parts of the plant -/

@[simp] theorem Plant.setChan_rest (p : Plant) (c : Chan) (x : Channel) : (p.setChan c x).rest = p.rest := rfl
@[simp] theorem Plant.modChan_rest (p : Plant) (c : Chan) (f : Channel → Channel) : (p.modChan c f).rest = p.rest := rfl
@[simp] theorem Plant.setPort_rest (p : Plant) (i : PortNo) (x : Port) : (p.setPort i x).rest = p.rest := rfl
@[simp] theorem Plant.modPort_rest (p : Plant) (i : PortNo) (f : Port → Port) : (p.modPort i f).rest = p.rest := rfl
@[simp] theorem Plant.emit_rest (p : Plant) (o : Outgoing) : (p.emit o).rest = p.rest := rfl
@[simp] theorem Plant.notify_rest (p : Plant) (k : NoticeKind) (c : Option Chan) (b : List Byte) : (p.notify k c b).rest = p.rest := rfl
@[simp] theorem Plant.sendBack_rest (p : Plant) (r : BackRec) : (p.sendBack r).rest = p.rest := rfl
@[simp] theorem Plant.tickFree_rest (p : Plant) : p.tickFree.rest = p.rest := rfl
@[simp] theorem Plant.modEvent_rest (p : Plant) (c : Chan) (id : Nat) (f : Event → Event) : (p.modEvent c id f).rest = p.rest := rfl

/-! ## Resolution -/

@[simp] theorem Plant.resolve_rest (p : Plant) (c : Chan) : (p.resolve c).rest = p.rest := rfl

/-! ## Playlist -/

@[simp] theorem Plant.mapPorts_rest (p : Plant) (f : Port → Port) : (p.mapPorts f).rest = p.rest := rfl

@[simp] theorem Plant.withdrawCue_rest (p : Plant) (c : Chan) (which : StepEntry → Bool) : (p.withdrawCue c which).rest = p.rest := rfl

@[simp] theorem Plant.eventRemoved_rest (p : Plant) (c : Chan) (id : Nat) : (p.eventRemoved c id).rest = p.rest := rfl

@[simp] theorem Plant.emptied_rest (p : Plant) (c : Chan) : (p.emptied c).rest = p.rest := rfl

@[simp] theorem Plant.cueEffect_rest (p : Plant) (c : Chan) (old : List Event) (z : PlOp) : (p.cueEffect c old z).rest = p.rest := by
  unfold Plant.cueEffect
  repeat' split
  all_goals simp

theorem Plant.plRun_rest (p : Plant) (c : Chan) (o : PlOp) {q : Plant} {r : PlDone} (h : p.plRun c o = .ok (q, r)) :
    q.rest = p.rest := by
  simp only [Plant.plRun] at h
  split at h
  · cases h
  · cases h; simp

theorem Plant.plOne_rest (p : Plant) (c : Chan) (o : PlOp) {q : Plant} {r : PlDone} (h : p.plOne c o = .ok (q, r)) :
    q.rest = p.rest := by
  simp only [Plant.plOne] at h
  split at h
  · cases h
  · next he => cases h; rw [Plant.resolve_rest, p.plRun_rest c o he]

@[simp] theorem Plant.plRunAll_rest (p : Plant) (c : Chan) (z : List PlOp) : (p.plRunAll c z).rest = p.rest := by
  induction z generalizing p with
  | nil => rfl
  | cons o os ih =>
    simp only [Plant.plRunAll]
    split
    · exact ih p
    · next he => rw [ih, p.plRun_rest c o he]

theorem Plant.plList_rest (p : Plant) (c : Chan) (os : List PlOp) {q : Plant} (h : p.plList c os = .ok q) : q.rest = p.rest := by
  simp only [Plant.plList] at h
  split at h
  · cases h
  · cases h; simp

@[simp] theorem Plant.emptyPlaylist_rest (p : Plant) (c : Chan) : (p.emptyPlaylist c).rest = p.rest := rfl

/-! ## AsRun -/

@[simp] theorem Plant.appendEntry_rest (p : Plant) (item : AsRunItem) : (p.appendEntry item).rest = p.rest := rfl

@[simp] theorem Plant.closeEntry_rest (p : Plant) (c : Chan) (exit : ExitKind) (finish : Nat) :
    (p.closeEntry c exit finish).rest = p.rest := by
  unfold Plant.closeEntry
  split <;> rfl

@[simp] theorem Plant.openEntryFor_rest (p : Plant) (c : Chan) (event start : Nat) (kind : EntryKind) (port : Option PortNo) :
    (p.openEntryFor c event start kind port).rest = p.rest := by
  unfold Plant.openEntryFor
  split <;> simp

@[simp] theorem Plant.joinEntry_rest (p : Plant) (c : Chan) (event t : Nat) (kind : EntryKind) (port : Option PortNo) :
    (p.joinEntry c event t kind port).rest = p.rest := by
  unfold Plant.joinEntry
  repeat' split
  all_goals simp

@[simp] theorem Plant.notAired_rest (p : Plant) (c : Chan) (e : Event) : (p.notAired c e).rest = p.rest := rfl

@[simp] theorem Plant.airingEntry_rest (p : Plant) (c : Chan) (halted : Bool) (e : Event) :
    (p.airingEntry c halted e).rest = p.rest := by
  simp only [Plant.airingEntry]
  repeat' split
  all_goals simp

@[simp] theorem Plant.doneEntry_rest (p : Plant) (c : Chan) (stepped : Bool) (e : Event) : (p.doneEntry c stepped e).rest = p.rest := by
  unfold Plant.doneEntry
  repeat' split
  all_goals simp

/-! ## Cue -/

@[simp] theorem Plant.renewIssuing_rest (p : Plant) (c : Chan) : (p.renewIssuing c).rest = p.rest := rfl

@[simp] theorem Plant.enqueueDue_rest (p : Plant) (c : Chan) : (p.enqueueDue c).rest = p.rest := rfl

@[simp] theorem Plant.taken_rest (p : Plant) (c : Chan) (s : StepEntry) : (p.taken c s).rest = p.rest := by
  unfold Plant.taken
  split <;> rfl

@[simp] theorem Plant.tellHalted_rest (p : Plant) (c : Chan) (z : Option HaltCause) : (p.tellHalted c z).rest = p.rest := by
  unfold Plant.tellHalted
  split <;> rfl

@[simp] theorem Plant.tellCueFault_rest (p : Plant) (c : Chan) (s : StepEntry) (r : CueReason) (action : Option Mismatch) :
    (p.tellCueFault c s r action).rest = p.rest := rfl

@[simp] theorem Plant.tellEmpty_rest (p : Plant) (c : Chan) (event : Nat) : (p.tellEmpty c event).rest = p.rest := rfl

@[simp] theorem Plant.tellCueLate_rest (p : Plant) (c : Chan) (s : StepEntry) : (p.tellCueLate c s).rest = p.rest := rfl

@[simp] theorem Plant.withdrawSlots_rest (p : Plant) (c : Chan) : (p.withdrawSlots c).rest = p.rest := rfl

@[simp] theorem Plant.haltSequence_rest (p : Plant) (c : Chan) (cause : HaltCause) : (p.haltSequence c cause).rest = p.rest := by
  unfold Plant.haltSequence
  split <;> simp

@[simp] theorem Plant.clearHalt_rest (p : Plant) (c : Chan) : (p.clearHalt c).rest = p.rest := by
  unfold Plant.clearHalt
  split <;> rfl

@[simp] theorem Plant.decideSwitch_rest (p : Plant) (c : Chan) (pos : SwitchPos) (frame : Nat) (cause : SwitchCause) (act : SwAct) :
    (p.decideSwitch c pos frame cause act).rest = p.rest := rfl

@[simp] theorem Plant.writeLast_rest (p : Plant) (c : Chan) (o : DevOutcome) : (p.writeLast c o).rest = p.rest := by
  unfold Plant.writeLast
  split <;> rfl

@[simp] theorem Plant.dropRepetitions_rest (p : Plant) (c : Chan) (s : StepEntry) : (p.dropRepetitions c s).rest = p.rest := by
  unfold Plant.dropRepetitions
  split <;> rfl

@[simp] theorem Plant.skipEvent_rest (p : Plant) (c : Chan) (s : StepEntry) : (p.skipEvent c s).rest = p.rest := by
  simp only [Plant.skipEvent]
  repeat' split
  all_goals simp

@[simp] theorem Plant.mismatchAction_rest (p : Plant) (c : Chan) (s : StepEntry) (z : Mismatch) :
    (p.mismatchAction c s z).rest = p.rest := by
  unfold Plant.mismatchAction
  split <;> simp

@[simp] theorem Plant.cueOutcome_rest (p : Plant) (c : Chan) (s : StepEntry) (o : DevOutcome) : (p.cueOutcome c s o).rest = p.rest := by
  unfold Plant.cueOutcome
  repeat' split
  all_goals simp

@[simp] theorem Plant.takeHeadsN_rest (n : Nat) (c : Chan) (p : Plant) : (Plant.takeHeadsN n c p).rest = p.rest := by
  induction n generalizing p with
  | zero => rfl
  | succ n ih =>
    simp only [Plant.takeHeadsN]
    repeat' split
    all_goals simp [ih]

@[simp] theorem Plant.takeHeads_rest (p : Plant) (c : Chan) : (p.takeHeads c).rest = p.rest := by simp [Plant.takeHeads]

@[simp] theorem Plant.sequence_rest (p : Plant) (c : Chan) : (p.sequence c).rest = p.rest := by
  unfold Plant.sequence
  split <;> simp

@[simp] theorem Plant.setCue_rest (p : Plant) (c : Chan) (id : Nat) (s : CueState) : (p.setCue c id s).rest = p.rest := rfl

@[simp] theorem Plant.finishIfEnded_rest (p : Plant) (c : Chan) (stepped : Bool) (id : Nat) :
    (p.finishIfEnded c stepped id).rest = p.rest := by
  unfold Plant.finishIfEnded
  repeat' split
  all_goals simp

@[simp] theorem Plant.tellIfEmpty_rest (p : Plant) (c : Chan) (e : Event) : (p.tellIfEmpty c e).rest = p.rest := by
  unfold Plant.tellIfEmpty
  split <;> rfl

@[simp] theorem Plant.moveCue_rest (p : Plant) (c : Chan) (stepped : Bool) (id : Nat) : (p.moveCue c stepped id).rest = p.rest := by
  simp only [Plant.moveCue]
  repeat' split
  all_goals simp

@[simp] theorem Plant.moveCues_rest (p : Plant) (c : Chan) (stepped : Bool) : (p.moveCues c stepped).rest = p.rest := by
  simp only [Plant.moveCues, Plant.modChan_rest]
  exact Plant.foldl_rest _ (fun q id => q.moveCue_rest c stepped id) _ _

@[simp] theorem Plant.flushCue_rest (p : Plant) (c : Chan) : (p.flushCue c).rest = p.rest := rfl

@[simp] theorem Plant.cursorTo_rest (p : Plant) (c : Chan) (target : Option Nat) : (p.cursorTo c target).rest = p.rest := rfl

@[simp] theorem Plant.cueJoin_rest (p : Plant) (c : Chan) (event offset t : Nat) : (p.cueJoin c event offset t).rest = p.rest := rfl

@[simp] theorem Plant.cueBridge_rest (p : Plant) (c : Chan) (t : Nat) : (p.cueBridge c t).rest = p.rest := rfl

@[simp] theorem Plant.cueAdopt_rest (p : Plant) (c : Chan) (event : Nat) : (p.cueAdopt c event).rest = p.rest := rfl

@[simp] theorem Plant.retireEntries_rest (p : Plant) (c : Chan) (id : Nat) : (p.retireEntries c id).rest = p.rest := rfl

@[simp] theorem Plant.retireOne_rest (p : Plant) (c : Chan) (e : Event) : (p.retireOne c e).rest = p.rest := by
  unfold Plant.retireOne
  split <;> rfl

@[simp] theorem Plant.retire_rest (p : Plant) (c : Chan) : (p.retire c).rest = p.rest := by
  simp only [Plant.retire]
  split
  · rfl
  · simp only [Plant.modChan_rest]
    exact Plant.foldl_rest _ (fun q e => q.retireOne_rest c e) _ _

/-! ## Arbiter -/

@[simp] theorem Plant.arbitrate_rest (p : Plant) (i : PortNo) : (p.arbitrate i).rest = p.rest := by
  simp only [Plant.arbitrate]
  repeat' split
  all_goals simp

@[simp] theorem Plant.ports_rest (p : Plant) (v : Vector Port 20) : ({ p with ports := v } : Plant).rest = p.rest := rfl

/-- A port's users are the channels out of IDLE that have it as port in use. -/
@[simp] theorem Plant.mem_usersOf (p : Plant) (i : PortNo) (c : Chan) :
    c ∈ p.usersOf i ↔ (p.chan c).portInUse = some i ∧ (p.chan c).mode ≠ .idle := by
  simp [Plant.usersOf, allChans]

/-- R123: where no channel works with a port, no Cue Sequencer takes a head for it. -/
theorem Plant.userTakes_none (p : Plant) (i : PortNo) (h : ∀ c, (p.chan c).portInUse = some i → (p.chan c).mode = .idle) :
    p.userTakes i = p := by
  have w : p.usersOf i = [] := List.eq_nil_iff_forall_not_mem.mpr fun c m => ((p.mem_usersOf i c).mp m).2 (h c ((p.mem_usersOf i c).mp m).1)
  rw [Plant.userTakes, w, List.foldl_nil]

@[simp] theorem Plant.userTakes_rest (p : Plant) (i : PortNo) : (p.userTakes i).rest = p.rest := by
  exact Plant.foldl_rest _ (fun q c => q.takeHeads_rest c) _ _

@[simp] theorem Plant.settlePort_rest (p : Plant) (i : PortNo) : (p.settlePort i).rest = p.rest := by simp [Plant.settlePort]

@[simp] theorem Plant.wakeCue_rest (p : Plant) (c : Chan) : (p.wakeCue c).rest = p.rest := by
  unfold Plant.wakeCue
  split <;> simp

/-- R123: a change that leaves no due head, or uncovers nothing, wakes nobody. -/
theorem Plant.wakeAfter_quiet (p q : Plant) (c : Chan) (h : (q.chan c).headDue = false ∨ p.uncovers q c = false) :
    p.wakeAfter q c = q := by
  rcases h with h | h <;> simp [Plant.wakeAfter, h]

/-- R123: a channel that NoneDue names has no due head (a head is one of its queue's entries). -/
theorem Plant.headDue_of_noneDue {p : Plant} {c : Chan} (h : p.NoneDue c) : (p.chan c).headDue = false := by
  rcases h with h | h
  · simp [Channel.headDue, h]
  · rcases e : (p.chan c).seq.queue with _ | ⟨k, _⟩
    · simp [Channel.headDue, e]
    · have l := h k (by simp [e])
      simp [Channel.headDue, e, Nat.not_le.mpr l]

@[simp] theorem Plant.wakeAfter_rest (p q : Plant) (c : Chan) : (p.wakeAfter q c).rest = q.rest := by
  unfold Plant.wakeAfter
  split <;> simp

theorem Plant.edit_rest (p : Plant) (c : Chan) (o : PlOp) {q : Plant} {r : PlDone} (h : p.edit c o = .ok (q, r)) :
    q.rest = p.rest := by
  simp only [Plant.edit] at h
  split at h
  · cases h
  · next he => cases h; rw [Plant.wakeAfter_rest, p.plOne_rest c o he]

theorem Plant.editList_rest (p : Plant) (c : Chan) (os : List PlOp) {q : Plant} (h : p.editList c os = .ok q) : q.rest = p.rest := by
  simp only [Plant.editList] at h
  split at h
  · cases h
  · next he => cases h; rw [Plant.wakeAfter_rest, p.plList_rest c os he]

@[simp] theorem Plant.handList_rest (p : Plant) (i : PortNo) (l : CmdList) : (p.handList i l).rest = p.rest := by simp [Plant.handList]

@[simp] theorem Plant.handStop_rest (p : Plant) (c : Chan) (i : PortNo) (notBefore : Option Nat) :
    (p.handStop c i notBefore).rest = p.rest := by simp [Plant.handStop, apply_ite Plant.rest]

@[simp] theorem Plant.withdrawJoin_rest (p : Plant) (c : Chan) (i : PortNo) :
    (p.withdrawJoin c i).rest = p.rest := by simp [Plant.withdrawJoin]

@[simp] theorem Plant.disown_rest (p : Plant) (c : Chan) (i : PortNo) : (p.disown c i).rest = p.rest := by simp [Plant.disown]

@[simp] theorem Plant.lend_rest (p : Plant) (c : Chan) (i : PortNo) : (p.lend c i).rest = p.rest := rfl

@[simp] theorem Plant.leaveQueue_rest (p : Plant) (c : Chan) : (p.leaveQueue c).rest = p.rest := rfl

@[simp] theorem Plant.tellPort_rest (p : Plant) (i : PortNo) (before : PortState) (cause : PortCause) :
    (p.tellPort i before cause).rest = p.rest := rfl

/-! ## Replication -/

@[simp] theorem Plant.tellReplica_rest (p : Plant) (c : Chan) (before : ReplicaState) (r : ReplicaReason) (refused : Option (Status × Nat)) :
    (p.tellReplica c before r refused).rest = p.rest := rfl

@[simp] theorem Plant.modReplica_rest (p : Plant) (c : Chan) (f : Replica → Replica) : (p.modReplica c f).rest = p.rest := rfl

@[simp] theorem Plant.discard_rest (p : Plant) (c : Chan) (which : HoldEntry → Bool) : (p.discard c which).rest = p.rest := rfl

@[simp] theorem Plant.goStale_rest (p : Plant) (c : Chan) (r : ReplicaReason) (refused : Option (Status × Nat)) :
    (p.goStale c r refused).rest = p.rest := by simp [Plant.goStale, apply_ite Plant.rest]

@[simp] theorem Plant.clearReplica_rest (p : Plant) (c : Chan) : (p.clearReplica c).rest = p.rest := rfl

@[simp] theorem Plant.awaitBase_rest (p : Plant) (c : Chan) : (p.awaitBase c).rest = p.rest := rfl

@[simp] theorem Plant.addHold_rest (p : Plant) (h : HoldEntry) : (p.addHold h).rest = p.rest := rfl

@[simp] theorem Plant.stage_rest (p : Plant) (c : Chan) (seq : Nat) (r : Rec) (b : Batch) : (p.stage c seq r b).rest = p.rest := by
  unfold Plant.stage
  repeat' split
  all_goals simp

@[simp] theorem Plant.defer_rest (p : Plant) (c : Chan) (seq : Nat) (r : Rec) : (p.defer c seq r).rest = p.rest := by
  unfold Plant.defer
  repeat' split
  all_goals simp

@[simp] theorem Plant.applyRecord_rest (p : Plant) (c : Chan) (seq : Nat) (r : Rec) : (p.applyRecord c seq r).rest = p.rest := by
  simp only [Plant.applyRecord]
  split
  · next h => exact p.edit_rest c _ h
  · simp

@[simp] theorem Plant.openBatch_rest (p : Plant) (c : Chan) (seq n : Nat) : (p.openBatch c seq n).rest = p.rest := by
  unfold Plant.openBatch
  split <;> simp

@[simp] theorem Plant.deferBatch_rest (p : Plant) (c : Chan) : (p.deferBatch c).rest = p.rest := by
  unfold Plant.deferBatch
  repeat' split
  all_goals first | rfl | simp

@[simp] theorem Plant.applyBatch_rest (p : Plant) (c : Chan) : (p.applyBatch c).rest = p.rest := by
  simp only [Plant.applyBatch]
  split
  · next h => rw [Plant.editList_rest _ c _ h]; simp
  · simp

@[simp] theorem Plant.closeBatch_rest (p : Plant) (c : Chan) : (p.closeBatch c).rest = p.rest := by
  unfold Plant.closeBatch
  repeat' split
  all_goals simp

@[simp] theorem Plant.handleRecord_rest (p : Plant) (c : Chan) (seq : Nat) (r : Rec) : (p.handleRecord c seq r).rest = p.rest := by
  unfold Plant.handleRecord
  repeat' split
  all_goals simp

@[simp] theorem Plant.advanceNext_rest (p : Plant) (c : Chan) : (p.advanceNext c).rest = p.rest := rfl

@[simp] theorem Plant.drain_rest (n : Nat) (c : Chan) (p : Plant) : (Plant.drain n c p).rest = p.rest := by
  induction n generalizing p with
  | zero => rfl
  | succ n ih =>
    simp only [Plant.drain]
    repeat' split
    all_goals simp [ih]

@[simp] theorem Plant.afterDrain_rest (p : Plant) (c : Chan) : (p.afterDrain c).rest = p.rest := by
  unfold Plant.afterDrain
  repeat' split
  all_goals simp

@[simp] theorem Plant.inOrder_rest (p : Plant) (c : Chan) (seq : Nat) (r : Rec) : (p.inOrder c seq r).rest = p.rest := by
  simp [Plant.inOrder]

@[simp] theorem Plant.holdEarly_rest (p : Plant) (c : Chan) (seq : Nat) (r : Rec) : (p.holdEarly c seq r).rest = p.rest := by
  unfold Plant.holdEarly
  repeat' split
  all_goals simp

@[simp] theorem Plant.takeBase_rest (p : Plant) (c : Chan) (seq : Nat) :
    (p.takeBase c seq).rest = p.rest := by simp [Plant.takeBase, apply_ite Plant.rest]

@[simp] theorem Plant.classify_rest (p : Plant) (c : Chan) (seq : Nat) (r : Rec) : (p.classify c seq r).rest = p.rest := by
  simp only [Plant.classify]
  repeat' split
  all_goals simp

theorem Plant.applyGroup_rest (p : Plant) (c : Chan) (g : List HoldEntry) {q : Plant} (h : p.applyGroup c g = .ok q) :
    q.rest = p.rest := by
  unfold Plant.applyGroup at h
  split at h
  · split at h
    · split at h
      · next he => cases h; exact p.edit_rest c _ he
      · cases h
    · exact p.editList_rest c _ h
  · exact p.editList_rest c _ h

@[simp] theorem Plant.applyDeferredN_rest (n : Nat) (c : Chan) (l : List HoldEntry) (p : Plant) :
    (Plant.applyDeferredN n c l p).rest = p.rest := by
  induction n generalizing p l with
  | zero => rfl
  | succ n ih =>
    cases l with
    | nil => rfl
    | cons x t =>
      simp only [Plant.applyDeferredN]
      split
      · next h => rw [ih, Plant.applyGroup_rest _ c _ h]
      · simp

@[simp] theorem Plant.applyDeferred_rest (p : Plant) (c : Chan) : (p.applyDeferred c).rest = p.rest := by
  simp [Plant.applyDeferred]

/-! ## Watch -/

@[simp] theorem Plant.tellHealth_rest (p : Plant) (c : Chan) (before : Health) : (p.tellHealth c before).rest = p.rest := rfl

@[simp] theorem Plant.evaluateWatch_rest (p : Plant) (c : Chan) : (p.evaluateWatch c).rest = p.rest := by
  simp only [Plant.evaluateWatch]
  repeat' split
  all_goals simp

@[simp] theorem Plant.comparePulse_rest (p : Plant) (c : Chan) (id : Option Nat) : (p.comparePulse c id).rest = p.rest := by
  simp only [Plant.comparePulse]
  repeat' split
  all_goals simp

/-! ## Changeover -/

@[simp] theorem Plant.setMode_rest (p : Plant) (c : Chan) (m : Mode) : (p.setMode c m).rest = p.rest := rfl

@[simp] theorem Plant.usePort_rest (p : Plant) (c : Chan) (i : Option PortNo) : (p.usePort c i).rest = p.rest := rfl

@[simp] theorem Plant.modTake_rest (p : Plant) (c : Chan) (f : TakeRec → TakeRec) : (p.modTake c f).rest = p.rest := rfl

@[simp] theorem Plant.cancelJoinSwitch_rest (p : Plant) (c : Chan) : (p.cancelJoinSwitch c).rest = p.rest := rfl

@[simp] theorem Plant.noteCover_rest (p : Plant) (c : Chan) : (p.noteCover c).rest = p.rest := rfl

@[simp] theorem Plant.setSwitch_rest (p : Plant) (c : Chan) (pos : SwitchPos) (cause : SwitchCause) :
    (p.setSwitch c pos cause).rest = p.rest := by simp [Plant.setSwitch, apply_ite Plant.rest]

@[simp] theorem Plant.keepBridge_rest (p : Plant) (c : Chan) : (p.keepBridge c).rest = p.rest := by
  simp [Plant.keepBridge, apply_ite Plant.rest]

@[simp] theorem Plant.bridgeAt_rest (p : Plant) (c : Chan) (t : Nat) (r : BridgeReason) : (p.bridgeAt c t r).rest = p.rest := rfl

@[simp] theorem Plant.joinOn_rest (p : Plant) (c : Chan) (i : PortNo) (now0 t : Nat) (e : Event) :
    (p.joinOn c i now0 t e).rest = p.rest := by simp [Plant.joinOn]

@[simp] theorem Plant.coldJoin_rest (p : Plant) (c : Chan) (i : PortNo) (now0 : Nat) (stage : Stage) :
    (p.coldJoin c i now0 stage).rest = p.rest := by
  simp only [Plant.coldJoin]
  repeat' split
  all_goals simp

@[simp] theorem Plant.startLocalRec_rest (p : Plant) (c : Chan) : (p.startLocalRec c).rest = p.rest := rfl

@[simp] theorem Plant.localJoinOn_rest (p : Plant) (c : Chan) (i : PortNo) :
    (p.localJoinOn c i).rest = p.rest := by simp [Plant.localJoinOn]

@[simp] theorem Plant.spareGranted_rest (p : Plant) (c : Chan) (i : PortNo) : (p.spareGranted c i).rest = p.rest := by
  unfold Plant.spareGranted
  split <;> simp

@[simp] theorem Plant.spareFreed_rest (p : Plant) (i : PortNo) : (p.spareFreed i).rest = p.rest := by
  simp only [Plant.spareFreed]
  repeat' split
  all_goals simp

@[simp] theorem Plant.releaseSpare_rest (p : Plant) (c : Chan) : (p.releaseSpare c).rest = p.rest := by
  unfold Plant.releaseSpare
  split <;> simp

@[simp] theorem Plant.backToPrimary_rest (p : Plant) (c : Chan) : (p.backToPrimary c).rest = p.rest := rfl

@[simp] theorem Plant.tellFailed_rest (p : Plant) (c : Chan) (k : NoticeKind) (kind : TakeKind) (r : FailReason) (i : PortNo) :
    (p.tellFailed c k kind r i).rest = p.rest := rfl

@[simp] theorem Plant.tryPrimary_rest (p : Plant) (c : Chan) : (p.tryPrimary c).rest = p.rest := by
  unfold Plant.tryPrimary
  repeat' split
  all_goals simp

@[simp] theorem Plant.failRecord_rest (p : Plant) (c : Chan) (r : FailReason) : (p.failRecord c r).rest = p.rest := rfl

@[simp] theorem Plant.leaveServer_rest (p : Plant) (c : Chan) : (p.leaveServer c).rest = p.rest := rfl

@[simp] theorem Plant.noFurtherPort_rest (p : Plant) (c : Chan) (i : PortNo) (r : FailReason) (t : Nat) (drop : Bool) :
    (p.noFurtherPort c i r t drop).rest = p.rest := by simp [Plant.noFurtherPort, apply_ite Plant.rest]

@[simp] theorem Plant.failedAfterSwitch_rest (p : Plant) (c : Chan) (i : PortNo) (r : FailReason) :
    (p.failedAfterSwitch c i r).rest = p.rest := rfl

@[simp] theorem Plant.requestSpare_rest (p : Plant) (c : Chan) : (p.requestSpare c).1.rest = p.rest := by
  unfold Plant.requestSpare
  repeat' split
  all_goals rfl

theorem Plant.requestSpare_rest_of (p : Plant) (c : Chan) {q : Plant} {o : Option PortNo} (h : p.requestSpare c = (q, o)) :
    q.rest = p.rest := by
  have := p.requestSpare_rest c
  rw [h] at this
  exact this

@[simp] theorem Plant.askSpare_rest (p : Plant) (c : Chan) (i : PortNo) (r : FailReason) (t : Nat) (after : Bool) :
    (p.askSpare c i r t after).rest = p.rest := by
  simp only [Plant.askSpare]
  split
  · next h => split <;> split <;> simp [p.requestSpare_rest_of c h]
  · next h => simp [p.requestSpare_rest_of c h]

@[simp] theorem Plant.turnToSpare_rest (p : Plant) (c : Chan) (i : PortNo) :
    (p.turnToSpare c i).rest = p.rest := by simp [Plant.turnToSpare]

@[simp] theorem Plant.joinFail_rest (p : Plant) (c : Chan) (i : PortNo) (r : FailReason) :
    (p.joinFail c i r).rest = p.rest := by simp [Plant.joinFail, apply_ite Plant.rest]

theorem Plant.spareAnew_rest_of (p : Plant) (c : Chan) {q : Plant} {o : Option PortNo} (h : p.spareAnew c = (q, o)) :
    q.rest = p.rest := by
  unfold Plant.spareAnew at h
  split at h
  · cases h; rfl
  · exact p.requestSpare_rest_of c h

@[simp] theorem Plant.portLost_rest (p : Plant) (c : Chan) (i : PortNo) : (p.portLost c i).rest = p.rest := by
  simp only [Plant.portLost]
  split
  · next h =>
    have h := Plant.spareAnew_rest_of _ c h
    simp only [Plant.localJoinOn_rest, Plant.tellFailed_rest, Plant.usePort_rest, h]
    repeat' split
    all_goals simp
  · next h =>
    have h := Plant.spareAnew_rest_of _ c h
    simp only [Plant.wakeCue_rest, Plant.tryPrimary_rest, Plant.tellFailed_rest, Plant.usePort_rest, h]
    repeat' split
    all_goals simp

@[simp] theorem Plant.spareLost_rest (p : Plant) (c : Chan) (i : PortNo) :
    (p.spareLost c i).rest = p.rest := by simp [Plant.spareLost]

@[simp] theorem Plant.localJoin_rest (p : Plant) (c : Chan) (i : PortNo) :
    (p.localJoin c i).rest = p.rest := by simp [Plant.localJoin, apply_ite Plant.rest]

@[simp] theorem Plant.takePath_rest (p : Plant) (c : Chan) : (p.takePath c).rest = p.rest := by
  unfold Plant.takePath
  repeat' split
  all_goals simp

@[simp] theorem Plant.beginTake_rest (p : Plant) (c : Chan) (kind : TakeKind) (o : TakeOption) :
    (p.beginTake c kind o).rest = p.rest := by simp [Plant.beginTake, apply_ite Plant.rest]

@[simp] theorem Plant.verifyOutcome_rest (p : Plant) (c : Chan) (i : PortNo) (o : DevOutcome) : (p.verifyOutcome c i o).rest = p.rest := by
  simp only [Plant.verifyOutcome]
  repeat' split
  all_goals simp

@[simp] theorem Plant.pointDone_rest (p : Plant) (c : Chan) (i : PortNo) : (p.pointDone c i).rest = p.rest := by
  simp only [Plant.pointDone]
  repeat' split
  all_goals simp

@[simp] theorem Plant.listOutcome_rest (p : Plant) (c : Chan) (i : PortNo) (purpose : Purpose) (live : Bool) (cmd : DevCmd) (o : DevOutcome) :
    (p.listOutcome c i purpose live cmd o).rest = p.rest := by
  simp only [Plant.listOutcome]
  repeat' split
  all_goals simp

@[simp] theorem Plant.withhold_rest (p : Plant) (c : Chan) (r : WithholdReason) : (p.withhold c r).rest = p.rest := rfl

@[simp] theorem Plant.beginConfirm_rest (p : Plant) (c : Chan) (demoted : Bool) : (p.beginConfirm c demoted).rest = p.rest := rfl

@[simp] theorem Plant.leaveConfirm_rest (p : Plant) (c : Chan) (r : WithholdReason) : (p.leaveConfirm c r).rest = p.rest := rfl

@[simp] theorem Plant.expireConfirm_rest (p : Plant) (c : Chan) : (p.expireConfirm c).rest = p.rest := by
  unfold Plant.expireConfirm
  repeat' split
  all_goals simp

@[simp] theorem Plant.trigger_rest (p : Plant) (c : Chan) : (p.trigger c).rest = p.rest := by
  unfold Plant.trigger
  repeat' split
  all_goals simp

@[simp] theorem Plant.tellResume_rest (p : Plant) (c : Chan) (r : ReturnRec) (cancel : Bool) :
    (p.tellResume c r cancel).rest = p.rest := rfl

@[simp] theorem Plant.logAtReturn_rest (p : Plant) (c : Chan) (tRet : Nat) : (p.logAtReturn c tRet).rest = p.rest := by
  unfold Plant.logAtReturn
  repeat' split
  all_goals simp

@[simp] theorem Plant.cancelReturn_rest (p : Plant) (c : Chan) (why : CancelReason) : (p.cancelReturn c why).rest = p.rest := by
  simp only [Plant.cancelReturn]
  repeat' split
  all_goals simp

@[simp] theorem Plant.healthReport_rest (p : Plant) (c : Chan) (before after : Health) : (p.healthReport c before after).rest = p.rest := by
  unfold Plant.healthReport
  repeat' split
  all_goals simp

/-! ## LocalRunning -/

@[simp] theorem Plant.cutOnFiller_rest (p : Plant) (c : Chan) (before : SwitchPos) :
    (p.cutOnFiller c before).rest = p.rest := by
  simp only [Plant.cutOnFiller]
  repeat' split
  all_goals simp

@[simp] theorem Plant.toFiller_rest (p : Plant) (c : Chan) (cause : SwitchCause) :
    (p.toFiller c cause).rest = p.rest := by simp [Plant.toFiller]

@[simp] theorem Plant.enterLocal_rest (p : Plant) (c : Chan) : (p.enterLocal c).rest = p.rest := by
  unfold Plant.enterLocal
  split <;> rfl

@[simp] theorem Plant.tellDone_rest (p : Plant) (c : Chan) (k : TakeRec) (j : JoinRec) (kind : EntryKind) :
    (p.tellDone c k j kind).rest = p.rest := rfl

@[simp] theorem Plant.tellBridge_rest (p : Plant) (c : Chan) (k : TakeRec) (r : BridgeReason) (t : Nat) :
    (p.tellBridge c k r t).rest = p.rest := rfl

@[simp] theorem Plant.endOnBridge_rest (p : Plant) (c : Chan) (t : Nat) (r : BridgeReason) : (p.endOnBridge c t r).rest = p.rest := by
  simp only [Plant.endOnBridge]
  repeat' split
  all_goals simp

@[simp] theorem Plant.joinLine_rest (p : Plant) (c : Chan) : (p.joinLine c).rest = p.rest := by
  simp only [Plant.joinLine]
  split
  · rfl
  · split
    · rfl
    · split
      · simp
      · rw [Plant.endOnBridge_rest, Plant.cueBridge_rest]; split <;> simp

@[simp] theorem Plant.failLine_rest (p : Plant) (c : Chan) (i : PortNo) (r : FailReason) : (p.failLine c i r).rest = p.rest := by
  simp only [Plant.failLine]
  repeat' split
  all_goals simp

@[simp] theorem Plant.clearChannel_rest (p : Plant) (c : Chan) : (p.clearChannel c).rest = p.rest := by
  simp only [Plant.clearChannel]
  repeat' split
  all_goals simp

@[simp] theorem Plant.releaseLine_rest (p : Plant) (c : Chan) : (p.releaseLine c).rest = p.rest := by
  simp only [Plant.releaseLine]
  repeat' split
  all_goals simp

@[simp] theorem Plant.adoptFailed_rest (p : Plant) (c : Chan) (r : AdoptReason) :
    (p.adoptFailed c r).rest = p.rest := by simp [Plant.adoptFailed]

@[simp] theorem Plant.adopt_rest (p : Plant) (c : Chan) (a : Adoption) : (p.adopt c a).rest = p.rest := by
  simp only [Plant.adopt]
  split
  · split <;> simp
  · simp

@[simp] theorem Plant.adoptLine_rest (p : Plant) (c : Chan) : (p.adoptLine c).rest = p.rest := by
  simp only [Plant.adoptLine]
  split
  · rfl
  · split <;> simp

@[simp] theorem Plant.returnSwitch_rest (p : Plant) (c : Chan) (r : ReturnRec) : (p.returnSwitch c r).rest = p.rest := by
  simp only [Plant.returnSwitch]
  repeat' split
  all_goals simp

@[simp] theorem Plant.makeSwitch_rest (p : Plant) (c : Chan) (w : PendingSw) : (p.makeSwitch c w).rest = p.rest := by
  simp only [Plant.makeSwitch]
  repeat' split
  all_goals first | rfl | simp

@[simp] theorem Plant.follow_rest (p : Plant) (c : Chan) : (p.follow c).rest = p.rest := by
  unfold Plant.follow
  split <;> simp

@[simp] theorem Plant.switchLine_rest (p : Plant) (c : Chan) : (p.switchLine c).rest = p.rest := by
  simp only [Plant.switchLine]
  have fold : ∀ (l : List PendingSw) (q : Plant), (l.foldl (fun q w => q.makeSwitch c w) q).rest = q.rest := fun l q =>
    Plant.foldl_rest _ (fun q w => q.makeSwitch_rest c w) l q
  split
  · simp
  · split
    · simp
    · split <;> simp [fold]

/-! ## Ports -/

@[simp] theorem Plant.handOutcome_rest (p : Plant) (i : PortNo) (out : Outstanding) (o : DevOutcome) :
    (p.handOutcome i out o).rest = p.rest := by
  simp only [Plant.handOutcome]
  repeat' split
  all_goals simp

@[simp] theorem Plant.endCommand_rest (p : Plant) (i : PortNo) (out : Outstanding) (o : DevOutcome) :
    (p.endCommand i out o).rest = p.rest := by simp [Plant.endCommand]

@[simp] theorem Plant.timeoutClaims_rest (n : Nat) (i : PortNo) (p : Plant) : (Plant.timeoutClaims n i p).rest = p.rest := by
  induction n generalizing p with
  | zero => rfl
  | succ n ih =>
    simp only [Plant.timeoutClaims]
    repeat' split
    all_goals simp [ih]

@[simp] theorem Plant.serveClaim_rest (p : Plant) (i : PortNo) : (p.serveClaim i).rest = p.rest := by
  simp only [Plant.serveClaim]
  split <;> simp

@[simp] theorem Plant.timeoutSlotCue_rest (p : Plant) (i : PortNo) : (p.timeoutSlotCue i).rest = p.rest := by
  unfold Plant.timeoutSlotCue
  split <;> simp

@[simp] theorem Plant.timeoutSlotPass_rest (p : Plant) (i : PortNo) : (p.timeoutSlotPass i).rest = p.rest := by
  unfold Plant.timeoutSlotPass
  split <;> simp

@[simp] theorem Plant.timeoutSlots_rest (p : Plant) (i : PortNo) : (p.timeoutSlots i).rest = p.rest := by
  simp [Plant.timeoutSlots]

@[simp] theorem Plant.timeoutPresented_rest (p : Plant) (i : PortNo) (due : Option (CmdList × DevCmd)) :
    (p.timeoutPresented i due).rest = p.rest := by
  unfold Plant.timeoutPresented
  split
  · rfl
  · simp only
    split <;> simp

@[simp] theorem Plant.reportLoss_rest (p : Plant) (i : PortNo) (owner : Option Chan) : (p.reportLoss i owner).rest = p.rest := by
  unfold Plant.reportLoss
  repeat' split
  all_goals simp

@[simp] theorem Plant.releaseJoin_rest (p : Plant) (i : PortNo) (owner : Option Chan) : (p.releaseJoin i owner).rest = p.rest := by
  unfold Plant.releaseJoin
  repeat' split
  all_goals simp

@[simp] theorem Plant.enterDown_rest (p : Plant) (i : PortNo) (cause : PortCause) : (p.enterDown i cause).rest = p.rest := by
  simp only [Plant.enterDown]
  repeat' split
  all_goals simp

@[simp] theorem Plant.attemptFails_rest (p : Plant) (i : PortNo) (k : FailKind) : (p.attemptFails i k).rest = p.rest := by
  simp only [Plant.attemptFails]
  repeat' split
  all_goals simp

@[simp] theorem Plant.nowUp_rest (p : Plant) (i : PortNo) : (p.nowUp i).rest = p.rest := by
  simp only [Plant.nowUp]
  repeat' split
  all_goals simp

@[simp] theorem Plant.goodReply_rest (p : Plant) (i : PortNo) (r : DevReply) : (p.goodReply i r).rest = p.rest := by
  have h : (if (p.port i).state = .off then p else p.modPort i fun x => { x with rx := [] }).rest = p.rest := by
    split
    · rfl
    · simp
  simp only [Plant.goodReply]
  generalize (if (p.port i).state = .off then p else p.modPort i fun x => { x with rx := [] }) = q at h ⊢
  split
  · split
    · simp [h]
    · exact h
  · split
    · simp [h]
    · exact h
  · exact h

@[simp] theorem Plant.enterOff_rest (p : Plant) (i : PortNo) : (p.enterOff i).rest = p.rest := by
  simp only [Plant.enterOff]
  repeat' split
  all_goals simp

/-! ## Timebase -/

@[simp] theorem Plant.tellReference_rest (p : Plant) (r : RefId) : (p.tellReference r).rest = p.rest := rfl

@[simp] theorem Plant.rollIfDue_rest (p : Plant) (c : Chan) :
    (p.rollIfDue c).rest = p.rest := by simp [Plant.rollIfDue, apply_ite Plant.rest]

@[simp] theorem Plant.advanceNow_rest (p : Plant) (c : Chan) (step : Option Int) : (p.advanceNow c step).rest = p.rest := rfl

@[simp] theorem Plant.tellStep_rest (p : Plant) (c : Chan) (step : Option Int) : (p.tellStep c step).rest = p.rest := by
  unfold Plant.tellStep
  split <;> rfl

@[simp] theorem Plant.watchFrame_rest (p : Plant) (c : Chan) : (p.watchFrame c).rest = p.rest := by simp [Plant.watchFrame]

@[simp] theorem Plant.watchAndExpiry_rest (p : Plant) (c : Chan) : (p.watchAndExpiry c).rest = p.rest := by
  unfold Plant.watchAndExpiry
  repeat' split
  all_goals simp

@[simp] theorem Plant.serveClaims_rest (p : Plant) (c : Chan) : (p.serveClaims c).rest = p.rest := by
  simp only [Plant.serveClaims]
  exact Plant.foldl_rest _ (fun q i => q.serveClaim_rest i) _ _

@[simp] theorem Plant.sequenceFrame_rest (p : Plant) (c : Chan) : (p.sequenceFrame c).rest = p.rest := by
  simp only [Plant.sequenceFrame]
  repeat' split
  all_goals simp

@[simp] theorem Plant.cuesAndRetirement_rest (p : Plant) (c : Chan) (stepped : Bool) : (p.cuesAndRetirement c stepped).rest = p.rest := by
  simp only [Plant.cuesAndRetirement]
  repeat' split
  all_goals simp

@[simp] theorem Plant.latchLine_rest (p : Plant) (c : Chan) : (p.latchLine c).rest = p.rest := by
  unfold Plant.latchLine
  split <;> rfl

@[simp] theorem Plant.beginFrame_rest (step : Option Int) (p : Plant) (c : Chan) :
    (Plant.beginFrame step p c).rest = p.rest := by simp [Plant.beginFrame]

@[simp] theorem Plant.channelFrame_rest (step : Option Int) (p : Plant) (c : Chan) :
    (Plant.channelFrame step p c).rest = p.rest := by
  simp [Plant.channelFrame]

end Sys2Proof.Machine
end

