-- ==== Sys2Proof/Laws/Timebase.lean ====
section
/-! SUPPORT. What line events and frame starts do to the references (R1, R13 to R15). -/

namespace Sys2Proof.Machine

@[simp] theorem permute_perm {α : Type} (n code : Nat) (l : List α) (h : l.length ≤ n) : (permute n code l).Perm l := by
  induction n generalizing code l with
  | zero => simp only [permute]; exact .refl _
  | succ n ih =>
    match l, h with
    | [], _ => simp [permute]
    | [x], _ => simp [permute]
    | a :: b :: t, h =>
      simp only [permute]
      have hk : code % (a :: b :: t).length < (a :: b :: t).length := Nat.mod_lt _ (by simp)
      rw [List.getElem?_eq_getElem hk]
      have hl : ((a :: b :: t).eraseIdx (code % (a :: b :: t).length)).length ≤ n := by
        rw [List.length_eraseIdx_of_lt hk]; omega
      exact ((ih _ _ hl).cons _).trans (List.getElem_cons_eraseIdx_perm hk)

/-- Every free order is an order of the same channels. -/
theorem Plant.inFreeOrder_perm (p : Plant) (l : List Chan) : (p.inFreeOrder l).Perm l := permute_perm _ _ _ (Nat.le_refl _)

theorem mem_sortBy {α : Type} (before : α → α → Bool) (y : α) (l : List α) : y ∈ sortBy before l ↔ y ∈ l := by
  have h : ∀ (l acc : List α), y ∈ l.foldl (fun acc x => insertBy before x acc) acc ↔ y ∈ acc ∨ y ∈ l := by
    intro l
    induction l with
    | nil => simp
    | cons x l ih =>
      intro acc
      rw [List.foldl_cons, ih, mem_insertBy, List.mem_cons]
      tauto
  simpa [sortBy] using h l []

@[simp] theorem Plant.setRaised_ref (p : Plant) (r : RefId) (n : Nat) :
    (p.setRaised r n).ref r = { p.ref r with raised := n, line := max (p.ref r).line n } := by
  simp [Plant.setRaised]

theorem Plant.setRaised_ref_other (p : Plant) {r s : RefId} (n : Nat) (h : s ≠ r) : (p.setRaised r n).ref s = p.ref s := by
  simp [Plant.setRaised, Plant.ref_setRef_other _ _ h]

/-- R1: raising the lines up to one moves that reference's line counter and nothing else of it. -/
theorem Plant.raiseLines_ref (p : Plant) (r : RefId) (upto : Nat) :
    (p.raiseLines r upto).ref r =
      if upto ≤ (p.ref r).raised then p.ref r else { p.ref r with raised := upto, line := max (p.ref r).line upto } := by
  have hl : ∀ c ∈ p.lineChannels r upto, (p.chan c).lineInForce ≤ upto := by
    intro c hc
    have hc := (p.inFreeOrder_perm _).mem_iff.mp ((mem_sortBy _ _ _).mp hc)
    simp only [List.mem_filter, Bool.and_eq_true, decide_eq_true_eq] at hc
    exact hc.2.2
  have hf : ∀ (l : List Chan) (q : Plant) (m k : Nat), (∀ c ∈ l, (p.chan c).lineInForce ≤ upto) → m ≤ max (p.ref r).line upto →
      (p.ref r).line ≤ m → q.ref r = { p.ref r with raised := k, line := m } →
      ∃ m' k', m' ≤ max (p.ref r).line upto ∧ (p.ref r).line ≤ m' ∧
        (l.foldl (fun q c => (q.setRaised r (p.chan c).lineInForce).switchLine c) q).ref r =
          { p.ref r with raised := k', line := m' } := by
    intro l
    induction l with
    | nil => intro q m k _ h1 h2 h3; exact ⟨m, k, h1, h2, h3⟩
    | cons c l ih =>
      intro q m k h0 h1 h2 h3
      rw [List.foldl_cons]
      have hc := h0 c (List.mem_cons_self ..)
      refine ih _ (max m (p.chan c).lineInForce) (p.chan c).lineInForce (fun d hd => h0 d (List.mem_cons_of_mem _ hd)) ?_ ?_ ?_
      · omega
      · omega
      · rw [Plant.ref_of_rest (Plant.switchLine_rest _ c) r, Plant.setRaised_ref, h3]
  simp only [Plant.raiseLines]
  split
  · rfl
  · obtain ⟨m, k, h1, h2, h3⟩ := hf _ p (p.ref r).line (p.ref r).raised hl (by omega) (Nat.le_refl _) rfl
    rw [Plant.setRaised_ref, Plant.tickFree_ref, h3]
    have : max m upto = max (p.ref r).line upto := by omega
    simp [this]

theorem Plant.raiseLines_ref_other (p : Plant) {r s : RefId} (upto : Nat) (h : s ≠ r) : (p.raiseLines r upto).ref s = p.ref s := by
  have hf : ∀ (l : List Chan) (q : Plant),
      (l.foldl (fun q c => (q.setRaised r (p.chan c).lineInForce).switchLine c) q).ref s = q.ref s := by
    intro l
    induction l with
    | nil => intro q; rfl
    | cons c l ih =>
      intro q
      rw [List.foldl_cons, ih, Plant.ref_of_rest (Plant.switchLine_rest _ c) s, Plant.setRaised_ref_other _ _ h]
  simp only [Plant.raiseLines]
  split
  · rfl
  · rw [Plant.setRaised_ref_other _ _ h, Plant.tickFree_ref, hf]

/-- R1: passing the lines of a frame moves the line counter and what has been raised, forward only, and nothing else of the
reference. -/
theorem Plant.passLines_ref (p : Plant) (r : RefId) (pos : Nat) :
    (p.passLines r pos).ref r = { p.ref r with
      raised := max (p.ref r).raised (min pos (p.ref r).family.lines), line := max (p.ref r).line (pos + 1) } := by
  simp only [Plant.passLines, Plant.modRef, Plant.ref_setRef_same, Plant.raiseLines_ref]
  split
  · rename_i h
    simp only [Nat.max_eq_left h]
  · rename_i h
    have hr : max (p.ref r).raised (min pos (p.ref r).family.lines) = min pos (p.ref r).family.lines :=
      Nat.max_eq_right (Nat.le_of_not_le h)
    have hl : max (max (p.ref r).line (min pos (p.ref r).family.lines)) (pos + 1) = max (p.ref r).line (pos + 1) := by omega
    simp only [hr, hl]

theorem Plant.passLines_ref_other (p : Plant) {r s : RefId} (pos : Nat) (h : s ≠ r) : (p.passLines r pos).ref s = p.ref s := by
  simp only [Plant.passLines, Plant.modRef, Plant.ref_setRef_other _ _ h, Plant.raiseLines_ref_other _ _ h]

theorem Plant.channelFrames_rest (step : Option Int) (l : List Chan) (p : Plant) :
    (l.foldl (Plant.channelFrame step) p).rest = p.rest :=
  Plant.foldl_rest _ (fun q c => q.channelFrame_rest step c) l p

/-- R1, R13 to R15: the reference after a frame start: its kept label examined, its new frame begun. -/
theorem Plant.frameStart_ref (p : Plant) (r : RefId) (line length : Nat) :
    (p.frameStart r line length).ref r = ((p.ref r).examine (p.stepAllowed r)).1.newFrame line length := by
  simp only [Plant.frameStart]
  rw [Plant.ref_of_rest (Plant.channelFrames_rest _ _ _) r]
  simp only [Plant.tickFree_ref]
  split
  · rw [Plant.ref_of_rest (Plant.tellReference_rest _ r) r]; simp
  · simp

theorem Plant.frameStart_ref_other (p : Plant) {r s : RefId} (line length : Nat) (h : s ≠ r) :
    (p.frameStart r line length).ref s = p.ref s := by
  simp only [Plant.frameStart]
  rw [Plant.ref_of_rest (Plant.channelFrames_rest _ _ _) s]
  simp only [Plant.tickFree_ref]
  split
  · rw [Plant.ref_of_rest (Plant.tellReference_rest _ r) s, Plant.ref_setRef_other _ _ h]
  · rw [Plant.ref_setRef_other _ _ h]

/-- The reference after the end of a frame, its lines raised before the next frame starts. -/
theorem Plant.endFrame_ref (p : Plant) (r : RefId) (line length : Nat) :
    (p.endFrame r line length).ref r =
      (((p.raiseLines r (p.ref r).family.lines).ref r).examine
        ((p.raiseLines r (p.ref r).family.lines).stepAllowed r)).1.newFrame line length := by
  simp only [Plant.endFrame, Plant.frameStart_ref]

theorem Plant.endFrame_ref_other (p : Plant) {r s : RefId} (line length : Nat) (h : s ≠ r) :
    (p.endFrame r line length).ref s = p.ref s := by
  simp only [Plant.endFrame, Plant.frameStart_ref_other _ _ _ h, Plant.raiseLines_ref_other _ _ h]

/-! ## What examining the label leaves alone -/

/-- R13, R14: examining the kept label moves the station count, time set, the offset and its run and labels faulty, and
nothing else. -/
theorem Reference.examine_keeps (x : Reference) (allowed : Int → Bool) :
    (x.examine allowed).1.family = x.family ∧ (x.examine allowed).1.configured = x.configured ∧
      (x.examine allowed).1.lock = x.lock ∧ (x.examine allowed).1.miss = x.miss ∧ (x.examine allowed).1.run = x.run ∧
      (x.examine allowed).1.predicted = x.predicted ∧ (x.examine allowed).1.lastPulse = x.lastPulse := by
  simp only [Reference.examine, Reference.offsetSeen]
  repeat' split
  all_goals exact ⟨rfl, rfl, rfl, rfl, rfl, rfl, rfl⟩

end Sys2Proof.Machine
end

