-- ==== Sys2Proof/Tests/Slice0.lean ====
section
/-! SUPPORT. Tests: ill-formed commands refused, the guide's worked values, one small step for each command with its expected
outcome taken from the rule named, and for each statement with hypotheses a state and operands that meet them. -/

namespace Sys2Proof.Tests

open Sys2Proof.Machine

/-! ## Small states -/

/-- A configuration record within its values (section 7.1). -/
def conf : ChannelConfig :=
  { reference := .a, primary := 3, spares := 262144, standby := .cold, policy := .auto, confirmWindow := 50, bridge := .main,
    cueLead := 25, tailGuard := 50, returnLead := 25, verifyTol := 2, switchLine := 6, baseDay := 100,
    watch := { weights := ⟨8, 4, 4, 2, 2, 1, 8, 4⟩, sensitivity := 1, recovery := 5, degradeAt := 40, failAt := 100,
               recoverAt := 20, warmUp := 1, agreeTol := 10 }, heartbeat := none }

/-- The same record as SET CHANNEL carries it. -/
def rawConf : RawConfig :=
  { reference := 0, primary := 3, spares := 262144, standby := 0, policy := 1, confirmWindow := 50, bridge := 0, cueLead := 25,
    tailGuard := 50, returnLead := 25, verifyTol := 2, switchLine := 6, baseDay := 100, watch := conf.watch, heartbeat := none }

/-- A CLIP event's description, FIXED_SOFT at 00:01:00:00 of day 101, 500 frames long. -/
def desc (id : Nat) : RawDesc :=
  { id := id, kind := 0, rule := 1, duration := 500, start := some ⟨101, ⟨0, 1, 0, 0⟩⟩, clip := some ⟨0, 1000, [0x41]⟩,
    eom := none, noJoin := false }

/-- The event of that description, resolved at its label: base day 100, so its start is 2,160,000 + 1500. -/
def event (id : Nat) : Event :=
  { newEvent (desc id) (some ⟨101, ⟨0, 1, 0, 0⟩⟩) (some 2161500) with rstart := 2161500, rend := 2162000 }

/-- A channel in a mode, its now at the start of day 101, its replica CURRENT with next 7. -/
def chan (m : Mode) : Channel :=
  { Channel.reset with
    now := 2160000, baseDay := 100, config := some conf, mode := m, portInUse := some 3, lineInForce := 6,
    replica := { Replica.reset with state := .current, next := some 7 } }

/-- A UP port of a role. -/
def up (r : Role) : Port := { Port.reset with role := r, state := .up }

/-- The part after power-on but for channel 0 and port 3. -/
def part (x : Channel) (y : Port) : State := { State.reset with plant := (Plant.reset.setChan 0 x).setPort 3 y }

/-- The same with reference A changed. -/
def partRef (x : Channel) (y : Port) (r : Reference) : State := { part x y with plant := { (part x y).plant with refA := r } }

/-- A reference that is LOCKED. -/
def locked : Reference := { Reference.reset with configured := true, lock := .locked, miss := 0 }

/-- The state after a command, and the channel and port the tests look at. -/
def after (c : Instr) (s : State) : State :=
  match exec c s with
  | .next t => t
  | _ => s

def chanAfter (c : Instr) (s : State) : Channel := (after c s).plant.chan 0
def portAfter (c : Instr) (s : State) : Port := (after c s).plant.port 3

/-- The status and contents of the reply that has begun to leave. -/
def answer (s : State) : Option (Status × List Byte) :=
  match s.ctl.tx with
  | some ⟨.reply r, _⟩ => some (r.status, r.content)
  | _ => none

/-! ## Well-formedness: each check refuses -/

theorem test_wf_tag_zero : (Instr.halt 0 (.sound 0)).wf = false := by decide
theorem test_wf_tag_wide : (Instr.halt 256 .faulty).wf = false := by decide
theorem test_wf_halt : (Instr.halt 255 (.sound 255)).wf = true := by decide
theorem test_wf_byte : (Instr.readWatch 1 (.sound 256)).wf = false := by decide
theorem test_wf_two_bytes : (Instr.evDrop .l0 0 65536 1).wf = false := by decide
theorem test_wf_four_bytes : (Instr.evDrop .l0 0 0 4294967296).wf = false := by decide
theorem test_wf_three_bytes : (Instr.deviceReply 0 (.state .idle [] 16777216)).wf = false := by decide
theorem test_wf_reply_clip : (Instr.deviceReply 0 (.state .idle (List.replicate 33 0) 0)).wf = false := by decide
theorem test_wf_label : (Instr.referenceLabel .a ⟨256, 0, 0, 0⟩).wf = false := by decide
theorem test_wf_desc : (Instr.evSwap .l0 0 0 (desc 1)).wf = true := by decide
theorem test_wf_clip_empty : (Instr.evSwap .l0 0 0 { desc 1 with clip := some ⟨0, 0, []⟩ }).wf = false := by decide
theorem test_wf_clip_long : (Instr.evSwap .l0 0 0 { desc 1 with clip := some ⟨0, 0, List.replicate 33 0x41⟩ }).wf = false := by decide
theorem test_wf_eom : (Instr.evSwap .l0 0 0 { desc 1 with eom := some 16777216 }).wf = false := by decide
theorem test_wf_start : (Instr.evSwap .l0 0 0 { desc 1 with start := some ⟨65536, ⟨0, 0, 0, 0⟩⟩ }).wf = false := by decide
theorem test_wf_pulse_ids : (Instr.pulse .l0 0 0 [none]).wf = false := by decide
theorem test_wf_pulse : (Instr.pulse .l0 255 65535 (List.replicate 16 none)).wf = true := by decide
theorem test_wf_held_control : (Instr.controlReceiveFault .crc (List.replicate 1031 0xA5)).wf = false := by decide +kernel
theorem test_wf_left_link : (Instr.linkReceiveFault .l0 .check [0xA5]).wf = false := by decide
theorem test_wf_left_probe : (Instr.probeReceiveFault .check [0x5A]).wf = false := by decide
theorem test_wf_left_device : (Instr.deviceReceiveFault 0 .check true [0xC3]).wf = false := by decide
theorem test_wf_left : (Instr.deviceReceiveFault 0 .check true [0x96, 0x01]).wf = true := by decide
theorem test_wf_known_kind : (Instr.unknownRequest 1 0x18).wf = false := by decide
theorem test_wf_unknown_kind : (Instr.unknownRequest 1 0x19).wf = true := by decide

/-- A template step within its coding: SEND ROLL at START. -/
def rawStep : RawStep :=
  { kind := 0, command := some 2, argument := some 0, constant := none, anchor := 0, offset := 0, condition := 0, repeats := 0,
    spacing := 1, expected := none, clipMatch := none, onMismatch := none }

theorem test_wf_offset : (Instr.setTemplate 1 (.sound ⟨0, [{ rawStep with offset := 32768 }]⟩)).wf = false := by decide
theorem test_wf_constant :
    (Instr.setTemplate 1 (.sound ⟨0, [{ rawStep with constant := some (List.replicate 256 0) }]⟩)).wf = false := by decide +kernel
theorem test_wf_template : (Instr.setTemplate 1 (.sound ⟨0, [rawStep]⟩)).wf = true := by decide
theorem test_wf_config : (Instr.setChannel 1 (.sound ⟨0, rawConf⟩)).wf = true := by decide
theorem test_wf_config_spares : (Instr.setChannel 1 (.sound ⟨0, { rawConf with spares := 16777216 }⟩)).wf = false := by decide
theorem test_wf_config_weight :
    (Instr.setChannel 1 (.sound ⟨0, { rawConf with watch :=
      { conf.watch with weights := ⟨256, 0, 0, 0, 0, 0, 0, 0⟩ } }⟩)).wf = false := by decide

/-! ## Worked values of the guide -/

/-- R193: the check value of the CRC computation. -/
theorem test_crc : crc16 [0x31, 0x32, 0x33, 0x34, 0x35, 0x36, 0x37, 0x38, 0x39] = 0x29B1 := by decide +kernel

/-- "Worked check values": the device-line ASK, the DONE reply and the probe record. -/
theorem test_ask_frame : DevCmd.ask.frame = [0x96, 0x01, 0x15, 0x54] := by decide
theorem test_done_check : checkByte [0x96, 0x01, 0x20] = 0x49 := by decide
theorem test_probe_check : checkByte [0xC3, 0x05, 0x11, 0x0E, 0x0B, 0x07, 0x0A] = 0xFD := by decide

/-- The same bytes read from the lines. -/
theorem test_scan_done : scanDevice 3 8 [0x96, 0x01, 0x20, 0x49] = ([.deviceReply 3 .done], []) := by decide
theorem test_scan_probe : scanProbe 16 [0xC3, 0x05, 0x11, 0x0E, 0x0B, 0x07, 0x0A, 0xFD] =
    ([.probeRecord 5 ⟨true, false, false, false, true, ⟨14, 11, 7, 10⟩⟩], []) := by decide

/-- R196: flag bits 5 to 7 of a probe record are disregarded: 0xF1 is read as 0x11. -/
theorem test_probe_flags : readProbe [5, 0xF1, 14, 11, 7, 10] = readProbe [5, 0x11, 14, 11, 7, 10] := by decide

/-- Section 10.2: a request of KIND 0x0A for channel 5 with tag 7, read from its frame. -/
theorem test_scan_request : (scanControl 16 (controlFrame 7 0x0A [5])).1 = [.halt 7 (.sound 5)] := by decide +kernel
/-- R179: a CRC that does not match discards the frame; the hunt finds no other SYNC in what is held. -/
theorem test_scan_crc : scanControl 16 [0xA5, 0x00, 0x00, 0x01, 0x18, 0x00, 0x00] = ([], []) := by decide +kernel
/-- R195: a BATCH OPEN record of length 5, and one of a wrong length. -/
theorem test_record : recordOf .l0 [0x05, 0x02, 0x01, 0x00, 0x09] = .batchOpen .l0 2 256 9 := by decide
theorem test_record_short : recordOf .l0 [0x05, 0x02, 0x01, 0x00] = .unreadableRecord .l0 := by decide
theorem test_record_kind : recordOf .l0 [0x81, 0x02, 0x01, 0x00] = .unknownRecordKind .l0 := by decide

/-- R10: 23:59:59:24 at F25 and 23:59:59;29 at F29DF. -/
theorem test_count_f25 : (Label.mk 23 59 59 24).count .f25 = 2159999 := by decide
theorem test_count_f29 : (Label.mk 23 59 59 29).count .f29df = 2589407 := by decide
/-- R11, R12: the first label of a minute whose first labels are dropped, and that of a tenth minute. -/
theorem test_label_f29 : labelOf .f29df 1800 = ⟨0, 1, 0, 2⟩ := by decide
theorem test_label_tenth : labelOf .f29df 17982 = ⟨0, 10, 0, 0⟩ := by decide
theorem test_label_f59 : labelOf .f59df 3600 = ⟨0, 1, 0, 4⟩ := by decide
theorem test_moved : (Label.mk 0 1 0 1).moved .f29df = ⟨0, 1, 0, 2⟩ := by decide
/-- R16: the day window, its last day and the days on either side of it. -/
theorem test_ctf : ctfOf .f25 20416 ⟨20419, ⟨6, 0, 0, 0⟩⟩ = some 7020000 := by decide
theorem test_ctf_beyond : ctfOf .f25 20416 ⟨20420, ⟨6, 0, 0, 0⟩⟩ = none := by decide
theorem test_ctf_before : ctfOf .f25 20416 ⟨20415, ⟨6, 0, 0, 0⟩⟩ = none := by decide

/-! ## One small step for each command, its outcome taken from the rule named -/

/-- R18, R71, R92, R113, R135, R159, R178, R191. -/
theorem test_power_on : after .powerOn (part (chan .shadow) (up .primary)) = State.reset := by decide
/-- R174, R190: an orphan keeps its switch; the reply lists it: one item, channel 0 at FILLER. -/
theorem test_reset_part : (chanAfter (.resetPart 1 (.sound ())) (part { chan .onLocal with switch := .filler } Port.reset)).mode
    = .orphaned := by decide +kernel
theorem test_reset_part_reply : answer (after (.resetPart 1 (.sound ()))
    (part { chan .onLocal with switch := .filler } Port.reset)) = some (.ok, [1, 0, 2]) := by decide
/-- R2: a new family unsets the station time and leaves the reference LOST. -/
theorem test_set_reference : ((after (.setReference 1 (.sound ⟨0, 1⟩)) State.reset).plant.refA.family,
    (after (.setReference 1 (.sound ⟨0, 1⟩)) State.reset).plant.refA.configured) = (.f29df, true) := by decide
theorem test_set_reference_bad : answer (after (.setReference 1 (.sound ⟨0, 4⟩)) State.reset) = some (.badArgument, []) := by
  decide
/-- R48. -/
theorem test_set_links : (after (.setLinks 1 (.sound ⟨⟨8, 0⟩, ⟨9, 1⟩, 50⟩)) State.reset).plant.link1 =
    { Link.reset with divisor := 9, parity := .odd } := by decide
theorem test_set_links_parity : answer (after (.setLinks 1 (.sound ⟨⟨8, 0⟩, ⟨9, 3⟩, 50⟩)) State.reset) = some (.badArgument, []) := by
  decide
/-- R70: in SHADOW the replica goes to AWAIT_BASE and its reload timer starts. -/
theorem test_replica_reset : (chanAfter (.replicaReset 1 (.sound 0)) (part (chan .shadow) Port.reset)).replica =
    { Replica.reset with reloadTimer := some 0 } := by decide
/-- R23, R31, R35: an insertion at the head of an empty list; its start is its label's CTF. -/
theorem test_edit_insert : (chanAfter (.editEventInsert 1 (.sound ⟨0, 0, desc 9⟩)) (part (chan .onLocal) Port.reset)).playlist
    = [event 9] := by decide
/-- R31: while the main site owns the playlist. -/
theorem test_edit_insert_shadow : answer (after (.editEventInsert 1 (.sound ⟨0, 0, desc 9⟩)) (part (chan .shadow) Port.reset))
    = some (.replicaOwns, []) := by decide
/-- R26, R40: a replacement of a PENDING event takes the new duration. -/
theorem test_edit_replace : (chanAfter (.editEventReplace 1 (.sound ⟨0, { desc 9 with duration := 600 }⟩))
    (part { chan .onLocal with playlist := [event 9] } Port.reset)).playlist =
    [{ event 9 with duration := 600, rend := 2162100 }] := by decide
/-- R27: a PENDING event leaves the list. -/
theorem test_edit_delete : (chanAfter (.editEventDelete 1 (.sound ⟨0, 9⟩))
    (part { chan .onLocal with playlist := [event 9] } Port.reset)).playlist = [] := by decide
theorem test_edit_delete_absent : answer (after (.editEventDelete 1 (.sound ⟨0, 8⟩))
    (part { chan .onLocal with playlist := [event 9] } Port.reset)) = some (.noSuchEvent, []) := by decide
/-- R43: no event, 4096 free records, now at day 101 00:00:00:00, an empty list, no more. -/
theorem test_read_playlist : answer (after (.readPlaylist 1 (.sound ⟨0, 0⟩)) (part (chan .shadow) Port.reset)) =
    some (.ok, [0, 0, 0x10, 0, 0, 101, 0, 0, 0, 0, 0, 0]) := by decide
/-- R91: reading clears the change flags. -/
theorem test_read_watch : (chanAfter (.readWatch 1 (.sound 0))
    (part { chan .shadow with watch := { Watch.reset with change := { Conds.empty with black := true } } } Port.reset)).watch =
    Watch.reset := by decide
/-- R93, R94. -/
theorem test_set_port : portAfter (.setPort 1 (.sound ⟨3, 1, 20, 2, 5, 1, 10⟩)) State.reset =
    { Port.reset with role := .spare, state := .up, divisor := 20, parity := .even, replyTimeout := 5, retries := 1,
                      preroll := 10 } := by decide
theorem test_set_port_parity : answer (after (.setPort 1 (.sound ⟨3, 1, 20, 3, 5, 1, 10⟩)) State.reset) = some (.badArgument, []) := by
  decide
/-- R112, R98: ASK is granted to an idle port and its frame leaves. -/
theorem test_pass_through : (portAfter (.passThrough 1 (.sound ⟨3, 5, .none⟩)) (part Channel.reset (up .primary))).shift =
    some (.frame [0x96, 0x01, 0x15, 0x54]) := by decide
theorem test_pass_through_off : answer (after (.passThrough 1 (.sound ⟨3, 5, .none⟩)) State.reset) =
    some (.wrongMode, []) := by decide
/-- R115, R116. -/
theorem test_set_template : (after (.setTemplate 1 (.sound ⟨31, [rawStep]⟩)) State.reset).plant.templates[31] =
    [{ body := .sendRoll, anchor := .start, offset := 0, cond := .always, repeats := 0, spacing := 1 }] := by decide +kernel
/-- R133, R134. -/
theorem test_halt : (chanAfter (.halt 1 (.sound 0)) (part (chan .shadow) Port.reset)).seq.halted = true := by decide
theorem test_resume : (chanAfter (.resume 1 (.sound 0))
    (part { chan .shadow with seq := { Sequencer.reset with halted := true } } Port.reset)).seq.halted = false := by
  decide
theorem test_resume_refused : answer (after (.resume 1 (.sound 0)) (part (chan .shadow) Port.reset)) = some (.wrongMode, []) := by
  decide
/-- R136, R137: the channel leaves IDLE at base day, one day on, at the reference's station time. -/
theorem test_set_channel : (fun x : Channel => (x.mode, x.now, x.baseDay, x.portInUse))
    (chanAfter (.setChannel 1 (.sound ⟨0, rawConf⟩))
      (partRef Channel.reset (up .primary) { Reference.reset with configured := true, station := 77 })) =
    (.shadow, 2160077, 100, some 3) := by decide
theorem test_set_channel_refused : answer (after (.setChannel 1 (.sound ⟨0, rawConf⟩)) (part Channel.reset (up .primary))) =
    some (.wrongMode, []) := by decide
/-- R139: the switch stays where it stands. -/
theorem test_clear_channel : chanAfter (.clearChannel 1 (.sound 0)) (part { chan .shadow with switch := .filler } Port.reset) =
    { Channel.reset with switch := .filler } := by decide
/-- R145, R147: TAKE in SHADOW; the reply gives now. -/
theorem test_take : (chanAfter (.take 1 (.sound ⟨0, 0⟩)) (part (chan .shadow) (up .primary))).mode = .taking := by decide
theorem test_take_reply : answer (after (.take 1 (.sound ⟨0, 0⟩)) (part (chan .shadow) (up .primary))) =
    some (.ok, [0, 101, 0, 0, 0, 0]) := by decide
/-- R146. -/
theorem test_confirm : (chanAfter (.confirm 1 (.sound 0))
    (part { chan .confirming with confirm := some ⟨2160050, false⟩ } (up .primary))).mode = .taking := by decide
theorem test_confirm_refused : answer (after (.confirm 1 (.sound 0)) (part (chan .shadow) (up .primary))) =
    some (.wrongMode, []) := by decide
/-- R144. -/
theorem test_veto : (fun x : Channel => (x.mode, x.confirm)) (chanAfter (.veto 1 (.sound 0))
    (part { chan .confirming with confirm := some ⟨2160050, false⟩ } (up .primary))) = (.shadow, none) := by decide

/-- A take in progress, joining, on port 3. -/
def takeRec : TakeRec :=
  { kind := .manual, option := .join, start := 2160000, stage := .joining, port := some 3, join := none, bridgeReason := none,
    verify := none, result := none, failure := none, rejoined := false }

/-- R157: the switch at MAIN, the channel is back in SHADOW and the record ABORTING. -/
theorem test_abort_take : (fun x : Channel => (x.mode, x.takeRec.map (·.stage))) (chanAfter (.abortTake 1 (.sound 0))
    (part { chan .taking with takeRec := some takeRec } Port.reset)) = (.shadow, some .aborting) := by decide
/-- R158, R188: reading clears both missed-notice flags. -/
theorem test_read_channel : (fun k : ControlLine => (k.missed[0], k.missedPart)) (after (.readChannel 1 (.sound 0))
    { part (chan .shadow) Port.reset with
      ctl := { ControlLine.reset with missed := Vector.replicate 16 true, missedPart := true } }).ctl = (false, false) := by
  decide
/-- R169: a boundary: the next event that starts at or after now + return lead. -/
theorem test_return : (chanAfter (.returnToMain 1 (.sound ⟨0, none, false⟩))
    (part { chan .onLocal with playlist := [event 9] } (up .primary))).returnRec.map (·.tRet) = some 2161500 := by decide
theorem test_return_none : answer (after (.returnToMain 1 (.sound ⟨0, none, false⟩)) (part (chan .onLocal) (up .primary))) =
    some (.noBoundary, []) := by decide

/-- A return pending at the start of event 9. -/
def returnRec : ReturnRec :=
  { state := .pending, tRet := 2161500, event := 9, sent := ⟨101, ⟨0, 1, 0, 0⟩⟩, notBefore := none, force := false, against := false,
    cancel := none }

/-- R170. -/
theorem test_cancel_return : (fun x : Channel => (x.mode, x.returnRec.map (·.state))) (chanAfter (.cancelReturn 1 (.sound 0))
    (part { chan .returning with returnRec := some returnRec } (up .primary))) = (.onLocal, some .cancelled) := by decide
/-- R175: the covering event and the primary port. -/
theorem test_adopt : answer (after (.adopt 1 (.sound ⟨0, none⟩))
    (part { chan .orphaned with now := 2161600, playlist := [event 9] } (up .primary))) = some (.ok, [0, 0, 0, 9, 3]) := by
  decide
/-- R177: RELEASE to FILLER is pending for a switch line. -/
theorem test_release : (chanAfter (.release 1 (.sound ⟨0, 1, none⟩)) (part (chan .orphaned) (up .primary))).pendingSw =
    [⟨.filler, 2160000, .release, .release⟩] := by decide
/-- R168: a start behind the ring: the next index, no entries, no more. -/
theorem test_read_as_run : (answer (after (.readAsRun 1 (.sound 5)) State.reset)).map (·.1) = some .ok := by decide
/-- R180. -/
theorem test_unknown_request : answer (after (.unknownRequest 1 0x19) State.reset) = some (.badArgument, []) := by decide
theorem test_tag_zero : after .tagZeroFrame State.reset = State.reset := by decide
/-- R179: the bytes examined again are kept. -/
theorem test_control_fault : (after (.controlReceiveFault .crc [0xA5]) State.reset).ctl.rx = [0xA5] := by decide
/-- R179: a whole frame inside the bytes that a broken LEN swallowed is found, and its request waits its turn. -/
theorem test_control_fault_found : (after (.controlReceiveFault .overrun (0x01 :: controlFrame 7 0x0A [5]))
    State.reset).ctl.waiting = [.halt 7 (.sound 5)] := by decide +kernel

/-- A reply that is leaving, answering the head of the request queue. -/
def sending : Sending := ⟨.reply ⟨7, 0x8A, .ok, [], .queued⟩, []⟩

/-- R182, R188: its place in the queue is given up and the head notice follows. -/
theorem test_frame_sent : (fun k : ControlLine => (k.requests, k.notices, k.tx.isSome)) (after .controlFrameSent
    { State.reset with ctl := { ControlLine.reset with
        requests := [⟨7, 0x0A⟩], tx := some sending, notices := [⟨.dayRolled, some 0, [0, 101]⟩] } }).ctl = ([], [], true) := by
  decide
/-- R4: an early pulse while LOCKED, at line 600 of 625, is a miss. -/
theorem test_pulse_early : (after (.framePulse .a 600) (partRef Channel.reset Port.reset locked)).plant.refA.miss = 1 := by
  decide
/-- R1: the lines before such a pulse have raised their line events. -/
theorem test_pulse_raises : (fun r : Reference => (r.line, r.raised))
    (after (.framePulse .a 400) (partRef Channel.reset Port.reset { Reference.reset with lock := .lost })).plant.refA = (401, 400) := by
  decide
/-- R3: a pulse 8 lines late is in phase: the frame ends, with it the station time moves on. -/
theorem test_pulse_late : (fun r : Reference => (r.lock, r.miss, r.line, r.station))
    (after (.framePulse .a 633) (partRef Channel.reset Port.reset { locked with miss := 2 })).plant.refA = (.locked, 0, 1, 1) := by
  decide
/-- R4: the third miss leaves LOCKED, 8 lines into the next frame. -/
theorem test_window_close : (fun r : Reference => (r.lock, r.miss, r.line))
    (after (.pulseWindowClose .a) (partRef Channel.reset Port.reset { locked with miss := 2 })).plant.refA = (.lost, 3, 9) := by
  decide
/-- R6: no pulse at the predicted place. -/
theorem test_rephase_close : (after (.rephaseWindowClose .a)
    (partRef Channel.reset Port.reset { locked with lock := .rephasing, run := 8 })).plant.refA.lock = .lost := by decide
/-- R1: a frame start moves a channel's now on by 1. -/
theorem test_crystal_end : (chanAfter (.crystalFrameEnd .a) (part (chan .shadow) Port.reset)).now = 2160001 := by decide
/-- R5. -/
theorem test_run_lapse : (after (.inPhaseRunLapse .a)
    (partRef Channel.reset Port.reset { Reference.reset with run := 4, lastPulse := some 10 })).plant.refA = Reference.reset := by
  decide
/-- R13: the first label of a frame is kept. -/
theorem test_label_kept : (after (.referenceLabel .a ⟨1, 2, 3, 4⟩)
    (partRef Channel.reset Port.reset { locked with label := some ⟨9, 9, 9, 9⟩ })).plant.refA.label = some ⟨9, 9, 9, 9⟩ := by
  decide
/-- R17: at 2 days exactly the channel rolls, its base day wrapping from 65535. -/
theorem test_day_roll : (fun x : Channel => (x.now, x.baseDay)) (chanAfter (.dayRoll 0)
    (part { chan .shadow with now := 4320000, baseDay := 65535 } Port.reset)) = (2160000, 0) := by decide
/-- R141, R177: the RELEASE's switch is made at its line. -/
theorem test_switch_line : (chanAfter (.switchLine 0) (part { chan .orphaned with
    release := some .filler, pendingSw := [⟨.filler, 2160000, .release, .release⟩] } (up .primary))).switch = .filler := by
  decide
/-- R143: the window ends in a take. -/
theorem test_confirm_expiry : (chanAfter (.confirmExpiry 0)
    (part { chan .confirming with confirm := some ⟨2160000, false⟩ } (up .primary))).mode = .taking := by decide
theorem test_confirm_demoted : (chanAfter (.confirmExpiry 0)
    (part { chan .confirming with confirm := some ⟨2160000, true⟩ } (up .primary))).mode = .shadow := by decide
/-- R50, R59: an in-order EV PUT. -/
theorem test_ev_put : (fun x : Channel => (x.playlist, x.replica.next)) (chanAfter (.evPut .l0 0 7 0 (desc 9))
    (part (chan .shadow) Port.reset)) = ([event 9], some 8) := by decide
/-- R51: an early record is held and the replica shows the gap. -/
theorem test_ev_put_early : (chanAfter (.evPut .l0 0 8 0 (desc 9)) (part (chan .shadow) Port.reset)).replica.state = .gap := by
  decide
theorem test_ev_swap : (chanAfter (.evSwap .l1 0 7 { desc 9 with duration := 600 })
    (part { chan .shadow with playlist := [event 9] } Port.reset)).playlist.map (·.rend) = [2162100] := by decide
/-- R55: an EV DROP that the store refuses leaves the replica STALE. -/
theorem test_ev_drop : (chanAfter (.evDrop .l0 0 7 9) (part { chan .shadow with playlist := [event 9] } Port.reset)).playlist =
    [] := by decide
theorem test_ev_drop_refused : (chanAfter (.evDrop .l0 0 7 8)
    (part { chan .shadow with playlist := [event 9] } Port.reset)).replica.state = .stale := by decide
/-- R28. -/
theorem test_ch_wipe : (chanAfter (.chWipe .l0 0 7) (part { chan .shadow with playlist := [event 9] } Port.reset)).playlist =
    [] := by decide
/-- R60. -/
theorem test_batch_open : (chanAfter (.batchOpen .l0 0 7 64) (part (chan .shadow) Port.reset)).replica.batch =
    some ⟨64, 0, 7, 0⟩ := by decide
theorem test_batch_open_big : (chanAfter (.batchOpen .l0 0 7 65) (part (chan .shadow) Port.reset)).replica.state = .stale := by
  decide
/-- R62: a BATCH CLOSE with no batch open. -/
theorem test_batch_close : (chanAfter (.batchClose .l0 0 7) (part (chan .shadow) Port.reset)).replica.state = .stale := by
  decide
/-- R62: one that counts right applies what was staged. -/
theorem test_batch_applied : (chanAfter (.batchClose .l0 0 7)
    { part { chan .shadow with replica := { (chan .shadow).replica with batch := some ⟨1, 1, 5, 0⟩ } } Port.reset with
      plant := { (part { chan .shadow with replica := { (chan .shadow).replica with batch := some ⟨1, 1, 5, 0⟩ } }
        Port.reset).plant with hold := [⟨0, 6, .put 0 (desc 9), .staged, some 5⟩] } }).playlist = [event 9] := by decide
/-- R57. -/
theorem test_base : (fun x : Channel => (x.playlist, x.replica.state, x.replica.next)) (chanAfter (.base .l0 0 65535)
    (part { chan .shadow with playlist := [event 9], replica := { Replica.reset with state := .stale } } Port.reset)) =
    ([], .current, some 0) := by decide
/-- R67, R68: a PULSE is taken once. -/
theorem test_pulse : (fun p : Plant => (p.pulseMem, p.heartbeat, p.mainDay))
    (after (.pulse .l0 3 101 (List.replicate 16 none)) State.reset).plant = (some 3, .running 1000, some 101) := by decide
/-- R45, R46: the link is UP by the good frame; the record sets the check flag after it. -/
theorem test_unreadable : (fun k : Link => (k.state, k.flags.check)) (after (.unreadableRecord .l0) State.reset).plant.link0 =
    (.up, true) := by decide
theorem test_link_fault : (after (.linkReceiveFault .l1 .parity []) State.reset).plant.link1.flags =
    { LineFlags.clear with parity := true } := by decide
/-- R47. -/
theorem test_link_down : (after (.linkBreakDown .l0) State.reset).plant.link0.state = .down := by decide
theorem test_unknown_kind : (after (.unknownRecordKind .l0) State.reset).plant.link0.state = .up := by decide

/-- A channel whose replica waits for a gap to be filled, a batch open and a reload asked for. -/
def gapped : Channel :=
  { chan .shadow with
    replica := { state := .gap, next := some 7, batch := some ⟨2, 0, 5, 0⟩, gapTimer := some 0, reloadTimer := some 0 } }

/-- R53: the ASK FILL of channel 0 for sequence number 7 leaves on L0. -/
theorem test_ask_fill : (after (.askFillTimer 0) (part gapped Port.reset)).back0.sending.map (·.1) = some (.askFill 0 7) := by
  decide
/-- R54, R63. -/
theorem test_gap_timeout : (chanAfter (.gapTimeout 0) (part gapped Port.reset)).replica.state = .stale := by decide
theorem test_batch_timeout : (chanAfter (.batchTimeout 0) (part gapped Port.reset)).replica.state = .stale := by decide
theorem test_reload_timer : (after (.reloadTimer 0) (part gapped Port.reset)).back1.sending.map (·.1) = some (.askReload 0) := by
  decide
/-- R68. -/
theorem test_heartbeat : (after .heartbeatTimeout
    { State.reset with plant := { Plant.reset with heartbeat := .running 1000 } }).plant.heartbeat = .expired := by decide
/-- R69. -/
theorem test_back_sent : (after (.backChannelFrameSent .l0)
    { State.reset with back0 := ⟨[.askReload 1], some (.askReload 0, [])⟩ }).back0.sending.map (·.1) = some (.askReload 1) := by
  decide

/-- A probe record of a black picture with no label. -/
def probe : Probe := ⟨true, true, false, false, false, ⟨0, 0, 0, 0⟩⟩

/-- R74. -/
theorem test_probe_record : (chanAfter (.probeRecord 0 probe) (part (chan .shadow) Port.reset)).watch.latch = some probe := by
  decide
theorem test_probe_fault : (after (.probeReceiveFault .overrun []) State.reset).plant.probeFlags =
    { ProbeFlags.clear with overrun := true } := by decide

/-- A port whose pass-through ASK awaits its reply. -/
def asking : Port :=
  { up .primary with outstanding := some ⟨.ask, .pass⟩, replyTimer := some 0 }

/-- R99, R112: the STATE reply ends the command. -/
theorem test_device_reply : (portAfter (.deviceReply 3 (.state .cued [] 0)) (part Channel.reset asking)).outstanding = none := by
  decide
/-- R98: a garbled reply, one retry left. -/
theorem test_device_fault : (fun y : Port => (y.attempt, y.failures, y.flags.check))
    (portAfter (.deviceReceiveFault 3 .check true []) (part Channel.reset { asking with tryRetries := 1, retries := 1 })) =
    (2, [.garbled], true) := by decide
/-- R97: the reply timer runs from the frame's end. -/
theorem test_command_sent : (fun y : Port => (y.shift, y.replyTimer)) (portAfter (.commandFrameSent 3)
    (part Channel.reset { asking with replyTimer := none, shift := some (.frame []) })) = (none, some 0) := by decide
/-- R100: a TIMEOUT counted. -/
theorem test_reply_timeout : (portAfter (.replyTimeout 3) (part Channel.reset asking)).timeouts = 1 := by decide
/-- R102: the third one takes the port DOWN, its recovery break first. -/
theorem test_third_timeout : (fun y : Port => (y.state, y.shift)) (portAfter (.replyTimeout 3)
    (part Channel.reset { asking with timeouts := 2 })) = (.down, some .brk) := by decide
theorem test_port_break : (portAfter (.portBreakDown 3) (part Channel.reset (up .primary))).state = .down := by decide
/-- R103: the probe ASK follows the break. -/
theorem test_break_end : (portAfter (.recoveryBreakEnd 3) (part Channel.reset (up .primary).fallen)).shift =
    some (.frame [0x96, 0x01, 0x15, 0x54]) := by decide
theorem test_probe_timer : (portAfter (.probeTimerExpiry 3)
    (part Channel.reset { (up .primary).fallen with shift := none, holding := none, probeTimer := some 0 })).shift =
    some (.frame [0x96, 0x01, 0x15, 0x54]) := by decide

/-- The state after one step. -/
def stepped (s : State) : State :=
  match step s with
  | .next t => t
  | _ => s

/-- Log entry 1: with no command waiting the blocks stand still; the queue is taken from the front. -/
theorem test_step_idle : (stepped State.reset).plant = State.reset.plant ∧ (stepped State.reset).ctl.tx = none := by decide
/-- R182: a waiting HALT is carried out in its turn, and its reply leaves. -/
theorem test_step_waiting : answer (stepped { State.reset with ctl := { ControlLine.reset with waiting := [.halt 7 (.sound 5)] } }) =
    some (.notConfigured, []) := by decide
/-- R182: while the interface is occupied a request waits, and nothing of it is carried out. -/
theorem test_request_waits : (after (.halt 7 (.sound 5)) { State.reset with ctl := { ControlLine.reset with occupied := true } }).ctl.waiting
    = [.halt 7 (.sound 5)] := by decide
theorem test_step_order : step { State.reset with pending := [.tagZeroFrame, .powerOn] } =
    .next { State.reset with pending := [.powerOn] } := by rfl

/-! ## For each statement with hypotheses, states and operands that meet them

One conjunct, or one line of one, for each clause, at a boundary value of its range. -/

/-- One event in the place of a hold entry. -/
def held (c : Chan) (seq : Nat) (k : HoldKind) : HoldEntry := ⟨c, seq, .drop 9, k, none⟩

/-- The part with these entries in the hold. -/
def partHold (x : Channel) (l : List HoldEntry) : State :=
  { part x Port.reset with plant := { (part x Port.reset).plant with hold := l } }

/-- The part with this control line. -/
def line (k : ControlLine) : State := { State.reset with ctl := k }

/-- A replica of channel 0 that is a change of the CURRENT one. -/
def withReplica (m : Mode) (r : Replica) : Channel := { chan m with replica := r }

theorem admits (x : Channel) (y : Port) : (part x y).Admits 1 ∧ (part x y).Admits 255 :=
  ⟨⟨by decide, by decide, (by decide : 0 < 4), rfl, rfl⟩, ⟨Nat.le_of_ble_eq_true rfl, Nat.lt_succ_self 255, (by decide : 0 < 4), rfl, rfl⟩⟩

theorem unshared_of {p : Plant} {i : PortNo} (h : (p.port i).claim = [] ∧ (p.port i).slotCue = none ∧
    (p.port i).slotPass = none ∧ (p.port i).grantHeld = false ∧ ∀ c, (p.chan c).portInUse ≠ some i) : p.Unshared i :=
  ⟨h.1, h.2.1, h.2.2.1, h.2.2.2.1, h.2.2.2.2⟩

theorem onlyFor_of {p : Plant} {i : PortNo} {c : Chan} (h : (p.port i).claim = [] ∧ (p.port i).slotCue = none ∧
    (p.port i).slotPass = none ∧ (p.port i).grantHeld = false ∧ ∀ d, d ≠ c → (p.chan d).portInUse ≠ some i) :
    p.OnlyFor i c :=
  ⟨h.1, h.2.1, h.2.2.1, h.2.2.2.1, h.2.2.2.2⟩

theorem witness_RefusalChangesNothing :
    (Instr.halt 255 (.sound 16)).request = some (255, 0x0A) ∧ (part (chan .idle) Port.reset).Admits 255 ∧
    portOf 19 = some 19 ∧ passCommand 5 .none = some .ask := by
  refine ⟨rfl, (admits _ _).2, ?_⟩
  decide

/-- Four requests waiting, and n BUSY replies stored. -/
def crowded (n : Nat) : ControlLine :=
  { ControlLine.reset with
    requests := List.replicate 4 ⟨1, 0x0A⟩, busy := List.replicate n ⟨2, 0x8A, .busy, [], .nothing⟩, tx := some sending }

/-- A queue of this many requests carried out and this many waiting. -/
def queued (done waiting : Nat) : ControlLine :=
  { crowded 0 with requests := List.replicate done ⟨1, 0x0A⟩, waiting := List.replicate waiting (.halt 9 (.sound 16)) }

theorem witness_RequestsTakeTheirTurn :
    (Instr.halt 1 (.sound 0)).request = some (1, 0x0A) ∧
    (∀ k ∈ [crowded 3, crowded 4, queued 0 4], 4 ≤ (line k).ctl.requests.length + (line k).ctl.waiting.length) ∧
    (line (crowded 3)).ctl.busy.length < 4 ∧ 4 ≤ (line (crowded 4)).ctl.busy.length ∧
    (∀ k ∈ [queued 2 1, { queued 3 0 with occupied := true }],
      (line k).ctl.requests.length + (line k).ctl.waiting.length < 4 ∧ ((line k).ctl.waiting ≠ [] ∨ (line k).ctl.occupied = true)) ∧
    (line (queued 0 0)).pending = [] ∧ (line (queued 0 0)).ctl.waiting = [] := by decide

/-- The head of the queue is a HALT, and then a RESET PART, each with a request behind it. -/
theorem witness_RequestsTakeTheirTurn_idle :
    (line (queued 1 2)).ctl.waiting = .halt 9 (.sound 16) :: [.halt 9 (.sound 16)] ∧
    (∃ t, exec (.halt 9 (.sound 16)) { line (queued 1 2) with ctl := { queued 1 2 with waiting := [], occupied := false } } = .next t) ∧
    (∀ tag, Instr.halt 9 (.sound 16) ≠ .resetPart tag (.sound ())) ∧
    (∃ t, exec (.resetPart 9 (.sound ())) (line { queued 1 0 with waiting := [], occupied := false }) = .next t) :=
  ⟨rfl, ⟨_, rfl⟩, fun tag h => (by cases h), ⟨_, rfl⟩⟩

theorem witness_FormIsJudgedFirst :
    (Instr.halt 0 (.sound 0)).request = some (0, 0x0A) ∧ (part (chan .idle) Port.reset).Admits 1 ∧
    (Instr.readAsRun 1 .faulty).request = some (1, 0x17) ∧ (Instr.editEventDelete 1 .faulty).request = some (1, 0x04) :=
  ⟨rfl, (admits _ _).1, rfl, rfl⟩

/-- A channel with a playlist and held entries, a command waiting. -/
def running : State := { partHold { chan .onLocal with playlist := [event 9] } [held 0 6 .deferred] with
  pending := [.halt 1 (.sound 0)] }

theorem running_steps : ∃ t, step running = .next t := ⟨_, rfl⟩

theorem running_control : running.ctl.Sound where
  requests := Nat.zero_le 4
  waiting := fun _ h => absurd h List.not_mem_nil
  busy := Nat.zero_le 4
  notices := Nat.zero_le 32
  order := .nil
  idle := fun _ => ⟨rfl, rfl, rfl⟩
  owed := rfl

theorem witness_StepKeepsOuterBounds : running.Sound ∧ ∃ t, step running = .next t := by
  refine ⟨{ ctl := running_control, log := ⟨Nat.zero_le 512, by decide, fun k h => absurd h (Nat.not_lt_zero k)⟩,
            back0 := ⟨.nil, fun _ => rfl⟩, back1 := ⟨.nil, fun _ => rfl⟩, outbox := rfl }, running_steps⟩

theorem witness_StepKeepsPool : running.plant.PoolSound ∧ ∃ t, step running = .next t :=
  ⟨⟨by decide, by decide, by decide⟩, running_steps⟩

theorem witness_StepKeepsHold : running.plant.HoldSound ∧ ∃ t, step running = .next t :=
  ⟨⟨by decide, by decide, by decide⟩, running_steps⟩

theorem witness_StepKeepsTemplates : running.plant.TemplatesSound ∧ ∃ t, step running = .next t := by
  refine ⟨?_, running_steps⟩
  unfold Plant.TemplatesSound
  decide

theorem witness_ResetPartKeepsSwitches :
    (part { chan .onLocal with switch := .filler } Port.reset).Admits 255 ∧
    ((part { chan .onLocal with switch := .filler } Port.reset).plant.chan 0).switch ≠ .main ∧
    ((part { chan .onLocal with switch := .filler } Port.reset).plant.chan 15).switch = .main ∧
    (part { chan .onLocal with switch := .filler } Port.reset).plant.config 0 = some conf ∧
    ∀ c g, (part { chan .onLocal with switch := .filler } Port.reset).plant.config c = some g → g.reference ≠ .b := by
  refine ⟨(admits _ _).2, by decide, by decide, by decide, fun c g h => ?_⟩
  have w : ∀ c, (part { chan .onLocal with switch := .filler } Port.reset).plant.config c = none ∨
      (part { chan .onLocal with switch := .filler } Port.reset).plant.config c = some conf := by decide
  rcases w c with k | k <;> rw [k] at h
  · cases h
  · cases h
    decide

/-- A notice of channel 0, of the lowest class. -/
def note : Notice := ⟨.dayRolled, some 0, [0, 101]⟩

theorem witness_ControlLineEvents :
    (line ControlLine.reset).ctl.tx = none ∧ (line (crowded 1)).ctl.tx = some sending ∧ (line (crowded 1)).ctl.busy ≠ [] ∧
    (line { crowded 0 with replies := [⟨2, 0x8A, .ok, [], .queued⟩] }).ctl.busy = [] ∧
    (line { crowded 0 with replies := [⟨2, 0x8A, .ok, [], .queued⟩] }).ctl.replies ≠ [] ∧
    (line { crowded 0 with notices := [note] }).ctl.notices = [note] ∧
    (line { crowded 0 with notices := [note] }).ctl.replies = [] ∧ (line (crowded 0)).ctl.notices = [] := by decide

/-- A fault of the control line: bytes that begin no good frame (no SYNC, a LEN of 1025, a CRC that is not that of the bytes),
and bytes of which the frame is not whole. -/
theorem witness_ControlLineEvents_fault :
    (0xA4 : Byte) ≠ 0xA5 ∧ 1024 < (4 : Byte).toNat * 256 + (1 : Byte).toNat ∧
    ([] : List Byte).length = (0 : Byte).toNat * 256 + (0 : Byte).toNat ∧
    u16 (crc16 [0x00, 0x00, 0x01, 0x18]).toNat ≠ [0x00, 0x00] ∧ [(0x00 : Byte)].length < 2 ∧
    (4 : Byte).toNat * 256 + (0 : Byte).toNat ≤ 1024 ∧
    (List.replicate 1027 (0x00 : Byte)).length < (4 : Byte).toNat * 256 + (0 : Byte).toNat + 4 := by decide +kernel

/-- The same with a good frame in it, its LEN 1024: of tag 0, for a queue with a place, and for a full one. -/
theorem witness_ControlLineEvents_found :
    255 < 256 ∧ (List.replicate 1024 (0x00 : Byte)).length ≤ 1024 ∧
    (line (queued 2 1)).ctl.requests.length + (line (queued 2 1)).ctl.waiting.length < 4 ∧
    4 ≤ (line (crowded 3)).ctl.requests.length + (line (crowded 3)).ctl.waiting.length ∧ (line (crowded 3)).ctl.busy.length < 4 ∧
    4 ≤ (line (crowded 4)).ctl.busy.length := by decide +kernel

theorem witness_NoticeJoinsByClass :
    ((List.replicate 31 note).Pairwise fun a b => a.kind.cls ≤ b.kind.cls) ∧ (List.replicate 31 note).length < 32 ∧
    ((List.replicate 32 note).Pairwise fun a b => a.kind.cls ≤ b.kind.cls) ∧ (List.replicate 32 note).length = 32 ∧
    (List.replicate 32 note).getLast? = some note ∧ NoticeKind.switch.cls < note.kind.cls := by decide

/-- A ring of n entries. -/
def ringOf (n : Nat) : List AsRunEntry := List.replicate n ⟨0, ⟨0, 9, ⟨0, ⟨0, 0, 0, 0⟩⟩, ⟨0, ⟨0, 0, 0, 0⟩⟩, none, .notAired, none⟩⟩

theorem witness_AsRunRingTakesEntries :
    (AsRunLog.mk (ringOf 511) 4294967294).ring.length ≤ 512 ∧ (AsRunLog.mk (ringOf 512) 4294967295).ring.length = 512 ∧
    (AsRunLog.mk (ringOf 511) 4294967294).index < 4294967295 ∧ (AsRunLog.mk (ringOf 512) 4294967295).index < 4294967296 := by
  decide +kernel

theorem witness_ReadsChangeOnlyWhatTheyClear :
    (part { chan .shadow with playlist := [event 9] } Port.reset).Admits 255 ∧ chanOf 0 = some 0 ∧ chanOf 15 = some 15 ∧
    (∃ e ∈ ((part { chan .shadow with playlist := [event 9] } Port.reset).plant.chan 0).playlist, e.id = 9) ∧
    (part { chan .shadow with playlist := [event 9] } Port.reset).plant.outbox = [] :=
  ⟨(admits _ _).2, by decide, by decide, ⟨event 9, by decide, by decide⟩, by decide⟩

/-- What the reads refuse: a channel above 15, and a starting event that is not on the playlist. -/
theorem witness_ReadsChangeOnlyWhatTheyClear_refused :
    (part { chan .shadow with playlist := [event 9] } Port.reset).Admits 1 ∧ 15 < 16 ∧ (8 ≠ 0) ∧
    ∀ e ∈ ((part { chan .shadow with playlist := [event 9] } Port.reset).plant.chan 0).playlist, e.id ≠ 8 :=
  ⟨(admits _ _).1, by decide, by decide, by decide⟩

theorem witness_BackChannelSendsInOrder :
    [BackRec.askFill 0 7, BackRec.askReload 0].Pairwise (fun x y => x.sameKind y = false) ∧
    (BackRec.askFill 0 8).sameKind (.askFill 0 7) = true ∧
    (∀ k ∈ [BackRec.askFill 0 7, BackRec.askReload 0], (BackRec.askFill 1 8).sameKind k = false) ∧
    (BackLink.mk [.askReload 1] (some (.askReload 0, []))).sending = some (.askReload 0, []) := by decide

/-! ### Chapter 1 -/

theorem witness_SetReferenceFollowsR2 :
    (part (chan .shadow) Port.reset).Admits 1 ∧ 1 < 2 ∧ 3 < 4 ∧ RefId.ofCode 1 = some .b ∧
    Family.ofCode 3 = some .f59df ∧ ((part (chan .shadow) Port.reset).plant.ref .a).family = .f25 ∧
    ((part (chan .shadow) Port.reset).plant.ref .a).family ≠ .f59df ∧
    (∃ c g, (part (chan .shadow) Port.reset).plant.config c = some g ∧ g.reference = .a ∧
      ((part (chan .shadow) Port.reset).plant.chan c).mode ≠ .idle) ∧
    (∀ c : Chan, ((part (chan .idle) Port.reset).plant.chan c).mode = .idle) :=
  ⟨(admits _ _).1, by decide, by decide, by decide, by decide, by decide, by decide,
    ⟨0, conf, by decide, by decide, by decide⟩, by decide⟩

theorem witness_LabelsCountsAndCtfsAgree :
    2589407 < Family.f29df.fpd ∧ (Label.mk 23 59 59 59).valid .f59df = true ∧ (Label.mk 23 59 59 59).dropped .f59df = false ∧
    (Label.mk 0 1 0 3).valid .f59df = true ∧ (Label.mk 0 1 0 3).dropped .f59df = true ∧
    8639999 < 4 * Family.f25.fpd ∧ (Label.mk 23 59 59 24).valid .f25 = true ∧ 2 = (65535 + 3) % 65536 ∧
    (∀ k, k < 4 → 3 ≠ (65535 + k) % 65536) := by decide

/-- The part with reference A so. -/
def partA (r : Reference) : State := partRef Channel.reset Port.reset r

theorem witness_PulseMovesLock_locked :
    ((partA locked).plant.ref .a).line ≤ 617 + 1 ∧ ((partA locked).plant.ref .a).lock = .locked ∧ Family.f25.lines = 625 ∧
    625 ≤ 617 + 8 ∧ 633 ≤ 625 + 8 ∧ 616 + 8 < 625 ∧ ((partA { locked with miss := 1 }).plant.ref .a).miss + 1 < 3 ∧
    2 ≤ ((partA { locked with miss := 2 }).plant.ref .a).miss := by decide

/-- The lines before a pulse: none left to raise, or some, with a switch line beyond the pulse, and with one raised before. -/
theorem witness_PulseMovesLock_lines :
    ((partA { locked with raised := 400, line := 401 }).plant.ref .a).line ≤ 400 + 1 ∧
    min 400 625 ≤ ((partA { locked with raised := 400, line := 401 }).plant.ref .a).raised ∧
    ((partA { locked with raised := 399, line := 400 }).plant.ref .a).raised < min 400 625 ∧
    (∀ c, (partA locked).plant.config c = none) ∧
    ∀ x ∈ [{ chan .shadow with lineInForce := 401 }, { chan .shadow with lineInForce := 399 }, chan .idle], ∀ c,
      ((partRef x (up .primary) locked).plant.chan c).mode = .idle ∨ ((partRef x (up .primary) locked).plant.chan c).lineInForce ≤ 399 ∨
        min 400 625 < ((partRef x (up .primary) locked).plant.chan c).lineInForce := by decide

/-- LOST with seven pulses in phase, the last of them at `o`. -/
def seven (o : Int) : Reference := { Reference.reset with run := 7, lastPulse := some o }

theorem witness_PulseMovesLock_lost :
    (∃ o : Int, ((partA (seven (-213))).plant.ref .a).lastPulse = some o ∧ o + 625 ≤ 404 + 8 ∧ (404 : Int) ≤ o + 625 + 8) ∧
    (8 = ((partA (seven (-213))).plant.ref .a).run + 1) ∧ 625 - 404 ≤ 404 ∧
    (∃ o : Int, ((partA (seven (-417))).plant.ref .a).lastPulse = some o ∧ o + 625 ≤ 200 + 8 ∧ (200 : Int) ≤ o + 625 + 8) ∧
    200 < 625 - 200 ∧
    (∀ o : Int, ((partA (seven (-213))).plant.ref .a).lastPulse = some o → ¬(o + 625 ≤ 403 + 8 ∧ (403 : Int) ≤ o + 625 + 8)) := by
  refine ⟨⟨-213, by decide, by decide, by decide⟩, by decide, by decide, ⟨-417, by decide, by decide, by decide⟩, by decide,
    fun o h => ?_⟩
  have w : ((partA (seven (-213))).plant.ref .a).lastPulse = some (-213) := by decide
  rw [w] at h
  cases h
  decide

/-- REPHASING, the frame to end at the pulse predicted at 825. -/
def rephasing : Reference := { locked with lock := .rephasing, predicted := 825 }

theorem witness_PulseMovesLock_rephasing :
    ((partA rephasing).plant.ref .a).lock = .rephasing ∧ ((partA rephasing).plant.ref .a).line ≤ 816 + 1 ∧
    825 ≤ 817 + 8 ∧ 833 ≤ 825 + 8 ∧ 816 + 8 < 825 := by decide

theorem witness_FramesEndWithoutPulse :
    ((partA { locked with miss := 1 }).plant.ref .a).lock = .locked ∧ ((partA { locked with miss := 1 }).plant.ref .a).miss < 2 ∧
    2 ≤ ((partA { locked with miss := 2 }).plant.ref .a).miss ∧ ((partA locked).plant.ref .a).label = none ∧
    ((partA { locked with lock := .rephasing }).plant.ref .a).lock = .rephasing ∧
    ((partA Reference.reset).plant.ref .a).lock = .lost ∧
    ((partA { locked with label := some ⟨0, 0, 0, 0⟩ }).plant.ref .a).label = some ⟨0, 0, 0, 0⟩ := by decide

/-- A reference with a label to examine, its offset seen n times. -/
def offsetBy (d : Int) (n : Nat) : Reference :=
  { locked with timeSet := true, station := 7, label := some ⟨0, 0, 0, 5⟩, offset := some d, offsetRun := n }

theorem witness_LabelsSetStationTime :
    (offsetBy (-2) 1).label = some ⟨0, 0, 0, 5⟩ ∧ (Label.mk 0 0 0 5).valid .f25 = true ∧ (Label.mk 0 0 0 5).dropped .f25 = false ∧
    { offsetBy 0 0 with timeSet := false }.timeSet = false ∧ ((Label.mk 0 0 0 5).count .f25 : Int) = { offsetBy 0 0 with station := 5 }.station ∧
    (-2 : Int) = ((Label.mk 0 0 0 5).count .f25 : Int) - (offsetBy (-2) 1).station ∧ (offsetBy (-1) 1).offset ≠ some (-2) ∧
    (offsetBy (-2) 1).offset = some (-2) ∧ (offsetBy (-2) 1).offsetRun < 2 ∧ (offsetBy (-2) 2).offsetRun = 2 ∧
    (-((offsetBy (-2) 2).family.fpd / 2 : Nat) ≤ (-2 : Int)) ∧ ((-2 : Int) ≤ ((offsetBy (-2) 2).family.fpd / 2 : Nat)) ∧
    (fun d : Int => decide (d = -2)) (-2) = true ∧
    ¬((-2 : Int) < 0 → (fun d : Int => decide (d = -1)) (-2) = true) ∧ 3 ≤ (offsetBy (-2) 3).offsetRun := by
  decide

/-- No label, one out of range and one that is dropped, with the time set and not; and a frame start at which time set has
changed, with a channel bound to the reference and one that is IDLE. -/
theorem witness_LabelsSetStationTime_none :
    (∀ r ∈ [{ offsetBy (-2) 2 with label := none }, { offsetBy (-2) 2 with label := some ⟨24, 0, 0, 0⟩ },
        { offsetBy (-2) 2 with label := some ⟨0, 1, 0, 0⟩, family := .f29df }],
      (∀ l, r.label = some l → l.valid r.family = false ∨ l.dropped r.family = true) ∧ r.timeSet = true ∧
      { r with timeSet := false }.timeSet = false) ∧
    (∀ r ∈ [{ offsetBy 0 0 with timeSet := false }, offsetBy (-2) 2],
      (partRef (chan .shadow) Port.reset r).plant.ref .a = r ∧
      ∃ y step, r.examine ((partRef (chan .shadow) Port.reset r).plant.stepAllowed .a) = (y, step)) ∧
    (Reference.examine { offsetBy 0 0 with timeSet := false } fun _ => true).1.timeSet = true ∧
    (Reference.examine (offsetBy (-2) 2) fun _ => false).1.faulty = true := by
  refine ⟨?_, fun r h => ⟨?_, _, _, rfl⟩, by decide, by decide⟩
  · intro r h
    simp only [List.mem_cons, List.not_mem_nil, or_false] at h
    rcases h with rfl | rfl | rfl <;>
    · refine ⟨fun l e => ?_, by decide, by decide⟩
      cases e <;> decide
  · rfl

theorem witness_DayRollShiftsChannel :
    ((part (chan .idle) Port.reset).plant.chan 0).mode = .idle ∧
    ((part { chan .shadow with now := 4319999 } Port.reset).plant.chan 0).now < 2 * Family.f25.fpd ∧
    ((part { chan .shadow with now := 4320000 } Port.reset).plant.chan 0).mode ≠ .idle ∧
    2 * Family.f25.fpd ≤ ((part { chan .shadow with now := 4320000 } Port.reset).plant.chan 0).now ∧
    ((part (chan .shadow) Port.reset).plant.family 0).fpd = 2160000 := by decide

theorem witness_FrameStartMovesNow :
    ((part { chan .shadow with now := 4319998 } Port.reset).plant.chan 0).mode ≠ .idle ∧
    ((((part { chan .shadow with now := 4319998 } Port.reset).plant.chan 0).now : Int) + 1 + (none : Option Int).getD 0 = (4319999 : Nat)) ∧
    4319999 < 2 * 2160000 ∧
    ((((part { chan .shadow with now := 4319998 } Port.reset).plant.chan 0).now : Int) + 1 + (some 1 : Option Int).getD 0 = (4320000 : Nat)) ∧
    2 * 2160000 ≤ 4320000 := by decide

/-- How a channel's frame start begins: without a step and with one, below the day roll and at it. -/
theorem witness_FrameStartMovesNow_begin :
    ∃ p : Plant, p = (part { chan .shadow with now := 4319998, pendingSw := [⟨.filler, 4319999, .portLoss, .plain⟩] } Port.reset).plant ∧
      (p.family 0).fpd = 2160000 ∧ (p.chan 0).mode ≠ .idle ∧
      ((p.chan 0).now : Int) + 1 + (none : Option Int).getD 0 = (4319999 : Nat) ∧
      ((p.chan 0).now : Int) + 1 + (some (-1) : Option Int).getD 0 = (4319998 : Nat) ∧ 4319999 < 2 * 2160000 ∧
      ((p.chan 0).now : Int) + 1 + (some 1 : Option Int).getD 0 = (4320000 : Nat) ∧ 2 * 2160000 ≤ 4320000 ∧
      (101 : Nat) = ((p.chan 0).baseDay + 1) % 65536 := by
  refine ⟨_, rfl, ?_⟩
  decide

/-- What the commands that end a frame ask of their reference, at the edges of the windows. -/
theorem witness_FrameStartMovesNow_commands :
    (∀ pos ∈ [617, 633], locked.line ≤ pos + 1 ∧ locked.lock = .locked ∧ 625 ≤ pos + 8 ∧ pos ≤ 625 + 8) ∧
    (∀ pos ∈ [817, 833], rephasing.line ≤ pos + 1 ∧ rephasing.lock = .rephasing ∧ rephasing.predicted ≤ pos + 8 ∧
      pos ≤ rephasing.predicted + 8) ∧
    (seven (-213)).lock = .lost ∧ 404 ≤ 625 ∧ 625 - 404 ≤ 404 ∧ (seven (-213)).run = 7 ∧ (seven (-213)).lastPulse = some (-213) ∧
    (-213 : Int) + 625 ≤ 404 + 8 ∧ (404 : Int) ≤ -213 + 625 + 8 := by
  decide

/-- And of a channel bound to it, which its switch lines leave out of IDLE, with a step that R14 allows or not. -/
theorem witness_FrameStartMovesNow_bound :
    ∃ s : State, s = partRef (chan .shadow) Port.reset { locked with timeSet := true } ∧
      (s.plant.raiseLines .a 625).config 0 = some conf ∧ conf.reference = .a ∧ ((s.plant.raiseLines .a 625).chan 0).mode ≠ .idle ∧
      ((after (.pulseWindowClose .a) s).plant.chan 0).mode ≠ .idle ∧
      (((s.plant.chan 0).now : Int) + 1 + (none : Option Int).getD 0 = (2160001 : Nat)) ∧ 2160001 < 2 * Family.f25.fpd ∧
      ((2160000 / 2 : Nat) : Int) ≤ ((((s.plant.raiseLines .a 625).chan 0).now : Int) + 1 + -1080001) ∧
      ¬((2160000 / 2 : Nat) : Int) ≤ ((((s.plant.raiseLines .a 625).chan 0).now : Int) + 1 + -1080002) ∧
      ∀ g, s.plant.config 1 = some g → g.reference ≠ .a := by
  refine ⟨_, rfl, ?_⟩
  have none_bound : (partRef (chan .shadow) Port.reset { locked with timeSet := true }).plant.config 1 = none := rfl
  simp only [none_bound]
  decide

/-! ### Chapter 3 -/

theorem witness_LinkSettingsAndEvents :
    (part Channel.reset Port.reset).Admits 1 ∧ Parity.ofCode 2 = some .even ∧ 2 < 3 ∧
    (∀ a ∈ [(⟨⟨1, 0⟩, ⟨65535, 2⟩, 50⟩ : SetLinksArgs), ⟨⟨65535, 1⟩, ⟨1, 2⟩, 5000⟩],
      1 ≤ a.l0.divisor ∧ a.l0.divisor ≤ 65535 ∧ 1 ≤ a.l1.divisor ∧ a.l1.divisor ≤ 65535 ∧ 50 ≤ a.heartbeat ∧ a.heartbeat ≤ 5000) ∧
    (∀ a ∈ [(⟨⟨0, 0⟩, ⟨1, 0⟩, 50⟩ : SetLinksArgs), ⟨⟨1, 0⟩, ⟨65536, 0⟩, 50⟩, ⟨⟨1, 0⟩, ⟨1, 0⟩, 49⟩, ⟨⟨1, 0⟩, ⟨1, 0⟩, 5001⟩],
      a.l0.divisor < 1 ∨ 65535 < a.l1.divisor ∨ a.heartbeat < 50 ∨ 5000 < a.heartbeat) ∧
    (State.reset.plant.link .l0).state ≠ .up ∧ (State.reset.plant.link .l0).state ≠ .down ∧
    ((after (.unknownRecordKind .l0) State.reset).plant.link .l0).state = .up ∧
    ((after (.linkBreakDown .l0) State.reset).plant.link .l0).state = .down := by
  refine ⟨(admits _ _).1, ?_⟩
  decide

/-- The plant after the good frame on L0. -/
def good (s : State) : Plant := s.plant.goodFrame .l0

theorem witness_WindowClasses :
    15 < 16 ∧ ((good (part (chan .idle) Port.reset)).chan 0).mode = .idle ∧
    ((good (part (withReplica .shadow Replica.reset) Port.reset)).chan 0).replica.state = .awaitBase ∧
    ((good (part (chan .shadow) Port.reset)).chan 0).mode ≠ .idle ∧
    ((good (part (chan .shadow) Port.reset)).chan 0).replica.state = .current ∧
    ((good (part (chan .shadow) Port.reset)).chan 0).replica.next = some 7 ∧ 32768 ≤ (32775 + 65536 - 7) % 65536 ∧
    (32774 + 65536 - 7) % 65536 ≤ 32767 ∧ 256 ≤ (263 + 65536 - 7) % 65536 ∧ (262 + 65536 - 7) % 65536 ≤ 255 ∧
    1 ≤ (8 + 65536 - 7) % 65536 ∧
    (∃ h ∈ (good (partHold (chan .shadow) [held 0 8 .early])).hold, h.channel = 0 ∧ h.seq = 8) ∧
    (∀ h ∈ (good (partHold (chan .shadow) [held 0 9 .early, held 1 8 .early])).hold, h.channel = 0 → h.seq ≠ 8) ∧
    32 ≤ (good (partHold (chan .shadow) (List.replicate 32 (held 0 9 .early)))).holdCount 0 .early ∧
    256 ≤ (good (partHold (chan .shadow) (List.replicate 256 (held 1 9 .early)))).hold.length ∧
    (good (partHold (chan .shadow) (List.replicate 31 (held 0 9 .early)))).holdCount 0 .early < 32 ∧
    (good (partHold (chan .shadow) (List.replicate 255 (held 1 9 .early)))).hold.length < 256 ∧
    ((good (part gapped Port.reset)).chan 0).replica.state = .gap := by decide +kernel

theorem witness_InOrderRecords :
    (∀ x ∈ [chan .shadow, { chan .onLocal with playlist := [event 9] }],
      ((good (part x Port.reset)).chan 0).mode ≠ .idle ∧ ((good (part x Port.reset)).chan 0).replica.state = .current ∧
      ((good (part x Port.reset)).chan 0).replica.next = some 7 ∧ ((good (part x Port.reset)).chan 0).replica.batch = none ∧
      (good (part x Port.reset)).holdCount 0 .early = 0) ∧
    Mode.shadow.deferral = false ∧ Mode.onLocal.deferral = true ∧
    (∃ st, plApply ((good (part (chan .shadow) Port.reset)).plEnv 0) [] 4096 (Rec.drop 9).op = .error st) ∧
    (∃ done, plApply ((good (part (chan .shadow) Port.reset)).plEnv 0) [] 4096 (Rec.put 0 (desc 9)).op = .ok done) ∧
    (∀ n ∈ [127, 128], ∃ p, p = good (partHold (chan .onLocal) (List.replicate n (held 0 9 .deferred))) ∧ p.hold.length < 256 ∧
      (p.holdCount 0 .deferred < 128 ↔ n = 127) ∧ (128 ≤ p.holdCount 0 .deferred ↔ n = 128)) ∧
    256 ≤ (good (partHold (chan .onLocal) (List.replicate 128 (held 0 9 .deferred) ++ List.replicate 128 (held 1 9 .deferred)))).hold.length := by
  refine ⟨by decide, by decide, by decide, ⟨_, rfl⟩, ⟨_, rfl⟩, ?_, by decide +kernel⟩
  intro n h
  simp only [List.mem_cons, List.not_mem_nil, or_false] at h
  rcases h with rfl | rfl <;> exact ⟨_, rfl, by decide +kernel⟩

/-- An EV PUT of sequence number 8 that came early. -/
def waitingPut : HoldEntry := ⟨0, 8, .put 0 (desc 9), .early, none⟩

/-- Channel 0 with a gap at 7, that record and others waiting. -/
def gapPart (others : List HoldEntry) : Plant :=
  good (partHold (withReplica .shadow { Replica.reset with state := .gap, next := some 7, gapTimer := some 0 }) (waitingPut :: others))

theorem witness_InOrderRecords_gap :
    (∀ others ∈ [[], [held 0 10 .early]],
      ((gapPart others).chan 0).mode ≠ .idle ∧ ((gapPart others).chan 0).replica.state = .gap ∧
      ((gapPart others).chan 0).replica.next = some 7 ∧ ((gapPart others).chan 0).replica.batch = none ∧
      others = (gapPart others).hold.filter (fun h => h.channel == 0 && h.kind == .early && !List.contains [waitingPut] h) ∧
      waitingPut ∈ (gapPart others).hold ∧ waitingPut.seq = (7 + 1 + 0) % 65536 ∧ waitingPut.kind = .early ∧
      (∀ h ∈ (gapPart others).hold, h.channel = 0 → h.kind = .early → ∀ k ∈ [waitingPut], h.seq = k.seq → h = k) ∧
      ∀ h ∈ others, h.seq ≠ (7 + 1 + [waitingPut].length) % 65536) ∧
    (gapPart []).PoolSound ∧ (gapPart []).Undisturbed 0 (Rec.wipe.op :: [waitingPut].map fun h => h.content.op) ∧
    ∃ list free, plGroups ((gapPart []).plEnv 0) (4 * ((gapPart []).family 0).fpd) ((gapPart []).chan 0).playlist
      (gapPart []).freeRecords ([Rec.wipe.op] :: [waitingPut].map fun h => [h.content.op]) = some (list, free) := by
  exact ⟨by decide, ⟨by decide, by decide, by decide⟩, .inl (.inr (by decide)), _, _, rfl⟩

/-- Steps issued, a head of event 9 due, and operations that leave it where it stands: an insertion, the deletion of another event,
and an emptying. -/
def headed (m : Mode) : State :=
  part { chan m with
    playlist := [event 9]
    seq := { Sequencer.reset with
      issuing := true, queue := [⟨9, 0, 0, true, 2160000, .always, .send .roll, .live⟩] } } Port.reset

theorem headed_undisturbed (m : Mode) : (headed m).plant.Undisturbed 0 [.insert 9 (desc 8), .delete 8, .empty] := by
  refine .inr fun o ho k hk => ?_
  have w : ∀ i, ((headed m).plant.port i).slotCue = none := by cases m <;> decide
  rcases hk with hk | ⟨i, hk⟩
  · have e : ((headed m).plant.chan 0).seq.queue = [⟨9, 0, 0, true, 2160000, .always, .send .roll, .live⟩] := by cases m <;> decide
    rw [e, List.mem_singleton] at hk
    subst hk
    simp only [List.mem_cons, List.not_mem_nil, or_false] at ho
    rcases ho with rfl | rfl | rfl <;> simp [PlOp.Hits]
  · rw [w i] at hk
    cases hk

theorem witness_InOrderRecords_undisturbed :
    (good (headed .shadow)).Undisturbed 0 [(Rec.put 9 (desc 8)).op] ∧ ¬(good (headed .shadow)).NoneDue 0 ∧
    ((good (headed .shadow)).chan 0).replica.next = some 7 ∧
    ∃ done, plApply ((good (headed .shadow)).plEnv 0) ((good (headed .shadow)).chan 0).playlist (good (headed .shadow)).freeRecords
      (Rec.put 9 (desc 8)).op = .ok done := by
  refine ⟨.inr fun o ho k hk => ?_, ?_, by decide, _, rfl⟩
  · refine (headed_undisturbed .shadow).resolve_left ?_ o (by simp_all [Rec.op]) k hk
    unfold Plant.NoneDue
    decide
  · unfold Plant.NoneDue
    decide

/-- Channel 0 with a batch of `count` open, `staged` of it staged. -/
def batched (m : Mode) (count staged : Nat) : Channel :=
  withReplica m { Replica.reset with state := .current, next := some 7, batch := some ⟨count, staged, 5, 0⟩ }

/-- The batch with this many staged entries, and so many deferred ones before it. -/
def batchHold (n k : Nat) : Plant :=
  good (partHold (batched .onLocal 64 64) (List.replicate n (held 0 6 .staged) ++ List.replicate k (held 0 3 .deferred)))

theorem witness_BatchFraming :
    (∀ x ∈ [chan .shadow, batched .shadow 64 63, batched .shadow 64 64, batched .onLocal 64 64],
      ((good (part x Port.reset)).chan 0).mode ≠ .idle ∧ ((good (part x Port.reset)).chan 0).replica.state = .current ∧
      ((good (part x Port.reset)).chan 0).replica.next = some 7 ∧ (good (part x Port.reset)).holdCount 0 .early = 0) ∧
    (chan .shadow).replica.batch = none ∧ (batched .shadow 64 63).replica.batch = some ⟨64, 63, 5, 0⟩ ∧
    (∀ n ∈ [1, 64], 1 ≤ n ∧ n ≤ 64) ∧ (∀ n ∈ [0, 65], n < 1 ∨ 64 < n) ∧ (Batch.mk 64 63 5 0).staged ≠ (Batch.mk 64 63 5 0).count ∧
    256 ≤ (good (partHold (batched .shadow 64 63) (List.replicate 256 (held 1 9 .deferred)))).hold.length ∧
    (good (partHold (batched .shadow 64 63) (List.replicate 255 (held 1 9 .deferred)))).hold.length < 256 ∧
    (batchHold 64 64).holdCount 0 .deferred + (batchHold 64 64).holdCount 0 .staged ≤ 128 ∧
    128 < (batchHold 64 65).holdCount 0 .deferred + (batchHold 64 65).holdCount 0 .staged := by decide +kernel

/-- The batch of two that a BATCH CLOSE applies, and one whose second operation the store refuses. -/
def closing (last : Rec) : Plant :=
  good (partHold (batched .shadow 2 2) [⟨0, 5, .put 0 (desc 9), .staged, some 5⟩, ⟨0, 6, last, .staged, some 5⟩])

/-- What is staged for channel 0. -/
def stagedIn (p : Plant) : List HoldEntry := p.hold.filter fun h => h.channel == 0 && h.kind == .staged

theorem witness_BatchFraming_applied :
    (closing .wipe).PoolSound ∧ Mode.shadow.deferral = false ∧
    (closing .wipe).Undisturbed 0 ((stagedIn (closing .wipe)).map fun h => h.content.op) ∧
    ∃ list free, plAfter ((closing .wipe).plEnv 0) ((closing .wipe).chan 0).playlist (closing .wipe).freeRecords
      ((stagedIn (closing .wipe)).map fun h => h.content.op) = some (list, free) :=
  ⟨⟨by decide, by decide, by decide⟩, rfl, .inl (.inr (by decide)), _, _, rfl⟩

theorem witness_BatchFraming_refused :
    ∃ list free st, plAfter ((closing (.drop 8)).plEnv 0) ((closing (.drop 8)).chan 0).playlist (closing (.drop 8)).freeRecords
        (((stagedIn (closing (.drop 8))).take 1).map fun h => h.content.op) = some (list, free) ∧
      plApply ((closing (.drop 8)).plEnv 0) list free (Rec.drop 8).op = .error st ∧
      (stagedIn (closing (.drop 8)))[1]?.map (·.content) = some (.drop 8) :=
  ⟨_, _, _, rfl, rfl, rfl⟩

theorem witness_BaseRestarts :
    ((good (part (chan .shadow) Port.reset)).chan 0).mode ≠ .idle ∧
    ((good (part (chan .shadow) Port.reset)).chan 0).replica.next = some 7 ∧ 32768 ≤ (6 + 65536 - 7) % 65536 ∧
    (32774 + 65536 - 7) % 65536 ≤ 32767 ∧ (withReplica .shadow Replica.reset).replica.state = .awaitBase ∧
    ((good (partHold (chan .onLocal) (List.replicate 255 (held 1 9 .deferred)))).hold.filter fun h => h.channel != 0).length < 256 := by
  decide +kernel

/-- Sixteen id fields, the first of them this one. -/
def idsOf (id : Option Nat) : List (Option Nat) := id :: List.replicate 15 none

theorem witness_PulseMovesAgreement :
    (idsOf (some 9)).length = 16 ∧ (good State.reset).pulseMem ≠ some 0 ∧
    (good (after (.pulse .l0 3 101 (idsOf none)) State.reset)).pulseMem = some 3 ∧
    ((good (part (chan .shadow) Port.reset)).chan 0).mode ≠ .idle ∧ (good (part (chan .shadow) Port.reset)).config 0 = some conf ∧
    (idsOf (some 9))[(0 : Chan).val]? = some (some 9) ∧ (idsOf none)[(15 : Chan).val]? = some none ∧
    (coverAt [event 9] 2161500).map (·.id) = some 9 ∧ (coverAt [event 9] 2161999).map (·.id) = some 9 ∧
    (∀ k ∈ ((good (part (chan .shadow) Port.reset)).chan 0).playlist, k.unmarked = true → k.id ≠ 9) ∧
    ((good (part (chan .shadow) Port.reset)).chan 0).watch.lastEnded = none := by decide

/-- An event that ends where event 9 starts, and one that starts where it ends. -/
def eventBefore : Event := { event 8 with rstart := 2161000, rend := 2161500 }
def eventAfter : Event := { event 7 with rstart := 2162000, rend := 2162500 }

/-- An id against its neighbours: the covering event between the two, at the edges of the tolerance; and no neighbour before it,
but the last ended event. -/
theorem witness_PulseMovesAgreement_neighbours :
    (∀ t ∈ [2161500, 2161510, 2161990, 2161999], coverAt [eventBefore, event 9, eventAfter] t = some (event 9)) ∧
    [eventBefore, event 9, eventAfter] = [eventBefore] ++ event 9 :: [eventAfter] ∧
    ([eventBefore, event 9, eventAfter].map (·.id)).Nodup ∧ conf.watch.agreeTol = 10 ∧
    (2161510 - (event 9).rstart ≤ 10 ∧ ¬2161511 - (event 9).rstart ≤ 10 ∧ (event 9).rend - 2161990 ≤ 10 ∧
      ¬(event 9).rend - 2161989 ≤ 10) ∧
    (eventBefore.unmarked = true ∧ eventBefore.rend = (event 9).rstart ∧ eventAfter.unmarked = true ∧
      eventAfter.rstart = (event 9).rend) ∧
    (∀ k ∈ ([] : List Event), k.unmarked = true → k.rend ≠ (event 9).rstart) ∧
    { Watch.reset with lastEnded := some (8, 2161500) }.lastEnded = some (8, (event 9).rstart) := by decide

/-- A gap, before event 9 and after it, at the edges of the tolerance; and the last ended event at its edge. -/
theorem witness_PulseMovesAgreement_gap :
    (∀ t ∈ [2161489, 2161490, 2161499, 2162000, 2162010, 2162011], coverAt [event 9] t = none) ∧
    (2161490 < (event 9).rstart ∧ (event 9).rstart ≤ 2161490 + 10 ∧ ¬(event 9).rstart ≤ 2161489 + 10) ∧
    ((event 9).rend ≤ 2162010 ∧ 2162010 ≤ (event 9).rend + 10 ∧ ¬2162011 ≤ (event 9).rend + 10) ∧
    (∃ t, { Watch.reset with lastEnded := some (8, 2161479) }.lastEnded = some (8, t) ∧ t ≤ 2161489 ∧ 2161489 ≤ t + 10) := by
  refine ⟨by decide, by decide, by decide, _, rfl, by decide, by decide⟩

/-- A third disagreement, with which DIVERGED is set. -/
theorem witness_PulseMovesAgreement_diverged :
    ∃ s : State, s = part { chan .shadow with watch := { Watch.reset with disagree := 2 } } Port.reset ∧
      ((after (.pulse .l0 3 101 (idsOf (some 9))) s).plant.chan 0).watch.diverged ≠ ((good s).chan 0).watch.diverged :=
  ⟨_, rfl, by decide⟩

theorem witness_ReplicaTimersAndReset :
    ((part gapped Port.reset).plant.chan 0).replica.gapTimer = some 0 ∧ 0 < 500 ∧ 500 ≤ 500 ∧
    ((part gapped Port.reset).plant.chan 0).replica.next = some 7 ∧ ((part gapped Port.reset).plant.chan 0).replica.state = .gap ∧
    ((part gapped Port.reset).plant.chan 0).replica.reloadTimer.isSome ∧ ((part gapped Port.reset).plant.chan 0).replica.batch.isSome ∧
    ((part (chan .shadow) Port.reset).plant.chan 0).replica.gapTimer = none ∧
    ((part (chan .shadow) Port.reset).plant.chan 0).replica.reloadTimer = none ∧
    ((part (chan .shadow) Port.reset).plant.chan 0).replica.batch = none ∧
    (after (.pulse .l0 3 101 (idsOf none)) State.reset).plant.heartbeat = .running 1000 ∧
    State.reset.plant.heartbeat = .stopped := by decide

theorem witness_ReplicaTimersAndReset_request :
    (part (chan .idle) Port.reset).Admits 1 ∧ 15 < 16 ∧
    (∀ m ∈ [Mode.idle, .confirming, .taking, .shadow, .onLocal, .returning, .orphaned],
      ((part (chan m) Port.reset).plant.chan 0).mode = m) ∧
    Mode.orphaned.deferral = true ∧ (chan .onLocal).replica.state = .current ∧
    (withReplica .onLocal Replica.reset).replica.state = .awaitBase := by
  refine ⟨(admits _ _).1, ?_⟩
  decide

/-- A CH WIPE taken by itself, and an EV PUT and a second record taken as a batch. -/
def wiped : HoldEntry := ⟨0, 5, .wipe, .deferred, none⟩
def batchPut : HoldEntry := ⟨0, 6, .put 0 (desc 9), .deferred, some 6⟩
def batchEnd (r : Rec) : HoldEntry := ⟨0, 7, r, .deferred, some 6⟩

/-- A channel whose return is due, these waiting. -/
def deferredPart (r : Rec) : Plant :=
  (partHold { chan .returning with now := 2161500, returnRec := some returnRec }
    [wiped, batchPut, held 1 3 .deferred, batchEnd r]).plant

/-- The groups in which they are applied. -/
def deferredGroups (r : Rec) : List (List HoldEntry) := [[wiped], [batchPut, batchEnd r]]

theorem deferred_grouped (r : Rec) :
    (∀ g ∈ deferredGroups r, (∃ h, g = [h] ∧ h.mark = none) ∨ (g ≠ [] ∧ ∃ k, ∀ h ∈ g, h.mark = some k)) ∧
    ∀ before g g' after, deferredGroups r = before ++ g :: g' :: after → ∀ h ∈ g, ∀ h' ∈ g', h.mark = none ∨ h.mark ≠ h'.mark := by
  constructor
  · intro g h
    simp only [deferredGroups, List.mem_cons, List.not_mem_nil, or_false] at h
    rcases h with rfl | rfl
    · exact .inl ⟨_, rfl, rfl⟩
    · exact .inr ⟨List.cons_ne_nil _ _, 6, by simp [batchPut, batchEnd]⟩
  · rintro (_ | ⟨x, before⟩) g g' after e h hg h' hg'
    · simp only [deferredGroups, List.nil_append, List.cons.injEq] at e
      obtain ⟨rfl, -, -⟩ := e
      rw [List.mem_singleton.mp hg]
      exact .inl rfl
    · have n := congrArg List.length e
      simp [deferredGroups] at n
      omega

theorem witness_DeferredAreApplied :
    (deferredPart (.drop 9)).PoolSound ∧
    (deferredPart (.drop 9)).Undisturbed 0 ((deferredGroups (.drop 9)).flatten.map fun h => h.content.op) ∧
    (deferredPart (.drop 9)).hold.filter (fun h => h.channel == 0 && h.kind == .deferred) = (deferredGroups (.drop 9)).flatten ∧
    ((deferredPart (.drop 9)).chan 0).mode = .returning ∧ ((deferredPart (.drop 9)).chan 0).seq.queue = [] ∧
    (∃ r, ((deferredPart (.drop 9)).chan 0).returnRec = some r ∧ r.state = .pending ∧ r.tRet ≤ ((deferredPart (.drop 9)).chan 0).now) ∧
    ∃ list free, plGroups ((deferredPart (.drop 9)).plEnv 0) (4 * ((deferredPart (.drop 9)).family 0).fpd)
      ((deferredPart (.drop 9)).chan 0).playlist (deferredPart (.drop 9)).freeRecords
      ((deferredGroups (.drop 9)).map fun g => g.map fun h => h.content.op) = some (list, free) := by
  exact ⟨⟨by decide, by decide, by decide⟩, .inl (.inr (by decide)), by decide, by decide, by decide, ⟨_, rfl, by decide⟩, _, _, rfl⟩

/-- The second record of the batch names an event that is not there. -/
theorem witness_DeferredAreApplied_refused :
    deferredGroups (.drop 8) = [[wiped]] ++ [batchPut, batchEnd (.drop 8)] :: [] ∧
    ((deferredPart (.drop 8)).chan 0).replica.state = .current ∧
    ∃ list free list' free' st,
      plGroups ((deferredPart (.drop 8)).plEnv 0) (4 * ((deferredPart (.drop 8)).family 0).fpd)
        ((deferredPart (.drop 8)).chan 0).playlist (deferredPart (.drop 8)).freeRecords
        ([[wiped]].map fun g => g.map fun h => h.content.op) = some (list, free) ∧
      plAfter ((deferredPart (.drop 8)).plEnv 0) list free (([batchPut, batchEnd (.drop 8)].take 1).map fun h => h.content.op) =
        some (list', free') ∧
      plApply ((deferredPart (.drop 8)).plEnv 0) list' free' (Rec.drop 8).op = .error st :=
  ⟨rfl, by decide, _, _, _, _, _, rfl, rfl, rfl⟩

/-! ### Chapter 2 -/

theorem witness_EditEventCarriesOut :
    (part (chan .onLocal) Port.reset).Admits 1 ∧ 15 < 16 ∧
    (∀ m ∈ [Mode.idle, .shadow, .confirming, .taking, .onLocal, .returning, .orphaned],
      ((part (chan m) Port.reset).plant.chan 0).mode = m) ∧
    (∃ st, plApply ((part (chan .onLocal) Port.reset).plant.plEnv 0) [] 4096 (.delete 9) = .error st) ∧
    (∃ done, plApply ((part (chan .onLocal) Port.reset).plant.plEnv 0) [] 4096 (.insert 0 (desc 9)) = .ok done) ∧
    (∃ done, plApply ((part (chan .onLocal) Port.reset).plant.plEnv 0) [event 9] 4095 (.delete 9) = .ok done) :=
  ⟨(admits _ _).1, by decide, by decide, ⟨_, rfl⟩, ⟨_, rfl⟩, ⟨_, rfl⟩⟩

/-- A head is due, and the insertion leaves it where it stands. -/
theorem witness_EditEventCarriesOut_undisturbed :
    (headed .onLocal).Admits 1 ∧ (headed .onLocal).plant.Undisturbed 0 [.insert 9 (desc 8)] ∧
    (part (chan .onLocal) Port.reset).plant.Undisturbed 0 [.delete 9] ∧
    ∃ done, plApply ((headed .onLocal).plant.plEnv 0) ((headed .onLocal).plant.chan 0).playlist (headed .onLocal).plant.freeRecords
      (.insert 9 (desc 8)) = .ok done := by
  refine ⟨(admits _ _).1, .inr fun o ho k hk => ?_, .inl (.inr (by decide)), _, rfl⟩
  refine (headed_undisturbed .onLocal).resolve_left ?_ o (by simp_all) k hk
  unfold Plant.NoneDue
  decide

/-- The operations' surroundings: base day 100, the floor at the start of day 101. -/
def env : PlEnv := ⟨.f25, 100, 2160000⟩

/-- The description without a label, following its predecessor. -/
def follower (id : Nat) : RawDesc := { desc id with rule := 2, start := none }

theorem witness_StoreOperations :
    ([event 9, event 8].map (·.id)).Nodup ∧ descSound .f25 { desc 7 with duration := 0 } = false ∧
    descSound .f25 (desc 7) = true ∧ (Label.mk 0 0 0 25).valid .f25 = false ∧ (Label.mk 0 1 0 0).valid .f25 = true ∧
    ctfOf .f25 100 ⟨104, ⟨0, 1, 0, 0⟩⟩ = none ∧
    (∃ a, checkDesc .f25 100 (desc 7) = .ok a) ∧ (∃ a, checkDesc .f25 100 (follower 7) = .ok a ∧ a.event.rule = .follow) ∧
    (∀ e ∈ [event 9], e.id ≠ 7) ∧ (∃ e ∈ [event 9], e.id = 9) ∧ 1024 ≤ (List.replicate 1024 (event 9)).length ∧
    (∀ k ∈ [event 9], k.cue = .pending) ∧ { event 8 with cue := .airing }.cue ≠ .pending :=
  ⟨by decide, by decide, by decide, by decide, by decide, by decide, ⟨_, rfl⟩, ⟨_, rfl, rfl⟩,
    by decide +kernel, ⟨event 9, by decide +kernel, rfl⟩, by decide +kernel, by decide +kernel, by decide⟩

/-- Replacement and deletion meet an event in every cue state, with a floor before its end and one at it. -/
theorem witness_StoreOperations_frozen :
    (∀ q ∈ [CueState.pending, .cueing, .rolling, .airing, .done, .skipped],
      [event 8, { event 9 with cue := q }] = [event 8] ++ { event 9 with cue := q } :: [] ∧ { event 9 with cue := q }.id = (desc 9).id) ∧
    env.floor < (event 9).rend ∧ (event 9).rend ≤ { env with floor := 2162000 }.floor := by decide

/-- A replacement of a frozen event that asks for its duration alone, taken as given at the floor and lengthened below it; and one
that asks for another clip. -/
theorem witness_StoreOperations_late :
    (∀ n ∈ [500, 499], ∃ a, checkDesc .f25 100 { desc 9 with duration := n } = .ok a ∧ a.event.kind = (event 9).kind ∧
      a.event.rule = (event 9).rule ∧ a.event.start = (event 9).start ∧ a.event.clip = (event 9).clip) ∧
    min (event 9).rend 2162000 - (event 9).rstart ≤ 500 ∧ ¬min (event 9).rend 2162000 - (event 9).rstart ≤ 499 ∧
    ∃ a, checkDesc .f25 100 { desc 9 with clip := some ⟨0, 1000, [0x42]⟩ } = .ok a ∧ a.event.clip ≠ (event 9).clip := by
  refine ⟨fun n h => ?_, by decide, by decide, _, rfl, by decide⟩
  simp only [List.mem_cons, List.not_mem_nil, or_false] at h
  rcases h with rfl | rfl <;> exact ⟨_, rfl, by decide⟩

/-- An AIRING event from 2,160,000 to 2,161,000. -/
def airing : Event := { event 5 with rstart := 2160000, rend := 2161000, duration := 1000, cue := .airing }

theorem witness_ResolutionKeepsOrder :
    (∀ e ∈ [airing, event 9], e.cue ≠ .pending → e.cue ≠ .skipped →
      e.eclipsed = false ∧ e.beyond = false ∧ e.rstart ≤ 8640000 ∧ ∀ k, e.cut = some k → e.rstart ≤ k) ∧
    ([airing, event 9].filter fun e => e.cue != .pending && e.cue != .skipped).Pairwise (fun a b => a.rstart ≤ b.rstart) ∧
    (∃ e ∈ resolveList 8640000 2160025 [airing, event 9], e.cue = .pending) := by
  refine ⟨?_, by decide, ⟨event 9, by decide, rfl⟩⟩
  intro e h h1 _
  simp only [List.mem_cons, List.not_mem_nil, or_false] at h
  rcases h with rfl | rfl
  · exact ⟨rfl, rfl, by decide, by intro k h; cases h⟩
  · exact absurd rfl h1

/-- A FIXED_HARD event at 2,160,500 and one that FOLLOWs. -/
def hard : Event := { event 6 with rule := .fixedHard, labelCtf := some 2160500 }
def following : Event := newEvent (follower 7) none none

theorem witness_PassPlacesLastEvent :
    following.cue = .pending ∧ following.rule = .follow ∧ (event 9).rule = .fixedSoft ∧ (event 9).labelCtf = some 2161500 ∧
    hard.cue = .pending ∧ hard.rule = .fixedHard ∧ hard.labelCtf = some 2160500 ∧
    (∀ k ∈ resolveList 8640000 2160025 [], k.cue ≠ .skipped ∧ k.rend ≤ 2160500) ∧
    (∀ k ∈ resolveList 8640000 2160025 [{ airing with duration := 500 }],
      k.cue ≠ .skipped ∧ k.rend ≤ 2160500 ∧ k.rend ≤ 8640000 ∧ (k.cue = .pending → k.rstart < 2160500)) ∧
    8639999 < 8640000 ∧ airing.cue ≠ .skipped ∧ airing.cue ≠ .pending ∧ { airing with cue := .skipped }.cue = .skipped ∧
    (∀ k ∈ resolveList 8640000 2160025 [{ airing with rstart := 2159000, duration := 1000 }],
      k.rend ≤ airing.rstart ∧ (k.cue = .pending → k.rstart < airing.rstart)) := by decide

theorem witness_HardStartCuts_pending :
    ∃ k e, resolveList 8640000 2160025 [{ event 8 with labelCtf := some 2160100 }, following] = [] ++ k :: [e] ∧
      2160500 = max 2160500 2160025 ∧ 2160500 < k.rend ∧ k.cue = .pending ∧ k.eclipsed = false ∧ k.rstart < 2160500 ∧
      e.cue = .pending ∧ e.eclipsed = false ∧ 2160500 ≤ e.rstart ∧ 2160500 < 8640000 :=
  ⟨_, _, rfl, by decide, by decide, by decide, by decide, by decide, by decide,
    by decide, by decide, by decide⟩

theorem witness_HardStartCuts_frozen :
    ∃ k, resolveList 8640000 2160600 [airing] = [] ++ k :: [] ∧ k.cue = .airing ∧ 2160600 = max 2160500 2160600 ∧
      2160600 = max 2160600 (max (k.rstart + 1) 2160600) ∧ 2160600 < k.rend :=
  ⟨_, rfl, by decide, by decide, by decide, by decide⟩

/-! ### Chapter 4 -/

theorem witness_ScoreFollowsR79 :
    (part (chan .shadow) Port.reset).plant.config 0 = some conf ∧
    0 < conf.watch.weights.noProbe ∧ ((part (chan .shadow) Port.reset).plant.chan 0).watch.score ≤ 255 ∧
    (conf.watch.weights.noSignal ≤ 15 ∧ conf.watch.weights.siteSilent ≤ 15) ∧
    (((part { chan .shadow with watch := { Watch.reset with score := 90 } } Port.reset).plant.evaluateWatch 0).chan 0).watch.health ≠
      ((part { chan .shadow with watch := { Watch.reset with score := 90 } } Port.reset).plant.chan 0).watch.health := by
  decide

/-- A probe record with a usable label. -/
def labelled (ff : Nat) : Probe := ⟨true, false, false, false, true, ⟨0, 0, 0, ff⟩⟩

theorem witness_EvaluationFollowsRules :
    Watch.reset.latch = none ∧ { Watch.reset with latch := some (labelled 24) }.latch = some (labelled 24) ∧
    (labelled 24).label.valid .f25 = true ∧ (labelled 25).label.valid .f25 = false ∧ (labelled 24).label.dropped .f25 = false ∧
    { Watch.reset with history := List.replicate 15 ⟨.empty, 0⟩ }.history.length < 16 ∧
    { Watch.reset with history := List.replicate 16 ⟨.empty, 0⟩ }.history.length = 16 ∧
    Watch.reset.health = .unknown ∧ (evaluate .f25 { conf.watch with warmUp := 2 } false Watch.reset).warm < 2 ∧
    conf.watch.warmUp ≤ (evaluate .f25 conf.watch false Watch.reset).warm ∧
    conf.watch.failAt ≤ (evaluate .f25 conf.watch false { Watch.reset with score := 96, health := .degraded }).score ∧
    conf.watch.degradeAt ≤ (evaluate .f25 conf.watch false { Watch.reset with score := 36, health := .healthy }).score ∧
    (evaluate .f25 conf.watch false { Watch.reset with score := 0, health := .healthy }).score < conf.watch.degradeAt ∧
    (evaluate .f25 conf.watch false { Watch.reset with score := 0, health := .failed }).score ≤ conf.watch.recoverAt ∧
    conf.watch.recoverAt < (evaluate .f25 conf.watch false { Watch.reset with score := 90, health := .failed }).score := by
  decide

/-- Watch parameters in which a missing label weighs nothing. -/
def lenient : WatchParams := { conf.watch with weights := { conf.watch.weights with tcLoss := 0 } }

/-- A failed channel whose records show a clean picture without a label. -/
def cleanRun : Nat → Watch
  | 0 => { Watch.reset with health := .failed, score := 100 }
  | n + 1 => evaluate .f25 lenient false { cleanRun n with latch := some ⟨true, false, false, false, false, ⟨0, 0, 0, 0⟩⟩ }

theorem witness_CleanFramesLeaveFailed :
    1 ≤ lenient.recovery ∧ lenient.recoverAt < lenient.failAt ∧ (cleanRun 0).health = .failed ∧
    (cleanRun 0).score = lenient.failAt ∧
    ∀ k, ∃ silent latch, cleanRun (k + 1) = evaluate .f25 lenient silent { cleanRun k with latch := latch } ∧
      (cleanRun (k + 1)).conds.weight lenient.weights = 0 :=
  ⟨by decide, by decide, by decide, by decide, fun k =>
    ⟨false, some ⟨true, false, false, false, false, ⟨0, 0, 0, 0⟩⟩, rfl, rfl⟩⟩

theorem witness_EvaluationFollowsRules_probe :
    15 < 16 ∧ ((part (chan .idle) Port.reset).plant.chan 0).mode = .idle ∧
    ((part (chan .shadow) Port.reset).plant.chan 0).mode ≠ .idle ∧
    ((part (chan .shadow) Port.reset).plant.chan 0).watch.latch = none ∧
    ((after (.probeRecord 0 probe) (part (chan .shadow) Port.reset)).plant.chan 0).watch.latch ≠ none := by decide

/-- A frame start whose evaluation changes the health, and one whose does not. -/
theorem witness_EvaluationFollowsRules_frame :
    (∃ p : Plant, p = (part { chan .shadow with watch := { Watch.reset with score := 90 } } Port.reset).plant ∧
      (p.chan 0).watch.health ≠ ((p.evaluateWatch 0).chan 0).watch.health) ∧
    ∃ p : Plant, p = (part { chan .shadow with watch := { Watch.reset with score := 60, health := .degraded } } Port.reset).plant ∧
      (p.chan 0).watch.health = ((p.evaluateWatch 0).chan 0).watch.health := by
  exact ⟨⟨_, rfl, by decide⟩, ⟨_, rfl, by decide⟩⟩

/-! ### Chapter 5 -/

/-- SET PORT of port 19 with every field at its least value. -/
def leastPort : SetPortArgs := ⟨19, 0, 1, 0, 1, 0, 0⟩

theorem witness_SetPortTakesEffect_refused :
    (part (chan .shadow) (up .primary)).Admits 1 ∧
    (∀ a ∈ [{ leastPort with port := 20 }, { leastPort with divisor := 0 }, { leastPort with divisor := 65536 },
        { leastPort with replyTimeout := 0 }, { leastPort with replyTimeout := 1001 }, { leastPort with retries := 4 },
        { leastPort with preroll := 301 }, { leastPort with role := 3 }],
      19 < a.port ∨ 2 < a.role ∨ a.divisor < 1 ∨ 65535 < a.divisor ∨ a.replyTimeout < 1 ∨ 1000 < a.replyTimeout ∨
        3 < a.retries ∨ 300 < a.preroll) ∧
    (∃ c, (part (chan .shadow) (up .primary)).plant.primary c = some 3 ∧
      ((part (chan .shadow) (up .primary)).plant.chan c).mode ≠ .idle) ∧
    Role.ofCode 2 = some .off ∧ Role.off ≠ .primary ∧ { up .spare with holder := some 1 }.holder.isSome := by
  refine ⟨(admits _ _).1, by decide, ⟨0, ?_⟩, ?_⟩ <;> decide

theorem witness_SetPortTakesEffect_values :
    (part Channel.reset (up .spare)).Admits 1 ∧ (3 : Nat) = (3 : PortNo).val ∧ Role.ofCode 0 = some .primary ∧
    Parity.ofCode 2 = some .even ∧ (1 ≤ 65535 ∧ 1000 ≤ 1000 ∧ 3 ≤ 3 ∧ 300 ≤ 300) := by
  refine ⟨(admits _ _).1, ?_⟩
  decide

/-- SPARE to PRIMARY, and to OFF; PRIMARY to SPARE; and OFF to another role. -/
theorem witness_SetPortTakesEffect :
    (∀ y ∈ [up .spare, up .primary, Port.reset], ∃ p, p = (part Channel.reset y).plant ∧
      (∀ c, p.primary c = some 3 → (p.chan c).mode = .idle) ∧ (p.port 3).holder = none ∧ (p.port 3).outstanding = none ∧
      p.spareQueue = [] ∧ p.Unshared 3) ∧
    (up .spare).role = .spare ∧ (up .primary).role = .primary ∧ Port.reset.role = .off := by
  refine ⟨fun y h => ⟨_, rfl, ?_⟩, by decide⟩
  simp only [List.mem_cons, List.not_mem_nil, or_false] at h
  rcases h with rfl | rfl | rfl <;> exact ⟨by decide, rfl, rfl, rfl, unshared_of (by decide)⟩

/-- A primary port that a channel works with, and a spare that one holds, keep their roles. -/
theorem witness_SetPortTakesEffect_used :
    ((part (chan .onLocal) (up .primary)).plant.port 3).role = .primary ∧ (part (chan .onLocal) (up .primary)).plant.primary 0 = some 3 ∧
    ((part (chan .onLocal) (up .primary)).plant.port 3).holder = none ∧
    ((part Channel.reset { up .spare with holder := some 1 }).plant.port 3).role = .spare ∧
    ∀ c, (part Channel.reset { up .spare with holder := some 1 }).plant.primary c ≠ some 3 := by decide

theorem witness_PassThroughIsPlaced :
    (part Channel.reset (up .primary)).Admits 255 ∧ (part Channel.reset asking).plant.Unshared 3 ∧ 19 < 20 ∧
    passCommand 6 .none = none ∧ passCommand 5 .none = some .ask ∧
    ((part Channel.reset Port.reset).plant.port 3).state = .off ∧ ((part Channel.reset (up .primary)).plant.port 3).state = .up ∧
    ((part Channel.reset (up .primary).fallen).plant.port 3).state = .down ∧
    (∀ i : PortNo, (part Channel.reset (up .primary)).ctl.passTable[i.val] = none) ∧
    (after (.passThrough 1 (.sound ⟨3, 5, .none⟩)) (part Channel.reset (up .primary))).ctl.passTable[3] ≠ none ∧
    ((part Channel.reset (up .primary)).plant.port 3).outstanding = none ∧ ((part Channel.reset (up .primary)).plant.port 3).shift = none ∧
    ((part Channel.reset asking).plant.port 3).outstanding ≠ none := by
  refine ⟨(admits _ _).2, unshared_of ?_, ?_⟩ <;> decide

/-- A DOWN port whose probe awaits its reply. -/
def probed : Port := { (up .primary).fallen with shift := none, holding := none, probeTimer := some 0 }

theorem witness_DeviceLineEvents :
    (part Channel.reset asking).plant.Unshared 3 ∧ (part Channel.reset probed).plant.Unshared 3 ∧
    (∀ b, asking.shift ≠ some (.frame b)) ∧ ({ asking with shift := some (.frame []) }.shift = some (.frame [])) ∧
    (up .primary).fallen.shift = some .brk ∧ asking.shift ≠ some .brk ∧
    ((part Channel.reset probed).plant.port 3).state = .down ∧ probed.probeTimer ≠ none ∧ probed.shift = none ∧
    (up .primary).fallen.probeTimer = none ∧ Port.reset.state = .off ∧ (up .primary).outstanding = none ∧
    ((part Channel.reset asking).plant.port 3).state = .up ∧ asking.replyTimer ≠ none ∧ asking.shift = none ∧
    asking.outstanding = some ⟨.ask, .pass⟩ ∧ { asking with tryRetries := 1 }.attempt ≤ { asking with tryRetries := 1 }.tryRetries ∧
    asking.tryRetries < asking.attempt ∧ asking.timeouts ≠ 2 ∧ (∀ k ∈ asking.failures, k = .garbled) ∧
    { asking with outstanding := some ⟨.roll, .pass⟩ }.outstanding = some ⟨.roll, .pass⟩ ∧
    (part Channel.reset probed).plant.spareQueue = [] := by
  refine ⟨unshared_of ?_, unshared_of ?_, (fun b h => by cases h), ?_⟩ <;> decide

/-- Port 3, a command of channel 0's Cue Sequencer, an entry's ROLL or a VERIFY's ASK, outstanding on it. -/
def cueAsking (k : DevCmd) : Port :=
  { asking with outstanding := some ⟨k, .cue 0 ⟨9, 0, 0, true, 2160000, .always, .send k, .live⟩⟩ }

/-- The channel works with the port; or with another, and none of its steps are due. -/
theorem witness_DeviceLineEvents_cue :
    (∀ k ∈ [DevCmd.roll, .ask], (part (chan .onLocal) (cueAsking k)).plant.OnlyFor 3 0 ∧
      (part { chan .onLocal with portInUse := none } (cueAsking k)).plant.OnlyFor 3 0 ∧
      (part { chan .onLocal with portInUse := none } (cueAsking k)).plant.NoneDue 0 ∧ (cueAsking k).state = .up ∧
      (cueAsking k).replyTimer ≠ none ∧ (∃ e, (cueAsking k).outstanding = some ⟨k, .cue 0 e⟩) ∧
      (cueAsking k).tryRetries < (cueAsking k).attempt ∧ (cueAsking k).timeouts ≠ 2 ∧ ∀ f ∈ (cueAsking k).failures, f = .garbled) ∧
    ((chan .onLocal).portInUse = some 3 ∧ (chan .onLocal).mode ≠ .idle) ∧ { chan .onLocal with portInUse := none }.portInUse ≠ some 3 := by
  refine ⟨fun k h => ⟨onlyFor_of ?_, onlyFor_of ?_, .inl rfl, rfl, ?_, ⟨_, rfl⟩, ?_⟩, by decide⟩
  all_goals (simp only [List.mem_cons, List.not_mem_nil, or_false] at h; rcases h with rfl | rfl <;> decide)

/-- The last attempt of a command is garbled, another having had no reply; and a command of a Changeover list in each purpose. -/
theorem witness_DeviceLineEvents_lists :
    (∃ x, x = { asking with failures := [.noReply], tryRetries := 1, attempt := 2 } ∧ x.tryRetries < x.attempt ∧ x.timeouts ≠ 2 ∧
      .noReply ∈ x.failures ∧ x.outstanding = some ⟨.ask, .pass⟩ ∧ (part Channel.reset x).plant.Unshared 3) ∧
    (∀ u ∈ [Purpose.verify, .join, .stop], ∀ live ∈ [true, false],
      { asking with outstanding := some ⟨.ask, .changeover 0 u live⟩ }.outstanding = some ⟨.ask, .changeover 0 u live⟩) ∧
    (chan .idle).mode = .idle ∧ (chan .taking).mode ≠ .idle ∧ (∀ f, DevCmd.roll ≠ .point f) := by
  refine ⟨⟨_, rfl, by decide, by decide, by decide, rfl, unshared_of (by decide)⟩, ?_, by decide, by decide, fun f h => by cases h⟩
  decide

theorem witness_DeviceLineEvents_down :
    (part Channel.reset asking).plant.Unshared 3 ∧ (part Channel.reset { asking with timeouts := 2 }).plant.Unshared 3 ∧
    Port.reset.state ≠ .up ∧ asking.state = .up ∧ asking.outstanding = some ⟨.ask, .pass⟩ ∧ asking.replyTimer ≠ none ∧
    asking.tryRetries < asking.attempt ∧ { asking with timeouts := 2 }.timeouts = 2 ∧ asking.role ≠ .spare := by
  refine ⟨unshared_of ?_, unshared_of ?_, ?_⟩ <;> decide

/-- A spare lent to an ORPHANED channel, and one lent to a channel that is not. -/
def lent : Port := { asking with role := .spare, holder := some 0 }

theorem witness_DeviceLineEvents_holder :
    (part { chan .orphaned with portInUse := none } lent).plant.Unshared 3 ∧
    ((part { chan .orphaned with portInUse := none } lent).plant.chan 0).mode = .orphaned ∧ lent.role = .spare ∧
    lent.holder = some 0 ∧ lent.outstanding = some ⟨.ask, .pass⟩ ∧
    (part { chan .onLocal with portInUse := none } lent).plant.Unshared 3 ∧
    ((part { chan .onLocal with portInUse := none } lent).plant.chan 0).mode ≠ .orphaned := by
  refine ⟨unshared_of ?_, ?_, ?_, ?_, ?_, unshared_of ?_, ?_⟩ <;> decide

/-- The plant with channel 0 so, and port 18, of its spare set, so. -/
def sparePart (x : Channel) (z : Port) : Plant := (part x (up .primary)).plant.setPort 18 z

theorem witness_SparesAreLent :
    (sparePart (chan .onLocal) (up .spare)).chan 0 = chan .onLocal ∧ (chan .onLocal).config = some conf ∧
    conf.spares.testBit (18 : PortNo).val = true ∧
    (((sparePart (chan .onLocal) (up .spare)).port 18).role = .spare ∧ ((sparePart (chan .onLocal) (up .spare)).port 18).state = .up) ∧
    (∀ i, ((sparePart (chan .onLocal) (up .spare)).port i).holder ≠ none → False) ∧
    (∀ j : PortNo, j.val < 18 → ((sparePart (chan .onLocal) (up .spare)).port j).role ≠ .spare) ∧
    0 ∉ (sparePart (chan .onLocal) (up .spare)).spareQueue ∧ (∀ i, ((sparePart (chan .onLocal) Port.reset).port i).role ≠ .spare) ∧
    (∀ m ∈ [Mode.taking, .onLocal, .returning, .orphaned], ((sparePart (chan m) (up .spare)).chan 0).mode = m) ∧
    ((sparePart (chan .onLocal) { up .spare with holder := some 0 }).port 18).holder = some 0 ∧
    ∀ j, ((sparePart (chan .onLocal) { up .spare with holder := some 0 }).port j).holder = some 0 → j = 18 := by decide

/-- Channel 1, which has no spare set, waits before channel 0. -/
theorem witness_SparesAreLent_queue :
    ∃ p : Plant, p = { sparePart (chan .onLocal) (up .spare) with spareQueue := [1, 0, 2] } ∧ p.spareQueue = [1] ++ 0 :: [2] ∧
      ∀ d ∈ ([1] : List Chan), ∀ k, p.config d = some k → k.spares.testBit 18 = false := by
  refine ⟨_, rfl, rfl, fun d h k w => ?_⟩
  rw [List.mem_singleton.mp h] at w
  cases w

/-! ### Chapter 6 -/

theorem witness_SetTemplateLoads :
    (part Channel.reset Port.reset).Admits 1 ∧ 31 < 32 ∧ 8 < (List.replicate 9 rawStep).length ∧
    (∀ r ∈ [{ rawStep with offset := -3001 }, { rawStep with offset := 3001 }], r.offset < -3000 ∨ 3000 < r.offset) ∧
    15 < { rawStep with repeats := 16 }.repeats ∧ { rawStep with spacing := 0 }.spacing < 1 ∧
    255 < { rawStep with spacing := 256 }.spacing ∧ 2 < { rawStep with anchor := 3 }.anchor ∧
    5 < { rawStep with condition := 6 }.condition ∧ 1 < { rawStep with kind := 2 }.kind ∧
    ({ rawStep with kind := 1 }.kind = 1 ∧ { rawStep with kind := 1 }.command ≠ none) ∧
    (∃ r ∈ [{ rawStep with spacing := 0 }], stepOf r = none) ∧ List.replicate 8 rawStep ≠ [] ∧
    (List.replicate 8 rawStep).length ≤ 8 ∧
    (List.replicate 8 rawStep).map stepOf = (List.replicate 8 (⟨.sendRoll, .start, 0, .always, 0, 1⟩ : Step)).map some := by
  refine ⟨(admits _ _).1, ?_⟩
  decide

theorem witness_SetTemplateLoads_names :
    ∃ names : Event → Bool, ∀ e : Event, names e = true ↔ e.cue = .pending ∧ ∃ k, e.clip = some k ∧ k.template = 31 := by
  refine ⟨fun e => e.cue == .pending && (e.clip.any fun k => k.template == 31), fun e => ?_⟩
  rcases h : e.clip with _ | k <;> simp [h]

/-- Steps read from their fields, one of each kind at the edges of its values. -/
theorem witness_SetTemplateLoads_fields :
    (∀ r ∈ [{ rawStep with offset := -3000, repeats := 15, spacing := 255, anchor := 2, condition := 5 },
        { rawStep with command := some 4, argument := some 3, constant := some (List.replicate 8 0) },
        { rawStep with kind := 1, command := none, argument := none, expected := some 4, clipMatch := some 1, onMismatch := some 2 }],
      (stepOf r).isSome) ∧
    stepOf { rawStep with command := some 4, argument := some 3, constant := some (List.replicate 9 0) } = none := by decide

/-- No channel has a head due, or none of its entries is of the template. -/
theorem witness_SetTemplateLoads_undisturbed :
    (∀ c, (part Channel.reset Port.reset).plant.NoneDue c) ∧
    ∀ k ∈ ((headed .onLocal).plant.chan 0).seq.queue,
      ¬(k.standing = .live ∧ ∃ e ∈ ((headed .onLocal).plant.chan 0).playlist,
        (e.cue == .pending && e.clip.any fun k => k.template == 31) = true ∧ e.id = k.event) := by
  unfold Plant.NoneDue
  decide

theorem witness_HaltAndResume :
    (part (chan .idle) Port.reset).Admits 1 ∧ 15 < 16 ∧ ((part (chan .idle) Port.reset).plant.chan 0).mode = .idle ∧
    ((part (chan .shadow) Port.reset).plant.chan 0).mode ≠ .idle ∧ (chan .shadow).seq.halted = false ∧
    { Sequencer.reset with halted := true }.halted = true ∧ (chan .shadow).mode.running = false ∧
    (chan .onLocal).mode.running = true ∧ (chan .onLocal).portInUse = some 3 ∧
    ((part (chan .onLocal) (up .primary)).plant.port 3).state = .up := by
  refine ⟨(admits _ _).1, ?_⟩
  decide

/-- Channel 0 with event 9 covering the frame at which a cold join from now would be on air. -/
def joining (m : Mode) : Channel := { chan m with now := 2161475, playlist := [event 9] }

/-- Running locally, its sequencing halted, on a primary port that is DOWN. -/
def haltedDown : Plant :=
  (part { joining .onLocal with seq := { Sequencer.reset with halted := true } } (up .primary).fallen).plant

theorem witness_HaltAndResume_down :
    ((haltedDown.chan 0).mode.running = true ∧ (haltedDown.chan 0).seq.halted = true ∧ (haltedDown.chan 0).config = some conf) ∧
    (haltedDown.chan 0).portInUse = some conf.primary ∧ (haltedDown.port 3).state ≠ .up ∧
    2161500 = (haltedDown.chan 0).now + conf.cueLead + (haltedDown.port 3).preroll ∧
    (∃ e ∈ (haltedDown.chan 0).playlist, coverAt (haltedDown.chan 0).playlist 2161500 = some e ∧
      joinRefusal conf.tailGuard 2161500 e = none) ∧
    0 ∉ haltedDown.spareQueue ∧ (∀ j, (haltedDown.port j).holder ≠ some 0) ∧ ∀ j, (haltedDown.port j).role ≠ .spare := by decide

/-- A step entry of event 9, step 0, live. -/
def entry (a : EntryAction) (last : Bool) : StepEntry := ⟨9, 0, 0, last, 2160000, .always, a, .live⟩

/-- An event past, and event 9, on which the cursor stands, two repetitions of its template's one step due. -/
def stepping : Plant :=
  { (part { chan .onLocal with
      now := 2161501, playlist := [{ event 8 with cue := .airing }, event 9], seq := { Sequencer.reset with cursor := some 9 } }
      (up .primary)).plant with
    templates := Plant.reset.templates.set 0 [⟨.sendRoll, .start, 0, .always, 3, 1⟩] }

theorem witness_DueStepsAreQueued :
    ((stepping.chan 0).seq.queue.length ≤ 16 ∧ (List.replicate 16 (entry (.send .roll) true)).length ≤ 16) ∧
    (stepping.chan 0).playlist = [{ event 8 with cue := .airing }] ++ [event 9] ∧
    (∀ e ∈ [{ event 8 with cue := .airing }], (stepping.chan 0).seq.cursor ≠ some e.id) ∧
    (stepping.chan 0).seq.cursor = [event 9].head?.map (·.id) ∧ ((stepping.chan 0).playlist.map (·.id)).Nodup ∧
    ((event 9).unmarked = true ∧ (event 9).cue ≠ .done ∧ (0, 1) ∉ (event 9).progress) ∧
    (stepping.templateOf (event 9))[0]? = some ⟨.sendRoll, .start, 0, .always, 3, 1⟩ ∧
    max 0 (((event 9).rstart : Int) + 0 + (1 * 1 : Nat)) ≤ (stepping.chan 0).now ∧
    max 0 (((event 9).rstart : Int) + 0 + (1 * 1 : Nat)) ≤ (event 9).rend := by decide

/-- A port with a claim of channel 0. -/
def verifyClaimed : Port := { up .primary with claim := [⟨0, .verify, []⟩] }

/-- Channel 0 with these heads queued, its steps issued, on a port. -/
def heads (l : List StepEntry) (y : Port) : Plant :=
  (part { chan .onLocal with playlist := [event 9], seq := { Sequencer.reset with issuing := true, queue := l } } y).plant

/-- A head at its due frame: at the port, behind a command in the slot, one of the Cue Sequencer and a claim, and blocked before its
due frame; its condition true and false; and no port in use. -/
theorem witness_DueStepsAreQueued_heads :
    ((heads [] (up .primary)).chan 0).seq.queue = [] ∧
    (∃ k, k = entry (.send .roll) true ∧ ((heads [k] (up .primary)).chan 0).seq.queue = k :: [] ∧
      ((heads [k] (up .primary)).chan 0).seq.issuing = true ∧ k.due ≤ ((heads [k] (up .primary)).chan 0).now ∧
      ((heads [k] (up .primary)).chan 0).portInUse = some 3 ∧ k.standing = .live ∧
      (((heads [k] (up .primary)).port 3).slotCue = none ∧ ((heads [k] (up .primary)).port 3).claim = [] ∧
        ((heads [k] (up .primary)).port 3).outstanding = none ∧ ((heads [k] (up .primary)).port 3).state = .up) ∧
      ((heads [k] Port.reset).port 3).state ≠ .up ∧ { chan .onLocal with portInUse := none }.portInUse = none ∧
      k.cond.holds Sequencer.reset.last = true ∧ { k with cond := .ifDone }.cond.holds Sequencer.reset.last = false ∧
      (chan .onLocal).now < { k with due := 2160001 }.due ∧
      { up .primary with slotCue := some (0, k) }.slotCue ≠ none ∧ verifyClaimed.claim ≠ [] ∧
      { up .primary with outstanding := some ⟨.roll, .cue 0 k⟩ }.outstanding = some ⟨.roll, .cue 0 k⟩) ∧
    (chan .onLocal).seq.issuing = false := by
  refine ⟨by decide, ⟨_, rfl, ?_⟩, by decide⟩
  decide

/-- A command granted from the slot 2 frames after its due frame, and 3. -/
theorem witness_DueStepsAreQueued_late :
    ∀ n ∈ [2160002, 2160003], ∃ k y, k = entry (.send .roll) true ∧ y = { up .primary with slotCue := some (0, k) } ∧
      ((part { chan .onLocal with now := n } y).plant.port 3) = y ∧ y.state = .up ∧ y.outstanding = none ∧ y.grantHeld = false ∧
      y.claim = [] ∧ y.shift = none ∧ y.slotCue = some (0, k) ∧
      (k.due + 2 < ((part { chan .onLocal with now := n } y).plant.chan 0).now ↔ n = 2160003) := by
  intro n h
  simp only [List.mem_cons, List.not_mem_nil, or_false] at h
  rcases h with rfl | rfl <;> exact ⟨_, _, rfl, rfl, by decide⟩

/-- Steps are issued, and where the sequencing is halted or the standby COLD, are not. -/
theorem witness_DueStepsAreQueued_issued :
    ((((heads [] (up .primary)).renewIssuing 0).enqueueDue 0).chan 0).seq.issuing = true ∧
    (∀ x ∈ [{ chan .onLocal with seq := { Sequencer.reset with halted := true } }, chan .shadow],
      ((((part x (up .primary)).plant.renewIssuing 0).enqueueDue 0).chan 0).seq.issuing = false) := by
  decide

/-- A VERIFY of this action, its last repetition or one before it. -/
def verifying (a : Mismatch) (last : Bool) : StepEntry := entry (.verify .cued (some [0x41]) a) last

theorem witness_OutcomesMoveSteps :
    ((chan .idle).mode = .idle ∧ (chan .onLocal).mode ≠ .idle) ∧ (entry (.send .roll) true).action = .send .roll ∧
    (entry (.send .roll) true).standing = .live ∧ DevOutcome.timeout ≠ .done ∧
    (verifying .halt false).action = .verify .cued (some [0x41]) .halt ∧
    (∃ id ∈ [([0x41] : List Byte)], DevOutcome.state .cued [0x41] 1000 = .state .cued id 1000 ∧ (some [0x41] = none ∨ some [0x41] = some id)) ∧
    DevMode.idle ≠ .cued ∧ (some [0x41] = some [(0x41 : Byte)] ∧ ([0x41] : List Byte) ≠ [0x42]) ∧
    (verifying .halt false).isLast = false ∧ { verifying .halt true with standing := .removed }.standing = .removed := by decide

/-- R126, R129: SKIP_EVENT for a retired event drops its queued entries, and not those of an event of its id on the playlist. -/
theorem test_skip_retired : (((part { chan .onLocal with seq := { Sequencer.reset with queue :=
      [{ entry (.send .stop) true with standing := .retired }, entry (.send .stop) true] } } Port.reset).plant.cueOutcome 0
    { verifying .skipEvent true with standing := .retired } .timeout).chan 0).seq.queue = [entry (.send .stop) true] := by decide +kernel

/-- The last repetition, with event 9 in every cue state. -/
theorem witness_OutcomesMoveSteps_last :
    (∀ a ∈ [Mismatch.ignore, .halt, .skipEvent], (verifying a true).isLast = true ∧ (verifying a true).standing ≠ .removed ∧
      (verifying a true).standing = .live ∧ (verifying a true).action = .verify .cued (some [0x41]) a) ∧
    { verifying .skipEvent true with standing := .retired }.standing = .retired ∧
    ((chan .onLocal).seq.halted = false ∧ { Sequencer.reset with halted := true }.halted = true) ∧
    findEvent [event 8] 9 = none ∧
    (∀ q ∈ [CueState.pending, .cueing, .rolling, .airing, .done, .skipped],
      findEvent [event 8, { event 9 with cue := q }] 9 = some { event 9 with cue := q }) ∧
    ((chan .onLocal).mode.running = true ∧ (chan .shadow).mode.running = false) ∧
    (chan .onLocal).pendingSw.any (fun w => w.cause != .follow) = false := by decide

/-- Channel 0 in local running, its playlist, cursor and now as given. -/
def cueing (l : List Event) (cursor : Nat) (now : Nat) : Channel :=
  { chan .onLocal with playlist := l, now := now, seq := { Sequencer.reset with cursor := some cursor } }

/-- The moves of a cue state, each at the first or last frame of its case. -/
theorem witness_CueStatesMove :
    ([airing, event 9].map (·.id)).Nodup ∧ (cueing [airing, event 9] 9 2160999).playlist = [airing] ++ [event 9] ∧
    (∀ e ∈ [airing], (cueing [airing, event 9] 9 2160999).seq.cursor ≠ some e.id) ∧
    (cueing [airing, event 9] 9 2160999).seq.cursor = [event 9].head?.map (·.id) ∧
    (airing.cue = .airing ∧ 2160999 < airing.rend ∧ airing.rend ≤ 2161000) ∧ { event 8 with cue := .skipped }.cue = .skipped ∧
    (∀ q ∈ [CueState.pending, .cueing, .rolling], { event 9 with cue := q }.cue = q ∧ { event 9 with cue := q }.unmarked = true) ∧
    ((event 9).rstart ≤ 2161500 ∧ 2161499 < (event 9).rstart ∧ (event 9).rend ≤ 2162000 ∧ 2161999 < (event 9).rend) ∧
    ({ event 9 with eclipsed := true }.eclipsed = true ∧ { event 9 with beyond := true }.unmarked = false) ∧
    (event 9).rstart - 10 ≤ 2161490 ∧ 2161489 < (event 9).rstart - 10 ∧ Sequencer.reset.issuing = false ∧
    { event 9 with kind := .filler, clip := none }.kind = .filler := by decide

/-- A template that sends a ROLL, due before the roll point, and an event without a template's steps. -/
theorem witness_CueStatesMove_templates :
    (∃ st ∈ stepping.templateOf (event 9), st.body = .sendRoll) ∧
    (∃ st ∈ stepping.templateOf (event 9), (stepping.templateOf (event 9))[0]? = some st ∧ 0 ≤ st.repeats ∧
      dueFrame 0 (event 9) st 0 ≤ 2161500 ∧ 2161499 < dueFrame 0 (event 9) st 0) ∧
    (part (cueing [event 9] 9 2161499) (up .primary)).plant.templateOf (event 9) = [] ∧
    findEvent (cueing [event 9] 9 2161499).playlist 9 = some (event 9) ∧
    ((event 9).rstart - (part (cueing [event 9] 9 2161500) (up .primary)).plant.prerollInUse 0 ≤ 2161500 ∧
      2161499 < (event 9).rstart) := by decide

/-! ### Chapter 7 -/

/-- A configured reference, an UP primary port, channel 0 as given. -/
def ready (x : Channel) : State := partRef x (up .primary) { Reference.reset with configured := true }

theorem witness_SetChannelFollowsR136 :
    (ready (chan .shadow)).Admits 1 ∧ 15 < 16 ∧ (0 : Nat) = (0 : Chan).val ∧
    (ready (chan .shadow)).plant.configOf { rawConf with confirmWindow := 0 } = none ∧
    (ready (chan .shadow)).plant.configOf rawConf = some conf ∧
    ((chan .taking).mode ≠ .idle ∧ (chan .taking).mode ≠ .shadow) ∧
    (conf.reference ≠ .b ∧ { chan .shadow with baseDay := 101 }.baseDay ≠ conf.baseDay) ∧
    ((part (chan .idle) (up .primary)).plant.ref .a).configured = false ∧ ((ready (chan .idle)).plant.ref .a).configured = true ∧
    ((ready (chan .shadow)).plant.port 3).role = .primary ∧
    ((partRef (chan .idle) (up .spare) { Reference.reset with configured := true }).plant.port 3).role ≠ .primary ∧
    (∃ d, d ≠ 1 ∧ (ready (chan .shadow)).plant.primary d = some 3 ∧ ((ready (chan .shadow)).plant.chan d).mode ≠ .idle) ∧
    (∀ d, d ≠ 0 → (ready (chan .shadow)).plant.primary d = some 3 → ((ready (chan .shadow)).plant.chan d).mode = .idle) ∧
    (ready (chan .shadow)).plant.primary 0 = some 3 := by
  refine ⟨⟨Nat.le_refl 1, by decide, (by decide : 0 < 4), rfl, rfl⟩, ?_⟩
  decide

/-- Channel 0 in SHADOW on port 3, told to work with port 4. -/
def moving : State := { ready (chan .shadow) with plant := (ready (chan .shadow)).plant.setPort 4 (up .primary) }

theorem witness_SetChannelFollowsR136_moves :
    moving.Admits 1 ∧ moving.plant.OnlyFor 3 0 ∧ moving.plant.OnlyFor 4 0 ∧
    (∀ k u live, (moving.plant.port 3).outstanding ≠ some ⟨k, .changeover 0 u live⟩) ∧
    moving.plant.configOf { rawConf with primary := 4 } = some { conf with primary := 4 } ∧ (moving.plant.port 4).role = .primary ∧
    (∀ d, d ≠ 0 → moving.plant.primary d ≠ some 4) ∧ moving.plant.primary 0 = some 3 ∧ (3 : PortNo) ≠ 4 ∧
    (moving.plant.chan 0).seq.queue = [] := by
  refine ⟨⟨Nat.le_refl 1, by decide, (by decide : 0 < 4), rfl, rfl⟩, onlyFor_of ?_, onlyFor_of ?_, fun k u live h => ?_, ?_⟩
  case refine_3 => cases h
  all_goals decide

/-- A port whose claim waits with a STOP of channel 0 for a later frame. -/
def claiming : Port := { up .primary with claim := [⟨0, .stop, [⟨.stop, some 2161501⟩]⟩] }

/-- A channel in SHADOW whose STOP still claims its primary port, or is outstanding there; and one that holds a spare. -/
theorem witness_ClearChannelEmpties_claims :
    (part (chan .shadow) claiming).plant.primary 0 = some 3 ∧ ((part (chan .shadow) claiming).plant.port 3).claim ≠ [] ∧
    (∀ j, ((part (chan .shadow) claiming).plant.port j).holder ≠ some 0) ∧
    (∀ k d u live, ((part (chan .shadow) claiming).plant.port 3).outstanding ≠ some ⟨k, .changeover d u live⟩) ∧
    { claiming with outstanding := some ⟨.stop, .changeover 0 .stop true⟩ }.outstanding = some ⟨.stop, .changeover 0 .stop true⟩ ∧
    (∃ p : Plant, p = (part (chan .shadow) claiming).plant.setPort 18 { up .spare with holder := some 0 } ∧
      (p.port 18).holder = some 0 ∧ ∀ j, (p.port j).holder = some 0 → j = 18) := by
  refine ⟨by decide, by decide, by decide, fun k d u live h => ?_, by decide, _, rfl, ?_⟩
  · cases h
  · decide

theorem witness_ClearChannelEmpties :
    (part (chan .shadow) Port.reset).Admits 1 ∧ 15 < 16 ∧ (0 : Nat) = (0 : Chan).val ∧
    ((part (chan .shadow) Port.reset).plant.chan 0).mode = .shadow ∧ ((part (chan .idle) Port.reset).plant.chan 0).mode = .idle ∧
    ((part (chan .orphaned) Port.reset).plant.chan 0).mode ≠ .idle ∧ ((part (chan .orphaned) Port.reset).plant.chan 0).mode ≠ .shadow := by
  refine ⟨(admits _ _).1, ?_⟩
  decide

theorem witness_TakeBeginsWithColdJoin :
    (part (joining .shadow) (up .primary)).Admits 1 ∧ (part (joining .shadow) (up .primary)).plant.OnlyFor 3 0 ∧ 15 < 16 ∧ 1 < 2 ∧
    ((part (joining .shadow) (up .primary)).plant.chan 0).mode = .shadow ∧
    ((part (joining .confirming) (up .primary)).plant.chan 0).mode = .confirming ∧ (joining .shadow).config = some conf ∧
    conf.standby = .cold ∧ conf.primary = 3 ∧ ((part (joining .shadow) (up .primary)).plant.port 3).state = .up ∧
    (up .primary).outstanding = none ∧ (up .primary).shift = none ∧
    (joining .shadow).seq.halted = false ∧ 2161500 = (joining .shadow).now + conf.cueLead + (up .primary).preroll ∧
    (∃ e ∈ [event 9], coverAt (joining .shadow).playlist 2161500 = some e ∧ joinRefusal conf.tailGuard 2161500 e = none) ∧
    coverAt (chan .shadow).playlist 2161500 = none ∧
    (∃ e ∈ [event 9], coverAt (joining .shadow).playlist 2161950 = some e ∧ joinRefusal conf.tailGuard 2161950 e = some .tailGuard) ∧
    (chan .taking).mode = .taking ∧ (chan .idle).mode = .idle := by
  refine ⟨(admits _ _).1, onlyFor_of ?_, ?_⟩ <;> decide

/-- A HOT channel that a take may begin on, and one that is verifying, a frame before event 9 starts. -/
def hot (m : Mode) : Channel := { joining m with config := some { conf with standby := .hot } }
def verifyRec : TakeRec := { takeRec with stage := .verifying }
def verifyPort : Port :=
  { asking with outstanding := some ⟨.ask, .changeover 0 .verify true⟩, claim := [⟨0, .verify, []⟩] }

/-- The channel that waits for the outcome. -/
def verifyChan : Channel := { hot .taking with now := 2161499, takeRec := some verifyRec }

theorem witness_HotTakeVerifies :
    (part (hot .shadow) (up .primary)).Admits 1 ∧ (part (hot .shadow) (up .primary)).plant.OnlyFor 3 0 ∧
    (hot .shadow).mode = .shadow ∧ (hot .confirming).mode = .confirming ∧ (hot .shadow).config = some { conf with standby := .hot } ∧
    (up .primary).state = .up ∧ (up .primary).outstanding = none ∧ (up .primary).shift = none ∧ (hot .shadow).seq.halted = false := by
  refine ⟨(admits _ _).1, onlyFor_of ?_, ?_⟩ <;> decide

theorem witness_HotTakeVerifies_outcome :
    ((part verifyChan verifyPort).plant.chan 0).takeRec = some verifyRec ∧ verifyChan.mode = .taking ∧ verifyRec.stage = .verifying ∧
    verifyChan.portInUse = some 3 ∧ (∀ d, d ≠ 0 → ((part verifyChan verifyPort).plant.chan d).portInUse ≠ some 3) ∧
    verifyPort.state = .up ∧ verifyPort.outstanding = some ⟨.ask, .changeover 0 .verify true⟩ ∧ verifyPort.replyTimer.isSome = true ∧
    verifyPort.claim = [⟨0, .verify, []⟩] ∧ verifyPort.shift = none ∧ (verifyPort.slotCue = none ∧ verifyPort.slotPass = none) ∧
    verifyPort.grantHeld = false ∧ verifyPort.tryRetries < verifyPort.attempt ∧ verifyPort.timeouts ≠ 2 := by decide

/-- R131, R108: at the entry to DOWN the verify's TIMEOUT begins the join on the spare, which withdraws a command waiting in the Cue
Sequencer's slot; where nothing withdraws it, it ends with TIMEOUT. -/
theorem test_slot_withdrawn : ([verifyPort, { asking with outstanding := some ⟨.ask, .pass⟩ }].map fun y =>
    (((sparePart verifyChan (up .spare)).setPort 3 { y with slotCue := some (0, verifying .halt true) }).portBreak 3).notices.filterMap
      fun n => if n.kind = .cueFault ∨ n.kind = .sequenceHalted then some n.kind else none) =
      [[], [.cueFault, .sequenceHalted]] := by decide +kernel

/-- A long break on the primary port of a channel in SHADOW, with a pass-through outstanding and a command in the slot behind it. -/
def slotted : Port := { asking with outstanding := some ⟨.ask, .pass⟩, slotCue := some (0, entry (.send .roll) true) }

theorem witness_DeviceLineEvents_slot :
    slotted.state = .up ∧ slotted.role = .primary ∧ slotted.claim = [] ∧ slotted.slotPass = none ∧ slotted.grantHeld = false ∧
    (∀ d, d ≠ 0 → ((part (chan .shadow) slotted).plant.chan d).portInUse ≠ some 3) ∧
    (∀ m ∈ [Mode.shadow, .confirming], (chan m).mode = m ∧ (chan m).portInUse = some 3 ∧ (chan m).seq.queue = []) ∧
    slotted.outstanding = some ⟨.ask, .pass⟩ ∧ slotted.slotCue = some (0, entry (.send .roll) true) ∧
    (entry (.send .roll) true).action = .send .roll := by decide

/-- What the outcome is judged by: no event at the next frame, a FILLER, another clip, a frame outside and inside the tolerance. -/
theorem witness_HotTakeVerifies_judged :
    coverAt (chan .taking).playlist 2161500 = none ∧ coverAt verifyChan.playlist (verifyChan.now + 1) = some (event 9) ∧
    { event 9 with kind := .filler, clip := none }.kind = .filler ∧ (event 9).kind = .clip ∧ [0x42] ≠ (event 9).clipId ∧
    [0x41] = (event 9).clipId ∧ DevMode.idle ≠ .rolling ∧
    (∀ f ∈ [996, 1002], (f : Int) < ((event 9).som : Int) + verifyChan.now - (event 9).rstart - conf.verifyTol ∨
      ((event 9).som : Int) + verifyChan.now - (event 9).rstart + conf.verifyTol < f) ∧
    (∀ f ∈ [997, 1001], ((event 9).som : Int) + verifyChan.now - (event 9).rstart - conf.verifyTol ≤ f ∧
      (f : Int) ≤ ((event 9).som : Int) + verifyChan.now - (event 9).rstart + conf.verifyTol) ∧
    joinRefusal conf.tailGuard (verifyChan.now + 1) (event 9) = none ∧
    joinRefusal 500 (verifyChan.now + 1) (event 9) ≠ none := by decide

/-- A join of event 9 at its start, and the take whose join it is, its switch pending. -/
def joinRec : JoinRec := { now0 := 2161475, t := 2161500, event := 9, offset := 0, cue := 1000, roll := some 2161500 }
def joined : TakeRec := { takeRec with join := some joinRec }

/-- The channel at the line of that switch. -/
def landing (m : Mode) (w : PendingSw) : Channel :=
  { joining m with now := 2161500, takeRec := some joined, pendingSw := [w] }

theorem witness_TakeEndsAtItsLine :
    (part (landing .taking ⟨.onLocal, 2161500, .take, .joinLocal⟩) (up .primary)).plant.chan 0 =
      landing .taking ⟨.onLocal, 2161500, .take, .joinLocal⟩ ∧
    (∀ m ∈ [Mode.taking, .onLocal], ∀ w ∈ [PendingSw.mk .onLocal 2161500 .take .joinLocal, ⟨.filler, 2161500, .bridge, .joinBridge 2161500⟩,
        ⟨.filler, 2161500, .portLoss, .takeFailed 3 .refused⟩],
      (landing m w).config = some conf ∧ (landing m w).takeRec = some joined ∧ (landing m w).pendingSw = [w] ∧
      w.frame ≤ (landing m w).now ∧ w.cause ≠ .follow ∧ (landing m w).adoption = none ∧ (landing m w).openEntry = none ∧
      (landing m w).mode = m ∧ (landing m w).portInUse = some 3) ∧ joined.join = some joinRec := by decide

/-- The event as the join found it, or changed: gone, skipped, or left with no more than the tail guard, or its material ended. -/
theorem witness_TakeEndsAtItsLine_event :
    findEvent [event 9] joinRec.event = some (event 9) ∧ (event 9).cue ≠ .skipped ∧ joinRec.t + 499 < (event 9).rend ∧
    (event 9).rend ≤ joinRec.t + 500 ∧ (event 9).clip.bind (·.eom) = none ∧ findEvent [event 8] joinRec.event = none ∧
    { event 9 with cue := .skipped }.cue = .skipped ∧
    { event 9 with clip := some ⟨0, 1000, [0x41], some 1000, false⟩ }.clip.bind (·.eom) = some joinRec.cue ∧ joinRec.offset = 0 ∧
    (landing .taking ⟨.onLocal, 2161500, .take, .joinLocal⟩).seq.queue = [] := by
  decide

/-- A take that bridges, and one whose port failed: with no port, on the spare that failed, and on another port. -/
theorem witness_TakeEndsAtItsLine_failed :
    { joined with bridgeReason := some .noEvent }.bridgeReason = some .noEvent ∧
    { landing .taking ⟨.filler, 2161500, .portLoss, .takeFailed 3 .refused⟩ with portInUse := none }.portInUse = none ∧
    ((part (landing .taking ⟨.filler, 2161500, .portLoss, .takeFailed 3 .refused⟩) lent).plant.port 3).holder = some 0 ∧
    (3 : PortNo) ≠ 18 ∧ ((sparePart (landing .taking ⟨.filler, 2161500, .portLoss, .takeFailed 3 .refused⟩) (up .spare)).port 18).state = .up ∧
    { landing .taking ⟨.filler, 2161500, .portLoss, .takeFailed 3 .refused⟩ with portInUse := some 18 }.portInUse = some 18 := by
  decide

/-- The clip part of event 9 with an end of material at a frame, and with no join allowed. -/
def clipOf (eom : Option Nat) (noJoin : Bool) : ClipInfo := ⟨0, 1000, [0x41], eom, noJoin⟩

theorem witness_JoinLimitsFollowR150 :
    (event 9).rstart ≤ 2161949 ∧ 2161949 < (event 9).rend ∧ ((event 9).kind = .clip ↔ (event 9).clip.isSome) ∧
    { event 9 with kind := .filler, clip := none }.kind = .filler ∧ (event 9).clip = some (clipOf none false) ∧
    ((clipOf none true).noJoin = true ∧ (event 9).rstart < 2161501) ∧ (event 9).rend - 2161950 ≤ 50 ∧ 50 < (event 9).rend - 2161949 ∧
    (∀ m, (clipOf (some 1449) false).eom = some m → m ≤ (clipOf (some 1449) false).som + (2161949 - (event 9).rstart)) ∧
    (∀ m, (clipOf (some 1450) false).eom = some m → (clipOf (some 1450) false).som + (2161949 - (event 9).rstart) < m) := by
  refine ⟨by decide, by decide, by decide, by decide, by decide, by decide, by decide, by decide, ?_, ?_⟩ <;>
  · intro m h
    cases h
    decide

/-- A take in progress whose primary port is as given. -/
def aborting (sw : SwitchPos) (y : Port) : State := part { chan .taking with switch := sw, takeRec := some takeRec } y

theorem witness_ConfirmEndsAndAbort :
    (aborting .main Port.reset).Admits 1 ∧ (aborting .main Port.reset).plant.OnlyFor 3 0 ∧ (aborting .filler (up .primary)).plant.OnlyFor 3 0 ∧
    15 < 16 ∧ (0 : Nat) = (0 : Chan).val ∧ (chan .shadow).mode ≠ .confirming ∧ (chan .shadow).mode ≠ .taking ∧
    ((aborting .main Port.reset).plant.chan 0).takeRec = some takeRec ∧ takeRec.stage ≠ .aborting ∧
    { takeRec with stage := .aborting }.stage = .aborting ∧ (∀ i, ((aborting .main Port.reset).plant.port i).holder ≠ some 0) ∧
    0 ∉ (aborting .main Port.reset).plant.spareQueue ∧ (chan .taking).config = some conf ∧ (chan .taking).portInUse = some conf.primary ∧
    (Port.reset.state ≠ .up ∧ (up .primary).state = .up) ∧ (chan .taking).seq.queue = [] ∧ (up .primary).outstanding = none ∧
    (up .primary).shift = none ∧ ((aborting .main Port.reset).plant.chan 0).switch = .main ∧
    ((aborting .filler (up .primary)).plant.chan 0).switch ≠ .main := by
  refine ⟨(admits _ _).1, onlyFor_of ?_, onlyFor_of ?_, ?_⟩ <;> decide

/-- A change of health in each mode: into FAILED, in SHADOW with and without doubt, in RETURNING with the return to come, at its frame
and no longer pending; and out of FAILED. -/
theorem witness_ConfirmEndsAndAbort_health :
    (Health.degraded ≠ .failed ∧ Health.healthy ≠ .degraded) ∧
    (∀ m ∈ [Mode.idle, .shadow, .confirming, .taking, .onLocal, .returning, .orphaned],
      ((part (chan m) Port.reset).plant.chan 0).mode = m) ∧
    (conf.policy = .auto ∧ { conf with policy := .manual }.policy = .manual ∧ { conf with policy := .autoConfirm }.policy = .autoConfirm) ∧
    ¬((chan .shadow).replica.state = .stale ∨ (chan .shadow).replica.state = .awaitBase ∨ (chan .shadow).watch.diverged = true) ∧
    (withReplica .shadow Replica.reset).replica.state = .awaitBase ∧
    { chan .shadow with watch := { Watch.reset with diverged := true } }.watch.diverged = true ∧
    ((part { chan .returning with now := 2161499, returnRec := some returnRec } Port.reset).plant.chan 0).returnRec = some returnRec ∧
    2161499 < returnRec.tRet ∧ { returnRec with state := .done }.state ≠ .pending := by decide

/-- The confirm window before its end, and at it, to end in a take or withheld. -/
theorem witness_ConfirmEndsAndAbort_expiry :
    (chan .shadow).confirm = none ∧
    ((part { chan .confirming with confirm := some ⟨2160000, false⟩ } Port.reset).plant.chan 0).confirm = some ⟨2160000, false⟩ ∧
    (chan .confirming).now < 2160001 ∧ 2160000 ≤ (chan .confirming).now ∧ (chan .confirming).replica.state = .current ∧
    (chan .confirming).watch.diverged = false ∧ (withReplica .confirming { Replica.reset with state := .stale }).replica.state = .stale := by
  decide

/-- A take on the spare that the channel holds, the switch at MAIN. -/
def spareTake : Plant :=
  sparePart { chan .taking with portInUse := some 18, takeRec := some takeRec } { up .spare with holder := some 0 }

theorem witness_ConfirmEndsAndAbort_spare :
    spareTake.OnlyFor 18 0 ∧ spareTake.OnlyFor 3 0 ∧ (spareTake.chan 0).portInUse = some 18 ∧ (18 : PortNo) ≠ conf.primary ∧
    (spareTake.port 18).role = .spare ∧ (spareTake.port 18).holder = some 0 ∧ (∀ d, (spareTake.port d).holder = some 0 → d = 18) ∧
    (spareTake.port 18).outstanding = none ∧ spareTake.spareQueue = [] ∧ (spareTake.chan 0).seq.queue = [] ∧
    (spareTake.port 3).outstanding = none ∧ (spareTake.chan 0).switch = .main := by
  refine ⟨onlyFor_of ?_, onlyFor_of ?_, ?_⟩ <;> decide

/-! ### Chapter 8 -/

/-- An event that has ended, and the open entry of another. -/
def ended (q : CueState) : Event := { event 8 with cue := q }
def opened : OpenEntry := { event := 9, start := 2161500, kind := .start, port := some 3 }

/-- The join of event 9 at its start with its ROLL frame as computed at the frame given, on port 3 of channel 0. -/
def pointing (m : Mode) (rejoined : Bool) (now : Nat) : Channel :=
  { joining m with
    now := now, takeRec := some { joined with rejoined := rejoined }, pendingSw := [⟨.onLocal, 2161500, .take, .joinLocal⟩] }

/-- The port with what is left of the join's list. -/
def claimed : Port := { up .primary with claim := [⟨0, .join, [⟨.roll, some 2161500⟩]⟩] }

/-- A POINT done in the last frame before the ROLL frame, and late, for the first time and the second. -/
theorem witness_TakeBeginsWithColdJoin_point :
    (∀ m ∈ [Mode.taking, .onLocal, .returning], ∀ r ∈ [true, false], ∀ n ∈ [2161499, 2161500],
      (pointing m r n).config = some conf ∧ (pointing m r n).mode = m ∧ (pointing m r n).now = n ∧
      (pointing m r n).takeRec.bind (·.join) = some joinRec ∧ (pointing m r n).takeRec.map (·.rejoined) = some r) ∧
    joinRec.roll = some 2161500 ∧ 2161499 < 2161500 ∧
    ((part (pointing .taking false 2161500) claimed).plant.port 3) = claimed ∧ claimed.state = .up ∧ claimed.outstanding = none ∧
    claimed.shift = none ∧ claimed.grantHeld = false ∧ claimed.slotPass = none ∧ claimed.slotCue = none ∧
    (∀ l ∈ claimed.claim, l.channel = 0 ∧ l.purpose = .join) ∧
    (∀ d, d ≠ 0 → ((part (pointing .taking false 2161500) claimed).plant.chan d).portInUse ≠ some 3) ∧
    { claimed with slotCue := some (0, entry (.send .roll) true) }.slotCue = some ((0 : Chan), entry (.send .roll) true) := by decide

/-- A halted channel that a take may begin on. -/
theorem witness_TakeBeginsWithColdJoin_halted :
    (∃ x : Channel, x = { joining .shadow with seq := { Sequencer.reset with halted := true } } ∧ x.mode = .shadow ∧ x.seq.halted = true ∧
      (part x (up .primary)).Admits 1 ∧ (part x (up .primary)).plant.OnlyFor 3 0 ∧
      (coverAt x.playlist 2161500).any fun e => joinRefusal conf.tailGuard 2161500 e == none) ∧
    (hot .shadow).seq.halted = false := by
  refine ⟨⟨_, rfl, by decide, by decide, (admits _ _).1, onlyFor_of (by decide), by decide⟩, by decide⟩

/-- A cue lead of 1 with no preroll: the new T is the frame of the next switch line, or the one after it; the bridge FILLER, its
change replaced by the LOCAL that is no longer live. -/
def bridging : Channel :=
  { pointing .taking false 2161500 with config := some { conf with cueLead := 1, bridge := .filler } }

theorem witness_TakeBeginsWithColdJoin_bridge :
    bridging.mode = .taking ∧ bridging.switch = .main ∧ bridging.pendingSw.filter (fun w => !w.act.ofJoin) = [] ∧
    { conf with bridge := .filler }.bridge = .filler ∧ { joined with option := .fillerFirst }.option = .fillerFirst ∧
    (∀ n ∈ [5, 6], ∃ line, line = (if bridging.lineInForce ≤ n then bridging.now + 1 else bridging.now) ∧
      (line < bridging.now + 1 + 0 ↔ n = 5)) ∧
    { bridging with switch := .filler }.switch ≠ .main := by
  refine ⟨by decide, by decide, by decide, rfl, rfl, fun n h => ⟨_, rfl, ?_⟩, by decide⟩
  simp only [List.mem_cons, List.not_mem_nil, or_false] at h
  rcases h with rfl | rfl <;> decide

/-- R148: the join begun again keeps FILLER for the next line and LOCAL for its T; R141: at one line the later decision stands alone,
also where a forward step has passed the earlier one's frame. -/
theorem test_bridge_again : ((((part bridging claimed).plant.listOutcome 0 3 .join true (.point 0) .done).chan 0).pendingSw.map
    fun w => (w.pos, w.frame)) = [(.filler, 2161500), (.onLocal, 2161501)] := by decide +kernel
theorem test_overdue_replaced : ((((part { bridging with pendingSw := [⟨.filler, 2161490, .bridge, .bridge⟩] } claimed).plant.joinFail 0 3
    .refused).chan 0).pendingSw.map fun w => (w.frame, w.cause)) = [(2161500, .portLoss)] := by decide +kernel

/-- A join that fails: on a held spare; on the primary port with no spare to be lent, and with one; and in local running. -/
theorem witness_TakeBeginsWithColdJoin_fail :
    (∃ x, x = { pointing .taking false 2161500 with portInUse := some 18 } ∧
      ((sparePart x { claimed with role := .spare, holder := some 0 }).port 18).holder = some 0) ∧
    (∃ p : Plant, p = (part (pointing .taking false 2161500) claimed).plant ∧ (p.chan 0).mode = .taking ∧ (3 : PortNo) = conf.primary ∧
      (p.port 3).role = .primary ∧ (∀ s, (p.port s).holder ≠ some 0) ∧ 0 ∉ p.spareQueue ∧ (∀ s, (p.port s).role ≠ .spare) ∧
      joined.stage ≠ .ended) ∧
    (∃ p : Plant, p = (sparePart (pointing .taking false 2161500) (up .spare)).setPort 3 claimed ∧ (p.port 18).role = .spare ∧
      (p.port 18).state = .up ∧ (p.port 18).holder = none ∧ conf.spares.testBit (18 : PortNo).val = true ∧
      (∀ j : PortNo, j.val < 18 → (p.port j).role ≠ .spare) ∧ ∀ s, (p.port s).holder ≠ some 0) ∧
    ∃ p : Plant, p = (part (pointing .onLocal false 2161500) claimed).plant ∧ (p.chan 0).mode ≠ .taking ∧
      (∀ s, (p.port s).holder ≠ some 0) ∧ 0 ∉ p.spareQueue ∧ ∀ s, (p.port s).role ≠ .spare := by
  refine ⟨⟨_, rfl, ?_⟩, ⟨_, rfl, ?_⟩, ⟨_, rfl, ?_⟩, _, rfl, ?_⟩ <;> decide

/-- A channel in local running whose port has gone DOWN, its switch and its open entry as given, its steps not issued or issued with
none due. -/
def losing (sw : SwitchPos) (o : Option OpenEntry) (issuing : Bool) : Channel :=
  { joining .onLocal with
    switch := sw, openEntry := o, takeRec := some joined, seq := { Sequencer.reset with issuing := issuing }
    pendingSw := [⟨.onLocal, 2161500, .take, .joinLocal⟩] }

/-- R161, R164: an entry that a port loss has made due is closed CUT by the join of its event; any other is left as it stands, also by
a join on another port. -/
theorem test_lost_entry_due : ((((part (losing .onLocal (some opened) true) (up .primary)).plant.portLost 0 3).chan 0).openEntry.map
    (·.cutDue)) = some true := by decide +kernel
/-- R161: with the switch at FILLER, the entry of an adopted event stays open at a port loss; one opened at this frame's start ends. -/
theorem test_adopted_entry_stays : ([EntryKind.start, .join].map fun k =>
    ((part (losing .filler (some { opened with kind := k }) true) (up .primary).fallen).plant.portLost 0 3).entries.map (·.exit)) =
      [[.cut], []] := by decide +kernel
theorem test_join_finds_entry : ([false, true].map fun d =>
    ((part (losing .onLocal (some { opened with cutDue := d }) true) Port.reset).plant.joinEntry 0 9 2161600 .join (some 18)).entries.map
      (·.exit)) = [[], [.cut]] := by decide +kernel

theorem witness_HotTakeVerifies_loss :
    (∀ sw ∈ [SwitchPos.onLocal, .filler], ∀ o ∈ [none, some opened, some { opened with kind := .join }, some { opened with port := some 4 }],
      ∃ p : Plant, p = (part (losing sw o true) (up .primary).fallen).plant ∧ p.chan 0 = losing sw o true ∧
        (losing sw o true).config = some conf ∧ (losing sw o true).mode = .onLocal ∧ (losing sw o true).portInUse = some 3 ∧
        (∀ k ∈ (losing sw o true).seq.queue, (losing sw o true).now < k.due) ∧ (∀ s, (p.port s).holder ≠ some 0) ∧
        0 ∉ p.spareQueue ∧ (∀ s, (p.port s).role ≠ .spare) ∧ (p.port conf.primary).state ≠ .up ∧ (losing sw o true).switch = sw ∧
        (losing sw o true).openEntry = o) ∧
    joined.stage = .joining ∧ opened.port = some 3 ∧ opened.kind ≠ .filler ∧ opened.kind = .start ∧ { opened with kind := .join }.kind ≠ .start ∧
    findEvent (joining .onLocal).playlist opened.event = some (event 9) ∧ (event 9).kind = .clip ∧ some (4 : PortNo) ≠ some 3 ∧
    (losing .onLocal none false).seq.issuing = false := by
  refine ⟨fun sw hs o ho => ⟨_, rfl, ?_⟩, by decide⟩
  simp only [List.mem_cons, List.not_mem_nil, or_false] at hs ho
  rcases hs with rfl | rfl <;> rcases ho with rfl | rfl | rfl | rfl <;> decide

/-- The same with a spare to be lent; and a channel that waits, its primary port UP. -/
theorem witness_HotTakeVerifies_spare :
    (∀ sw ∈ [SwitchPos.onLocal, .filler], ∃ p : Plant,
      p = (sparePart (losing sw (some { opened with kind := .join }) true) (up .spare)).setPort 3 (up .primary).fallen ∧
      (p.chan 0).switch = sw ∧ (p.chan 0).openEntry = some { opened with kind := .join } ∧ (p.port 18).role = .spare ∧ (p.port 18).state = .up ∧ (p.port 18).holder = none ∧ conf.spares.testBit (18 : PortNo).val = true ∧
      (∀ j : PortNo, j.val < 18 → (p.port j).role ≠ .spare) ∧ (∀ s, (p.port s).holder ≠ some 0) ∧ 0 ∉ p.spareQueue ∧
      coverAt (p.chan 0).playlist 2161500 = some (event 9) ∧ joinRefusal conf.tailGuard 2161500 (event 9) = none ∧
      2161500 = (p.chan 0).now + conf.cueLead + (p.port 18).preroll) ∧
    ∃ p : Plant, p = { (part { losing .filler none true with portInUse := none } (up .primary)).plant with spareQueue := [0] } ∧
      0 ∈ p.spareQueue ∧ (p.port conf.primary).state = .up ∧ (p.chan 0).mode = .onLocal ∧ (p.chan 0).config = some conf := by
  refine ⟨fun sw h => ⟨_, rfl, ?_⟩, _, rfl, by decide⟩
  simp only [List.mem_cons, List.not_mem_nil, or_false] at h
  rcases h with rfl | rfl <;> decide

/-- Retirement: events whose end has come or has not, in local running and outside it. -/
theorem witness_RetirementAndAsRunEntries :
    ([ended .done, event 9].map (·.id)).Nodup ∧
    (∀ q ∈ [CueState.done, .skipped], [ended q, event 9].filter (fun e => (e.cue == .done || e.cue == .skipped) && decide (e.rend ≤ 2162000)) = [ended q] ∧
      [ended q, event 9].filter (fun e => (e.cue == .done || e.cue == .skipped) && decide (e.rend ≤ 2161999)) = []) ∧
    ((ended .done).asRun = false ∧ (ended .done).eclipsed = false ∧ (ended .done).beyond = false ∧ (ended .skipped).cue ≠ .done) := by
  decide

/-- An event that begins to air: what keeps it from opening an entry, and what it opens. -/
theorem witness_RetirementAndAsRunEntries_airing :
    findEvent (cueing [event 9] 9 2161500).playlist 9 = some (event 9) ∧ (event 9).cue = .pending ∧ (event 9).unmarked = true ∧
    ((event 9).rstart ≤ 2161500 ∧ 2161999 < (event 9).rend) ∧ ((chan .shadow).mode ≠ .onLocal ∧ (chan .shadow).mode ≠ .returning) ∧
    (returnRec.state = .pending ∧ returnRec.tRet ≤ 2161500 ∧ 2161499 < returnRec.tRet) ∧
    (PendingSw.mk .filler 2161500 .portLoss .plain).cause ≠ .follow ∧ (chan .onLocal).pendingSw = [] ∧ (event 9).kind = .clip ∧
    { event 9 with kind := .filler, clip := none }.kind = .filler ∧ (chan .onLocal).seq.halted = false ∧
    (chan .onLocal).portInUse ≠ none ∧ (chan .onLocal).openEntry = none ∧
    (∃ k ∈ [airing, event 9], k.id = airing.id ∧ k.rend ≤ 2161000) ∧ ∀ k ∈ [airing, event 9], k.id = airing.id → 2160999 < k.rend := by
  decide

/-- A FILLER event, and a channel whose now is given, event 5 before it on air. -/
def passing (now : Nat) : Channel :=
  { cueing [airing, { event 9 with kind := .filler, clip := none }] 9 now with
    openEntry := some { event := 5, start := 2160000, kind := .start, port := some 3 } }

/-- An event that a step passes whole, its end at the new now, with an entry open before it or none. -/
theorem witness_RetirementAndAsRunEntries_passed :
    findEvent (passing 2162000).playlist 9 = some { event 9 with kind := .filler, clip := none } ∧
    (event 9).cue = .pending ∧ { event 9 with kind := .filler, clip := none }.unmarked = true ∧ (event 9).rend ≤ 2162000 ∧
    (event 9).rstart ≤ 2162000 ∧ ¬ (event 9).rend ≤ 2161999 ∧ (∀ o, (passing 2162000).openEntry = some o → o.event ≠ 9) ∧
    (chan .onLocal).openEntry = none ∧ (event 9).kind = .clip ∧ (passing 2162000).mode = .onLocal ∧
    (returnRec.state = .pending ∧ returnRec.tRet ≤ 2162000 ∧ 2161499 < returnRec.tRet) ∧
    (∃ k ∈ (passing 2162000).playlist, k.id = 5 ∧ k.rend ≤ (event 9).rstart) ∧
    ∀ k ∈ [{ airing with rend := 2161600 }, event 9], k.id = 5 → (event 9).rstart < k.rend := by
  decide

/-- R164, R165, R15: the FILLER event's entry is opened at its start, which closes the one before it, and closed CUT at the new now. -/
theorem test_filler_passed : ((part (passing 2162000) Port.reset).plant.moveCue 0 true 9).entries.map (fun e => (e.event, e.exit)) =
    [(5, .finish), (9, .cut)] := by decide +kernel

/-- An event that ends, with its own entry open or another's; and a join that finds an entry open. -/
theorem witness_RetirementAndAsRunEntries_end :
    airing.cue = .airing ∧ airing.rend ≤ 2161000 ∧ { opened with event := 5 }.event = airing.id ∧ opened.event ≠ airing.id ∧
    opened.kind ≠ .filler ∧ opened.cutDue = false ∧ { opened with cutDue := true }.cutDue = true ∧ { opened with kind := .filler }.kind = .filler ∧
    (∃ k ∈ [event 9], k.id = opened.event ∧ k.rend ≤ 2162000) ∧ ∀ k ∈ [event 9], k.id = opened.event → 2161999 < k.rend := by
  decide

theorem witness_ReturnIsSetAndCancelled :
    (part (chan .onLocal) Port.reset).Admits 1 ∧ 15 < 16 ∧ (0 : Nat) = (0 : Chan).val ∧ (chan .shadow).mode ≠ .onLocal ∧
    ((part (chan .onLocal) Port.reset).plant.chan 0).mode = .onLocal ∧ (Label.mk 24 0 0 0).valid .f25 = false ∧
    (Label.mk 0 1 0 0).valid .f25 = true ∧ ctfOf .f25 100 ⟨104, ⟨0, 1, 0, 0⟩⟩ = none ∧ ctfOf .f25 100 ⟨101, ⟨0, 1, 0, 0⟩⟩ = some 2161500 ∧
    2160025 = max ((chan .onLocal).now + conf.returnLead) ((none : Option Nat).getD 0) ∧
    2161500 = max ((chan .onLocal).now + conf.returnLead) ((some 2161500).getD 0) ∧
    (withReplica .onLocal Replica.reset).replica.state ≠ .current ∧ (chan .onLocal).replica.state = .current ∧
    { Watch.reset with health := .failed }.health = .failed ∧ (chan .onLocal).watch.health ≠ .failed ∧
    [event 9] = [] ++ event 9 :: [] ∧ (event 9).unmarked = true ∧ 2161500 ≤ (event 9).rstart ∧
    (event 9).rstart < 4 * ((part (chan .onLocal) Port.reset).plant.family 0).fpd ∧
    (∀ e ∈ ([] : List Event), e.unmarked = true → 2160025 ≤ e.rstart → 8640000 ≤ e.rstart) ∧
    ((part { chan .returning with returnRec := some returnRec } Port.reset).plant.chan 0).returnRec = some returnRec ∧
    returnRec.state = .pending ∧ (chan .returning).now < returnRec.tRet := by
  refine ⟨(admits _ _).1, ?_⟩
  decide

/-- An ORPHANED channel in the middle of event 9. -/
def orphan : Channel := { chan .orphaned with now := 2161600, playlist := [event 9] }

/-- The part with that channel, and port 18, of its spare set, a spare in UP. -/
def orphanPart : State :=
  { part orphan (up .primary) with plant := sparePart orphan (up .spare) }

theorem witness_AdoptAndRelease :
    orphanPart.Admits 1 ∧ 15 < 16 ∧ (0 : Nat) = (0 : Chan).val ∧ (chan .shadow).mode ≠ .orphaned ∧
    (orphanPart.plant.chan 0).mode = .orphaned ∧ orphan.adoption = none ∧ orphan.release = none ∧
    { orphan with adoption := some ⟨9, 3⟩ }.adoption ≠ none ∧ orphan.config = some conf ∧ 19 < 20 ∧
    (∃ i : PortNo, 17 = i.val ∧ ((orphanPart.plant.port i).role ≠ .spare ∨ conf.spares.testBit 17 = false)) ∧
    coverAt (chan .orphaned).playlist 2161600 = none ∧ (coverAt orphan.playlist orphan.now).isSome ∧
    (orphanPart.plant.port 18).role = .spare ∧ conf.spares.testBit (18 : PortNo).val = true ∧
    (orphanPart.plant.port 18).holder = none ∧ (orphanPart.plant.port 18).state = .up ∧
    { up .spare with holder := some 1 }.holder ≠ none ∧ (∀ i, (orphanPart.plant.port i).holder ≠ some 0) ∧
    1 < 2 ∧ some 0 ≠ (none : Option Nat) ∧ (some 2 ≠ some 0 ∧ some 2 ≠ some 1) := by
  refine ⟨⟨Nat.le_refl 1, by decide, (by decide : 0 < 4), rfl, rfl⟩, ?_⟩
  decide

/-- ADOPT with a spare that may be asked for, where no event covers now; and RELEASE of a channel that holds a spare, with an adoption
pending, and one that waits with an adoption pending. -/
theorem witness_AdoptAndRelease_spare :
    coverAt (chan .orphaned).playlist (chan .orphaned).now = none ∧
    ((sparePart (chan .orphaned) (up .spare)).port 18).role = .spare ∧ conf.spares.testBit (18 : PortNo).val = true ∧
    (∃ p : Plant, p = sparePart { orphan with adoption := some ⟨9, 18⟩, portInUse := some 18 } { up .spare with holder := some 0 } ∧
      (p.chan 0).mode = .orphaned ∧ (p.chan 0).config = some conf ∧ (p.chan 0).seq.issuing = false ∧ (p.chan 0).adoption ≠ none ∧
      ∀ i j, (p.port i).holder = some 0 → (p.port j).holder = some 0 → i = j) ∧
    (∃ p : Plant, p = sparePart orphan { up .spare with holder := some 0 } ∧ (p.chan 0).adoption = none ∧ 0 ∉ p.spareQueue) ∧
    ∃ p : Plant, p = { orphanPart.plant.setChan 0 { orphan with adoption := some ⟨9, 3⟩ } with spareQueue := [0] } ∧
      (p.chan 0).adoption ≠ none := by
  refine ⟨by decide, by decide, by decide, ⟨_, rfl, ?_⟩, ⟨_, rfl, ?_⟩, _, rfl, ?_⟩ <;> decide

theorem witness_SwitchLineMakesPending :
    (part (chan .orphaned) (up .primary)).plant.chan 0 = chan .orphaned ∧ (chan .orphaned).config = some conf ∧
    (chan .idle).mode = .idle ∧ (chan .orphaned).mode ≠ .idle ∧
    (chan .orphaned).lineInForce ≤ ((partRef (chan .orphaned) (up .primary) { Reference.reset with raised := 6 }).plant.ref .a).raised ∧
    ((partRef (chan .orphaned) (up .primary) { Reference.reset with raised := 5 }).plant.ref .a).raised < (chan .orphaned).lineInForce ∧
    (∀ d, d ≠ 0 → (part (chan .orphaned) (up .primary)).plant.config d = none) ∧
    (chan .shadow).pendingSw = [] ∧ (chan .shadow).mode = .shadow ∧ (chan .shadow).adoption = none ∧
    { chan .orphaned with release := some .filler }.release = some .filler ∧
    (PendingSw.mk .filler 2160000 .release .release).act = .release ∧
    (PendingSw.mk .filler 2160000 .release .release).frame ≤ (chan .orphaned).now ∧ (chan .orphaned).switch ≠ .filler ∧
    (chan .returning).mode = .returning ∧ returnRec.state = .pending ∧ returnRec.tRet ≤ { chan .returning with now := 2161500 }.now := by
  decide

/-- A return at its frame: to MAIN from LOCAL or where the switch has never left it, of a COLD channel on its primary port, of one on
a spare, and of a HOT one, with and without a spare held. -/
theorem witness_SwitchLineMakesPending_return :
    (∃ x : Channel, x = { chan .returning with now := 2161500, returnRec := some returnRec } ∧ x.mode = .returning ∧
      returnRec.tRet ≤ x.now ∧ x.now = returnRec.tRet ∧ x.switch = .main ∧ { x with switch := .onLocal }.switch ≠ .main ∧
      x.portInUse = some conf.primary ∧ { x with portInUse := some 18 }.portInUse ≠ some conf.primary ∧
      (part x (up .primary)).plant.port 3 = up .primary ∧ (up .primary).claim = [] ∧
      (∀ i, ((part x (up .primary)).plant.port i).holder ≠ some 0) ∧
      ∀ i j, ((sparePart x { up .spare with holder := some 0 }).port i).holder = some 0 →
        ((sparePart x { up .spare with holder := some 0 }).port j).holder = some 0 → i = j) ∧
    conf.standby = .cold ∧ { conf with standby := .hot }.standby = .hot := by
  refine ⟨⟨_, rfl, ?_⟩, ?_⟩ <;> decide

/-- A return whose frame a forward step has passed, the primary port DOWN: the STOP ends with TIMEOUT (R107). -/
theorem witness_SwitchLineMakesPending_stop :
    (∃ x : Channel, x = { chan .returning with now := 2161502, returnRec := some returnRec } ∧ returnRec.tRet < x.now ∧
      x.portInUse = some conf.primary ∧ ((part x (up .primary).fallen).plant.port 3).state ≠ .up ∧
      ((part x (up .primary).fallen).plant.port 3).claim = [] ∧
      (((part x (up .primary).fallen).plant.switchLine 0).chan 0).seq.last = some .timeout) := by
  refine ⟨_, rfl, ?_⟩
  decide +kernel

/-- Nothing holds the switch: an AIRING or a PENDING event covers now, or none; with and without an open entry of a clip. -/
theorem witness_SwitchLineMakesPending_follow :
    (∀ l ∈ [[], [event 9], [{ event 9 with cue := .airing }], [{ event 9 with kind := .filler, clip := none }]],
      (cueing l 9 2161500).mode = .onLocal ∧ (cueing l 9 2161500).adoption = none ∧ (cueing l 9 2161500).pendingSw = []) ∧
    (chan .onLocal).cover = none ∧ (event 9).kind = .clip ∧ (event 9).skipEnded = false ∧ (event 9).begunHalted = false ∧
    { event 9 with begunHalted := true }.begunHalted = true ∧ (chan .onLocal).portInUse ≠ none ∧ (chan .onLocal).seq.halted = false ∧
    { event 9 with kind := .filler, clip := none }.kind = .filler ∧ opened.kind ≠ .filler ∧ opened.port ≠ none ∧
    { opened with port := none }.port = none ∧ opened.kind = .start ∧ { opened with kind := .join }.kind ≠ .start ∧
    (chan .onLocal).switch ≠ .filler ∧ { chan .onLocal with switch := .filler }.switch = .filler ∧
    (findEvent [event 9] opened.event).all (·.kind == .clip) ∧
    findEvent [{ event 9 with kind := .filler, clip := none }] opened.event = some { event 9 with kind := .filler, clip := none } := by
  decide

/-- An abort on its way back; and a RELEASE to MAIN with either after-state. -/
theorem witness_SwitchLineMakesPending_back :
    (PendingSw.mk .main 2160000 .abort .abort).act = .abort ∧ (PendingSw.mk .main 2160000 .abort .abort).frame ≤ (chan .taking).now ∧
    { takeRec with stage := .aborting }.stage = .aborting ∧ (chan .taking).mode = .taking ∧ (chan .taking).adoption = none ∧
    (∀ t ∈ [AfterState.shadow, .idle], { chan .orphaned with release := some (.main t) }.release = some (.main t)) ∧
    (PendingSw.mk .main 2160000 .release .release).act = .release ∧
    (PendingSw.mk .main 2160000 .release .release).frame ≤ (chan .orphaned).now := by decide

/-- An adoption to be carried out on the primary port, UP or not, or on a spare; and one that the playlist has left behind. -/
theorem witness_SwitchLineMakesPending_adoption :
    (orphan.playlist.map (·.id)).Nodup ∧ (coverAt orphan.playlist orphan.now).map (·.id) = some 9 ∧
    (coverAt orphan.playlist orphan.now).map (·.id) ≠ some 8 ∧ orphan.pendingSw = [] ∧ orphan.openEntry = none ∧
    { orphan with adoption := some ⟨9, 3⟩ }.adoption = some ⟨9, 3⟩ ∧ orphan.portInUse = some conf.primary ∧
    0 ∉ orphanPart.plant.spareQueue ∧ (∀ i, (orphanPart.plant.port i).holder ≠ some 0) ∧ (orphanPart.plant.port 3).state = .up ∧
    (orphanPart.plant.port 3).role ≠ .spare ∧ ((part orphan (up .primary).fallen).plant.port 3).state ≠ .up ∧
    (∀ j, ((part orphan (up .primary).fallen).plant.port j).role ≠ .spare) ∧
    (∀ sw ∈ [SwitchPos.onLocal, .filler], { orphan with switch := sw }.switch = sw) ∧
    ∀ i j, (orphanPart.plant.port i).holder = some 0 → (orphanPart.plant.port j).holder = some 0 → i = j := by decide

/-! ### Chapter 10 -/

theorem witness_DescriptionsReadBack :
    descFits { desc 4294967295 with
      duration := 4294967295, clip := some ⟨255, 16777215, List.replicate 32 0x41⟩, eom := some 16777215, noJoin := true } = true ∧
    descFits (follower 0) = true := by decide

end Sys2Proof.Tests
end

