-- ==== Sys2Proof/Proofs/WatchScore.lean ====
section
/-! PROOFS. The watch's score after a frame (R79), and the verdict, the health and the HEALTH notice that carry it. -/

namespace Sys2Proof.Machine

/-! ## The weighted sum and the score -/

theorem Conds.weight_eq (w : Weights) (c : Conds) :
    c.weight w = (if c.noSignal = true then w.noSignal else 0) + (if c.black = true then w.black else 0) +
      (if c.frozen = true then w.frozen else 0) + (if c.silent = true then w.silent else 0) +
      (if c.tcLoss = true then w.tcLoss else 0) + (if c.tcJump = true then w.tcJump else 0) +
      (if c.noProbe = true then w.noProbe else 0) + (if c.siteSilent = true then w.siteSilent else 0) := rfl

/-- A condition's share is at most its weight, present or not. -/
theorem share_le {b : Bool} {n k : Nat} (h : n ≤ k) : share b n ≤ k := by
  cases b
  · exact Nat.zero_le k
  · exact h

/-- R79: eight weights of at most 15 give at most 8 × 15. -/
theorem Conds.weight_le (w : Weights) (c : Conds)
    (h : w.noSignal ≤ 15 ∧ w.black ≤ 15 ∧ w.frozen ≤ 15 ∧ w.silent ≤ 15 ∧ w.tcLoss ≤ 15 ∧ w.tcJump ≤ 15 ∧ w.noProbe ≤ 15 ∧
      w.siteSilent ≤ 15) : c.weight w ≤ 120 := by
  obtain ⟨hSignal, hBlack, hFrozen, hSilent, hLoss, hJump, hProbe, hSite⟩ := h
  calc c.weight w ≤ 15 + 15 + 15 + 15 + 15 + 15 + 15 + 15 := by
        unfold Conds.weight
        gcongr <;> exact share_le ‹_›
    _ = 120 := rfl

theorem nextScore_of_pos (g : WatchParams) (score : Nat) {w : Nat} (h : 0 < w) :
    nextScore g score w = min 255 (score + w * 2 ^ g.sensitivity) := if_pos h

@[simp] theorem nextScore_zero (g : WatchParams) (score : Nat) : nextScore g score 0 = score - g.recovery := rfl

/-- R79: a score is never above 255 once it was not. -/
theorem nextScore_le (g : WatchParams) {score : Nat} (w : Nat) (h : score ≤ 255) : nextScore g score w ≤ 255 := by
  rcases Nat.eq_zero_or_pos w with rfl | hw
  · exact (Nat.sub_le _ _).trans h
  · rw [nextScore_of_pos g score hw]
    exact Nat.min_le_left _ _

/-! ## The evaluation on the watch alone (R75) -/

theorem evaluate_score (f : Family) (g : WatchParams) (silent : Bool) (w : Watch) :
    (evaluate f g silent w).score = nextScore g w.score ((evaluate f g silent w).conds.weight g.weights) := rfl

theorem evaluate_health (f : Family) (g : WatchParams) (silent : Bool) (w : Watch) :
    (evaluate f g silent w).health = nextHealth g w.health (evaluate f g silent w).warm (evaluate f g silent w).score := rfl

/-- R80: the verdict of the frame is the newest of the history, whatever the 16 kept leave out. -/
theorem evaluate_history_getLast (f : Family) (g : WatchParams) (silent : Bool) (w : Watch) :
    (evaluate f g silent w).history.getLast? = some ⟨(evaluate f g silent w).conds, (evaluate f g silent w).score⟩ := by
  simp [evaluate, List.getLast?_drop]

/-! ## The evaluation in the plant (R75, R85) -/

@[simp] theorem Plant.tellHealth_chan (p : Plant) (c d : Chan) (before : Health) : (p.tellHealth c before).chan d = p.chan d := rfl

theorem Plant.notices_modChan (p : Plant) (c : Chan) (f : Channel → Channel) : (p.modChan c f).notices = p.notices := rfl

theorem Plant.notices_notify (p : Plant) (k : NoticeKind) (d : Option Chan) (b : List Byte) :
    (p.notify k d b).notices = p.notices ++ [⟨k, d, b⟩] := by
  simp [Plant.notices]

/-- The watch of a configured channel after the frame is its evaluation, whether or not the health is told. -/
theorem Plant.evaluateWatch_watch (p : Plant) (c : Chan) {g : ChannelConfig} (hg : p.config c = some g) :
    ((p.evaluateWatch c).chan c).watch = evaluate (p.family c) g.watch (p.heartbeat == .expired) (p.chan c).watch := by
  simp only [Plant.evaluateWatch, hg]
  split <;> simp

/-- R85: a change of health is told with the watch as the evaluation leaves it. -/
theorem Plant.evaluateWatch_notices (p : Plant) (c : Chan) {g : ChannelConfig} {w : Watch} (hg : p.config c = some g)
    (hw : w = ((p.evaluateWatch c).chan c).watch) (changed : w.health ≠ (p.chan c).watch.health) :
    (p.evaluateWatch c).notices = p.notices ++ [⟨.health, some c, u8 (p.chan c).watch.health.code ++ u8 w.health.code ++
      u8 w.score ++ w.conds.bytes ++ historyBytes w.history⟩] := by
  rw [p.evaluateWatch_watch c hg] at hw
  subst hw
  simp [Plant.evaluateWatch, hg, changed, Plant.tellHealth, Plant.notices_notify, Plant.notices_modChan]

/-! ## The obligation -/

/-- Settles O37: what the evaluation leaves in the watch, and W read off the conditions it leaves. -/
theorem scoreFollowsR79 : Obligations.ScoreFollowsR79 := by
  intro c p g before after w hg hbefore hafter hw
  rw [← Conds.weight_eq] at hw
  have heval := hafter.trans (p.evaluateWatch_watch c hg)
  rw [← hbefore] at heval
  have hscore : after.score = nextScore g.watch before.score w := by rw [hw, heval]; exact evaluate_score ..
  refine ⟨fun hpos => ?_, fun hzero => ?_, fun hle => ?_, fun hweights => ?_, ?_, ?_, fun changed => ?_⟩
  · rw [hscore, nextScore_of_pos _ _ hpos]
  · rw [hscore, hzero, nextScore_zero, Nat.zero_max]
  · rw [hscore]
    exact nextScore_le _ _ hle
  · have hle : w ≤ 120 := hw ▸ Conds.weight_le _ _ hweights
    exact ⟨hle, fun hsens => by rw [hsens]; omega⟩
  · rw [heval]
    exact evaluate_history_getLast ..
  · rw [heval]
    exact evaluate_health ..
  · subst hbefore
    exact p.evaluateWatch_notices c hg hafter changed

end Sys2Proof.Machine
end

