-- ==== Sys2Proof/Proofs/AsRunRing.lean ====
section
/-! PROOFS. The as-run ring and its running index as an entry is appended (R167). -/

namespace Sys2Proof.Machine

/-! ## The ring -/

/-- R167: below 512 entries nothing leaves. -/
theorem AsRunLog.append_ring_of_room (g : AsRunLog) (x : AsRunItem) (h : g.ring.length < 512) :
    (g.append x).ring = g.ring ++ [{ index := g.index, item := x }] := by
  have hdrop : g.ring.length + 1 - 512 = 0 := by omega
  simp only [AsRunLog.append, hdrop, List.drop_zero]

/-- R167: at 512 entries the oldest leaves. -/
theorem AsRunLog.append_ring_of_full (g : AsRunLog) (x : AsRunItem) (h : g.ring.length = 512) :
    (g.append x).ring = g.ring.tail ++ [{ index := g.index, item := x }] := by
  have hdrop : g.ring.length + 1 - 512 = 1 := by omega
  have hne : g.ring ≠ [] := List.ne_nil_of_length_pos (by omega)
  simp only [AsRunLog.append, hdrop, List.drop_one, List.tail_append_of_ne_nil hne]

/-! ## The running index -/

theorem AsRunLog.append_index_of_lt (g : AsRunLog) (x : AsRunItem) (h : g.index < 4294967295) :
    (g.append x).index = g.index + 1 :=
  Nat.mod_eq_of_lt (Nat.succ_lt_succ h)

/-- R167: the running index has 32 bits. -/
theorem AsRunLog.append_index_wraps (g : AsRunLog) (x : AsRunItem) (h : g.index = 4294967295) : (g.append x).index = 0 := by
  simp only [AsRunLog.append, h, Nat.reduceAdd, Nat.mod_self]

/-! ## The obligation -/

theorem State.deliver_asRun (b : Bool) (s : State) (x : AsRunItem) : s.deliver b (.asRun x) = { s with log := s.log.append x } := rfl

/-- Settles O14: a ring of at most 512 entries is full or has room, and the index is the last one or below it. -/
theorem asRunRingTakesEntries : Obligations.AsRunRingTakesEntries := by
  refine ⟨fun g x hring _ => ⟨g.append_size x, ?_, g.append_index_of_lt x, g.append_index_wraps x⟩, State.deliver_asRun⟩
  by_cases full : g.ring.length = 512
  · rw [if_pos full]
    exact g.append_ring_of_full x full
  · rw [if_neg full]
    exact g.append_ring_of_room x (Nat.lt_of_le_of_ne hring full)

end Sys2Proof.Machine
end

