-- ==== Sys2Proof/Proofs/Store.lean ====
section
/-! PROOFS. What the work on channels and ports leaves of the two stores that have bounds: the ids on every playlist and the
replication hold. Each operation that takes no event on or off a playlist and no record in or out of the hold keeps both. -/

namespace Sys2Proof.Machine

/-- The ids on a playlist, in order. -/
def idsOf (l : List Event) : List Nat := l.map (·.id)

/-- The ids on every playlist, and the hold. -/
def Plant.store (p : Plant) : (Chan → List Nat) × List HoldEntry := (fun c => idsOf (p.chan c).playlist, p.hold)

theorem Plant.store_eq_iff {p q : Plant} :
    q.store = p.store ↔ (∀ c, idsOf (q.chan c).playlist = idsOf (p.chan c).playlist) ∧ q.hold = p.hold := by
  simp [Plant.store, funext_iff]

theorem Plant.hold_of_store {p q : Plant} (h : q.store = p.store) : q.hold = p.hold := (Plant.store_eq_iff.mp h).2

theorem Plant.ids_of_store {p q : Plant} (h : q.store = p.store) (c : Chan) :
    idsOf (q.chan c).playlist = idsOf (p.chan c).playlist := (Plant.store_eq_iff.mp h).1 c

theorem Plant.foldl_store {α : Type} (f : Plant → α → Plant) (h : ∀ q a, (f q a).store = q.store) (l : List α) (p : Plant) :
    (l.foldl f p).store = p.store := by
  induction l generalizing p with
  | nil => rfl
  | cons a l ih => rw [List.foldl_cons, ih, h]

/-! ## The parts of the plant -/

theorem Plant.store_modChan (p : Plant) (c : Chan) (f : Channel → Channel)
    (h : idsOf (f (p.chan c)).playlist = idsOf (p.chan c).playlist) : (p.modChan c f).store = p.store := by
  refine Plant.store_eq_iff.mpr ⟨fun d => ?_, rfl⟩
  rw [Plant.chan_modChan]
  split
  · next e => subst e; exact h
  · rfl

@[simp] theorem Plant.setPort_store (p : Plant) (i : PortNo) (x : Port) : (p.setPort i x).store = p.store := rfl
@[simp] theorem Plant.modPort_store (p : Plant) (i : PortNo) (f : Port → Port) : (p.modPort i f).store = p.store := rfl
@[simp] theorem Plant.mapPorts_store (p : Plant) (f : Port → Port) : (p.mapPorts f).store = p.store := rfl
@[simp] theorem Plant.ports_store (p : Plant) (v : Vector Port 20) : ({ p with ports := v } : Plant).store = p.store := rfl
@[simp] theorem Plant.setRef_store (p : Plant) (r : RefId) (x : Reference) : (p.setRef r x).store = p.store := by cases r <;> rfl
@[simp] theorem Plant.setLink_store (p : Plant) (l : LinkId) (x : Link) : (p.setLink l x).store = p.store := by cases l <;> rfl
@[simp] theorem Plant.emit_store (p : Plant) (o : Outgoing) : (p.emit o).store = p.store := rfl
@[simp] theorem Plant.notify_store (p : Plant) (k : NoticeKind) (c : Option Chan) (b : List Byte) :
    (p.notify k c b).store = p.store := rfl
@[simp] theorem Plant.sendBack_store (p : Plant) (r : BackRec) : (p.sendBack r).store = p.store := rfl
@[simp] theorem Plant.tickFree_store (p : Plant) : p.tickFree.store = p.store := rfl
@[simp] theorem Plant.leaveQueue_store (p : Plant) (c : Chan) : (p.leaveQueue c).store = p.store := rfl

/-! ## Ids through the operations on a list -/

@[simp] theorem idsOf_modEvent (l : List Event) (id : Nat) (f : Event → Event) (h : ∀ e, (f e).id = e.id) :
    idsOf (modEvent l id f) = idsOf l := map_id_modEvent l id f h

@[simp] theorem Event.eclipse_id (h : Nat) (e : Event) : (e.eclipse h).id = e.id := rfl
@[simp] theorem Event.cutAt_id (h : Nat) (e : Event) : (e.cutAt h).id = e.id := by unfold Event.cutAt; split <;> rfl
@[simp] theorem Event.place_id (w s : Nat) (e : Event) : (e.place w s).id = e.id := by unfold Event.place; split <;> rfl
@[simp] theorem Event.shift_id (d : Nat) (e : Event) : (e.shift d).id = e.id := rfl
@[simp] theorem Plant.bindTo_id (p : Plant) (s : CueState) (e : Event) : (p.bindTo s e).id = e.id := rfl
@[simp] theorem Plant.skip_id (p : Plant) (e : Event) : (p.skip e).id = e.id := by unfold Plant.skip; split <;> rfl

@[simp] theorem idsOf_walkBack (h place : Nat) (l : List Event) : idsOf (walkBack h place l) = idsOf l := by
  induction l with
  | nil => rfl
  | cons e l ih =>
    simp only [idsOf] at ih
    simp only [walkBack]
    split
    · simp [idsOf, ih]
    · split <;> simp [idsOf, ih]

theorem idsOf_visit (window floor : Nat) (done : List Event) (e : Event) :
    idsOf (visit window floor done e) = e.id :: idsOf done := by
  have walk := fun h place => idsOf_walkBack h place done
  simp only [idsOf] at walk ⊢
  simp only [visit]
  repeat' split
  all_goals simp [walk]

/-- R32: a resolution pass takes no event on or off the list, and keeps its order. -/
@[simp] theorem idsOf_resolveList (window floor : Nat) (l : List Event) : idsOf (resolveList window floor l) = idsOf l := by
  have pass : ∀ (l done : List Event),
      idsOf (l.foldl (visit window floor) done) = (idsOf l).reverse ++ idsOf done := by
    intro l
    induction l with
    | nil => intro done; rfl
    | cons e l ih =>
      intro done
      rw [List.foldl_cons, ih, idsOf_visit]
      simp [idsOf]
  have := pass l []
  simp only [idsOf, resolveList, List.map_reverse] at this ⊢
  simp [this]

@[simp] theorem idsOf_markProgress (l : List Event) (s : StepEntry) : idsOf (markProgress l s) = idsOf l := by
  simp [markProgress]

@[simp] theorem idsOf_unmarkProgress (l : List Event) (s : StepEntry) : idsOf (unmarkProgress l s) = idsOf l := by
  unfold unmarkProgress
  split <;> simp

theorem idsOf_foldl (f : List Event → StepEntry → List Event) (h : ∀ l s, idsOf (f l s) = idsOf l) (q : List StepEntry)
    (l : List Event) : idsOf (q.foldl f l) = idsOf l := by
  induction q generalizing l with
  | nil => rfl
  | cons s q ih => rw [List.foldl_cons, ih, h]

@[simp] theorem idsOf_foldl_markProgress (q : List StepEntry) (l : List Event) : idsOf (q.foldl markProgress l) = idsOf l :=
  idsOf_foldl _ idsOf_markProgress q l

@[simp] theorem idsOf_foldl_unmarkProgress (q : List StepEntry) (l : List Event) : idsOf (q.foldl unmarkProgress l) = idsOf l :=
  idsOf_foldl _ idsOf_unmarkProgress q l

@[simp] theorem Plant.passOver_id (p : Plant) (e : Event) : (p.passOver e).id = e.id := by
  unfold Plant.passOver; split <;> simp

@[simp] theorem idsOf_passOverTo (p : Plant) (target : Option Nat) (l : List Event) : idsOf (p.passOverTo target l) = idsOf l := by
  induction l with
  | nil => rfl
  | cons e l ih =>
    simp only [idsOf] at ih
    simp only [Plant.passOverTo]
    split <;> simp [idsOf, ih]

theorem idsOf_map (l : List Event) (f : Event → Event) (h : ∀ e, (f e).id = e.id) : idsOf (l.map f) = idsOf l := by
  simp [idsOf, h]

/-! ## Resolution and the Cue Sequencer -/

@[simp] theorem Plant.resolve_store (p : Plant) (c : Chan) : (p.resolve c).store = p.store := by
  exact p.store_modChan c _ (by simp)

theorem Plant.modEvent_store (p : Plant) (c : Chan) (id : Nat) (f : Event → Event) (h : ∀ e, (f e).id = e.id) :
    (p.modEvent c id f).store = p.store := p.store_modChan c _ (idsOf_modEvent _ _ _ h)

@[simp] theorem Plant.withdrawCue_store (p : Plant) (c : Chan) (which : StepEntry → Bool) :
    (p.withdrawCue c which).store = p.store := rfl

@[simp] theorem Plant.eventRemoved_store (p : Plant) (c : Chan) (id : Nat) : (p.eventRemoved c id).store = p.store := by
  simp [Plant.eventRemoved, Plant.store_modChan, Channel.recursor, Channel.dropEntries]

@[simp] theorem Plant.emptied_store (p : Plant) (c : Chan) : (p.emptied c).store = p.store := by
  simp [Plant.emptied, Plant.store_modChan]

@[simp] theorem Plant.recursor_store (p : Plant) (c : Chan) : (p.modChan c Channel.recursor).store = p.store :=
  p.store_modChan c _ rfl

@[simp] theorem Plant.cueEffect_store (p : Plant) (c : Chan) (old : List Event) (z : PlOp) :
    (p.cueEffect c old z).store = p.store := by
  unfold Plant.cueEffect
  repeat' split
  all_goals simp [Plant.store_modChan, Channel.dropEntries]

@[simp] theorem Plant.appendEntry_store (p : Plant) (item : AsRunItem) : (p.appendEntry item).store = p.store := rfl

@[simp] theorem Plant.closeEntry_store (p : Plant) (c : Chan) (exit : ExitKind) (finish : Nat) :
    (p.closeEntry c exit finish).store = p.store := by
  unfold Plant.closeEntry
  split
  · rfl
  · simp [Plant.modEvent_store, Plant.store_modChan]

@[simp] theorem Plant.openEntryFor_store (p : Plant) (c : Chan) (event start : Nat) (kind : EntryKind) (port : Option PortNo) :
    (p.openEntryFor c event start kind port).store = p.store := by
  unfold Plant.openEntryFor
  split <;> simp [Plant.store_modChan]

@[simp] theorem Plant.joinEntry_store (p : Plant) (c : Chan) (event t : Nat) (kind : EntryKind) (port : Option PortNo) :
    (p.joinEntry c event t kind port).store = p.store := by
  unfold Plant.joinEntry
  repeat' split
  all_goals simp

@[simp] theorem Plant.notAired_store (p : Plant) (c : Chan) (e : Event) : (p.notAired c e).store = p.store := rfl

@[simp] theorem Plant.airingEntry_store (p : Plant) (c : Chan) (halted : Bool) (e : Event) :
    (p.airingEntry c halted e).store = p.store := by
  simp only [Plant.airingEntry]
  repeat' split
  all_goals simp

@[simp] theorem Plant.doneEntry_store (p : Plant) (c : Chan) (stepped : Bool) (e : Event) :
    (p.doneEntry c stepped e).store = p.store := by
  unfold Plant.doneEntry
  repeat' split
  all_goals simp

@[simp] theorem Plant.renewIssuing_store (p : Plant) (c : Chan) : (p.renewIssuing c).store = p.store := by
  simp [Plant.renewIssuing, Plant.store_modChan]

@[simp] theorem Plant.enqueueDue_store (p : Plant) (c : Chan) : (p.enqueueDue c).store = p.store := by
  simp [Plant.enqueueDue, Plant.store_modChan]

@[simp] theorem Plant.taken_store (p : Plant) (c : Chan) (s : StepEntry) : (p.taken c s).store = p.store := by
  unfold Plant.taken
  split
  · exact p.modEvent_store c _ _ fun e => by split <;> simp
  · rfl

@[simp] theorem Plant.tellHalted_store (p : Plant) (c : Chan) (z : Option HaltCause) : (p.tellHalted c z).store = p.store := by
  unfold Plant.tellHalted
  split <;> rfl

@[simp] theorem Plant.tellCueFault_store (p : Plant) (c : Chan) (s : StepEntry) (r : CueReason) (action : Option Mismatch) :
    (p.tellCueFault c s r action).store = p.store := rfl

@[simp] theorem Plant.tellEmpty_store (p : Plant) (c : Chan) (event : Nat) : (p.tellEmpty c event).store = p.store := rfl

@[simp] theorem Plant.tellCueLate_store (p : Plant) (c : Chan) (s : StepEntry) : (p.tellCueLate c s).store = p.store := rfl

@[simp] theorem Plant.withdrawSlots_store (p : Plant) (c : Chan) : (p.withdrawSlots c).store = p.store := rfl

@[simp] theorem Plant.haltSequence_store (p : Plant) (c : Chan) (cause : HaltCause) : (p.haltSequence c cause).store = p.store := by
  unfold Plant.haltSequence
  split <;> simp [Plant.store_modChan]

@[simp] theorem Plant.clearHalt_store (p : Plant) (c : Chan) : (p.clearHalt c).store = p.store := by
  unfold Plant.clearHalt
  split <;> simp [Plant.store_modChan]

@[simp] theorem Plant.decideSwitch_store (p : Plant) (c : Chan) (pos : SwitchPos) (frame : Nat) (cause : SwitchCause)
    (act : SwAct) : (p.decideSwitch c pos frame cause act).store = p.store := by
  simp [Plant.decideSwitch, Plant.store_modChan]

@[simp] theorem Plant.writeLast_store (p : Plant) (c : Chan) (o : DevOutcome) : (p.writeLast c o).store = p.store := by
  unfold Plant.writeLast
  split <;> simp [Plant.store_modChan]

@[simp] theorem Plant.dropRepetitions_store (p : Plant) (c : Chan) (s : StepEntry) : (p.dropRepetitions c s).store = p.store := by
  unfold Plant.dropRepetitions
  split <;> simp [Plant.modEvent_store, Plant.store_modChan]

@[simp] theorem Plant.skipEvent_store (p : Plant) (c : Chan) (s : StepEntry) : (p.skipEvent c s).store = p.store := by
  simp only [Plant.skipEvent]
  repeat' split
  all_goals simp [Plant.modEvent_store, Plant.store_modChan, Channel.dropEntriesLike]

@[simp] theorem Plant.mismatchAction_store (p : Plant) (c : Chan) (s : StepEntry) (z : Mismatch) :
    (p.mismatchAction c s z).store = p.store := by
  unfold Plant.mismatchAction
  split <;> simp

@[simp] theorem Plant.cueOutcome_store (p : Plant) (c : Chan) (s : StepEntry) (o : DevOutcome) :
    (p.cueOutcome c s o).store = p.store := by
  have rolls : ∀ q : Plant, (q.modEvent c s.event fun e => if e.cue = .cueing then { e with cue := .rolling } else e).store =
      q.store := fun q => q.modEvent_store c _ _ fun e => by split <;> rfl
  unfold Plant.cueOutcome
  repeat' split
  all_goals simp [rolls]

@[simp] theorem Plant.takeHeadsN_store (n : Nat) (c : Chan) (p : Plant) : (Plant.takeHeadsN n c p).store = p.store := by
  induction n generalizing p with
  | zero => rfl
  | succ n ih =>
    simp only [Plant.takeHeadsN]
    repeat' split
    all_goals simp [ih, Plant.store_modChan]

@[simp] theorem Plant.takeHeads_store (p : Plant) (c : Chan) : (p.takeHeads c).store = p.store := by simp [Plant.takeHeads]

@[simp] theorem Plant.sequence_store (p : Plant) (c : Chan) : (p.sequence c).store = p.store := by
  unfold Plant.sequence
  split <;> simp [Plant.store_modChan]

@[simp] theorem Plant.setCue_store (p : Plant) (c : Chan) (id : Nat) (s : CueState) : (p.setCue c id s).store = p.store :=
  p.modEvent_store c _ _ fun e => by split <;> simp

@[simp] theorem Plant.finishIfEnded_store (p : Plant) (c : Chan) (stepped : Bool) (id : Nat) :
    (p.finishIfEnded c stepped id).store = p.store := by
  unfold Plant.finishIfEnded
  repeat' split
  all_goals simp

@[simp] theorem Plant.tellIfEmpty_store (p : Plant) (c : Chan) (e : Event) : (p.tellIfEmpty c e).store = p.store := by
  unfold Plant.tellIfEmpty
  split <;> simp [Plant.modEvent_store]

@[simp] theorem Plant.moveCue_store (p : Plant) (c : Chan) (stepped : Bool) (id : Nat) : (p.moveCue c stepped id).store = p.store := by
  simp only [Plant.moveCue]
  repeat' split
  all_goals simp [Plant.modEvent_store, Plant.store_modChan, Channel.dropEntries]

@[simp] theorem Plant.moveCues_store (p : Plant) (c : Chan) (stepped : Bool) : (p.moveCues c stepped).store = p.store := by
  simp only [Plant.moveCues, Plant.recursor_store]
  exact Plant.foldl_store _ (fun q id => q.moveCue_store c stepped id) _ _

@[simp] theorem Plant.flushCue_store (p : Plant) (c : Chan) : (p.flushCue c).store = p.store := by
  simp [Plant.flushCue, Plant.store_modChan]

@[simp] theorem Plant.cursorTo_store (p : Plant) (c : Chan) (target : Option Nat) : (p.cursorTo c target).store = p.store := by
  simp [Plant.cursorTo, Plant.store_modChan]

@[simp] theorem Plant.cueJoin_store (p : Plant) (c : Chan) (event offset t : Nat) : (p.cueJoin c event offset t).store = p.store := by
  simp [Plant.cueJoin, Plant.modEvent_store]

@[simp] theorem Plant.cueBridge_store (p : Plant) (c : Chan) (t : Nat) : (p.cueBridge c t).store = p.store := by
  simp [Plant.cueBridge]

@[simp] theorem Plant.cueAdopt_store (p : Plant) (c : Chan) (event : Nat) : (p.cueAdopt c event).store = p.store := by
  simp [Plant.cueAdopt, Plant.modEvent_store]

@[simp] theorem Plant.retireEntries_store (p : Plant) (c : Chan) (id : Nat) : (p.retireEntries c id).store = p.store := by
  simp [Plant.retireEntries, Plant.store_modChan]

/-! ## The arbiters -/

@[simp] theorem Plant.arbitrate_store (p : Plant) (i : PortNo) : (p.arbitrate i).store = p.store := by
  simp only [Plant.arbitrate]
  repeat' split
  all_goals simp

@[simp] theorem Plant.userTakes_store (p : Plant) (i : PortNo) : (p.userTakes i).store = p.store :=
  Plant.foldl_store _ (fun q c => q.takeHeads_store c) _ _

@[simp] theorem Plant.settlePort_store (p : Plant) (i : PortNo) : (p.settlePort i).store = p.store := by simp [Plant.settlePort]

@[simp] theorem Plant.wakeCue_store (p : Plant) (c : Chan) : (p.wakeCue c).store = p.store := by
  unfold Plant.wakeCue
  split <;> simp

@[simp] theorem Plant.wakeAfter_store (p q : Plant) (c : Chan) : (p.wakeAfter q c).store = q.store := by
  unfold Plant.wakeAfter
  split <;> simp

@[simp] theorem Plant.handList_store (p : Plant) (i : PortNo) (l : CmdList) : (p.handList i l).store = p.store := by
  simp [Plant.handList]

@[simp] theorem Plant.handStop_store (p : Plant) (c : Chan) (i : PortNo) (notBefore : Option Nat) :
    (p.handStop c i notBefore).store = p.store := by simp [Plant.handStop, apply_ite Plant.store]

@[simp] theorem Plant.withdrawJoin_store (p : Plant) (c : Chan) (i : PortNo) : (p.withdrawJoin c i).store = p.store := by
  simp [Plant.withdrawJoin]

@[simp] theorem Plant.disown_store (p : Plant) (c : Chan) (i : PortNo) : (p.disown c i).store = p.store := by simp [Plant.disown]

@[simp] theorem Plant.lend_store (p : Plant) (c : Chan) (i : PortNo) : (p.lend c i).store = p.store := rfl

@[simp] theorem Plant.requestSpare_store (p : Plant) (c : Chan) : (p.requestSpare c).1.store = p.store := by
  unfold Plant.requestSpare
  repeat' split
  all_goals rfl

@[simp] theorem Plant.tellPort_store (p : Plant) (i : PortNo) (before : PortState) (cause : PortCause) :
    (p.tellPort i before cause).store = p.store := rfl

/-! ## The Replication Unit and the Site Watch Unit -/

@[simp] theorem Plant.tellLink_store (p : Plant) (l : LinkId) : (p.tellLink l).store = p.store := by
  simp [Plant.tellLink, Plant.modLink]

@[simp] theorem Plant.goodFrame_store (p : Plant) (l : LinkId) : (p.goodFrame l).store = p.store := by
  simp only [Plant.goodFrame]
  split <;> simp [Plant.modLink]

@[simp] theorem Plant.tellReplica_store (p : Plant) (c : Chan) (before : ReplicaState) (r : ReplicaReason)
    (refused : Option (Status × Nat)) : (p.tellReplica c before r refused).store = p.store := rfl

@[simp] theorem Plant.modReplica_store (p : Plant) (c : Chan) (f : Replica → Replica) : (p.modReplica c f).store = p.store := by
  simp [Plant.modReplica, Plant.store_modChan]

@[simp] theorem Plant.advanceNext_store (p : Plant) (c : Chan) : (p.advanceNext c).store = p.store := by simp [Plant.advanceNext]

@[simp] theorem Plant.evaluateWatch_store (p : Plant) (c : Chan) : (p.evaluateWatch c).store = p.store := by
  simp only [Plant.evaluateWatch]
  repeat' split
  all_goals simp [Plant.store_modChan, Plant.tellHealth]

@[simp] theorem Plant.comparePulse_store (p : Plant) (c : Chan) (id : Option Nat) : (p.comparePulse c id).store = p.store := by
  simp only [Plant.comparePulse]
  repeat' split
  all_goals simp [Plant.store_modChan]

/-! ## The Changeover Unit -/

@[simp] theorem Plant.setMode_store (p : Plant) (c : Chan) (m : Mode) : (p.setMode c m).store = p.store := by
  simp [Plant.setMode, Plant.store_modChan]

@[simp] theorem Plant.usePort_store (p : Plant) (c : Chan) (i : Option PortNo) : (p.usePort c i).store = p.store := by
  simp [Plant.usePort, Plant.store_modChan]

@[simp] theorem Plant.modTake_store (p : Plant) (c : Chan) (f : TakeRec → TakeRec) : (p.modTake c f).store = p.store := by
  simp [Plant.modTake, Plant.store_modChan]

@[simp] theorem Plant.cancelJoinSwitch_store (p : Plant) (c : Chan) : (p.cancelJoinSwitch c).store = p.store := by
  simp [Plant.cancelJoinSwitch, Plant.store_modChan]

@[simp] theorem Plant.noteCover_store (p : Plant) (c : Chan) : (p.noteCover c).store = p.store := by
  simp [Plant.noteCover, Plant.store_modChan]

@[simp] theorem Plant.setSwitch_store (p : Plant) (c : Chan) (pos : SwitchPos) (cause : SwitchCause) :
    (p.setSwitch c pos cause).store = p.store := by
  simp only [Plant.setSwitch]
  split <;> simp [Plant.store_modChan]

@[simp] theorem Plant.keepBridge_store (p : Plant) (c : Chan) : (p.keepBridge c).store = p.store := by
  simp [Plant.keepBridge, apply_ite Plant.store]

@[simp] theorem Plant.bridgeAt_store (p : Plant) (c : Chan) (t : Nat) (r : BridgeReason) : (p.bridgeAt c t r).store = p.store := by
  simp [Plant.bridgeAt]

@[simp] theorem Plant.joinOn_store (p : Plant) (c : Chan) (i : PortNo) (now0 t : Nat) (e : Event) :
    (p.joinOn c i now0 t e).store = p.store := by
  have binds : ∀ q r : Plant, (q.modEvent c e.id fun e => if e.cue = .pending then r.bindTo .cueing e else e).store = q.store :=
    fun q r => q.modEvent_store c _ _ fun e => by split <;> simp
  simp [Plant.joinOn, binds]

@[simp] theorem Plant.coldJoin_store (p : Plant) (c : Chan) (i : PortNo) (now0 : Nat) (stage : Stage) :
    (p.coldJoin c i now0 stage).store = p.store := by
  simp only [Plant.coldJoin]
  repeat' split
  all_goals simp

@[simp] theorem Plant.startLocalRec_store (p : Plant) (c : Chan) : (p.startLocalRec c).store = p.store := by
  simp [Plant.startLocalRec, Plant.store_modChan]

@[simp] theorem Plant.localJoinOn_store (p : Plant) (c : Chan) (i : PortNo) : (p.localJoinOn c i).store = p.store := by
  simp [Plant.localJoinOn]

@[simp] theorem Plant.spareGranted_store (p : Plant) (c : Chan) (i : PortNo) : (p.spareGranted c i).store = p.store := by
  unfold Plant.spareGranted
  split <;> simp

@[simp] theorem Plant.spareFreed_store (p : Plant) (i : PortNo) : (p.spareFreed i).store = p.store := by
  simp only [Plant.spareFreed]
  repeat' split
  all_goals simp

@[simp] theorem Plant.releaseSpare_store (p : Plant) (c : Chan) : (p.releaseSpare c).store = p.store := by
  unfold Plant.releaseSpare
  split <;> simp

@[simp] theorem Plant.backToPrimary_store (p : Plant) (c : Chan) : (p.backToPrimary c).store = p.store := by
  simp [Plant.backToPrimary]

@[simp] theorem Plant.tellFailed_store (p : Plant) (c : Chan) (k : NoticeKind) (kind : TakeKind) (r : FailReason) (i : PortNo) :
    (p.tellFailed c k kind r i).store = p.store := rfl

@[simp] theorem Plant.tryPrimary_store (p : Plant) (c : Chan) : (p.tryPrimary c).store = p.store := by
  unfold Plant.tryPrimary
  repeat' split
  all_goals simp

@[simp] theorem Plant.failRecord_store (p : Plant) (c : Chan) (r : FailReason) : (p.failRecord c r).store = p.store := by
  simp [Plant.failRecord]

@[simp] theorem Plant.leaveServer_store (p : Plant) (c : Chan) : (p.leaveServer c).store = p.store := by
  rw [Plant.leaveServer_eq]
  refine p.store_modChan c _ ?_
  unfold Channel.markCut
  split <;> rfl

@[simp] theorem Plant.noFurtherPort_store (p : Plant) (c : Chan) (i : PortNo) (r : FailReason) (t : Nat) (drop : Bool) :
    (p.noFurtherPort c i r t drop).store = p.store := by simp [Plant.noFurtherPort, apply_ite Plant.store]

@[simp] theorem Plant.failedAfterSwitch_store (p : Plant) (c : Chan) (i : PortNo) (r : FailReason) :
    (p.failedAfterSwitch c i r).store = p.store := by simp [Plant.failedAfterSwitch]

theorem Plant.requestSpare_store_of (p : Plant) (c : Chan) {q : Plant} {o : Option PortNo} (h : p.requestSpare c = (q, o)) :
    q.store = p.store := by
  have := p.requestSpare_store c
  rwa [h] at this

@[simp] theorem Plant.askSpare_store (p : Plant) (c : Chan) (i : PortNo) (r : FailReason) (t : Nat) (after : Bool) :
    (p.askSpare c i r t after).store = p.store := by
  simp only [Plant.askSpare]
  split
  · next h => split <;> split <;> simp [p.requestSpare_store_of c h]
  · next h => simp [p.requestSpare_store_of c h]

@[simp] theorem Plant.turnToSpare_store (p : Plant) (c : Chan) (i : PortNo) : (p.turnToSpare c i).store = p.store := by
  simp [Plant.turnToSpare]

@[simp] theorem Plant.joinFail_store (p : Plant) (c : Chan) (i : PortNo) (r : FailReason) : (p.joinFail c i r).store = p.store := by
  simp [Plant.joinFail, apply_ite Plant.store]

theorem Plant.spareAnew_store_of (p : Plant) (c : Chan) {q : Plant} {o : Option PortNo} (h : p.spareAnew c = (q, o)) :
    q.store = p.store := by
  unfold Plant.spareAnew at h
  split at h
  · cases h; rfl
  · exact p.requestSpare_store_of c h

@[simp] theorem Plant.portLost_store (p : Plant) (c : Chan) (i : PortNo) : (p.portLost c i).store = p.store := by
  simp only [Plant.portLost]
  split
  · next h =>
    have h := Plant.spareAnew_store_of _ c h
    simp only [Plant.localJoinOn_store, Plant.tellFailed_store, Plant.usePort_store, h]
    repeat' split
    all_goals simp
  · next h =>
    have h := Plant.spareAnew_store_of _ c h
    simp only [Plant.wakeCue_store, Plant.tryPrimary_store, Plant.tellFailed_store, Plant.usePort_store, h]
    repeat' split
    all_goals simp

@[simp] theorem Plant.spareLost_store (p : Plant) (c : Chan) (i : PortNo) : (p.spareLost c i).store = p.store := by
  simp [Plant.spareLost, Plant.store_modChan]

@[simp] theorem Plant.localJoin_store (p : Plant) (c : Chan) (i : PortNo) : (p.localJoin c i).store = p.store := by
  simp [Plant.localJoin, apply_ite Plant.store]

@[simp] theorem Plant.takePath_store (p : Plant) (c : Chan) : (p.takePath c).store = p.store := by
  unfold Plant.takePath
  repeat' split
  all_goals simp

@[simp] theorem Plant.beginTake_store (p : Plant) (c : Chan) (kind : TakeKind) (o : TakeOption) :
    (p.beginTake c kind o).store = p.store := by simp [Plant.beginTake, apply_ite Plant.store, Plant.store_modChan]

@[simp] theorem Plant.verifyOutcome_store (p : Plant) (c : Chan) (i : PortNo) (o : DevOutcome) :
    (p.verifyOutcome c i o).store = p.store := by
  simp only [Plant.verifyOutcome]
  repeat' split
  all_goals simp

@[simp] theorem Plant.pointDone_store (p : Plant) (c : Chan) (i : PortNo) : (p.pointDone c i).store = p.store := by
  simp only [Plant.pointDone]
  repeat' split
  all_goals simp

@[simp] theorem Plant.listOutcome_store (p : Plant) (c : Chan) (i : PortNo) (purpose : Purpose) (live : Bool) (cmd : DevCmd)
    (o : DevOutcome) : (p.listOutcome c i purpose live cmd o).store = p.store := by
  simp only [Plant.listOutcome]
  repeat' split
  all_goals simp

@[simp] theorem Plant.withhold_store (p : Plant) (c : Chan) (r : WithholdReason) : (p.withhold c r).store = p.store := rfl

@[simp] theorem Plant.beginConfirm_store (p : Plant) (c : Chan) (demoted : Bool) : (p.beginConfirm c demoted).store = p.store := by
  simp [Plant.beginConfirm, Plant.store_modChan]

@[simp] theorem Plant.leaveConfirm_store (p : Plant) (c : Chan) (r : WithholdReason) : (p.leaveConfirm c r).store = p.store := by
  simp [Plant.leaveConfirm, Plant.store_modChan]

@[simp] theorem Plant.expireConfirm_store (p : Plant) (c : Chan) : (p.expireConfirm c).store = p.store := by
  unfold Plant.expireConfirm
  repeat' split
  all_goals simp

@[simp] theorem Plant.trigger_store (p : Plant) (c : Chan) : (p.trigger c).store = p.store := by
  unfold Plant.trigger
  repeat' split
  all_goals simp

@[simp] theorem Plant.tellResume_store (p : Plant) (c : Chan) (r : ReturnRec) (cancel : Bool) :
    (p.tellResume c r cancel).store = p.store := rfl

@[simp] theorem Plant.logAtReturn_store (p : Plant) (c : Chan) (tRet : Nat) : (p.logAtReturn c tRet).store = p.store := by
  unfold Plant.logAtReturn
  repeat' split
  all_goals simp

@[simp] theorem Plant.cancelReturn_store (p : Plant) (c : Chan) (why : CancelReason) : (p.cancelReturn c why).store = p.store := by
  simp only [Plant.cancelReturn]
  repeat' split
  all_goals simp [Plant.store_modChan]

@[simp] theorem Plant.healthReport_store (p : Plant) (c : Chan) (before after : Health) :
    (p.healthReport c before after).store = p.store := by
  unfold Plant.healthReport
  repeat' split
  all_goals simp [Plant.store_modChan]

/-! ## Local running -/

@[simp] theorem Plant.cutOnFiller_store (p : Plant) (c : Chan) (before : SwitchPos) : (p.cutOnFiller c before).store = p.store := by
  simp only [Plant.cutOnFiller]
  repeat' split
  all_goals simp

@[simp] theorem Plant.toFiller_store (p : Plant) (c : Chan) (cause : SwitchCause) : (p.toFiller c cause).store = p.store := by
  simp [Plant.toFiller]

@[simp] theorem Plant.enterLocal_store (p : Plant) (c : Chan) : (p.enterLocal c).store = p.store := by
  unfold Plant.enterLocal
  split <;> simp

@[simp] theorem Plant.tellDone_store (p : Plant) (c : Chan) (k : TakeRec) (j : JoinRec) (kind : EntryKind) :
    (p.tellDone c k j kind).store = p.store := rfl

@[simp] theorem Plant.tellBridge_store (p : Plant) (c : Chan) (k : TakeRec) (r : BridgeReason) (t : Nat) :
    (p.tellBridge c k r t).store = p.store := rfl

@[simp] theorem Plant.endOnBridge_store (p : Plant) (c : Chan) (t : Nat) (r : BridgeReason) :
    (p.endOnBridge c t r).store = p.store := by
  simp only [Plant.endOnBridge]
  repeat' split
  all_goals simp

@[simp] theorem Plant.joinLine_store (p : Plant) (c : Chan) : (p.joinLine c).store = p.store := by
  simp only [Plant.joinLine]
  split
  · rfl
  · split
    · rfl
    · split
      · simp
      · rw [Plant.endOnBridge_store, Plant.cueBridge_store]; split <;> simp

@[simp] theorem Plant.failLine_store (p : Plant) (c : Chan) (i : PortNo) (r : FailReason) : (p.failLine c i r).store = p.store := by
  simp only [Plant.failLine]
  repeat' split
  all_goals simp

@[simp] theorem Plant.adoptFailed_store (p : Plant) (c : Chan) (r : AdoptReason) : (p.adoptFailed c r).store = p.store := by
  simp [Plant.adoptFailed, Plant.store_modChan]

@[simp] theorem Plant.adopt_store (p : Plant) (c : Chan) (a : Adoption) : (p.adopt c a).store = p.store := by
  simp only [Plant.adopt]
  split
  · split <;> simp [Plant.modEvent_store, Plant.store_modChan, apply_ite Event.id]
  · simp [Plant.modEvent_store, Plant.store_modChan, apply_ite Event.id]

@[simp] theorem Plant.adoptLine_store (p : Plant) (c : Chan) : (p.adoptLine c).store = p.store := by
  simp only [Plant.adoptLine]
  split
  · rfl
  · split <;> simp

@[simp] theorem Plant.follow_store (p : Plant) (c : Chan) : (p.follow c).store = p.store := by
  unfold Plant.follow
  split <;> simp

/-! ## Device ports -/

@[simp] theorem Plant.handOutcome_store (p : Plant) (i : PortNo) (out : Outstanding) (o : DevOutcome) :
    (p.handOutcome i out o).store = p.store := by
  simp only [Plant.handOutcome]
  repeat' split
  all_goals simp

@[simp] theorem Plant.endCommand_store (p : Plant) (i : PortNo) (out : Outstanding) (o : DevOutcome) :
    (p.endCommand i out o).store = p.store := by simp [Plant.endCommand]

@[simp] theorem Plant.timeoutClaims_store (n : Nat) (i : PortNo) (p : Plant) : (Plant.timeoutClaims n i p).store = p.store := by
  induction n generalizing p with
  | zero => rfl
  | succ n ih =>
    simp only [Plant.timeoutClaims]
    repeat' split
    all_goals simp [ih]

@[simp] theorem Plant.serveClaim_store (p : Plant) (i : PortNo) : (p.serveClaim i).store = p.store := by
  simp only [Plant.serveClaim]
  split <;> simp

@[simp] theorem Plant.timeoutSlotCue_store (p : Plant) (i : PortNo) : (p.timeoutSlotCue i).store = p.store := by
  unfold Plant.timeoutSlotCue
  split <;> simp

@[simp] theorem Plant.timeoutSlotPass_store (p : Plant) (i : PortNo) : (p.timeoutSlotPass i).store = p.store := by
  unfold Plant.timeoutSlotPass
  split <;> simp

@[simp] theorem Plant.timeoutSlots_store (p : Plant) (i : PortNo) : (p.timeoutSlots i).store = p.store := by
  simp [Plant.timeoutSlots]

@[simp] theorem Plant.timeoutPresented_store (p : Plant) (i : PortNo) (due : Option (CmdList × DevCmd)) :
    (p.timeoutPresented i due).store = p.store := by
  unfold Plant.timeoutPresented
  split
  · rfl
  · simp only
    split <;> simp

@[simp] theorem Plant.reportLoss_store (p : Plant) (i : PortNo) (owner : Option Chan) : (p.reportLoss i owner).store = p.store := by
  unfold Plant.reportLoss
  repeat' split
  all_goals simp

@[simp] theorem Plant.releaseJoin_store (p : Plant) (i : PortNo) (owner : Option Chan) : (p.releaseJoin i owner).store = p.store := by
  unfold Plant.releaseJoin
  repeat' split
  all_goals simp

@[simp] theorem Plant.enterDown_store (p : Plant) (i : PortNo) (cause : PortCause) : (p.enterDown i cause).store = p.store := by
  simp only [Plant.enterDown]
  repeat' split
  all_goals simp

@[simp] theorem Plant.attemptFails_store (p : Plant) (i : PortNo) (k : FailKind) : (p.attemptFails i k).store = p.store := by
  simp only [Plant.attemptFails]
  repeat' split
  all_goals simp

@[simp] theorem Plant.nowUp_store (p : Plant) (i : PortNo) : (p.nowUp i).store = p.store := by
  simp only [Plant.nowUp]
  repeat' split
  all_goals simp

@[simp] theorem Plant.goodReply_store (p : Plant) (i : PortNo) (r : DevReply) : (p.goodReply i r).store = p.store := by
  have h : (if (p.port i).state = .off then p else p.modPort i fun x => { x with rx := [] }).store = p.store := by
    split <;> simp
  simp only [Plant.goodReply]
  generalize (if (p.port i).state = .off then p else p.modPort i fun x => { x with rx := [] }) = q at h ⊢
  repeat' split
  all_goals simp [h]

@[simp] theorem Plant.enterOff_store (p : Plant) (i : PortNo) : (p.enterOff i).store = p.store := by
  simp only [Plant.enterOff]
  repeat' split
  all_goals simp

/-! ## The timebase and a channel's frame start -/

@[simp] theorem Plant.tellReference_store (p : Plant) (r : RefId) : (p.tellReference r).store = p.store := rfl

@[simp] theorem Plant.rollIfDue_store (p : Plant) (c : Chan) : (p.rollIfDue c).store = p.store := by
  simp only [Plant.rollIfDue]
  split
  · rfl
  · simp only [Plant.notify_store, Plant.resolve_store, Plant.mapPorts_store]
    exact p.store_modChan c _ (idsOf_map _ _ fun e => rfl)

@[simp] theorem Plant.advanceNow_store (p : Plant) (c : Chan) (step : Option Int) : (p.advanceNow c step).store = p.store := by
  simp [Plant.advanceNow, Plant.store_modChan]

@[simp] theorem Plant.tellStep_store (p : Plant) (c : Chan) (step : Option Int) : (p.tellStep c step).store = p.store := by
  unfold Plant.tellStep
  split <;> simp

@[simp] theorem Plant.watchFrame_store (p : Plant) (c : Chan) : (p.watchFrame c).store = p.store := by simp [Plant.watchFrame]

@[simp] theorem Plant.watchAndExpiry_store (p : Plant) (c : Chan) : (p.watchAndExpiry c).store = p.store := by
  unfold Plant.watchAndExpiry
  repeat' split
  all_goals simp

@[simp] theorem Plant.serveClaims_store (p : Plant) (c : Chan) : (p.serveClaims c).store = p.store :=
  Plant.foldl_store _ (fun q i => q.serveClaim_store i) _ _

@[simp] theorem Plant.sequenceFrame_store (p : Plant) (c : Chan) : (p.sequenceFrame c).store = p.store := by
  simp only [Plant.sequenceFrame]
  repeat' split
  all_goals simp

@[simp] theorem Plant.latchLine_store (p : Plant) (c : Chan) : (p.latchLine c).store = p.store := by
  unfold Plant.latchLine
  split <;> simp [Plant.store_modChan]

@[simp] theorem Plant.beginFrame_store (step : Option Int) (p : Plant) (c : Chan) :
    (Plant.beginFrame step p c).store = p.store := by simp [Plant.beginFrame]

end Sys2Proof.Machine
end

