-- ==== Sys2Proof/Proofs/Bounds.lean ====
section
/-! PROOFS. The pool's and the hold's bounds (R19, R22, R51, R52, R65) are kept by every operation of the plant: what takes events
off playlists and entries out of the hold keeps them, and what puts one in has judged that there is room. -/

namespace Sys2Proof.Machine

/-- What an operation has to do with the bounds: it keeps those that held. -/
structure Plant.Bounded (p q : Plant) : Prop where
  pool : p.PoolSound → q.PoolSound
  hold : p.HoldSound → q.HoldSound

namespace Plant.Bounded

@[refl, simp] theorem refl (p : Plant) : p.Bounded p := ⟨id, id⟩

theorem trans {p q r : Plant} (h : p.Bounded q) (k : q.Bounded r) : p.Bounded r :=
  ⟨fun s => k.pool (h.pool s), fun s => k.hold (h.hold s)⟩

end Plant.Bounded

/-! ## Less on the playlists and in the hold -/

/-- Every playlist has some of the ids it had, and the hold some of its entries, in the order they had. -/
structure Plant.Shrinks (p q : Plant) : Prop where
  ids : ∀ c, (idsOf (q.chan c).playlist).Sublist (idsOf (p.chan c).playlist)
  hold : q.hold.Sublist p.hold

theorem Plant.Shrinks.of_store {p q : Plant} (h : q.store = p.store) : p.Shrinks q :=
  ⟨fun c => by rw [Plant.ids_of_store h], by rw [Plant.hold_of_store h]⟩

theorem length_idsOf (l : List Event) : (idsOf l).length = l.length := List.length_map _

theorem Plant.Shrinks.bounded {p q : Plant} (h : p.Shrinks q) : p.Bounded q := by
  have shorter : ∀ c, (q.chan c).playlist.length ≤ (p.chan c).playlist.length := fun c => by
    simpa [length_idsOf] using (h.ids c).length_le
  have fewer : ∀ c k, q.holdCount c k ≤ p.holdCount c k := fun c k => (h.hold.filter _).length_le
  refine ⟨fun s => ⟨fun c => (s.ids c).sublist (h.ids c), fun c => (shorter c).trans (s.each c), ?_⟩, fun s => ?_⟩
  · exact (List.sum_le_sum fun c _ => shorter c).trans s.all
  · exact ⟨h.hold.length_le.trans s.size, fun c => (fewer c _).trans (s.early c), fun c => (fewer c _).trans (s.deferred c)⟩

theorem Plant.Bounded.of_store {p q : Plant} (h : q.store = p.store) : p.Bounded q := (Plant.Shrinks.of_store h).bounded

/-- An operation followed by one that keeps the two stores. -/
theorem Plant.Bounded.then_store {p q r : Plant} (h : p.Bounded q) (k : r.store = q.store) : p.Bounded r := h.trans (.of_store k)

theorem Plant.foldl_bounded {α : Type} (f : Plant → α → Plant) (h : ∀ (q : Plant) (a : α), q.Bounded (f q a)) (l : List α) (p : Plant) :
    p.Bounded (l.foldl f p) := by
  induction l generalizing p with
  | nil => rfl
  | cons a l ih => exact (h p a).trans (ih _)

theorem Plant.bounded_ite {p q r : Plant} {P : Prop} [Decidable P] (h : p.Bounded q) (k : p.Bounded r) :
    p.Bounded (if P then q else r) := by
  split
  · exact h
  · exact k

/-! ## Playlist operations (R23 to R29) -/

theorem Plant.modChan_ids_sublist (p : Plant) (c : Chan) (f : Channel → Channel)
    (h : (idsOf (f (p.chan c)).playlist).Sublist (idsOf (p.chan c).playlist)) : p.Shrinks (p.modChan c f) := by
  refine ⟨fun d => ?_, List.Sublist.refl _⟩
  rw [Plant.chan_modChan]
  split
  · next e => subst e; exact h
  · rfl

/-- R19: the pool's records in use are those of all playlists. -/
theorem Plant.freeRecords_pos {p : Plant} (h : p.freeRecords ≠ 0) : (allChans.map fun c => (p.chan c).playlist.length).sum < 4096 := by
  unfold Plant.freeRecords at h
  omega

/-- R22: one event more on one playlist is one record more of the pool. -/
theorem sum_length_modChan_succ (p : Plant) (c : Chan) (f : Channel → Channel)
    (h : (f (p.chan c)).playlist.length = (p.chan c).playlist.length + 1) :
    (allChans.map fun d => ((p.modChan c f).chan d).playlist.length).sum =
      (allChans.map fun d => (p.chan d).playlist.length).sum + 1 := by
  have each : ∀ d, ((p.modChan c f).chan d).playlist.length = (p.chan d).playlist.length + if d = c then 1 else 0 := by
    intro d
    rw [Plant.chan_modChan]
    split
    · next e => subst e; exact h
    · rfl
  simp only [each, allChans, ← Fin.sum_univ_def, Finset.sum_add_distrib, Finset.sum_ite_eq', Finset.mem_univ, if_true]

theorem splitAfter_append {l a b : List Event} {pred : Nat} (h : splitAfter l pred = some (a, b)) : l = a ++ b := by
  induction l generalizing a b with
  | nil =>
    unfold splitAfter at h
    split at h <;> cases h
    rfl
  | cons e l ih =>
    unfold splitAfter at h
    split at h
    · cases h; rfl
    · simp only at h
      split at h
      · cases h; rfl
      · obtain ⟨⟨x, y⟩, hs, hxy⟩ := Option.map_eq_some_iff.mp h
        cases hxy
        rw [ih hs, List.cons_append]

/-- R20: the record made of a description has its id. -/
theorem checkDesc_id {f : Family} {b : Nat} {d : RawDesc} {a : Accepted} (h : checkDesc f b d = .ok a) : a.event.id = d.id := by
  unfold checkDesc at h
  repeat' split at h
  all_goals cases h
  all_goals rfl

/-- R24: an accepted insertion had room, and puts one new id among those of the list. -/
theorem plInsert_room {v : PlEnv} {l : List Event} {free pred : Nat} {d : RawDesc} {r : PlDone}
    (h : plInsert v l free pred d = .ok r) :
    l.length < 1024 ∧ free ≠ 0 ∧ (∀ e ∈ l, e.id ≠ d.id) ∧
      ∃ a b, idsOf l = a ++ b ∧ idsOf r.list = a ++ d.id :: b := by
  unfold plInsert at h
  split at h
  · cases h
  next acc hacc =>
  have hid := checkDesc_id hacc
  split at h
  · cases h
  next before after hsplit =>
  have hl := splitAfter_append hsplit
  split at h
  · cases h
  next hdup =>
  split at h
  · cases h
  next hroom =>
  split at h
  · cases h
  have new : ∀ e ∈ l, e.id ≠ d.id := fun e he heq => hdup (List.any_eq_true.mpr ⟨e, he, by simpa using heq⟩)
  refine ⟨by omega, by omega, new, idsOf before, idsOf after, by simp [hl, idsOf], ?_⟩
  split at h
  · cases h
    simp [idsOf, hid]
  · cases h
    simp only [idsOf, List.map_append, List.map_cons]
    split <;> simp [hid]

theorem plReplace_ids {v : PlEnv} {l : List Event} {free : Nat} {d : RawDesc} {r : PlDone}
    (h : plReplace v l free d = .ok r) : idsOf r.list = idsOf l := by
  unfold plReplace at h
  split at h
  · cases h
  next acc hacc =>
  have hid := checkDesc_id hacc
  split at h
  · cases h
  next old hold =>
  split at h
  · cases h
    -- only the event of the description's own id is replaced by it
    simp only [idsOf, modEvent, List.map_map]
    refine List.map_congr_left fun e _ => ?_
    simp only [Function.comp]
    split
    · next heq => simpa [Event.replaced, hid] using (beq_iff_eq.mp heq).symm
    · rfl
  · cases h; rfl
  · cases h; rfl
  · cases h
    exact idsOf_modEvent _ _ _ fun e => rfl

theorem plDelete_ids {v : PlEnv} {l : List Event} {free id : Nat} {r : PlDone} (h : plDelete v l free id = .ok r) :
    (idsOf r.list).Sublist (idsOf l) := by
  unfold plDelete at h
  split at h
  · cases h
  · split at h
    · cases h
      rw [idsOf_modEvent _ _ _ (Event.cutAt_id _)]
    · cases h
      exact List.filter_sublist.map _

theorem Plant.plRun_bounded {p : Plant} {c : Chan} {o : PlOp} {q : Plant} {r : PlDone} (h : p.plRun c o = .ok (q, r)) :
    p.Bounded q := by
  simp only [Plant.plRun] at h
  split at h
  · cases h
  next r' hr =>
  cases h
  refine Plant.Bounded.then_store ?_ (Plant.cueEffect_store _ _ _ _)
  cases o with
  | insert pred d =>
    obtain ⟨hlen, hfree, hnew, a, b, hl, hids⟩ := plInsert_room hr
    refine ⟨fun s => ⟨fun e => ?_, fun e => ?_, ?_⟩, fun s => ⟨s.size, s.early, s.deferred⟩⟩
    · rw [Plant.chan_modChan]
      split
      · next he =>
        subst he
        have nodup : (a ++ b).Nodup := hl ▸ s.ids e
        have fresh : d.id ∉ a ++ b := hl ▸ fun hm => by
          obtain ⟨x, hx, hxe⟩ := List.mem_map.mp hm
          exact hnew x hx hxe
        show (idsOf r.list).Nodup
        rw [hids]
        exact List.nodup_middle.mpr (List.nodup_cons.mpr ⟨fresh, nodup⟩)
      · exact s.ids e
    · rw [Plant.chan_modChan]
      split
      · next he =>
        subst he
        have grown : r.list.length = (p.chan e).playlist.length + 1 := by
          rw [← length_idsOf, ← length_idsOf, hids, hl]; simp; omega
        simp only [grown]
        omega
      · exact s.each e
    · have grown : r.list.length = (p.chan c).playlist.length + 1 := by
        rw [← length_idsOf, ← length_idsOf, hids, hl]; simp; omega
      rw [sum_length_modChan_succ p c _ grown]
      exact Plant.freeRecords_pos hfree
  | replace d => exact .of_store (p.store_modChan c _ (plReplace_ids hr))
  | delete id => exact (p.modChan_ids_sublist c _ (plDelete_ids hr)).bounded
  | empty =>
    cases hr
    exact (p.modChan_ids_sublist c (fun x => { x with playlist := [] }) (List.nil_sublist _)).bounded

theorem Plant.plOne_bounded {p : Plant} {c : Chan} {o : PlOp} {q : Plant} {r : PlDone} (h : p.plOne c o = .ok (q, r)) :
    p.Bounded q := by
  simp only [Plant.plOne] at h
  split at h
  · cases h
  next he =>
  cases h
  exact (Plant.plRun_bounded he).then_store (Plant.resolve_store _ _)

theorem Plant.plRunAll_bounded (p : Plant) (c : Chan) (os : List PlOp) : p.Bounded (p.plRunAll c os) := by
  induction os generalizing p with
  | nil => rfl
  | cons o os ih =>
    simp only [Plant.plRunAll]
    split
    · exact ih p
    next he => exact (Plant.plRun_bounded he).trans (ih _)

theorem Plant.plList_bounded {p : Plant} {c : Chan} {os : List PlOp} {q : Plant} (h : p.plList c os = .ok q) : p.Bounded q := by
  simp only [Plant.plList] at h
  split at h
  · cases h
  cases h
  exact (p.plRunAll_bounded c os).then_store (Plant.resolve_store _ _)

theorem Plant.edit_bounded {p : Plant} {c : Chan} {o : PlOp} {q : Plant} {r : PlDone} (h : p.edit c o = .ok (q, r)) :
    p.Bounded q := by
  simp only [Plant.edit] at h
  split at h
  · cases h
  next he =>
  cases h
  exact (Plant.plOne_bounded he).then_store (Plant.wakeAfter_store _ _ _)

theorem Plant.editList_bounded {p : Plant} {c : Chan} {os : List PlOp} {q : Plant} (h : p.editList c os = .ok q) : p.Bounded q := by
  simp only [Plant.editList] at h
  split at h
  · cases h
  next he =>
  cases h
  exact (Plant.plList_bounded he).then_store (Plant.wakeAfter_store _ _ _)

theorem Plant.emptyPlaylist_bounded (p : Plant) (c : Chan) : p.Bounded (p.emptyPlaylist c) :=
  (p.modChan_ids_sublist c (fun x => { x with playlist := [] }) (List.nil_sublist _)).bounded.then_store
    (Plant.emptied_store _ _)

/-! ## The hold -/

theorem Plant.discard_bounded (p : Plant) (c : Chan) (which : HoldEntry → Bool) : p.Bounded (p.discard c which) :=
  Plant.Shrinks.bounded ⟨fun _ => .refl _, List.filter_sublist⟩

theorem Plant.goStale_bounded (p : Plant) (c : Chan) (r : ReplicaReason) (refused : Option (Status × Nat)) :
    p.Bounded (p.goStale c r refused) := by
  simp only [Plant.goStale]
  split
  · exact (p.discard_bounded c fun _ => true).then_store (by simp)
  · rfl

theorem Plant.clearReplica_bounded (p : Plant) (c : Chan) : p.Bounded (p.clearReplica c) :=
  (p.discard_bounded c _).then_store (Plant.modReplica_store _ _ _)

theorem Plant.awaitBase_bounded (p : Plant) (c : Chan) : p.Bounded (p.awaitBase c) :=
  (p.clearReplica_bounded c).then_store (by simp [Plant.awaitBase])

theorem Plant.holdCount_addHold (p : Plant) (h : HoldEntry) (c : Chan) (k : HoldKind) :
    (p.addHold h).holdCount c k = p.holdCount c k + if h.channel = c ∧ h.kind = k then 1 else 0 := by
  have last : ([h].filter fun h => h.channel == c && h.kind == k).length = if h.channel = c ∧ h.kind = k then 1 else 0 := by
    split
    · next hk => simp [hk]
    · next hk =>
      rw [List.length_eq_zero_iff, List.filter_eq_nil_iff]
      simpa using hk
  simp only [Plant.holdCount, Plant.addHold, List.filter_append, List.length_append, last]

/-- R51, R52, R65: an entry joins a hold that has room for it and for its kind. -/
theorem Plant.addHold_bounded (p : Plant) (h : HoldEntry) (size : p.hold.length < 256)
    (early : h.kind = .early → p.holdCount h.channel .early < 32)
    (deferred : h.kind = .deferred → p.holdCount h.channel .deferred < 128) : p.Bounded (p.addHold h) := by
  refine ⟨fun s => ⟨s.ids, s.each, s.all⟩, fun s => ⟨?_, fun c => ?_, fun c => ?_⟩⟩
  · rw [show (p.addHold h).hold = p.hold ++ [h] from rfl, List.length_append]
    exact size
  · rw [Plant.holdCount_addHold]
    split
    · next e => obtain ⟨rfl, hk⟩ := e; exact early hk
    · exact s.early c
  · rw [Plant.holdCount_addHold]
    split
    · next e => obtain ⟨rfl, hk⟩ := e; exact deferred hk
    · exact s.deferred c

theorem Plant.stage_bounded (p : Plant) (c : Chan) (seq : Nat) (r : Rec) (b : Batch) : p.Bounded (p.stage c seq r b) := by
  unfold Plant.stage
  split
  · exact p.goStale_bounded c _ _
  split
  · exact p.goStale_bounded c _ _
  next room => exact (p.addHold_bounded _ (by omega) (fun e => by cases e) (fun e => by cases e)).then_store (Plant.modReplica_store _ _ _)

theorem Plant.defer_bounded (p : Plant) (c : Chan) (seq : Nat) (r : Rec) : p.Bounded (p.defer c seq r) := by
  unfold Plant.defer
  split
  · exact p.goStale_bounded c _ _
  split
  · exact p.goStale_bounded c _ _
  next full overflow => exact p.addHold_bounded _ (by omega) (fun e => by cases e) fun _ => by simpa using overflow

theorem Plant.applyRecord_bounded (p : Plant) (c : Chan) (seq : Nat) (r : Rec) : p.Bounded (p.applyRecord c seq r) := by
  unfold Plant.applyRecord
  split
  · next h => exact Plant.edit_bounded h
  · exact p.goStale_bounded c _ _

theorem Plant.openBatch_bounded (p : Plant) (c : Chan) (seq n : Nat) : p.Bounded (p.openBatch c seq n) :=
  Plant.bounded_ite (p.goStale_bounded c _ _) (.of_store (by simp))

/-- R64: what a batch kept as a deferred group makes of an entry. -/
def HoldEntry.deferStaged (c : Chan) (h : HoldEntry) : HoldEntry :=
  if h.channel == c && h.kind == .staged then { h with kind := .deferred } else h

theorem HoldEntry.deferStaged_early (c d : Chan) (h : HoldEntry) :
    ((h.deferStaged c).channel == d && (h.deferStaged c).kind == .early) = (h.channel == d && h.kind == .early) := by
  unfold HoldEntry.deferStaged
  split
  · next e =>
    obtain ⟨-, hk⟩ : h.channel = c ∧ h.kind = .staged := by simpa using e
    rw [hk]
    rfl
  · rfl

theorem HoldEntry.deferStaged_deferred (c d : Chan) (h : HoldEntry) :
    ((h.deferStaged c).channel == d && (h.deferStaged c).kind == .deferred) =
      ((h.channel == d && h.kind == .deferred) || (h.channel == d && (d == c) && h.kind == .staged)) := by
  unfold HoldEntry.deferStaged
  split
  · next e =>
    obtain ⟨rfl, hk⟩ : h.channel = c ∧ h.kind = .staged := by simpa using e
    rcases Decidable.em (h.channel = d) with rfl | hd
    · simp [hk]
    · simp only [beq_false_of_ne hd, Bool.false_and, Bool.or_false]
  · next e =>
    rcases Decidable.em (h.channel = d) with rfl | hd
    · rcases Decidable.em (h.channel = c) with hc | hc
      · have : h.kind ≠ .staged := fun hk => e (by simp [hc, hk])
        simp [this]
      · simp [hc]
    · simp [hd]

/-- R64: the deferred group is the map of that over the hold. -/
theorem Plant.deferBatch_room {p : Plant} {c : Chan} (h : ¬128 < p.holdCount c .deferred + p.holdCount c .staged) :
    p.deferBatch c = { p with hold := p.hold.map (HoldEntry.deferStaged c) } := by
  simp only [Plant.deferBatch, if_neg h]
  rfl

theorem length_filter_or_le {α : Type} (a b : α → Bool) (l : List α) :
    (l.filter fun x => a x || b x).length ≤ (l.filter a).length + (l.filter b).length := by
  simp only [← List.countP_eq_length_filter]
  induction l with
  | nil => simp
  | cons x l ih =>
    simp only [List.countP_cons]
    cases a x <;> cases b x <;> simp <;> omega

theorem Plant.deferBatch_bounded (p : Plant) (c : Chan) : p.Bounded (p.deferBatch c) := by
  rcases Decidable.em (128 < p.holdCount c .deferred + p.holdCount c .staged) with full | room
  · simp only [Plant.deferBatch, if_pos full]
    exact p.goStale_bounded c _ _
  rw [Plant.deferBatch_room room]
  refine ⟨fun s => ⟨s.ids, s.each, s.all⟩, fun s => ⟨?_, fun d => ?_, fun d => ?_⟩⟩
  · rw [List.length_map]; exact s.size
  · have same : ∀ h ∈ p.hold, _ := fun h _ => h.deferStaged_early c d
    have early := s.early d
    simp only [Plant.holdCount, List.filter_map, List.length_map] at early ⊢
    exact (congrArg List.length (List.filter_congr same)).trans_le early
  · have split : ∀ h ∈ p.hold, _ := fun h _ => h.deferStaged_deferred c d
    have deferred := s.deferred d
    simp only [Plant.holdCount, List.filter_map, List.length_map] at deferred room ⊢
    refine (congrArg List.length (List.filter_congr split)).trans_le ?_
    rcases Decidable.em (d = c) with rfl | hd
    · have sum := length_filter_or_le (fun h : HoldEntry => h.channel == d && h.kind == .deferred)
        (fun h => h.channel == d && h.kind == .staged) p.hold
      simp only [beq_self_eq_true, Bool.and_true]
      omega
    · simpa only [beq_false_of_ne hd, Bool.and_false, Bool.false_and, Bool.or_false] using deferred

theorem Plant.applyBatch_bounded (p : Plant) (c : Chan) : p.Bounded (p.applyBatch c) := by
  simp only [Plant.applyBatch]
  split
  · next h => exact (p.discard_bounded c _).trans (Plant.editList_bounded h)
  · exact (p.discard_bounded c _).trans (Plant.goStale_bounded _ c _ _)

theorem Plant.closeBatch_bounded (p : Plant) (c : Chan) : p.Bounded (p.closeBatch c) := by
  have closed : ∀ f, p.Bounded (p.modReplica c f) := fun f => .of_store (by simp)
  unfold Plant.closeBatch
  split
  · exact p.goStale_bounded c _ _
  simp only
  split
  · exact (closed _).trans (Plant.goStale_bounded _ c _ _)
  · exact Plant.bounded_ite ((closed _).trans (Plant.deferBatch_bounded _ c)) ((closed _).trans (Plant.applyBatch_bounded _ c))

theorem Plant.handleRecord_bounded (p : Plant) (c : Chan) (seq : Nat) (r : Rec) : p.Bounded (p.handleRecord c seq r) := by
  unfold Plant.handleRecord
  split
  · exact p.openBatch_bounded c _ _
  · exact p.closeBatch_bounded c
  · split
    · exact p.stage_bounded c _ _ _
    · exact Plant.bounded_ite (p.defer_bounded c _ _) (p.applyRecord_bounded c _ _)

theorem Plant.drain_bounded (n : Nat) (c : Chan) (p : Plant) : p.Bounded (Plant.drain n c p) := by
  induction n generalizing p with
  | zero => rfl
  | succ n ih =>
    simp only [Plant.drain]
    split
    · rfl
    split
    · rfl
    · exact (((p.discard_bounded c _).then_store (Plant.advanceNext_store _ _)).trans (Plant.handleRecord_bounded _ c _ _)).trans
        (ih _)

theorem Plant.afterDrain_bounded (p : Plant) (c : Chan) : p.Bounded (p.afterDrain c) :=
  Plant.bounded_ite (.refl p) (Plant.bounded_ite (.of_store (by simp)) (.of_store (by simp)))

theorem Plant.inOrder_bounded (p : Plant) (c : Chan) (seq : Nat) (r : Rec) : p.Bounded (p.inOrder c seq r) :=
  (((Plant.Bounded.of_store (p.advanceNext_store c)).trans (Plant.handleRecord_bounded _ c seq r)).trans
    (Plant.drain_bounded _ c _)).trans (Plant.afterDrain_bounded _ c)

theorem Plant.holdEarly_bounded (p : Plant) (c : Chan) (seq : Nat) (r : Rec) : p.Bounded (p.holdEarly c seq r) := by
  unfold Plant.holdEarly
  split
  · rfl
  split
  · exact p.goStale_bounded c _ _
  next full =>
  have joins : p.Bounded (p.addHold { channel := c, seq := seq, content := r, kind := .early, mark := none }) :=
    p.addHold_bounded _ (by omega) (fun _ => by simp only; omega) (fun e => by cases e)
  exact Plant.bounded_ite (joins.then_store (by simp)) joins

theorem Plant.holdCount_discard_all (p : Plant) (c : Chan) (k : HoldKind) : (p.discard c fun _ => true).holdCount c k = 0 := by
  simp +contextual [Plant.holdCount, Plant.discard]

theorem Plant.takeBase_bounded (p : Plant) (c : Chan) (seq : Nat) : p.Bounded (p.takeBase c seq) := by
  simp only [Plant.takeBase]
  have taken : ∀ which f, p.Bounded ((p.discard c which).modReplica c f) := fun which f =>
    (p.discard_bounded c which).then_store (by simp)
  have told : ∀ (b : Prop) [Decidable b] (q : Plant) (s : ReplicaState) (r : ReplicaReason),
      (if b then q else q.tellReplica c s r none).store = q.store := fun b _ q s r => by split <;> rfl
  split
  · next hd =>
    split
    · exact ((taken _ _).then_store (told _ _ _ _)).trans (Plant.goStale_bounded _ c _ _)
    · next room =>
      refine ((taken _ _).trans (Plant.addHold_bounded _ _ (by omega) (fun e => by cases e) fun _ => ?_)).then_store (told _ _ _ _)
      have none_left := p.holdCount_discard_all c .deferred
      simp only [hd, Bool.or_true]
      show (p.discard c fun _ => true).holdCount c .deferred < 128
      omega
  · exact ((taken _ _).then_store (told _ _ _ _)).trans (Plant.emptyPlaylist_bounded _ c)

theorem Plant.classify_bounded (p : Plant) (c : Chan) (seq : Nat) (r : Rec) : p.Bounded (p.classify c seq r) := by
  simp only [Plant.classify]
  split
  · split
    · rfl
    split
    · exact p.takeBase_bounded c _
    · exact Plant.bounded_ite (p.inOrder_bounded c _ _)
        (Plant.bounded_ite (p.holdEarly_bounded c _ _) (p.goStale_bounded c _ _))
  · split
    · exact p.takeBase_bounded c _
    · rfl

theorem Plant.channelRecord_bounded (p : Plant) (l : LinkId) (channel seq : Nat) (r : Rec) :
    p.Bounded (p.channelRecord l channel seq r) := by
  have good : p.Bounded (p.goodFrame l) := .of_store (by simp)
  simp only [Plant.channelRecord]
  split
  · exact Plant.bounded_ite good (good.trans (Plant.classify_bounded _ _ _ _))
  · exact good

theorem Plant.takePulse_store (p : Plant) (number day : Nat) (ids : List (Option Nat)) :
    (p.takePulse number day ids).store = p.store := by
  simp only [Plant.takePulse]
  split
  · rfl
  · exact Plant.foldl_store _ (fun q c => q.comparePulse_store c _) _ _

theorem Plant.applyGroup_bounded {p : Plant} {c : Chan} {g : List HoldEntry} {q : Plant} (h : p.applyGroup c g = .ok q) :
    p.Bounded q := by
  unfold Plant.applyGroup at h
  split at h
  · split at h
    · split at h
      · next he => cases h; exact Plant.edit_bounded he
      · cases h
    · exact Plant.editList_bounded h
  · exact Plant.editList_bounded h

theorem Plant.applyDeferredN_bounded (n : Nat) (c : Chan) (l : List HoldEntry) (p : Plant) :
    p.Bounded (Plant.applyDeferredN n c l p) := by
  induction n generalizing p l with
  | zero => rfl
  | succ n ih =>
    cases l with
    | nil => rfl
    | cons x t =>
      simp only [Plant.applyDeferredN]
      split
      · next h => exact (Plant.applyGroup_bounded h).trans (ih _ _)
      · exact p.goStale_bounded c _ _

theorem Plant.applyDeferred_bounded (p : Plant) (c : Chan) : p.Bounded (p.applyDeferred c) :=
  (p.discard_bounded c _).trans (Plant.applyDeferredN_bounded _ c _ _)

/-! ## Retirement and a channel put back to IDLE -/

theorem Plant.retireOne_bounded (p : Plant) (c : Chan) (e : Event) : p.Bounded (p.retireOne c e) := by
  have told : (if (p.chan c).mode.running && !e.asRun then p.notAired c e else p).store = p.store := by split <;> rfl
  simp only [Plant.retireOne]
  refine Plant.Bounded.then_store (.trans (.of_store told) (Plant.modChan_ids_sublist _ c _ ?_).bounded)
    (Plant.retireEntries_store _ c e.id)
  exact List.filter_sublist.map _

theorem Plant.retire_bounded (p : Plant) (c : Chan) : p.Bounded (p.retire c) := by
  simp only [Plant.retire]
  split
  · rfl
  · exact (Plant.foldl_bounded _ (fun q e => q.retireOne_bounded c e) _ p).then_store (Plant.recursor_store _ _)

theorem Plant.clearChannel_bounded (p : Plant) (c : Chan) : p.Bounded (p.clearChannel c) := by
  simp only [Plant.clearChannel]
  have empties : ∀ (q : Plant) (x : Channel), x.playlist = [] → q.Bounded (q.setChan c x) := fun q x hx =>
    (q.modChan_ids_sublist c (fun _ => x) (by rw [hx]; exact List.nil_sublist _)).bounded
  refine .then_store (.then_store (.trans ?_ (empties _ _ rfl)) (Plant.emit_store _ _)) (Plant.emit_store _ _)
  refine .trans ?_ (Plant.discard_bounded _ c _)
  split <;> exact .of_store (by simp)

/-! ## The switch line -/

theorem Plant.releaseLine_bounded (p : Plant) (c : Chan) : p.Bounded (p.releaseLine c) := by
  have let_go : p.Bounded (p.modChan c fun x => { x with release := none }) := .of_store (by simp [Plant.store_modChan])
  simp only [Plant.releaseLine]
  split
  · rfl
  split
  · rfl
  split
  · exact let_go.then_store (by simp)
  · have shadow := (let_go.then_store (Plant.setMode_store _ c .shadow)).then_store (Plant.setSwitch_store _ c .main .release)
    have back := (shadow.then_store (Plant.backToPrimary_store _ c)).trans (Plant.awaitBase_bounded _ c)
    exact Plant.bounded_ite back (back.then_store (by simp))
  · exact (let_go.then_store (by simp)).trans (Plant.clearChannel_bounded _ c)

theorem Plant.returnSwitch_bounded (p : Plant) (c : Chan) (r : ReturnRec) : p.Bounded (p.returnSwitch c r) := by
  simp only [Plant.returnSwitch]
  have stop : ∀ q : Plant, (match p.config c with
      | some g => if g.standby = Standby.cold ∧ ((p.chan c).portInUse.isSome && (p.chan c).portInUse == p.primary c) = true
          then q.handStop c g.primary (some (r.tRet + 1)) else q
      | none => q).store = q.store := fun q => by
    split
    · split <;> simp
    · rfl
  refine .then_store (.then_store (.then_store (.trans (.of_store ?_) (Plant.applyDeferred_bounded _ c)) (stop _))
    (Plant.notify_store _ _ _ _)) (Plant.wakeCue_store _ c)
  repeat' split
  all_goals simp [Plant.store_modChan]

theorem Plant.makeSwitch_bounded (p : Plant) (c : Chan) (w : PendingSw) : p.Bounded (p.makeSwitch c w) := by
  simp only [Plant.makeSwitch]
  split
  case h_7 => exact p.releaseLine_bounded c
  all_goals exact .of_store (by split <;> simp)

theorem Plant.switchLine_bounded (p : Plant) (c : Chan) : p.Bounded (p.switchLine c) := by
  simp only [Plant.switchLine]
  split
  · exact p.returnSwitch_bounded c _
  have later : p.Bounded (p.modChan c fun x => { x with pendingSw := x.pendingSw.filter fun w => !decide (w.frame ≤ x.now) }) :=
    .of_store (by simp [Plant.store_modChan])
  split
  · exact later.then_store (by simp)
  · have made := later.trans (Plant.foldl_bounded _ (fun q w => q.makeSwitch_bounded c w)
      ((p.chan c).pendingSw.filter fun w => decide (w.frame ≤ (p.chan c).now)) _)
    have adopted := made.then_store (Plant.adoptLine_store _ c)
    exact Plant.bounded_ite (adopted.then_store (by simp)) adopted

/-! ## Frame starts -/

theorem Plant.cuesAndRetirement_bounded (p : Plant) (c : Chan) (stepped : Bool) : p.Bounded (p.cuesAndRetirement c stepped) := by
  have cues_then : p.Bounded ((p.moveCues c stepped).retire c) :=
    (Plant.Bounded.of_store (p.moveCues_store c stepped)).trans (Plant.retire_bounded _ c)
  have retire_then : p.Bounded ((p.retire c).moveCues c stepped) := (p.retire_bounded c).then_store (by simp)
  simp only [Plant.cuesAndRetirement]
  split
  · exact cues_then
  · exact (Plant.bounded_ite retire_then cues_then).then_store (Plant.tickFree_store _)

theorem Plant.channelFrame_bounded (step : Option Int) (p : Plant) (c : Chan) : p.Bounded (Plant.channelFrame step p c) := by
  have begun : ((((((Plant.beginFrame step p c).watchAndExpiry c).renewIssuing c).serveClaims c)).sequenceFrame c).store =
      p.store := by simp
  unfold Plant.channelFrame
  refine .then_store (.then_store (.trans (.of_store begun) ?_) (Plant.wakeAfter_store _ _ c)) (Plant.latchLine_store _ c)
  exact Plant.cuesAndRetirement_bounded _ c _

theorem Plant.setRaised_store (p : Plant) (r : RefId) (n : Nat) : (p.setRaised r n).store = p.store := by simp [Plant.setRaised]

theorem Plant.raiseLines_bounded (p : Plant) (r : RefId) (upto : Nat) : p.Bounded (p.raiseLines r upto) := by
  simp only [Plant.raiseLines]
  split
  · rfl
  refine ((Plant.foldl_bounded _ (fun q c => ?_) _ p).then_store (Plant.tickFree_store _)).then_store (Plant.setRaised_store _ _ _)
  exact (Plant.Bounded.of_store (q.setRaised_store r _)).trans (Plant.switchLine_bounded _ c)

theorem Plant.frameStart_bounded (p : Plant) (r : RefId) (line length : Nat) : p.Bounded (p.frameStart r line length) := by
  simp only [Plant.frameStart]
  refine .trans (.of_store ?_) (Plant.foldl_bounded _ (Plant.channelFrame_bounded _) _ _)
  split <;> simp

theorem Plant.endFrame_bounded (p : Plant) (r : RefId) (line length : Nat) : p.Bounded (p.endFrame r line length) :=
  (p.raiseLines_bounded r _).trans (Plant.frameStart_bounded _ r _ _)

@[simp] theorem Plant.modRef_store (p : Plant) (r : RefId) (f : Reference → Reference) : (p.modRef r f).store = p.store := by
  simp [Plant.modRef]

@[simp] theorem Plant.missPulse_store (p : Plant) (r : RefId) : (p.missPulse r).store = p.store := by
  simp only [Plant.missPulse]
  split <;> simp

theorem Plant.passLines_bounded (p : Plant) (r : RefId) (pos : Nat) : p.Bounded (p.passLines r pos) :=
  (p.raiseLines_bounded r _).then_store (Plant.modRef_store _ r _)

theorem Plant.relock_bounded (p : Plant) (r : RefId) (pos : Nat) : p.Bounded (p.relock r pos) :=
  ((p.endFrame_bounded r 1 pos).then_store (Plant.modRef_store _ r _)).then_store (Plant.tellReference_store _ r)

theorem Plant.rephase_bounded (p : Plant) (r : RefId) (pos : Nat) : p.Bounded (p.rephase r pos) :=
  Plant.bounded_ite (p.relock_bounded r pos) ((p.passLines_bounded r pos).then_store (by simp))

theorem Plant.pulseAt_bounded (p : Plant) (r : RefId) (pos : Nat) : p.Bounded (p.pulseAt r pos) := by
  have passed : ∀ f, p.Bounded ((p.passLines r pos).modRef r f) := fun f => (p.passLines_bounded r pos).then_store (by simp)
  simp only [Plant.pulseAt]
  split
  · rfl
  split
  · exact Plant.bounded_ite (.refl p) (Plant.bounded_ite ((p.endFrame_bounded r 1 pos).then_store (by simp))
      ((p.passLines_bounded r pos).then_store (by simp)))
  · exact Plant.bounded_ite (.refl p) (Plant.bounded_ite (p.rephase_bounded r pos) (passed _))
  · exact Plant.bounded_ite (.refl p) (Plant.bounded_ite (p.relock_bounded r pos) (passed _))

theorem Plant.windowClose_bounded (p : Plant) (r : RefId) : p.Bounded (p.windowClose r) :=
  Plant.bounded_ite (((p.endFrame_bounded r 9 _).trans (Plant.raiseLines_bounded _ r 8)).then_store (Plant.missPulse_store _ r))
    (.refl p)

theorem Plant.rephaseClose_bounded (p : Plant) (r : RefId) : p.Bounded (p.rephaseClose r) :=
  Plant.bounded_ite ((p.endFrame_bounded r 1 _).then_store (Plant.modRef_store _ r _)) (.refl p)

theorem Plant.crystalEnd_bounded (p : Plant) (r : RefId) : p.Bounded (p.crystalEnd r) :=
  Plant.bounded_ite (p.endFrame_bounded r _ _) (.refl p)

theorem Plant.reachLine_bounded (p : Plant) (c : Chan) : p.Bounded (p.reachLine c) := by
  unfold Plant.reachLine
  split
  · exact Plant.bounded_ite (.refl p) (p.raiseLines_bounded _ _)
  · rfl

end Sys2Proof.Machine
end

