-- ==== Sys2Proof/Proofs/StepBounds.lean ====
section
/-! PROOFS. What each command, and so each step, keeps of the pool's and the hold's bounds. -/

namespace Sys2Proof.Machine

@[simp] theorem Plant.refuse_fst (p : Plant) (s : Status) : (p.refuse s).1 = p := rfl

/-! ## The requests' handlers -/

theorem setReference_store (a : SetReferenceArgs) (p : Plant) : (setReference a p).1.store = p.store := by
  simp only [setReference]
  repeat' split
  all_goals simp

theorem setLinks_store (a : SetLinksArgs) (p : Plant) : (setLinks a p).1.store = p.store := by
  simp only [setLinks]
  repeat' split
  all_goals rfl

theorem replicaReset_bounded (n : Nat) (p : Plant) : p.Bounded (replicaReset n p).1 := by
  have shadow : ∀ c, p.Bounded (p.resetShadow c) := fun c => by
    have base := (p.emptyPlaylist_bounded c).trans (Plant.awaitBase_bounded _ c)
    exact Plant.bounded_ite base (base.then_store (Plant.tellReplica_store _ _ _ _ _))
  have running : ∀ c, p.Bounded (p.resetRunning c) := fun c =>
    Plant.bounded_ite (p.goStale_bounded c _ _)
      (((p.discard_bounded c _).then_store (Plant.modReplica_store _ c _)).then_store (Plant.sendBack_store _ _))
  unfold replicaReset
  repeat' split
  all_goals first | rfl | exact shadow _ | exact running _

theorem editEvent_bounded (n : Nat) (o : PlOp) (report : Plant → Chan → PlDone → Answer) (p : Plant) :
    p.Bounded (editEvent n o report p).1 := by
  unfold editEvent
  split
  · rfl
  split
  case h_1 | h_2 | h_3 | h_4 => rfl
  all_goals
    split
    · rfl
    · next h => exact Plant.edit_bounded h

theorem readPlaylist_store (a : ReadPlaylistArgs) (p : Plant) : (readPlaylist a p).1.store = p.store := by
  simp only [readPlaylist]
  repeat' split
  all_goals rfl

theorem Plant.probeRead_store (p : Plant) (f : ProbeFlags) (n : Nat) :
    ({ p with probeFlags := f, free := n } : Plant).store = p.store := rfl

theorem readWatch_store (n : Nat) (p : Plant) : (readWatch n p).1.store = p.store := by
  rcases Option.eq_none_or_eq_some (chanOf n) with hc | ⟨c, hc⟩
  · simp only [readWatch, hc, Plant.refuse_fst]
  · simp only [readWatch, hc]
    rw [Plant.probeRead_store]
    exact p.store_modChan c _ rfl

theorem Plant.setRole_store (p : Plant) (i : PortNo) (r : Role) : (p.setRole i r).store = p.store := by
  unfold Plant.setRole
  dsimp only
  split
  · rfl
  · split
    · rw [Plant.nowUp_store, Plant.tellPort_store, Plant.modPort_store]
    · rw [Plant.enterOff_store]
    · rw [Plant.settlePort_store, Plant.spareFreed_store, Plant.modPort_store]
    · rw [Plant.modPort_store]

theorem setPort_store (a : SetPortArgs) (p : Plant) : (setPort a p).1.store = p.store := by
  unfold setPort
  split
  · rfl
  split
  · rfl
  · simp [Plant.setRole_store]

theorem passThrough_store (a : PassThroughArgs) (s : State) : (passThrough a s).1.store = s.plant.store := by
  have placed : ∀ i k, (s.plant.placePass i k).store = s.plant.store := fun i k => by
    simp only [Plant.placePass]
    split <;> simp
  unfold passThrough
  repeat' split
  all_goals first | rfl | exact placed _ _

theorem Channel.retemplate_ids (t : Nat) (x : Channel) : idsOf (x.retemplate t).playlist = idsOf x.playlist :=
  idsOf_map _ _ fun e => by split <;> rfl

theorem Plant.chan_retemplated (p : Plant) (v : Vector (List Step) 32) (f : Channel → Channel) (c : Chan) :
    ({ p with templates := v, chans := p.chans.map f } : Plant).chan c = f (p.chan c) := by
  simp [Plant.chan]

theorem setTemplate_store (a : SetTemplateArgs) (p : Plant) : (setTemplate a p).1.store = p.store := by
  simp only [setTemplate]
  repeat' split
  case h_1.isTrue =>
    rw [Plant.foldl_store _ (fun q c => p.wakeAfter_store q c)]
    refine Plant.store_eq_iff.mpr ⟨fun c => ?_, ?_⟩
    · rw [Plant.chan_retemplated]
      exact Channel.retemplate_ids a.template (p.chan c)
    · rfl
  all_goals rfl

theorem halt_store (n : Nat) (p : Plant) : (halt n p).1.store = p.store := by
  unfold halt
  repeat' split
  all_goals simp

theorem resume_store (n : Nat) (p : Plant) : (resume n p).1.store = p.store := by
  have joins : ∀ c (q : Plant), (q.resumeJoin c).store = q.store := fun c q => by
    simp only [Plant.resumeJoin]
    repeat' split
    all_goals simp
  unfold resume
  repeat' split
  all_goals simp [joins]

theorem Plant.acceptChannel_bounded (p : Plant) (c : Chan) (g : ChannelConfig) : p.Bounded (p.acceptChannel c g) := by
  have heartbeat : ∀ (q : Plant) h, (q.takeHeartbeat h).store = q.store := fun q h => by cases h <;> rfl
  have started : p.Bounded (p.startChannel c g) := by
    have fresh : ∀ x : Channel, x.playlist = [] → p.Bounded (p.setChan c x) := fun x hx =>
      (p.modChan_ids_sublist c (fun _ => x) (by rw [hx]; exact List.nil_sublist _)).bounded
    exact .then_store (.trans (fresh _ rfl) (Plant.awaitBase_bounded _ c)) (Plant.tellReplica_store _ _ _ _ _)
  have again : (p.reconfigure c g).store = p.store := by
    simp only [Plant.reconfigure]
    repeat' split
    all_goals simp [Plant.store_modChan]
  exact .then_store (Plant.bounded_ite started (.of_store again)) (heartbeat _ _)

theorem setChannel_bounded (a : SetChannelArgs) (p : Plant) : p.Bounded (setChannel a p).1 := by
  unfold setChannel
  repeat' split
  all_goals first | rfl | exact p.acceptChannel_bounded _ _

theorem clearChannel_bounded (n : Nat) (p : Plant) : p.Bounded (clearChannel n p).1 := by
  unfold clearChannel
  repeat' split
  all_goals first | rfl | exact .of_store (Plant.emit_store _ _) | exact p.clearChannel_bounded _

theorem take_store (a : TakeArgs) (p : Plant) : (take a p).1.store = p.store := by
  unfold take
  repeat' split
  all_goals simp

theorem confirm_store (n : Nat) (p : Plant) : (confirm n p).1.store = p.store := by
  unfold confirm
  repeat' split
  all_goals simp

theorem veto_store (n : Nat) (p : Plant) : (veto n p).1.store = p.store := by
  unfold veto
  repeat' split
  all_goals simp

theorem Plant.abort_store (p : Plant) (c : Chan) : (p.abort c).store = p.store := by
  simp only [Plant.abort, Plant.abortSwitch, Plant.abortStop]
  repeat' split
  all_goals simp [Plant.store_modChan]

theorem abortTake_store (n : Nat) (p : Plant) : (abortTake n p).1.store = p.store := by
  unfold abortTake
  repeat' split
  all_goals simp [Plant.abort_store]

theorem readChannel_store (n : Nat) (s : State) : (readChannel n s).1.store = s.plant.store := by
  unfold readChannel
  split <;> rfl

theorem returnToMain_store (a : ReturnArgs) (p : Plant) : (returnToMain a p).1.store = p.store := by
  have sets : ∀ c e nb f, (p.setReturn c e nb f).store = p.store := fun c e nb f => by
    simp [Plant.setReturn, Plant.store_modChan]
  unfold returnToMain
  repeat' split
  all_goals simp [sets]

theorem cancelReturn_store (n : Nat) (p : Plant) : (cancelReturn n p).1.store = p.store := by
  unfold cancelReturn
  repeat' split
  all_goals simp

theorem adopt_store (a : AdoptArgs) (p : Plant) : (adopt a p).1.store = p.store := by
  have accepts : ∀ c e i b, (p.acceptAdopt c e i b).store = p.store := fun c e i b => by
    simp only [Plant.acceptAdopt]
    split <;> simp [Plant.store_modChan]
  simp only [adopt]
  repeat' split
  all_goals simp [accepts]

theorem release_store (a : ReleaseArgs) (p : Plant) : (release a p).1.store = p.store := by
  have accepts : ∀ c t, (p.acceptRelease c t).store = p.store := fun c t => by
    simp only [Plant.acceptRelease]
    split <;> simp [Plant.store_modChan]
  unfold release
  repeat' split
  all_goals simp [accepts]

/-! ## The device line's and the links' events -/

theorem Plant.deviceFault_store (p : Plant) (i : PortNo) (fault : LineFault) (begun : Bool) (left : List Byte) :
    (p.deviceFault i fault begun left).store = p.store := by
  simp only [Plant.deviceFault]
  repeat' split
  all_goals simp

theorem Plant.replyExpired_store (p : Plant) (i : PortNo) : (p.replyExpired i).store = p.store := by
  simp only [Plant.replyExpired]
  split <;> simp

theorem Plant.portBreak_store (p : Plant) (i : PortNo) : (p.portBreak i).store = p.store := by
  unfold Plant.portBreak
  split <;> simp

theorem Plant.linkBreak_store (p : Plant) (l : LinkId) : (p.linkBreak l).store = p.store := by
  unfold Plant.linkBreak
  split <;> simp [Plant.modLink]

theorem Plant.askFill_store (p : Plant) (c : Chan) : (p.askFill c).store = p.store := by
  unfold Plant.askFill
  repeat' split
  all_goals simp

theorem Plant.gapExpired_bounded (p : Plant) (c : Chan) : p.Bounded (p.gapExpired c) := by
  unfold Plant.gapExpired
  split
  · exact p.goStale_bounded c _ _
  · rfl

theorem Plant.batchExpired_bounded (p : Plant) (c : Chan) : p.Bounded (p.batchExpired c) := by
  unfold Plant.batchExpired
  split
  · exact p.goStale_bounded c _ _
  · rfl

theorem Plant.reloadExpired_store (p : Plant) (c : Chan) : (p.reloadExpired c).store = p.store := by
  unfold Plant.reloadExpired
  split <;> simp

theorem Plant.heartbeatExpired_store (p : Plant) : p.heartbeatExpired.store = p.store := by
  unfold Plant.heartbeatExpired
  split <;> rfl

theorem Plant.latchProbe_store (p : Plant) (n : Nat) (r : Probe) : (p.latchProbe n r).store = p.store := by
  simp only [Plant.latchProbe]
  repeat' split
  all_goals first | rfl | exact Plant.store_modChan _ _ _ rfl

theorem Plant.runLapse_store (p : Plant) (r : RefId) : (p.runLapse r).store = p.store := by
  unfold Plant.runLapse
  split <;> simp

/-! ## A command's plant -/

/-- What a request makes of the plant: nothing, or its handler's work with all that was handed out delivered. -/
theorem State.request_plant_rel {R : Plant → Prop} {α : Type} (s : State) (c : Instr) (tag kind : Nat) (body : Form α)
    (h : α → State → Plant × Answer) (same : R s.plant) (clear : ∀ q, R q → R { q with outbox := [] })
    (works : ∀ a k, body = .sound a → R (h a { s with ctl := k }).1) : R (s.request c tag kind body h).plant := by
  simp only [State.request]
  split
  · have judged_rel : ∀ k, R (judged body h { s with ctl := k }).1 := fun k => by
      cases body with
      | faulty => exact same
      | sound a => exact works a k rfl
    simp only [State.conclude]
    split
    all_goals
      rw [State.settle_plant]
      exact clear _ (judged_rel _)
  · exact same

theorem State.event_bounded (s : State) {f : Plant → Plant} (h : s.plant.Bounded (f s.plant)) :
    s.plant.Bounded (s.event f).plant := by
  rw [State.event_plant]
  exact h.then_store rfl

theorem State.event_bounded_store (s : State) {f : Plant → Plant} (h : (f s.plant).store = s.plant.store) :
    s.plant.Bounded (s.event f).plant := s.event_bounded (.of_store h)

theorem State.request_bounded {α : Type} (s : State) (c : Instr) (tag kind : Nat) (body : Form α)
    (h : α → State → Plant × Answer) (works : ∀ a k, s.plant.Bounded (h a { s with ctl := k }).1) :
    s.plant.Bounded (s.request c tag kind body h).plant :=
  s.request_plant_rel c tag kind body h (.refl _) (fun _ hq => hq.then_store rfl) fun a k _ => works a k

theorem State.request_bounded_store {α : Type} (s : State) (c : Instr) (tag kind : Nat) (body : Form α)
    (h : α → State → Plant × Answer) (works : ∀ a k, (h a { s with ctl := k }).1.store = s.plant.store) :
    s.plant.Bounded (s.request c tag kind body h).plant := s.request_bounded c tag kind body h fun a k => .of_store (works a k)

/-- Every command but power-on and a well-formed RESET PART keeps the bounds. -/
theorem exec_bounded {c : Instr} {s t : State} (h : exec c s = .next t) (power : c ≠ .powerOn)
    (reset : ∀ tag, c ≠ .resetPart tag (.sound ())) : s.plant.Bounded t.plant := by
  cases c with
  | powerOn => exact absurd rfl power
  | resetPart tag body =>
    cases body with
    | faulty => cases h; exact s.request_bounded_store _ _ _ _ _ fun _ _ => rfl
    | sound u => exact absurd rfl (reset tag)
  | setReference => cases h; exact s.request_bounded_store _ _ _ _ _ fun a _ => setReference_store a _
  | setLinks => cases h; exact s.request_bounded_store _ _ _ _ _ fun a _ => setLinks_store a _
  | replicaReset => cases h; exact s.request_bounded _ _ _ _ _ fun a _ => replicaReset_bounded a _
  | editEventInsert => cases h; exact s.request_bounded _ _ _ _ _ fun a _ => editEvent_bounded _ _ _ _
  | editEventReplace => cases h; exact s.request_bounded _ _ _ _ _ fun a _ => editEvent_bounded _ _ _ _
  | editEventDelete => cases h; exact s.request_bounded _ _ _ _ _ fun a _ => editEvent_bounded _ _ _ _
  | readPlaylist => cases h; exact s.request_bounded_store _ _ _ _ _ fun a _ => readPlaylist_store a _
  | readWatch => cases h; exact s.request_bounded_store _ _ _ _ _ fun a _ => readWatch_store a _
  | setPort => cases h; exact s.request_bounded_store _ _ _ _ _ fun a _ => setPort_store a _
  | passThrough => cases h; exact s.request_bounded_store _ _ _ _ _ fun a _ => passThrough_store a _
  | setTemplate => cases h; exact s.request_bounded_store _ _ _ _ _ fun a _ => setTemplate_store a _
  | halt => cases h; exact s.request_bounded_store _ _ _ _ _ fun a _ => halt_store a _
  | resume => cases h; exact s.request_bounded_store _ _ _ _ _ fun a _ => resume_store a _
  | setChannel => cases h; exact s.request_bounded _ _ _ _ _ fun a _ => setChannel_bounded a _
  | clearChannel => cases h; exact s.request_bounded _ _ _ _ _ fun a _ => clearChannel_bounded a _
  | take => cases h; exact s.request_bounded_store _ _ _ _ _ fun a _ => take_store a _
  | confirm => cases h; exact s.request_bounded_store _ _ _ _ _ fun a _ => confirm_store a _
  | veto => cases h; exact s.request_bounded_store _ _ _ _ _ fun a _ => veto_store a _
  | abortTake => cases h; exact s.request_bounded_store _ _ _ _ _ fun a _ => abortTake_store a _
  | readChannel => cases h; exact s.request_bounded_store _ _ _ _ _ fun a _ => readChannel_store a _
  | returnToMain => cases h; exact s.request_bounded_store _ _ _ _ _ fun a _ => returnToMain_store a _
  | cancelReturn => cases h; exact s.request_bounded_store _ _ _ _ _ fun a _ => cancelReturn_store a _
  | adopt => cases h; exact s.request_bounded_store _ _ _ _ _ fun a _ => adopt_store a _
  | release => cases h; exact s.request_bounded_store _ _ _ _ _ fun a _ => release_store a _
  | readAsRun => cases h; exact s.request_bounded_store _ _ _ _ _ fun _ _ => rfl
  | unknownRequest => cases h; exact s.request_bounded_store _ _ _ _ _ fun _ _ => rfl
  | tagZeroFrame => cases h; rfl
  | controlReceiveFault => cases h; rfl
  | controlFrameSent => cases h; rfl
  | framePulse r pos => cases h; exact s.event_bounded (s.plant.pulseAt_bounded r pos)
  | pulseWindowClose r => cases h; exact s.event_bounded (s.plant.windowClose_bounded r)
  | rephaseWindowClose r => cases h; exact s.event_bounded (s.plant.rephaseClose_bounded r)
  | crystalFrameEnd r => cases h; exact s.event_bounded (s.plant.crystalEnd_bounded r)
  | inPhaseRunLapse r => cases h; exact s.event_bounded_store (s.plant.runLapse_store r)
  | referenceLabel r => cases h; exact s.event_bounded_store (s.plant.modRef_store r _)
  | dayRoll c => cases h; exact s.event_bounded_store (s.plant.rollIfDue_store c)
  | switchLine c => cases h; exact s.event_bounded (s.plant.reachLine_bounded c)
  | confirmExpiry c => cases h; exact s.event_bounded_store (s.plant.expireConfirm_store c)
  | evPut => cases h; exact s.event_bounded (s.plant.channelRecord_bounded _ _ _ _)
  | evSwap => cases h; exact s.event_bounded (s.plant.channelRecord_bounded _ _ _ _)
  | evDrop => cases h; exact s.event_bounded (s.plant.channelRecord_bounded _ _ _ _)
  | chWipe => cases h; exact s.event_bounded (s.plant.channelRecord_bounded _ _ _ _)
  | batchOpen => cases h; exact s.event_bounded (s.plant.channelRecord_bounded _ _ _ _)
  | batchClose => cases h; exact s.event_bounded (s.plant.channelRecord_bounded _ _ _ _)
  | base => cases h; exact s.event_bounded (s.plant.channelRecord_bounded _ _ _ _)
  | pulse l =>
    cases h
    exact s.event_bounded_store ((Plant.takePulse_store _ _ _ _).trans (s.plant.goodFrame_store l))
  | unreadableRecord l =>
    cases h
    exact s.event_bounded_store ((Plant.setLink_store _ _ _).trans (s.plant.goodFrame_store l))
  | linkReceiveFault => cases h; exact s.event_bounded_store (Plant.setLink_store _ _ _)
  | linkBreakDown l => cases h; exact s.event_bounded_store (s.plant.linkBreak_store l)
  | askFillTimer c => cases h; exact s.event_bounded_store (s.plant.askFill_store c)
  | gapTimeout c => cases h; exact s.event_bounded (s.plant.gapExpired_bounded c)
  | reloadTimer c => cases h; exact s.event_bounded_store (s.plant.reloadExpired_store c)
  | batchTimeout c => cases h; exact s.event_bounded (s.plant.batchExpired_bounded c)
  | heartbeatTimeout => cases h; exact s.event_bounded_store s.plant.heartbeatExpired_store
  | backChannelFrameSent l => cases l <;> (cases h; rfl)
  | probeRecord n r => cases h; exact s.event_bounded_store (s.plant.latchProbe_store n r)
  | probeReceiveFault => cases h; exact s.event_bounded_store rfl
  | deviceReply i r => cases h; exact s.event_bounded_store (s.plant.goodReply_store i r)
  | deviceReceiveFault => cases h; exact s.event_bounded_store (s.plant.deviceFault_store _ _ _ _)
  | commandFrameSent i => cases h; exact s.event_bounded_store (s.plant.modPort_store i _)
  | replyTimeout i => cases h; exact s.event_bounded_store (s.plant.replyExpired_store i)
  | portBreakDown i => cases h; exact s.event_bounded_store (s.plant.portBreak_store i)
  | recoveryBreakEnd i => cases h; exact s.event_bounded_store (s.plant.modPort_store i _)
  | probeTimerExpiry i => cases h; exact s.event_bounded_store (s.plant.modPort_store i _)
  | unknownRecordKind l => cases h; exact s.event_bounded_store (s.plant.goodFrame_store l)

/-! ## Power-on and RESET PART -/

theorem Plant.pool_of_empty {p : Plant} (h : ∀ c, (p.chan c).playlist = []) : p.PoolSound :=
  ⟨fun c => by simp [h], fun c => by simp [h], by simp [h]⟩

theorem Plant.hold_of_empty {p : Plant} (h : p.hold = []) : p.HoldSound :=
  ⟨by simp [h], fun c => by simp [Plant.holdCount, h], fun c => by simp [Plant.holdCount, h]⟩

theorem Plant.afterReset_chan (p : Plant) (c : Chan) : p.afterReset.chan c = (p.chan c).afterReset := by
  simp [Plant.chan, Plant.afterReset]

theorem Channel.afterReset_playlist (x : Channel) : x.afterReset.playlist = [] := by
  unfold Channel.afterReset
  split <;> rfl

theorem Plant.reset_chan (c : Chan) : Plant.reset.chan c = Channel.reset := by simp [Plant.chan, Plant.reset]

@[simp] theorem State.resetPart_plant (s : State) (tag : Nat) :
    (s.resetPart tag).plant = { s.plant.afterReset with outbox := [] } := by
  simp [State.resetPart]

/-- A well-formed RESET PART is carried out, or waits and leaves the plant as it was. -/
theorem exec_resetPart_plant {tag : Nat} {s t : State} (h : exec (.resetPart tag (.sound ())) s = .next t) :
    t.plant = { s.plant.afterReset with outbox := [] } ∨ t.plant = s.plant := by
  replace h : (if s.ctl.takesNow tag then s.resetPart tag
      else { s with ctl := ControlLine.arrive { s.ctl with rx := [] } (.resetPart tag (.sound ())) }) = t := by
    cases h; rfl
  subst h
  split
  · exact .inl (s.resetPart_plant tag)
  · exact .inr rfl

theorem exec_powerOn_plant {s t : State} (h : exec .powerOn s = .next t) :
    t.plant = { Plant.reset with free := s.plant.free } := by cases h; rfl

/-! ## Every step -/

/-- A property of the plant that every command keeps is kept by every step. -/
theorem step_plant_keeps {P : Plant → Prop} (keeps : ∀ {c s t}, exec c s = .next t → P s.plant → P t.plant) {s t : State}
    (hs : P s.plant) (h : step s = .next t) : P t.plant := by
  unfold step at h
  split at h
  · unfold State.idle at h
    split at h
    · cases h; exact hs
    · split at h
      · next hrun =>
        have kept := keeps hrun hs
        split at h <;> (cases h; exact kept)
      · next hrun => exact absurd h (hrun t)
  · exact keeps h hs

/-- A property that power-on and RESET PART establish and the other commands keep is kept by every command. -/
theorem exec_plant_keeps {P : Plant → Prop} (power : ∀ n, P { Plant.reset with free := n })
    (reset : ∀ p : Plant, P { p.afterReset with outbox := [] })
    (other : ∀ {c s t}, exec c s = .next t → c ≠ .powerOn → (∀ tag, c ≠ .resetPart tag (.sound ())) → P s.plant → P t.plant)
    {c : Instr} {s t : State} (h : exec c s = .next t) (hs : P s.plant) : P t.plant := by
  rcases Decidable.em (c = .powerOn) with rfl | hp
  · rw [exec_powerOn_plant h]; exact power _
  rcases Classical.em (∃ tag, c = .resetPart tag (.sound ())) with ⟨tag, rfl⟩ | hr
  · rcases exec_resetPart_plant h with e | e <;> rw [e]
    · exact reset _
    · exact hs
  · exact other h hp (fun tag e => hr ⟨tag, e⟩) hs

/-- Settles O7, by the bounds that each command keeps. -/
theorem stepKeepsPool : Obligations.StepKeepsPool := by
  intro s t
  refine step_plant_keeps (P := Plant.PoolSound) (exec_plant_keeps (fun n => ?_) (fun p => ?_) fun h hp hr =>
    (exec_bounded h hp hr).pool)
  · exact Plant.pool_of_empty fun c => congrArg Channel.playlist (Plant.reset_chan c)
  · exact Plant.pool_of_empty fun c => (congrArg Channel.playlist (p.afterReset_chan c)).trans (Channel.afterReset_playlist _)

/-- Settles O8, by the bounds that each command keeps. -/
theorem stepKeepsHold : Obligations.StepKeepsHold := by
  intro s t
  exact step_plant_keeps (P := Plant.HoldSound) (exec_plant_keeps (fun n => Plant.hold_of_empty rfl)
    (fun p => Plant.hold_of_empty rfl) fun h hp hr => (exec_bounded h hp hr).hold)

end Sys2Proof.Machine
end

