-- ==== Sys2Proof/Proofs/Templates.lean ====
section
/-! PROOFS. What work on a reference leaves alone, and that no command but SET TEMPLATE, RESET PART and power-on changes a
template (R114). -/

namespace Sys2Proof.Machine

/-! ## All but the references -/

/-- What `Still` lists without the references. -/
def Plant.base (p : Plant) : Plant := { p.rest with refA := .reset, refB := .reset }

theorem Plant.base_of_rest {p q : Plant} (h : q.rest = p.rest) : q.base = p.base := by
  unfold Plant.base
  rw [h]

theorem Plant.templates_of_base {p q : Plant} (h : q.base = p.base) : q.templates = p.templates :=
  (congrArg Plant.templates h : q.base.templates = p.base.templates)

theorem Plant.templates_of_rest {p q : Plant} (h : q.rest = p.rest) : q.templates = p.templates := (Plant.still_of_rest h).templates

/-- R1 to R7: a reference has worked, and nothing that its channels' work leaves alone has moved. -/
theorem Plant.stillBut_of_base {p q : Plant} {r : RefId} (h : q.base = p.base) (other : ∀ o, o ≠ r → q.ref o = p.ref o) :
    p.StillBut q r := by
  refine ⟨other, Plant.still_of_rest ?_⟩
  have e : { q.base with refA := p.refA, refB := p.refB } = { p.base with refA := p.refA, refB := p.refB } := by rw [h]
  exact e

@[simp] theorem Plant.setRef_base (p : Plant) (r : RefId) (x : Reference) : (p.setRef r x).base = p.base := by cases r <;> rfl
@[simp] theorem Plant.modRef_base (p : Plant) (r : RefId) (f : Reference → Reference) : (p.modRef r f).base = p.base :=
  p.setRef_base r _

theorem Plant.foldl_base {α : Type} (f : Plant → α → Plant) (h : ∀ q a, (f q a).base = q.base) (l : List α) (p : Plant) :
    (l.foldl f p).base = p.base := by
  induction l generalizing p with
  | nil => rfl
  | cons a l ih => rw [List.foldl_cons, ih, h]

@[simp] theorem Plant.setRaised_base (p : Plant) (r : RefId) (n : Nat) : (p.setRaised r n).base = p.base := p.setRef_base r _

@[simp] theorem Plant.tickFree_base (p : Plant) : p.tickFree.base = p.base := rfl

@[simp] theorem Plant.tellReference_base (p : Plant) (r : RefId) : (p.tellReference r).base = p.base := rfl

@[simp] theorem Plant.raiseLines_base (p : Plant) (r : RefId) (upto : Nat) : (p.raiseLines r upto).base = p.base := by
  simp only [Plant.raiseLines]
  split
  · rfl
  · rw [Plant.setRaised_base, Plant.tickFree_base]
    exact Plant.foldl_base _ (fun q c => (Plant.base_of_rest (Plant.switchLine_rest _ c)).trans (q.setRaised_base r _)) _ _

@[simp] theorem Plant.frameStart_base (p : Plant) (r : RefId) (line length : Nat) : (p.frameStart r line length).base = p.base := by
  simp only [Plant.frameStart]
  rw [Plant.base_of_rest (Plant.channelFrames_rest _ _ _), Plant.tickFree_base]
  split <;> simp

@[simp] theorem Plant.endFrame_base (p : Plant) (r : RefId) (line length : Nat) : (p.endFrame r line length).base = p.base := by
  simp [Plant.endFrame]

@[simp] theorem Plant.missPulse_base (p : Plant) (r : RefId) : (p.missPulse r).base = p.base := by
  simp only [Plant.missPulse]
  split <;> simp

@[simp] theorem Plant.passLines_base (p : Plant) (r : RefId) (pos : Nat) : (p.passLines r pos).base = p.base := by
  simp [Plant.passLines]

@[simp] theorem Plant.relock_base (p : Plant) (r : RefId) (pos : Nat) : (p.relock r pos).base = p.base := by simp [Plant.relock]

@[simp] theorem Plant.rephase_base (p : Plant) (r : RefId) (pos : Nat) : (p.rephase r pos).base = p.base := by
  simp only [Plant.rephase]
  split <;> simp

@[simp] theorem Plant.pulseAt_base (p : Plant) (r : RefId) (pos : Nat) : (p.pulseAt r pos).base = p.base := by
  simp only [Plant.pulseAt]
  repeat' split
  all_goals simp

@[simp] theorem Plant.windowClose_base (p : Plant) (r : RefId) : (p.windowClose r).base = p.base := by
  simp only [Plant.windowClose]
  split <;> simp

@[simp] theorem Plant.rephaseClose_base (p : Plant) (r : RefId) : (p.rephaseClose r).base = p.base := by
  simp only [Plant.rephaseClose]
  split <;> simp

@[simp] theorem Plant.crystalEnd_base (p : Plant) (r : RefId) : (p.crystalEnd r).base = p.base := by
  unfold Plant.crystalEnd
  split <;> simp

@[simp] theorem Plant.runLapse_base (p : Plant) (r : RefId) : (p.runLapse r).base = p.base := by
  unfold Plant.runLapse
  split <;> simp

@[simp] theorem Plant.reachLine_base (p : Plant) (c : Chan) : (p.reachLine c).base = p.base := by
  unfold Plant.reachLine
  repeat' split
  all_goals simp

/-! ## Links and replication -/

@[simp] theorem Plant.setLink_templates (p : Plant) (l : LinkId) (x : Link) : (p.setLink l x).templates = p.templates := by
  cases l <;> rfl

@[simp] theorem Plant.goodFrame_templates (p : Plant) (l : LinkId) : (p.goodFrame l).templates = p.templates := by
  have told : ∀ q : Plant, (q.tellLink l).templates = q.templates := fun q => q.setLink_templates l _
  simp only [Plant.goodFrame]
  split <;> simp [told, Plant.modLink]

theorem Plant.channelRecord_templates (p : Plant) (l : LinkId) (channel seq : Nat) (r : Rec) :
    (p.channelRecord l channel seq r).templates = p.templates := by
  simp only [Plant.channelRecord]
  repeat' split
  case h_1.isFalse => rw [Plant.templates_of_rest (Plant.classify_rest _ _ _ _), Plant.goodFrame_templates]
  all_goals exact p.goodFrame_templates l

theorem Plant.foldl_templates {α : Type} (f : Plant → α → Plant) (h : ∀ q a, (f q a).templates = q.templates) (l : List α)
    (p : Plant) : (l.foldl f p).templates = p.templates := by
  induction l generalizing p with
  | nil => rfl
  | cons a l ih => rw [List.foldl_cons, ih, h]

theorem Plant.takePulse_templates (p : Plant) (number day : Nat) (ids : List (Option Nat)) :
    (p.takePulse number day ids).templates = p.templates := by
  simp only [Plant.takePulse]
  split
  · rfl
  · exact Plant.foldl_templates _ (fun q c => Plant.templates_of_rest (q.comparePulse_rest c _)) _ _

/-! ## The requests' handlers -/

theorem setReference_templates (a : SetReferenceArgs) (p : Plant) : (setReference a p).1.templates = p.templates := by
  refine Plant.templates_of_base ?_
  simp only [setReference]
  repeat' split
  all_goals simp

theorem setLinks_templates (a : SetLinksArgs) (p : Plant) : (setLinks a p).1.templates = p.templates := by
  simp only [setLinks]
  repeat' split
  all_goals rfl

theorem replicaReset_rest (n : Nat) (p : Plant) : (replicaReset n p).1.rest = p.rest := by
  simp only [replicaReset, Plant.resetShadow, Plant.resetRunning]
  repeat' split
  all_goals simp

theorem editEvent_rest (n : Nat) (o : PlOp) (report : Plant → Chan → PlDone → Answer) (p : Plant) :
    (editEvent n o report p).1.rest = p.rest := by
  unfold editEvent
  split
  · rfl
  split
  case h_1 | h_2 | h_3 | h_4 => rfl
  all_goals
    split
    · rfl
    · next h => exact p.edit_rest _ _ h

theorem readPlaylist_plant (a : ReadPlaylistArgs) (p : Plant) : (readPlaylist a p).1 = p := by
  simp only [readPlaylist]
  repeat' split
  all_goals rfl

theorem readWatch_templates (n : Nat) (p : Plant) : (readWatch n p).1.templates = p.templates := by
  unfold readWatch
  split <;> rfl

theorem Plant.setRole_rest (p : Plant) (i : PortNo) (r : Role) : (p.setRole i r).rest = p.rest := by
  unfold Plant.setRole
  dsimp only
  split
  · rfl
  · split
    · rw [Plant.nowUp_rest, Plant.tellPort_rest, Plant.modPort_rest]
    · rw [Plant.enterOff_rest]
    · rw [Plant.settlePort_rest, Plant.spareFreed_rest, Plant.modPort_rest]
    · rw [Plant.modPort_rest]

theorem setPort_rest (a : SetPortArgs) (p : Plant) : (setPort a p).1.rest = p.rest := by
  unfold setPort
  split
  · rfl
  split
  · rfl
  · simp [Plant.setRole_rest]

theorem passThrough_rest (a : PassThroughArgs) (s : State) : (passThrough a s).1.rest = s.plant.rest := by
  simp only [passThrough, Plant.placePass]
  repeat' split
  all_goals simp

theorem halt_rest (n : Nat) (p : Plant) : (halt n p).1.rest = p.rest := by
  unfold halt
  repeat' split
  all_goals simp

theorem resume_rest (n : Nat) (p : Plant) : (resume n p).1.rest = p.rest := by
  have joins : ∀ c (q : Plant), (q.resumeJoin c).rest = q.rest := fun c q => by
    simp only [Plant.resumeJoin]
    repeat' split
    all_goals simp
  unfold resume
  repeat' split
  all_goals simp [joins]

theorem setChannel_templates (a : SetChannelArgs) (p : Plant) : (setChannel a p).1.templates = p.templates := by
  have heartbeat : ∀ (q : Plant) h, (q.takeHeartbeat h).templates = q.templates := fun q h => by cases h <;> rfl
  have accepts : ∀ c g, (p.acceptChannel c g).templates = p.templates := fun c g => by
    rw [Plant.acceptChannel, heartbeat]
    refine Plant.templates_of_rest ?_
    simp only [Plant.startChannel, Plant.reconfigure]
    repeat' split
    all_goals simp
  unfold setChannel
  repeat' split
  all_goals simp [accepts]

theorem clearChannel_rest (n : Nat) (p : Plant) : (clearChannel n p).1.rest = p.rest := by
  unfold clearChannel
  repeat' split
  all_goals simp

theorem take_rest (a : TakeArgs) (p : Plant) : (take a p).1.rest = p.rest := by
  unfold take
  repeat' split
  all_goals simp

theorem confirm_rest (n : Nat) (p : Plant) : (confirm n p).1.rest = p.rest := by
  unfold confirm
  repeat' split
  all_goals simp

theorem veto_rest (n : Nat) (p : Plant) : (veto n p).1.rest = p.rest := by
  unfold veto
  repeat' split
  all_goals simp

theorem Plant.abort_rest (p : Plant) (c : Chan) : (p.abort c).rest = p.rest := by
  simp only [Plant.abort, Plant.abortSwitch, Plant.abortStop]
  repeat' split
  all_goals simp

theorem abortTake_rest (n : Nat) (p : Plant) : (abortTake n p).1.rest = p.rest := by
  unfold abortTake
  repeat' split
  all_goals simp [Plant.abort_rest]

theorem readChannel_rest (n : Nat) (s : State) : (readChannel n s).1.rest = s.plant.rest := by
  unfold readChannel
  split <;> rfl

theorem returnToMain_rest (a : ReturnArgs) (p : Plant) : (returnToMain a p).1.rest = p.rest := by
  unfold returnToMain
  repeat' split
  all_goals rfl

theorem cancelReturn_rest (n : Nat) (p : Plant) : (cancelReturn n p).1.rest = p.rest := by
  unfold cancelReturn
  repeat' split
  all_goals simp

theorem adopt_rest (a : AdoptArgs) (p : Plant) : (adopt a p).1.rest = p.rest := by
  simp only [adopt, Plant.acceptAdopt]
  repeat' split
  all_goals simp

theorem release_rest (a : ReleaseArgs) (p : Plant) : (release a p).1.rest = p.rest := by
  simp only [release, Plant.acceptRelease]
  repeat' split
  all_goals simp

/-! ## The device line's and the links' events -/

theorem Plant.deviceFault_rest (p : Plant) (i : PortNo) (fault : LineFault) (begun : Bool) (left : List Byte) :
    (p.deviceFault i fault begun left).rest = p.rest := by
  simp only [Plant.deviceFault]
  repeat' split
  all_goals simp

theorem Plant.replyExpired_rest (p : Plant) (i : PortNo) : (p.replyExpired i).rest = p.rest := by
  simp only [Plant.replyExpired]
  split <;> simp

theorem Plant.portBreak_rest (p : Plant) (i : PortNo) : (p.portBreak i).rest = p.rest := by
  unfold Plant.portBreak
  split <;> simp

theorem Plant.linkBreak_templates (p : Plant) (l : LinkId) : (p.linkBreak l).templates = p.templates := by
  unfold Plant.linkBreak
  split
  · rfl
  · exact (Plant.setLink_templates _ l _).trans (p.setLink_templates l _)

theorem Plant.askFill_rest (p : Plant) (c : Chan) : (p.askFill c).rest = p.rest := by
  unfold Plant.askFill
  repeat' split
  all_goals simp

theorem Plant.gapExpired_rest (p : Plant) (c : Chan) : (p.gapExpired c).rest = p.rest := by
  unfold Plant.gapExpired
  split <;> simp

theorem Plant.batchExpired_rest (p : Plant) (c : Chan) : (p.batchExpired c).rest = p.rest := by
  unfold Plant.batchExpired
  split <;> simp

theorem Plant.reloadExpired_rest (p : Plant) (c : Chan) : (p.reloadExpired c).rest = p.rest := by
  unfold Plant.reloadExpired
  split <;> simp

theorem Plant.heartbeatExpired_templates (p : Plant) : p.heartbeatExpired.templates = p.templates := by
  unfold Plant.heartbeatExpired
  split <;> rfl

theorem Plant.latchProbe_templates (p : Plant) (n : Nat) (r : Probe) : (p.latchProbe n r).templates = p.templates := by
  simp only [Plant.latchProbe]
  repeat' split
  all_goals rfl

/-! ## A command's templates -/

theorem State.event_templates (s : State) {f : Plant → Plant} (h : (f s.plant).templates = s.plant.templates) :
    (s.event f).plant.templates = s.plant.templates := by
  rw [State.event_plant]
  exact h

theorem State.request_templates {α : Type} (s : State) (c : Instr) (tag kind : Nat) (body : Form α)
    (h : α → State → Plant × Answer)
    (works : ∀ a k, body = .sound a → (h a { s with ctl := k }).1.templates = s.plant.templates) :
    (s.request c tag kind body h).plant.templates = s.plant.templates :=
  s.request_plant_rel (R := fun q => q.templates = s.plant.templates) c tag kind body h rfl (fun _ hq => hq) works

theorem State.request_rest_templates {α : Type} (s : State) (c : Instr) (tag kind : Nat) (body : Form α)
    (h : α → State → Plant × Answer) (works : ∀ a k, (h a { s with ctl := k }).1.rest = s.plant.rest) :
    (s.request c tag kind body h).plant.templates = s.plant.templates :=
  s.request_templates c tag kind body h fun a k _ => Plant.templates_of_rest (works a k)

/-- R114: every command but SET TEMPLATE, RESET PART and power-on leaves the templates. -/
theorem exec_templates {c : Instr} {s t : State} (h : exec c s = .next t) (power : c ≠ .powerOn)
    (load : ∀ tag a, c ≠ .setTemplate tag (.sound a)) (reset : ∀ tag, c ≠ .resetPart tag (.sound ())) :
    t.plant.templates = s.plant.templates := by
  cases c with
  | powerOn => exact absurd rfl power
  | resetPart tag body =>
    cases body with
    | faulty => cases h; exact s.request_rest_templates _ _ _ _ _ fun _ _ => rfl
    | sound u => exact absurd rfl (reset tag)
  | setReference => cases h; exact s.request_templates _ _ _ _ _ fun a _ _ => setReference_templates a _
  | setLinks => cases h; exact s.request_templates _ _ _ _ _ fun a _ _ => setLinks_templates a _
  | replicaReset => cases h; exact s.request_rest_templates _ _ _ _ _ fun a _ => replicaReset_rest a _
  | editEventInsert => cases h; exact s.request_rest_templates _ _ _ _ _ fun a _ => editEvent_rest _ _ _ _
  | editEventReplace => cases h; exact s.request_rest_templates _ _ _ _ _ fun a _ => editEvent_rest _ _ _ _
  | editEventDelete => cases h; exact s.request_rest_templates _ _ _ _ _ fun a _ => editEvent_rest _ _ _ _
  | readPlaylist =>
    cases h
    exact s.request_rest_templates _ _ _ _ _ fun a _ => congrArg Plant.rest (readPlaylist_plant a _)
  | readWatch => cases h; exact s.request_templates _ _ _ _ _ fun a _ _ => readWatch_templates a _
  | setPort => cases h; exact s.request_rest_templates _ _ _ _ _ fun a _ => setPort_rest a _
  | passThrough => cases h; exact s.request_rest_templates _ _ _ _ _ fun a _ => passThrough_rest a _
  | setTemplate tag =>
    cases h
    exact s.request_templates _ _ _ _ _ fun a _ hb => absurd (congrArg (Instr.setTemplate tag) hb) (load tag a)
  | halt => cases h; exact s.request_rest_templates _ _ _ _ _ fun a _ => halt_rest a _
  | resume => cases h; exact s.request_rest_templates _ _ _ _ _ fun a _ => resume_rest a _
  | setChannel => cases h; exact s.request_templates _ _ _ _ _ fun a _ _ => setChannel_templates a _
  | clearChannel => cases h; exact s.request_rest_templates _ _ _ _ _ fun a _ => clearChannel_rest a _
  | take => cases h; exact s.request_rest_templates _ _ _ _ _ fun a _ => take_rest a _
  | confirm => cases h; exact s.request_rest_templates _ _ _ _ _ fun a _ => confirm_rest a _
  | veto => cases h; exact s.request_rest_templates _ _ _ _ _ fun a _ => veto_rest a _
  | abortTake => cases h; exact s.request_rest_templates _ _ _ _ _ fun a _ => abortTake_rest a _
  | readChannel => cases h; exact s.request_rest_templates _ _ _ _ _ fun a _ => readChannel_rest a _
  | returnToMain => cases h; exact s.request_rest_templates _ _ _ _ _ fun a _ => returnToMain_rest a _
  | cancelReturn => cases h; exact s.request_rest_templates _ _ _ _ _ fun a _ => cancelReturn_rest a _
  | adopt => cases h; exact s.request_rest_templates _ _ _ _ _ fun a _ => adopt_rest a _
  | release => cases h; exact s.request_rest_templates _ _ _ _ _ fun a _ => release_rest a _
  | readAsRun => cases h; exact s.request_rest_templates _ _ _ _ _ fun _ _ => rfl
  | unknownRequest => cases h; exact s.request_rest_templates _ _ _ _ _ fun _ _ => rfl
  | tagZeroFrame => cases h; rfl
  | controlReceiveFault => cases h; rfl
  | controlFrameSent => cases h; rfl
  | framePulse r pos => cases h; exact s.event_templates (Plant.templates_of_base (s.plant.pulseAt_base r pos))
  | pulseWindowClose r => cases h; exact s.event_templates (Plant.templates_of_base (s.plant.windowClose_base r))
  | rephaseWindowClose r => cases h; exact s.event_templates (Plant.templates_of_base (s.plant.rephaseClose_base r))
  | crystalFrameEnd r => cases h; exact s.event_templates (Plant.templates_of_base (s.plant.crystalEnd_base r))
  | inPhaseRunLapse r => cases h; exact s.event_templates (Plant.templates_of_base (s.plant.runLapse_base r))
  | referenceLabel r => cases h; exact s.event_templates (Plant.templates_of_base (s.plant.modRef_base r _))
  | dayRoll c => cases h; exact s.event_templates (Plant.templates_of_rest (s.plant.rollIfDue_rest c))
  | switchLine c => cases h; exact s.event_templates (Plant.templates_of_base (s.plant.reachLine_base c))
  | confirmExpiry c => cases h; exact s.event_templates (Plant.templates_of_rest (s.plant.expireConfirm_rest c))
  | evPut => cases h; exact s.event_templates (s.plant.channelRecord_templates _ _ _ _)
  | evSwap => cases h; exact s.event_templates (s.plant.channelRecord_templates _ _ _ _)
  | evDrop => cases h; exact s.event_templates (s.plant.channelRecord_templates _ _ _ _)
  | chWipe => cases h; exact s.event_templates (s.plant.channelRecord_templates _ _ _ _)
  | batchOpen => cases h; exact s.event_templates (s.plant.channelRecord_templates _ _ _ _)
  | batchClose => cases h; exact s.event_templates (s.plant.channelRecord_templates _ _ _ _)
  | base => cases h; exact s.event_templates (s.plant.channelRecord_templates _ _ _ _)
  | pulse l =>
    cases h
    exact s.event_templates ((Plant.takePulse_templates _ _ _ _).trans (s.plant.goodFrame_templates l))
  | unreadableRecord l =>
    cases h
    exact s.event_templates ((Plant.setLink_templates _ _ _).trans (s.plant.goodFrame_templates l))
  | linkReceiveFault => cases h; exact s.event_templates (Plant.setLink_templates _ _ _)
  | linkBreakDown l => cases h; exact s.event_templates (s.plant.linkBreak_templates l)
  | askFillTimer c => cases h; exact s.event_templates (Plant.templates_of_rest (s.plant.askFill_rest c))
  | gapTimeout c => cases h; exact s.event_templates (Plant.templates_of_rest (s.plant.gapExpired_rest c))
  | reloadTimer c => cases h; exact s.event_templates (Plant.templates_of_rest (s.plant.reloadExpired_rest c))
  | batchTimeout c => cases h; exact s.event_templates (Plant.templates_of_rest (s.plant.batchExpired_rest c))
  | heartbeatTimeout => cases h; exact s.event_templates s.plant.heartbeatExpired_templates
  | backChannelFrameSent l => cases l <;> (cases h; rfl)
  | probeRecord n r => cases h; exact s.event_templates (s.plant.latchProbe_templates n r)
  | probeReceiveFault => cases h; exact s.event_templates rfl
  | deviceReply i r => cases h; exact s.event_templates (Plant.templates_of_rest (s.plant.goodReply_rest i r))
  | deviceReceiveFault => cases h; exact s.event_templates (Plant.templates_of_rest (s.plant.deviceFault_rest _ _ _ _))
  | commandFrameSent i => cases h; exact s.event_templates rfl
  | replyTimeout i => cases h; exact s.event_templates (Plant.templates_of_rest (s.plant.replyExpired_rest i))
  | portBreakDown i => cases h; exact s.event_templates (Plant.templates_of_rest (s.plant.portBreak_rest i))
  | recoveryBreakEnd i => cases h; exact s.event_templates rfl
  | probeTimerExpiry i => cases h; exact s.event_templates rfl
  | unknownRecordKind l => cases h; exact s.event_templates (s.plant.goodFrame_templates l)

/-! ## The bound of 8 steps -/

theorem setTemplate_templates (a : SetTemplateArgs) (p : Plant) (h : p.TemplatesSound) : (setTemplate a p).1.TemplatesSound := by
  simp only [setTemplate]
  repeat' split
  case h_1.isTrue ht _ _ _ hlen =>
    intro t htt
    rw [Plant.foldl_templates _ fun q c => Plant.templates_of_rest (p.wakeAfter_rest q c)]
    rw [Vector.getElem_set]
    split
    · exact hlen.2
    · exact h t htt
  all_goals exact h

theorem exec_setTemplate_sound {tag : Nat} {a : SetTemplateArgs} {s t : State}
    (h : exec (.setTemplate tag (.sound a)) s = .next t) (hs : s.plant.TemplatesSound) : t.plant.TemplatesSound := by
  cases h
  exact s.request_plant_rel (R := Plant.TemplatesSound) _ _ _ _ _ hs (fun _ hq => hq) fun a _ _ => setTemplate_templates a _ hs

/-- Settles O9: SET TEMPLATE loads at most 8 steps, power-on and RESET PART none, and no other command loads any. -/
theorem stepKeepsTemplates : Obligations.StepKeepsTemplates := by
  have empty : ∀ {p : Plant}, p.templates = Plant.reset.templates → p.TemplatesSound := by
    intro p hp t ht
    simp [hp, Plant.reset]
  refine ⟨fun s t => step_plant_keeps (exec_plant_keeps (fun n => empty rfl) (fun p => empty rfl) ?_), ?_⟩
  · intro c s t h power reset hs
    rcases Classical.em (∃ tag a, c = .setTemplate tag (.sound a)) with ⟨tag, a, rfl⟩ | hl
    · exact exec_setTemplate_sound h hs
    · have same := exec_templates h power (fun tag a e => hl ⟨tag, a, e⟩) reset
      unfold Plant.TemplatesSound
      rw [same]
      exact hs
  · exact fun c s t h power load reset => exec_templates h power load reset

end Sys2Proof.Machine
end

