-- ==== Sys2Proof/Proofs/Requests.lean ====
section
/-! PROOFS. The form that every request's meaning has: judged for its form, answered or made to wait, and refused without an
effect (R180 to R184). -/

namespace Sys2Proof.Machine

/-! ## The counterexample to the bounds of the control line -/

/-- A reply in the BUSY store that would free a place of the request queue when it leaves: `ControlLine.Sound` says nothing of
what the replies of the BUSY store answer. -/
def misplacedBusy : Reply := { tag := 1, kind := 0x98, status := .busy, content := [], origin := .queued }

/-- A notice is leaving the part, and the misplaced reply stands behind it. -/
def ControlLine.misplaced : ControlLine :=
  { ControlLine.reset with
    busy := [misplacedBusy], tx := some ⟨.notice { kind := .takeDone, channel := none, content := [] }, []⟩ }

theorem ControlLine.misplaced_sound : ControlLine.misplaced.Sound where
  requests := by decide
  waiting := nofun
  busy := by decide
  notices := by decide
  order := .nil
  idle := nofun
  owed := by decide

/-- Refutes O6: with the notice sent, the misplaced reply begins, and a reply is owed where no request is queued. -/
theorem not_stepKeepsOuterBounds : ¬ Obligations.StepKeepsOuterBounds := by
  intro keeps
  let s : State := { State.reset with ctl := .misplaced, pending := [.controlFrameSent] }
  have sound : s.Sound := ⟨ControlLine.misplaced_sound, ⟨by decide, by decide, nofun⟩, ⟨.nil, fun _ => rfl⟩, ⟨.nil, fun _ => rfl⟩, rfl⟩
  have after := keeps s { State.reset with ctl := ControlLine.misplaced.frameSent } sound rfl
  exact absurd after.ctl.owed (by decide)

/-! ## Requests that are carried out -/

/-- A handler's answer is an accepted one, or changes nothing of the plant and carries the status alone (R183). -/
def Refusing (p : Plant) (r : Plant × Answer) : Prop :=
  r.2.passPort = none ∧ (r.2.status.success = false → r.1 = p ∧ r.2.content = [])

@[simp] theorem Plant.refuse_refusing (p : Plant) (u : Status) : Refusing p (p.refuse u) := ⟨rfl, fun _ => ⟨rfl, rfl⟩⟩

theorem reply_refusing (p q : Plant) (b : List Byte) {u : Status} (h : u.success = true) : Refusing p (q, reply u b) :=
  ⟨rfl, fun e => absurd (h.symm.trans e) (by decide)⟩

@[simp] theorem reply_ok_refusing (p q : Plant) (b : List Byte) : Refusing p (q, reply .ok b) := reply_refusing p q b rfl

@[simp] theorem reply_adjusted_refusing (p q : Plant) (b : List Byte) : Refusing p (q, reply .adjusted b) :=
  reply_refusing p q b rfl

theorem editStatus_success (late moved : Bool) : (editStatus late moved).success = true := by
  cases late <;> cases moved <;> rfl

theorem reportEvent_refusing (p q : Plant) (id : Nat) (c : Chan) (r : PlDone) : Refusing p (q, reportEvent id q c r) := by
  unfold reportEvent
  split
  all_goals exact reply_refusing p q _ (editStatus_success _ _)

theorem reportDelete_refusing (p q : Plant) (id : Nat) (c : Chan) (r : PlDone) : Refusing p (q, reportDelete id q c r) :=
  reply_refusing p q _ (editStatus_success _ _)

theorem editEvent_refusing (n : Nat) (o : PlOp) {report : Plant → Chan → PlDone → Answer} (p : Plant)
    (h : ∀ q c r, Refusing p (q, report q c r)) : Refusing p (editEvent n o report p) := by
  unfold editEvent
  split
  · exact p.refuse_refusing _
  split
  case h_1 | h_2 | h_3 | h_4 => exact p.refuse_refusing _
  all_goals
    split
    · exact p.refuse_refusing _
    · exact h _ _ _

theorem setReference_refusing (a : SetReferenceArgs) (p : Plant) : Refusing p (setReference a p) := by
  simp only [setReference]
  repeat' split
  all_goals simp

theorem setLinks_refusing (a : SetLinksArgs) (p : Plant) : Refusing p (setLinks a p) := by
  unfold setLinks
  repeat' split
  all_goals simp

theorem replicaReset_refusing (n : Nat) (p : Plant) : Refusing p (replicaReset n p) := by
  unfold replicaReset
  repeat' split
  all_goals simp

theorem readPlaylist_refusing (a : ReadPlaylistArgs) (p : Plant) : Refusing p (readPlaylist a p) := by
  simp only [readPlaylist]
  repeat' split
  all_goals simp

theorem readWatch_refusing (n : Nat) (p : Plant) : Refusing p (readWatch n p) := by
  unfold readWatch
  repeat' split
  all_goals simp

theorem setPort_refusing (a : SetPortArgs) (p : Plant) : Refusing p (setPort a p) := by
  unfold setPort
  repeat' split
  all_goals simp

theorem setTemplate_refusing (a : SetTemplateArgs) (p : Plant) : Refusing p (setTemplate a p) := by
  unfold setTemplate
  repeat' split
  all_goals simp

theorem halt_refusing (n : Nat) (p : Plant) : Refusing p (halt n p) := by
  unfold halt
  repeat' split
  all_goals simp

theorem resume_refusing (n : Nat) (p : Plant) : Refusing p (resume n p) := by
  unfold resume
  repeat' split
  all_goals simp

theorem setChannel_refusing (a : SetChannelArgs) (p : Plant) : Refusing p (setChannel a p) := by
  unfold setChannel
  repeat' split
  all_goals simp

theorem clearChannel_refusing (n : Nat) (p : Plant) : Refusing p (clearChannel n p) := by
  unfold clearChannel
  repeat' split
  all_goals simp

theorem take_refusing (a : TakeArgs) (p : Plant) : Refusing p (take a p) := by
  unfold take
  repeat' split
  all_goals simp

theorem confirm_refusing (n : Nat) (p : Plant) : Refusing p (confirm n p) := by
  unfold confirm
  repeat' split
  all_goals simp

theorem veto_refusing (n : Nat) (p : Plant) : Refusing p (veto n p) := by
  unfold veto
  repeat' split
  all_goals simp

theorem abortTake_refusing (n : Nat) (p : Plant) : Refusing p (abortTake n p) := by
  unfold abortTake
  repeat' split
  all_goals simp

theorem cancelReturn_refusing (n : Nat) (p : Plant) : Refusing p (cancelReturn n p) := by
  unfold cancelReturn
  repeat' split
  all_goals simp

theorem adopt_refusing (a : AdoptArgs) (p : Plant) : Refusing p (adopt a p) := by
  simp only [adopt]
  repeat' split
  all_goals simp

theorem release_refusing (a : ReleaseArgs) (p : Plant) : Refusing p (release a p) := by
  unfold release
  repeat' split
  all_goals simp

theorem readChannel_refusing (n : Nat) (s : State) : Refusing s.plant (readChannel n s) := by
  unfold readChannel
  split <;> simp

theorem returnToMain_refusing (a : ReturnArgs) (p : Plant) : Refusing p (returnToMain a p) := by
  unfold returnToMain
  repeat' split
  all_goals simp

/-- A request to a handler that refuses in this way, admitted, is answered so. -/
theorem State.request_refusing {α : Type} (s : State) (c : Instr) (tag kind : Nat) (body : Form α)
    (h : α → State → Plant × Answer) (ha : s.Admits tag)
    (hr : ∀ a, body = .sound a → Refusing s.plant (h a { s with ctl := { s.ctl with rx := [] } })) :
    ∃ q u b, s.request c tag kind body h = s.answered tag kind q u b ∧ (u.success = false → q = s.plant ∧ b = []) := by
  cases body with
  | faulty => exact ⟨_, _, _, s.request_faulty c tag kind h ha, fun _ => ⟨rfl, rfl⟩⟩
  | sound a => exact ⟨_, _, _, s.request_admitted c tag kind a h ha (hr a rfl).1, (hr a rfl).2⟩

/-- An admitted PASS THROUGH is refused, or enters the pass-through table. -/
theorem State.passThrough_answers (s : State) (tag : Nat) (a : PassThroughArgs) (ha : s.Admits tag) :
    (∃ q u b, exec (.passThrough tag (.sound a)) s = .next (s.answered tag 0x08 q u b) ∧
      (u.success = false → q = s.plant ∧ b = [])) ∨
    (∃ i k q, portOf a.port = some i ∧ passCommand a.kind a.arg = some k ∧
      exec (.passThrough tag (.sound a)) s = .next (({ s with
        plant := q, ctl := { s.ctl with rx := [], passTable := s.ctl.passTable.set i.val (some tag) } } : State).settle none)) := by
  have refused : ∀ u, passThrough a { s with ctl := { s.ctl with rx := [] } } = s.plant.refuse u →
      exec (.passThrough tag (.sound a)) s = .next (s.answered tag 0x08 s.plant u []) := fun u e => by
    have := s.request_admitted (.passThrough tag (.sound a)) tag 0x08 a passThrough ha (by rw [e]; rfl)
    rw [e] at this
    exact congrArg _ this
  have e : passThrough a { s with ctl := { s.ctl with rx := [] } } =
    match portOf a.port, passCommand a.kind a.arg with
    | some i, some k =>
      if (s.plant.port i).state = .off then s.plant.refuse .wrongMode
      else if s.ctl.passTable[i.val].isSome then s.plant.refuse .busy
      else (s.plant.placePass i k, { status := .ok, content := [], passPort := some i })
    | _, _ => s.plant.refuse .badArgument := rfl
  split at e
  · next i k hi hk =>
    split at e
    · exact .inl ⟨_, _, _, refused _ e, fun _ => ⟨rfl, rfl⟩⟩
    split at e
    · exact .inl ⟨_, _, _, refused _ e, fun _ => ⟨rfl, rfl⟩⟩
    · refine .inr ⟨i, k, s.plant.placePass i k, hi, hk, congrArg Host.Outcome.next (?_ : s.request _ _ _ _ _ = _)⟩
      simp only [State.request, ControlLine.takesNow_rx, ha.takesNow, if_true, judged, e, State.conclude]
  · exact .inl ⟨_, _, _, refused _ e, fun _ => ⟨rfl, rfl⟩⟩

/-- Every request but a well-formed RESET PART or PASS THROUGH is a handler's answer, which refuses without an effect. -/
theorem exec_request_refusing {c : Instr} {tag kind : Nat} (hc : c.request = some (tag, kind)) (s : State)
    (reset : ∀ t, c ≠ .resetPart t (.sound ())) (pass : ∀ t a, c ≠ .passThrough t (.sound a)) :
    ∃ (α : Type) (body : Form α) (h : α → State → Plant × Answer), exec c s = .next (s.request c tag kind body h) ∧
      ∀ a, body = .sound a → Refusing s.plant (h a { s with ctl := { s.ctl with rx := [] } }) := by
  cases c with
  | resetPart t body =>
    cases hc
    cases body with
    | faulty => exact ⟨_, _, _, rfl, fun _ _ => Plant.refuse_refusing _ _⟩
    | sound u => exact absurd rfl (reset tag)
  | setReference => cases hc; exact ⟨_, _, _, rfl, fun a _ => setReference_refusing a _⟩
  | setLinks => cases hc; exact ⟨_, _, _, rfl, fun a _ => setLinks_refusing a _⟩
  | replicaReset => cases hc; exact ⟨_, _, _, rfl, fun a _ => replicaReset_refusing a _⟩
  | editEventInsert => cases hc; exact ⟨_, _, _, rfl, fun a _ => editEvent_refusing _ _ _ fun _ _ _ => reportEvent_refusing _ _ _ _ _⟩
  | editEventReplace => cases hc; exact ⟨_, _, _, rfl, fun a _ => editEvent_refusing _ _ _ fun _ _ _ => reportEvent_refusing _ _ _ _ _⟩
  | editEventDelete => cases hc; exact ⟨_, _, _, rfl, fun a _ => editEvent_refusing _ _ _ fun _ _ _ => reportDelete_refusing _ _ _ _ _⟩
  | readPlaylist => cases hc; exact ⟨_, _, _, rfl, fun a _ => readPlaylist_refusing a _⟩
  | readWatch => cases hc; exact ⟨_, _, _, rfl, fun a _ => readWatch_refusing a _⟩
  | setPort => cases hc; exact ⟨_, _, _, rfl, fun a _ => setPort_refusing a _⟩
  | passThrough t body =>
    cases hc
    cases body with
    | faulty => exact ⟨_, _, passThrough, rfl, nofun⟩
    | sound a => exact absurd rfl (pass tag a)
  | setTemplate => cases hc; exact ⟨_, _, _, rfl, fun a _ => setTemplate_refusing a _⟩
  | halt => cases hc; exact ⟨_, _, _, rfl, fun a _ => halt_refusing a _⟩
  | resume => cases hc; exact ⟨_, _, _, rfl, fun a _ => resume_refusing a _⟩
  | setChannel => cases hc; exact ⟨_, _, _, rfl, fun a _ => setChannel_refusing a _⟩
  | clearChannel => cases hc; exact ⟨_, _, _, rfl, fun a _ => clearChannel_refusing a _⟩
  | take => cases hc; exact ⟨_, _, _, rfl, fun a _ => take_refusing a _⟩
  | confirm => cases hc; exact ⟨_, _, _, rfl, fun a _ => confirm_refusing a _⟩
  | veto => cases hc; exact ⟨_, _, _, rfl, fun a _ => veto_refusing a _⟩
  | abortTake => cases hc; exact ⟨_, _, _, rfl, fun a _ => abortTake_refusing a _⟩
  | readChannel => cases hc; exact ⟨_, _, _, rfl, fun a _ => readChannel_refusing a _⟩
  | returnToMain => cases hc; exact ⟨_, _, _, rfl, fun a _ => returnToMain_refusing a _⟩
  | cancelReturn => cases hc; exact ⟨_, _, _, rfl, fun a _ => cancelReturn_refusing a _⟩
  | adopt => cases hc; exact ⟨_, _, _, rfl, fun a _ => adopt_refusing a _⟩
  | release => cases hc; exact ⟨_, _, _, rfl, fun a _ => release_refusing a _⟩
  | readAsRun => cases hc; exact ⟨_, _, _, rfl, fun _ _ => reply_ok_refusing _ _ _⟩
  | unknownRequest => cases hc; exact ⟨_, _, _, rfl, fun _ _ => Plant.refuse_refusing _ _⟩
  | _ => cases hc

/-- Settles O3, by the form that every handler's answer has. -/
theorem refusalChangesNothing : Obligations.RefusalChangesNothing := by
  intro c tag kind s hc ha
  rcases Classical.em (∃ t, c = .resetPart t (.sound ())) with ⟨t, rfl⟩ | reset
  · cases hc
    exact .inr (.inr rfl)
  rcases Classical.em (∃ t a, c = .passThrough t (.sound a)) with ⟨t, a, rfl⟩ | pass
  · cases hc
    rcases s.passThrough_answers tag a ha with refused | ⟨i, k, q, hi, hk, e⟩
    · exact .inl refused
    · exact .inr (.inl ⟨i, k, q, ⟨a, rfl, hi, hk⟩, e⟩)
  obtain ⟨α, body, h, e, hr⟩ := exec_request_refusing hc s (fun t e => reset ⟨t, e⟩) fun t a e => pass ⟨t, a, e⟩
  obtain ⟨q, u, b, e', hub⟩ := s.request_refusing c tag kind body h ha hr
  exact .inl ⟨q, u, b, e.trans (congrArg Host.Outcome.next e'), hub⟩

end Sys2Proof.Machine
end

