-- ==== Sys2Proof/Proofs/Turns.lean ====
section
/-! PROOFS. When a request is carried out, answered BUSY or made to wait (R180 to R182), and that every command answers a next
state and leaves the commands behind it. -/

namespace Sys2Proof.Machine

/-! ## A request that is not carried out at its arrival -/

theorem exec_late {c : Instr} {tag kind : Nat} (hc : c.request = some (tag, kind)) {s : State}
    (hn : s.ctl.takesNow tag = false) : exec c s = .next { s with ctl := ControlLine.arrive { s.ctl with rx := [] } c } := by
  rcases Classical.em (∃ t, c = .resetPart t (.sound ())) with ⟨t, rfl⟩ | reset
  · cases hc
    show Host.Outcome.next (if s.ctl.takesNow tag then _ else _) = _
    rw [hn]
    rfl
  rcases Classical.em (∃ t a, c = .passThrough t (.sound a)) with ⟨t, a, rfl⟩ | pass
  · cases hc
    exact congrArg Host.Outcome.next (s.request_late _ _ _ _ _ hn)
  obtain ⟨α, body, h, e, _⟩ := exec_request_refusing hc s (fun t e => reset ⟨t, e⟩) fun t a e => pass ⟨t, a, e⟩
  rw [e, s.request_late c tag kind body h hn]

theorem ControlLine.takesNow_zero (k : ControlLine) : k.takesNow 0 = false := rfl

theorem ControlLine.takesNow_full {k : ControlLine} (tag : Nat) (h : 4 ≤ k.requests.length + k.waiting.length) :
    k.takesNow tag = false := by
  simp [ControlLine.takesNow, ControlLine.full, h]

theorem ControlLine.takesNow_behind {k : ControlLine} (tag : Nat) (h : k.waiting ≠ [] ∨ k.occupied = true) :
    k.takesNow tag = false := by
  rcases h with h | h <;> simp [ControlLine.takesNow, ControlLine.mustWait, h]

theorem ControlLine.arrive_zero (k : ControlLine) {c : Instr} {kind : Nat} (hc : c.request = some (0, kind)) : k.arrive c = k := by
  simp [ControlLine.arrive, hc]

theorem ControlLine.answerBusy_room {k : ControlLine} (tag kind : Nat) (h : k.busy.length < 4) :
    k.answerBusy tag kind = ControlLine.kick { k with busy := k.busy ++
      [({ tag := tag, kind := replyKind kind, status := .busy, content := [], origin := .nothing } : Reply)] } := by
  simp [ControlLine.answerBusy, h]

theorem ControlLine.answerBusy_lost {k : ControlLine} (tag kind : Nat) (h : 4 ≤ k.busy.length) : k.answerBusy tag kind = k := by
  simp [ControlLine.answerBusy, Nat.not_lt.mpr h]

theorem resets_iff (c : Instr) : c.resets = true ↔ ∃ tag, c = .resetPart tag (.sound ()) := by
  constructor
  · intro h
    cases c with
    | resetPart tag body =>
      cases body with
      | faulty => cases h
      | sound u => exact ⟨tag, rfl⟩
    | _ => cases h
  · rintro ⟨tag, rfl⟩
    rfl

theorem step_idle {s : State} (hp : s.pending = []) : step s = s.idle exec := by
  unfold step
  split
  · rfl
  · next h => simp [hp] at h

/-! ## The statements -/

/-- Settles O1, by the definition of the step. -/
theorem stepRunsFrontCommand : Obligations.StepRunsFrontCommand := fun _ _ _ => rfl

/-- Settles O4: a request that the queue does not take now arrives, and the idle step runs the oldest one that waits. -/
theorem requestsTakeTheirTurn : Obligations.RequestsTakeTheirTurn := by
  refine ⟨fun c tag kind s hc ht => ⟨fun hfull => ?_, fun room behind => ?_⟩, fun c rest s t hp hw run => ?_, fun s hp hw => ?_⟩
  · have late := exec_late hc (ControlLine.takesNow_full tag hfull)
    rw [ControlLine.arrive_full { s.ctl with rx := [] } c tag kind hc (by omega) hfull] at late
    refine ⟨fun h => ?_, fun h => ?_⟩
    · rw [late, ControlLine.answerBusy_room (k := { s.ctl with rx := [] }) tag kind h]
    · rw [late, ControlLine.answerBusy_lost (k := { s.ctl with rx := [] }) tag kind h]
  · rw [exec_late hc (ControlLine.takesNow_behind tag behind), 
      ControlLine.arrive_waits { s.ctl with rx := [] } c tag kind hc (by omega) room]
  · have turn : step s = .next (if c.resets then t else { t with ctl := { t.ctl with waiting := rest, rx := s.ctl.rx } }) :=
      (step_idle hp).trans (s.idle_some exec t c rest hw run)
    refine ⟨fun other => ?_, fun tag e => ?_⟩
    · rw [turn, if_neg fun h => by obtain ⟨tag, e⟩ := (resets_iff c).mp h; exact other tag e]
    · rw [turn, if_pos ((resets_iff c).mpr ⟨tag, e⟩)]
  · exact ⟨Config.occupied s.ctl.free, (step_idle hp).trans (s.idle_none exec hw)⟩

/-- Settles O5: tag 0 makes no request, and a faulty body is judged before the handler. -/
theorem formIsJudgedFirst : Obligations.FormIsJudgedFirst := by
  refine ⟨fun _ => rfl, fun c kind s hc => ?_, fun tag kind s ha => ?_, fun c tag kind s hc ha hm => ?_⟩
  · rw [exec_late hc (ControlLine.takesNow_zero _), ControlLine.arrive_zero _ hc]
  · exact congrArg Host.Outcome.next (s.request_faulty _ _ _ _ ha)
  · simp only [List.mem_cons, List.not_mem_nil, or_false] at hm
    rcases hm with rfl | rfl | rfl | rfl | rfl | rfl | rfl | rfl | rfl | rfl | rfl | rfl | rfl | rfl | rfl | rfl | rfl | rfl |
      rfl | rfl | rfl | rfl | rfl | rfl | rfl | rfl
    all_goals
      cases hc
      exact congrArg Host.Outcome.next (s.request_faulty _ _ _ _ ha)

/-! ## Every command completes -/

theorem State.request_pending {α : Type} (s : State) (c : Instr) (tag kind : Nat) (body : Form α)
    (h : α → State → Plant × Answer) : (s.request c tag kind body h).pending = s.pending := by
  simp only [State.request, State.conclude]
  repeat' split
  all_goals simp

theorem State.resetPart_pending (s : State) (tag : Nat) : (s.resetPart tag).pending = s.pending := by simp [State.resetPart]

theorem exec_request_next {c : Instr} {tag kind : Nat} (hc : c.request = some (tag, kind)) (s : State) :
    ∃ t, exec c s = .next t ∧ t.pending = s.pending := by
  rcases Classical.em (∃ t, c = .resetPart t (.sound ())) with ⟨t, rfl⟩ | reset
  · refine ⟨_, rfl, ?_⟩
    simp only
    split
    · exact s.resetPart_pending t
    · rfl
  rcases Classical.em (∃ t a, c = .passThrough t (.sound a)) with ⟨t, a, rfl⟩ | pass
  · exact ⟨_, rfl, s.request_pending _ _ _ _ _⟩
  obtain ⟨α, body, h, e, _⟩ := exec_request_refusing hc s (fun t e => reset ⟨t, e⟩) fun t a e => pass ⟨t, a, e⟩
  exact ⟨_, e, s.request_pending _ _ _ _ _⟩

/-- Every command answers a next state, and the commands behind it stand. -/
theorem exec_next (c : Instr) (s : State) : ∃ t, exec c s = .next t ∧ t.pending = s.pending := by
  cases hc : c.request with
  | some r => exact exec_request_next hc s
  | none =>
    cases c with
    | powerOn | tagZeroFrame | controlReceiveFault | controlFrameSent => exact ⟨_, rfl, rfl⟩
    | backChannelFrameSent l => cases l <;> exact ⟨_, rfl, rfl⟩
    | framePulse | pulseWindowClose | rephaseWindowClose | crystalFrameEnd | inPhaseRunLapse | referenceLabel | dayRoll
    | switchLine | confirmExpiry | evPut | evSwap | evDrop | chWipe | batchOpen | batchClose | base | pulse | unreadableRecord
    | linkReceiveFault | linkBreakDown | askFillTimer | gapTimeout | reloadTimer | batchTimeout | heartbeatTimeout | probeRecord
    | probeReceiveFault | deviceReply | deviceReceiveFault | commandFrameSent | replyTimeout | portBreakDown | recoveryBreakEnd
    | probeTimerExpiry | unknownRecordKind => exact ⟨_, rfl, s.event_pending _⟩
    | _ => cases hc

/-- Settles O2, by the command's answer and the idle step's. -/
theorem everyCommandAnswersNext : Obligations.EveryCommandAnswersNext := by
  refine ⟨exec_next, fun s => ?_⟩
  unfold Safe step
  split
  · cases hw : s.ctl.waiting with
    | nil => exact ⟨_, s.idle_none exec hw⟩
    | cons c rest =>
      obtain ⟨t, run, _⟩ := exec_next c { s with ctl := { s.ctl with waiting := [], occupied := false } }
      exact ⟨_, s.idle_some exec t c rest hw run⟩
  · obtain ⟨t, run, _⟩ := exec_next _ _
    exact ⟨t, run⟩

end Sys2Proof.Machine
end

