-- ==== Sys2Proof/Proofs/OuterBlocks.lean ====
section
/-! PROOFS. The part after power-on, the notice queue, the back channel, and the control line's own events (R69, R179, R185 to
R188). -/

namespace Sys2Proof.Machine

/-! ## The part after power-on -/

theorem Plant.reset_port (i : PortNo) : Plant.reset.port i = Port.reset := by simp [Plant.port, Plant.reset]

theorem Plant.reset_ref (r : RefId) : Plant.reset.ref r = Reference.reset := by cases r <;> rfl

theorem Plant.reset_link (l : LinkId) : Plant.reset.link l = Link.reset := by cases l <;> rfl

theorem Plant.reset_templates (t : Nat) (h : t < 32) : Plant.reset.templates[t] = [] := by simp [Plant.reset]

theorem State.reset_sound : State.reset.Sound where
  ctl := ⟨by decide, nofun, by decide, by decide, .nil, fun _ => ⟨rfl, rfl, rfl⟩, rfl⟩
  log := ⟨by decide, by decide, nofun⟩
  back0 := ⟨.nil, fun _ => rfl⟩
  back1 := ⟨.nil, fun _ => rfl⟩
  outbox := rfl

/-- Settles O10, by the starting value of each block. -/
theorem powerOnStartsEveryBlock : Obligations.PowerOnStartsEveryBlock := by
  have reset : State.reset.plant = Plant.reset := rfl
  have empty : ∀ c, (Plant.reset.chan c).playlist = [] := fun c => congrArg Channel.playlist (Plant.reset_chan c)
  refine ⟨⟨State.reset_sound, Plant.pool_of_empty empty, Plant.hold_of_empty rfl, fun t h => ?_⟩,
    fun s => ⟨_, rfl, rfl, rfl, rfl, rfl, rfl, rfl⟩, fun r => ?_, fun l => ?_, ?_, fun i => ?_, fun c => ?_, fun t h => ?_, ?_, rfl, rfl⟩
  · exact (congrArg List.length (Plant.reset_templates t h)).trans_le (Nat.zero_le 8)
  · simp only [reset, Plant.reset_ref]
    decide
  · simp only [reset, Plant.reset_link]
    decide
  · refine ⟨rfl, rfl, rfl, rfl, rfl, rfl, rfl, ?_⟩
    simp [reset, Plant.freeRecords, empty]
  · simp only [reset, Plant.reset_port]
    decide
  · simp only [reset, Plant.reset_chan]
    decide
  · exact Plant.reset_templates t h
  · refine ⟨rfl, rfl, rfl, rfl, rfl, rfl, rfl, rfl, fun i => ?_, fun c => ?_⟩
    all_goals simp [State.reset, ControlLine.reset]

/-! ## The notice queue -/

/-- R185: where a new notice stands in a queue ordered by class. -/
theorem insertNotice_split (n : Notice) (l : List Notice) (h : l.Pairwise fun a b => a.kind.cls ≤ b.kind.cls) :
    ∃ ahead behind, l = ahead ++ behind ∧ insertNotice n l = ahead ++ n :: behind ∧
      (∀ m ∈ ahead, m.kind.cls ≤ n.kind.cls) ∧ ∀ m ∈ behind, n.kind.cls < m.kind.cls := by
  induction l with
  | nil => exact ⟨[], [], rfl, rfl, nofun, nofun⟩
  | cons y l ih =>
    obtain ⟨hy, hl⟩ := List.pairwise_cons.mp h
    by_cases hb : n.kind.cls < y.kind.cls
    · refine ⟨[], y :: l, rfl, ?_, nofun, fun m hm => ?_⟩
      · simp [insertNotice, insertBy, hb]
      · rcases List.mem_cons.mp hm with rfl | hm
        · exact hb
        · exact hb.trans_le (hy m hm)
    · obtain ⟨ahead, behind, e, ei, h1, h2⟩ := ih hl
      refine ⟨y :: ahead, behind, by rw [e]; rfl, ?_, fun m hm => ?_, h2⟩
      · simp only [insertNotice, insertBy, hb, decide_false, Bool.false_eq_true, if_false] at ei ⊢
        rw [ei]
        rfl
      · rcases List.mem_cons.mp hm with rfl | hm
        · exact Nat.not_lt.mp hb
        · exact h1 m hm

/-- The last notice of a queue ordered by class is of the lowest class in it. -/
theorem cls_le_last {l : List Notice} {last : Notice} (h : l.Pairwise fun a b => a.kind.cls ≤ b.kind.cls)
    (hl : l.getLast? = some last) : ∀ m ∈ l, m.kind.cls ≤ last.kind.cls := by
  obtain ⟨init, rfl⟩ := List.getLast?_eq_some_iff.mp hl
  intro m hm
  rcases List.mem_append.mp hm with hm | hm
  · exact (List.pairwise_append.mp h).2.2 m hm last (List.mem_singleton.mpr rfl)
  · rw [List.mem_singleton.mp hm]

theorem ControlLine.enqueue_room {k : ControlLine} (n : Notice) (h : k.notices.length < 32) :
    k.enqueue n = { k with notices := insertNotice n k.notices } := by
  simp [ControlLine.enqueue, h]

/-- R186: what a full queue does with a new notice: it loses the new one, or its last. -/
theorem ControlLine.enqueue_full {k : ControlLine} (n : Notice) {last : Notice} (h : k.notices.length = 32)
    (hl : k.notices.getLast? = some last) :
    k.enqueue n = if last.kind.cls ≤ n.kind.cls then k.lose n
      else { k.lose last with notices := insertNotice n k.notices.dropLast } := by
  simp [ControlLine.enqueue, h, hl]

theorem ControlLine.lose_some (k : ControlLine) {n : Notice} {c : Chan} (h : n.channel = some c) :
    k.lose n = { k with missed := k.missed.set c.val true } := by
  simp [ControlLine.lose, h]

theorem ControlLine.lose_none (k : ControlLine) {n : Notice} (h : n.channel = none) : k.lose n = { k with missedPart := true } := by
  simp [ControlLine.lose, h]

/-- Settles O13, by where a notice is inserted and what a full queue loses. -/
theorem noticeJoinsByClass : Obligations.NoticeJoinsByClass := by
  intro k n order
  refine ⟨fun room => ?_, fun last full hl => ?_⟩
  · obtain ⟨ahead, behind, e, ei, h1, h2⟩ := insertNotice_split n k.notices order
    rw [ControlLine.enqueue_room n room]
    exact ⟨ahead, behind, e, ei, h1, h2, rfl, rfl⟩
  · refine ⟨cls_le_last order hl, ?_⟩
    rw [ControlLine.enqueue_full n full hl]
    by_cases hc : last.kind.cls ≤ n.kind.cls
    · simp only [if_pos hc]
      refine ⟨by rw [ControlLine.lose_notices, full], fun _ => k.lose_notices n, fun h => absurd hc (Nat.not_le.mpr h), ?_⟩
      rintro _ rfl
      exact ⟨fun c h => by rw [k.lose_some h]; exact ⟨rfl, rfl⟩, fun h => by rw [k.lose_none h]; exact ⟨rfl, rfl⟩⟩
    · simp only [if_neg hc]
      refine ⟨?_, fun h => absurd h hc, fun _ => trivial, ?_⟩
      · simp [insertNotice, full]
      rintro _ rfl
      exact ⟨fun c h => by rw [k.lose_some h]; exact ⟨rfl, rfl⟩, fun h => by rw [k.lose_none h]; exact ⟨rfl, rfl⟩⟩

/-! ## The back channel -/

theorem BackRec.sameKind_trans {x r k : BackRec} (hx : r.sameKind x = true) (hk : r.sameKind k = true) :
    x.sameKind k = true := by
  cases r <;> cases x <;> simp only [BackRec.sameKind, beq_iff_eq, Bool.false_eq_true] at hx
  all_goals
    subst hx
    cases k <;> exact hk

/-- R69: a record takes the place of the waiting record of its kind and channel. -/
theorem putRecord_replaces {r k : BackRec} {ahead behind : List BackRec}
    (h : (ahead ++ k :: behind).Pairwise fun x y => x.sameKind y = false) (hk : r.sameKind k = true) :
    putRecord r (ahead ++ k :: behind) = ahead ++ r :: behind := by
  obtain ⟨_, hb, hab⟩ := List.pairwise_append.mp h
  obtain ⟨hkb, _⟩ := List.pairwise_cons.mp hb
  have same : ∀ {x : BackRec}, x.sameKind k = false → r.sameKind x = false := fun {x} hx => by
    cases hr : r.sameKind x with
    | false => rfl
    | true => exact absurd (BackRec.sameKind_trans hr hk) (by simp [hx])
  have leaves : ∀ l : List BackRec, (∀ x ∈ l, r.sameKind x = false) → l.map (fun x => if r.sameKind x then r else x) = l := by
    intro l hl
    exact (List.map_congr_left fun x hx => by simp [hl x hx]).trans (List.map_id l)
  have found : (ahead ++ k :: behind).any r.sameKind = true := by simp [hk]
  rw [putRecord, if_pos found, List.map_append, List.map_cons, if_pos hk,
    leaves ahead fun x hx => same (hab x hx k (.head _)),
    leaves behind fun x hx => same (by rw [BackRec.sameKind_comm]; exact hkb x hx)]

theorem putRecord_tail {r : BackRec} {l : List BackRec} (h : ∀ k ∈ l, r.sameKind k = false) : putRecord r l = l ++ [r] := by
  have none : ¬l.any r.sameKind = true := by simpa using h
  rw [putRecord, if_neg none]

theorem BackLink.sent_cons {b : BackLink} {r : BackRec} {rest : List BackRec} (h : b.queue = r :: rest) :
    b.sent = ⟨rest, some (r, r.frame)⟩ := by
  simp [BackLink.sent, BackLink.kick, h]

theorem BackLink.sent_nil {b : BackLink} (h : b.queue = []) : b.sent = ⟨[], none⟩ := by
  simp [BackLink.sent, BackLink.kick, h]

theorem BackLink.put_sending {b : BackLink} (r : BackRec) {x : BackRec × List Byte} (h : b.sending = some x) :
    b.put r = { b with queue := putRecord r b.queue } := by
  simp [BackLink.put, BackLink.kick, h]

/-- Settles O16, by what a link does with a record and at the end of a frame. -/
theorem backChannelSendsInOrder : Obligations.BackChannelSendsInOrder := by
  refine ⟨fun r l single => ⟨?_, putRecord_tail⟩, fun b r x => BackLink.put_sending r, fun l s => ?_⟩
  · rintro ahead k behind rfl hk
    exact putRecord_replaces single hk
  · cases l with
    | l0 =>
      exact ⟨_, rfl, rfl, rfl, rfl, rfl, fun _ => ⟨rfl, fun _ _ => BackLink.sent_cons, BackLink.sent_nil⟩, nofun⟩
    | l1 =>
      exact ⟨_, rfl, rfl, rfl, rfl, rfl, nofun, fun _ => ⟨rfl, fun _ _ => BackLink.sent_cons, BackLink.sent_nil⟩⟩

end Sys2Proof.Machine
end

