-- ==== Sys2Proof/Proofs/ControlLine.lean ====
section
/-! PROOFS. The hunt for frames in what was received behind a discarded frame's SYNC (R179), and the end of a frame sent
(R182, R184, R188). -/

namespace Sys2Proof.Machine

/-! ## The hunt -/

/-- The bytes examined bound the fuel that the hunt needs. -/
theorem scanControl_fuel (n m : Nat) (b : List Byte) (hn : b.length ≤ n) (hm : b.length ≤ m) :
    scanControl n b = scanControl m b := by
  induction n generalizing m b with
  | zero =>
    obtain rfl := List.length_eq_zero_iff.mp (Nat.le_zero.mp hn)
    cases m <;> rfl
  | succ n ih =>
    match b, m with
    | [], 0 => rfl
    | [], m + 1 => rfl
    | _ :: _, 0 => exact absurd hm (by simp)
    | s :: rest, m + 1 =>
      simp only [List.length_cons, Nat.add_le_add_iff_right] at hn hm
      have next := ih m rest hn hm
      match rest with
      | [] | [_] | [_, _] | [_, _, _] => simp only [scanControl, next]
      | h :: l :: tag :: kind :: tail =>
        simp only [List.length_cons] at hn hm
        have behind : ∀ k, scanControl n (tail.drop k) = scanControl m (tail.drop k) := fun k =>
          ih m _ (by rw [List.length_drop]; omega) (by rw [List.length_drop]; omega)
        simp only [scanControl, next, behind]

/-- The hunt through the whole of what is held. -/
def scanHeld (b : List Byte) : List Instr × List Byte := scanControl b.length b

theorem scanHeld_not_sync {b : Byte} (h : b ≠ 0xA5) (rest : List Byte) : scanHeld (b :: rest) = scanHeld rest := by
  have other : b ≠ 165#8 := h
  simp [scanHeld, scanControl, other]

theorem scanHeld_too_long {h l : Byte} (more : List Byte) (hl : 1024 < h.toNat * 256 + l.toNat) :
    scanHeld (0xA5 :: h :: l :: more) = scanHeld (h :: l :: more) := by
  simp [scanHeld, scanControl, hl]

/-- A frame that is whole is judged by its CRC. -/
theorem scanHeld_whole (h l tag kind x y : Byte) (body more : List Byte) (hl : body.length = h.toNat * 256 + l.toNat)
    (hs : body.length ≤ 1024) :
    scanHeld (0xA5 :: h :: l :: tag :: kind :: (body ++ x :: y :: more)) =
      if u16 (crc16 (h :: l :: tag :: kind :: body)).toNat = [x, y] then
        (requestOf tag.toNat kind.toNat body :: (scanHeld more).1, (scanHeld more).2)
      else scanHeld (h :: l :: tag :: kind :: (body ++ x :: y :: more)) := by
  have fits : ¬1024 < h.toNat * 256 + l.toNat := by omega
  have whole : ¬(body ++ x :: y :: more).length < h.toNat * 256 + l.toNat + 2 := by simp; omega
  have drop : (body ++ x :: y :: more).drop (h.toNat * 256 + l.toNat) = x :: y :: more := by
    rw [← hl, List.drop_left]
  have behind : (body ++ x :: y :: more).drop (h.toNat * 256 + l.toNat + 2) = more := by
    rw [← List.drop_drop, drop]
    rfl
  have take : (body ++ x :: y :: more).take (h.toNat * 256 + l.toNat) = body := by
    rw [← hl, List.take_left]
  have fuel : scanControl (h :: l :: tag :: kind :: (body ++ x :: y :: more)).length more = scanHeld more :=
    scanControl_fuel _ _ _ (by simp; omega) (Nat.le_refl _)
  rw [scanHeld, List.length_cons, scanControl]
  simp only [ne_eq, not_true_eq_false, if_false, gt_iff_lt, if_neg fits, if_neg whole, drop, take, behind, fuel]
  rfl

/-- A frame not yet whole is being gathered. -/
theorem scanHeld_gathered {rest : List Byte}
    (h : rest.length < 2 ∨
      ∃ h l more, rest = h :: l :: more ∧ h.toNat * 256 + l.toNat ≤ 1024 ∧ more.length < h.toNat * 256 + l.toNat + 4) :
    scanHeld (0xA5 :: rest) = ([], 0xA5 :: rest) := by
  rcases h with h | ⟨h, l, more, rfl, hl, hm⟩
  · match rest, h with
    | [], _ | [_], _ => rfl
  · have fits : ¬1024 < h.toNat * 256 + l.toNat := by omega
    match more with
    | [] | [_] => simp [scanHeld, scanControl, fits]
    | tag :: kind :: tail =>
      have short : tail.length < h.toNat * 256 + l.toNat + 2 := by
        simp only [List.length_cons] at hm
        omega
      simp [scanHeld, scanControl, fits, short]

theorem length_byte_pair {n : Nat} (h : n ≤ 1024) : (BitVec.ofNat 8 (n / 256)).toNat * 256 + (BitVec.ofNat 8 n).toNat = n := by
  simp only [BitVec.toNat_ofNat]
  omega

/-- A good frame is found, and the hunt goes on behind it. -/
theorem scanHeld_frame {tag kind : Nat} {body : List Byte} (ht : tag < 256) (hk : kind < 256) (hb : body.length ≤ 1024)
    (rest : List Byte) :
    scanHeld (controlFrame tag kind body ++ rest) = (requestOf tag kind body :: (scanHeld rest).1, (scanHeld rest).2) := by
  have found := (scanHeld_whole (BitVec.ofNat 8 (body.length / 256)) (BitVec.ofNat 8 body.length) (BitVec.ofNat 8 tag)
    (BitVec.ofNat 8 kind)
    (BitVec.ofNat 8 ((crc16 (u16 body.length ++ u8 tag ++ u8 kind ++ body)).toNat / 256))
    (BitVec.ofNat 8 (crc16 (u16 body.length ++ u8 tag ++ u8 kind ++ body)).toNat) body rest
    (length_byte_pair hb).symm hb).trans (if_pos rfl)
  simp only [BitVec.toNat_ofNat, Nat.mod_eq_of_lt ht, Nat.mod_eq_of_lt hk] at found
  rw [← found]
  simp [controlFrame, u8, u16]

/-- R180: the request that a good frame spells bears the frame's tag and kind. -/
theorem requestOf_request {tag : Nat} (kind : Nat) (body : List Byte) (h : tag ≠ 0) :
    (requestOf tag kind body).request = some (tag, kind) := by
  have edit : (editOf tag body).request = some (tag, 0x04) := by
    unfold editOf
    repeat' split
    all_goals rfl
  unfold requestOf
  rw [if_neg h]
  split
  case h_4 => exact edit
  all_goals rfl

theorem exec_controlReceiveFault (f : ControlFault) (held : List Byte) (s : State) :
    exec (.controlReceiveFault f held) s =
      .next { s with ctl := { (scanHeld held).1.foldl ControlLine.arrive s.ctl with rx := (scanHeld held).2 } } := rfl

/-! ## A frame sent -/

/-- R182, R184: what a frame that has left answered is no longer pending. -/
def ControlLine.freed (k : ControlLine) (o : Origin) : ControlLine :=
  match o with
  | .queued => { k with requests := k.requests.drop 1 }
  | .pass i => { k with passTable := k.passTable.set i.val none }
  | .nothing => k

theorem ControlLine.frameSent_eq {k : ControlLine} {x : Sending} (h : k.tx = some x) :
    k.frameSent = (ControlLine.freed { k with tx := none } x.item.origin).choose := by
  have free : ∀ j : ControlLine, j.tx = none → j.kick = j.choose := fun j hj => by simp [ControlLine.kick, hj]
  have idle : ∀ o, (ControlLine.freed { k with tx := none } o).tx = none := fun o => by cases o <;> rfl
  rw [← free _ (idle _)]
  obtain ⟨item, bytes⟩ := x
  simp only [ControlLine.frameSent, h]
  cases item with
  | notice n => rfl
  | reply r => cases hr : r.origin <;> simp [ControlLine.freed, TxItem.origin, hr]

theorem ControlLine.choose_busy {k : ControlLine} {r : Reply} {rest : List Reply} (h : k.busy = r :: rest) :
    k.choose = { k with busy := rest }.begin (.reply r) := by simp [ControlLine.choose, h]

theorem ControlLine.choose_reply {k : ControlLine} {r : Reply} {rest : List Reply} (hb : k.busy = []) (h : k.replies = r :: rest) :
    k.choose = { k with replies := rest }.begin (.reply r) := by simp [ControlLine.choose, hb, h]

theorem ControlLine.choose_notice {k : ControlLine} {n : Notice} {rest : List Notice} (hb : k.busy = []) (hr : k.replies = [])
    (h : k.notices = n :: rest) : k.choose = { k with notices := rest }.begin (.notice n) := by
  simp [ControlLine.choose, hb, hr, h]

theorem ControlLine.choose_none {k : ControlLine} (hb : k.busy = []) (hr : k.replies = []) (h : k.notices = []) :
    k.choose = k := by simp [ControlLine.choose, hb, hr, h]

/-- What choosing the next frame leaves alone. -/
theorem ControlLine.choose_keeps (k : ControlLine) : k.choose.rx = k.rx ∧ k.choose.waiting = k.waiting ∧
    k.choose.occupied = k.occupied ∧ k.choose.missed = k.missed ∧ k.choose.missedPart = k.missedPart ∧
    k.choose.requests = k.requests ∧ k.choose.passTable = k.passTable := by
  rcases k.choose_cases with ⟨_, _, _, e⟩ | ⟨_, _, _, _, e⟩ | ⟨_, _, _, _, _, e⟩ | ⟨_, _, _, e⟩ <;> rw [e] <;>
    exact ⟨rfl, rfl, rfl, rfl, rfl, rfl, rfl⟩

/-- What a frame that has left leaves alone. -/
theorem ControlLine.freed_keeps (k : ControlLine) (o : Origin) : (k.freed o).rx = k.rx ∧ (k.freed o).waiting = k.waiting ∧
    (k.freed o).occupied = k.occupied ∧ (k.freed o).missed = k.missed ∧ (k.freed o).missedPart = k.missedPart ∧
    (k.freed o).busy = k.busy ∧ (k.freed o).replies = k.replies ∧ (k.freed o).notices = k.notices ∧ (k.freed o).tx = k.tx := by
  cases o <;> exact ⟨rfl, rfl, rfl, rfl, rfl, rfl, rfl, rfl, rfl⟩

theorem ControlLine.freed_requests (k : ControlLine) (o : Origin) :
    (k.freed o).requests = if o = .queued then k.requests.tail else k.requests := by
  cases o <;> simp [ControlLine.freed]

theorem ControlLine.freed_passTable (k : ControlLine) (o : Origin) (i : PortNo) :
    (k.freed o).passTable[i.val] = if o = .pass i then none else k.passTable[i.val] := by
  cases o with
  | pass j => simp [ControlLine.freed, Vector.getElem_set, Fin.ext_iff]
  | _ => simp [ControlLine.freed]

/-- Settles O12, by what the hunt finds and what leaves the line next. -/
theorem controlLineEvents : Obligations.ControlLineEvents := by
  refine ⟨fun _ _ => rfl, fun f b rest s h => ?_, fun f rest s h => ?_, fun f tag kind body rest s k ht hk hb hcases => ?_,
    fun s h => ?_, fun x s h => ?_⟩
  · suffices scanHeld (b :: rest) = scanHeld rest by rw [exec_controlReceiveFault, exec_controlReceiveFault, this]
    by_cases hb : b = 0xA5
    · subst hb
      rcases h with h | ⟨h, l, more, rfl, hl⟩ | ⟨h, l, tag, kind, body, x, y, more, rfl, hl, hs, hc⟩
      · exact absurd rfl h
      · exact scanHeld_too_long more hl
      · rw [scanHeld_whole h l tag kind x y body more hl hs, if_neg hc]
    · exact scanHeld_not_sync hb rest
  · rw [exec_controlReceiveFault, scanHeld_gathered h]
    rfl
  · rw [exec_controlReceiveFault, exec_controlReceiveFault, scanHeld_frame ht hk hb, List.foldl_cons]
    suffices s.ctl.arrive (requestOf tag kind body) = k by rw [this]
    rcases hcases with ⟨rfl, rfl⟩ | ⟨h1, room, rfl⟩ | ⟨h1, full, room, rfl⟩ | ⟨h1, full, lost, rfl⟩
    · rfl
    · exact ControlLine.arrive_waits _ _ tag kind (requestOf_request kind body (by omega)) (by omega) room
    all_goals
      rw [ControlLine.arrive_full _ _ tag kind (requestOf_request kind body (by omega)) (by omega) full]
    · exact ControlLine.answerBusy_room tag kind room
    · exact ControlLine.answerBusy_lost tag kind lost
  · show Host.Outcome.next { s with ctl := s.ctl.frameSent } = _
    rw [ControlLine.frameSent, h]
  · refine ⟨_, rfl, rfl, rfl, rfl, rfl, rfl, ?_⟩
    obtain ⟨j, hj⟩ : ∃ j, j = ControlLine.freed { s.ctl with tx := none } x.item.origin := ⟨_, rfl⟩
    obtain ⟨crx, cwait, cocc, cmiss, cpart, creq, cpass⟩ := j.choose_keeps
    obtain ⟨frx, fwait, focc, fmiss, fpart, fbusy, freplies, fnotices, ftx⟩ :=
      hj ▸ ControlLine.freed_keeps { s.ctl with tx := none } x.item.origin
    have freq := hj ▸ ControlLine.freed_requests { s.ctl with tx := none } x.item.origin
    have fpass := fun i => (congrArg (·.passTable[i.val]) hj).trans
      (ControlLine.freed_passTable { s.ctl with tx := none } x.item.origin i)
    simp only [ControlLine.frameSent_eq h, ← hj]
    refine ⟨crx.trans frx, cwait.trans fwait, cocc.trans focc, cmiss.trans fmiss, cpart.trans fpart, creq.trans freq,
      fun i => (congrArg (·[i.val]) cpass).trans (fpass i), fun r rest hr => ?_, fun r rest hb hr => ?_, fun n rest hb hr hn => ?_,
      fun hb hr hn => ?_⟩
    · rw [ControlLine.choose_busy (fbusy.trans hr)]
      exact ⟨rfl, rfl, freplies, fnotices⟩
    · rw [ControlLine.choose_reply (fbusy.trans hb) (freplies.trans hr)]
      exact ⟨rfl, fbusy.trans hb, rfl, fnotices⟩
    · rw [ControlLine.choose_notice (fbusy.trans hb) (freplies.trans hr) (fnotices.trans hn)]
      exact ⟨rfl, fbusy.trans hb, freplies.trans hr, rfl⟩
    · rw [ControlLine.choose_none (fbusy.trans hb) (freplies.trans hr) (fnotices.trans hn)]
      exact ⟨ftx, fbusy.trans hb, freplies.trans hr, fnotices.trans hn⟩

end Sys2Proof.Machine
end

