-- ==== Sys2Proof/Proofs/ResetPart.lean ====
section
/-! PROOFS. RESET PART (R174, R189, R190): what comes up afresh, what the channels that come up ORPHANED keep, and the ASK RELOADs on
the two links. -/

namespace Sys2Proof.Machine

/-! ## The ASK RELOADs of the orphans -/

theorem putRecord_askReload {c : Chan} {l : List Chan} (h : c ∉ l) :
    putRecord (.askReload c) (l.map BackRec.askReload) = (l ++ [c]).map BackRec.askReload := by
  rw [putRecord_tail, List.map_append, List.map_singleton]
  simp only [List.mem_map, forall_exists_index, and_imp, forall_apply_eq_imp_iff₂, BackRec.sameKind, beq_eq_false_iff_ne]
  exact fun d hd e => h (e ▸ hd)

/-- Behind a frame being sent the records wait in the order made. -/
theorem BackLink.foldl_put_sending (x : BackRec × List Byte) (l waiting : List Chan) (h : (waiting ++ l).Nodup) :
    l.foldl (fun (b : BackLink) c => b.put (.askReload c)) ⟨waiting.map BackRec.askReload, some x⟩ =
      ⟨(waiting ++ l).map BackRec.askReload, some x⟩ := by
  induction l generalizing waiting with
  | nil => simp
  | cons c l ih =>
    have fresh : c ∉ waiting := fun hc => (List.nodup_append.mp h).2.2 c hc c (.head _) rfl
    rw [List.foldl_cons, BackLink.put_sending (b := ⟨waiting.map BackRec.askReload, some x⟩) (x := x) _ rfl]
    simp only [putRecord_askReload fresh]
    rw [ih (waiting ++ [c]) (by rwa [List.append_assoc]), List.append_assoc]
    rfl

/-- On an idle link the first record begins at once. -/
theorem BackLink.foldl_put_idle (c : Chan) (l : List Chan) (h : (c :: l).Nodup) :
    (c :: l).foldl (fun (b : BackLink) c => b.put (.askReload c)) BackLink.reset =
      ⟨l.map BackRec.askReload, some (.askReload c, (BackRec.askReload c).frame)⟩ :=
  BackLink.foldl_put_sending _ l [] (List.nodup_cons.mp h).2

theorem State.foldl_deliver_back (b : Bool) (l : List Chan) (s : State) :
    (l.map fun c => Outgoing.back (.askReload c)).foldl (State.deliver b) s =
      { s with back0 := l.foldl (fun k c => k.put (.askReload c)) s.back0,
               back1 := l.foldl (fun k c => k.put (.askReload c)) s.back1 } := by
  induction l generalizing s with
  | nil => rfl
  | cons c l ih => rw [List.map_cons, List.foldl_cons, ih]; rfl

/-- With the line already sending, handing out back-channel records moves nothing but the links. -/
theorem State.settle_back {s : State} {l : List Chan} {x : Sending} (h : s.plant.outbox = l.map fun c => .back (.askReload c))
    (hx : s.ctl.tx = some x) :
    s.settle none = { s with
      plant := { s.plant with outbox := [] }, back0 := l.foldl (fun k c => k.put (.askReload c)) s.back0,
      back1 := l.foldl (fun k c => k.put (.askReload c)) s.back1 } := by
  simp only [State.settle, h, hx, Option.isNone_some, Bool.false_and, State.foldl_deliver_back, Bool.false_eq_true, if_false,
    Nat.add_zero]
  have sending : ∀ k : ControlLine, k.tx = some x → k.kick = k := fun k hk => by simp [ControlLine.kick, hk]
  rw [sending _ rfl, ← hx]

theorem allChans_nodup : allChans.Nodup := List.nodup_finRange 16

theorem mem_allChans (c : Chan) : c ∈ allChans := List.mem_finRange c

/-! ## What comes up -/

/-- The state that RESET PART leaves. -/
def State.afterReset (s : State) (tag : Nat) : State :=
  let r : Reply := { tag := tag, kind := 0x98, status := .ok, content := s.plant.orphanBytes, origin := .nothing }
  let link := s.plant.orphanList.foldl (fun k c => k.put (.askReload c)) BackLink.reset
  { State.reset with
    plant := { s.plant.afterReset with outbox := [] }, ctl := { ControlLine.reset with free := s.ctl.free }.begin (.reply r),
    back0 := link, back1 := link, pending := s.pending }

theorem State.resetPart_eq (s : State) (tag : Nat) : s.resetPart tag = s.afterReset tag :=
  State.settle_back (l := s.plant.orphanList) rfl rfl

theorem exec_resetPart {s : State} {tag : Nat} (ha : s.Admits tag) :
    exec (.resetPart tag (.sound ())) s = .next (s.afterReset tag) := by
  rw [← State.resetPart_eq]
  show Host.Outcome.next (if s.ctl.takesNow tag then _ else _) = _
  rw [if_pos ha.takesNow]

theorem Channel.orphans_iff (x : Channel) : x.orphans = true ↔ x.switch ≠ .main := by simp [Channel.orphans]

theorem Channel.afterReset_main {x : Channel} (h : x.switch = .main) : x.afterReset = Channel.reset := by
  simp [Channel.afterReset, Channel.orphans, h]

theorem Channel.afterReset_orphan {x : Channel} (h : x.switch ≠ .main) : x.afterReset = { Channel.reset with
      now := x.now, baseDay := x.baseDay, config := x.config, mode := .orphaned, switch := x.switch,
      portInUse := x.config.map (·.primary), replica := { Replica.reset with reloadTimer := some 0 },
      lineInForce := x.lineInForce } := if_pos (x.orphans_iff.mpr h)

theorem Plant.mem_orphanList (p : Plant) (c : Chan) : c ∈ p.orphanList ↔ (p.chan c).switch ≠ .main := by
  simp [Plant.orphanList, mem_allChans, Channel.orphans_iff]

theorem Plant.refAfterReset_kept {p : Plant} {r : RefId} {c : Chan} {g : ChannelConfig} (hc : (p.chan c).switch ≠ .main)
    (hg : p.config c = some g) (hr : g.reference = r) : p.refAfterReset r = p.ref r :=
  if_pos (List.any_eq_true.mpr ⟨c, (p.mem_orphanList c).mpr hc, by simp [hg, hr]⟩)

theorem Plant.refAfterReset_fresh {p : Plant} {r : RefId}
    (h : ∀ c g, (p.chan c).switch ≠ .main → p.config c = some g → g.reference ≠ r) : p.refAfterReset r = Reference.reset := by
  refine if_neg fun found => ?_
  obtain ⟨c, hc, hg⟩ := List.any_eq_true.mp found
  cases hcfg : p.config c with
  | none => simp [hcfg] at hg
  | some g => exact h c g ((p.mem_orphanList c).mp hc) hcfg (by simpa [hcfg] using hg)

theorem Plant.afterReset_ref (p : Plant) (r : RefId) : p.afterReset.ref r = p.refAfterReset r := by cases r <;> rfl

/-- Settles O11, from the state that RESET PART leaves. -/
theorem resetPartKeepsSwitches : Obligations.ResetPartKeepsSwitches := by
  intro tag s ha
  have chan : ∀ c, (s.afterReset tag).plant.chan c = (s.plant.chan c).afterReset := s.plant.afterReset_chan
  refine ⟨s.afterReset tag, exec_resetPart ha, rfl, fun c => ?_, fun c hc => ?_, fun c hc => ?_, fun r => ⟨?_, fun h => ?_⟩,
    fun i => ?_, fun k h => ?_, fun l => ?_, rfl, rfl, rfl, rfl, rfl, rfl, rfl, rfl, ?_, rfl, rfl, rfl, rfl, rfl, rfl, fun i => ?_,
    fun c => ?_, rfl, rfl⟩
  · rw [chan]
    by_cases hc : (s.plant.chan c).switch = .main
    · rw [Channel.afterReset_main hc, hc]
      rfl
    · rw [Channel.afterReset_orphan hc]
  · rw [chan, Channel.afterReset_main hc]
  · rw [chan, Channel.afterReset_orphan hc]
    exact ⟨rfl, rfl, rfl, rfl, rfl, rfl, rfl, rfl, rfl, rfl, rfl, rfl, rfl, rfl, rfl, rfl⟩
  · rintro ⟨c, g, hc, hg, hr⟩
    exact (s.plant.afterReset_ref r).trans (Plant.refAfterReset_kept hc hg hr)
  · exact (s.plant.afterReset_ref r).trans (Plant.refAfterReset_fresh h)
  · exact Plant.reset_port i
  · exact Plant.reset_templates k h
  · exact Plant.reset_link l
  · rintro _ rfl
    refine ⟨fun none => ?_, fun c rest some => ?_⟩
    · show List.foldl _ _ s.plant.orphanList = _
      rw [show s.plant.orphanList = [] from none]
      rfl
    · have list : s.plant.orphanList = c :: rest := some
      show List.foldl _ _ s.plant.orphanList = _
      rw [list]
      exact BackLink.foldl_put_idle c rest (list ▸ allChans_nodup.filter _)
  · simp [State.afterReset, ControlLine.reset]
  · simp [State.afterReset, ControlLine.reset]

end Sys2Proof.Machine
end

