-- ==== Sys2Proof/Proofs/Settings.lean ====
section
/-! PROOFS. The reads and what they clear (R43, R91, R158, R168), SET REFERENCE (R2), SET LINKS and the links' events (R45 to
R48). -/

namespace Sys2Proof.Machine

/-! ## A handler's answer -/

/-- An admitted request whose handler answers so. -/
theorem State.request_answers {α : Type} {s : State} (c : Instr) {tag : Nat} (kind : Nat) {a : α} {h : α → Plant → Plant × Answer}
    {q : Plant} {u : Status} {b : List Byte} (ha : s.Admits tag) (e : h a s.plant = (q, reply u b)) :
    Host.Outcome.next (s.request c tag kind (.sound a) (onPlant h)) =
      (.next (s.answered tag kind q u b) : Host.Outcome State Fault Refusal) := by
  rw [s.request_onPlant c tag kind a h ha (by rw [e]; rfl), e]
  rfl

theorem chanOf_val (c : Chan) : chanOf c.val = some c := by simp [chanOf]

theorem chanOf_none {n : Nat} (h : 15 < n) : chanOf n = none := by
  simp [chanOf]
  omega

theorem portOf_val (i : PortNo) : portOf i.val = some i := by simp [portOf]

theorem portOf_none {n : Nat} (h : 19 < n) : portOf n = none := by
  simp [portOf]
  omega

/-! ## The reads -/

theorem readPlaylist_listed {a : ReadPlaylistArgs} {c : Chan} {l : List Event} {p : Plant} (hc : chanOf a.channel = some c)
    (hl : playlistFrom (p.chan c).playlist a.start = some l) :
    readPlaylist a p = (p, reply .ok (u16 (p.chan c).playlist.length ++ u16 p.freeRecords ++ p.ctfBytes c (p.chan c).now ++
      items (p.listedBytes c) (l.take 8) ++ flag (decide (8 < l.length)))) := by
  simp [readPlaylist, hc, hl]

theorem playlistFrom_start {l m : List Event} {start : Nat}
    (h : start = 0 ∧ m = l ∨ start ≠ 0 ∧ (∃ e ∈ l, e.id = start) ∧ m = eventsAfter l start) : playlistFrom l start = some m := by
  rcases h with ⟨rfl, rfl⟩ | ⟨h0, ⟨e, he, hid⟩, rfl⟩
  · rfl
  · have found : l.any (·.id == start) = true := List.any_eq_true.mpr ⟨e, he, by simp [hid]⟩
    rw [playlistFrom, if_neg h0, if_pos found]

theorem playlistFrom_none {l : List Event} {start : Nat} (h0 : start ≠ 0) (h : ∀ e ∈ l, e.id ≠ start) :
    playlistFrom l start = none := by
  have absent : ¬l.any (·.id == start) = true := by simpa using h
  rw [playlistFrom, if_neg h0, if_neg absent]

/-- R81, R91: the change flags read are cleared. -/
def Channel.clearChange (x : Channel) : Channel := { x with watch := { x.watch with change := .empty } }

theorem readWatch_known {n : Nat} {c : Chan} (p : Plant) (hc : chanOf n = some c) :
    readWatch n p = ({ p.modChan c Channel.clearChange with
      probeFlags := .clear, free := p.free + 1 }, reply .ok (p.watchBytes c)) := by
  simp only [readWatch, hc]
  rfl

/-- With nothing else handed out, READ CHANNEL's two clears reach the control line. -/
theorem State.readChannel_settle {s : State} {c : Chan} (r : Reply) (h : s.plant.outbox = []) :
    let t := ({ s with plant := (s.plant.emit (.clearMissed c)).emit .clearMissedPart } : State).settle (some r)
    t.plant = s.plant ∧ t.ctl.missed = s.ctl.missed.set c.val false ∧ t.ctl.missedPart = false ∧ t.log = s.log ∧
      t.back0 = s.back0 ∧ t.back1 = s.back1 := by
  have plain : { s.plant with outbox := [] } = s.plant := by rw [← h]
  refine ⟨?_, ?_⟩
  · rw [State.settle_plant]
    exact plain
  · simp [State.settle, h, State.deliver, ControlLine.addReply]

/-- Settles O15, by each read's answer. -/
theorem readsChangeOnlyWhatTheyClear : Obligations.ReadsChangeOnlyWhatTheyClear := by
  refine ⟨fun tag n start s ha hn => ⟨?_, ?_, ?_⟩, fun tag start c s ha h0 absent => ?_,
    fun tag a c l s ha hc hl => ?_, fun tag n c s ha hc => ?_, fun tag n c s ha hc ho => ?_, fun tag start s ha => ?_⟩
  · exact State.request_answers _ _ ha (by simp only [readPlaylist, chanOf_none hn]; rfl)
  · exact State.request_answers _ _ ha (by simp only [readWatch, chanOf_none hn]; rfl)
  · have e := s.request_admitted (.readChannel tag (.sound n)) tag 0x12 n readChannel ha
    simp only [readChannel, chanOf_none hn] at e
    exact congrArg _ (e rfl)
  · exact State.request_answers _ _ ha (by simp only [readPlaylist, chanOf_val, playlistFrom_none h0 absent]; rfl)
  · exact State.request_answers _ _ ha (readPlaylist_listed hc (playlistFrom_start hl))
  · refine ⟨_, State.request_answers _ _ ha (readWatch_known s.plant hc), ?_, rfl, rfl, fun d hd => ?_⟩
    · exact s.plant.chan_modChan_same c Channel.clearChange
    · exact s.plant.chan_modChan_other Channel.clearChange hd
  · have e := s.request_admitted (.readChannel tag (.sound n)) tag 0x12 n readChannel ha
    simp only [readChannel, hc] at e
    refine ⟨_, _, congrArg Host.Outcome.next (e rfl), rfl, ?_⟩
    exact State.readChannel_settle (s := { s with ctl := { s.ctl with
      rx := [], requests := s.ctl.requests ++ [({ tag := tag, kind := 0x12 } : QueuedRequest)] } }) _ ho
  · exact congrArg _ (s.request_admitted (.readAsRun tag (.sound start)) tag 0x17 start readAsRun ha rfl)

/-! ## SET REFERENCE -/

theorem RefId.ofCode_none {n : Nat} (h : 1 < n) : RefId.ofCode n = none := by
  match n, h with
  | _ + 2, _ => rfl

theorem Family.ofCode_none {n : Nat} (h : 3 < n) : Family.ofCode n = none := by
  match n, h with
  | _ + 4, _ => rfl

theorem Plant.boundTo_iff (p : Plant) (r : RefId) (c : Chan) :
    p.boundTo r c = true ↔ ∃ g, p.config c = some g ∧ g.reference = r ∧ (p.chan c).mode ≠ .idle := by
  unfold Plant.boundTo
  cases p.config c <;> simp

theorem Plant.mem_bound (p : Plant) (r : RefId) (c : Chan) :
    c ∈ p.bound r ↔ ∃ g, p.config c = some g ∧ g.reference = r ∧ (p.chan c).mode ≠ .idle := by
  simp [Plant.bound, mem_allChans, Plant.boundTo_iff]

theorem Plant.tellReference_eq (p : Plant) (r : RefId) : p.tellReference r = p.emit (.notice (p.referenceNotice r)) := rfl

theorem Plant.notices_tellReference (p : Plant) (r : RefId) : (p.tellReference r).notices = p.notices ++ [p.referenceNotice r] := by
  simp [Plant.tellReference_eq, Plant.notices]

theorem Plant.notices_setRef (p : Plant) (r : RefId) (x : Reference) : (p.setRef r x).notices = p.notices := by
  cases r <;> rfl

theorem Reference.newsOnReset_iff (x : Reference) :
    x.newsOnReset = true ↔ x.lock = .locked ∨ x.timeSet = true ∨ x.faulty = true := by
  simp [Reference.newsOnReset, or_assoc]

/-- R2: the plant after a new family has taken effect. -/
def Plant.newFamily (p : Plant) (r : RefId) (f : Family) : Plant :=
  if (p.ref r).newsOnReset then (p.setRef r (.newFamily f)).tellReference r else p.setRef r (.newFamily f)

theorem Plant.newFamily_same (p : Plant) (r : RefId) (f : Family) : (p.newFamily r f).ref r = .newFamily f := by
  unfold Plant.newFamily
  split
  · exact ((p.setRef r _).emit_ref _ r).trans (p.ref_setRef_same r _)
  · exact p.ref_setRef_same r _

theorem Plant.newFamily_other (p : Plant) {r o : RefId} (f : Family) (h : o ≠ r) : (p.newFamily r f).ref o = p.ref o := by
  unfold Plant.newFamily
  split
  · exact ((p.setRef r _).emit_ref _ o).trans (p.ref_setRef_other _ h)
  · exact p.ref_setRef_other _ h

theorem Plant.newFamily_rest (p : Plant) (r : RefId) (f : Family) :
    { p.newFamily r f with refA := p.refA, refB := p.refB, outbox := p.outbox } = p := by
  unfold Plant.newFamily
  split <;> cases r <;> rfl

theorem Plant.newFamily_notices (p : Plant) (r : RefId) (f : Family) :
    (p.newFamily r f).notices = p.notices ++
      (if (p.ref r).lock = .locked ∨ (p.ref r).timeSet = true ∨ (p.ref r).faulty = true then
        [(p.newFamily r f).referenceNotice r] else []) := by
  simp only [← Reference.newsOnReset_iff]
  unfold Plant.newFamily
  split
  · rw [Plant.notices_tellReference, Plant.notices_setRef]
    cases r <;> rfl
  · rw [Plant.notices_setRef, List.append_nil]

theorem setReference_inForce {a : SetReferenceArgs} {p : Plant} {r : RefId} {f : Family} (hr : RefId.ofCode a.reference = some r)
    (hf : Family.ofCode a.family = some f) (h : (p.ref r).family = f) :
    setReference a p = (p.setRef r { p.ref r with configured := true },
      reply .ok ((p.setRef r { p.ref r with configured := true }).referenceBytes r)) := by
  simp [setReference, hr, hf, h]

theorem setReference_bound {a : SetReferenceArgs} {p : Plant} {r : RefId} {f : Family} (hr : RefId.ofCode a.reference = some r)
    (hf : Family.ofCode a.family = some f) (h : (p.ref r).family ≠ f) (hb : p.bound r ≠ []) :
    setReference a p = p.refuse .wrongMode := by
  simp [setReference, hr, hf, h, hb]

theorem setReference_new {a : SetReferenceArgs} {p : Plant} {r : RefId} {f : Family} (hr : RefId.ofCode a.reference = some r)
    (hf : Family.ofCode a.family = some f) (h : (p.ref r).family ≠ f) (hb : p.bound r = []) :
    setReference a p = (p.newFamily r f, reply .ok ((p.newFamily r f).referenceBytes r)) := by
  simp [setReference, hr, hf, h, hb, Plant.newFamily]

theorem setReference_bad {a : SetReferenceArgs} (p : Plant) (h : 1 < a.reference ∨ 3 < a.family) :
    setReference a p = p.refuse .badArgument := by
  rcases h with h | h
  · simp [setReference, RefId.ofCode_none h]
  · simp [setReference, Family.ofCode_none h]

/-- Settles O17, by the three branches of SET REFERENCE. -/
theorem setReferenceFollowsR2 : Obligations.SetReferenceFollowsR2 := by
  refine fun tag a s ha => ⟨fun bad => ?_, fun r f hr hf => ⟨fun same => ⟨_, rfl, ?_⟩, fun other => ⟨?_, fun free => ?_⟩⟩⟩
  · exact State.request_answers _ _ ha (setReference_bad s.plant bad)
  · exact State.request_answers _ _ ha (setReference_inForce hr hf same)
  · rintro ⟨c, g, hg, hgr, hm⟩
    have bound : s.plant.bound r ≠ [] := List.ne_nil_of_mem ((s.plant.mem_bound r c).mpr ⟨g, hg, hgr, hm⟩)
    exact State.request_answers _ _ ha (setReference_bound hr hf other bound)
  · have unbound : s.plant.bound r = [] := List.eq_nil_iff_forall_not_mem.mpr fun c hc => by
      obtain ⟨g, hg, hgr, hm⟩ := (s.plant.mem_bound r c).mp hc
      exact hm (free c g hg hgr)
    refine ⟨_, State.request_answers _ _ ha (setReference_new hr hf other unbound), ?_⟩
    rw [s.plant.newFamily_same r f]
    exact ⟨rfl, rfl, rfl, rfl, rfl, rfl, rfl, rfl, rfl, rfl, rfl, rfl, fun o ho => s.plant.newFamily_other f ho,
      s.plant.newFamily_rest r f, s.plant.newFamily_notices r f⟩

/-! ## SET LINKS and the links' events -/

theorem Parity.ofCode_none {n : Nat} (h : 2 < n) : Parity.ofCode n = Option.none := by
  match n, h with
  | _ + 3, _ => rfl

theorem linkSettings_sound {a : LinkArgs} {y : Parity} (hy : Parity.ofCode a.parity = some y) (h1 : 1 ≤ a.divisor)
    (h2 : a.divisor ≤ 65535) : linkSettings a = some (a.divisor, y) := by
  simp [linkSettings, hy, h1, h2]

theorem linkSettings_none {a : LinkArgs} (h : 2 < a.parity ∨ a.divisor < 1 ∨ 65535 < a.divisor) : linkSettings a = none := by
  unfold linkSettings
  split
  · next y hy =>
    refine if_neg fun ⟨h1, h2⟩ => ?_
    rcases h with h | h | h
    · rw [Parity.ofCode_none h] at hy
      cases hy
    all_goals omega
  · rfl

theorem LineFlags.mark_eq (k : LineFlags) (f : LineFault) : k.mark f =
    { framing := k.framing || f == .framing, parity := k.parity || f == .parity, overrun := k.overrun || f == .overrun,
      brk := k.brk || f == .brk, check := k.check || f == .check } := by
  cases k
  cases f <;> simp [LineFlags.mark]

theorem Plant.setLink_setLink (p : Plant) (l : LinkId) (x y : Link) : (p.setLink l x).setLink l y = p.setLink l y := by
  cases l <;> rfl

theorem Plant.setLink_emit (p : Plant) (l : LinkId) (x : Link) (o : Outgoing) :
    (p.setLink l x).emit o = { p.setLink l x with outbox := p.outbox ++ [o] } := by
  cases l <;> rfl

/-- R46: a link's notice of its state clears its flags. -/
theorem Plant.tellLink_setLink (p : Plant) (l : LinkId) (k : Link) :
    (p.setLink l k).tellLink l = { p.setLink l { k with flags := .clear } with
      outbox := p.outbox ++ [.notice ⟨.linkState, none, u8 l.code ++ u8 k.state.code ++ k.flags.bytes⟩] } := by
  simp only [Plant.tellLink, Plant.notify, Plant.modLink, Plant.link_setLink_same, Plant.setLink_setLink, Plant.setLink_emit]

/-- Settles O24, by what SET LINKS and each link event write. -/
theorem linkSettingsAndEvents : Obligations.LinkSettingsAndEvents := by
  refine ⟨fun tag a s ha => ⟨fun y0 y1 hy0 hy1 h1 h2 h3 h4 h5 h6 => ?_, fun bad => ?_⟩, ?_⟩
  · refine State.request_answers _ _ ha ?_
    rw [setLinks, linkSettings_sound hy0 h1 h2, linkSettings_sound hy1 h3 h4]
    simp only [h5, h6, and_self, if_true, Link.set, Link.bytes, List.append_assoc]
  · refine State.request_answers _ _ ha (?_ : _ = s.plant.refuse .badArgument)
    unfold setLinks
    split
    · next v0 v1 h0 h1 =>
      refine if_neg fun ⟨h2, h3⟩ => ?_
      have l0 : ¬(2 < a.l0.parity ∨ a.l0.divisor < 1 ∨ 65535 < a.l0.divisor) := fun h => by simp [linkSettings_none h] at h0
      have l1 : ¬(2 < a.l1.parity ∨ a.l1.divisor < 1 ∨ 65535 < a.l1.divisor) := fun h => by simp [linkSettings_none h] at h1
      omega
    · rfl
  rintro l s k rfl
  refine ⟨fun up => ?_, fun notUp => ?_, rfl, ⟨_, rfl, rfl⟩, fun f left => ?_, fun down => ?_, fun notDown => ?_⟩
  · rw [Plant.goodFrame, if_pos up, ← up]
    rfl
  · rw [Plant.goodFrame, if_neg notUp]
    exact s.plant.tellLink_setLink l _
  · rw [← LineFlags.mark_eq]
    rfl
  · show Host.Outcome.next (s.passed (s.plant.linkBreak l)) = _
    rw [Plant.linkBreak, if_pos down]
  · show Host.Outcome.next (s.passed (s.plant.linkBreak l)) = _
    rw [Plant.linkBreak, if_neg notDown]
    exact congrArg (Host.Outcome.next ∘ s.passed) (s.plant.tellLink_setLink l _)

end Sys2Proof.Machine
end

