-- ==== Sys2Proof/Proofs/Labels.lean ====
section
/-! PROOFS. Labels and counts of the day, days and CTFs (R10 to R12, R16), read through the minute of the day and the frame of the
minute. -/

namespace Sys2Proof.Machine

/-! ## Minute and frame of the minute -/

/-- A label by the minute of the day and the frame of that minute, at a nominal rate. -/
def labelAt (f : Family) (minute frame : Nat) : Label := ⟨minute / 60, minute % 60, frame / f.rate, frame % f.rate⟩

/-- R11: the minute and frame are those of a label of the day that is not dropped. -/
structure OnClock (f : Family) (minute frame : Nat) : Prop where
  minute_lt : minute < 1440
  frame_lt : frame < 60 * f.rate
  kept : minute % 10 = 0 ∨ f.drop ≤ frame

/-- R10: the frames of the day before a minute's frame, less the labels dropped. -/
def clockCount (f : Family) (minute frame : Nat) : Nat := 60 * f.rate * minute + frame - f.drop * (minute - minute / 10)

theorem labelAt_valid {f : Family} {m q : Nat} (h : OnClock f m q) : (labelAt f m q).valid f = true := by
  obtain ⟨hm, hq, _⟩ := h
  unfold labelAt
  simp only [Label.valid, Bool.and_eq_true, decide_eq_true_eq]
  cases f <;> simp only [Family.rate] at hq ⊢ <;> omega

theorem labelAt_dropped {f : Family} {m q : Nat} (h : OnClock f m q) : (labelAt f m q).dropped f = false := by
  obtain ⟨_, _, hk⟩ := h
  unfold labelAt
  simp only [Label.dropped, Bool.and_eq_false_iff, decide_eq_false_iff_not, beq_eq_false_iff_ne, bne_eq_false_iff_eq]
  cases f <;> simp only [Family.rate, Family.drop] at hk ⊢ <;> omega

theorem moved_of_not_dropped {f : Family} {l : Label} (h : l.dropped f = false) : l.moved f = l := by
  simp [Label.moved, h]

theorem labelAt_count {f : Family} {m q : Nat} (h : OnClock f m q) : (labelAt f m q).count f = clockCount f m q := by
  rw [Label.count, moved_of_not_dropped (labelAt_dropped h)]
  simp only [labelAt, clockCount]
  cases f <;> simp only [Family.rate, Family.drop] <;> omega

/-- Each count of the day is that of a minute and a frame on the clock. -/
theorem exists_clock {f : Family} {c : Nat} (h : c < f.fpd) : ∃ m q, OnClock f m q ∧ clockCount f m q = c := by
  cases f with
  | f25 => exact ⟨c / 1500, c % 1500, ⟨by simp only [Family.fpd] at h; omega, by simp only [Family.rate]; omega, .inr (Nat.zero_le _)⟩,
      by simp only [clockCount, Family.rate, Family.drop]; omega⟩
  | f50 => exact ⟨c / 3000, c % 3000, ⟨by simp only [Family.fpd] at h; omega, by simp only [Family.rate]; omega, .inr (Nat.zero_le _)⟩,
      by simp only [clockCount, Family.rate, Family.drop]; omega⟩
  | f29df =>
    simp only [Family.fpd] at h
    by_cases first : c % 17982 < 1800
    · exact ⟨10 * (c / 17982), c % 17982, ⟨by omega, by simp only [Family.rate]; omega, .inl (by omega)⟩,
        by simp only [clockCount, Family.rate, Family.drop]; omega⟩
    · exact ⟨10 * (c / 17982) + (c % 17982 - 2) / 1798, (c % 17982 - 2) % 1798 + 2,
        ⟨by omega, by simp only [Family.rate]; omega, .inr (by simp only [Family.drop]; omega)⟩,
        by simp only [clockCount, Family.rate, Family.drop]; omega⟩
  | f59df =>
    simp only [Family.fpd] at h
    by_cases first : c % 35964 < 3600
    · exact ⟨10 * (c / 35964), c % 35964, ⟨by omega, by simp only [Family.rate]; omega, .inl (by omega)⟩,
        by simp only [clockCount, Family.rate, Family.drop]; omega⟩
    · exact ⟨10 * (c / 35964) + (c % 35964 - 4) / 3596, (c % 35964 - 4) % 3596 + 4,
        ⟨by omega, by simp only [Family.rate]; omega, .inr (by simp only [Family.drop]; omega)⟩,
        by simp only [clockCount, Family.rate, Family.drop]; omega⟩

theorem splitLabel_clock (f : Family) {m q : Nat} (hq : q < 60 * f.rate) :
    splitLabel f.rate (60 * f.rate * m + q) = labelAt f m q := by
  simp only [splitLabel, labelAt, Label.mk.injEq]
  cases f <;> simp only [Family.rate] at hq ⊢ <;> omega

theorem adjustedCount_of_first {f : Family} {c : Nat} (h : c % (10 * (60 * f.rate) - 9 * f.drop) < 60 * f.rate) :
    adjustedCount f c = c + 9 * f.drop * (c / (10 * (60 * f.rate) - 9 * f.drop)) := if_pos h

theorem adjustedCount_of_later {f : Family} {c : Nat} (h : ¬c % (10 * (60 * f.rate) - 9 * f.drop) < 60 * f.rate) :
    adjustedCount f c = c + 9 * f.drop * (c / (10 * (60 * f.rate) - 9 * f.drop)) +
      f.drop * ((c % (10 * (60 * f.rate) - 9 * f.drop) - f.drop) / (60 * f.rate - f.drop)) := if_neg h

/-- R12: ten minutes hold a fixed number of frames; where a minute's frame stands among them. -/
theorem clockCount_block {f : Family} {d e q : Nat} (he : e < 10) (h : OnClock f (10 * d + e) q) :
    clockCount f (10 * d + e) q % (10 * (60 * f.rate) - 9 * f.drop) = (60 * f.rate - f.drop) * e + q ∧
      clockCount f (10 * d + e) q / (10 * (60 * f.rate) - 9 * f.drop) = d := by
  obtain ⟨_, hq, _⟩ := h
  have whole : clockCount f (10 * d + e) q = (10 * (60 * f.rate) - 9 * f.drop) * d + ((60 * f.rate - f.drop) * e + q) := by
    have tens : (10 * d + e) / 10 = d := by omega
    unfold clockCount
    rw [tens]
    cases f <;> simp only [Family.rate, Family.drop] <;> omega
  have part : (60 * f.rate - f.drop) * e + q < 10 * (60 * f.rate) - 9 * f.drop := by
    cases f <;> simp only [Family.rate, Family.drop] at hq ⊢ <;> omega
  rw [whole, Nat.mul_add_mod, Nat.mod_eq_of_lt part, Nat.mul_add_div (Nat.zero_lt_of_lt part), Nat.div_eq_of_lt part]
  exact ⟨rfl, rfl⟩

/-- R12: the dropped labels added back give the frame's place at the nominal rate. -/
theorem adjustedCount_clock {f : Family} {m q : Nat} (h : OnClock f m q) :
    adjustedCount f (clockCount f m q) = 60 * f.rate * m + q := by
  obtain ⟨d, e, he, rfl⟩ : ∃ d e, e < 10 ∧ m = 10 * d + e := ⟨m / 10, m % 10, by omega, by omega⟩
  obtain ⟨rem, quot⟩ := clockCount_block he h
  obtain ⟨_, hq, hk⟩ := h
  have tens : (10 * d + e) / 10 = d := by omega
  by_cases first : clockCount f (10 * d + e) q % (10 * (60 * f.rate) - 9 * f.drop) < 60 * f.rate
  · rw [adjustedCount_of_first first, quot]
    rw [rem] at first
    unfold clockCount
    rw [tens]
    cases f <;> simp only [Family.rate, Family.drop] at first hq hk ⊢ <;> omega
  · rw [adjustedCount_of_later first, quot, rem]
    rw [rem] at first
    unfold clockCount
    rw [tens]
    cases f <;> simp only [Family.rate, Family.drop] at first hq hk ⊢ <;> omega

theorem labelOf_clock {f : Family} {m q : Nat} (h : OnClock f m q) : labelOf f (clockCount f m q) = labelAt f m q := by
  have plain : f.drop = 0 → clockCount f m q = 60 * f.rate * m + q := fun h0 => by simp [clockCount, h0]
  unfold labelOf
  split
  · next h0 => rw [plain h0, splitLabel_clock f h.frame_lt]
  · rw [adjustedCount_clock h, splitLabel_clock f h.frame_lt]

theorem clockCount_lt {f : Family} {m q : Nat} (h : OnClock f m q) : clockCount f m q < f.fpd := by
  obtain ⟨hm, hq, hk⟩ := h
  simp only [clockCount]
  cases f <;> simp only [Family.rate, Family.drop, Family.fpd] at hq hk ⊢ <;> omega

/-- Each valid label that is not dropped is that of a minute and a frame on the clock. -/
theorem label_exists_clock {f : Family} {l : Label} (hv : l.valid f = true) (hd : l.dropped f = false) :
    ∃ m q, OnClock f m q ∧ l = labelAt f m q := by
  obtain ⟨hh, mm, ss, ff⟩ := l
  simp only [Label.valid, Bool.and_eq_true, decide_eq_true_eq] at hv
  simp only [Label.dropped, Bool.and_eq_false_iff, decide_eq_false_iff_not, beq_eq_false_iff_ne, bne_eq_false_iff_eq] at hd
  obtain ⟨⟨⟨h1, h2⟩, h3⟩, h4⟩ := hv
  refine ⟨60 * hh + mm, ss * f.rate + ff, ⟨by omega, ?_, ?_⟩, ?_⟩
  · cases f <;> simp only [Family.rate] at h4 ⊢ <;> omega
  · cases f <;> simp only [Family.rate, Family.drop] at h4 hd ⊢ <;> omega
  · simp only [labelAt, Label.mk.injEq]
    cases f <;> simp only [Family.rate] at h4 ⊢ <;> omega

/-! ## Dropped labels -/

theorem moved_of_dropped {f : Family} {l : Label} (h : l.dropped f = true) : l.moved f = { l with ff := f.drop } := by
  simp [Label.moved, h]

theorem moved_valid {f : Family} {l : Label} (h : l.valid f = true) : (l.moved f).valid f = true := by
  unfold Label.moved
  split
  · simp only [Label.valid, Bool.and_eq_true, decide_eq_true_eq] at h ⊢
    refine ⟨h.1, ?_⟩
    cases f <;> decide
  · exact h

theorem moved_dropped (f : Family) (l : Label) : (l.moved f).dropped f = false := by
  unfold Label.moved
  split
  · simp [Label.dropped]
  · next h => simpa using h

theorem moved_count (f : Family) (l : Label) : (l.moved f).count f = l.count f := by
  have again : (l.moved f).moved f = l.moved f := moved_of_not_dropped (moved_dropped f l)
  have same : (l.moved f).hh = l.hh ∧ (l.moved f).mm = l.mm ∧ (l.moved f).ss = l.ss := by
    unfold Label.moved
    split <;> exact ⟨rfl, rfl, rfl⟩
  simp only [Label.count, again, same]

/-! ## Days -/

theorem dayOffset_day {base k : Nat} (hk : k < 4) : dayOffset base ((base + k) % 65536) = k := by
  simp only [dayOffset]
  omega

theorem day_of_offset {base day : Nat} (hd : day < 65536) : day = (base + dayOffset base day) % 65536 := by
  simp only [dayOffset]
  omega

/-- Settles O18, by minute and frame of the minute, and by day offset. -/
theorem labelsCountsAndCtfsAgree : Obligations.LabelsCountsAndCtfsAgree := by
  intro f
  have counts : ∀ c, c < f.fpd → (labelOf f c).valid f = true ∧ (labelOf f c).dropped f = false ∧ (labelOf f c).count f = c := by
    intro c hc
    obtain ⟨m, q, on, rfl⟩ := exists_clock hc
    rw [labelOf_clock on]
    exact ⟨labelAt_valid on, labelAt_dropped on, labelAt_count on⟩
  refine ⟨counts, fun l hv hd => ?_, fun l hv => ⟨moved_valid hv, moved_dropped f l, moved_count f l,
    moved_of_not_dropped, fun hd => ⟨moved_of_dropped hd, ?_⟩⟩, fun base _ => ⟨fun t ht => ?_, fun d _ hday => ?_⟩⟩
  · obtain ⟨m, q, on, rfl⟩ := label_exists_clock hv hd
    rw [labelAt_count on]
    exact ⟨clockCount_lt on, labelOf_clock on⟩
  · simp only [Label.dropped, Bool.and_eq_true, decide_eq_true_eq, beq_iff_eq, bne_iff_ne] at hd
    exact ⟨hd.1.2, hd.2, hd.1.1⟩
  · have pos : 0 < f.fpd := by cases f <;> decide
    have day : t / f.fpd < 4 := Nat.div_lt_of_lt_mul (by omega)
    simp only [ctfOf, dayLabelOf, dayOffset_day day, if_pos day, (counts _ (Nat.mod_lt t pos)).2.2, Option.some.injEq]
    exact Nat.div_add_mod' t f.fpd
  · by_cases h : dayOffset base d.day < 4
    · exact .inl ⟨_, h, day_of_offset hday, if_pos h⟩
    · exact .inr ⟨fun k hk e => h (by rw [e, dayOffset_day hk]; exact hk), if_neg h⟩

end Sys2Proof.Machine
end

