-- ==== Sys2Proof/Proofs/Limits.lean ====
section
/-! PROOFS. Which joins are refused (R150), how soon clean frames leave FAILED (R84), and that a written event description reads
back (R192, R194). -/

namespace Sys2Proof.Machine

/-! ## The limits of a join -/

/-- R150, on the clip of an event. -/
theorem joinRefusal_clip {tail t : Nat} {e : Event} {k : ClipInfo} (he : e.kind = .clip) (hk : e.clip = some k) :
    joinRefusal tail t e =
      if k.noJoin ∧ e.rstart < t then some .noJoin
      else if e.rend ≤ t + tail then some .tailGuard
      else k.eom.bind fun m => if m ≤ k.som + (t - e.rstart) then some .endOfMaterial else none := by
  simp only [joinRefusal, he, hk]
  cases k.eom <;> rfl

/-- Settles O54, case by case of R150's table. -/
theorem joinLimitsFollowR150 : Obligations.JoinLimitsFollowR150 := by
  intro tail t e hs hend _
  refine ⟨fun he => by simp [joinRefusal, he], fun k he hk => ?_⟩
  rw [joinRefusal_clip he hk]
  refine ⟨fun hn hst => if_pos ⟨hn, hst⟩, fun free => ?_⟩
  have allowed : ¬(k.noJoin = true ∧ e.rstart < t) := fun ⟨hn, hst⟩ => by
    rcases free with h | h
    · simp [h] at hn
    · omega
  rw [if_neg allowed]
  refine ⟨fun short => if_pos (by omega), fun long => ?_⟩
  rw [if_neg (by omega)]
  cases k.eom with
  | none => exact ⟨nofun, fun _ => ⟨rfl, by omega⟩⟩
  | some m =>
    refine ⟨?_, fun before => ⟨if_neg (Nat.not_le.mpr (before m rfl)), by omega⟩⟩
    rintro _ ⟨⟩ past
    exact if_pos past

/-! ## Clean frames -/

/-- R79, R84: a frame with nothing present takes the recovery step off the score, and leaves FAILED where that is low enough. -/
theorem evaluate_clean {f : Family} {g : WatchParams} {silent : Bool} {w : Watch}
    (clean : (evaluate f g silent w).conds.weight g.weights = 0) :
    (evaluate f g silent w).score = w.score - g.recovery ∧
      (w.health = .failed → (evaluate f g silent w).score ≤ g.recoverAt → (evaluate f g silent w).health ≠ .failed) := by
  have score : (evaluate f g silent w).score = w.score - g.recovery := by rw [evaluate_score, clean, nextScore_zero]
  refine ⟨score, fun failed low => ?_⟩
  rw [evaluate_health, failed, nextHealth, if_neg (Nat.not_lt.mpr low)]
  split <;> exact fun e => by cases e

/-- Settles O39: the score falls by the recovery step in each frame, and at the bound it is no higher than recover_at. -/
theorem cleanFramesLeaveFailed : Obligations.CleanFramesLeaveFailed := by
  intro f g run hr hg h0 hs clean
  have score : ∀ k, (run k).score = g.failAt - k * g.recovery := by
    intro k
    induction k with
    | zero => simpa using hs
    | succ k ih =>
      obtain ⟨silent, latch, e, hw⟩ := clean k
      rw [e] at hw ⊢
      rw [(evaluate_clean hw).1, ih, Nat.succ_mul, Nat.sub_sub]
  obtain ⟨n, hn⟩ : ∃ n, (g.failAt - g.recoverAt + g.recovery - 1) / g.recovery = n + 1 :=
    Nat.exists_eq_succ_of_ne_zero (Nat.div_pos (by omega) hr).ne'
  rw [hn]
  by_cases failed : (run n).health = .failed
  · refine ⟨n + 1, Nat.le_refl _, ?_⟩
    have low : (run (n + 1)).score ≤ g.recoverAt := by
      have enough : g.failAt - g.recoverAt + g.recovery - 1 < ((n + 1) + 1) * g.recovery :=
        (Nat.div_lt_iff_lt_mul hr).mp (by omega)
      rw [score (n + 1)]
      rw [Nat.succ_mul] at enough
      omega
    obtain ⟨silent, latch, e, hw⟩ := clean n
    rw [e] at hw low ⊢
    exact (evaluate_clean hw).2 failed low
  · exact ⟨n, Nat.le_succ n, failed⟩

/-! ## Event descriptions -/

/-- The bytes of a description's clip part. -/
def clipBytes (k : RawClip) : List Byte := u8 k.template ++ u24 k.som ++ str k.clip

theorem rClip_clipBytes (k : RawClip) (h : clipFits k = true) (t : List Byte) : rClip (clipBytes k ++ t) = some (k, t) := by
  simp only [clipFits, fits8, fits24, Bool.and_eq_true, decide_eq_true_eq] at h
  obtain ⟨⟨⟨ht, hs⟩, h1⟩, h2⟩ := h
  simp only [rClip, clipBytes, List.append_assoc, r8_u8 _ ht, Option.bind_some, r24_u24 _ hs, rStr_str _ _ (by omega : k.clip.length < 256),
    h1, h2, and_self, if_true]

/-- R194: the presence byte gives back the parts that are there. -/
theorem presence_bits (a b c d : Bool) : bits [a, b, c, d] < 16 ∧ (bits [a, b, c, d]).testBit 0 = a ∧
    (bits [a, b, c, d]).testBit 1 = b ∧ (bits [a, b, c, d]).testBit 2 = c ∧ (bits [a, b, c, d]).testBit 3 = d := by
  revert a b c d
  decide

/-- The bytes of a part that its presence bit announces. -/
def partBytes {α : Type} (f : α → List Byte) : Option α → List Byte
  | none => []
  | some x => f x

theorem rPart_part {α : Type} (r : Reader α) (f : α → List Byte) (o : Option α) (t : List Byte)
    (h : ∀ x, o = some x → r (f x ++ t) = some (x, t)) : rPart o.isSome r (partBytes f o ++ t) = some (o, t) := by
  cases o with
  | none => rfl
  | some x => simp [rPart, partBytes, h x rfl]

theorem descBytes_eq (d : RawDesc) : descBytes d =
    u32 d.id ++ u8 d.kind ++ u8 d.rule ++ u8 (bits [d.start.isSome, d.clip.isSome, d.eom.isSome, d.noJoin]) ++ u32 d.duration ++
      partBytes dayLabelBytes d.start ++ partBytes clipBytes d.clip ++
      partBytes u24 d.eom := by
  obtain ⟨id, kind, rule, duration, start, clip, eom, noJoin⟩ := d
  cases start <;> cases clip <;> cases eom <;> rfl

theorem rDesc_descBytes (d : RawDesc) (h : descFits d = true) (t : List Byte) : rDesc (descBytes d ++ t) = some (d, t) := by
  obtain ⟨id, kind, rule, duration, start, clip, eom, noJoin⟩ := d
  simp only [descFits, Bool.and_eq_true, fits32, fits8, decide_eq_true_eq] at h
  obtain ⟨⟨⟨⟨⟨⟨hid, hkind⟩, hrule⟩, hdur⟩, hstart⟩, hclip⟩, heom⟩ := h
  obtain ⟨hp, b0, b1, b2, b3⟩ := presence_bits start.isSome clip.isSome eom.isSome noJoin
  have readStart := fun t => rPart_part rDayLabel dayLabelBytes start t fun x hx => by
    subst hx
    exact rDayLabel_dayLabelBytes x (by simpa using hstart) t
  have readClip := fun t => rPart_part rClip clipBytes clip t fun x hx => by
    subst hx
    exact rClip_clipBytes x (by simpa using hclip) t
  have readEom := fun t => rPart_part r24 u24 eom t fun x hx => by
    subst hx
    exact r24_u24 x (by simpa [fitsOpt, fits24] using heom) t
  simp only [descBytes_eq, rDesc, List.append_assoc, r32_u32 _ hid, Option.bind_some, r8_u8 _ hkind, r8_u8 _ hrule,
    r8_u8 _ (by omega : bits [start.isSome, clip.isSome, eom.isSome, noJoin] < 256), r32_u32 _ hdur, if_pos hp, b0, b1, b2, b3,
    readStart, readClip, readEom, Option.map_some]

/-- Settles O60, field by field. -/
theorem descriptionsReadBack : Obligations.DescriptionsReadBack := by
  intro d h
  have e := rDesc_descBytes d h []
  rw [List.append_nil] at e
  simp [whole, e]

end Sys2Proof.Machine
end

