-- ==== Sys2Proof/Proofs/Examination.lean ====
section
/-! PROOFS. A frame's evaluation and the probe line (R72 to R85), and the examination of a frame's label (R13, R14) with the frame
start that carries it. -/

namespace Sys2Proof.Machine

/-! ## The evaluation's conditions -/

theorem condsOf_none (f : Family) (memory : Option Nat) (silent : Bool) :
    condsOf f none memory silent = { Conds.empty with noProbe := true, siteSilent := silent } := rfl

/-- R76 to R78: the conditions that a record gives. -/
theorem condsOf_some (f : Family) (r : Probe) (memory : Option Nat) (silent : Bool) :
    let k := condsOf f (some r) memory silent
    k.noProbe = false ∧ k.noSignal = !r.signal ∧ k.black = r.black ∧ k.frozen = r.frozen ∧ k.silent = r.silent ∧
      k.siteSilent = silent ∧ k.tcLoss = (usableCount f r).isNone := ⟨rfl, rfl, rfl, rfl, rfl, rfl, rfl⟩

theorem usableCount_some {f : Family} {r : Probe}
    (h : r.labelValid = true ∧ r.label.valid f = true ∧ r.label.dropped f = false) :
    usableCount f r = some (r.label.count f) := by
  obtain ⟨h1, h2, h3⟩ := h
  simp [usableCount, h1, h2, h3]

theorem usableCount_none {f : Family} {r : Probe}
    (h : r.labelValid = false ∨ r.label.valid f = false ∨ r.label.dropped f = true) : usableCount f r = none := by
  rcases h with h | h | h <;> simp [usableCount, h]

theorem condsOf_jump {f : Family} {r : Probe} {n : Nat} (memory : Option Nat) (silent : Bool) (h : usableCount f r = some n) :
    (condsOf f (some r) memory silent).tcJump = true ↔ ∃ m, memory = some m ∧ n ≠ (m + 1) % f.fpd := by
  simp only [condsOf, h]
  cases memory <;> simp

theorem condsOf_noJump {f : Family} {r : Probe} (memory : Option Nat) (silent : Bool) (h : usableCount f r = none) :
    (condsOf f (some r) memory silent).tcJump = false := by
  simp only [condsOf, h]

/-! ## The evaluation's health -/

theorem judge_eq (g : WatchParams) (score : Nat) :
    (g.failAt ≤ score → judge g score = .failed) ∧
    (score < g.failAt → g.degradeAt ≤ score → judge g score = .degraded) ∧
    (score < g.failAt → score < g.degradeAt → judge g score = .healthy) := by
  refine ⟨fun h => if_pos h, fun h1 h2 => ?_, fun h1 h2 => ?_⟩
  · rw [judge, if_neg (Nat.not_le.mpr h1), if_pos h2]
  · rw [judge, if_neg (Nat.not_le.mpr h1), if_neg (Nat.not_le.mpr h2)]

theorem nextHealth_warming {g : WatchParams} {warm : Nat} (score : Nat) (h : warm < g.warmUp) :
    nextHealth g .unknown warm score = .unknown := if_pos h

theorem nextHealth_judged {g : WatchParams} {health : Health} {warm : Nat} (score : Nat) (hf : health ≠ .failed)
    (hw : health = .unknown → g.warmUp ≤ warm) : nextHealth g health warm score = judge g score := by
  cases health with
  | unknown => exact if_neg (Nat.not_lt.mpr (hw rfl))
  | failed => exact absurd rfl hf
  | _ => rfl

theorem nextHealth_failed (g : WatchParams) (warm score : Nat) :
    (g.recoverAt < score → nextHealth g .failed warm score = .failed) ∧
    (score ≤ g.recoverAt → g.degradeAt ≤ score → nextHealth g .failed warm score = .degraded) ∧
    (score ≤ g.recoverAt → score < g.degradeAt → nextHealth g .failed warm score = .healthy) := by
  refine ⟨fun h => if_pos h, fun h1 h2 => ?_, fun h1 h2 => ?_⟩
  · rw [nextHealth, if_neg (Nat.not_lt.mpr h1), if_pos h2]
  · rw [nextHealth, if_neg (Nat.not_lt.mpr h1), if_neg (Nat.not_le.mpr h2)]

/-- R81: a change flag is set where it was set or the condition changed. -/
theorem changed_iff {pick : Conds → Bool} (change before after : Conds)
    (h : pick ∈ [Conds.noSignal, Conds.black, Conds.frozen, Conds.silent, Conds.tcLoss, Conds.tcJump, Conds.noProbe,
      Conds.siteSilent]) :
    pick (change.changed before after) = true ↔ pick change = true ∨ pick before ≠ pick after := by
  simp only [List.mem_cons, List.not_mem_nil, or_false] at h
  rcases h with rfl | rfl | rfl | rfl | rfl | rfl | rfl | rfl <;> simp [Conds.changed, Conds.zip]

/-! ## The probe line -/

theorem ProbeFlags.mark_eq (k : ProbeFlags) (f : ProbeFault) : k.mark f =
    { framing := k.framing || f == .framing, overrun := k.overrun || f == .overrun, brk := k.brk || f == .brk,
      check := k.check || f == .check } := by
  cases k
  cases f <;> simp [ProbeFlags.mark]

theorem Plant.latchProbe_none (p : Plant) {n : Nat} (r : Probe) (h : 15 < n) : p.latchProbe n r = { p with probeRx := [] } := by
  simp [Plant.latchProbe, chanOf_none h]

theorem Plant.latchProbe_discards {p : Plant} {c : Chan} (r : Probe)
    (h : (p.chan c).mode = .idle ∨ (p.chan c).watch.latch ≠ none) : p.latchProbe c.val r = { p with probeRx := [] } := by
  simp only [Plant.latchProbe, chanOf_val]
  exact if_pos (h.imp_right Option.isSome_iff_ne_none.mpr)

theorem Plant.latchProbe_takes {p : Plant} {c : Chan} (r : Probe) (hm : (p.chan c).mode ≠ .idle)
    (hl : (p.chan c).watch.latch = none) :
    p.latchProbe c.val r = { p.setChan c { p.chan c with watch := { (p.chan c).watch with latch := some r } } with
      probeRx := [] } := by
  simp only [Plant.latchProbe, chanOf_val]
  exact if_neg fun h => h.elim hm fun h => by simp [Plant.chan] at h hl; simp [hl] at h

/-! ## The report of health -/

theorem Plant.healthReport_same (p : Plant) (c : Chan) (h : Health) : p.healthReport c h h = p := if_pos rfl

/-- Settles O38, by the evaluation's fields, its report, and the probe line's events. -/
theorem evaluationFollowsRules : Obligations.EvaluationFollowsRules := by
  refine ⟨?_, ?_, fun s => ⟨fun n r h => ?_, fun c r h => ?_, fun c r hm hl => ?_, fun f left => ?_⟩⟩
  · rintro p _ c _ _ rfl rfl rfl
    refine ⟨fun same => ?_, fun _ => rfl⟩
    rw [Plant.watchFrame, ← same, Plant.healthReport_same]
  · rintro f g silent w _ rfl
    refine ⟨rfl, ?_, rfl, fun h => ?_, fun r h => ?_, fun h => ?_, fun h => ?_, fun pick h => changed_iff _ _ _ h, fun hu hw => ?_,
      fun hf hw => ?_, fun hf => ?_, rfl, rfl, rfl, rfl, rfl⟩
    · show (condsOf f w.latch w.labelMem silent).siteSilent = silent
      cases w.latch <;> rfl
    · refine ⟨?_, ?_⟩
      · show w.latch.bind (usableCount f) = none
        rw [h]
        rfl
      · show condsOf f w.latch w.labelMem silent = _
        rw [h]
        rfl
    · have conds : (evaluate f g silent w).conds = condsOf f (some r) w.labelMem silent := by rw [← h]; rfl
      have label : (evaluate f g silent w).labelMem = usableCount f r := by
        show w.latch.bind (usableCount f) = _
        rw [h]
        rfl
      rw [conds, label]
      obtain ⟨h1, h2, h3, h4, h5, _, h6⟩ := condsOf_some f r w.labelMem silent
      refine ⟨h1, h2, h3, h4, h5, fun usable => ?_, fun unusable => ?_⟩
      · have u := usableCount_some usable
        exact ⟨by rw [h6, u]; rfl, u, condsOf_jump _ _ u⟩
      · have u := usableCount_none unusable
        exact ⟨by rw [h6, u]; rfl, u, condsOf_noJump _ _ u⟩
    · show List.drop _ _ = _
      rw [Nat.sub_eq_zero_of_le (by omega)]
      rfl
    · show List.drop (w.history.length + 1 - 16) _ = _
      rw [h]
      match w.history, h with
      | v :: l, _ => rfl
    · rw [evaluate_health, hu]
      exact nextHealth_warming _ hw
    · rw [evaluate_health, nextHealth_judged _ hf hw]
      exact judge_eq _ _
    · rw [evaluate_health, hf]
      exact nextHealth_failed _ _ _
  · exact congrArg (Host.Outcome.next ∘ s.passed) (s.plant.latchProbe_none r h)
  · exact congrArg (Host.Outcome.next ∘ s.passed) (Plant.latchProbe_discards r h)
  · exact congrArg (Host.Outcome.next ∘ s.passed) (Plant.latchProbe_takes r hm hl)
  · rw [← ProbeFlags.mark_eq]
    rfl

/-! ## The examination of a label -/

theorem Reference.goodLabel_none {x : Reference}
    (h : ∀ l, x.label = some l → l.valid x.family = false ∨ l.dropped x.family = true) : x.goodLabel = none := by
  unfold Reference.goodLabel
  split
  · next l hl => rcases h l hl with h | h <;> simp [h]
  · rfl

theorem Reference.goodLabel_some {x : Reference} {l : Label} (hl : x.label = some l) (hv : l.valid x.family = true)
    (hd : l.dropped x.family = false) : x.goodLabel = some l := by
  simp [Reference.goodLabel, hl, hv, hd]

theorem Reference.examine_unlabelled {x : Reference} (allowed : Int → Bool) (h : x.goodLabel = none) :
    (x.timeSet = false → x.examine allowed = ({ x with station := (x.station + 1) % x.family.fpd }, none)) ∧
    (x.timeSet = true → x.examine allowed =
      ({ x with station := (x.station + 1) % x.family.fpd, offset := none, offsetRun := 0 }, none)) := by
  refine ⟨fun ht => ?_, fun ht => ?_⟩ <;> simp [Reference.examine, h, ht, Reference.after]

theorem Reference.examine_first {x : Reference} {l : Label} (allowed : Int → Bool) (h : x.goodLabel = some l)
    (ht : x.timeSet = false) :
    x.examine allowed = ({ x with station := (l.count x.family + 1) % x.family.fpd, timeSet := true }, none) := by
  simp [Reference.examine, h, ht, Reference.after]

theorem Reference.examine_agrees {x : Reference} {l : Label} (allowed : Int → Bool) (h : x.goodLabel = some l)
    (ht : x.timeSet = true) (he : (l.count x.family : Int) = x.station) :
    x.examine allowed =
      ({ x with station := (x.station + 1) % x.family.fpd, offset := none, offsetRun := 0, faulty := false }, none) := by
  simp [Reference.examine, h, ht, he, Reference.after]

/-- R14: the examination of a label at an offset from station time. -/
theorem Reference.examine_offset {x : Reference} {l : Label} (allowed : Int → Bool) (h : x.goodLabel = some l)
    (ht : x.timeSet = true) {d : Int} (hd : d = (l.count x.family : Int) - x.station) (h0 : d ≠ 0) :
    x.examine allowed =
      let next := { x with station := (x.station + 1) % x.family.fpd }
      if x.offset = some d ∧ 3 ≤ x.offsetRun then (next, none)
      else if (next.offsetSeen d).offsetRun < 3 then (next.offsetSeen d, none)
      else if -(x.family.fpd / 2 : Nat) ≤ d ∧ d ≤ (x.family.fpd / 2 : Nat) ∧ (0 ≤ d ∨ allowed d) then
        ({ next.offsetSeen d with station := (l.count x.family + 1) % x.family.fpd, offset := none, offsetRun := 0 }, some d)
      else ({ next.offsetSeen d with faulty := true }, none) := by
  subst hd
  simp only [Reference.examine, h, ht, if_neg h0, Reference.after]

/-! ## A reference's frame start -/

theorem Reference.newsOfLabel_iff (x y : Reference) :
    x.newsOfLabel y = true ↔ y.timeSet ≠ x.timeSet ∨ y.faulty ≠ x.faulty ∨ (x.offsetRun = 2 ∧ y.offsetRun = 3) := by
  simp only [Reference.newsOfLabel, Reference.refusedStep, Bool.or_eq_true, bne_iff_ne, Bool.and_eq_true, beq_iff_eq, or_assoc]
  rw [ne_comm, ne_comm (a := x.faulty)]

/-- The plant that a reference's channels take the frame start on. -/
def Plant.examined (p : Plant) (r : RefId) (line length : Nat) : Plant :=
  let x := ((p.ref r).examine (p.stepAllowed r)).1
  let q := p.setRef r (x.newFrame line length)
  (if (p.ref r).newsOfLabel x then q.tellReference r else q).tickFree

/-- The channels that take a reference's frame start, one after another. -/
def Plant.frameOrder (p : Plant) (r : RefId) (line length : Nat) : List Chan :=
  let q := p.examined r line length
  ({ q with free := p.free } : Plant).inFreeOrder (q.bound r)

theorem Plant.examined_chans (p : Plant) (r : RefId) (line length : Nat) : (p.examined r line length).chans = p.chans := by
  simp only [Plant.examined]
  split <;> cases r <;> rfl

theorem Plant.examined_chan (p : Plant) (r : RefId) (line length : Nat) (c : Chan) :
    (p.examined r line length).chan c = p.chan c := by
  simp only [Plant.chan, Plant.examined_chans]

theorem Plant.examined_ref (p : Plant) (r : RefId) (line length : Nat) :
    (p.examined r line length).ref r = ((p.ref r).examine (p.stepAllowed r)).1.newFrame line length := by
  simp only [Plant.examined]
  split <;> cases r <;> rfl

theorem Plant.examined_other (p : Plant) {r o : RefId} (line length : Nat) (h : o ≠ r) :
    (p.examined r line length).ref o = p.ref o := by
  simp only [Plant.examined, Plant.tickFree_ref]
  split
  · exact ((Plant.setRef _ _ _).emit_ref _ o).trans (p.ref_setRef_other _ h)
  · exact p.ref_setRef_other _ h

theorem Plant.examined_rest (p : Plant) (r : RefId) (line length : Nat) :
    { p.examined r line length with refA := p.refA, refB := p.refB, free := p.free, outbox := p.outbox } = p := by
  simp only [Plant.examined]
  split <;> cases r <;> rfl

theorem Plant.examined_outbox (p : Plant) (r : RefId) (line length : Nat) :
    (p.examined r line length).outbox = p.outbox ++
      (if (p.ref r).newsOfLabel ((p.ref r).examine (p.stepAllowed r)).1 = true then
        [.notice ((p.examined r line length).referenceNotice r)] else []) := by
  simp only [Plant.examined]
  split <;> cases r <;> simp [Plant.tellReference_eq, Plant.tickFree, Plant.setRef, Plant.emit] <;> rfl

theorem Plant.mem_frameOrder (p : Plant) (r : RefId) (line length : Nat) (c : Chan) :
    c ∈ p.frameOrder r line length ↔ (p.chan c).mode ≠ .idle ∧ ∃ g, p.config c = some g ∧ g.reference = r := by
  rw [Plant.frameOrder, (Plant.inFreeOrder_perm _ _).mem_iff, Plant.mem_bound, Plant.config, Plant.examined_chan]
  exact ⟨fun ⟨g, hg, hr, hm⟩ => ⟨hm, g, hg, hr⟩, fun ⟨hm, g, hg, hr⟩ => ⟨g, hg, hr, hm⟩⟩

theorem Plant.frameOrder_nodup (p : Plant) (r : RefId) (line length : Nat) : (p.frameOrder r line length).Nodup :=
  (Plant.inFreeOrder_perm _ _).nodup_iff.mpr (allChans_nodup.filter _)

theorem Plant.frameStart_eq (p : Plant) (r : RefId) (line length : Nat) :
    p.frameStart r line length =
      (p.frameOrder r line length).foldl (Plant.channelFrame ((p.ref r).examine (p.stepAllowed r)).2) (p.examined r line length) := by
  simp only [Plant.frameStart, Plant.frameOrder, Plant.examined]
  split <;> cases r <;> rfl

/-- Settles O21, by the examination's branches and the plant that the channels of the reference take the frame start on. -/
theorem labelsSetStationTime : Obligations.LabelsSetStationTime := by
  refine ⟨fun x allowed h => Reference.examine_unlabelled allowed (Reference.goodLabel_none h), ?_, ?_⟩
  · rintro p r line length _ y step rfl he
    have hy : y = ((p.ref r).examine (p.stepAllowed r)).1 := by rw [he]
    have hs : step = ((p.ref r).examine (p.stepAllowed r)).2 := by rw [he]
    subst hy hs
    refine ⟨p.frameOrder r line length, p.examined r line length, p.frameStart_eq r line length, p.frameOrder_nodup r line length,
      p.mem_frameOrder r line length, p.examined_ref r line length, p.examined_rest r line length,
      fun o ho => p.examined_other line length ho, ?_⟩
    simp only [p.examined_outbox, ← Reference.newsOfLabel_iff]
  · intro x allowed l hl hv hd y step he
    have good := Reference.goodLabel_some hl hv hd
    refine ⟨fun ht => ?_, fun ht agrees => ?_, fun ht d hd0 h0 => ?_⟩
    · rw [Reference.examine_first allowed good ht] at he
      cases he
      exact ⟨rfl, rfl, rfl⟩
    · rw [Reference.examine_agrees allowed good ht agrees] at he
      cases he
      exact ⟨rfl, rfl, rfl, rfl, rfl⟩
    · rw [Reference.examine_offset allowed good ht hd0 h0] at he
      refine ⟨fun new => ?_, fun held run => ?_, fun held run => ?_, fun held run => ?_⟩
      · simp only [new, false_and, if_false, Reference.offsetSeen, Nat.one_lt_ofNat, if_true] at he
        cases he
        exact ⟨rfl, rfl, rfl, rfl⟩
      · have short : ¬(x.offset = some d ∧ 3 ≤ x.offsetRun) := fun h => by omega
        simp only [if_neg short] at he
        simp only [Reference.offsetSeen, held, if_true, (by omega : x.offsetRun + 1 < 3)] at he
        cases he
        exact ⟨rfl, rfl, rfl, rfl⟩
      · have short : ¬(x.offset = some d ∧ 3 ≤ x.offsetRun) := fun h => by omega
        simp only [if_neg short] at he
        simp only [Reference.offsetSeen, held, if_true] at he
        rw [if_neg (by omega)] at he
        refine ⟨fun fits => ?_, fun unfit => ?_⟩
        · have may : 0 ≤ d ∨ allowed d = true := (Int.lt_or_le d 0).elim (fun h => .inr (fits.2.2 h)) .inl
          rw [if_pos ⟨fits.1, fits.2.1, may⟩] at he
          cases he
          exact ⟨rfl, rfl, rfl, rfl⟩
        · rw [if_neg fun h => unfit ⟨h.1, h.2.1, fun hneg => h.2.2.resolve_left (by omega)⟩] at he
          cases he
          exact ⟨rfl, rfl, congrArg (· + 1) run, rfl, rfl⟩
      · rw [if_pos ⟨held, run⟩] at he
        cases he
        exact ⟨rfl, rfl⟩

end Sys2Proof.Machine
end

