-- ==== Sys2Proof/Proofs/LockStates.lean ====
section
/-! PROOFS. What a pulse, the close of a window, a crystal end and the lapse of a run do in each lock state (R1, R3 to R7). -/

namespace Sys2Proof.Machine

/-! ## The reference after lines, a frame's end and a missed pulse -/

theorem Plant.setRef_setRef (p : Plant) (r : RefId) (x y : Reference) : (p.setRef r x).setRef r y = p.setRef r y := by
  cases r <;> rfl

theorem Plant.setRef_self (p : Plant) (r : RefId) : p.setRef r (p.ref r) = p := by cases r <;> rfl

/-- R1: raising lines moves the line counter and what has been raised, and no further than the lines raised. -/
theorem Plant.raiseLines_counters (p : Plant) (r : RefId) (upto : Nat) :
    ∃ a b, (p.raiseLines r upto).ref r = { p.ref r with raised := a, line := b } ∧ b ≤ max (p.ref r).line upto := by
  rw [Plant.raiseLines_ref]
  split
  · exact ⟨(p.ref r).raised, (p.ref r).line, rfl, Nat.le_max_left _ _⟩
  · exact ⟨upto, _, rfl, Nat.le_refl _⟩

theorem Plant.raiseLines_raised {p : Plant} {r : RefId} {upto : Nat} (h : upto ≤ (p.ref r).raised) : p.raiseLines r upto = p :=
  if_pos h

theorem Plant.inFreeOrder_nil (p : Plant) : p.inFreeOrder [] = [] := rfl

/-- R1: where no channel's switch line lies among the lines raised, nothing but the counters moves. -/
theorem Plant.raiseLines_quiet {p : Plant} {r : RefId} {upto : Nat} (h : (p.ref r).raised < upto)
    (quiet : ∀ c g, p.config c = some g → g.reference = r →
      (p.chan c).mode = .idle ∨ (p.chan c).lineInForce ≤ (p.ref r).raised ∨ upto < (p.chan c).lineInForce) :
    p.raiseLines r upto = p.tickFree.setRaised r upto := by
  have none : (p.bound r).filter (fun c => decide ((p.ref r).raised < (p.chan c).lineInForce) &&
      decide ((p.chan c).lineInForce ≤ upto)) = [] := by
    refine List.filter_eq_nil_iff.mpr fun c hc => ?_
    obtain ⟨g, hg, hr, hm⟩ := (p.mem_bound r c).mp hc
    have := (quiet c g hg hr).resolve_left hm
    simp only [Bool.and_eq_true, decide_eq_true_eq]
    omega
  simp only [Plant.raiseLines, if_neg (Nat.not_le.mpr h), Plant.lineChannels, none]
  rfl

/-- R1, R13, R14: what the end of a frame leaves of the reference. -/
theorem Plant.endFrame_fields (p : Plant) (r : RefId) (line length : Nat) :
    let y := (p.endFrame r line length).ref r
    y.family = (p.ref r).family ∧ y.configured = (p.ref r).configured ∧ y.lock = (p.ref r).lock ∧ y.miss = (p.ref r).miss ∧
      y.run = (p.ref r).run ∧ y.line = line ∧ y.raised = 0 ∧ y.label = none ∧
      y.lastPulse = (p.ref r).lastPulse.map (fun o : Int => o - length) ∧
      ((p.ref r).label = none → y.station = ((p.ref r).station + 1) % (p.ref r).family.fpd ∧ y.timeSet = (p.ref r).timeSet) := by
  obtain ⟨a, b, e, _⟩ := p.raiseLines_counters r (p.ref r).family.lines
  rw [Plant.endFrame_ref, e]
  obtain ⟨h1, h2, h3, h4, h5, _, h7⟩ := Reference.examine_keeps { p.ref r with raised := a, line := b }
    ((p.raiseLines r (p.ref r).family.lines).stepAllowed r)
  refine ⟨h1, h2, h3, h4, h5, rfl, rfl, rfl, congrArg (Option.map fun o : Int => o - length) h7, fun unlabelled => ?_⟩
  obtain ⟨unset, set⟩ := Reference.examine_unlabelled ((p.raiseLines r (p.ref r).family.lines).stepAllowed r)
    (Reference.goodLabel_none (x := { p.ref r with raised := a, line := b }) fun l hl => by simp [unlabelled] at hl)
  cases ht : (p.ref r).timeSet
  · rw [unset ht]
    exact ⟨rfl, ht⟩
  · rw [set ht]
    exact ⟨rfl, ht⟩

theorem Plant.modRef_ref (p : Plant) (r : RefId) (f : Reference → Reference) : (p.modRef r f).ref r = f (p.ref r) :=
  p.ref_setRef_same r _

theorem Plant.modRef_ref_other (p : Plant) {r o : RefId} (f : Reference → Reference) (h : o ≠ r) :
    (p.modRef r f).ref o = p.ref o := p.ref_setRef_other _ h

theorem Plant.tellReference_ref (p : Plant) (r o : RefId) : (p.tellReference r).ref o = p.ref o := p.emit_ref _ o

/-- A reference that has told its state: the notice stands with the state as it is. -/
theorem Plant.tellReference_told (p : Plant) (r : RefId) :
    (p.tellReference r).referenceNotice r ∈ (p.tellReference r).notices := by
  have same : (p.tellReference r).referenceNotice r = p.referenceNotice r := by
    simp only [Plant.referenceNotice, Plant.tellReference_ref]
  rw [Plant.notices_tellReference, same]
  exact List.mem_append_right _ (.head _)

/-- R4: a missed pulse that is not the third. -/
theorem Plant.missPulse_counts {p : Plant} {r : RefId} (h : (p.ref r).miss < 2) :
    p.missPulse r = p.setRef r { p.ref r with miss := (p.ref r).miss + 1 } := by
  have count : min 3 ((p.ref r).miss + 1) = (p.ref r).miss + 1 := by omega
  simp only [Plant.missPulse, Plant.modRef, Plant.ref_setRef_same, count]
  exact if_neg (by omega)

/-- R4: the third missed pulse. -/
theorem Plant.missPulse_loses {p : Plant} {r : RefId} (h : 2 ≤ (p.ref r).miss) :
    p.missPulse r = (p.setRef r { p.ref r with miss := 3, lock := .lost, run := 0, lastPulse := none }).tellReference r := by
  have count : min 3 ((p.ref r).miss + 1) = 3 := by omega
  simp only [Plant.missPulse, Plant.modRef, Plant.ref_setRef_same, count, if_true, Plant.setRef_setRef]

theorem Plant.missPulse_ref_other (p : Plant) {r o : RefId} (h : o ≠ r) : (p.missPulse r).ref o = p.ref o := by
  rcases Nat.lt_or_ge (p.ref r).miss 2 with hm | hm
  · rw [Plant.missPulse_counts hm, Plant.ref_setRef_other _ _ h]
  · rw [Plant.missPulse_loses hm, Plant.tellReference_ref, Plant.ref_setRef_other _ _ h]

/-- R6: the reference that has locked at a pulse, and its notice. -/
theorem Plant.relock_fields (p : Plant) (r : RefId) (pos : Nat) :
    let q := p.relock r pos
    (q.ref r).lock = .locked ∧ (q.ref r).miss = 0 ∧ (q.ref r).line = 1 ∧ (q.ref r).raised = 0 ∧
      (q.ref r).family = (p.ref r).family ∧ q.referenceNotice r ∈ q.notices ∧ p.StillBut q r := by
  obtain ⟨h1, _, _, _, _, h6, h7, _⟩ := p.endFrame_fields r 1 pos
  refine ⟨?_, ?_, ?_, ?_, ?_, Plant.tellReference_told _ r, Plant.stillBut_of_base (p.relock_base r pos) fun o ho => ?_⟩
  case refine_6 => simp only [Plant.relock, Plant.tellReference_ref, Plant.modRef_ref_other _ _ ho, p.endFrame_ref_other 1 pos ho]
  all_goals simp only [Plant.relock, Plant.tellReference_ref, Plant.modRef_ref, Reference.lockOn]
  exacts [h6, h7, h1]

/-! ## Where the frame goes on -/

theorem Reference.inPhase_iff (x : Reference) (pos : Nat) :
    x.inPhase pos = true ↔ ∃ o : Int, x.lastPulse = some o ∧ o + x.family.lines ≤ pos + 8 ∧ (pos : Int) ≤ o + x.family.lines + 8 := by
  unfold Reference.inPhase
  cases x.lastPulse <;> simp

/-- R1: passing the lines before a pulse brings the line counter behind it. -/
theorem Plant.passLines_eq {p : Plant} {r : RefId} {pos : Nat} (h : (p.ref r).line ≤ pos + 1) :
    let m := p.raiseLines r (min pos (p.ref r).family.lines)
    p.passLines r pos = m.setRef r { m.ref r with line := pos + 1 } := by
  obtain ⟨a, b, e, hb⟩ := p.raiseLines_counters r (min pos (p.ref r).family.lines)
  have line : max ((p.raiseLines r (min pos (p.ref r).family.lines)).ref r).line (pos + 1) = pos + 1 := by
    rw [e]
    have behind : b ≤ pos + 1 := by omega
    exact Nat.max_eq_right behind
  simp only [Plant.passLines, Plant.modRef, line]

theorem near_iff (a b : Nat) : near a b = true ↔ a ≤ b + 8 ∧ b ≤ a + 8 := by simp [near]

/-- R3: LOCKED, a pulse near the end of the frame. -/
theorem Plant.pulseAt_ends {p : Plant} {r : RefId} {pos : Nat} (hl : (p.ref r).lock = .locked) (h0 : (p.ref r).line ≤ pos + 1)
    (h1 : (p.ref r).family.lines ≤ pos + 8) (h2 : pos ≤ (p.ref r).family.lines + 8) :
    p.pulseAt r pos = (p.endFrame r 1 pos).modRef r fun x => { x with miss := 0 } := by
  simp only [Plant.pulseAt, if_neg (Nat.not_lt.mpr h0), hl, if_neg (Nat.not_lt.mpr h2), if_pos ((near_iff _ _).mpr ⟨h2, h1⟩)]

/-- R4: LOCKED, a pulse before the end of the frame. -/
theorem Plant.pulseAt_misses {p : Plant} {r : RefId} {pos : Nat} (hl : (p.ref r).lock = .locked) (h0 : (p.ref r).line ≤ pos + 1)
    (h : pos + 8 < (p.ref r).family.lines) : p.pulseAt r pos = (p.passLines r pos).missPulse r := by
  have far : ¬near pos (p.ref r).family.lines = true := fun hn => by rw [near_iff] at hn; omega
  simp only [Plant.pulseAt, if_neg (Nat.not_lt.mpr h0), hl, if_neg (by omega : ¬(p.ref r).family.lines + 8 < pos), if_neg far]

/-- R5, R6: LOST, a pulse in the frame. -/
theorem Plant.pulseAt_lost {p : Plant} {r : RefId} {pos : Nat} (hl : (p.ref r).lock = .lost) (h0 : (p.ref r).line ≤ pos + 1)
    (h : pos ≤ (p.ref r).family.lines) :
    p.pulseAt r pos = if ((p.ref r).pulseLost pos).run = 8 then p.rephase r pos
      else (p.passLines r pos).modRef r fun x => x.pulseLost pos := by
  simp only [Plant.pulseAt, if_neg (Nat.not_lt.mpr h0), hl, if_neg (Nat.not_lt.mpr h)]

/-- R6, R7: REPHASING, a pulse near the prediction. -/
theorem Plant.pulseAt_locks {p : Plant} {r : RefId} {pos : Nat} (hl : (p.ref r).lock = .rephasing) (h0 : (p.ref r).line ≤ pos + 1)
    (h1 : (p.ref r).predicted ≤ pos + 8) (h2 : pos ≤ (p.ref r).predicted + 8) : p.pulseAt r pos = p.relock r pos := by
  simp only [Plant.pulseAt, if_neg (Nat.not_lt.mpr h0), hl, if_neg (Nat.not_lt.mpr h2), if_pos ((near_iff _ _).mpr ⟨h2, h1⟩)]

/-- R7: REPHASING, a pulse before the prediction. -/
theorem Plant.pulseAt_strays {p : Plant} {r : RefId} {pos : Nat} (hl : (p.ref r).lock = .rephasing) (h0 : (p.ref r).line ≤ pos + 1)
    (h : pos + 8 < (p.ref r).predicted) :
    p.pulseAt r pos = (p.passLines r pos).modRef r fun x => { x with run := 1, lastPulse := some (pos : Int) } := by
  have far : ¬near pos (p.ref r).predicted = true := fun hn => by rw [near_iff] at hn; omega
  simp only [Plant.pulseAt, if_neg (Nat.not_lt.mpr h0), hl, if_neg (by omega : ¬(p.ref r).predicted + 8 < pos), if_neg far]

/-- R5: what a pulse while LOST makes of the reference behind the lines passed. -/
theorem Plant.passLines_modRef {p : Plant} {r : RefId} {pos : Nat} (h : (p.ref r).line ≤ pos + 1) (f : Reference → Reference) :
    let m := p.raiseLines r (min pos (p.ref r).family.lines)
    (p.passLines r pos).modRef r f = m.setRef r (f { m.ref r with line := pos + 1 }) := by
  simp only [Plant.passLines_eq h, Plant.modRef, Plant.ref_setRef_same, Plant.setRef_setRef]

/-- R5: the run that a pulse while LOST leaves, and where it is remembered. -/
theorem Reference.pulseLost_eq {x : Reference} {pos k : Nat}
    (inPhase : (∃ o : Int, x.lastPulse = some o ∧ o + x.family.lines ≤ pos + 8 ∧ (pos : Int) ≤ o + x.family.lines + 8) → k = x.run + 1)
    (outOfPhase : (∀ o : Int, x.lastPulse = some o → ¬(o + x.family.lines ≤ pos + 8 ∧ (pos : Int) ≤ o + x.family.lines + 8)) → k = 1) :
    x.pulseLost pos = { x with run := k, lastPulse := some (pos : Int) } := by
  unfold Reference.pulseLost
  by_cases h : x.inPhase pos = true
  · rw [if_pos h, inPhase ((x.inPhase_iff pos).mp h)]
  · rw [if_neg h, outOfPhase fun o ho hr => h ((x.inPhase_iff pos).mpr ⟨o, ho, hr⟩)]

theorem exec_framePulse (r : RefId) (pos : Nat) (s : State) :
    exec (.framePulse r pos) s = .next (s.passed (s.plant.pulseAt r pos)) := rfl

/-- Settles O19, lock state by lock state. -/
theorem pulseMovesLock : Obligations.PulseMovesLock := by
  rintro r pos s h0 _ _ m y rfl rfl hm hy
  obtain ⟨a, b, e, hb⟩ := s.plant.raiseLines_counters r (min pos (s.plant.ref r).family.lines)
  rw [← hm] at e
  refine ⟨fun more => ?_, fun done => ?_, ?_, fun more quiet => ?_, fun locked => ⟨fun h1 h2 => ?_, fun far few => ?_, fun far many => ?_⟩,
    fun lost hp k inPhase outOfPhase => ?_, fun rephasing => ⟨fun h1 h2 => ?_, fun early => ?_⟩⟩
  · rw [hm, Plant.raiseLines_ref, if_neg (Nat.not_le.mpr more), hy, Nat.max_eq_right (Nat.le_of_lt more)]
  · rw [hm, Plant.raiseLines_raised done]
  · rw [hm]
    exact Plant.stillBut_of_base (s.plant.raiseLines_base r _) fun o ho => s.plant.raiseLines_ref_other _ ho
  · refine ⟨s.plant.free + 1, ?_⟩
    rw [hm, Plant.raiseLines_quiet more quiet, hy, Nat.max_eq_right (Nat.le_of_lt more)]
    cases r <;> rfl
  · rw [exec_framePulse, Plant.pulseAt_ends locked h0 h1 h2]
    refine ⟨_, rfl, ?_⟩
    obtain ⟨f1, f2, f3, _, _, f6, f7, f8, _, f10⟩ := s.plant.endFrame_fields r 1 pos
    rw [Plant.modRef_ref]
    refine ⟨f3.trans locked, rfl, f6, f7, f8, f1, f2, f10, Plant.stillBut_of_base (by simp) fun o ho => ?_⟩
    rw [Plant.modRef_ref_other _ _ ho, s.plant.endFrame_ref_other 1 pos ho]
  · have miss : (((s.plant.passLines r pos).ref r).miss) = (s.plant.ref r).miss := by rw [Plant.passLines_ref]
    rw [exec_framePulse, Plant.pulseAt_misses locked h0 far, Plant.missPulse_counts (by omega), miss]
    refine congrArg (Host.Outcome.next ∘ s.passed) ?_
    rw [Plant.passLines_eq h0, Plant.ref_setRef_same, Plant.setRef_setRef, ← hm]
  · have miss : (((s.plant.passLines r pos).ref r).miss) = (s.plant.ref r).miss := by rw [Plant.passLines_ref]
    refine ⟨_, rfl, ?_⟩
    rw [exec_framePulse, Plant.pulseAt_misses locked h0 far, Plant.missPulse_loses (by omega), ← Plant.tellReference_eq]
    refine congrArg (fun q : Plant => Host.Outcome.next (s.passed (q.tellReference r))) ?_
    rw [Plant.passLines_eq h0, Plant.ref_setRef_same, Plant.setRef_setRef, ← hm]
  · have run := Reference.pulseLost_eq inPhase outOfPhase
    have runs : ((s.plant.ref r).pulseLost pos).run = k := by rw [run]
    have behind : ({ m.ref r with line := pos + 1 } : Reference).pulseLost pos =
        { m.ref r with run := k, lastPulse := some (pos : Int), line := pos + 1 } := by
      rw [e]
      exact Reference.pulseLost_eq inPhase outOfPhase
    rw [exec_framePulse, Plant.pulseAt_lost lost h0 hp, runs]
    refine ⟨fun hk => ?_, fun hk late => ?_, fun hk early => ?_⟩
    · rw [if_neg hk, Plant.passLines_modRef h0, ← hm, behind]
    · rw [if_pos hk, Plant.rephase, if_pos late]
      exact ⟨_, rfl, s.plant.relock_fields r pos⟩
    · rw [if_pos hk, Plant.rephase, if_neg (Nat.not_le.mpr early), Plant.passLines_modRef h0, ← hm, behind, hk]
  · rw [exec_framePulse, Plant.pulseAt_locks rephasing h0 h1 h2]
    exact ⟨_, rfl, s.plant.relock_fields r pos⟩
  · rw [exec_framePulse, Plant.pulseAt_strays rephasing h0 early, Plant.passLines_modRef h0, ← hm]

/-! ## Frame ends without a pulse -/

/-- R4: the reference after the close of the pulse window, before its missed pulse is counted. -/
theorem Plant.windowClose_eq {p : Plant} {r : RefId} (h : (p.ref r).lock = .locked) :
    p.windowClose r = ((p.endFrame r 9 (p.ref r).family.lines).raiseLines r 8).missPulse r := if_pos h

theorem Plant.missPulse_fields (p : Plant) (r : RefId) :
    let y := (p.missPulse r).ref r
    y.family = (p.ref r).family ∧ y.line = (p.ref r).line ∧ y.raised = (p.ref r).raised ∧ y.label = (p.ref r).label ∧
      y.station = (p.ref r).station ∧ y.miss = min 3 ((p.ref r).miss + 1) ∧
      ((p.ref r).miss < 2 → y.lock = (p.ref r).lock) ∧
      (2 ≤ (p.ref r).miss → y.lock = .lost ∧ y.run = 0 ∧ (p.missPulse r).referenceNotice r ∈ (p.missPulse r).notices) := by
  rcases Nat.lt_or_ge (p.ref r).miss 2 with h | h
  · have count : min 3 ((p.ref r).miss + 1) = (p.ref r).miss + 1 := by omega
    rw [Plant.missPulse_counts h, Plant.ref_setRef_same, count]
    exact ⟨rfl, rfl, rfl, rfl, rfl, rfl, fun _ => rfl, fun h2 => absurd h2 (Nat.not_le.mpr h)⟩
  · have count : min 3 ((p.ref r).miss + 1) = 3 := by omega
    have told := Plant.tellReference_told (p.setRef r { p.ref r with miss := 3, lock := .lost, run := 0, lastPulse := none }) r
    rw [Plant.missPulse_loses h, Plant.tellReference_ref, Plant.ref_setRef_same, count]
    exact ⟨rfl, rfl, rfl, rfl, rfl, rfl, fun h2 => absurd h (Nat.not_le.mpr h2), fun _ => ⟨rfl, rfl, told⟩⟩

theorem Plant.windowClose_ref_other (p : Plant) {r o : RefId} (h : o ≠ r) : (p.windowClose r).ref o = p.ref o := by
  by_cases hl : (p.ref r).lock = .locked
  · rw [Plant.windowClose_eq hl, Plant.missPulse_ref_other _ h, Plant.raiseLines_ref_other _ _ h, Plant.endFrame_ref_other _ _ _ h]
  · rw [Plant.windowClose, if_neg hl]

/-- Settles O20, end by end. -/
theorem framesEndWithoutPulse : Obligations.FramesEndWithoutPulse := by
  rintro r s _ rfl
  refine ⟨fun locked => ⟨s.plant.windowClose r, rfl, ?_⟩, fun other => ?_, fun rephasing => ⟨s.plant.rephaseClose r, rfl, ?_⟩,
    fun other => ?_, fun lost => ⟨s.plant.crystalEnd r, rfl, ?_⟩, fun other => ?_, fun lost => ?_, fun other => ?_,
    fun l unlabelled => ?_, fun l k labelled => ?_⟩
  · obtain ⟨f1, _, f3, f4, _, f6, f7, f8, _, f10⟩ := s.plant.endFrame_fields r 9 (s.plant.ref r).family.lines
    have lines : ((s.plant.endFrame r 9 (s.plant.ref r).family.lines).raiseLines r 8).ref r =
        { (s.plant.endFrame r 9 (s.plant.ref r).family.lines).ref r with raised := 8, line := 9 } := by
      rw [Plant.raiseLines_ref, if_neg (by omega), f6]
      rfl
    obtain ⟨g1, g2, g3, g4, g5, g6, g7, g8⟩ := Plant.missPulse_fields
      ((s.plant.endFrame r 9 (s.plant.ref r).family.lines).raiseLines r 8) r
    have still : s.plant.StillBut (s.plant.windowClose r) r :=
      Plant.stillBut_of_base (s.plant.windowClose_base r) fun o ho => s.plant.windowClose_ref_other ho
    rw [lines] at g1 g2 g3 g4 g5 g6 g7 g8
    rw [Plant.windowClose_eq locked] at still ⊢
    exact ⟨g2, g3, g6.trans (by rw [f4]), g1.trans f1, g4.trans f8, fun h => (g7 (f4 ▸ h)).trans (f3.trans locked),
      fun h => g8 (f4.symm ▸ h), fun h => g5.trans (f10 h).1, still⟩
  · exact congrArg (Host.Outcome.next ∘ s.passed) (if_neg other : s.plant.windowClose r = s.plant)
  · obtain ⟨f1, _, _, _, f5, f6, f7, _, _, f10⟩ := s.plant.endFrame_fields r 1 ((s.plant.ref r).predicted + 8)
    have still : s.plant.StillBut (s.plant.rephaseClose r) r :=
      Plant.stillBut_of_base (s.plant.rephaseClose_base r) fun o ho => by
        rw [Plant.rephaseClose, if_pos rephasing, Plant.modRef_ref_other _ _ ho, Plant.endFrame_ref_other _ _ _ ho]
    rw [Plant.rephaseClose, if_pos rephasing] at still ⊢
    rw [Plant.modRef_ref]
    exact ⟨f6, f7, rfl, f1, by rw [f5], fun h => (f10 h).1, still⟩
  · exact congrArg (Host.Outcome.next ∘ s.passed) (if_neg other : s.plant.rephaseClose r = s.plant)
  · obtain ⟨f1, _, f3, f4, f5, f6, f7, _, f9, f10⟩ := s.plant.endFrame_fields r 1 (s.plant.ref r).family.lines
    have still : s.plant.StillBut (s.plant.crystalEnd r) r :=
      Plant.stillBut_of_base (s.plant.crystalEnd_base r) fun o ho => by
        rw [Plant.crystalEnd, if_pos lost, Plant.endFrame_ref_other _ _ _ ho]
    rw [Plant.crystalEnd, if_pos lost] at still ⊢
    exact ⟨f6, f7, f3.trans lost, f4, f5, f1, f9, fun h => (f10 h).1, still⟩
  · exact congrArg (Host.Outcome.next ∘ s.passed) (if_neg other : s.plant.crystalEnd r = s.plant)
  · exact congrArg (Host.Outcome.next ∘ s.passed) (if_pos lost : s.plant.runLapse r = _)
  · exact congrArg (Host.Outcome.next ∘ s.passed) (if_neg other : s.plant.runLapse r = s.plant)
  · refine congrArg (Host.Outcome.next ∘ s.passed) (?_ : s.plant.modRef r (Reference.keepLabel l) = _)
    simp only [Plant.modRef, Reference.keepLabel, unlabelled]
  · refine congrArg (Host.Outcome.next ∘ s.passed) (?_ : s.plant.modRef r (Reference.keepLabel l) = _)
    simp only [Plant.modRef, Reference.keepLabel, labelled, Plant.setRef_self]

end Sys2Proof.Machine
end

