-- ==== Sys2Proof/Proofs/DayRoll.lean ====
section
/-! PROOFS. The day roll (R17): the channel that rolls, the ports that hold its commands, and what stands. -/

namespace Sys2Proof.Machine

/-! ## What a channel's configuration decides -/

theorem Plant.family_of_config {p q : Plant} {c : Chan} (h : q.config c = p.config c) (hr : ∀ r, q.ref r = p.ref r) :
    q.family c = p.family c := by
  simp only [Plant.family, h, hr]

theorem Plant.lead_of_config {p q : Plant} {c : Chan} (h : q.config c = p.config c) : q.lead c = p.lead c := by
  simp only [Plant.lead, h]

/-- R32: what a resolution pass makes of the channel, whose configuration it reads. -/
theorem Plant.resolve_chan (p : Plant) (c : Chan) : (p.resolve c).chan c =
    { p.chan c with playlist := resolveList (4 * (p.family c).fpd) ((p.chan c).now + p.lead c) (p.chan c).playlist } := by
  simp [Plant.resolve]

theorem Plant.resolve_other (p : Plant) {c d : Chan} (h : d ≠ c) : (p.resolve c).chan d = p.chan d := p.chan_modChan_other _ h

/-! ## The roll -/

/-- R17: a channel one day on. -/
def Channel.roll (d : Nat) (x : Channel) : Channel := { x.shift d with baseDay := (x.baseDay + 1) % 65536 }

/-- R17: the plant with one channel and its commands one day on, before the resolution. -/
def Plant.rolled (p : Plant) (c : Chan) : Plant :=
  (p.modChan c (Channel.roll (p.family c).fpd)).mapPorts (Port.shiftFor (p.family c).fpd c)

theorem Plant.rolled_chan (p : Plant) (c : Chan) : (p.rolled c).chan c = (p.chan c).roll (p.family c).fpd := p.chan_modChan_same c _

theorem Plant.rolled_other (p : Plant) {c d : Chan} (h : d ≠ c) : (p.rolled c).chan d = p.chan d := p.chan_modChan_other _ h

theorem Plant.rolled_ref (p : Plant) (c : Chan) (r : RefId) : (p.rolled c).ref r = p.ref r := by cases r <;> rfl

theorem Plant.rolled_config (p : Plant) (c : Chan) : (p.rolled c).config c = p.config c := by
  rw [Plant.config, Plant.rolled_chan]
  rfl

theorem Plant.rollIfDue_stands {p : Plant} {c : Chan} (h : (p.chan c).mode = .idle ∨ (p.chan c).now < 2 * (p.family c).fpd) :
    p.rollIfDue c = p := if_pos h

theorem Plant.rollIfDue_due {p : Plant} {c : Chan} (hm : (p.chan c).mode ≠ .idle) (hn : 2 * (p.family c).fpd ≤ (p.chan c).now) :
    p.rollIfDue c = ((p.rolled c).resolve c).notify .dayRolled (some c) (u16 ((p.rolled c).chan c).baseDay) :=
  if_neg fun h => h.elim hm (Nat.not_lt.mpr hn)

/-- R17: the channel after the roll: all of it a day on, and its playlist resolved. -/
theorem Plant.rollIfDue_chan {p : Plant} {c : Chan} (hm : (p.chan c).mode ≠ .idle) (hn : 2 * (p.family c).fpd ≤ (p.chan c).now) :
    (p.rollIfDue c).chan c = { (p.chan c).roll (p.family c).fpd with
      playlist := resolveList (4 * (p.family c).fpd) ((p.chan c).now - (p.family c).fpd + p.lead c)
        ((p.chan c).playlist.map (Event.shift (p.family c).fpd)) } := by
  have chan : (p.rollIfDue c).chan c = ((p.rolled c).resolve c).chan c := by
    rw [Plant.rollIfDue_due hm hn]
    rfl
  rw [chan, Plant.resolve_chan, Plant.rolled_chan, Plant.family_of_config (p.rolled_config c) (p.rolled_ref c),
    Plant.lead_of_config (p.rolled_config c)]
  rfl

/-- Settles O22: below two days and in IDLE the branch that does nothing, and otherwise the roll. -/
theorem dayRollShiftsChannel : Obligations.DayRollShiftsChannel := by
  rintro c s _ _ rfl rfl
  refine ⟨fun h => congrArg (Host.Outcome.next ∘ s.passed) (Plant.rollIfDue_stands h), fun hm hn => ?_⟩
  have chan := Plant.rollIfDue_chan hm hn
  have due := Plant.rollIfDue_due hm hn
  have other : s.plant.OtherChans (s.plant.rollIfDue c) c := fun d hd => by
    rw [due]
    exact (Plant.resolve_other _ hd).trans (s.plant.rolled_other hd)
  have port : ∀ i, (s.plant.rollIfDue c).port i = (s.plant.port i).shiftFor (s.plant.family c).fpd c := fun i => by
    rw [due]
    exact (s.plant.modChan c _).port_mapPorts _ i
  have day : ((s.plant.rolled c).chan c).baseDay = ((s.plant.chan c).baseDay + 1) % 65536 := by
    rw [Plant.rolled_chan]
    rfl
  refine ⟨s.plant.rollIfDue c, _, rfl, chan, rfl, rfl, rfl, ?_, rfl, rfl, rfl, rfl, rfl, rfl, rfl, rfl, rfl, rfl, rfl, rfl, rfl, rfl, rfl,
    port, ?_, ?_, ?_, Plant.still_of_rest (s.plant.rollIfDue_rest c), other⟩
  · simp [Channel.roll, Channel.shift]
  · rw [due]; rfl
  · rw [due]; rfl
  · rw [due]
    exact congrArg (fun n => s.plant.outbox ++ [Outgoing.notice ⟨.dayRolled, some c, u16 n⟩]) day

end Sys2Proof.Machine
end

