-- ==== Sys2Proof/Proofs/Pass.lean ====
section
/-! PROOFS. One resolution pass (section 2.6): where it places the last event, what a walk back does to the events before it, and
the order in which it leaves the unmarked ones. -/

namespace Sys2Proof.Machine

/-! ## The pass, one event at a time -/

theorem resolveList_snoc (window floor : Nat) (l : List Event) (e : Event) :
    resolveList window floor (l ++ [e]) = (visit window floor (resolveList window floor l).reverse e).reverse := by
  simp [resolveList]

/-- R32: the previous end is that of the last unmarked event of the list resolved so far. -/
theorem prevEnd_reverse (r : List Event) : prevEnd r.reverse = ((r.filter Event.unmarked).getLast?).map (·.rend) := by
  rw [prevEnd, List.getLast?_eq_head?_reverse, ← List.filter_reverse, List.head?_filter]

theorem visit_follow {window floor : Nat} {done : List Event} {e : Event} (hc : e.cue = .pending) (hr : e.rule = .follow) :
    visit window floor done e = e.place window (max ((prevEnd done).getD e.rstart) floor) :: done := by
  simp only [visit, hc, hr]

theorem visit_soft {window floor t : Nat} {done : List Event} {e : Event} (hc : e.cue = .pending) (hr : e.rule = .fixedSoft)
    (ht : e.labelCtf = some t) :
    visit window floor done e = e.place window (max t (max ((prevEnd done).getD 0) floor)) :: done := by
  simp only [visit, hc, hr, ht, Option.getD_some]

theorem visit_hard {window floor t h : Nat} {done : List Event} {e : Event} (hc : e.cue = .pending) (hr : e.rule = .fixedHard)
    (ht : e.labelCtf = some t) (hh : h = max t floor) : visit window floor done e =
      e.place window (hardStart floor h done) :: walkBack h (min window (hardStart floor h done)) done := by
  simp only [visit, hc, hr, ht, Option.getD_some, hh]

theorem visit_skipped {window floor : Nat} {done : List Event} {e : Event} (hc : e.cue = .skipped) :
    visit window floor done e = e :: done := by simp only [visit, hc]

theorem visit_frozen {window floor : Nat} {done : List Event} {e : Event} (hs : e.cue ≠ .skipped) (hp : e.cue ≠ .pending) :
    visit window floor done e =
      { e with rend := endOf window e.rstart e.duration e.cut } :: walkBack e.rstart e.rstart done := by
  unfold visit
  split
  · next h => exact absurd h hs
  · next h => exact absurd h hp
  · rfl

/-! ## The walk back (R37 to R39) -/

theorem Event.not_passed {e : Event} (hs : e.cue ≠ .skipped) (h : e.cue = .pending → e.eclipsed = false) : ¬e.passed = true := by
  simp only [Event.passed, Bool.or_eq_true, Bool.and_eq_true, beq_iff_eq]
  rintro (h' | ⟨hp, he⟩)
  · exact hs h'
  · exact Bool.false_ne_true ((h hp).symm.trans he)

theorem Event.under_iff {e : Event} {h : Nat} : e.under h = true ↔ e.cue = .pending ∧ h ≤ e.rstart := by simp [Event.under]

theorem Event.cutAt_late {e : Event} {h : Nat} (le : e.rend ≤ h) : e.cutAt h = e := if_neg (Nat.not_lt.mpr le)

theorem Event.cutAt_early {e : Event} {h : Nat} (lt : h < e.rend) : e.cutAt h = { e with cut := some h, rend := h } := if_pos lt

/-- A walk back over events none of which reaches past it changes none of them. -/
theorem walkBack_below {h place : Nat} {l : List Event}
    (hl : ∀ k ∈ l, k.rend ≤ place ∧ (k.cue = .pending → k.rstart < h)) : walkBack h place l = l := by
  induction l with
  | nil => rfl
  | cons k l ih =>
    obtain ⟨ends, starts⟩ := hl k List.mem_cons_self
    have rest := ih fun j hj => hl j (List.mem_cons_of_mem _ hj)
    have out : ¬k.under h = true := fun hu => by
      obtain ⟨hp, hh⟩ := Event.under_iff.mp hu
      exact absurd (starts hp) (Nat.not_lt.mpr hh)
    rw [walkBack, rest, if_neg out, Event.cutAt_late ends, ite_self]

/-- R37: the events at or after the walk's start are eclipsed one after another. -/
theorem walkBack_eclipses {h place : Nat} {l : List Event} (hl : ∀ j ∈ l, j.cue = .pending ∧ j.eclipsed = false ∧ h ≤ j.rstart)
    (m : List Event) : walkBack h place (l ++ m) = l.map (Event.eclipse place) ++ walkBack h place m := by
  induction l with
  | nil => rfl
  | cons j l ih =>
    obtain ⟨hp, he, hh⟩ := hl j List.mem_cons_self
    have open' : ¬j.passed = true := Event.not_passed (by rw [hp]; decide) fun _ => he
    rw [List.cons_append, walkBack, if_neg open', if_pos (Event.under_iff.mpr ⟨hp, hh⟩),
      ih fun i hi => hl i (List.mem_cons_of_mem _ hi)]
    rfl

theorem stopOf_eclipses {h : Nat} {l : List Event} (hl : ∀ j ∈ l, j.cue = .pending ∧ j.eclipsed = false ∧ h ≤ j.rstart)
    (m : List Event) : stopOf h (l ++ m) = stopOf h m := by
  induction l with
  | nil => rfl
  | cons j l ih =>
    obtain ⟨hp, -, hh⟩ := hl j List.mem_cons_self
    have under : (j.passed || j.under h) = true := by rw [Event.under_iff.mpr ⟨hp, hh⟩, Bool.or_true]
    rw [List.cons_append, stopOf, if_pos under, ih fun i hi => hl i (List.mem_cons_of_mem _ hi)]

theorem stopOf_stop {h : Nat} {k : Event} (m : List Event) (hp : ¬k.passed = true) (hu : ¬k.under h = true) :
    stopOf h (k :: m) = some k := by
  rw [stopOf, if_neg (by simp [hp, hu])]

theorem mem_of_stopOf {h : Nat} {l : List Event} {k : Event} (hk : stopOf h l = some k) : k ∈ l := by
  induction l with
  | nil => cases hk
  | cons e l ih =>
    rw [stopOf] at hk
    split at hk
    · exact List.mem_cons_of_mem _ (ih hk)
    · cases hk
      exact List.mem_cons_self

/-- R38: no event reaches past the hard start, and it stays. -/
theorem hardStart_below {floor h : Nat} {l : List Event} (hl : ∀ k ∈ l, k.rend ≤ h) : hardStart floor h l = h := by
  unfold hardStart
  split
  · next k hk => exact if_neg (by simp [Nat.not_lt.mpr (hl k (mem_of_stopOf hk))])
  · rfl

/-! ## A pending event placed (R33 to R36, R40, R41) -/

/-- What the pass places of an event. -/
def Event.unplaced (e : Event) : Event :=
  { e with rstart := 0, rend := 0, cut := none, eclipsed := false, beyond := false, late := false }

theorem Event.place_unplaced (window start : Nat) (e : Event) : (e.place window start).unplaced = e.unplaced := by
  unfold Event.place
  split <;> rfl

theorem Event.place_marks (window start : Nat) (e : Event) :
    (e.place window start).cut = none ∧ (e.place window start).eclipsed = false ∧
    (e.place window start).late = (e.rule == .fixedHard && decide (e.labelCtf.getD 0 < start)) := by
  unfold Event.place
  split <;> exact ⟨rfl, rfl, rfl⟩

theorem Event.place_inside {window start : Nat} (e : Event) (h : start < window) :
    (e.place window start).beyond = false ∧ (e.place window start).rstart = start ∧
    (e.place window start).rend = min window (start + e.duration) := by
  rw [Event.place, if_neg (Nat.not_le.mpr h)]
  exact ⟨rfl, rfl, rfl⟩

theorem Event.place_beyond {window start : Nat} (e : Event) (h : window ≤ start) :
    (e.place window start).beyond = true ∧ (e.place window start).rstart = window ∧ (e.place window start).rend = window := by
  rw [Event.place, if_pos h]
  exact ⟨rfl, rfl, rfl⟩

/-- R36: LATE is the mark of a hard start after its label. -/
theorem Event.place_late {window start : Nat} {e : Event} (ht : e.rule = .fixedHard → ∃ t, e.labelCtf = some t) :
    (e.place window start).late = true ↔ e.rule = .fixedHard ∧ ∃ t, e.labelCtf = some t ∧ t < start := by
  rw [(e.place_marks window start).2.2, Bool.and_eq_true, beq_iff_eq, decide_eq_true_iff]
  refine and_congr_right fun hr => ?_
  obtain ⟨t, ht⟩ := ht hr
  simp [ht]

/-- A start that the rule of a pending event gives, where no event reaches past a hard one. -/
theorem visit_places {window floor start : Nat} {r : List Event} {e : Event} (hc : e.cue = .pending)
    (h : (e.rule = .follow ∧ start = max ((prevEnd r.reverse).getD e.rstart) floor) ∨
      (e.rule = .fixedSoft ∧ ∃ t, e.labelCtf = some t ∧ start = max t (max ((prevEnd r.reverse).getD 0) floor)) ∨
      (e.rule = .fixedHard ∧ ∃ t, e.labelCtf = some t ∧ start = max t floor ∧
        ∀ k ∈ r, k.cue ≠ .skipped ∧ k.rend ≤ start ∧ k.rend ≤ window ∧ (k.cue = .pending → k.rstart < start))) :
    visit window floor r.reverse e = e.place window start :: r.reverse := by
  rcases h with ⟨hr, rfl⟩ | ⟨hr, t, ht, rfl⟩ | ⟨hr, t, ht, hs, below⟩
  · exact visit_follow hc hr
  · exact visit_soft hc hr ht
  · have below' : ∀ k ∈ r.reverse, _ := fun k hk => below k (List.mem_reverse.mp hk)
    rw [visit_hard hc hr ht hs, hardStart_below fun k hk => (below' k hk).2.1,
      walkBack_below fun k hk => ⟨le_min (below' k hk).2.2.1 (below' k hk).2.1, (below' k hk).2.2.2⟩]

/-- Settles O35: the last event is visited last, with what the pass has made of the others behind it. -/
theorem passPlacesLastEvent : Obligations.PassPlacesLastEvent := by
  rintro window floor l r e prev rfl rfl
  rw [← prevEnd_reverse]
  refine ⟨fun start hc h => ?_, fun hs => ?_, fun hs hp => ?_⟩
  · have labelled : e.rule = .fixedHard → ∃ t, e.labelCtf = some t := by
      rintro hr
      rcases h with ⟨hr', -⟩ | ⟨hr', -⟩ | ⟨-, t, ht, -⟩
      · exact absurd (hr.symm.trans hr') (by decide)
      · exact absurd (hr.symm.trans hr') (by decide)
      · exact ⟨t, ht⟩
    obtain ⟨cut, eclipsed, -⟩ := e.place_marks window start
    refine ⟨e.place window start, ?_, e.place_unplaced window start, cut, eclipsed, e.place_inside, e.place_beyond,
      Event.place_late labelled⟩
    rw [resolveList_snoc, visit_places hc h, List.reverse_cons, List.reverse_reverse]
  · rw [resolveList_snoc, visit_skipped hs, List.reverse_cons, List.reverse_reverse]
  · refine ⟨(walkBack e.rstart e.rstart (resolveList window floor l).reverse).reverse, ?_, ?_, fun below => ?_⟩
    · rw [resolveList_snoc, visit_frozen hs hp, List.reverse_cons]
      rfl
    · have ids := idsOf_walkBack e.rstart e.rstart (resolveList window floor l).reverse
      simp only [idsOf, List.map_reverse] at ids ⊢
      rw [ids, List.reverse_reverse]
    · rw [walkBack_below fun k hk => below k (List.mem_reverse.mp hk), List.reverse_reverse]

/-- Settles O36: the walk eclipses the later neighbours, stops at the event in which the hard start falls, and cuts it. -/
theorem hardStartCuts : Obligations.HardStartCuts := by
  rintro window floor t h start l before after k e hr hc hrule ht hh reach later stop hw hcut
  have done : (resolveList window floor l).reverse = after.reverse ++ k :: before.reverse := by simp [hr]
  have later' : ∀ j ∈ after.reverse, _ := fun j hj => later j (List.mem_reverse.mp hj)
  have open' : ¬k.passed = true := by
    rcases stop with ⟨hp, he, -⟩ | ⟨hf, -⟩
    · exact Event.not_passed (by rw [hp]; decide) fun _ => he
    · exact Event.not_passed (by rcases hf with hf | hf | hf <;> rw [hf] <;> decide)
        (fun hp => by rcases hf with hf | hf | hf <;> rw [hf] at hp <;> cases hp)
  have above : ¬k.under h = true := fun hu => by
    obtain ⟨hp, hle⟩ := Event.under_iff.mp hu
    rcases stop with ⟨-, -, hlt, -⟩ | ⟨hf, -⟩
    · omega
    · rcases hf with hf | hf | hf <;> rw [hf] at hp <;> cases hp
  have moved : hardStart floor h (resolveList window floor l).reverse = start := by
    rw [hardStart, done, stopOf_eclipses later', stopOf_stop _ open' above]
    rcases stop with ⟨hp, -, -, hs⟩ | ⟨hf, hs⟩
    · exact (if_neg (by simp [Event.frozen, hp])).trans hs.symm
    · have frozen : k.frozen = true := by rcases hf with hf | hf | hf <;> simp [Event.frozen, hf]
      exact (if_pos (by simp [frozen, reach])).trans hs.symm
  obtain ⟨beyond, rstart, rend⟩ := e.place_inside hw
  refine ⟨e.place window start, ?_, e.place_id window start, rstart, rend, (e.place_marks window start).2.1, beyond, ?_⟩
  · rw [resolveList_snoc, visit_hard hc hrule ht hh, moved, done, Nat.min_eq_right hw.le, walkBack_eclipses later', walkBack,
      if_neg open', if_neg above, Event.cutAt_early hcut]
    simp [Event.eclipse]
  · rw [Event.place_late fun _ => ⟨t, ht⟩]
    simp [hrule, ht]

end Sys2Proof.Machine
end

