-- ==== Sys2Proof/Proofs/PassOrder.lean ====
section
/-! PROOFS. The order in which a resolution pass leaves the unmarked events (R32), as an invariant of the pass: the events visited
so far, nearest first, each end where the one after it starts or before. -/

namespace Sys2Proof.Machine

/-- R32 to R41: one event as a pass leaves it. -/
structure Event.Fits (window floor : Nat) (e : Event) : Prop where
  inside : e.unmarked = true → e.rstart ≤ e.rend ∧ e.rend ≤ window
  frozen : e.cue ≠ .pending → e.cue ≠ .skipped → e.unmarked = true
  above : e.cue = .pending → floor ≤ e.rstart ∨ e.eclipsed = true ∨ e.beyond = true
  outside : e.cue = .pending → e.beyond = true → window ≤ e.rstart

/-- R32: the events visited, nearest first, as a pass leaves them. -/
structure Settled (window floor : Nat) (done : List Event) : Prop where
  fits : ∀ e ∈ done, e.Fits window floor
  order : (done.filter Event.unmarked).Pairwise fun a b => b.rend ≤ a.rstart

/-- No event of a list ends after a frame. -/
def EndBy (place : Nat) (l : List Event) : Prop := ∀ e ∈ l, e.unmarked = true → e.rend ≤ place

theorem settled_nil (window floor : Nat) : Settled window floor [] := ⟨by simp, by simp⟩

theorem Settled.tail {window floor : Nat} {e : Event} {l : List Event} (h : Settled window floor (e :: l)) :
    Settled window floor l :=
  ⟨fun k hk => h.fits k (List.mem_cons_of_mem _ hk), h.order.sublist ((List.sublist_cons_self e l).filter _)⟩

theorem settled_cons {window floor : Nat} {e : Event} {l : List Event} (he : e.Fits window floor) (hl : Settled window floor l)
    (ends : e.unmarked = true → EndBy e.rstart l) : Settled window floor (e :: l) := by
  refine ⟨fun k hk => ?_, ?_⟩
  · rcases List.mem_cons.mp hk with rfl | hk
    · exact he
    · exact hl.fits k hk
  · rcases Decidable.em (e.unmarked = true) with hu | hu
    · rw [List.filter_cons_of_pos hu]
      refine List.Pairwise.cons (fun k hk => ?_) hl.order
      obtain ⟨hm, hk⟩ := List.mem_filter.mp hk
      exact ends hu k hm hk
    · rw [List.filter_cons_of_neg hu]
      exact hl.order

/-- What is behind an unmarked event ends before it starts. -/
theorem Settled.endBy {window floor : Nat} {e : Event} {l : List Event} (h : Settled window floor (e :: l)) (hu : e.unmarked = true) :
    EndBy e.rstart l := fun k hk hk' =>
  (List.pairwise_cons.mp ((List.filter_cons_of_pos hu (l := l)) ▸ h.order)).1 k (List.mem_filter.mpr ⟨hk, hk'⟩)

theorem EndBy.mono {place later : Nat} {l : List Event} (h : EndBy place l) (le : place ≤ later) : EndBy later l := fun e he hu =>
  (h e he hu).trans le

theorem Settled.endBy_window {window floor : Nat} {l : List Event} (h : Settled window floor l) : EndBy window l := fun e he hu =>
  ((h.fits e he).inside hu).2

/-- Everything visited ends by the previous end (R32). -/
theorem Settled.endBy_prevEnd {window floor : Nat} {l : List Event} (h : Settled window floor l) (n : Nat) :
    EndBy ((prevEnd l).getD n) l := by
  induction l with
  | nil => exact fun e he => absurd he List.not_mem_nil
  | cons e l ih =>
    intro k hk hu
    rcases Decidable.em (e.unmarked = true) with he | he
    · have found : prevEnd (e :: l) = some e.rend := by simp [prevEnd, he]
      rw [found, Option.getD_some]
      rcases List.mem_cons.mp hk with rfl | hk
      · exact le_rfl
      · exact (h.endBy he k hk hu).trans ((h.fits e List.mem_cons_self).inside he).1
    · have behind : prevEnd (e :: l) = prevEnd l := by simp [prevEnd, he]
      rw [behind]
      rcases List.mem_cons.mp hk with rfl | hk
      · exact absurd hu he
      · exact ih h.tail k hk hu

/-! ## The walk back -/

theorem Event.eclipse_fits (window floor place : Nat) {e : Event} (h : e.cue = .pending) : (e.eclipse place).Fits window floor :=
  ⟨fun hu => by simp [Event.eclipse, Event.unmarked] at hu, fun hp => absurd h hp, fun _ => .inr (.inl rfl),
    fun _ hb => by simp [Event.eclipse] at hb⟩

theorem Event.cutAt_unmarked (h : Nat) (e : Event) : (e.cutAt h).unmarked = e.unmarked := by unfold Event.cutAt; split <;> rfl

theorem Event.cutAt_rstart (h : Nat) (e : Event) : (e.cutAt h).rstart = e.rstart := by unfold Event.cutAt; split <;> rfl

theorem Event.cutAt_rend (h : Nat) (e : Event) : (e.cutAt h).rend = min e.rend h := by
  unfold Event.cutAt
  split
  · next lt => exact (min_eq_right (Nat.le_of_lt lt)).symm
  · next ge => exact (min_eq_left (Nat.not_lt.mp ge)).symm

theorem Event.cutAt_fits {window floor place : Nat} {e : Event} (h : e.Fits window floor)
    (starts : e.unmarked = true → e.rstart ≤ place ∨ e.rend ≤ place) : (e.cutAt place).Fits window floor := by
  obtain ⟨inside, frozen, above, outside⟩ := h
  rcases Decidable.em (place < e.rend) with hlt | hlt
  · rw [Event.cutAt_early hlt]
    refine ⟨fun hu => ?_, frozen, above, outside⟩
    obtain ⟨-, le⟩ := inside hu
    rcases starts hu with hs | hs
    · exact ⟨hs, hlt.le.trans le⟩
    · exact absurd hs (Nat.not_le.mpr hlt)
  · rw [Event.cutAt_late (Nat.not_lt.mp hlt)]
    exact ⟨inside, frozen, above, outside⟩

theorem Event.marked_of_passed {e : Event} (h : e.passed = true) : ¬e.unmarked = true := by
  simp only [Event.passed, Bool.or_eq_true, Bool.and_eq_true, beq_iff_eq] at h
  rcases h with h | ⟨-, h⟩ <;> simp [Event.unmarked, h]

/-- R37 to R39: a walk back that cuts no event before its start leaves the events visited in order, and ends them where it places. -/
theorem walkBack_settled {window floor h place : Nat} {l : List Event} (hl : Settled window floor l)
    (hh : window < h → window ≤ place)
    (stop : ∀ k, stopOf h l = some k → k.unmarked = true → k.rstart ≤ place ∨ k.rend ≤ place) :
    Settled window floor (walkBack h place l) ∧ EndBy place (walkBack h place l) := by
  induction l with
  | nil => exact ⟨settled_nil _ _, fun e he => absurd he List.not_mem_nil⟩
  | cons e l ih =>
    have fits := hl.fits e List.mem_cons_self
    rw [walkBack]
    split
    · next passed =>
      obtain ⟨settled, ends⟩ := ih hl.tail fun k hk => stop k (by rw [stopOf, passed]; exact hk)
      refine ⟨settled_cons fits settled fun hu => absurd hu (Event.marked_of_passed passed), fun k hk hu => ?_⟩
      rcases List.mem_cons.mp hk with rfl | hk
      · exact absurd hu (Event.marked_of_passed passed)
      · exact ends k hk hu
    · next passed =>
      split
      · next under =>
        obtain ⟨settled, ends⟩ := ih hl.tail fun k hk => stop k (by rw [stopOf, under, Bool.or_true]; exact hk)
        have marked : ¬(e.eclipse place).unmarked = true := by simp [Event.eclipse, Event.unmarked]
        refine ⟨settled_cons (Event.eclipse_fits _ _ _ (Event.under_iff.mp under).1) settled fun hu => absurd hu marked,
          fun k hk hu => ?_⟩
        rcases List.mem_cons.mp hk with rfl | hk
        · exact absurd hu marked
        · exact ends k hk hu
      · next under =>
        have starts := stop e (stopOf_stop l passed under)
        refine ⟨settled_cons (Event.cutAt_fits fits starts) hl.tail fun hu => ?_, fun k hk hu => ?_⟩
        · rw [Event.cutAt_rstart]
          exact hl.endBy ((Event.cutAt_unmarked _ _).symm.trans hu)
        · rcases List.mem_cons.mp hk with rfl | hk
          · rw [Event.cutAt_rend]
            exact min_le_right _ _
          rcases Decidable.em (e.unmarked = true) with he | he
          · have before := hl.endBy he k hk hu
            obtain ⟨le, -⟩ := fits.inside he
            rcases starts he with hs | hs <;> omega
          · -- the walk stops at a marked event only where it is BEYOND the window, and then it cuts nothing
            have notSkipped : e.cue ≠ .skipped := fun h => passed (by simp [Event.passed, h])
            have pending : e.cue = .pending := by_contra fun h => he (fits.frozen h notSkipped)
            have beyond : e.beyond = true := by
              by_contra hb
              have clear : e.eclipsed = false := by
                by_contra hc
                exact passed (by simp [Event.passed, pending, hc])
              exact he (by simp [Event.unmarked, clear, hb, pending])
            have out := fits.outside pending beyond
            have early : e.rstart < h := by
              by_contra hge
              exact under (Event.under_iff.mpr ⟨pending, Nat.not_lt.mp hge⟩)
            exact (hl.tail.endBy_window k hk hu).trans (hh (by omega))

/-! ## The frozen events -/

/-- The starts of the events that a pass leaves where they are. -/
def frozenStarts (l : List Event) : List Nat := (l.filter fun e => e.cue != .pending && e.cue != .skipped).map (·.rstart)

theorem mem_frozenStarts {l : List Event} {e : Event} (he : e ∈ l) (hp : e.cue ≠ .pending) (hs : e.cue ≠ .skipped) :
    e.rstart ∈ frozenStarts l := List.mem_map_of_mem (List.mem_filter.mpr ⟨he, by simp [hp, hs]⟩)

theorem frozenStarts_walkBack (h place : Nat) (l : List Event) : frozenStarts (walkBack h place l) = frozenStarts l := by
  have cut : ∀ e : Event, (e.cutAt place).cue = e.cue := fun e => by unfold Event.cutAt; split <;> rfl
  induction l with
  | nil => rfl
  | cons e l ih =>
    simp only [frozenStarts] at ih
    simp only [walkBack]
    split
    · simp only [frozenStarts, List.filter_cons, apply_ite (List.map fun e : Event => e.rstart), List.map_cons, ih]
    · split
      · next under =>
        -- an eclipsed event is PENDING, before and after
        obtain ⟨pending, -⟩ := Event.under_iff.mp under
        simp [frozenStarts, ih, Event.eclipse, pending]
      · simp only [frozenStarts, List.filter_cons, apply_ite (List.map fun e : Event => e.rstart), List.map_cons, cut,
          Event.cutAt_rstart]

/-! ## One visit -/

theorem place_fits {window floor start : Nat} {e : Event} (hc : e.cue = .pending) (hf : floor ≤ start) :
    (e.place window start).Fits window floor := by
  rcases Nat.lt_or_ge start window with hw | hw
  · obtain ⟨beyond, rstart, rend⟩ := e.place_inside hw
    have cue : (e.place window start).cue = .pending := by rw [Event.place, if_neg (Nat.not_le.mpr hw)]; exact hc
    exact ⟨fun _ => by rw [rstart, rend]; omega, fun h => absurd cue h, fun _ => .inl (by rw [rstart]; exact hf),
      fun _ hb => by rw [beyond] at hb; cases hb⟩
  · obtain ⟨beyond, rstart, rend⟩ := e.place_beyond hw
    have cue : (e.place window start).cue = .pending := by rw [Event.place, if_pos hw]; exact hc
    exact ⟨fun _ => by rw [rstart, rend]; omega, fun h => absurd cue h, fun _ => .inr (.inr beyond), fun _ _ => rstart.ge⟩

/-- A pending event placed where everything before it has ended. -/
theorem settled_place {window floor start : Nat} {e : Event} {l : List Event} (hc : e.cue = .pending) (hl : Settled window floor l)
    (hf : floor ≤ start) (ends : EndBy (min window start) l) : Settled window floor (e.place window start :: l) := by
  refine settled_cons (place_fits hc hf) hl fun hu => ?_
  rcases Nat.lt_or_ge start window with hw | hw
  · rw [(e.place_inside hw).2.1]
    exact ends.mono (min_le_right _ _)
  · rw [(e.place_beyond hw).2.1]
    exact ends.mono (min_le_left _ _)

theorem stopOf_not_under {h : Nat} {l : List Event} {k : Event} (hk : stopOf h l = some k) : ¬k.under h = true := by
  induction l with
  | nil => cases hk
  | cons e l ih =>
    rw [stopOf] at hk
    split at hk
    · exact ih hk
    · next hn =>
      cases hk
      exact fun hu => hn (by rw [hu, Bool.or_true])

/-- R38: the walk of a hard start stops at no event that starts after the hard start's place. -/
theorem stop_before_hardStart {window floor h : Nat} {l : List Event} (hl : Settled window floor l) {k : Event}
    (hk : stopOf h l = some k) (hu : k.unmarked = true) :
    k.rstart ≤ min window (hardStart floor h l) ∨ k.rend ≤ min window (hardStart floor h l) := by
  obtain ⟨le, inside⟩ := (hl.fits k (mem_of_stopOf hk)).inside hu
  have start : hardStart floor h l = if k.frozen && decide (h < k.rend) then max h (max (k.rstart + 1) floor) else h := by
    simp only [hardStart, hk]
  rw [start]
  split
  · exact .inl (by omega)
  · next hn =>
    rcases Nat.lt_or_ge h k.rend with hlt | hge
    · -- not frozen, so the walk stops at a pending event that starts before it
      have frozen : ¬k.frozen = true := fun hf => hn (by simp [hf, hlt])
      have pending : k.cue = .pending := by simpa [Event.frozen] using frozen
      have early : k.rstart < h := by
        by_contra hge
        exact stopOf_not_under hk (Event.under_iff.mpr ⟨pending, Nat.not_lt.mp hge⟩)
      exact .inl (by omega)
    · exact .inr (by omega)

theorem hardStart_ge (floor h : Nat) (l : List Event) : h ≤ hardStart floor h l := by
  unfold hardStart
  split
  · split <;> omega
  · exact le_rfl

/-- R21, R24, R33: what a pass may rely on of a frozen event. -/
def Event.StandsFirm (window : Nat) (e : Event) : Prop :=
  e.cue ≠ .pending → e.cue ≠ .skipped →
    e.eclipsed = false ∧ e.beyond = false ∧ e.rstart ≤ window ∧ ∀ k, e.cut = some k → e.rstart ≤ k

theorem visit_settled {window floor : Nat} {done : List Event} {e : Event} (hd : Settled window floor done)
    (firm : e.StandsFirm window)
    (sorted : e.cue ≠ .pending → e.cue ≠ .skipped → ∀ n ∈ frozenStarts done, n ≤ e.rstart) :
    Settled window floor (visit window floor done e) := by
  rcases Decidable.em (e.cue = .skipped) with hs | hs
  · have marked : ¬e.unmarked = true := by simp [Event.unmarked, hs]
    rw [visit_skipped hs]
    exact settled_cons ⟨fun hu => absurd hu marked, fun _ h => absurd hs h, fun h => by simp [hs] at h, fun h => by simp [hs] at h⟩ hd
      fun hu => absurd hu marked
  rcases Decidable.em (e.cue = .pending) with hc | hc
  · have behind : ∀ n m, EndBy (min window (max n (max ((prevEnd done).getD m) floor))) done := fun n m k hk hu =>
      le_min (hd.endBy_window k hk hu) ((hd.endBy_prevEnd m k hk hu).trans (by omega))
    rcases hr : e.rule with _ | _ | _
    · simp only [visit, hc, hr]
      obtain ⟨settled, ends⟩ := walkBack_settled hd (fun hlt => le_min le_rfl (hlt.le.trans (hardStart_ge _ _ _)))
        fun k => stop_before_hardStart hd
      exact settled_place hc settled ((le_max_right _ _).trans (hardStart_ge _ _ _)) ends
    · simp only [visit, hc, hr]
      exact settled_place hc hd (by omega) (behind _ 0)
    · rw [visit_follow hc hr]
      refine settled_place hc hd (by omega) ?_
      simpa using behind 0 e.rstart
  · obtain ⟨uneclipsed, inside', start, cut⟩ := firm hc hs
    have clear : e.unmarked = true := by simp [Event.unmarked, uneclipsed, inside', hs]
    rw [visit_frozen hs hc]
    have stop : ∀ k, stopOf e.rstart done = some k → k.unmarked = true → k.rstart ≤ e.rstart ∨ k.rend ≤ e.rstart := by
      intro k hk hu
      rcases Decidable.em (k.cue = .pending) with hp | hp
      · have early : ¬e.rstart ≤ k.rstart := fun hle => stopOf_not_under hk (Event.under_iff.mpr ⟨hp, hle⟩)
        exact .inl (by omega)
      · have unskipped : k.cue ≠ .skipped := fun h => by simp [Event.unmarked, h] at hu
        exact .inl (sorted hc hs _ (mem_frozenStarts (mem_of_stopOf hk) hp unskipped))
    obtain ⟨settled, ends⟩ := walkBack_settled hd (fun hlt => absurd hlt (Nat.not_lt.mpr start)) stop
    refine settled_cons ⟨fun _ => ⟨le_min start ?_, min_le_left _ _⟩, fun _ _ => clear, fun h => absurd h hc, fun h => absurd h hc⟩
      settled fun _ => ends
    show e.rstart ≤ match e.cut with | some k => min k (e.rstart + e.duration) | none => e.rstart + e.duration
    split
    · next k hk => exact le_min (cut k hk) (Nat.le_add_right _ _)
    · exact Nat.le_add_right _ _

theorem frozenStarts_cons (e : Event) (l : List Event) :
    frozenStarts (e :: l) = frozenStarts [e] ++ frozenStarts l := by
  simp only [frozenStarts, ← List.map_append, ← List.filter_append, List.singleton_append]

theorem frozenStarts_place (window start : Nat) {e : Event} (h : e.cue = .pending) :
    frozenStarts [e.place window start] = frozenStarts [e] := by
  have cue : (e.place window start).cue = .pending := by unfold Event.place; split <;> exact h
  simp [frozenStarts, h, cue]

theorem frozenStarts_visit (window floor : Nat) (done : List Event) (e : Event) :
    frozenStarts (visit window floor done e) = frozenStarts [e] ++ frozenStarts done := by
  rcases Decidable.em (e.cue = .skipped) with hs | hs
  · rw [visit_skipped hs, frozenStarts_cons]
  rcases Decidable.em (e.cue = .pending) with hc | hc
  · rcases hr : e.rule with _ | _ | _
    · simp only [visit, hc, hr]
      rw [frozenStarts_cons, frozenStarts_place _ _ hc, frozenStarts_walkBack]
    · simp only [visit, hc, hr]
      rw [frozenStarts_cons, frozenStarts_place _ _ hc]
    · rw [visit_follow hc hr, frozenStarts_cons, frozenStarts_place _ _ hc]
  · rw [visit_frozen hs hc, frozenStarts_cons, frozenStarts_walkBack]
    simp [frozenStarts, hs, hc]

/-! ## The whole pass -/

theorem frozenStarts_reverse (l : List Event) : frozenStarts l.reverse = (frozenStarts l).reverse := by
  simp [frozenStarts]

theorem frozenStarts_resolveList (window floor : Nat) (l : List Event) :
    frozenStarts (resolveList window floor l) = frozenStarts l := by
  induction l using List.reverseRecOn with
  | nil => rfl
  | append_singleton l e ih =>
    have one : (frozenStarts [e]).reverse = frozenStarts [e] := (frozenStarts_reverse [e]).symm
    rw [resolveList_snoc, frozenStarts_reverse, frozenStarts_visit, frozenStarts_reverse, ih, List.reverse_append,
      List.reverse_reverse, one]
    simp [frozenStarts]

theorem resolveList_settled {window floor : Nat} {l : List Event} (firm : ∀ e ∈ l, e.StandsFirm window)
    (sorted : (frozenStarts l).Pairwise (· ≤ ·)) : Settled window floor (resolveList window floor l).reverse := by
  induction l using List.reverseRecOn with
  | nil => exact settled_nil _ _
  | append_singleton l e ih =>
    have split : frozenStarts (l ++ [e]) = frozenStarts l ++ frozenStarts [e] := by simp [frozenStarts]
    rw [split, List.pairwise_append] at sorted
    obtain ⟨before, -, last⟩ := sorted
    rw [resolveList_snoc, List.reverse_reverse]
    refine visit_settled (ih (fun k hk => firm k (List.mem_append_left _ hk)) before) (firm e (by simp)) fun hp hs n hn => ?_
    rw [frozenStarts_reverse, frozenStarts_resolveList, List.mem_reverse] at hn
    exact last n hn _ (mem_frozenStarts List.mem_cons_self hp hs)

/-- Settles O34: the list a pass leaves is settled. -/
theorem resolutionKeepsOrder : Obligations.ResolutionKeepsOrder := by
  intro window floor l firm sorted
  have settled := resolveList_settled (floor := floor) firm (List.pairwise_map.mpr sorted)
  have fits : ∀ e ∈ resolveList window floor l, e.Fits window floor := fun e he => settled.fits e (List.mem_reverse.mpr he)
  refine ⟨?_, fun e he => (fits e he).inside, idsOf_resolveList window floor l, fun e he => (fits e he).above⟩
  have order := settled.order
  rwa [List.filter_reverse, List.pairwise_reverse] at order

end Sys2Proof.Machine
end

