-- ==== Sys2Proof/Proofs/StoreOperations.lean ====
section
/-! PROOFS. The Playlist Store's operations one at a time (R20, R23 to R27): the checks of a description, the place of an insertion,
and what a replacement and a deletion leave. -/

namespace Sys2Proof.Machine

/-! ## The checks of a description (R20) -/

theorem checkDesc_unsound {f : Family} {b : Nat} {d : RawDesc} (h : descSound f d = false) :
    checkDesc f b d = .error .badArgument := by
  rw [checkDesc, h]
  rfl

theorem checkDesc_badTime {f : Family} {b : Nat} {d : RawDesc} {t : DayLabel} (h : descSound f d = true) (ht : d.start = some t)
    (hv : t.label.valid f = false) : checkDesc f b d = .error .badTime := by
  simp [checkDesc, h, ht, hv]

theorem checkDesc_outside {f : Family} {b : Nat} {d : RawDesc} {t : DayLabel} (h : descSound f d = true) (ht : d.start = some t)
    (hv : t.label.valid f = true) (hw : ctfOf f b t = none) : checkDesc f b d = .error .outOfWindow := by
  simp [checkDesc, h, ht, hv, hw]

/-- R21: the record made of a description is PENDING and nowhere yet. -/
theorem checkDesc_new {f : Family} {b : Nat} {d : RawDesc} {a : Accepted} (h : checkDesc f b d = .ok a) :
    { a.event with cue := .pending, rstart := 0, rend := 0 } = a.event ∧ a.event.cue = .pending := by
  unfold checkDesc at h
  repeat' split at h
  all_goals cases h
  all_goals exact ⟨rfl, rfl⟩

theorem refused_of_checkDesc {v : PlEnv} {d : RawDesc} {s : Status} (h : checkDesc v.family v.baseDay d = .error s) (l : List Event)
    (free pred : Nat) : plApply v l free (.insert pred d) = .error s ∧ plApply v l free (.replace d) = .error s := by
  simp [plApply, plInsert, plReplace, h]

/-! ## The place of an insertion (R23, R24) -/

theorem splitAfter_head (l : List Event) : splitAfter l 0 = some ([], l) := by unfold splitAfter; rfl

theorem splitAfter_none {l : List Event} {pred : Nat} (hp : pred ≠ 0) (h : ∀ e ∈ l, e.id ≠ pred) : splitAfter l pred = none := by
  induction l with
  | nil => rw [splitAfter, if_neg hp]
  | cons e l ih =>
    have rest := ih fun k hk => h k (List.mem_cons_of_mem _ hk)
    rw [splitAfter, if_neg hp]
    simp [h e List.mem_cons_self, rest]

theorem splitAfter_found {l : List Event} {pred : Nat} (hp : pred ≠ 0) (h : ∃ e ∈ l, e.id = pred) :
    ∃ before after, splitAfter l pred = some (before, after) ∧ before.getLast?.map (·.id) = some pred := by
  induction l with
  | nil => obtain ⟨e, he, -⟩ := h; cases he
  | cons e l ih =>
    rw [splitAfter, if_neg hp]
    rcases Decidable.em (e.id = pred) with he | he
    · exact ⟨[e], l, by simp [he], by simp [he]⟩
    · obtain ⟨k, hk, hid⟩ := h
      have later : k ∈ l := (List.mem_cons.mp hk).resolve_left fun e' => he (e' ▸ hid)
      obtain ⟨before, after, split, last⟩ := ih ⟨k, later, hid⟩
      refine ⟨e :: before, after, by simp [he, split], ?_⟩
      cases before with
      | nil => cases last
      | cons x t => rw [List.getLast?_cons_cons]; exact last

/-- Where an insertion stands: at the head, or behind its predecessor. -/
theorem splitAfter_place {l : List Event} {pred : Nat} (h : pred = 0 ∨ ∃ e ∈ l, e.id = pred) :
    ∃ before after, splitAfter l pred = some (before, after) ∧ (pred = 0 → before = []) ∧
      (pred ≠ 0 → before.getLast?.map (·.id) = some pred) := by
  rcases Decidable.em (pred = 0) with hp | hp
  · exact ⟨[], l, by rw [hp, splitAfter_head], fun _ => rfl, fun h => absurd hp h⟩
  · obtain ⟨before, after, split, last⟩ := splitAfter_found hp (h.resolve_left hp)
    exact ⟨before, after, split, fun h => absurd h hp, fun _ => last⟩

theorem frozenAfter_none {l : List Event} (h : ∀ k ∈ l, k.cue = .pending) : frozenAfter l = none := by
  simp only [frozenAfter, Option.map_eq_none_iff, List.find?_eq_none]
  exact fun k hk => by simp [Event.frozen, h k hk]

theorem frozenAfter_some {pend : List Event} {k : Event} (rest : List Event) (h : ∀ j ∈ pend, j.cue = .pending) (hk : k.cue ≠ .pending) :
    frozenAfter (pend ++ k :: rest) = some k.rstart := by
  have skip : pend.find? Event.frozen = none := List.find?_eq_none.mpr fun j hj => by simp [Event.frozen, h j hj]
  simp [frozenAfter, List.find?_append, skip, Event.frozen, hk]

/-! ## INSERT -/

section Insert

variable {v : PlEnv} {l : List Event} {free pred : Nat} {d : RawDesc} {a : Accepted}

theorem plInsert_unknown (ha : checkDesc v.family v.baseDay d = .ok a) (hp : pred ≠ 0) (h : ∀ e ∈ l, e.id ≠ pred) :
    plInsert v l free pred d = .error .noSuchEvent := by
  simp [plInsert, ha, splitAfter_none hp h]

theorem plInsert_duplicate (ha : checkDesc v.family v.baseDay d = .ok a) (hp : pred = 0 ∨ ∃ e ∈ l, e.id = pred)
    (h : ∃ e ∈ l, e.id = d.id) : plInsert v l free pred d = .error .duplicateId := by
  obtain ⟨before, after, place, -⟩ := splitAfter_place hp
  obtain ⟨e, he, hid⟩ := h
  have taken : l.any (·.id == d.id) = true := List.any_eq_true.mpr ⟨e, he, by simpa using hid⟩
  simp only [plInsert, ha, place, if_pos taken]

/-- What is left of an insertion whose id is new. -/
theorem plInsert_new {before after : List Event} (ha : checkDesc v.family v.baseDay d = .ok a)
    (place : splitAfter l pred = some (before, after)) (h : ∀ e ∈ l, e.id ≠ d.id) : plInsert v l free pred d =
      if 1024 ≤ l.length ∨ free = 0 then .error .full
      else if a.event.rule = .follow ∧ l = [] then .error .noAnchor
      else match frozenAfter after with
        | some t => .ok { list := before ++ { a.event with cue := .skipped, rstart := t, rend := t } :: after, free := free - 1,
                          late := true, moved := a.moved }
        | none => .ok { list := before ++ (if a.event.rule = .follow then { a.event with rstart := v.floor } else a.event) :: after,
                        free := free - 1, late := false, moved := a.moved } := by
  have fresh : ¬l.any (·.id == d.id) = true := fun hany => by
    obtain ⟨e, he, hid⟩ := List.any_eq_true.mp hany
    exact h e he (beq_iff_eq.mp hid)
  simp only [plInsert, ha, place, if_neg fresh] <;> rfl

end Insert

/-! ## An event found by its id (R19) -/

section Found

variable {before after : List Event} {old : Event}

theorem ids_around (h : ((before ++ old :: after).map (·.id)).Nodup) :
    (∀ e ∈ before, e.id ≠ old.id) ∧ ∀ e ∈ after, e.id ≠ old.id := by
  rw [List.map_append, List.map_cons, List.nodup_middle, List.nodup_cons] at h
  have apart : ∀ e ∈ before ++ after, e.id ≠ old.id := fun e he hid =>
    h.1 (by rw [← hid, ← List.map_append]; exact List.mem_map_of_mem he)
  exact ⟨fun e he => apart e (List.mem_append_left _ he), fun e he => apart e (List.mem_append_right _ he)⟩

theorem findEvent_around (h : ((before ++ old :: after).map (·.id)).Nodup) : findEvent (before ++ old :: after) old.id = some old := by
  have skip : before.find? (·.id == old.id) = none := List.find?_eq_none.mpr fun e he => by simp [(ids_around h).1 e he]
  simp [findEvent, List.find?_append, skip]

theorem modEvent_around (f : Event → Event) (h : ((before ++ old :: after).map (·.id)).Nodup) :
    modEvent (before ++ old :: after) old.id f = before ++ f old :: after := by
  obtain ⟨left, right⟩ := ids_around h
  have stay : ∀ m : List Event, (∀ e ∈ m, e.id ≠ old.id) → m.map (fun e => if e.id == old.id then f e else e) = m := fun m hm =>
    (List.map_congr_left fun e he => by simp [hm e he]).trans (List.map_id m)
  rw [modEvent, List.map_append, List.map_cons, stay before left, stay after right, if_pos (beq_self_eq_true _)]

theorem filter_around (h : ((before ++ old :: after).map (·.id)).Nodup) :
    (before ++ old :: after).filter (·.id != old.id) = before ++ after := by
  obtain ⟨left, right⟩ := ids_around h
  have stay : ∀ m : List Event, (∀ e ∈ m, e.id ≠ old.id) → m.filter (·.id != old.id) = m := fun m hm =>
    List.filter_eq_self.mpr fun e he => by simp [hm e he]
  simp [stay before left, stay after right]

theorem findEvent_none {l : List Event} {id : Nat} (h : ∀ e ∈ l, e.id ≠ id) : findEvent l id = none :=
  List.find?_eq_none.mpr fun e he => by simp [h e he]

end Found

/-! ## REPLACE and DELETE -/

section Known

variable {v : PlEnv} {free : Nat} {d : RawDesc} {a : Accepted} {before after : List Event} {old : Event}

/-- R26: a replacement of a frozen event is as it was asked for where nothing but the duration differs, and that is long enough. -/
theorem frozen_taken (v : PlEnv) (old new : Event) (duration : Nat) :
    (!(old.sameButDuration new && frozenDuration v old duration == duration)) = false ↔
      new.kind = old.kind ∧ new.rule = old.rule ∧ new.start = old.start ∧ new.clip = old.clip ∧
        min old.rend v.floor - old.rstart ≤ duration := by
  simp only [Event.sameButDuration, frozenDuration, Bool.not_eq_false', Bool.and_eq_true, beq_iff_eq, max_eq_left_iff, and_assoc,
    eq_comm (a := new.kind), eq_comm (a := new.rule), eq_comm (a := new.start), eq_comm (a := new.clip)]

theorem plReplace_around (ha : checkDesc v.family v.baseDay d = .ok a) (h : ((before ++ old :: after).map (·.id)).Nodup)
    (hid : old.id = d.id) : ∃ r, plReplace v (before ++ old :: after) free d = .ok r ∧ r.free = free ∧
      (old.cue = .pending → r.late = false ∧ r.list = before ++ { a.event with rstart := old.rstart, rend := old.rend } :: after) ∧
      (old.cue = .done ∨ old.cue = .skipped → r.late = true ∧ r.list = before ++ old :: after) ∧
      (old.cue = .cueing ∨ old.cue = .rolling ∨ old.cue = .airing →
        r.list = before ++ { old with duration := frozenDuration v old d.duration } :: after ∧
        r.late = !(old.sameButDuration a.event && frozenDuration v old d.duration == d.duration)) := by
  simp only [plReplace, ha, ← hid, findEvent_around h]
  cases hc : old.cue <;> simp [modEvent_around _ h, Event.replaced, hc]

theorem plDelete_around (h : ((before ++ old :: after).map (·.id)).Nodup) :
    ∃ r, plDelete v (before ++ old :: after) free old.id = .ok r ∧
      (old.cue ≠ .airing → r.list = before ++ after ∧ r.free = free + 1 ∧ r.late = false) ∧
      (old.cue = .airing → r.list = before ++ old.cutAt v.floor :: after ∧ r.free = free ∧ r.late = true) := by
  simp only [plDelete, findEvent_around h]
  cases hc : old.cue <;> simp [modEvent_around _ h, filter_around h]

end Known

/-- Settles O33, operation by operation. -/
theorem storeOperations : Obligations.StoreOperations := by
  intro v l free nodup
  refine ⟨fun d pred => ⟨fun h => refused_of_checkDesc (checkDesc_unsound h) l free pred,
      fun t h ht hv => refused_of_checkDesc (checkDesc_badTime h ht hv) l free pred,
      fun t h ht hv hw => refused_of_checkDesc (checkDesc_outside h ht hv hw) l free pred⟩,
    fun d pred a ha => ⟨plInsert_unknown ha, fun hp => ⟨plInsert_duplicate ha hp, fun fresh => ⟨fun full => ?_, fun hl hf => ?_⟩⟩⟩,
    fun d a ha => ⟨fun unknown => ?_, ?_⟩, fun id => ⟨fun unknown => ?_, ?_⟩⟩
  · obtain ⟨before, after, place, -⟩ := splitAfter_place hp
    exact (plInsert_new ha place fresh).trans (if_pos full)
  · obtain ⟨before, after, place, head, last⟩ := splitAfter_place hp
    have room : ¬(1024 ≤ l.length ∨ free = 0) := by omega
    have new := (plInsert_new (free := free) ha place fresh).trans (if_neg room)
    obtain ⟨blank, pending⟩ := checkDesc_new ha
    refine ⟨fun hnil hrule => new.trans (if_pos ⟨hrule, hnil⟩), fun anchored => ?_⟩
    have kept := new.trans (if_neg fun h => anchored.elim (fun hl => hl h.2) fun hr => hr h.1)
    have split := splitAfter_append place
    rcases hfz : frozenAfter after with _ | t
    · rw [hfz] at kept
      refine ⟨before, _, after, _, kept, split, head, last, rfl, rfl, rfl, ?_, fun _ => ⟨rfl, ?_, fun hr => ?_⟩, ?_⟩
      · split
        · exact blank
        · exact blank
      · split <;> exact pending
      · rcases Decidable.em (a.event.rule = .follow) with hf | hf
        · rw [if_pos hf]
        · rw [if_neg hf] at hr
          exact absurd hr hf
      · intro pend k rest hafter hpend hk
        rw [hafter, frozenAfter_some rest hpend hk] at hfz
        cases hfz
    · rw [hfz] at kept
      refine ⟨before, _, after, _, kept, split, head, last, rfl, rfl, rfl, blank, fun all => ?_, ?_⟩
      · rw [frozenAfter_none all] at hfz
        cases hfz
      · intro pend k rest hafter hpend hk
        rw [hafter, frozenAfter_some rest hpend hk] at hfz
        cases hfz
        exact ⟨rfl, rfl, rfl, rfl⟩
  · simp [plApply, plReplace, ha, findEvent_none unknown]
  · rintro before old after rfl hid
    obtain ⟨r, eq, hfree, pending, past, frozen⟩ := plReplace_around (free := free) ha nodup hid
    refine ⟨r, eq, hfree, pending, past, fun hc => ?_⟩
    obtain ⟨list, late⟩ := frozen hc
    exact ⟨list, by rw [late, frozen_taken]⟩
  · simp [plApply, plDelete, findEvent_none unknown]
  · rintro before old after rfl rfl
    obtain ⟨r, eq, removed, airing⟩ := plDelete_around (v := v) (free := free) nodup
    refine ⟨r, eq, removed, fun hc => ?_⟩
    obtain ⟨list, hfree, late⟩ := airing hc
    refine ⟨hfree, late, fun ended => ?_, fun runs => ?_⟩
    · rw [list, Event.cutAt_late ended]
    · rw [list, Event.cutAt_early runs]

end Sys2Proof.Machine
end

