-- ==== Sys2Proof/Proofs/Rules.lean ====
section
/-! PROOFS. Rules of the plant's parts written more than once, in either order, and of what is handed out. -/

namespace Sys2Proof.Machine

theorem Plant.setChan_setChan (p : Plant) (c : Chan) (x y : Channel) : (p.setChan c x).setChan c y = p.setChan c y := by
  simp [Plant.setChan]

theorem Plant.setChan_chan (p : Plant) (c : Chan) : p.setChan c (p.chan c) = p := by
  simp [Plant.setChan, Plant.chan]

theorem Plant.modChan_modChan (p : Plant) (c : Chan) (f g : Channel → Channel) :
    (p.modChan c f).modChan c g = p.modChan c fun x => g (f x) := by
  simp only [Plant.modChan, Plant.chan_setChan_same, Plant.setChan_setChan]

theorem Plant.modChan_same (p : Plant) {c : Chan} {f : Channel → Channel} (h : f (p.chan c) = p.chan c) : p.modChan c f = p := by
  rw [Plant.modChan, h, Plant.setChan_chan]

theorem Plant.modPort_modPort (p : Plant) (i : PortNo) (f g : Port → Port) :
    (p.modPort i f).modPort i g = p.modPort i fun x => g (f x) := by
  simp only [Plant.modPort, Plant.port_setPort_same, Plant.setPort_setPort]

/-- A channel and a port are written in either order. -/
theorem Plant.setPort_setChan (p : Plant) (i : PortNo) (c : Chan) (x : Port) (y : Channel) :
    (p.setPort i x).setChan c y = (p.setChan c y).setPort i x := rfl

theorem Plant.notices_emit (p : Plant) (n : Notice) : (p.emit (.notice n)).notices = p.notices ++ [n] := by
  simp [Plant.notices]

theorem Plant.notices_sendBack (p : Plant) (r : BackRec) : (p.sendBack r).notices = p.notices := by
  simp [Plant.notices]

theorem Plant.records_emit (p : Plant) (n : Notice) : (p.emit (.notice n)).records = p.records := by
  simp [Plant.records]

theorem Plant.records_sendBack (p : Plant) (r : BackRec) : (p.sendBack r).records = p.records ++ [r] := by
  simp [Plant.records]

/-- R16: a frame is reported alike wherever the channel's reference and base day stand. -/
theorem Plant.ctfBytes_of_same {p q : Plant} {c : Chan} (hc : q.config c = p.config c) (hr : ∀ r, q.ref r = p.ref r)
    (hb : (q.chan c).baseDay = (p.chan c).baseDay) (t : Nat) : q.ctfBytes c t = p.ctfBytes c t := by
  rw [Plant.ctfBytes, Plant.dayLabel, Plant.family_of_config hc hr, hb]
  rfl

end Sys2Proof.Machine
end

