-- ==== Sys2Proof/Proofs/Replicas.lean ====
section
/-! PROOFS. The replica states (chapter 3): what a record to a channel comes to (R47, R49, R51), a replica that becomes STALE (R55),
a BASE (R57, R65), the timers (R53, R54, R63, R68) and REPLICA RESET (R70). -/

namespace Sys2Proof.Machine

/-! ## The hold and the notices -/

theorem Plant.discard_all (p : Plant) (c : Chan) :
    (p.discard c fun _ => true) = { p with hold := p.hold.filter fun h => h.channel != c } := by
  simp only [Plant.discard, Bool.and_true]
  rfl

/-- R58: REPLICA STATE, as it is handed out. -/
theorem Plant.tellReplica_eq (p : Plant) (c : Chan) (before : ReplicaState) (r : ReplicaReason) (refused : Option (Status × Nat)) :
    p.tellReplica c before r refused = p.emit (.notice (p.replicaNotice c before r.code refused)) := by
  simp [Plant.tellReplica, Plant.replicaBytes, Plant.replicaNotice, Plant.notify]

theorem Plant.tracking_iff (p : Plant) (c : Chan) :
    p.tracking c = true ↔ (p.chan c).replica.state = .current ∨ (p.chan c).replica.state = .gap := by simp [Plant.tracking]

/-- R55: a replica that takes records becomes STALE. -/
theorem Plant.goStale_eq {p : Plant} {c : Chan} (h : (p.chan c).replica.state = .current ∨ (p.chan c).replica.state = .gap)
    (r : ReplicaReason) (refused : Option (Status × Nat)) : p.goStale c r refused = p.staled c r.code refused := by
  simp only [Plant.goStale, if_pos h, Plant.discard_all, Plant.tellReplica_eq, Plant.staled]
  exact congrArg (fun o => ({ (_ : Plant) with outbox := o } : Plant)) (List.append_assoc _ _ _)

/-! ## A record that reaches its channel (R47, R49) -/

theorem Plant.channelRecord_unknown (p : Plant) (l : LinkId) {n : Nat} (seq : Nat) (r : Rec) (h : 15 < n) :
    p.channelRecord l n seq r = p.goodFrame l := by
  simp only [Plant.channelRecord, chanOf_none h]

theorem Plant.channelRecord_idle (p : Plant) (l : LinkId) {c : Chan} (seq : Nat) (r : Rec)
    (h : ((p.goodFrame l).chan c).mode = .idle) : p.channelRecord l c.val seq r = p.goodFrame l := by
  simp only [Plant.channelRecord, chanOf_val, if_pos h]

theorem Plant.channelRecord_runs (p : Plant) (l : LinkId) {c : Chan} {seq : Nat} (r : Rec) (hs : seq < 65536)
    (h : ((p.goodFrame l).chan c).mode ≠ .idle) : p.channelRecord l c.val seq r = (p.goodFrame l).classify c seq r := by
  simp only [Plant.channelRecord, chanOf_val, if_neg h, Nat.mod_eq_of_lt hs]

section Classify

variable {p : Plant} {c : Chan} {seq next d : Nat} {r : Rec}

theorem Plant.classify_untracked (h : ¬p.tracking c = true) (hr : r ≠ .base) : p.classify c seq r = p := by
  rw [Plant.classify, if_neg h]
  exact hr

theorem Plant.classify_tracked (h : p.tracking c = true) (hr : r ≠ .base) (hn : (p.chan c).replica.next = some next)
    (hd : d = (seq + 65536 - next) % 65536) : p.classify c seq r =
      if 32768 ≤ d then p else if d = 0 then p.inOrder c seq r else if d ≤ 255 then p.holdEarly c seq r
      else p.goStale c .tooFarAhead none := by
  simp only [Plant.classify, if_pos h, hn, Option.getD_some, ← hd]

theorem Plant.classify_base_untracked (h : ¬p.tracking c = true) : p.classify c seq .base = p.takeBase c seq := by
  rw [Plant.classify, if_neg h]

theorem Plant.classify_base_tracked (h : p.tracking c = true) (hn : (p.chan c).replica.next = some next)
    (hd : d = (seq + 65536 - next) % 65536) : p.classify c seq .base = if 32768 ≤ d then p else p.takeBase c seq := by
  rw [Plant.classify, if_pos h, hn, Option.getD_some, ← hd]

end Classify

/-! ## Early records (R51) -/

section Early

variable {p : Plant} {c : Chan} {seq : Nat} {r : Rec}

theorem Plant.holdEarly_known (h : ∃ k ∈ p.hold, k.channel = c ∧ k.seq = seq) : p.holdEarly c seq r = p := by
  obtain ⟨k, hk, hc, hs⟩ := h
  exact if_pos (List.any_eq_true.mpr ⟨k, hk, by simp [hc, hs]⟩)

theorem Plant.holdEarly_new (h : ∀ k ∈ p.hold, k.channel = c → k.seq ≠ seq) : p.holdEarly c seq r =
    if 32 ≤ p.holdCount c .early ∨ 256 ≤ p.hold.length then p.goStale c .holdFull none
    else if (p.chan c).replica.state = .current then
      ((p.addHold ⟨c, seq, r, .early, none⟩).modReplica c fun x => { x with state := .gap, gapTimer := some 0 }).tellReplica c .current
        .gapOpened none
    else p.addHold ⟨c, seq, r, .early, none⟩ := by
  have fresh : ¬p.hold.any (fun k => k.channel == c && k.seq == seq) = true := fun hany => by
    obtain ⟨k, hk, both⟩ := List.any_eq_true.mp hany
    obtain ⟨hc, hs⟩ := Bool.and_eq_true_iff.mp both
    exact h k hk (beq_iff_eq.mp hc) (beq_iff_eq.mp hs)
  exact if_neg fresh

end Early

/-- The commands that carry a channel record other than BASE. -/
theorem exec_record {l : LinkId} {n seq : Nat} {cmd : Instr} {r : Rec} (s : State)
    (h : (∃ pred d, cmd = .evPut l n seq pred d ∧ r = .put pred d) ∨ (∃ d, cmd = .evSwap l n seq d ∧ r = .swap d) ∨
      (∃ e, cmd = .evDrop l n seq e ∧ r = .drop e) ∨ (cmd = .chWipe l n seq ∧ r = .wipe) ∨
      (∃ k, cmd = .batchOpen l n seq k ∧ r = .batchOpen k) ∨ (cmd = .batchClose l n seq ∧ r = .batchClose)) :
    exec cmd s = .next (s.passed (s.plant.channelRecord l n seq r)) ∧ r ≠ .base := by
  rcases h with ⟨_, _, rfl, rfl⟩ | ⟨_, rfl, rfl⟩ | ⟨_, rfl, rfl⟩ | ⟨rfl, rfl⟩ | ⟨_, rfl, rfl⟩ | ⟨rfl, rfl⟩ <;>
    exact ⟨rfl, by simp⟩

/-- Settles O25, by the difference between the record's number and the next one. -/
theorem windowClasses : Obligations.WindowClasses := by
  rintro l n seq s p cmd r rfl hs hcmd
  obtain ⟨run, notBase⟩ := exec_record s hcmd
  rw [run]
  refine ⟨fun h => by rw [Plant.channelRecord_unknown _ l seq r h], ?_⟩
  rintro c x rfl rfl
  refine ⟨fun h => ?_, fun hm hst next d hn _ hd => ?_⟩
  · rcases Decidable.em (((s.plant.goodFrame l).chan c).mode = .idle) with hm | hm
    · rw [Plant.channelRecord_idle _ l seq r hm]
    · have untracked : ¬(s.plant.goodFrame l).tracking c = true := by
        rw [Plant.tracking_iff]
        rcases h with h | h | h
        · exact absurd h hm
        · simp [h]
        · simp [h]
      rw [Plant.channelRecord_runs _ l r hs hm, Plant.classify_untracked untracked notBase]
  · rw [Plant.channelRecord_runs _ l r hs hm, Plant.classify_tracked ((Plant.tracking_iff _ c).mpr hst) notBase hn hd]
    refine ⟨fun old => by rw [if_pos old], fun far near => ?_, fun ahead near => ?_⟩
    · rw [if_neg (by omega), if_neg (by omega), if_neg (by omega), Plant.goStale_eq hst]
      rfl
    · rw [if_neg (by omega), if_neg (by omega), if_pos near]
      refine ⟨fun known => by rw [Plant.holdEarly_known known], fun new => ?_⟩
      rw [Plant.holdEarly_new new]
      refine ⟨fun full => ?_, fun few room => ⟨_, rfl, fun gap => ?_, fun current => ⟨_, rfl, ?_⟩⟩⟩
      · rw [if_pos full, Plant.goStale_eq hst]
        rfl
      · rw [if_neg (by omega), if_neg (by rw [gap]; decide)]
        rfl
      · rw [if_neg (by omega), if_pos current, Plant.tellReplica_eq]
        rfl

/-! ## An emptied playlist (R28, R129) -/

/-- A channel whose playlist and step queue are gone. -/
def Channel.blank (x : Channel) : Channel :=
  { x with playlist := [], seq := { x.seq with queue := [], cursor := none }, watch := { x.watch with lastEnded := none } }

theorem Plant.emptyPlaylist_eq (p : Plant) (c : Chan) :
    p.emptyPlaylist c = (p.modChan c Channel.blank).withdrawCue c fun _ => true := by
  have twice : (p.modChan c fun x => { x with playlist := [] }).modChan c (fun x =>
      { x with seq := { x.seq with queue := [], cursor := none }, watch := { x.watch with lastEnded := none } }) =
      p.modChan c Channel.blank := by
    rw [Plant.modChan_modChan]
    rfl
  rw [Plant.emptyPlaylist, Plant.emptied, twice]

theorem Plant.emptyPlaylist_chan (p : Plant) (c : Chan) : (p.emptyPlaylist c).chan c = (p.chan c).blank := by
  rw [Plant.emptyPlaylist_eq]
  exact p.chan_modChan_same c _

theorem Plant.emptyPlaylist_other (p : Plant) {c d : Chan} (h : d ≠ c) : (p.emptyPlaylist c).chan d = p.chan d := by
  rw [Plant.emptyPlaylist_eq]
  exact p.chan_modChan_other _ h

theorem Plant.emptyPlaylist_hold (p : Plant) (c : Chan) : (p.emptyPlaylist c).hold = p.hold := rfl

theorem Plant.emptyPlaylist_outbox (p : Plant) (c : Chan) : (p.emptyPlaylist c).outbox = p.outbox := rfl

theorem Plant.withdrawCue_slot (p : Plant) (c : Chan) (i : PortNo) (k : StepEntry) :
    ((p.withdrawCue c fun _ => true).port i).slotCue ≠ some (c, k) := by
  rw [Plant.withdrawCue, Plant.mapPorts, Plant.port_mapPorts, Port.markOutstanding_slotCue]
  exact Port.withdrawSlot_all _ c k

theorem Plant.emptyPlaylist_slot (p : Plant) (c : Chan) (i : PortNo) (k : StepEntry) :
    ((p.emptyPlaylist c).port i).slotCue ≠ some (c, k) := by
  rw [Plant.emptyPlaylist_eq]
  exact Plant.withdrawCue_slot _ c i k

theorem Plant.replicaNotice_of_same {p q : Plant} {c : Chan} (hr : (q.chan c).replica = (p.chan c).replica) (hh : q.hold = p.hold)
    (before : ReplicaState) (reason : Nat) (refused : Option (Status × Nat)) :
    q.replicaNotice c before reason refused = p.replicaNotice c before reason refused := by
  simp only [Plant.replicaNotice, Plant.holdCount, hr, hh]

/-! ## BASE (R57, R65) -/

/-- R57: a replica that a BASE has restarted. -/
def Replica.based (seq : Nat) : Replica :=
  { state := .current, next := some ((seq + 1) % 65536), batch := none, gapTimer := none, reloadTimer := none }

/-- R57: REPLICA STATE, where the replica was not CURRENT before. -/
def Plant.tellBased (p : Plant) (c : Chan) (before : ReplicaState) : Plant :=
  if before = .current then p else p.tellReplica c before .baseTaken none

theorem Plant.tellBased_fields (p : Plant) (c : Chan) (before : ReplicaState) :
    (p.tellBased c before).chans = p.chans ∧ (p.tellBased c before).hold = p.hold ∧ (p.tellBased c before).ports = p.ports ∧
    (p.tellBased c before).rest = p.rest ∧
    (p.tellBased c before).notices = p.notices ++ (if before = .current then [] else [p.replicaNotice c before 1 none]) := by
  unfold Plant.tellBased
  split
  · exact ⟨rfl, rfl, rfl, rfl, (List.append_nil _).symm⟩
  · rw [Plant.tellReplica_eq]
    exact ⟨rfl, rfl, rfl, rfl, by simp [Plant.notices, ReplicaReason.code]⟩

theorem Plant.takeBase_plain {p : Plant} {c : Chan} {seq : Nat} (h : p.deferring c = false) : p.takeBase c seq =
    ((({ p with hold := p.hold.filter fun h => !(h.channel == c && h.kind != .deferred) } : Plant).modReplica c fun _ =>
      .based seq).tellBased c (p.chan c).replica.state).emptyPlaylist c := by
  simp only [Plant.takeBase, h, Bool.or_false, Bool.false_eq_true, if_false]
  rfl

theorem Plant.takeBase_defers {p : Plant} {c : Chan} {seq : Nat} (h : p.deferring c = true)
    (room : (p.hold.filter fun h => h.channel != c).length < 256) : p.takeBase c seq =
      (({ p with hold := (p.hold.filter fun h => h.channel != c) ++
          [{ channel := c, seq := seq, content := .base, kind := .deferred, mark := none }] } : Plant).modReplica c fun _ =>
        .based seq).tellBased c (p.chan c).replica.state := by
  have fits : ¬256 ≤ (p.hold.filter fun h => h.channel != c).length := Nat.not_le.mpr room
  simp only [Plant.takeBase, h, Bool.or_true, Plant.discard_all, if_true]
  exact if_neg fits

/-! ## The timers (R53, R54, R63, R68) -/

/-- Settles O28: an old BASE is discarded, and any other restarts the replica, outside deferral and in it. -/
theorem baseRestarts : Obligations.BaseRestarts := by
  rintro l c seq s p x rfl hs hm rfl
  have run : exec (.base l c.val seq) s = .next (s.passed ((s.plant.goodFrame l).classify c seq .base)) := by
    rw [← Plant.channelRecord_runs s.plant l .base hs hm]
    rfl
  rw [run]
  generalize s.plant.goodFrame l = p at hm ⊢
  refine ⟨fun next ht hn _ old => ?_, ?_⟩
  · rw [Plant.classify_base_tracked ((p.tracking_iff c).mpr ht) hn rfl, if_pos old]
  rintro fresh y rfl
  have taken : p.classify c seq .base = p.takeBase c seq := by
    rcases Decidable.em (p.tracking c = true) with ht | ht
    · rcases fresh with h | h | ⟨next, hn, _, near⟩
      · rcases (p.tracking_iff c).mp ht with h' | h' <;> rw [h] at h' <;> cases h'
      · rcases (p.tracking_iff c).mp ht with h' | h' <;> rw [h] at h' <;> cases h'
      · rw [Plant.classify_base_tracked ht hn rfl, if_neg (by omega)]
    · exact Plant.classify_base_untracked ht
  rw [taken]
  refine ⟨fun plain => ⟨_, rfl, ?_⟩, fun deferral room => ⟨_, rfl, ?_⟩⟩
  · rw [Plant.takeBase_plain plain]
    generalize hq : ({ p with hold := p.hold.filter fun h => !(h.channel == c && h.kind != .deferred) } : Plant).modReplica c
      (fun _ => .based seq) = q
    have chan : q.chan c = { p.chan c with replica := .based seq } := by
      rw [← hq]
      exact Plant.chan_modChan_same _ c _
    have other : p.OtherChans q c := fun d hd => by
      rw [← hq]
      exact Plant.chan_modChan_other _ _ hd
    obtain ⟨chans, hold, ports, rest, notices⟩ := q.tellBased_fields c (p.chan c).replica.state
    have told : ∀ d, (q.tellBased c (p.chan c).replica.state).chan d = q.chan d := fun d => congrArg (·[d]) chans
    have blank : ((q.tellBased c (p.chan c).replica.state).emptyPlaylist c).chan c =
        ({ p.chan c with replica := .based seq } : Channel).blank := by rw [Plant.emptyPlaylist_chan, told, chan]
    have replica : (((q.tellBased c (p.chan c).replica.state).emptyPlaylist c).chan c).replica = (q.chan c).replica := by
      rw [blank, chan]
      rfl
    refine ⟨by rw [blank]; rfl, by rw [blank]; rfl, by rw [blank]; rfl, by rw [blank]; rfl, by rw [blank]; rfl, by rw [blank]; rfl,
      ?_, ?_, fun i k => Plant.emptyPlaylist_slot _ c i k, Plant.still_of_rest ?_, fun d hd => ?_⟩
    · rw [Plant.emptyPlaylist_hold, hold, ← hq]
      rfl
    · rw [Plant.replicaNotice_of_same (p := q) replica (by rw [Plant.emptyPlaylist_hold, hold])]
      refine Eq.trans ?_ (notices.trans ?_)
      · rfl
      · rw [← hq]
        rfl
    · rw [Plant.emptyPlaylist_rest, rest, ← hq]
      rfl
    · rw [Plant.emptyPlaylist_other _ hd, told, other d hd]
  · rw [Plant.takeBase_defers deferral room]
    generalize hq : ({ p with hold := (p.hold.filter fun h => h.channel != c) ++
      [{ channel := c, seq := seq, content := .base, kind := .deferred, mark := none }] } : Plant).modReplica c
      (fun _ => .based seq) = q
    have chan : q.chan c = { p.chan c with replica := .based seq } := by
      rw [← hq]
      exact Plant.chan_modChan_same _ c _
    have other : p.OtherChans q c := fun d hd => by
      rw [← hq]
      exact Plant.chan_modChan_other _ _ hd
    obtain ⟨chans, hold, ports, rest, notices⟩ := q.tellBased_fields c (p.chan c).replica.state
    have told : ∀ d, (q.tellBased c (p.chan c).replica.state).chan d = q.chan d := fun d => congrArg (·[d]) chans
    refine ⟨(told c).trans chan, ?_, ?_, Plant.still_of_rest ?_, fun d hd => (told d).trans (other d hd), ?_⟩
    · rw [hold, ← hq]
      rfl
    · rw [Plant.replicaNotice_of_same (p := q) (congrArg Channel.replica (told c)) hold, notices, ← hq]
      rfl
    · rw [rest, ← hq]
      rfl
    · rw [ports, ← hq]
      rfl

/-! ## The timers (R53, R54, R63, R68) -/

section Timers

variable {p : Plant} {c : Chan}

theorem Plant.askFill_asks {t n : Nat} (ht : (p.chan c).replica.gapTimer = some t) (hn : (p.chan c).replica.next = some n)
    (h : t < 500) : p.askFill c = (p.modReplica c fun x => { x with gapTimer := some 500 }).sendBack (.askFill c n) := by
  simp only [Plant.askFill, ht, hn, if_pos h]

theorem Plant.askFill_stands (h : (p.chan c).replica.gapTimer = none ∨ ∃ t, (p.chan c).replica.gapTimer = some t ∧ 500 ≤ t) :
    p.askFill c = p := by
  rcases h with h | ⟨t, h, ht⟩
  · simp only [Plant.askFill, h]
  · simp only [Plant.askFill, h]
    split
    · next e _ => cases e; exact if_neg (Nat.not_lt.mpr ht)
    · rfl

theorem Plant.gapExpired_runs (h : (p.chan c).replica.gapTimer.isSome) : p.gapExpired c = p.goStale c .gapTimeout none := by
  obtain ⟨t, ht⟩ := Option.isSome_iff_exists.mp h
  simp only [Plant.gapExpired, ht]

theorem Plant.gapExpired_stands (h : (p.chan c).replica.gapTimer = none) : p.gapExpired c = p := by
  simp only [Plant.gapExpired, h]

theorem Plant.reloadExpired_runs (h : (p.chan c).replica.reloadTimer.isSome) : p.reloadExpired c =
    (p.modReplica c fun x => { x with reloadTimer := some 0 }).sendBack (.askReload c) := by
  obtain ⟨t, ht⟩ := Option.isSome_iff_exists.mp h
  simp only [Plant.reloadExpired, ht]

theorem Plant.reloadExpired_stands (h : (p.chan c).replica.reloadTimer = none) : p.reloadExpired c = p := by
  simp only [Plant.reloadExpired, h]

theorem Plant.batchExpired_runs (h : (p.chan c).replica.batch.isSome) : p.batchExpired c = p.goStale c .batchTimeout none := by
  obtain ⟨b, hb⟩ := Option.isSome_iff_exists.mp h
  simp only [Plant.batchExpired, hb]

theorem Plant.batchExpired_stands (h : (p.chan c).replica.batch = none) : p.batchExpired c = p := by
  simp only [Plant.batchExpired, h]

end Timers

theorem Plant.heartbeatExpired_stands {p : Plant} (h : ∀ t, p.heartbeat ≠ .running t) : p.heartbeatExpired = p := by
  unfold Plant.heartbeatExpired
  split
  · next t ht => exact absurd ht (h t)
  · rfl

/-! ## REPLICA RESET (R70) -/

/-- R53: entry to AWAIT_BASE of a channel that is not IDLE, in one writing. -/
theorem Plant.awaitBase_eq (p : Plant) (c : Chan) : p.awaitBase c =
    (({ p with hold := p.hold.filter fun h => h.channel != c } : Plant).modReplica c fun _ =>
      { state := .awaitBase, next := none, batch := none, gapTimer := none, reloadTimer := some 0 }).sendBack (.askReload c) := by
  simp only [Plant.awaitBase, Plant.clearReplica, Plant.discard_all, Plant.modReplica, Plant.modChan_modChan]
  rfl

theorem Plant.awaitBase_chan (p : Plant) (c : Chan) : (p.awaitBase c).chan c = { p.chan c with replica :=
    { state := .awaitBase, next := none, batch := none, gapTimer := none, reloadTimer := some 0 } } := by
  rw [Plant.awaitBase_eq, Plant.sendBack_chan]
  exact Plant.chan_modChan_same _ c _

theorem Plant.awaitBase_other (p : Plant) {c d : Chan} (h : d ≠ c) : (p.awaitBase c).chan d = p.chan d := by
  rw [Plant.awaitBase_eq, Plant.sendBack_chan]
  exact Plant.chan_modChan_other _ _ h

theorem Plant.awaitBase_hold (p : Plant) (c : Chan) : (p.awaitBase c).hold = p.hold.filter fun h => h.channel != c := by
  rw [Plant.awaitBase_eq]
  rfl

theorem Plant.awaitBase_outbox (p : Plant) (c : Chan) : (p.awaitBase c).outbox = p.outbox ++ [.back (.askReload c)] := rfl

theorem replicaReset_unknown {n : Nat} (p : Plant) (h : 15 < n) : replicaReset n p = p.refuse .noSuchChannel := by
  simp only [replicaReset, chanOf_none h]

theorem Plant.resetRunning_tracking {p : Plant} {c : Chan} (h : (p.chan c).replica.state = .current ∨ (p.chan c).replica.state = .gap) :
    p.resetRunning c = p.staled c 12 none := (if_pos ((p.tracking_iff c).mpr h)).trans (Plant.goStale_eq h .resetRequest none)

theorem Plant.resetRunning_waiting {p : Plant} {c : Chan}
    (h : (p.chan c).replica.state = .stale ∨ (p.chan c).replica.state = .awaitBase) : p.resetRunning c =
      { p.setChan c { p.chan c with replica := { (p.chan c).replica with reloadTimer := some 0 } } with
        hold := p.hold.filter fun h => h.channel != c
        outbox := p.outbox ++ [.back (.askReload c)] } := by
  have untracked : ¬p.tracking c = true := by
    rw [Plant.tracking_iff]
    rcases h with h | h <;> simp [h]
  rw [Plant.resetRunning, if_neg untracked, Plant.discard_all]
  rfl

theorem replicaReset_running {p : Plant} {c : Chan} (h : (p.chan c).mode.deferral = true) :
    replicaReset c.val p = (p.resetRunning c, reply .ok []) := by
  simp only [replicaReset, chanOf_val]
  cases hm : (p.chan c).mode with
  | idle => simp [hm, Mode.deferral] at h
  | confirming => simp [hm, Mode.deferral] at h
  | taking => simp [hm, Mode.deferral] at h
  | shadow => simp [hm, Mode.deferral] at h
  | _ => rfl

/-- R70: the notice of a reset in SHADOW. -/
def Plant.tellReset (p : Plant) (c : Chan) (before : ReplicaState) : Plant :=
  if before = .awaitBase then p else p.tellReplica c before .resetRequest none

theorem Plant.tellReset_fields (p : Plant) (c : Chan) (before : ReplicaState) :
    (p.tellReset c before).chans = p.chans ∧ (p.tellReset c before).hold = p.hold ∧ (p.tellReset c before).records = p.records ∧
    (p.tellReset c before).rest = p.rest ∧
    (p.tellReset c before).notices = p.notices ++ (if before = .awaitBase then [] else [p.replicaNotice c before 12 none]) := by
  unfold Plant.tellReset
  split
  · exact ⟨rfl, rfl, rfl, rfl, (List.append_nil _).symm⟩
  · rw [Plant.tellReplica_eq]
    exact ⟨rfl, rfl, Plant.records_emit _ _, rfl, Plant.notices_emit _ _⟩

/-- Settles O30: each timer where it runs and where it does not, and REPLICA RESET mode by mode. -/
theorem replicaTimersAndReset : Obligations.ReplicaTimersAndReset := by
  refine ⟨?_, fun tag n s ha => ⟨fun h => State.request_answers _ _ ha (replicaReset_unknown _ h), ?_⟩⟩
  · rintro c s x rfl
    have same : ∀ {q : Plant}, q = s.plant → (Host.Outcome.next (s.passed q) : Meaning) = .next (s.passed s.plant) :=
      fun h => by rw [h]
    refine ⟨fun t n ht hn h => ?_, fun h => same (Plant.askFill_stands h), fun h hs => ?_, fun h => same (Plant.gapExpired_stands h),
      fun h => ?_, fun h => same (Plant.reloadExpired_stands h), fun h hs => ?_, fun h => same (Plant.batchExpired_stands h),
      fun t h => ?_, fun h => same (Plant.heartbeatExpired_stands h)⟩
    · exact congrArg (Host.Outcome.next ∘ s.passed) (Plant.askFill_asks ht hn h)
    · exact congrArg (Host.Outcome.next ∘ s.passed) ((Plant.gapExpired_runs h).trans (Plant.goStale_eq hs _ _))
    · exact congrArg (Host.Outcome.next ∘ s.passed) (Plant.reloadExpired_runs h)
    · exact congrArg (Host.Outcome.next ∘ s.passed) ((Plant.batchExpired_runs h).trans (Plant.goStale_eq hs _ _))
    · have expired : s.plant.heartbeatExpired = { s.plant with heartbeat := .expired } := by
        simp only [Plant.heartbeatExpired, h]
      exact congrArg (Host.Outcome.next ∘ s.passed) expired
  rintro c x rfl rfl
  refine ⟨fun hm => ?_, fun hm => ?_, fun hm => ?_, fun hm => ⟨fun hs => ?_, fun hs => ?_⟩⟩
  · exact State.request_answers _ _ ha (by simp only [replicaReset, chanOf_val, hm]; rfl)
  · refine State.request_answers _ _ ha ?_
    rcases hm with hm | hm <;> simp only [replicaReset, chanOf_val, hm] <;> rfl
  · have reset : replicaReset c.val s.plant =
        (((s.plant.emptyPlaylist c).awaitBase c).tellReset c (s.plant.chan c).replica.state, reply .ok []) := by
      simp only [replicaReset, chanOf_val, hm]
      rfl
    refine ⟨_, State.request_answers _ _ ha reset, ?_⟩
    generalize hq : (s.plant.emptyPlaylist c).awaitBase c = q
    have chan : q.chan c = { (s.plant.chan c).blank with replica :=
        { state := .awaitBase, next := none, batch := none, gapTimer := none, reloadTimer := some 0 } } := by
      rw [← hq, Plant.awaitBase_chan, Plant.emptyPlaylist_chan]
    have other : s.plant.OtherChans q c := fun d hd => by
      rw [← hq, Plant.awaitBase_other _ hd, Plant.emptyPlaylist_other s.plant hd]
    have outbox : q.outbox = s.plant.outbox ++ [.back (.askReload c)] := by
      rw [← hq, Plant.awaitBase_outbox, Plant.emptyPlaylist_outbox]
    obtain ⟨chans, hold, records, rest, notices⟩ := q.tellReset_fields c (s.plant.chan c).replica.state
    have told : ∀ d, (q.tellReset c (s.plant.chan c).replica.state).chan d = q.chan d := fun d => congrArg (·[d]) chans
    refine ⟨by rw [told, chan]; rfl, by rw [told, chan]; rfl, by rw [told, chan]; rfl, by rw [told, chan], by rw [told, chan]; rfl,
      ?_, ?_, ?_, Plant.still_of_rest ?_, fun d hd => (told d).trans (other d hd)⟩
    · rw [hold, ← hq, Plant.awaitBase_hold, Plant.emptyPlaylist_hold]
    · rw [records]
      simp [Plant.records, outbox]
    · rw [Plant.replicaNotice_of_same (p := q) (congrArg Channel.replica (told c)) hold, notices]
      simp [Plant.notices, outbox]
    · rw [rest, ← hq]
      simp
  · exact State.request_answers _ _ ha ((replicaReset_running hm).trans (by rw [Plant.resetRunning_tracking hs]))
  · exact State.request_answers _ _ ha ((replicaReset_running hm).trans (by rw [Plant.resetRunning_waiting hs]))

end Sys2Proof.Machine
end

