-- ==== Sys2Proof/Proofs/Agreement.lean ====
section
/-! PROOFS. The PULSE (R67, R68) and schedule agreement (R88, R89): which ids agree, and what a PULSE makes of every channel, one
after another. -/

namespace Sys2Proof.Machine

/-! ## Which ids agree (R88) -/

section Around

variable {before after : List Event} {e : Event}

theorem splitAt_around (h : ((before ++ e :: after).map (·.id)).Nodup) :
    splitAt (before ++ e :: after) e.id = (before.filter Event.unmarked, after.filter Event.unmarked) := by
  have left := (ids_around h).1
  have upTo : (before ++ e :: after).takeWhile (·.id != e.id) = before := by
    rw [List.takeWhile_append_of_pos fun k hk => by simp [left k hk]]
    simp
  have behind : eventsAfter (before ++ e :: after) e.id = after := by
    clear h upTo
    induction before with
    | nil => simp [eventsAfter]
    | cons k l ih =>
      have apart : ¬(k.id == e.id) = true := by simp [left k List.mem_cons_self]
      rw [List.cons_append, eventsAfter, if_neg apart]
      exact ih fun j hj => left j (List.mem_cons_of_mem _ hj)
  rw [splitAt, upTo, behind]

/-- R88: the first unmarked event behind E. -/
theorem nextNeighbour_iff (n start : Nat) :
    (after.filter Event.unmarked).head?.any (fun k => k.id == n && k.rstart == start) = true ↔
      ∃ ahead k behind, after = ahead ++ k :: behind ∧ k.unmarked = true ∧ (∀ j ∈ ahead, j.unmarked = false) ∧ k.id = n ∧
        k.rstart = start := by
  rw [List.head?_filter, Option.any_eq_true]
  constructor
  · rintro ⟨k, hk, h⟩
    obtain ⟨hu, ahead, behind, rfl, marked⟩ := List.find?_eq_some_iff_append.mp hk
    obtain ⟨hid, hs⟩ := Bool.and_eq_true_iff.mp h
    exact ⟨ahead, k, behind, rfl, hu, fun j hj => by simpa using marked j hj, beq_iff_eq.mp hid, beq_iff_eq.mp hs⟩
  · rintro ⟨ahead, k, behind, rfl, hu, marked, hid, hs⟩
    have found : (ahead ++ k :: behind).find? Event.unmarked = some k :=
      List.find?_eq_some_iff_append.mpr ⟨hu, ahead, behind, rfl, fun j hj => by simp [marked j hj]⟩
    simp [found, hid, hs]

/-- R88: the last unmarked event ahead of E that ends at its start, or else the memory of the last ended one. -/
theorem previousNeighbour_iff (memory : Option (Nat × Nat)) (n : Nat) :
    previousNeighbour (before.filter Event.unmarked) memory e n = true ↔
      (∃ ahead k behind, before = ahead ++ k :: behind ∧ k.unmarked = true ∧ k.rend = e.rstart ∧
        (∀ j ∈ behind, j.unmarked = true → j.rend ≠ e.rstart) ∧ k.id = n) ∨
      ((∀ k ∈ before, k.unmarked = true → k.rend ≠ e.rstart) ∧ memory = some (n, e.rstart)) := by
  have joint : (before.filter Event.unmarked).reverse.find? (fun k => k.rend == e.rstart) =
      before.reverse.find? fun k => k.unmarked && k.rend == e.rstart := by
    rw [← List.filter_reverse, List.find?_filter]
    congr 1
    funext k
    cases k.unmarked <;> simp [beq_eq_decide]
  rw [previousNeighbour.eq_def, joint]
  have apart : ∀ {j : Event}, (j.unmarked = true → j.rend ≠ e.rstart) ↔ ¬(j.unmarked && j.rend == e.rstart) = true := by simp
  rcases hf : before.reverse.find? fun k => k.unmarked && k.rend == e.rstart with _ | k
  · have none' : ∀ k ∈ before, k.unmarked = true → k.rend ≠ e.rstart := fun k hk =>
      apart.mpr (List.find?_eq_none.mp hf k (List.mem_reverse.mpr hk))
    have noneAt : ¬∃ ahead k behind, before = ahead ++ k :: behind ∧ k.unmarked = true ∧ k.rend = e.rstart ∧
        (∀ j ∈ behind, j.unmarked = true → j.rend ≠ e.rstart) ∧ k.id = n := by
      rintro ⟨ahead, k, behind, rfl, hu, hk, -⟩
      exact none' k (by simp) hu hk
    rw [or_iff_right noneAt, and_iff_right none']
    rcases memory with _ | ⟨i, t⟩ <;> simp [hf]
  · obtain ⟨hk, behind, ahead, split, later⟩ := List.find?_eq_some_iff_append.mp hf
    have place : before = ahead.reverse ++ k :: behind.reverse := by
      rw [← List.reverse_reverse (as := before), split]
      simp
    obtain ⟨hu, hr⟩ := Bool.and_eq_true_iff.mp hk
    have some' : ¬∀ k ∈ before, k.unmarked = true → k.rend ≠ e.rstart := fun h =>
      h k (by rw [place]; simp) hu (beq_iff_eq.mp hr)
    rw [or_iff_left fun h => some' h.1, hf]
    constructor
    · intro hid
      exact ⟨ahead.reverse, k, behind.reverse, place, hu, beq_iff_eq.mp hr,
        fun j hj => apart.mpr (by simpa [imp_iff_not_or] using later j (List.mem_reverse.mp hj)), beq_iff_eq.mp hid⟩
    · rintro ⟨ahead', k', behind', rfl, hu', hr', later', hid⟩
      have found : (ahead' ++ k' :: behind').reverse.find? (fun k => k.unmarked && k.rend == e.rstart) = some k' :=
        List.find?_eq_some_iff_append.mpr ⟨by simp [hu', hr'], behind'.reverse, ahead'.reverse, by simp,
          fun j hj => by simpa [imp_iff_not_or] using apart.mp (later' j (List.mem_reverse.mp hj))⟩
      rw [hf] at found
      cases found
      exact beq_iff_eq.mpr hid

theorem agrees_covered {memory : Option (Nat × Nat)} {now tol n : Nat} (cover : coverAt (before ++ e :: after) now = some e)
    (h : ((before ++ e :: after).map (·.id)).Nodup) :
    agrees (before ++ e :: after) memory now tol n = true ↔ n = e.id ∨
      (now - e.rstart ≤ tol ∧
        ((∃ ahead k behind, before = ahead ++ k :: behind ∧ k.unmarked = true ∧ k.rend = e.rstart ∧
            (∀ j ∈ behind, j.unmarked = true → j.rend ≠ e.rstart) ∧ k.id = n) ∨
         ((∀ k ∈ before, k.unmarked = true → k.rend ≠ e.rstart) ∧ memory = some (n, e.rstart)))) ∨
      (e.rend - now ≤ tol ∧ ∃ ahead k behind, after = ahead ++ k :: behind ∧ k.unmarked = true ∧
        (∀ j ∈ ahead, j.unmarked = false) ∧ k.id = n ∧ k.rstart = e.rend) := by
  simp only [agrees, cover, splitAt_around h, Bool.or_eq_true, Bool.and_eq_true, decide_eq_true_iff, beq_iff_eq,
    previousNeighbour_iff, or_assoc, eq_comm (a := e.id)]
  rw [← nextNeighbour_iff]
  rcases (after.filter Event.unmarked).head? with _ | k <;> simp

end Around

theorem agrees_uncovered {l : List Event} {memory : Option (Nat × Nat)} {now tol n : Nat} (cover : coverAt l now = none) :
    agrees l memory now tol n = true ↔
      (∃ e ∈ l, e.unmarked = true ∧ e.id = n ∧
        ((now < e.rstart ∧ e.rstart ≤ now + tol) ∨ (e.rend ≤ now ∧ now ≤ e.rend + tol))) ∨
      (∃ t, memory = some (n, t) ∧ t ≤ now ∧ now ≤ t + tol) := by
  simp only [agrees, cover]
  rw [Bool.or_eq_true, Bool.or_eq_true]
  have remembered : memory.any (fun m => m.1 == n && decide (m.2 ≤ now) && decide (now ≤ m.2 + tol)) = true ↔
      ∃ t, memory = some (n, t) ∧ t ≤ now ∧ now ≤ t + tol := by
    rcases memory with _ | ⟨i, t⟩
    · simp
    · simp [and_assoc]
  rw [← remembered]
  refine or_congr ?_ (by rcases memory with _ | ⟨i, t⟩ <;> rfl)
  simp only [List.any_eq_true, Bool.and_eq_true, beq_iff_eq, decide_eq_true_iff, ← exists_or, ← and_or_left, and_assoc]

/-! ## One channel's comparison (R89) -/

/-- R88: whether the id that a PULSE names agrees; none named does. -/
def Channel.agreesWith (x : Channel) (g : ChannelConfig) (id : Option Nat) : Bool :=
  match id with
  | some i => agrees x.playlist x.watch.lastEnded x.now g.watch.agreeTol i
  | none => true

/-- R89: a channel after a PULSE has been compared. -/
def Channel.pulsed (x : Channel) (id : Option Nat) : Channel :=
  match x.config with
  | some g => { x with watch := { agreementRuns (x.agreesWith g id) x.watch with lastMain := id } }
  | none => x

/-- R89: what the comparison hands out. -/
def Channel.pulseNews (x : Channel) (c : Chan) (id : Option Nat) : List Outgoing :=
  let w := (x.pulsed id).watch
  if w.diverged = x.watch.diverged then []
  else [.notice ⟨.diverged, some c, flag w.diverged ++ opt u32 w.lastMain ++ opt u32 ((coverAt x.playlist x.now).map (·.id))⟩]

theorem Channel.pulsed_configured {x : Channel} {g : ChannelConfig} (hg : x.config = some g) (id : Option Nat) :
    x.pulsed id = { x with watch := { agreementRuns (x.agreesWith g id) x.watch with lastMain := id } } := by
  simp only [Channel.pulsed, hg]

theorem Plant.comparePulse_configured {p : Plant} {c : Chan} {g : ChannelConfig} (hg : (p.chan c).config = some g) (id : Option Nat) :
    p.comparePulse c id =
      let w := ((p.chan c).pulsed id).watch
      if w.diverged = (p.chan c).watch.diverged then p.setChan c ((p.chan c).pulsed id)
      else (p.setChan c ((p.chan c).pulsed id)).notify .diverged (some c) (flag w.diverged ++ opt u32 w.lastMain ++
        opt u32 ((coverAt (p.chan c).playlist (p.chan c).now).map (·.id))) := by
  simp only [Plant.comparePulse, Plant.config, hg, Plant.chan_modChan_same]
  rw [Channel.pulsed_configured hg]
  cases id <;> rfl

theorem Plant.comparePulse_eq (p : Plant) (c : Chan) (id : Option Nat) : p.comparePulse c id =
    { p.setChan c ((p.chan c).pulsed id) with outbox := p.outbox ++ (p.chan c).pulseNews c id } := by
  rcases hg : (p.chan c).config with _ | g
  · have quiet : p.comparePulse c id = p := by simp only [Plant.comparePulse, Plant.config, hg]
    have still : (p.chan c).pulsed id = p.chan c := by simp only [Channel.pulsed, hg]
    rw [quiet, Channel.pulseNews, still, if_pos rfl, List.append_nil, Plant.setChan_chan]
  · simp only [Plant.comparePulse_configured hg, Channel.pulseNews]
    split
    · rw [List.append_nil]
      rfl
    · rfl

/-- R89: the runs and the flag, as the two cases of the rule say them. -/
theorem agreementRuns_eq (ok : Bool) (w : Watch) (id : Option Nat) : { agreementRuns ok w with lastMain := id } =
    { w with
      lastMain := id, agree := if ok then min 3 (w.agree + 1) else 0, disagree := if ok then 0 else min 3 (w.disagree + 1),
      diverged := if ok then w.diverged && decide (w.agree + 1 < 3) else w.diverged || decide (3 ≤ w.disagree + 1) } := by
  have up : ∀ n : Nat, (min 3 n != 3) = decide (n < 3) := fun n => by
    rw [bne, Bool.eq_iff_iff]
    simp
  have reached : ∀ n : Nat, (min 3 n == 3) = decide (3 ≤ n) := fun n => by
    rw [Bool.eq_iff_iff]
    simp
  cases ok <;> simp [agreementRuns, up, reached]

/-! ## All of them (R67) -/

theorem Plant.comparePulses_fields (ids : Chan → Option Nat) (l : List Chan) (nodup : l.Nodup) (p : Plant) :
    let q := l.foldl (fun q c => q.comparePulse c (ids c)) p
    (∀ c ∈ l, q.chan c = (p.chan c).pulsed (ids c)) ∧ (∀ c ∉ l, q.chan c = p.chan c) ∧
    q.outbox = p.outbox ++ l.flatMap (fun c => (p.chan c).pulseNews c (ids c)) ∧
    { q with chans := p.chans, outbox := p.outbox } = p := by
  induction l generalizing p with
  | nil => exact ⟨fun c h => (List.not_mem_nil h).elim, fun _ _ => rfl, (List.append_nil _).symm, rfl⟩
  | cons a l ih =>
    obtain ⟨fresh, nodup⟩ := List.nodup_cons.mp nodup
    have first := p.comparePulse_eq a (ids a)
    have chanSame : (p.comparePulse a (ids a)).chan a = (p.chan a).pulsed (ids a) := by
      rw [first]
      exact p.chan_setChan_same a _
    have chanOther : ∀ c, c ≠ a → (p.comparePulse a (ids a)).chan c = p.chan c := fun c hc => by
      rw [first]
      exact p.chan_setChan_other _ hc
    obtain ⟨inside, outside, outbox, rest⟩ := ih nodup (p.comparePulse a (ids a))
    have apart : ∀ c ∈ l, c ≠ a := fun c hc hca => fresh (hca ▸ hc)
    refine ⟨fun c hc => ?_, fun c hc => ?_, ?_, ?_⟩
    · rcases List.mem_cons.mp hc with rfl | hc
      · exact (outside c fresh).trans chanSame
      · rw [List.foldl_cons, inside c hc, chanOther c (apart c hc)]
    · obtain ⟨hca, hc⟩ := not_or.mp (mt List.mem_cons.mpr hc)
      rw [List.foldl_cons, outside c hc, chanOther c hca]
    · have news : l.flatMap (fun c => ((p.comparePulse a (ids a)).chan c).pulseNews c (ids c)) =
          l.flatMap fun c => (p.chan c).pulseNews c (ids c) :=
        List.flatMap_congr fun c hc => by rw [chanOther c (apart c hc)]
      have own : (p.comparePulse a (ids a)).outbox = p.outbox ++ (p.chan a).pulseNews a (ids a) := by rw [first]
      rw [List.foldl_cons, outbox, news, own, List.flatMap_cons, List.append_assoc]
    · have kept : ({ p.comparePulse a (ids a) with chans := p.chans, outbox := p.outbox } : Plant) = p := by rw [first]; rfl
      exact (congrArg (fun q : Plant => ({ q with chans := p.chans, outbox := p.outbox } : Plant)) rest).trans kept

/-- A list handed out member by member, where most hand out nothing. -/
theorem flatMap_filter_eq {α β : Type} {f : α → List β} {g : α → β} {a b : α → Bool} (l : List α)
    (quiet : ∀ x, a x = false → b x = false) (told : ∀ x, a x = true → f x = if b x then [g x] else []) :
    (l.filter a).flatMap f = (l.filter b).map g := by
  induction l with
  | nil => rfl
  | cons x l ih =>
    rcases ha : a x with _ | _
    · simp [ha, quiet x ha, ih]
    · rcases hb : b x with _ | _ <;> simp [ha, hb, told x ha, ih]

/-- R67: what a PULSE sets for the part as a whole. -/
def Plant.pulseTaken (p : Plant) (number day : Nat) : Plant :=
  { p with pulseMem := some number, heartbeat := .running p.hbTimeout, mainDay := some day }

theorem Plant.takePulse_copy {p : Plant} {number : Nat} (h : p.pulseMem = some number) (day : Nat) (ids : List (Option Nat)) :
    p.takePulse number day ids = p := if_pos h

theorem Plant.takePulse_new {p : Plant} {number : Nat} (h : p.pulseMem ≠ some number) (day : Nat) (ids : List (Option Nat)) :
    p.takePulse number day ids = (allChans.filter fun c => (p.chan c).mode != .idle).foldl
      (fun q c => q.comparePulse c (ids[c.val]?.join)) (p.pulseTaken number day) := if_neg h

/-- Settles O29: the channels are compared one after another, each by its own id. -/
theorem pulseMovesAgreement : Obligations.PulseMovesAgreement := by
  rintro l n day ids s p rfl -
  have run : exec (.pulse l n day ids) s = .next (s.passed ((s.plant.goodFrame l).takePulse n day ids)) := rfl
  rw [run]
  generalize s.plant.goodFrame l = p
  refine ⟨fun copy => by rw [Plant.takePulse_copy copy], fun new => ⟨_, rfl, ?_⟩⟩
  obtain ⟨inside, outside, outbox, rest⟩ := Plant.comparePulses_fields (fun c => ids[c.val]?.join)
    (allChans.filter fun c => (p.chan c).mode != .idle) (allChans_nodup.filter _) (p.pulseTaken n day)
  rw [← Plant.takePulse_new new] at inside outside outbox rest
  have quiet : ∀ c, (p.chan c).mode = .idle → (p.takePulse n day ids).chan c = p.chan c := fun c hm =>
    outside c (by simp [hm])
  have moves : ∀ c, (p.chan c).mode ≠ .idle → (p.takePulse n day ids).chan c = (p.chan c).pulsed (ids[c.val]?.join) := fun c hm =>
    inside c (by simp [hm, mem_allChans])
  refine ⟨congrArg Plant.pulseMem rest, congrArg Plant.heartbeat rest, congrArg Plant.mainDay rest, ?_, ?_, fun c => ⟨quiet c, ?_⟩⟩
  · exact congrArg (fun q : Plant => ({ q with pulseMem := p.pulseMem, heartbeat := p.heartbeat, mainDay := p.mainDay } : Plant)) rest
  · rw [outbox]
    refine congrArg (p.outbox ++ ·) (flatMap_filter_eq allChans (fun c hc => ?_) fun c hc => ?_)
    · have idle : (p.chan c).mode = .idle := by simpa using hc
      rw [quiet c idle]
      exact bne_self_eq_false _
    · have running : (p.chan c).mode ≠ .idle := by simpa using hc
      rw [moves c running]
      rcases Decidable.em (((p.chan c).pulsed (ids[c.val]?.join)).watch.diverged = (p.chan c).watch.diverged) with h | h
      · exact (if_pos h).trans (if_neg fun hn => bne_iff_ne.mp hn h).symm
      · exact (if_neg h).trans (if_pos (bne_iff_ne.mpr h)).symm
  · rintro g _ _ id _ hm hg rfl rfl hid rfl nodup
    have named : ids[c.val]?.join = id := by rw [hid]; rfl
    refine ⟨(p.chan c).agreesWith g id, ?_, ?_, ?_, ?_⟩
    · rw [moves c hm, named, Channel.pulsed_configured hg, agreementRuns_eq]
    · rintro rfl
      rfl
    · rintro i e before after rfl cover place
      rw [place] at cover nodup
      rw [← agrees_covered cover nodup, Channel.agreesWith, place]
    · rintro i rfl cover
      rw [← agrees_uncovered cover]
      rfl

end Sys2Proof.Machine
end

