-- ==== Sys2Proof/Proofs/Returns.lean ====
section
/-! PROOFS. RETURN (R169, R170) and CANCEL RETURN (R173). -/

namespace Sys2Proof.Machine

/-! ## RETURN -/

theorem returnToMain_unknown {a : ReturnArgs} (p : Plant) (h : 15 < a.channel) : returnToMain a p = p.refuse .noSuchChannel := by
  simp only [returnToMain, chanOf_none h]

section Return

variable {p : Plant} {c : Chan} {nb : Option DayLabel} {force moved : Bool} {t : Option Nat}

theorem returnToMain_mode (h : (p.chan c).mode ≠ .onLocal) : returnToMain ⟨c.val, nb, force⟩ p = p.refuse .wrongMode := by
  simp only [returnToMain, chanOf_val, if_pos h]

theorem returnToMain_time {u : Status} (h : (p.chan c).mode = .onLocal) (ht : p.notBeforeOf c nb = .error u) :
    returnToMain ⟨c.val, nb, force⟩ p = p.refuse u := by
  simp only [returnToMain, chanOf_val, if_neg (not_not_intro h), ht]

/-- R169: the checks behind the channel, its mode and the time asked for. -/
theorem returnToMain_timed (h : (p.chan c).mode = .onLocal) (ht : p.notBeforeOf c nb = .ok (t, moved)) :
    returnToMain ⟨c.val, nb, force⟩ p =
      if (p.chan c).replica.state ≠ .current then p.refuse .stale
      else if (p.chan c).watch.health = .failed ∧ !force then p.refuse .mainFailed
      else match p.returnEvent c t with
        | none => p.refuse .noBoundary
        | some e => (p.setReturn c e t force, reply (if moved then .adjusted else .ok) (p.ctfBytes c e.rstart ++ u32 e.id)) := by
  simp only [returnToMain, chanOf_val, if_neg (not_not_intro h), ht] <;> rfl

/-- R169, check 3: what the time asked for gives, where it is in order. -/
theorem notBeforeOf_ok (h : (nb = none ∧ t = none ∧ moved = false) ∨
      (∃ d k, nb = some d ∧ d.label.valid (p.family c) = true ∧ ctfOf (p.family c) (p.chan c).baseDay d = some k ∧
        t = some k ∧ moved = d.label.dropped (p.family c))) : p.notBeforeOf c nb = .ok (t, moved) := by
  rcases h with ⟨rfl, rfl, rfl⟩ | ⟨d, k, rfl, hv, hk, rfl, rfl⟩
  · rfl
  · simp only [Plant.notBeforeOf, hv, hk, if_true]

theorem notBeforeOf_invalid {d : DayLabel} (h : d.label.valid (p.family c) = false) :
    p.notBeforeOf c (some d) = .error .badTime := by
  simp only [Plant.notBeforeOf, h, Bool.false_eq_true, if_false]

theorem notBeforeOf_outside {d : DayLabel} (hv : d.label.valid (p.family c) = true)
    (hk : ctfOf (p.family c) (p.chan c).baseDay d = none) : p.notBeforeOf c (some d) = .error .outOfWindow := by
  simp only [Plant.notBeforeOf, hv, hk, if_true]

/-- R169, R170: the first unmarked event at or after the candidate frame, inside the window. -/
theorem returnEvent_none {first : Nat} (hf : p.candidate c t = first)
    (h : ∀ e ∈ (p.chan c).playlist, e.unmarked = true → first ≤ e.rstart → 4 * (p.family c).fpd ≤ e.rstart) :
    p.returnEvent c t = none := by
  rw [Plant.returnEvent, List.find?_eq_none, hf]
  intro e he hall
  simp only [Bool.and_eq_true, decide_eq_true_iff] at hall
  obtain ⟨⟨hu, hle⟩, hlt⟩ := hall
  exact absurd (h e he hu hle) (Nat.not_le.mpr hlt)

theorem returnEvent_some {first : Nat} {before after : List Event} {e : Event} (hf : p.candidate c t = first)
    (place : (p.chan c).playlist = before ++ e :: after) (hu : e.unmarked = true) (hle : first ≤ e.rstart)
    (hlt : e.rstart < 4 * (p.family c).fpd)
    (h : ∀ k ∈ before, k.unmarked = true → first ≤ k.rstart → 4 * (p.family c).fpd ≤ k.rstart) :
    p.returnEvent c t = some e := by
  rw [Plant.returnEvent, List.find?_eq_some_iff_append, hf]
  refine ⟨by simp [hu, hle, hlt], before, after, place, fun k hk => ?_⟩
  simpa [imp_iff_not_or, or_assoc] using h k hk

end Return

/-! ## CANCEL RETURN -/

theorem cancelReturn_unknown {n : Nat} (p : Plant) (h : 15 < n) : cancelReturn n p = p.refuse .noSuchChannel := by
  simp only [cancelReturn, chanOf_none h]

theorem cancelReturn_mode {p : Plant} {c : Chan} (h : (p.chan c).mode ≠ .returning) :
    cancelReturn c.val p = p.refuse .wrongMode := by
  simp only [cancelReturn, chanOf_val, if_neg h]

/-- R173: a return that is not due yet is cancelled. -/
theorem Plant.cancelReturn_early {p : Plant} {c : Chan} {r : ReturnRec} (hr : (p.chan c).returnRec = some r)
    (h : r.state ≠ .pending ∨ (p.chan c).now < r.tRet) (why : CancelReason) : p.cancelReturn c why =
      { p.setChan c { p.chan c with mode := .onLocal, returnRec := some { r with state := .cancelled, cancel := some why } } with
        outbox := p.outbox ++ [.back (.resumeAt c r.event r.sent true), .notice ⟨.returnCancelled, some c,
          u32 r.event ++ dayLabelBytes (dayLabelOf (p.family c) (p.chan c).baseDay r.tRet) ++ u8 why.code⟩] } := by
  have due : (p.chan c).returnDue = false := by
    simp only [Channel.returnDue, hr]
    rcases h with h | h
    · simp [h]
    · simp [h]
  generalize hq : (p.tellResume c r true).modChan c
    (fun x => { x with mode := .onLocal, returnRec := some { r with state := .cancelled, cancel := some why } }) = q
  have bytes : q.ctfBytes c r.tRet = p.ctfBytes c r.tRet := by
    have chan : q.chan c = { p.chan c with
        mode := .onLocal, returnRec := some { r with state := .cancelled, cancel := some why } } := by
      rw [← hq, Plant.chan_modChan_same]
      rfl
    refine Plant.ctfBytes_of_same (congrArg Channel.config chan :) (fun o => ?_) (congrArg Channel.baseDay chan :) _
    rw [← hq]
    cases o <;> rfl
  simp only [Plant.cancelReturn, hr, due, hq, bytes, Bool.false_eq_true, if_false]
  rw [← hq]
  exact congrArg (fun o => ({ (_ : Plant) with outbox := o } : Plant)) (List.append_assoc _ _ _)

/-- R170: the return set, with its record, RESUME AT and RETURN SET. -/
theorem Plant.setReturn_eq (p : Plant) (c : Chan) (e : Event) (t : Option Nat) (force : Bool) {r : ReturnRec}
    (hr : r = { state := .pending, tRet := e.rstart, event := e.id, notBefore := t, force := force,
                sent := dayLabelOf (p.family c) (p.chan c).baseDay e.rstart, against := (p.chan c).watch.health == .failed,
                cancel := none }) : p.setReturn c e t force =
      { p.setChan c { p.chan c with mode := .returning, returnRec := some r } with
        outbox := p.outbox ++ [.back (.resumeAt c r.event r.sent false), .notice ⟨.returnSet, some c,
          u32 r.event ++ dayLabelBytes r.sent ++ flag r.force ++ flag r.against⟩] } := by
  subst hr
  exact congrArg (fun o => ({ (_ : Plant) with outbox := o } : Plant)) (List.append_assoc _ _ _)

/-- Settles O57: the checks of RETURN in their order, and the cancellation. -/
theorem returnIsSetAndCancelled : Obligations.ReturnIsSetAndCancelled := by
  rintro tag n s c x ha rfl
  refine ⟨fun h => ⟨fun nb force => State.request_answers _ _ ha (returnToMain_unknown _ h),
    State.request_answers _ _ ha (cancelReturn_unknown _ h)⟩, ?_⟩
  rintro rfl
  refine ⟨fun hm nb force => State.request_answers _ _ ha (returnToMain_mode hm), fun d force hm => ⟨fun hv => ?_, fun hv hk => ?_⟩,
    ?_, fun hm => State.request_answers _ _ ha (cancelReturn_mode hm), fun r hm hr early => ?_⟩
  · exact State.request_answers _ _ ha (returnToMain_time hm (notBeforeOf_invalid hv))
  · exact State.request_answers _ _ ha (returnToMain_time hm (notBeforeOf_outside hv hk))
  · rintro nb force t moved hm time cmd first rfl configured unconfigured
    have timed := returnToMain_timed (force := force) hm (notBeforeOf_ok time)
    have candidate : s.plant.candidate c t = first := by
      rcases hg : (s.plant.chan c).config with _ | g
      · simp only [Plant.candidate, Plant.conf, Plant.config, hg, unconfigured hg, Nat.add_zero]
      · simp only [Plant.candidate, Plant.conf, Plant.config, hg, configured g hg]
    refine ⟨fun hs => ?_, fun hs hf forced => ?_, fun hs hf => ⟨fun hnone => ?_, ?_⟩⟩
    · exact State.request_answers _ _ ha (timed.trans (if_pos hs))
    · rw [if_neg (not_not_intro hs), if_pos (by simp [hf, forced])] at timed
      exact State.request_answers _ _ ha timed
    · rw [if_neg (not_not_intro hs), if_neg (by simpa [imp_iff_not_or] using hf), returnEvent_none candidate hnone] at timed
      exact State.request_answers _ _ ha timed
    · rintro before e after r place hu hle hlt earlier hr
      rw [if_neg (not_not_intro hs), if_neg (by simpa [imp_iff_not_or] using hf),
        returnEvent_some candidate place hu hle hlt earlier] at timed
      simp only [Plant.setReturn_eq s.plant c e t force hr] at timed
      rw [hr] at timed ⊢
      exact State.request_answers _ _ ha timed
  · refine State.request_answers _ _ ha ?_
    simp only [cancelReturn, chanOf_val, if_pos hm]
    rw [Plant.cancelReturn_early hr early]
    rfl

end Sys2Proof.Machine
end

