-- ==== Sys2Proof/Proofs/Around.lean ====
section
/-! PROOFS. What the work on one channel leaves alone: every other channel, and of the channel itself its clock, its configuration,
its replica and its watch. -/

namespace Sys2Proof.Machine

/-- What the Cue Sequencer's and the Changeover Unit's work leaves of a channel: its clock, configuration, line, replica and watch. -/
def Channel.steady (x : Channel) : Nat × Nat × Option ChannelConfig × Nat × Replica × Watch :=
  (x.now, x.baseDay, x.config, x.lineInForce, x.replica, x.watch)

/-- What outcomes, grants and withdrawals leave of a port: its role, its state, its preroll and, where it is asked for, its holder. -/
def Port.fixed (x : Port) (spares : Bool) : Role × PortState × Nat × Option Chan :=
  (x.role, x.state, x.preroll, if spares then x.holder else none)

/-- Every other channel as it stands, what is steady of this one, the ports' fixed parts and, where it is asked for, what the spare
arbiter remembers: its queue and the holders. -/
def Plant.around (p : Plant) (c : Chan) (spares : Bool) :
    (Chan → Option Channel) × (Nat × Nat × Option ChannelConfig × Nat × Replica × Watch) ×
      (PortNo → Role × PortState × Nat × Option Chan) × List Chan :=
  (fun d => if d = c then none else some (p.chan d), (p.chan c).steady, fun i => (p.port i).fixed spares,
    if spares then p.spareQueue else [])

variable {b : Bool}

theorem Plant.around_eq_iff {p q : Plant} {c : Chan} :
    q.around c b = p.around c b ↔ (q.chan c).steady = (p.chan c).steady ∧ (∀ d, d ≠ c → q.chan d = p.chan d) ∧
      (∀ i, (q.port i).fixed b = (p.port i).fixed b) ∧ (b = true → q.spareQueue = p.spareQueue) := by
  simp only [Plant.around, Prod.mk.injEq, funext_iff]
  refine ⟨fun h => ⟨h.2.1, fun d hd => by simpa [hd] using h.1 d, h.2.2.1, fun hb => by simpa [hb] using h.2.2.2⟩,
    fun h => ⟨fun d => ?_, h.1, h.2.2.1, ?_⟩⟩
  · split
    · rfl
    · next hd => rw [h.2.1 d hd]
  · split
    · next hb => exact h.2.2.2 hb
    · rfl

theorem Plant.otherChans_of_around {p q : Plant} {c : Chan} (h : q.around c b = p.around c b) : p.OtherChans q c :=
  (Plant.around_eq_iff.mp h).2.1

theorem Plant.spareQueue_of_around {p q : Plant} {c : Chan} (h : q.around c true = p.around c true) : q.spareQueue = p.spareQueue :=
  (Plant.around_eq_iff.mp h).2.2.2 rfl

theorem Plant.fixed_of_around {p q : Plant} {c : Chan} (h : q.around c b = p.around c b) (i : PortNo) :
    (q.port i).fixed b = (p.port i).fixed b := (Plant.around_eq_iff.mp h).2.2.1 i

theorem Plant.state_of_around {p q : Plant} {c : Chan} (h : q.around c b = p.around c b) (i : PortNo) :
    (q.port i).state = (p.port i).state := congrArg (·.2.1) (Plant.fixed_of_around h i)

theorem Plant.role_of_around {p q : Plant} {c : Chan} (h : q.around c b = p.around c b) (i : PortNo) :
    (q.port i).role = (p.port i).role := congrArg (·.1) (Plant.fixed_of_around h i)

theorem Plant.preroll_of_around {p q : Plant} {c : Chan} (h : q.around c b = p.around c b) (i : PortNo) :
    (q.port i).preroll = (p.port i).preroll := congrArg (·.2.2.1) (Plant.fixed_of_around h i)

theorem Plant.holder_of_around {p q : Plant} {c : Chan} (h : q.around c true = p.around c true) (i : PortNo) :
    (q.port i).holder = (p.port i).holder := congrArg (·.2.2.2) (Plant.fixed_of_around h i)

theorem Plant.steady_of_around {p q : Plant} {c : Chan} (h : q.around c b = p.around c b) :
    (q.chan c).steady = (p.chan c).steady := (Plant.around_eq_iff.mp h).1

theorem Plant.foldl_around {α : Type} (f : Plant → α → Plant) (c : Chan) (h : ∀ q a, (f q a).around c b = q.around c b) (l : List α)
    (p : Plant) : (l.foldl f p).around c b = p.around c b := by
  induction l generalizing p with
  | nil => rfl
  | cons a l ih => rw [List.foldl_cons, ih, h]

/-! ## The parts of the plant -/

theorem Plant.around_modChan (p : Plant) (c : Chan) (f : Channel → Channel)
    (h : (f (p.chan c)).now = (p.chan c).now ∧ (f (p.chan c)).baseDay = (p.chan c).baseDay ∧
      (f (p.chan c)).config = (p.chan c).config ∧ (f (p.chan c)).lineInForce = (p.chan c).lineInForce ∧
      (f (p.chan c)).replica = (p.chan c).replica ∧ (f (p.chan c)).watch = (p.chan c).watch) :
    (p.modChan c f).around c b = p.around c b := by
  refine Plant.around_eq_iff.mpr ⟨by simp [Channel.steady, h], fun d hd => ?_, fun _ => rfl, fun _ => rfl⟩
  simp [Plant.chan_modChan, hd]

theorem Port.fixed_all {x y : Port} (h : x.fixed true = y.fixed true) (b : Bool) : x.fixed b = y.fixed b := by
  simp only [Port.fixed, Prod.mk.injEq] at h ⊢
  cases b <;> simp_all

theorem Plant.around_ports {p q : Plant} (h : ∀ i, (q.port i).fixed b = (p.port i).fixed b) (hc : q.chans = p.chans)
    (hq : q.spareQueue = p.spareQueue) (c : Chan) : q.around c b = p.around c b := by
  refine Plant.around_eq_iff.mpr ⟨?_, fun d _ => ?_, h, fun _ => hq⟩
  · simp only [Plant.chan, hc]
  · simp only [Plant.chan, hc]

theorem Plant.around_setPort (p : Plant) (c : Chan) (i : PortNo) (x : Port) (h : x.fixed b = (p.port i).fixed b) :
    (p.setPort i x).around c b = p.around c b := by
  refine Plant.around_ports (p := p) (q := p.setPort i x) (fun j => ?_) rfl rfl c
  by_cases hj : j = i
  · subst hj; simpa using h
  · rw [p.port_setPort_other x hj]

theorem Plant.around_modPort (p : Plant) (c : Chan) (i : PortNo) (f : Port → Port) (h : ∀ x, (f x).fixed b = x.fixed b) :
    (p.modPort i f).around c b = p.around c b := p.around_setPort c i _ (h _)

theorem Plant.around_mapPorts (p : Plant) (c : Chan) (f : Port → Port) (h : ∀ x, (f x).fixed b = x.fixed b) :
    (p.mapPorts f).around c b = p.around c b := by
  refine Plant.around_ports (p := p) (q := p.mapPorts f) (fun j => ?_) rfl rfl c
  rw [Plant.mapPorts, Plant.port_mapPorts, h]

@[simp] theorem Plant.queue_around (p : Plant) (c : Chan) (v : List Chan) :
    ({ p with spareQueue := v } : Plant).around c false = p.around c false := rfl
@[simp] theorem Plant.setRef_around (p : Plant) (r : RefId) (x : Reference) : (p.setRef r x).around = p.around := by cases r <;> rfl
@[simp] theorem Plant.emit_around (p : Plant) (o : Outgoing) : (p.emit o).around = p.around := rfl
@[simp] theorem Plant.notify_around (p : Plant) (k : NoticeKind) (d : Option Chan) (b : List Byte) :
    (p.notify k d b).around = p.around := rfl
@[simp] theorem Plant.sendBack_around (p : Plant) (r : BackRec) : (p.sendBack r).around = p.around := rfl
@[simp] theorem Plant.leaveQueue_around (p : Plant) (c d : Chan) : (p.leaveQueue d).around c false = p.around c false := rfl
@[simp] theorem Plant.lend_around (p : Plant) (c d : Chan) (i : PortNo) : (p.lend d i).around c false = p.around c false :=
  p.around_modPort c i (fun x => { x with holder := some d }) fun _ => rfl

@[simp] theorem Plant.modEvent_around (p : Plant) (c : Chan) (id : Nat) (f : Event → Event) :
    (p.modEvent c id f).around c b = p.around c b := p.around_modChan c _ ⟨rfl, rfl, rfl, rfl, rfl, rfl⟩

@[simp] theorem Port.handFrame_fixed (x : Port) (f : List Byte) : (x.handFrame f).fixed b = x.fixed b := by
  unfold Port.handFrame; split <;> rfl

@[simp] theorem Port.grant_fixed (x : Port) (cmd : DevCmd) (r : Requester) : (x.grant cmd r).fixed b = x.fixed b :=
  x.handFrame_fixed cmd.frame

@[simp] theorem Port.popCommand_fixed (x : Port) : x.popCommand.fixed b = x.fixed b := by unfold Port.popCommand; split <;> rfl

@[simp] theorem Port.dropFinished_fixed (x : Port) : x.dropFinished.fixed b = x.fixed b := by
  unfold Port.dropFinished; split <;> rfl

@[simp] theorem Port.withdrawLists_fixed (x : Port) (c : Chan) (all : Bool) : (x.withdrawLists c all).fixed b = x.fixed b := rfl

@[simp] theorem Port.withdrawSlot_fixed (x : Port) (c : Chan) (which : StepEntry → Bool) :
    (x.withdrawSlot c which).fixed b = x.fixed b := by
  unfold Port.withdrawSlot
  repeat' split
  all_goals rfl

@[simp] theorem Port.markOutstanding_fixed (x : Port) (c : Chan) (f : StepEntry → StepEntry) :
    (x.markOutstanding c f).fixed b = x.fixed b := by
  unfold Port.markOutstanding
  repeat' split
  all_goals rfl

@[simp] theorem Plant.arbitrate_around (p : Plant) (c : Chan) (i : PortNo) : (p.arbitrate i).around c b = p.around c b := by
  have set : ∀ x : Port, x.fixed b = (p.port i).fixed b → (p.setPort i x).around c b = p.around c b := p.around_setPort c i
  have slot : ∀ x : Port, ({ x with slotCue := none } : Port).fixed b = x.fixed b := fun _ => rfl
  have pass : ∀ x : Port, ({ x with slotPass := none } : Port).fixed b = x.fixed b := fun _ => rfl
  simp only [Plant.arbitrate]
  repeat' split
  all_goals simp [Plant.tellCueLate, set, slot, pass]

@[simp] theorem Plant.withdrawLists_around (p : Plant) (c d : Chan) (i : PortNo) (all : Bool) :
    (p.modPort i fun x => x.withdrawLists d all).around c b = p.around c b := p.around_modPort c i _ (by simp)

@[simp] theorem Plant.handList_around (p : Plant) (c : Chan) (i : PortNo) (l : CmdList) :
    (p.handList i l).around c b = p.around c b := by
  rw [Plant.handList, Plant.arbitrate_around, p.around_modPort c i _ (by intro; rfl)]

@[simp] theorem Plant.resolve_around (p : Plant) (c : Chan) : (p.resolve c).around c b = p.around c b := by
  exact p.around_modChan c _ (by simp)

@[simp] theorem Plant.withdrawCue_around (p : Plant) (c : Chan) (which : StepEntry → Bool) :
    (p.withdrawCue c which).around c b = p.around c b :=
  p.around_mapPorts c _ (by simp)

@[simp] theorem Plant.eventRemoved_around (p : Plant) (c : Chan) (id : Nat) : (p.eventRemoved c id).around c b = p.around c b := by
  simp [Plant.eventRemoved, Plant.around_modChan, Channel.recursor, Channel.dropEntries]

@[simp] theorem Plant.recursor_around (p : Plant) (c : Chan) : (p.modChan c Channel.recursor).around c b = p.around c b :=
  p.around_modChan c _ ⟨rfl, rfl, rfl, rfl, rfl, rfl⟩

@[simp] theorem Plant.appendEntry_around (p : Plant) (item : AsRunItem) : (p.appendEntry item).around c b = p.around c b := rfl

@[simp] theorem Plant.closeEntry_around (p : Plant) (c : Chan) (exit : ExitKind) (finish : Nat) :
    (p.closeEntry c exit finish).around c b = p.around c b := by
  unfold Plant.closeEntry
  split
  · rfl
  · simp [Plant.modEvent_around, Plant.around_modChan]

@[simp] theorem Plant.openEntryFor_around (p : Plant) (c : Chan) (event start : Nat) (kind : EntryKind) (port : Option PortNo) :
    (p.openEntryFor c event start kind port).around c b = p.around c b := by
  unfold Plant.openEntryFor
  split <;> simp [Plant.around_modChan]

@[simp] theorem Plant.joinEntry_around (p : Plant) (c : Chan) (event t : Nat) (kind : EntryKind) (port : Option PortNo) :
    (p.joinEntry c event t kind port).around c b = p.around c b := by
  unfold Plant.joinEntry
  repeat' split
  all_goals simp

@[simp] theorem Plant.notAired_around (p : Plant) (c : Chan) (e : Event) : (p.notAired c e).around c b = p.around c b := rfl

@[simp] theorem Plant.airingEntry_around (p : Plant) (c : Chan) (halted : Bool) (e : Event) :
    (p.airingEntry c halted e).around c b = p.around c b := by
  simp only [Plant.airingEntry]
  repeat' split
  all_goals simp

@[simp] theorem Plant.doneEntry_around (p : Plant) (c : Chan) (stepped : Bool) (e : Event) :
    (p.doneEntry c stepped e).around c b = p.around c b := by
  unfold Plant.doneEntry
  repeat' split
  all_goals simp

@[simp] theorem Plant.renewIssuing_around (p : Plant) (c : Chan) : (p.renewIssuing c).around c b = p.around c b := by
  simp [Plant.renewIssuing, Plant.around_modChan]

@[simp] theorem Plant.enqueueDue_around (p : Plant) (c : Chan) : (p.enqueueDue c).around c b = p.around c b := by
  simp [Plant.enqueueDue, Plant.around_modChan]

@[simp] theorem Plant.taken_around (p : Plant) (c : Chan) (s : StepEntry) : (p.taken c s).around c b = p.around c b := by
  unfold Plant.taken
  split
  · exact p.modEvent_around c _ _
  · rfl

@[simp] theorem Plant.tellHalted_around (p : Plant) (c : Chan) (z : Option HaltCause) : (p.tellHalted c z).around c b = p.around c b := by
  unfold Plant.tellHalted
  split <;> rfl

@[simp] theorem Plant.tellCueFault_around (p : Plant) (c : Chan) (s : StepEntry) (r : CueReason) (action : Option Mismatch) :
    (p.tellCueFault c s r action).around c b = p.around c b := rfl

@[simp] theorem Plant.tellEmpty_around (p : Plant) (c : Chan) (event : Nat) : (p.tellEmpty c event).around c b = p.around c b := rfl

@[simp] theorem Plant.tellCueLate_around (p : Plant) (c : Chan) (s : StepEntry) : (p.tellCueLate c s).around c b = p.around c b := rfl

@[simp] theorem Plant.withdrawSlots_around (p : Plant) (c : Chan) : (p.withdrawSlots c).around c b = p.around c b :=
  p.around_mapPorts c _ (by simp)

@[simp] theorem Plant.haltSequence_around (p : Plant) (c : Chan) (cause : HaltCause) :
    (p.haltSequence c cause).around c b = p.around c b := by
  unfold Plant.haltSequence
  split <;> simp [Plant.around_modChan]

@[simp] theorem Plant.clearHalt_around (p : Plant) (c : Chan) : (p.clearHalt c).around c b = p.around c b := by
  unfold Plant.clearHalt
  split <;> simp [Plant.around_modChan]

@[simp] theorem Plant.decideSwitch_around (p : Plant) (c : Chan) (pos : SwitchPos) (frame : Nat) (cause : SwitchCause)
    (act : SwAct) : (p.decideSwitch c pos frame cause act).around c b = p.around c b := by
  simp [Plant.decideSwitch, Plant.around_modChan]

@[simp] theorem Plant.writeLast_around (p : Plant) (c : Chan) (o : DevOutcome) : (p.writeLast c o).around c b = p.around c b := by
  unfold Plant.writeLast
  split <;> simp [Plant.around_modChan]

@[simp] theorem Plant.dropRepetitions_around (p : Plant) (c : Chan) (s : StepEntry) :
    (p.dropRepetitions c s).around c b = p.around c b := by
  unfold Plant.dropRepetitions
  split <;> simp [Plant.modEvent_around, Plant.around_modChan]

@[simp] theorem Plant.skipEvent_around (p : Plant) (c : Chan) (s : StepEntry) : (p.skipEvent c s).around c b = p.around c b := by
  simp only [Plant.skipEvent]
  repeat' split
  all_goals simp [Plant.modEvent_around, Plant.around_modChan, Channel.dropEntriesLike]

@[simp] theorem Plant.mismatchAction_around (p : Plant) (c : Chan) (s : StepEntry) (z : Mismatch) :
    (p.mismatchAction c s z).around c b = p.around c b := by
  unfold Plant.mismatchAction
  split <;> simp

@[simp] theorem Plant.cueOutcome_around (p : Plant) (c : Chan) (s : StepEntry) (o : DevOutcome) :
    (p.cueOutcome c s o).around c b = p.around c b := by
  have rolls : ∀ q : Plant, (q.modEvent c s.event fun e => if e.cue = .cueing then { e with cue := .rolling } else e).around c b =
      q.around c b := fun q => q.modEvent_around c _ _
  unfold Plant.cueOutcome
  repeat' split
  all_goals simp [rolls]

@[simp] theorem Plant.takeHeadsN_around (n : Nat) (c : Chan) (p : Plant) : (Plant.takeHeadsN n c p).around c b = p.around c b := by
  induction n generalizing p with
  | zero => rfl
  | succ n ih =>
    have slot : ∀ (q : Plant) (i : PortNo) (k : Chan × StepEntry),
        (q.modPort i fun y => { y with slotCue := some k }).around c b = q.around c b := fun q i k =>
      q.around_modPort c i _ (by intro; rfl)
    simp only [Plant.takeHeadsN]
    repeat' split
    all_goals simp [ih, slot, Plant.around_modChan]

@[simp] theorem Plant.takeHeads_around (p : Plant) (c : Chan) : (p.takeHeads c).around c b = p.around c b := by simp [Plant.takeHeads]

@[simp] theorem Plant.sequence_around (p : Plant) (c : Chan) : (p.sequence c).around c b = p.around c b := by
  unfold Plant.sequence
  split <;> simp [Plant.around_modChan]

@[simp] theorem Plant.setCue_around (p : Plant) (c : Chan) (id : Nat) (s : CueState) : (p.setCue c id s).around c b = p.around c b :=
  p.modEvent_around c _ _

@[simp] theorem Plant.finishIfEnded_around (p : Plant) (c : Chan) (stepped : Bool) (id : Nat) :
    (p.finishIfEnded c stepped id).around c b = p.around c b := by
  unfold Plant.finishIfEnded
  repeat' split
  all_goals simp

@[simp] theorem Plant.tellIfEmpty_around (p : Plant) (c : Chan) (e : Event) : (p.tellIfEmpty c e).around c b = p.around c b := by
  unfold Plant.tellIfEmpty
  split <;> simp [Plant.modEvent_around]

@[simp] theorem Plant.moveCue_around (p : Plant) (c : Chan) (stepped : Bool) (id : Nat) :
    (p.moveCue c stepped id).around c b = p.around c b := by
  simp only [Plant.moveCue]
  repeat' split
  all_goals simp [Plant.modEvent_around, Plant.around_modChan, Channel.dropEntries]

@[simp] theorem Plant.moveCues_around (p : Plant) (c : Chan) (stepped : Bool) : (p.moveCues c stepped).around c b = p.around c b := by
  simp only [Plant.moveCues, Plant.recursor_around]
  exact Plant.foldl_around _ c (fun q id => q.moveCue_around c stepped id) _ _

@[simp] theorem Plant.flushCue_around (p : Plant) (c : Chan) : (p.flushCue c).around c b = p.around c b := by
  simp [Plant.flushCue, Plant.around_modChan]

@[simp] theorem Plant.cursorTo_around (p : Plant) (c : Chan) (target : Option Nat) : (p.cursorTo c target).around c b = p.around c b := by
  simp [Plant.cursorTo, Plant.around_modChan]

@[simp] theorem Plant.cueJoin_around (p : Plant) (c : Chan) (event offset t : Nat) :
    (p.cueJoin c event offset t).around c b = p.around c b := by
  simp [Plant.cueJoin, Plant.modEvent_around]

@[simp] theorem Plant.cueBridge_around (p : Plant) (c : Chan) (t : Nat) : (p.cueBridge c t).around c b = p.around c b := by
  simp [Plant.cueBridge]

@[simp] theorem Plant.cueAdopt_around (p : Plant) (c : Chan) (event : Nat) : (p.cueAdopt c event).around c b = p.around c b := by
  simp [Plant.cueAdopt, Plant.modEvent_around]

@[simp] theorem Plant.retireEntries_around (p : Plant) (c : Chan) (id : Nat) :
    (p.retireEntries c id).around c b = p.around c b := by
  rw [Plant.retireEntries, Plant.around_mapPorts]
  · exact p.around_modChan c _ ⟨rfl, rfl, rfl, rfl, rfl, rfl⟩
  · intro y
    have mark := y.markOutstanding_fixed (b := b) c (StepEntry.leave .retired id)
    dsimp only
    repeat' split
    all_goals exact mark

/-! ## The arbiters -/

@[simp] theorem Plant.handStop_around (p : Plant) (c : Chan) (i : PortNo) (notBefore : Option Nat) :
    (p.handStop c i notBefore).around c b = p.around c b := by
  simp only [Plant.handStop]
  split
  · rw [Plant.writeLast_around, Plant.around_modPort _ c i _ (by intro; rfl), Plant.handList_around]
  · simp

@[simp] theorem Plant.requestSpare_around (p : Plant) (c : Chan) : (p.requestSpare c).1.around c false = p.around c false := by
  unfold Plant.requestSpare
  repeat' split
  all_goals simp

/-! ## The Replication Unit and the Site Watch Unit -/

/-! ## The Changeover Unit -/

@[simp] theorem Plant.setMode_around (p : Plant) (c : Chan) (m : Mode) : (p.setMode c m).around c b = p.around c b := by
  simp [Plant.setMode, Plant.around_modChan]

@[simp] theorem Plant.usePort_around (p : Plant) (c : Chan) (i : Option PortNo) : (p.usePort c i).around c b = p.around c b := by
  simp [Plant.usePort, Plant.around_modChan]

@[simp] theorem Plant.modTake_around (p : Plant) (c : Chan) (f : TakeRec → TakeRec) : (p.modTake c f).around c b = p.around c b := by
  simp [Plant.modTake, Plant.around_modChan]

@[simp] theorem Plant.cancelJoinSwitch_around (p : Plant) (c : Chan) : (p.cancelJoinSwitch c).around c b = p.around c b := by
  simp [Plant.cancelJoinSwitch, Plant.around_modChan]

@[simp] theorem Plant.noteCover_around (p : Plant) (c : Chan) : (p.noteCover c).around c b = p.around c b := by
  simp [Plant.noteCover, Plant.around_modChan]

@[simp] theorem Plant.setSwitch_around (p : Plant) (c : Chan) (pos : SwitchPos) (cause : SwitchCause) :
    (p.setSwitch c pos cause).around c b = p.around c b := by
  simp only [Plant.setSwitch]
  split <;> simp [Plant.around_modChan]

@[simp] theorem Plant.keepBridge_around (p : Plant) (c : Chan) : (p.keepBridge c).around c b = p.around c b := by
  simp [Plant.keepBridge, apply_ite (Plant.around · c b)]

@[simp] theorem Plant.bridgeAt_around (p : Plant) (c : Chan) (t : Nat) (r : BridgeReason) :
    (p.bridgeAt c t r).around c b = p.around c b := by
  simp [Plant.bridgeAt]

@[simp] theorem Plant.joinOn_around (p : Plant) (c : Chan) (i : PortNo) (now0 t : Nat) (e : Event) :
    (p.joinOn c i now0 t e).around c b = p.around c b := by
  have binds : ∀ q r : Plant, (q.modEvent c e.id fun e => if e.cue = .pending then r.bindTo .cueing e else e).around c b = q.around c b :=
    fun q r => q.modEvent_around c _ _
  simp [Plant.joinOn, binds]

@[simp] theorem Plant.coldJoin_around (p : Plant) (c : Chan) (i : PortNo) (now0 : Nat) (stage : Stage) :
    (p.coldJoin c i now0 stage).around c b = p.around c b := by
  simp only [Plant.coldJoin]
  repeat' split
  all_goals simp

@[simp] theorem Plant.startLocalRec_around (p : Plant) (c : Chan) : (p.startLocalRec c).around c b = p.around c b := by
  simp [Plant.startLocalRec, Plant.around_modChan]

@[simp] theorem Plant.localJoinOn_around (p : Plant) (c : Chan) (i : PortNo) : (p.localJoinOn c i).around c b = p.around c b := by
  simp [Plant.localJoinOn]

@[simp] theorem Plant.spareGranted_around (p : Plant) (c : Chan) (i : PortNo) : (p.spareGranted c i).around c b = p.around c b := by
  unfold Plant.spareGranted
  split <;> simp

@[simp] theorem Plant.backToPrimary_around (p : Plant) (c : Chan) : (p.backToPrimary c).around c b = p.around c b := by
  simp [Plant.backToPrimary]

@[simp] theorem Plant.tellFailed_around (p : Plant) (c : Chan) (k : NoticeKind) (kind : TakeKind) (r : FailReason) (i : PortNo) :
    (p.tellFailed c k kind r i).around c b = p.around c b := rfl

@[simp] theorem Plant.tryPrimary_around (p : Plant) (c : Chan) : (p.tryPrimary c).around c false = p.around c false := by
  unfold Plant.tryPrimary
  repeat' split
  all_goals simp

@[simp] theorem Plant.failRecord_around (p : Plant) (c : Chan) (r : FailReason) : (p.failRecord c r).around c b = p.around c b := by
  simp [Plant.failRecord]

@[simp] theorem Plant.leaveServer_around (p : Plant) (c : Chan) : (p.leaveServer c).around c b = p.around c b := by
  rw [Plant.leaveServer_eq]
  refine p.around_modChan c _ ?_
  unfold Channel.markCut
  split <;> simp

@[simp] theorem Plant.noFurtherPort_around (p : Plant) (c : Chan) (i : PortNo) (r : FailReason) (t : Nat) (drop : Bool) :
    (p.noFurtherPort c i r t drop).around c false = p.around c false := by simp [Plant.noFurtherPort, apply_ite (Plant.around · c false)]

@[simp] theorem Plant.failedAfterSwitch_around (p : Plant) (c : Chan) (i : PortNo) (r : FailReason) :
    (p.failedAfterSwitch c i r).around c b = p.around c b := by simp [Plant.failedAfterSwitch]

theorem Plant.requestSpare_around_of (p : Plant) (c : Chan) {q : Plant} {o : Option PortNo} (h : p.requestSpare c = (q, o)) :
    q.around c false = p.around c false := by
  have := p.requestSpare_around c
  rwa [h] at this

@[simp] theorem Plant.askSpare_around (p : Plant) (c : Chan) (i : PortNo) (r : FailReason) (t : Nat) (after : Bool) :
    (p.askSpare c i r t after).around c false = p.around c false := by
  simp only [Plant.askSpare]
  split
  · next h => split <;> split <;> simp [p.requestSpare_around_of c h]
  · next h => simp [p.requestSpare_around_of c h]

@[simp] theorem Plant.turnToSpare_around (p : Plant) (c : Chan) (i : PortNo) : (p.turnToSpare c i).around c false = p.around c false := by
  simp [Plant.turnToSpare]

theorem Plant.spareAnew_around_of (p : Plant) (c : Chan) {q : Plant} {o : Option PortNo} (h : p.spareAnew c = (q, o)) :
    q.around c false = p.around c false := by
  unfold Plant.spareAnew at h
  split at h
  · cases h; rfl
  · exact p.requestSpare_around_of c h

@[simp] theorem Plant.spareLost_around (p : Plant) (c : Chan) (i : PortNo) : (p.spareLost c i).around c false = p.around c false := by
  simp [Plant.spareLost, Plant.around_modChan]

@[simp] theorem Plant.takePath_around (p : Plant) (c : Chan) : (p.takePath c).around c false = p.around c false := by
  unfold Plant.takePath
  repeat' split
  all_goals simp

@[simp] theorem Plant.beginTake_around (p : Plant) (c : Chan) (kind : TakeKind) (o : TakeOption) :
    (p.beginTake c kind o).around c false = p.around c false := by
  simp [Plant.beginTake, apply_ite (Plant.around · c false), Plant.around_modChan]

@[simp] theorem Plant.verifyOutcome_around (p : Plant) (c : Chan) (i : PortNo) (o : DevOutcome) :
    (p.verifyOutcome c i o).around c false = p.around c false := by
  simp only [Plant.verifyOutcome]
  repeat' split
  all_goals simp

@[simp] theorem Plant.withhold_around (p : Plant) (c : Chan) (r : WithholdReason) : (p.withhold c r).around c b = p.around c b := rfl

@[simp] theorem Plant.beginConfirm_around (p : Plant) (c : Chan) (demoted : Bool) :
    (p.beginConfirm c demoted).around c b = p.around c b := by
  simp [Plant.beginConfirm, Plant.around_modChan]

@[simp] theorem Plant.leaveConfirm_around (p : Plant) (c : Chan) (r : WithholdReason) : (p.leaveConfirm c r).around c b = p.around c b := by
  simp [Plant.leaveConfirm, Plant.around_modChan]

@[simp] theorem Plant.expireConfirm_around (p : Plant) (c : Chan) : (p.expireConfirm c).around c false = p.around c false := by
  unfold Plant.expireConfirm
  repeat' split
  all_goals simp

@[simp] theorem Plant.trigger_around (p : Plant) (c : Chan) : (p.trigger c).around c false = p.around c false := by
  unfold Plant.trigger
  repeat' split
  all_goals simp

@[simp] theorem Plant.tellResume_around (p : Plant) (c : Chan) (r : ReturnRec) (cancel : Bool) :
    (p.tellResume c r cancel).around c b = p.around c b := rfl

@[simp] theorem Plant.logAtReturn_around (p : Plant) (c : Chan) (tRet : Nat) : (p.logAtReturn c tRet).around c b = p.around c b := by
  unfold Plant.logAtReturn
  repeat' split
  all_goals simp

@[simp] theorem Plant.cancelReturn_around (p : Plant) (c : Chan) (why : CancelReason) :
    (p.cancelReturn c why).around c b = p.around c b := by
  simp only [Plant.cancelReturn]
  repeat' split
  all_goals simp [Plant.around_modChan]

@[simp] theorem Plant.healthReport_around (p : Plant) (c : Chan) (before after : Health) :
    (p.healthReport c before after).around c false = p.around c false := by
  unfold Plant.healthReport
  repeat' split
  all_goals simp [Plant.around_modChan]

/-! ## Local running -/

@[simp] theorem Plant.cutOnFiller_around (p : Plant) (c : Chan) (before : SwitchPos) :
    (p.cutOnFiller c before).around c b = p.around c b := by
  simp only [Plant.cutOnFiller]
  repeat' split
  all_goals simp

@[simp] theorem Plant.toFiller_around (p : Plant) (c : Chan) (cause : SwitchCause) : (p.toFiller c cause).around c b = p.around c b := by
  simp [Plant.toFiller]

@[simp] theorem Plant.enterLocal_around (p : Plant) (c : Chan) : (p.enterLocal c).around c b = p.around c b := by
  unfold Plant.enterLocal
  split <;> simp

@[simp] theorem Plant.tellDone_around (p : Plant) (c : Chan) (k : TakeRec) (j : JoinRec) (kind : EntryKind) :
    (p.tellDone c k j kind).around c b = p.around c b := rfl

@[simp] theorem Plant.tellBridge_around (p : Plant) (c : Chan) (k : TakeRec) (r : BridgeReason) (t : Nat) :
    (p.tellBridge c k r t).around c b = p.around c b := rfl

@[simp] theorem Plant.endOnBridge_around (p : Plant) (c : Chan) (t : Nat) (r : BridgeReason) :
    (p.endOnBridge c t r).around c b = p.around c b := by
  simp only [Plant.endOnBridge]
  repeat' split
  all_goals simp

@[simp] theorem Plant.follow_around (p : Plant) (c : Chan) : (p.follow c).around c b = p.around c b := by
  unfold Plant.follow
  split <;> simp

/-! ## A port's settling -/

/-- No other channel works with the port. -/
def Plant.Sole (p : Plant) (c : Chan) (i : PortNo) : Prop := ∀ d, d ≠ c → (p.chan d).portInUse ≠ some i

theorem Plant.sole_of_around {p q : Plant} {c : Chan} {i : PortNo} (h : q.around c b = p.around c b) (hs : p.Sole c i) : q.Sole c i :=
  fun d hd => by rw [Plant.otherChans_of_around h d hd]; exact hs d hd

theorem Plant.usersOf_sole {p : Plant} {c : Chan} {i : PortNo} (hs : p.Sole c i) : ∀ d ∈ p.usersOf i, d = c := by
  intro d hd
  by_contra hne
  exact hs d hne ((p.mem_usersOf i d).mp hd).1

theorem Plant.settlePort_around (p : Plant) (c : Chan) (i : PortNo) (hs : p.Sole c i) : (p.settlePort i).around c b = p.around c b := by
  have takes : ∀ (l : List Chan) (q : Plant), (∀ d ∈ l, d = c) → (l.foldl Plant.takeHeads q).around c b = q.around c b := by
    intro l
    induction l with
    | nil => intro q _; rfl
    | cons d l ih =>
      intro q h
      obtain rfl := h d (by simp)
      rw [List.foldl_cons, ih _ fun e he => h e (by simp [he]), Plant.takeHeads_around]
  have drop : (({ p with ports := p.ports.set i.val (p.port i).dropFinished } : Plant)).around c b = p.around c b :=
    p.around_setPort c i _ (by simp)
  simp only [Plant.settlePort, Plant.arbitrate_around, Plant.userTakes]
  rw [takes _ _ (Plant.usersOf_sole (p := { p with ports := p.ports.set i.val (p.port i).dropFinished }) hs), drop]

theorem Plant.wakeCue_around (p : Plant) (c : Chan) (hs : ∀ i, (p.chan c).portInUse = some i → p.Sole c i) :
    (p.wakeCue c).around c b = p.around c b := by
  unfold Plant.wakeCue
  split
  · next i hi => exact p.settlePort_around c i (hs i hi)
  · simp

theorem Plant.joinFail_around (p : Plant) (c : Chan) (i : PortNo) (r : FailReason) (hs : p.Sole c i) :
    (p.joinFail c i r).around c false = p.around c false := by
  simp only [Plant.joinFail]
  have settle : ∀ q : Plant, q.around c false = p.around c false → (q.settlePort i).around c false = p.around c false := fun q h => by
    rw [q.settlePort_around c i (Plant.sole_of_around h hs), h]
  split
  · refine settle _ ?_
    split <;> simp
  · exact settle _ (by simp)

theorem Plant.localJoin_around (p : Plant) (c : Chan) (i : PortNo) (hs : p.Sole c i) :
    (p.localJoin c i).around c false = p.around c false := by
  simp only [Plant.localJoin]
  split
  · rw [Plant.joinFail_around _ c i .timeout (Plant.sole_of_around (p := p) (b := true) (by simp) hs)]; simp
  · simp

theorem Plant.pointDone_around (p : Plant) (c : Chan) (i : PortNo) (hs : p.Sole c i) :
    (p.pointDone c i).around c false = p.around c false := by
  simp only [Plant.pointDone]
  repeat' split
  all_goals simp [Plant.joinFail_around _ c i _ hs]

theorem Plant.listOutcome_around (p : Plant) (c : Chan) (i : PortNo) (purpose : Purpose) (live : Bool) (cmd : DevCmd)
    (o : DevOutcome) (hs : p.Sole c i) : (p.listOutcome c i purpose live cmd o).around c false = p.around c false := by
  have sole : (p.writeLast c o).Sole c i := Plant.sole_of_around (b := true) (p.writeLast_around c o) hs
  simp only [Plant.listOutcome]
  repeat' split
  all_goals simp [Plant.joinFail_around _ c i _ sole, Plant.pointDone_around _ c i sole]

end Sys2Proof.Machine
end

