-- ==== Sys2Proof/Proofs/Tells.lean ====
section
/-! PROOFS. The Cue Sequencer, the arbiters and the Changeover Unit hand out nothing but notices, behind what has been handed out
before. -/

namespace Sys2Proof.Machine

/-- Behind what had been handed out stand notices alone. -/
def Plant.Tells (p q : Plant) : Prop := ∃ l : List Notice, q.outbox = p.outbox ++ l.map .notice

theorem Plant.Tells.refl (p : Plant) : p.Tells p := ⟨[], by simp⟩

theorem Plant.Tells.of_eq {b p q : Plant} (h : b.Tells p) (e : q.outbox = p.outbox) : b.Tells q := by
  obtain ⟨l, hl⟩ := h
  exact ⟨l, e.trans hl⟩

theorem Plant.Tells.mem {p q : Plant} (h : p.Tells q) {o : Outgoing} (m : o ∈ p.outbox) : o ∈ q.outbox := by
  obtain ⟨l, hl⟩ := h
  rw [hl]
  exact List.mem_append_left _ m

theorem Plant.mem_notices {p : Plant} {n : Notice} : n ∈ p.notices ↔ .notice n ∈ p.outbox := by
  simp only [Plant.notices, List.mem_filterMap]
  constructor
  · rintro ⟨o, ho, e⟩
    split at e
    · cases e; exact ho
    · cases e
  · exact fun h => ⟨_, h, rfl⟩

theorem Plant.Tells.mem_notices {p q : Plant} (h : p.Tells q) {n : Notice} (m : n ∈ p.notices) : n ∈ q.notices :=
  Plant.mem_notices.mpr (h.mem (Plant.mem_notices.mp m))

theorem Plant.Tells.entries {p q : Plant} (h : p.Tells q) : q.entries = p.entries := by
  obtain ⟨l, hl⟩ := h
  simp [Plant.entries, hl, List.filterMap_map]

theorem Plant.Tells.records {p q : Plant} (h : p.Tells q) : q.records = p.records := by
  obtain ⟨l, hl⟩ := h
  simp [Plant.records, hl, List.filterMap_map]

section
variable {a p : Plant} (h : a.Tells p)
include h

/-! ## The parts of the plant -/

theorem Plant.notify_tells (k : NoticeKind) (c : Option Chan) (b : List Byte) : a.Tells (p.notify k c b) := by
  obtain ⟨l, hl⟩ := h
  exact ⟨l ++ [⟨k, c, b⟩], by simp [Plant.notify, Plant.emit, hl]⟩

theorem Plant.modChan_tells (c : Chan) (f : Channel → Channel) : a.Tells (p.modChan c f) := h.of_eq (by rfl)
theorem Plant.setPort_tells (i : PortNo) (x : Port) : a.Tells (p.setPort i x) := h.of_eq (by rfl)
theorem Plant.modPort_tells (i : PortNo) (f : Port → Port) : a.Tells (p.modPort i f) := h.of_eq (by rfl)
theorem Plant.mapPorts_tells (f : Port → Port) : a.Tells (p.mapPorts f) := h.of_eq (by rfl)
theorem Plant.modEvent_tells (c : Chan) (id : Nat) (f : Event → Event) : a.Tells (p.modEvent c id f) := h.of_eq (by rfl)
theorem Plant.leaveQueue_tells (c : Chan) : a.Tells (p.leaveQueue c) := h.of_eq (by rfl)
theorem Plant.lend_tells (c : Chan) (i : PortNo) : a.Tells (p.lend c i) := Plant.notify_tells (Plant.modPort_tells h _ _) _ _ _

/-! ## The Cue Sequencer -/

theorem Plant.taken_tells (c : Chan) (s : StepEntry) : a.Tells (p.taken c s) := by
  unfold Plant.taken
  split
  · exact h.of_eq (by rfl)
  · exact h

theorem Plant.tellHalted_tells (c : Chan) (z : Option HaltCause) : a.Tells (p.tellHalted c z) := by
  unfold Plant.tellHalted
  split <;> exact Plant.notify_tells h _ _ _

theorem Plant.tellCueFault_tells (c : Chan) (s : StepEntry) (r : CueReason) (action : Option Mismatch) :
    a.Tells (p.tellCueFault c s r action) := Plant.notify_tells h _ _ _

theorem Plant.tellCueLate_tells (c : Chan) (s : StepEntry) : a.Tells (p.tellCueLate c s) := Plant.notify_tells h _ _ _

theorem Plant.haltSequence_tells (c : Chan) (cause : HaltCause) : a.Tells (p.haltSequence c cause) := by
  unfold Plant.haltSequence
  split
  · exact h
  · exact Plant.tellHalted_tells (h.of_eq (by rfl)) _ _

theorem Plant.clearHalt_tells (c : Chan) : a.Tells (p.clearHalt c) := by
  unfold Plant.clearHalt
  split
  · exact Plant.tellHalted_tells (h.of_eq (by rfl)) _ _
  · exact h

theorem Plant.decideSwitch_tells (c : Chan) (pos : SwitchPos) (frame : Nat) (cause : SwitchCause) (act : SwAct) :
    a.Tells (p.decideSwitch c pos frame cause act) := h.of_eq (by rfl)

theorem Plant.writeLast_tells (c : Chan) (o : DevOutcome) : a.Tells (p.writeLast c o) := by
  unfold Plant.writeLast
  split
  · exact h
  · exact h.of_eq (by rfl)

theorem Plant.dropRepetitions_tells (c : Chan) (s : StepEntry) : a.Tells (p.dropRepetitions c s) := by
  unfold Plant.dropRepetitions
  split <;> exact h.of_eq (by rfl)

theorem Plant.skipEvent_tells (c : Chan) (s : StepEntry) : a.Tells (p.skipEvent c s) := by
  simp only [Plant.skipEvent]
  repeat' split
  all_goals exact h.of_eq (by rfl)

theorem Plant.mismatchAction_tells (c : Chan) (s : StepEntry) (z : Mismatch) : a.Tells (p.mismatchAction c s z) := by
  unfold Plant.mismatchAction
  split
  · exact h
  · exact Plant.skipEvent_tells h _ _
  · exact Plant.haltSequence_tells h _ _

theorem Plant.cueOutcome_tells (c : Chan) (s : StepEntry) (o : DevOutcome) : a.Tells (p.cueOutcome c s o) := by
  have last := Plant.writeLast_tells h c o
  unfold Plant.cueOutcome
  repeat' split
  · exact h
  · exact last.of_eq (by rfl)
  · exact last
  · exact Plant.dropRepetitions_tells last _ _
  · exact Plant.mismatchAction_tells (Plant.tellCueFault_tells last _ _ _ _) _ _ _
  · exact Plant.tellCueFault_tells last _ _ _ _

omit h in
theorem Plant.takeHeadsN_tells (n : Nat) (c : Chan) : ∀ {p : Plant}, a.Tells p → a.Tells (Plant.takeHeadsN n c p) := by
  induction n with
  | zero => exact fun h => h
  | succ n ih =>
    intro p h
    have pop : ∀ rest s, a.Tells ((p.modChan c fun x => { x with seq := { x.seq with queue := rest } }).taken c s) := fun rest s =>
      Plant.taken_tells (h.of_eq (by rfl)) c s
    simp only [Plant.takeHeadsN]
    repeat' split
    · exact h
    · exact h
    · exact ih (Plant.cueOutcome_tells (pop _ _) _ _ _)
    · exact ih (pop _ _)
    · exact h
    · exact ih (pop _ _)
    · exact (pop _ _).of_eq (by rfl)
    · exact ih (Plant.cueOutcome_tells (pop _ _) _ _ _)

theorem Plant.takeHeads_tells (c : Chan) : a.Tells (p.takeHeads c) := Plant.takeHeadsN_tells _ c h

/-! ## The arbiters -/

theorem Plant.arbitrate_tells (i : PortNo) : a.Tells (p.arbitrate i) := by
  simp only [Plant.arbitrate]
  repeat' split
  all_goals try exact h.of_eq (by rfl)
  exact Plant.tellCueLate_tells (h.of_eq (by rfl)) _ _

theorem Plant.userTakes_tells (i : PortNo) : a.Tells (p.userTakes i) := by
  rw [Plant.userTakes]
  generalize p.usersOf i = l
  induction l generalizing p with
  | nil => exact h
  | cons c l ih => exact ih (Plant.takeHeads_tells h c)

theorem Plant.settlePort_tells (i : PortNo) : a.Tells (p.settlePort i) :=
  Plant.arbitrate_tells (Plant.userTakes_tells (h.of_eq (by rfl)) i) i

theorem Plant.wakeCue_tells (c : Chan) : a.Tells (p.wakeCue c) := by
  unfold Plant.wakeCue
  split
  · exact Plant.settlePort_tells h _
  · exact Plant.takeHeads_tells h _

theorem Plant.handList_tells (i : PortNo) (l : CmdList) : a.Tells (p.handList i l) := Plant.arbitrate_tells (h.of_eq (by rfl)) i

theorem Plant.handStop_tells (c : Chan) (i : PortNo) (notBefore : Option Nat) : a.Tells (p.handStop c i notBefore) := by
  have hand := Plant.handList_tells h i (stopList c notBefore)
  simp only [Plant.handStop]
  split
  · exact Plant.writeLast_tells (hand.of_eq (by rfl)) c .timeout
  · exact hand

theorem Plant.requestSpare_tells (c : Chan) : a.Tells (p.requestSpare c).1 := by
  unfold Plant.requestSpare
  repeat' split
  · exact h
  · exact Plant.lend_tells h _ _
  · exact h.of_eq (by rfl)

/-! ## The Changeover Unit -/

theorem Plant.cueBridge_tells (c : Chan) (t : Nat) : a.Tells (p.cueBridge c t) := h.of_eq (by rfl)

theorem Plant.keepBridge_tells (c : Chan) : a.Tells (p.keepBridge c) := by
  simp only [Plant.keepBridge]
  split
  · exact h.of_eq (by rfl)
  · exact h

theorem Plant.bridgeAt_tells (c : Chan) (t : Nat) (r : BridgeReason) : a.Tells (p.bridgeAt c t r) := h.of_eq (by rfl)

theorem Plant.joinOn_tells (c : Chan) (i : PortNo) (now0 t : Nat) (e : Event) : a.Tells (p.joinOn c i now0 t e) :=
  Plant.handList_tells (h.of_eq (by rfl)) i _

theorem Plant.coldJoin_tells (c : Chan) (i : PortNo) (now0 : Nat) (stage : Stage) : a.Tells (p.coldJoin c i now0 stage) := by
  have start : ∀ f, a.Tells ((p.keepBridge c).modTake c f) := fun f => (Plant.keepBridge_tells h c).of_eq (by rfl)
  simp only [Plant.coldJoin]
  repeat' split
  · exact Plant.bridgeAt_tells (start _) _ _ _
  · exact Plant.bridgeAt_tells (start _) _ _ _
  · exact Plant.joinOn_tells (start _) _ _ _ _ _

theorem Plant.localJoinOn_tells (c : Chan) (i : PortNo) : a.Tells (p.localJoinOn c i) :=
  Plant.coldJoin_tells (h.of_eq (by rfl)) _ _ _ _

theorem Plant.spareGranted_tells (c : Chan) (i : PortNo) : a.Tells (p.spareGranted c i) := by
  have use : a.Tells (p.usePort c (some i)) := h.of_eq (by rfl)
  unfold Plant.spareGranted
  split
  · exact Plant.localJoinOn_tells use _ _
  · exact Plant.localJoinOn_tells use _ _
  · exact use
  · exact h

theorem Plant.spareFreed_tells (i : PortNo) : a.Tells (p.spareFreed i) := by
  simp only [Plant.spareFreed]
  repeat' split
  · exact Plant.spareGranted_tells (Plant.lend_tells (Plant.leaveQueue_tells h _) _ _) _ _
  · exact h
  · exact h

theorem Plant.releaseSpare_tells (c : Chan) : a.Tells (p.releaseSpare c) := by
  simp only [Plant.releaseSpare]
  split
  · exact h
  · exact Plant.settlePort_tells (Plant.spareFreed_tells (h.of_eq (by rfl)) _) _

theorem Plant.tellFailed_tells (c : Chan) (k : NoticeKind) (kind : TakeKind) (r : FailReason) (i : PortNo) :
    a.Tells (p.tellFailed c k kind r i) := Plant.notify_tells h _ _ _

theorem Plant.tryPrimary_tells (c : Chan) : a.Tells (p.tryPrimary c) := by
  unfold Plant.tryPrimary
  repeat' split
  · exact Plant.localJoinOn_tells (h.of_eq (by rfl)) _ _
  · exact h.of_eq (by rfl)
  · exact h
  · exact h

theorem Plant.failRecord_tells (c : Chan) (r : FailReason) : a.Tells (p.failRecord c r) := h.of_eq (by rfl)
theorem Plant.leaveServer_tells (c : Chan) : a.Tells (p.leaveServer c) := h.of_eq (by rfl)

theorem Plant.failedAfterSwitch_tells (c : Chan) (i : PortNo) (r : FailReason) : a.Tells (p.failedAfterSwitch c i r) :=
  Plant.tellFailed_tells (h.of_eq (by rfl)) _ _ _ _ _

theorem Plant.noFurtherPort_tells (c : Chan) (i : PortNo) (r : FailReason) (t : Nat) (drop : Bool) :
    a.Tells (p.noFurtherPort c i r t drop) := by
  have start : a.Tells ((if drop then p.usePort c none else p).cueBridge c t) := by
    split <;> exact h.of_eq (by rfl)
  simp only [Plant.noFurtherPort]
  generalize (if drop then p.usePort c none else p).cueBridge c t = q at start ⊢
  split_ifs
  · exact start.of_eq (by rfl)
  · exact Plant.tryPrimary_tells (Plant.failedAfterSwitch_tells start c i r) c
  · exact Plant.failedAfterSwitch_tells start c i r

theorem Plant.askSpare_tells (c : Chan) (i : PortNo) (r : FailReason) (t : Nat) (after : Bool) :
    a.Tells (p.askSpare c i r t after) := by
  have ask := Plant.requestSpare_tells h c
  simp only [Plant.askSpare]
  split
  · next q s e =>
    rw [e] at ask
    have told : a.Tells ((if after then q.failedAfterSwitch c i r else q).usePort c (some s)) := by
      split
      · exact (Plant.failedAfterSwitch_tells ask c i r).of_eq (by rfl)
      · exact ask.of_eq (by rfl)
    generalize (if after then q.failedAfterSwitch c i r else q).usePort c (some s) = u at told ⊢
    split
    · exact Plant.localJoinOn_tells told _ _
    · exact Plant.coldJoin_tells (told.of_eq (by rfl)) _ _ _ _
  · next q e =>
    rw [e] at ask
    exact Plant.noFurtherPort_tells ask _ _ _ _ _

theorem Plant.turnToSpare_tells (c : Chan) (i : PortNo) : a.Tells (p.turnToSpare c i) := Plant.askSpare_tells (h.of_eq (by rfl)) _ _ _ _ _

theorem Plant.joinFail_tells (c : Chan) (i : PortNo) (r : FailReason) : a.Tells (p.joinFail c i r) := by
  have start : a.Tells ((p.modPort i fun x => x.withdrawLists c false).cancelJoinSwitch c) := h.of_eq (by rfl)
  simp only [Plant.joinFail]
  split
  · refine Plant.settlePort_tells ?_ i
    split
    · exact Plant.noFurtherPort_tells start _ _ _ _ _
    · exact Plant.askSpare_tells start _ _ _ _ _
  · exact Plant.settlePort_tells start i

theorem Plant.localJoin_tells (c : Chan) (i : PortNo) : a.Tells (p.localJoin c i) := by
  have join := Plant.localJoinOn_tells h c i
  simp only [Plant.localJoin]
  split
  · exact Plant.joinFail_tells (Plant.writeLast_tells join c .timeout) _ _ _
  · exact join

end

end Sys2Proof.Machine
end

