-- ==== Sys2Proof/Proofs/Spares.lean ====
section
/-! PROOFS. The settling of a port and the freeing of a spare, seen from a channel whose steps are not due and which waits for no
spare. -/

namespace Sys2Proof.Machine

/-! ## A port settles -/

/-- R123: with no due head the Cue Sequencer takes nothing. -/
theorem Plant.takeHeads_quiet {p : Plant} {c : Chan} (h : p.NoneDue c) : p.takeHeads c = p := by
  have hd := Plant.headDue_of_noneDue h
  rcases e : (p.chan c).seq.queue with _ | ⟨k, rest⟩
  · simp [Plant.takeHeads, Plant.takeHeadsN, e]
  · simp only [Channel.headDue, e, List.head?_cons, Option.any_some, Bool.and_eq_false_iff, decide_eq_false_iff_not,
      Nat.not_le] at hd
    simp only [Plant.takeHeads, e, List.length_cons, Plant.takeHeadsN]
    rcases hd with hd | hd <;> simp [hd]

theorem Plant.noneDue_of_chan {p q : Plant} {c : Chan} (h : p.NoneDue c) (e : q.chan c = p.chan c) : q.NoneDue c := by
  rw [Plant.NoneDue, e]
  exact h

/-- R123: the users of a port take what they may; a channel with no due head stands. -/
theorem Plant.foldl_takeHeads_chan (l : List Chan) {p : Plant} {c : Chan} (h : p.NoneDue c) :
    (l.foldl Plant.takeHeads p).chan c = p.chan c := by
  induction l generalizing p with
  | nil => rfl
  | cons d l ih =>
    have step : (p.takeHeads d).chan c = p.chan c := by
      by_cases hd : c = d
      · subst hd; rw [Plant.takeHeads_quiet h]
      · exact Plant.otherChans_of_around (p.takeHeads_around (b := true) d) c hd
    rw [List.foldl_cons, ih (Plant.noneDue_of_chan h step), step]

theorem Plant.settlePort_chan {p : Plant} {c : Chan} (i : PortNo) (h : p.NoneDue c) : (p.settlePort i).chan c = p.chan c := by
  have arb : ∀ q : Plant, (q.arbitrate i).chan c = q.chan c := fun q => by
    simp only [Plant.arbitrate]
    repeat' split
    all_goals rfl
  rw [Plant.settlePort, arb]
  exact Plant.foldl_takeHeads_chan _ (p := { p with ports := p.ports.set i.val (p.port i).dropFinished }) h

/-- What a settling port leaves of the spare arbiter and of every port. -/
theorem Plant.foldl_takeHeads_spares (l : List Chan) (p : Plant) :
    (∀ j, ((l.foldl Plant.takeHeads p).port j).fixed true = (p.port j).fixed true) ∧
      (l.foldl Plant.takeHeads p).spareQueue = p.spareQueue := by
  induction l generalizing p with
  | nil => exact ⟨fun _ => rfl, rfl⟩
  | cons d l ih =>
    have h := p.takeHeads_around (b := true) d
    obtain ⟨ports, queue⟩ := ih (p.takeHeads d)
    exact ⟨fun j => (ports j).trans (Plant.fixed_of_around h j), queue.trans (Plant.spareQueue_of_around h)⟩

theorem Plant.settlePort_spares (p : Plant) (i : PortNo) :
    (∀ j, ((p.settlePort i).port j).fixed true = (p.port j).fixed true) ∧ (p.settlePort i).spareQueue = p.spareQueue := by
  have drop : (({ p with ports := p.ports.set i.val (p.port i).dropFinished } : Plant)).around 0 true = p.around 0 true :=
    p.around_setPort 0 i _ (by simp)
  obtain ⟨ports, queue⟩ := Plant.foldl_takeHeads_spares
    (({ p with ports := p.ports.set i.val (p.port i).dropFinished } : Plant).usersOf i)
    { p with ports := p.ports.set i.val (p.port i).dropFinished }
  have arb := Plant.arbitrate_around (b := true)
    (({ p with ports := p.ports.set i.val (p.port i).dropFinished } : Plant).userTakes i) 0 i
  exact ⟨fun j => (Plant.fixed_of_around arb j).trans ((ports j).trans (Plant.fixed_of_around drop j)),
    (Plant.spareQueue_of_around arb).trans queue⟩

theorem Plant.settlePort_holder (p : Plant) (i j : PortNo) : ((p.settlePort i).port j).holder = (p.port j).holder :=
  congrArg (·.2.2.2) ((p.settlePort_spares i).1 j)

/-! ## A spare is freed -/

theorem Plant.heldSpare_some {p : Plant} {c : Chan} {i : PortNo} (h : p.heldSpare c = some i) : (p.port i).holder = some c := by
  simpa using List.find?_some h

theorem Plant.heldSpare_none {p : Plant} {c : Chan} : p.heldSpare c = none ↔ ∀ i, (p.port i).holder ≠ some c := by
  simp [Plant.heldSpare, allPorts, List.find?_eq_none]

theorem Plant.heldSpare_isSome {p : Plant} {c : Chan} {i : PortNo} (h : (p.port i).holder = some c) : (p.heldSpare c).isSome := by
  by_contra hn
  rw [Option.not_isSome_iff_eq_none] at hn
  exact Plant.heldSpare_none.mp hn i h

/-- R110: a freed spare is nothing to a channel that does not wait. -/
theorem Plant.spareFreed_unwaiting {p : Plant} {c : Chan} (i : PortNo) (hc : c ∉ p.spareQueue) :
    (p.spareFreed i).chan c = p.chan c ∧ c ∉ (p.spareFreed i).spareQueue ∧
      ∀ j, ((p.spareFreed i).port j).holder = some c → (p.port j).holder = some c := by
  simp only [Plant.spareFreed]
  split
  · split
    · next d hd =>
      have hne : d ≠ c := fun e => hc (e ▸ List.mem_of_find?_eq_some hd)
      have grant := ((p.leaveQueue d).lend d i).spareGranted_around (b := true) d i
      refine ⟨Plant.otherChans_of_around grant c hne.symm, ?_, fun j hj => ?_⟩
      · rw [Plant.spareQueue_of_around grant]
        exact fun m => hc (List.mem_of_mem_filter m)
      · rw [Plant.holder_of_around grant] at hj
        by_cases hji : j = i
        · subst hji
          exact absurd (Option.some.inj ((by simp [Plant.lend] : (((p.leaveQueue d).lend d j).port j).holder = some d).symm.trans hj)) hne
        · rwa [Plant.lend, Plant.notify_port, Plant.port_modPort_other _ _ hji] at hj
    · exact ⟨rfl, hc, fun _ h => h⟩
  · exact ⟨rfl, hc, fun _ h => h⟩

/-- R111: the release of a spare leaves a channel that waits for none waiting for none, and holding no spare but those that it held
beside. -/
theorem Plant.releaseSpare_spares {p : Plant} {c : Chan} (hc : c ∉ p.spareQueue) :
    c ∉ (p.releaseSpare c).spareQueue ∧
      ∀ j, ((p.releaseSpare c).port j).holder = some c → (p.port j).holder = some c ∧ p.heldSpare c ≠ some j := by
  simp only [Plant.releaseSpare]
  split
  · next e => exact ⟨hc, fun j hj => ⟨hj, by rw [e]; simp⟩⟩
  · next i e =>
    obtain ⟨_, queue, holder⟩ := Plant.spareFreed_unwaiting (c := c) (p := p.modPort i fun x =>
      { (x.withdrawLists c true).withdrawSlot c (fun _ => true) with holder := none }) i hc
    refine ⟨?_, fun j hj => ?_⟩
    · rw [(Plant.settlePort_spares _ i).2]
      exact queue
    · rw [Plant.settlePort_holder] at hj
      have hj := holder j hj
      by_cases hji : j = i
      · subst hji; simp at hj
      · rw [Plant.port_modPort_other _ _ hji] at hj
        exact ⟨hj, by rw [e]; simpa using Ne.symm hji⟩

/-- R111: a channel that waits for no spare and has no due head gives its spare back. -/
theorem Plant.releaseSpare_own {p : Plant} {c : Chan} (hn : p.NoneDue c) (hc : c ∉ p.spareQueue) :
    (p.releaseSpare c).chan c = p.chan c := by
  simp only [Plant.releaseSpare]
  split
  · rfl
  · next i e =>
    obtain ⟨chan, _⟩ := Plant.spareFreed_unwaiting (c := c) (p := p.modPort i fun x =>
      { (x.withdrawLists c true).withdrawSlot c (fun _ => true) with holder := none }) i hc
    exact (Plant.settlePort_chan i (Plant.noneDue_of_chan hn chan)).trans chan

/-- R111: and it holds none afterwards, where it held no more than one. -/
theorem Plant.releaseSpare_holds_none {p : Plant} {c : Chan} (hc : c ∉ p.spareQueue)
    (one : ∀ i j, (p.port i).holder = some c → (p.port j).holder = some c → i = j) (j : PortNo) :
    ((p.releaseSpare c).port j).holder ≠ some c := by
  intro hj
  obtain ⟨held, other⟩ := (Plant.releaseSpare_spares hc).2 j hj
  obtain ⟨i, hi⟩ := Option.isSome_iff_exists.mp (Plant.heldSpare_isSome held)
  exact other (hi.trans (congrArg some (one i j (Plant.heldSpare_some hi) held)))

theorem Plant.releaseSpare_none {p : Plant} {c : Chan} (h : ∀ i, (p.port i).holder ≠ some c) : p.releaseSpare c = p := by
  rw [Plant.releaseSpare, Plant.heldSpare_none.mpr h]

end Sys2Proof.Machine
end

