-- ==== Sys2Proof/Proofs/Adoptions.lean ====
section
/-! PROOFS. ADOPT and RELEASE (R175, R177). -/

namespace Sys2Proof.Machine

/-- R141: the next switch line of a configured channel. -/
theorem Plant.nextLineFrame_of_config {p : Plant} {c : Chan} {g : ChannelConfig} (h : (p.chan c).config = some g) :
    p.nextLineFrame c =
      if (p.chan c).lineInForce ≤ (p.ref g.reference).raised then (p.chan c).now + 1 else (p.chan c).now := by
  simp only [Plant.nextLineFrame, Plant.config, h]

theorem Plant.primary_of_config {p : Plant} {c : Chan} {g : ChannelConfig} (h : (p.chan c).config = some g) :
    p.primary c = some g.primary := by
  simp only [Plant.primary, Plant.config, h, Option.map_some]

/-! ## ADOPT -/

section
variable {p : Plant} {c : Chan}

theorem adopt_unknown {n : Nat} (h : 15 < n) (sp : Option Nat) : adopt ⟨n, sp⟩ p = p.refuse .noSuchChannel := by
  simp only [adopt, chanOf_none h]

theorem adopt_mode (h : (p.chan c).mode ≠ .orphaned) (sp : Option Nat) : adopt ⟨c.val, sp⟩ p = p.refuse .wrongMode := by
  simp only [adopt, chanOf_val, if_pos h]

theorem adopt_busy (h : (p.chan c).mode = .orphaned) (b : (p.chan c).adoption ≠ none ∨ (p.chan c).release ≠ none) (sp : Option Nat) :
    adopt ⟨c.val, sp⟩ p = p.refuse .busy := by
  have b' : (p.chan c).adoption.isSome ∨ (p.chan c).release.isSome :=
    b.imp Option.isSome_iff_ne_none.mpr Option.isSome_iff_ne_none.mpr
  simp only [adopt, chanOf_val, if_neg (not_not_intro h), if_pos b']

variable (hm : (p.chan c).mode = .orphaned) (ha : (p.chan c).adoption = none) (hr : (p.chan c).release = none)
include hm ha hr

/-- R175: an ADOPT that no adoption and no release forbids is judged by its port. -/
theorem adopt_free_none {sp : Option Nat} (h : p.adoptPort c sp = none) : adopt ⟨c.val, sp⟩ p = p.refuse .badArgument := by
  simp only [adopt, chanOf_val, hm, ha, hr, h, ne_eq, not_true_eq_false, if_false, Option.isSome_none, Bool.false_eq_true, or_self]

theorem adopt_free_some {sp : Option Nat} {i : PortNo} {spare : Bool} (h : p.adoptPort c sp = some (i, spare)) :
    (coverAt (p.chan c).playlist (p.chan c).now = none → adopt ⟨c.val, sp⟩ p = p.refuse .empty) ∧
    ∀ e, coverAt (p.chan c).playlist (p.chan c).now = some e → adopt ⟨c.val, sp⟩ p =
      if spare ∧ ((p.port i).holder.isSome ∨ (p.port i).state ≠ .up) then p.refuse .portTaken
      else (p.acceptAdopt c e i spare, reply .ok (u32 e.id ++ u8 i.val)) := by
  constructor
  · intro hc
    simp only [adopt, chanOf_val, hm, ha, hr, h, hc, ne_eq, not_true_eq_false, if_false, Option.isSome_none, Bool.false_eq_true,
      or_self]
  · intro e hc
    simp only [adopt, chanOf_val, hm, ha, hr, h, hc, ne_eq, not_true_eq_false, if_false, Option.isSome_none, Bool.false_eq_true,
      or_self]

end

theorem Plant.adoptPort_primary {p : Plant} {c : Chan} {g : ChannelConfig} (hg : (p.chan c).config = some g) :
    p.adoptPort c none = some (g.primary, false) := by
  simp only [Plant.adoptPort, Plant.primary_of_config hg, Option.map_some]

theorem Plant.adoptPort_spare {p : Plant} {c : Chan} {g : ChannelConfig} {i : PortNo} (hg : (p.chan c).config = some g)
    (hr : (p.port i).role = .spare) (hb : g.spares.testBit i.val = true) : p.adoptPort c (some i.val) = some (i, true) := by
  simp [Plant.adoptPort, Plant.spareNamed, portOf_val, Plant.config, hg, hr, hb]

theorem Plant.adoptPort_bad {p : Plant} {c : Chan} {g : ChannelConfig} {k : Nat} (hg : (p.chan c).config = some g)
    (h : 19 < k ∨ ∃ i : PortNo, k = i.val ∧ ((p.port i).role ≠ .spare ∨ g.spares.testBit k = false)) :
    p.adoptPort c (some k) = none := by
  rcases h with h | ⟨i, rfl, h⟩
  · simp [Plant.adoptPort, Plant.spareNamed, portOf_none h]
  · have h' : ¬((p.port i).role = .spare ∧ g.spares.testBit i.val = true) := by
      rintro ⟨hr, hb⟩
      rcases h with h | h
      · exact h hr
      · rw [hb] at h; cases h
    simp only [Plant.adoptPort, Plant.spareNamed, portOf_val, Plant.config, hg, if_neg h', Option.map_none]

/-! ## RELEASE -/

theorem release_unknown {n : Nat} (p : Plant) (h : 15 < n) (t : Nat) (a : Option Nat) :
    release ⟨n, t, a⟩ p = p.refuse .noSuchChannel := by
  simp only [release, chanOf_none h]

theorem release_mode {p : Plant} {c : Chan} (h : (p.chan c).mode ≠ .orphaned) (t : Nat) (a : Option Nat) :
    release ⟨c.val, t, a⟩ p = p.refuse .wrongMode := by
  simp only [release, chanOf_val, if_pos h]

theorem release_orphaned {p : Plant} {c : Chan} (h : (p.chan c).mode = .orphaned) (t : Nat) (a : Option Nat) :
    (releaseTarget t a = none → release ⟨c.val, t, a⟩ p = p.refuse .badArgument) ∧
      ∀ g, releaseTarget t a = some g → release ⟨c.val, t, a⟩ p = (p.acceptRelease c g, reply .ok []) := by
  constructor
  · intro e
    simp only [release, chanOf_val, h, e, ne_eq, not_true_eq_false, if_false]
  · intro g e
    simp only [release, chanOf_val, h, e, ne_eq, not_true_eq_false, if_false]

theorem releaseTarget_none {t : Nat} {a : Option Nat} (h : 1 < t ∨ (t = 1 ∧ a ≠ none) ∨ (t = 0 ∧ a ≠ some 0 ∧ a ≠ some 1)) :
    releaseTarget t a = none := by
  unfold releaseTarget
  split <;> simp_all

theorem releaseTarget_some {t : Nat} {a : Option Nat} {tgt : ReleaseTarget} {pos : SwitchPos}
    (h : (t = 1 ∧ a = none ∧ tgt = .filler ∧ pos = .filler) ∨ (t = 0 ∧ a = some 0 ∧ tgt = .main .shadow ∧ pos = .main) ∨
      (t = 0 ∧ a = some 1 ∧ tgt = .main .idle ∧ pos = .main)) : releaseTarget t a = some tgt ∧ tgt.pos = pos := by
  rcases h with ⟨rfl, rfl, rfl, rfl⟩ | ⟨rfl, rfl, rfl, rfl⟩ | ⟨rfl, rfl, rfl, rfl⟩ <;> exact ⟨rfl, rfl⟩

/-- R176: an adoption that fails gives its spare back, and the channel works with its primary port. -/
theorem Plant.adoptFailed_own {p : Plant} {c : Chan} {g : ChannelConfig} (hg : (p.chan c).config = some g) (hn : p.NoneDue c)
    (r : AdoptReason) :
    (p.adoptFailed c r).chan c = { p.chan c with adoption := none, portInUse := some g.primary } ∧
      c ∉ (p.adoptFailed c r).spareQueue ∧ ⟨.adoptFailed, some c, u8 r.code⟩ ∈ (p.adoptFailed c r).notices ∧
      (∀ j, ((p.adoptFailed c r).port j).holder = some c → (p.port j).holder = some c) ∧
      ((∀ i j, (p.port i).holder = some c → (p.port j).holder = some c → i = j) →
        ∀ j, ((p.adoptFailed c r).port j).holder ≠ some c) := by
  have back : (((p.modChan c fun x => { x with adoption := none }).backToPrimary c).leaveQueue c).chan c =
      { p.chan c with adoption := none, portInUse := some g.primary } := by
    change (((p.modChan c fun x => { x with adoption := none }).backToPrimary c)).chan c = _
    rw [Plant.backToPrimary, Plant.primary_of_config (g := g) (by simpa using hg)]
    simp [Plant.usePort]
  generalize hq : ((p.modChan c fun x => { x with adoption := none }).backToPrimary c).leaveQueue c = q at back
  have holder : ∀ j, (q.port j).holder = (p.port j).holder := fun j => by rw [← hq]; rfl
  have queue : c ∉ q.spareQueue := by
    rw [← hq]
    simp [Plant.leaveQueue]
  have due : q.NoneDue c := by
    rw [Plant.NoneDue, back]
    exact hn
  obtain ⟨left, held⟩ := Plant.releaseSpare_spares queue
  simp only [Plant.adoptFailed, hq]
  refine ⟨(Plant.releaseSpare_own due queue).trans back, left,
    Plant.mem_notices.mpr (List.mem_append_right _ (List.mem_singleton_self _)), fun j hj => ?_,
    fun one j hj => ?_⟩
  · rw [← holder]
    exact (held j hj).1
  · exact Plant.releaseSpare_holds_none queue (fun i j => by rw [holder, holder]; exact one i j) j hj

theorem Plant.acceptRelease_rest (p : Plant) (c : Chan) (t : ReleaseTarget) : (p.acceptRelease c t).rest = p.rest := by
  simp [Plant.acceptRelease, apply_ite Plant.rest]

/-- R177: an accepted RELEASE of a channel with no due head. -/
theorem Plant.acceptRelease_own {p : Plant} {c : Chan} {g : ChannelConfig} (hg : (p.chan c).config = some g) (hn : p.NoneDue c)
    (hq : (p.chan c).adoption ≠ none ∨ c ∉ p.spareQueue) (t : ReleaseTarget) :
    (p.acceptRelease c t).chan c = { p.chan c with
        release := some t, adoption := none
        portInUse := if (p.chan c).adoption ≠ none then some g.primary else (p.chan c).portInUse
        pendingSw := [{ pos := t.pos, frame := p.nextLineFrame c, cause := .release, act := .release }] } ∧
      c ∉ (p.acceptRelease c t).spareQueue ∧
      ((p.chan c).adoption ≠ none → ⟨.adoptFailed, some c, u8 1⟩ ∈ (p.acceptRelease c t).notices) ∧
      ((∀ i j, (p.port i).holder = some c → (p.port j).holder = some c → i = j) →
        ∀ i, ((p.acceptRelease c t).port i).holder ≠ some c) := by
  generalize ho : (if (p.chan c).adoption.isSome then p.adoptFailed c .released else p) = o
  have own : o.chan c = { p.chan c with
        adoption := none, portInUse := if (p.chan c).adoption ≠ none then some g.primary else (p.chan c).portInUse } ∧
      c ∉ o.spareQueue ∧ ((p.chan c).adoption ≠ none → ⟨.adoptFailed, some c, u8 1⟩ ∈ o.notices) ∧
      ∀ j, (o.port j).holder = some c → (p.port j).holder = some c := by
    rw [← ho]
    by_cases ha : (p.chan c).adoption = none
    · simp only [ha, ne_eq, not_true_eq_false, false_or] at hq
      simp only [ha, Option.isSome_none, Bool.false_eq_true, if_false, ne_eq, not_true_eq_false, false_implies, true_and]
      exact ⟨by rw [← ha], hq, fun _ h => h⟩
    · obtain ⟨chan, queue, told, held, _⟩ := Plant.adoptFailed_own hg hn .released
      rw [if_pos (Option.isSome_iff_ne_none.mpr ha)]
      exact ⟨by rw [chan, if_pos ha], queue, fun _ => told, held⟩
  obtain ⟨chan, queue, told, held⟩ := own
  have rest : o.rest = p.rest := by
    rw [← ho]
    split <;> simp
  have due : o.NoneDue c := by
    rw [Plant.NoneDue, chan]
    exact hn
  have chan' := Plant.releaseSpare_own due queue
  have queue' := (Plant.releaseSpare_spares queue).1
  have line : (o.releaseSpare c).nextLineFrame c = p.nextLineFrame c := by
    rw [Plant.nextLineFrame_of_config (g := g) (by rw [chan', chan]; exact hg), Plant.nextLineFrame_of_config hg, chan', chan,
      Plant.ref_of_rest (by simp [rest] : (o.releaseSpare c).rest = p.rest)]
  have before : o.nextLineFrame c = (o.releaseSpare c).nextLineFrame c := by
    rw [line, Plant.nextLineFrame_of_config (g := g) (by rw [chan]; exact hg), Plant.nextLineFrame_of_config hg, chan,
      Plant.ref_of_rest rest]
  simp only [Plant.acceptRelease, ho, before, Plant.decideSwitch_next]
  refine ⟨?_, queue', fun ha => ?_, fun one i => ?_⟩
  · rw [Plant.chan_modChan_same, Plant.chan_modChan_same, chan', chan, line]
  · exact (Plant.releaseSpare_tells (Plant.Tells.refl o) c).mem_notices (told ha)
  · exact Plant.releaseSpare_holds_none queue (fun i j hi hj => one i j (held i hi) (held j hj)) i

/-- R177: with no adoption pending and no spare held, nothing else changes. -/
theorem Plant.acceptRelease_plain {p : Plant} {c : Chan} (ha : (p.chan c).adoption = none)
    (hh : ∀ i, (p.port i).holder ≠ some c) (t : ReleaseTarget) :
    p.acceptRelease c t = p.setChan c { p.chan c with
      release := some t, pendingSw := [{ pos := t.pos, frame := p.nextLineFrame c, cause := .release, act := .release }] } := by
  have stands : (if (p.chan c).adoption.isSome then p.adoptFailed c .released else p) = p := if_neg (by simp [ha])
  simp only [Plant.acceptRelease, stands, Plant.releaseSpare_none hh, Plant.decideSwitch_next, Plant.modChan_modChan]
  rfl

/-- Settles O58: the checks of ADOPT and RELEASE in their order, and what each leaves. -/
theorem adoptAndRelease : Obligations.AdoptAndRelease := by
  rintro tag n s c x had rfl
  refine ⟨fun h => ⟨fun sp => State.request_answers _ _ had (adopt_unknown h sp),
    fun t a => State.request_answers _ _ had (release_unknown _ h t a)⟩, ?_⟩
  rintro rfl
  refine ⟨fun hm => ⟨fun sp => State.request_answers _ _ had (adopt_mode hm sp),
    fun t a => State.request_answers _ _ had (release_mode hm t a)⟩,
    fun hm hb sp => State.request_answers _ _ had (adopt_busy hm hb sp), fun g hm ha hr hg => ?_, fun t a hm h => ?_, ?_, ?_⟩
  · have taken : ∀ {sp i spare}, s.plant.adoptPort c sp = some (i, spare) → _ := fun h => adopt_free_some hm ha hr h
    refine ⟨fun k hk => State.request_answers _ _ had (adopt_free_none hm ha hr (Plant.adoptPort_bad hg hk)),
      fun hc => ⟨State.request_answers _ _ had ((taken (Plant.adoptPort_primary hg)).1 hc),
        fun i role bit => State.request_answers _ _ had ((taken (Plant.adoptPort_spare hg role bit)).1 hc)⟩,
      fun e hc => ?_, fun e i hc role bit => ⟨fun bad => ?_, fun free up => ?_⟩⟩
    · have := (taken (Plant.adoptPort_primary hg)).2 e hc
      rw [if_neg (by simp)] at this
      refine State.request_answers _ _ had (this.trans ?_)
      simp only [Plant.acceptAdopt, Bool.false_eq_true, if_false, Plant.usePort, Plant.modChan_modChan]
      rfl
    · have := (taken (Plant.adoptPort_spare hg role bit)).2 e hc
      rw [if_pos ⟨rfl, bad.imp_left Option.isSome_iff_ne_none.mpr⟩] at this
      exact State.request_answers _ _ had this
    · have := (taken (Plant.adoptPort_spare hg role bit)).2 e hc
      rw [if_neg (by simp [free, up])] at this
      refine State.request_answers _ _ had (this.trans ?_)
      simp only [Plant.acceptAdopt, if_true, Plant.usePort, Plant.modChan_modChan]
      rfl
  · exact State.request_answers _ _ had ((release_orphaned hm t a).1 (releaseTarget_none h))
  · rintro t a tgt pos g line hm hg hn hq kind rfl
    obtain ⟨target, rfl⟩ := releaseTarget_some kind
    obtain ⟨chan, queue, told, held⟩ := Plant.acceptRelease_own hg hn hq tgt
    refine ⟨_, State.request_answers _ _ had ((release_orphaned hm t a).2 tgt target), ?_, queue,
      Plant.still_of_rest ?_, told, held⟩
    · rw [chan, Plant.nextLineFrame_of_config hg]
    · exact Plant.acceptRelease_rest _ _ _
  · rintro t a tgt pos g hm ha hh hg kind line rfl
    obtain ⟨target, rfl⟩ := releaseTarget_some kind
    refine State.request_answers _ _ had (((release_orphaned hm t a).2 tgt target).trans ?_)
    rw [Plant.acceptRelease_plain ha hh, Plant.nextLineFrame_of_config hg]

end Sys2Proof.Machine
end

