-- ==== Sys2Proof/Proofs/PortSettings.lean ====
section
/-! PROOFS. A port on which nothing waits settles as it stands, SET PORT (R93, R94) and PASS THROUGH (R112). -/

namespace Sys2Proof.Machine

/-! ## A port on which nothing waits -/

theorem Port.dropFinished_empty {x : Port} (h : x.claim = []) : x.dropFinished = x := by
  have e : { x with claim := [] } = x := by rw [← h]
  unfold Port.dropFinished
  split
  · rfl
  · rw [h]; exact e

/-- No list claims the port, and its slots are empty. -/
structure Port.Bare (x : Port) : Prop where
  claim : x.claim = []
  slotCue : x.slotCue = none
  slotPass : x.slotPass = none

/-- R106: on a bare port the arbiter has nothing to grant. -/
theorem Plant.arbitrate_bare {p : Plant} {i : PortNo} (h : (p.port i).Bare) : p.arbitrate i = p := by
  simp [Plant.arbitrate, Port.dropFinished_empty h.claim, Plant.dueCommand, h.claim, h.slotCue, h.slotPass, Plant.setPort_port]

theorem Plant.userTakes_quiet {p : Plant} {i : PortNo} (h : ∀ d, (p.chan d).portInUse = some i → p.NoneDue d) :
    p.userTakes i = p := by
  have all : ∀ d ∈ p.usersOf i, p.NoneDue d := fun d hd => h d ((p.mem_usersOf i d).mp hd).1
  rw [Plant.userTakes]
  generalize p.usersOf i = l at all
  induction l with
  | nil => rfl
  | cons d l ih =>
    rw [List.foldl_cons, Plant.takeHeads_quiet (all d (by simp))]
    exact ih fun e he => all e (by simp [he])

theorem Plant.settlePort_eq (p : Plant) (i : PortNo) :
    p.settlePort i = ((p.setPort i (p.port i).dropFinished).userTakes i).arbitrate i := rfl

theorem Plant.settlePort_claimless {p : Plant} {i : PortNo} (h : (p.port i).claim = []) :
    p.settlePort i = (p.userTakes i).arbitrate i := by
  rw [Plant.settlePort_eq, Port.dropFinished_empty h, Plant.setPort_port]

/-- R106: a bare port whose users have no due head settles as it stands. -/
theorem Plant.settlePort_bare {p : Plant} {i : PortNo} (hb : (p.port i).Bare)
    (h : ∀ d, (p.chan d).portInUse = some i → p.NoneDue d) : p.settlePort i = p := by
  rw [Plant.settlePort_claimless hb.claim, Plant.userTakes_quiet h, Plant.arbitrate_bare hb]

theorem Plant.Unshared.bare {p : Plant} {i : PortNo} (h : p.Unshared i) : (p.port i).Bare := ⟨h.claim, h.slotCue, h.slotPass⟩

theorem Plant.Unshared.settle {p q : Plant} {i : PortNo} (h : p.Unshared i) (hb : (q.port i).Bare)
    (hc : ∀ d, q.chan d = p.chan d) : q.settlePort i = q :=
  Plant.settlePort_bare hb fun d hd => absurd (by rw [← hc]; exact hd) (h.user d)

theorem Plant.tellPort_eq (p : Plant) (i : PortNo) (before : PortState) (cause : PortCause) : p.tellPort i before cause =
    (p.modPort i fun y => { y with flags := .clear }).emit
      (.notice (portNotice i (p.port i) before cause.code (p.ownerOf i))) := rfl

/-- R110: a spare that is not free, or that no channel waits for, goes to none. -/
theorem Plant.spareFreed_stands {p : Plant} {i : PortNo}
    (h : (p.port i).role ≠ .spare ∨ (p.port i).state ≠ .up ∨ (p.port i).holder ≠ none ∨ p.spareQueue = []) :
    p.spareFreed i = p := by
  simp only [Plant.spareFreed]
  split
  · next free =>
    rcases h with h | h | h | h
    · exact absurd free.1 h
    · exact absurd free.2.1 h
    · exact absurd free.2.2 h
    · simp [Plant.oldestFor, h]
  · rfl

theorem Plant.ownerOf_none {p : Plant} {i : PortNo} (hp : ∀ c, p.primary c = some i → (p.chan c).mode = .idle)
    (hh : (p.port i).holder = none) : p.ownerOf i = none := by
  simp only [Plant.ownerOf]
  split
  · simpa [List.find?_eq_none] using fun c _ => hp c
  · exact hh
  · rfl

/-- R103: a port that is UP again, with no owner and no channel waiting, only settles. -/
theorem Plant.nowUp_unowned {p : Plant} {i : PortNo}
    (h : (p.port i).role ≠ .spare ∨ (p.port i).state ≠ .up ∨ (p.port i).holder ≠ none ∨ p.spareQueue = [])
    (ho : p.ownerOf i = none) : p.nowUp i = p.settlePort i := by
  simp only [Plant.nowUp, Plant.spareFreed_stands h, ho]

/-! ## SET PORT -/

section
variable {a : SetPortArgs} {p : Plant} {v : PortSettings}

theorem setPort_range (h : 19 < a.port ∨ 2 < a.role ∨ 2 < a.parity ∨ a.divisor < 1 ∨ 65535 < a.divisor ∨
    a.replyTimeout < 1 ∨ 1000 < a.replyTimeout ∨ 3 < a.retries ∨ 300 < a.preroll) : setPort a p = p.refuse .badArgument := by
  have none' : portSettings a = none := by
    unfold portSettings
    split
    · next i r y hi hr hy =>
      refine if_neg fun ⟨h1, h2, h3, h4, h5, h6⟩ => ?_
      have port : ¬19 < a.port := fun l => by rw [portOf_none l] at hi; cases hi
      have parity : ¬2 < a.parity := fun l => by rw [Parity.ofCode_none l] at hy; cases hy
      have role : ¬2 < a.role := fun l => by
        obtain ⟨k, hk⟩ : ∃ k, a.role = k + 3 := ⟨a.role - 3, by omega⟩
        rw [hk] at hr
        cases hr
      omega
    · rfl
  simp only [setPort, none']

theorem portSettings_some {i : PortNo} {r : Role} {y : Parity} (hi : a.port = i.val) (hr : Role.ofCode a.role = some r)
    (hy : Parity.ofCode a.parity = some y) (h : 1 ≤ a.divisor ∧ a.divisor ≤ 65535 ∧ 1 ≤ a.replyTimeout ∧ a.replyTimeout ≤ 1000 ∧
      a.retries ≤ 3 ∧ a.preroll ≤ 300) : portSettings a = some ⟨i, r, a.divisor, y, a.replyTimeout, a.retries, a.preroll⟩ := by
  simp only [portSettings, hi, portOf_val, hr, hy, if_pos h]

theorem Plant.isPrimary_iff {i : PortNo} : p.isPrimary i = true ↔ ∃ c, p.primary c = some i ∧ (p.chan c).mode ≠ .idle := by
  simp [Plant.isPrimary, allChans]

theorem Plant.roleTaken_iff : p.roleTaken v = true ↔
    ((∃ c, p.primary c = some v.port ∧ (p.chan c).mode ≠ .idle) ∧ v.role ≠ .primary) ∨
      ((p.port v.port).holder.isSome ∧ v.role ≠ .spare) := by
  simp only [Plant.roleTaken, Bool.or_eq_true, Bool.and_eq_true, Plant.isPrimary_iff, bne_iff_ne]

theorem setPort_taken (hv : portSettings a = some v) (h : p.roleTaken v = true) : setPort a p = p.refuse .portTaken := by
  simp only [setPort, hv, if_pos h]

theorem setPort_taking (hv : portSettings a = some v) (h : p.roleTaken v = false) {q : Plant}
    (hq : (p.modPort v.port (Port.settings v)).setRole v.port v.role = q) : setPort a p =
      (q.modPort v.port fun x => { x with flags := .clear }, reply .ok (q.portBytes v.port)) := by
  simp only [setPort, hv, h, Bool.false_eq_true, if_false, hq]

end

/-! ## A change of role -/

section
variable {p : Plant} {i : PortNo}

/-- R94: the four changes of role, told apart by the role that the port had. -/
theorem Plant.setRole_cases {r : Role} :
    ((p.port i).role = r → p.setRole i r = p) ∧
    ((p.port i).role ≠ r → (p.port i).role = .off → p.setRole i r =
      ((p.modPort i fun x => { x.clearStages with role := r, state := .up, timeouts := 0, rx := [] }).tellPort i .off
        .configured).nowUp i) ∧
    ((p.port i).role ≠ r → (p.port i).role ≠ .off → r = .off → p.setRole i r = p.enterOff i) ∧
    ((p.port i).role = .primary → r = .spare →
      p.setRole i r = ((p.modPort i fun x => { x with role := .spare }).spareFreed i).settlePort i) ∧
    ((p.port i).role = .spare → r = .primary → p.setRole i r = p.modPort i fun x => { x with role := .primary }) := by
  generalize hz : (p.port i).role = z
  unfold Plant.setRole
  dsimp only
  rw [hz]
  cases z <;> cases r <;> simp

theorem Plant.setRole_spare (h : (p.port i).role = .primary) (hu : p.Unshared i)
    (hs : (p.port i).state ≠ .up ∨ (p.port i).holder ≠ none ∨ p.spareQueue = []) :
    p.setRole i .spare = p.modPort i fun x => { x with role := .spare } := by
  rw [Plant.setRole_cases.2.2.2.1 h rfl, Plant.spareFreed_stands (Or.inr (by simpa using hs))]
  exact hu.settle ⟨by simpa using hu.claim, by simpa using hu.slotCue, by simpa using hu.slotPass⟩ fun _ => rfl

/-- R94: a port that no channel works with comes up from OFF. -/
theorem Plant.setRole_up {r : Role} (h : (p.port i).role = .off) (hr : r ≠ .off)
    (hu : p.Unshared i) (hq : p.spareQueue = []) (hp : ∀ c, p.primary c = some i → (p.chan c).mode = .idle)
    (hh : (p.port i).holder = none) {x : Port}
    (hx : x = { p.port i with role := r, state := .up, timeouts := 0, rx := [], shift := none, holding := none }) :
    p.setRole i r = { p.setPort i { x with flags := .clear } with
      outbox := p.outbox ++ [.notice (portNotice i x .off 3 none)] } := by
  have owner : ∀ w : Port, w.holder = none → (p.setPort i w).ownerOf i = none := fun w hw =>
    Plant.ownerOf_none (p := p.setPort i w) hp (by rw [Plant.port_setPort_same]; exact hw)
  have up : (p.modPort i fun x => { x.clearStages with role := r, state := .up, timeouts := 0, rx := [] }) = p.setPort i x := by
    rw [hx]
    rfl
  rw [Plant.setRole_cases.2.1 (by rw [h]; exact hr.symm) h, up, Plant.tellPort_eq, owner x (by rw [hx]; exact hh),
    Plant.port_setPort_same, Plant.modPort, Plant.port_setPort_same, Plant.setPort_setPort]
  have own : ((p.setPort i { x with flags := .clear }).emit (.notice (portNotice i x .off PortCause.configured.code none))).ownerOf i =
      none := owner { x with flags := .clear } (by rw [hx]; exact hh)
  refine (Plant.nowUp_unowned (Or.inr (Or.inr (Or.inr (by exact hq)))) own).trans ?_
  have port : (((p.setPort i { x with flags := .clear }).emit
      (.notice (portNotice i x .off PortCause.configured.code none))).port i) = { x with flags := .clear } := p.port_setPort_same i _
  refine hu.settle ⟨?_, ?_, ?_⟩ fun _ => rfl
  · rw [port, hx]; exact hu.claim
  · rw [port, hx]; exact hu.slotCue
  · rw [port, hx]; exact hu.slotPass

/-- R105: a port that no channel works with is turned OFF. -/
theorem Plant.setRole_off (h : (p.port i).role ≠ .off) (ho : (p.port i).outstanding = none)
    (hu : p.Unshared i) {x : Port}
    (hx : x = { (p.port i).ended with
      role := .off, state := .off, timeouts := 0, rx := [], shift := none, holding := none, probeTimer := none }) :
    p.setRole i .off = { p.setPort i { x with flags := .clear } with
      outbox := p.outbox ++ [.notice (portNotice i x (p.port i).state 4 none)] } := by
  have e : { (p.port i).endCommand.clearStages with
      role := .off, state := .off, claim := [], probeTimer := none, timeouts := 0, rx := [], grantHeld := false } = x := by
    rw [hx, ← hu.claim, ← hu.held]
    rfl
  rw [Plant.setRole_cases.2.2.1 h h rfl]
  simp only [Plant.enterOff, ho, Plant.modPort, e]
  have slots : (p.setPort i x).timeoutSlots i = p.setPort i x := by
    rw [Plant.timeoutSlots, Plant.timeoutSlotCue_empty, Plant.timeoutSlotPass_empty]
    · rw [Plant.port_setPort_same, hx]; exact hu.slotPass
    · rw [Plant.port_setPort_same, hx]; exact hu.slotCue
  have owner : (p.setPort i x).ownerOf i = none := by
    rw [Plant.ownerOf, Plant.port_setPort_same, hx]
  rw [slots, Plant.tellPort_eq, owner, Plant.port_setPort_same, Plant.modPort, Plant.port_setPort_same, Plant.setPort_setPort]
  rfl

end

/-- What is written of a port's settings leaves it as bare as it was. -/
theorem Plant.Unshared.settings {p : Plant} {i : PortNo} (h : p.Unshared i) (v : PortSettings) :
    (p.modPort i (Port.settings v)).Unshared i where
  claim := by rw [Plant.port_modPort_same]; exact h.claim
  slotCue := by rw [Plant.port_modPort_same]; exact h.slotCue
  slotPass := by rw [Plant.port_modPort_same]; exact h.slotPass
  held := by rw [Plant.port_modPort_same]; exact h.held
  user := h.user

/-- Settles O40: the settings of a port and the changes of its role. -/
theorem setPortTakesEffect : Obligations.SetPortTakesEffect := by
  rintro tag a s ha
  refine ⟨fun h => State.request_answers _ _ ha (setPort_range h), ?_⟩
  rintro i r y x z hi hr hy d1 d2 t1 t2 t3 t4 rfl hz
  have hv := portSettings_some hi hr hy ⟨d1, d2, t1, t2, t3, t4⟩
  generalize hw : (⟨i, r, a.divisor, y, a.replyTimeout, a.retries, a.preroll⟩ : PortSettings) = v at hv
  have set : Port.settings v (s.plant.port i) = z := by rw [hz, ← hw]; rfl
  have vport : v.port = i := by rw [← hw]
  have vrole : v.role = r := by rw [← hw]
  generalize hp : s.plant.modPort i (Port.settings v) = p
  have port : p.port i = z := by rw [← hp, Plant.port_modPort_same, set]
  have written : ∀ w, p.setPort i w = s.plant.setPort i w := fun w => by rw [← hp, Plant.modPort, Plant.setPort_setPort]
  have role : (p.port i).role = (s.plant.port i).role := by rw [port, hz]
  have outbox : p.outbox = s.plant.outbox := by rw [← hp]; rfl
  have free : (∀ c, s.plant.primary c = some i → (s.plant.chan c).mode = .idle) ∨ r = .primary →
      (s.plant.port i).holder = none ∨ r = .spare → s.plant.roleTaken v = false := by
    intro h1 h2
    rw [← Bool.not_eq_true, Plant.roleTaken_iff, vport, vrole]
    rintro (⟨⟨c, hc, hm⟩, hn⟩ | ⟨hh, hn⟩)
    · exact h1.elim (fun h => hm (h c hc)) hn
    · exact h2.elim (fun h => by rw [h] at hh; cases hh) hn
  have taking : s.plant.roleTaken v = false → ∀ q, p.setRole i r = q →
      exec (.setPort tag (.sound a)) s = .next (s.answered tag 0x07 (q.modPort i fun x => { x with flags := .clear }) .ok
        (q.portBytes i)) := fun hf q hq =>
    State.request_answers _ _ ha ((setPort_taking hv hf (q := q) (by rw [vport, vrole, hp, hq])).trans (by rw [vport]))
  have cleared : ∀ (w : Port) (o : List Outgoing), ({ p.setPort i { w with flags := .clear } with outbox := o } : Plant).modPort i
      (fun x => { x with flags := .clear }) = { p.setPort i { w with flags := .clear } with outbox := o } := fun w o => by
    rw [Plant.modPort, show ({ p.setPort i { w with flags := .clear } with outbox := o } : Plant).port i = _ from
      p.port_setPort_same i _]
    exact congrArg (fun q : Plant => ({ q with outbox := o } : Plant)) (p.setPort_setPort i _ _)
  have reported : ∀ (w : Port) (o : List Outgoing), ({ p.setPort i w with outbox := o } : Plant).portBytes i =
      u8 w.role.code ++ u8 w.state.code ++ flag w.holdingEmpty ++ flag w.bothEmpty ++ u8 w.timeouts ++ chanOrNone w.holder ++
        w.flags.bytes := fun w o => by
    rw [Plant.portBytes, show ({ p.setPort i w with outbox := o } : Plant).port i = w from p.port_setPort_same i w]
  refine ⟨fun h => ?_, fun h1 h2 kind => ?_, fun hc hh => ⟨fun off _ hu hq hne => ?_, fun hn ho hu hoff => ?_⟩⟩
  · refine State.request_answers _ _ ha (setPort_taken hv (Plant.roleTaken_iff.mpr ?_))
    rw [vport, vrole]
    exact h
  · have changed : p.setRole i r = p.setPort i { z with role := r } := by
      rcases kind with e | ⟨rfl, e⟩ | ⟨rfl, e, hu, hs⟩
      · rw [Plant.setRole_cases.1 (role.trans e.symm), ← hp, e, Plant.modPort, set, Plant.setPort_setPort, hz]
      · rw [Plant.setRole_cases.2.2.2.2 (role.trans e) rfl, Plant.modPort, port]
      · rw [Plant.setRole_spare (role.trans e) (by rw [← hp]; exact hu.settings v), Plant.modPort, port]
        rw [port, hz, ← hp]
        exact hs
    have := taking (free h1 h2) _ changed
    rw [Plant.modPort, Plant.port_setPort_same, Plant.setPort_setPort, written, Plant.portBytes, Plant.port_setPort_same, hz] at this
    rw [hz]
    exact this
  · have up := Plant.setRole_up (r := r) (role.trans off) hne (by rw [← hp]; exact hu.settings v) (by rw [← hp]; exact hq)
      (by rw [← hp]; exact hc) (by rw [port, hz]; exact hh) rfl
    refine ⟨_, ?_, rfl⟩
    have := taking (free (.inl hc) (.inl hh)) _ up
    rw [reported, cleared, written, outbox, port, hz] at this
    rw [hz]
    refine this.trans (congrArg₂ (fun q b => (.next (s.answered tag 0x07 q .ok b) : Meaning)) rfl ?_)
    change _ ++ chanOrNone (s.plant.port i).holder ++ _ = _
    rw [hh]
    rfl
  · subst hoff
    have off := Plant.setRole_off (by rw [role]; exact hn) (by rw [port, hz]; exact ho) (by rw [← hp]; exact hu.settings v) rfl
    refine ⟨_, ?_, rfl⟩
    have := taking (free (.inl hc) (.inl hh)) _ off
    rw [reported, cleared, written, outbox, port, hz] at this
    rw [hz]
    refine this.trans (congrArg₂ (fun q b => (.next (s.answered tag 0x07 q .ok b) : Meaning)) rfl ?_)
    change _ ++ chanOrNone (s.plant.port i).holder ++ _ = _
    rw [hh]
    rfl

end Sys2Proof.Machine
end

