-- ==== Sys2Proof/Proofs/PassThrough.lean ====
section
/-! PROOFS. PASS THROUGH (R112): its refusals, and where its command is placed. -/

namespace Sys2Proof.Machine

section
variable {tag : Nat} {a : PassThroughArgs} {s : State} (ha : s.Admits tag)
include ha

theorem State.passThrough_refused {u : Status} (e : passThrough a { s with ctl := { s.ctl with rx := [] } } = s.plant.refuse u) :
    exec (.passThrough tag (.sound a)) s = .next (s.answered tag 0x08 s.plant u []) := by
  have := s.request_admitted (.passThrough tag (.sound a)) tag 0x08 a passThrough ha (by rw [e]; rfl)
  rw [e] at this
  exact congrArg Host.Outcome.next this

theorem State.passThrough_malformed (h : 19 < a.port ∨ passCommand a.kind a.arg = none) :
    exec (.passThrough tag (.sound a)) s = .next (s.answered tag 0x08 s.plant .badArgument []) := by
  refine State.passThrough_refused ha ?_
  rcases h with h | h
  · simp only [passThrough, portOf_none h]
  · simp only [passThrough, h]
    cases portOf a.port <;> rfl

variable {i : PortNo} {k : DevCmd} (hi : a.port = i.val) (hk : passCommand a.kind a.arg = some k)
include hi hk

theorem State.passThrough_off (h : (s.plant.port i).state = .off) :
    exec (.passThrough tag (.sound a)) s = .next (s.answered tag 0x08 s.plant .wrongMode []) := by
  refine State.passThrough_refused ha ?_
  simp only [passThrough, hi, portOf_val, hk, if_pos h]

theorem State.passThrough_pending (h : (s.plant.port i).state ≠ .off) (hb : s.ctl.passTable[i.val] ≠ none) :
    exec (.passThrough tag (.sound a)) s = .next (s.answered tag 0x08 s.plant .busy []) := by
  refine State.passThrough_refused ha ?_
  simp only [passThrough, hi, portOf_val, hk, if_neg h, if_pos (Option.isSome_iff_ne_none.mpr hb)]

/-- R112, R184: an accepted PASS THROUGH enters the table, and its command is placed. -/
theorem State.passThrough_placed (h : (s.plant.port i).state ≠ .off) (hb : s.ctl.passTable[i.val] = none) :
    exec (.passThrough tag (.sound a)) s = .next (({ s with
      plant := s.plant.placePass i k
      ctl := { s.ctl with rx := [], passTable := s.ctl.passTable.set i.val (some tag) } } : State).settle none) := by
  have e : passThrough a { s with ctl := { s.ctl with rx := [] } } =
      (s.plant.placePass i k, { status := .ok, content := [], passPort := some i }) := by
    simp only [passThrough, hi, portOf_val, hk, if_neg h, hb, Option.isSome_none, Bool.false_eq_true, if_false]
  refine congrArg Host.Outcome.next (?_ : s.request _ _ _ _ _ = _)
  simp only [State.request, ControlLine.takesNow_rx, ha.takesNow, if_true, judged, e, State.conclude]

end

section
variable {p : Plant} {i : PortNo} {k : DevCmd}

theorem Plant.placePass_down (h : (p.port i).state ≠ .up) : p.placePass i k = p.emit (.passOutcome i .timeout) := by
  simp only [Plant.placePass, if_neg h]

/-- R106: a port with an outstanding command, or one that is not UP, is granted nothing. -/
theorem Plant.arbitrate_busy (h : (p.port i).state ≠ .up ∨ (p.port i).outstanding ≠ none) (hc : (p.port i).claim = []) :
    p.arbitrate i = p := by
  have busy : (p.port i).state ≠ .up ∨ (p.port i).outstanding.isSome ∨ (p.port i).grantHeld :=
    h.imp_right fun ho => .inl (Option.isSome_iff_ne_none.mpr ho)
  simp only [Plant.arbitrate, Port.dropFinished_empty hc, if_pos busy, Plant.setPort_port]

/-- R106: the last of the slots is the pass-through's. -/
theorem Plant.arbitrate_pass (h : (p.port i).state = .up) (hc : (p.port i).claim = []) (ho : (p.port i).outstanding = none)
    (hg : (p.port i).grantHeld = false) (hs : (p.port i).slotCue = none) (hp : (p.port i).slotPass = some k) :
    p.arbitrate i = p.setPort i ({ p.port i with slotPass := none }.grant k .pass) := by
  simp [Plant.arbitrate, Port.dropFinished_empty hc, Plant.dueCommand, h, hc, ho, hg, hs, hp]

/-- A pass-through placed on an UP port that no channel works with is left to the arbiter. -/
theorem Plant.placePass_up (h : (p.port i).state = .up) (hu : p.Unshared i) :
    p.placePass i k = (p.setPort i { p.port i with slotPass := some k }).arbitrate i := by
  rw [Plant.placePass, if_pos h, Plant.settlePort_claimless (by simpa using hu.claim),
    Plant.userTakes_quiet (p := p.modPort i _) fun d hd => absurd hd (hu.user d)]
  rfl

theorem Plant.placePass_granted (h : (p.port i).state = .up) (hu : p.Unshared i) (ho : (p.port i).outstanding = none)
    (hs : (p.port i).shift = none) : p.placePass i k = p.setPort i { p.port i with
      outstanding := some { cmd := k, requester := .pass }, attempt := 1, failures := [], replyTimer := none
      tryTimeout := (p.port i).replyTimeout, tryRetries := (p.port i).retries, shift := some (.frame k.frame), holding := none } := by
  rw [Plant.placePass_up h hu, Plant.arbitrate_pass (k := k)]
  case h => simpa using h
  case hc => simpa using hu.claim
  case ho => simpa using ho
  case hg => simpa using hu.held
  case hs => simpa using hu.slotCue
  case hp => simp
  rw [Plant.setPort_setPort, Plant.port_setPort_same, ← hu.slotPass]
  simp only [Port.grant, Port.handFrame, hs]

/-- R106: behind an outstanding command it waits in the slot. -/
theorem Plant.placePass_waits (h : (p.port i).state = .up) (hu : p.Unshared i) (ho : (p.port i).outstanding ≠ none) :
    p.placePass i k = p.setPort i { p.port i with slotPass := some k } := by
  rw [Plant.placePass_up h hu, Plant.arbitrate_busy (.inr (by simpa using ho)) (by simpa using hu.claim)]

end

/-- R184: the outcome of a pending PASS THROUGH, handed out last, is on its way as its reply. -/
theorem State.settle_carries_pass (s : State) (i : PortNo) (o : DevOutcome) (tag : Nat) {out : List Outgoing}
    (ht : s.ctl.passTable[i.val] = some tag) (ho : s.plant.outbox = out ++ [.passOutcome i o]) :
    (s.settle none).ctl.Carries { tag := tag, kind := 0x88, status := .ok, content := o.bytes, origin := .pass i } := by
  simp only [State.settle, ho, List.foldl_append, List.foldl_cons, List.foldl_nil]
  apply ControlLine.kick_carries
  generalize hf : out.foldl (State.deliver _) { s with plant := { s.plant with outbox := [] } } = t
  have table : t.ctl.passTable = s.ctl.passTable := by
    rw [← hf]
    exact State.deliver_same (fun u : State => u.ctl.passTable) _ (fun u x => State.deliver_passTable _ u x) _ _
  have reply : t.ctl.passReply i o = t.ctl.addReply { tag := tag, kind := 0x88, status := .ok, content := o.bytes, origin := .pass i } := by
    simp only [ControlLine.passReply, table, ht]
  simp only [State.deliver, reply]
  exact List.mem_append_right _ (List.mem_singleton_self _)

/-- Settles O41: what refuses PASS THROUGH, and where its command is placed. -/
theorem passThroughIsPlaced : Obligations.PassThroughIsPlaced := by
  rintro tag a s ha
  refine ⟨fun h => State.passThrough_malformed ha h, ?_⟩
  rintro i k x ctl hi hk rfl rfl
  refine ⟨fun h => State.passThrough_off ha hi hk h, fun h hb => State.passThrough_pending ha hi hk h hb, fun h hb => ?_⟩
  have placed := State.passThrough_placed ha hi hk h hb
  refine ⟨fun down => ⟨_, placed, ?_, ?_⟩, fun up hu => ⟨fun ho hs => ?_, fun ho => ?_⟩⟩
  · rw [Plant.placePass_down (by rw [down]; decide)]
  · rw [Plant.placePass_down (by rw [down]; decide)]
    exact State.settle_carries_pass _ i .timeout tag (by simp) rfl
  · rw [placed, Plant.placePass_granted up hu ho hs]
  · rw [placed, Plant.placePass_waits up hu ho]

end Sys2Proof.Machine
end

