-- ==== Sys2Proof/Proofs/Joins.lean ====
section
/-! PROOFS. What a join leaves (R131, R150, R151): of the channel its record, its pending changes, its cursor and the marks of its
events; of the ports the channel's own commands, and the list on the port joined. -/

namespace Sys2Proof.Machine

/-! ## The events of a join -/

/-- An event without what a join may change of it. -/
def Event.course (e : Event) : Event :=
  { e with cue := .pending, bound := none, progress := [], joinOffset := none, passedOver := false }

theorem modEvent_course (l : List Event) (id : Nat) (f : Event → Event) (h : ∀ e, (f e).course = e.course) :
    (modEvent l id f).map Event.course = l.map Event.course := by
  simp only [modEvent, List.map_map, List.map_inj_left, Function.comp_apply]
  intro e _
  split
  · exact h e
  · rfl

theorem unmarkProgress_course (l : List Event) (s : StepEntry) : (unmarkProgress l s).map Event.course = l.map Event.course := by
  unfold unmarkProgress
  split
  · exact modEvent_course _ _ _ fun _ => rfl
  · rfl

theorem foldl_unmarkProgress_course (q : List StepEntry) (l : List Event) :
    (q.foldl unmarkProgress l).map Event.course = l.map Event.course := by
  induction q generalizing l with
  | nil => rfl
  | cons s q ih => rw [List.foldl_cons, ih, unmarkProgress_course]

theorem Plant.skip_course (p : Plant) (e : Event) : (p.skip e).course = e.course := by
  unfold Plant.skip
  split <;> rfl

theorem Plant.passOver_course (p : Plant) (e : Event) : (p.passOver e).course = e.course := by
  unfold Plant.passOver
  split
  · rfl
  · rfl
  · rfl
  all_goals exact p.skip_course e

theorem Plant.passOverTo_course (p : Plant) (target : Option Nat) (l : List Event) :
    (p.passOverTo target l).map Event.course = l.map Event.course := by
  induction l with
  | nil => rfl
  | cons e l ih =>
    simp only [Plant.passOverTo]
    split
    · rfl
    · rw [List.map_cons, ih, p.passOver_course, List.map_cons]

/-! ## The channel's own commands on the ports -/

/-- The channel's Cue Sequencer has no command on the port. -/
structure Port.Clear (x : Port) (c : Chan) : Prop where
  slot : ∀ k, x.slotCue ≠ some (c, k)
  out : ∀ cmd k, x.outstanding ≠ some ⟨cmd, .cue c k⟩

theorem Port.withdrawSlot_clear {x : Port} {c : Chan} (h : ∀ k, x.slotCue ≠ some (c, k)) (which : StepEntry → Bool) :
    x.withdrawSlot c which = x := by
  unfold Port.withdrawSlot
  split
  · next c' k e =>
    refine if_neg fun hc => h k ?_
    simp only [Bool.and_eq_true, decide_eq_true_eq] at hc
    rw [e, hc.1]
  · rfl

theorem Port.markOutstanding_clear {x : Port} {c : Chan} (h : ∀ cmd k, x.outstanding ≠ some ⟨cmd, .cue c k⟩)
    (f : StepEntry → StepEntry) : x.markOutstanding c f = x := by
  unfold Port.markOutstanding
  split
  · next cmd c' k e => exact if_neg fun hc => h cmd k (by rw [e, hc])
  · rfl

/-- What a flush of the channel's steps makes of a port. -/
def Port.flushed (x : Port) (c : Chan) : Port :=
  (x.withdrawSlot c fun _ => true).markOutstanding c fun s => { s with standing := .removed }

theorem Port.flushed_clear {x : Port} {c : Chan} (h : x.Clear c) : x.flushed c = x := by
  rw [Port.flushed, Port.withdrawSlot_clear h.slot, Port.markOutstanding_clear h.out]

@[simp] theorem Port.flushed_fixed (x : Port) (c : Chan) (b : Bool) : (x.flushed c).fixed b = x.fixed b := by simp [Port.flushed]

@[simp] theorem Port.markOutstanding_claim (x : Port) (c : Chan) (f : StepEntry → StepEntry) :
    (x.markOutstanding c f).claim = x.claim := by
  unfold Port.markOutstanding
  repeat' split
  all_goals rfl

@[simp] theorem Port.withdrawSlot_claim (x : Port) (c : Chan) (which : StepEntry → Bool) :
    (x.withdrawSlot c which).claim = x.claim := by
  unfold Port.withdrawSlot
  repeat' split
  all_goals rfl

@[simp] theorem Port.flushed_claim (x : Port) (c : Chan) : (x.flushed c).claim = x.claim := by simp [Port.flushed]

theorem Plant.flushCue_port (p : Plant) (c : Chan) (j : PortNo) : (p.flushCue c).port j = (p.port j).flushed c := by
  rw [Plant.flushCue, Plant.withdrawCue, Plant.mapPorts, Plant.port_mapPorts]
  rfl

theorem Plant.flushCue_chan (p : Plant) (c : Chan) : (p.flushCue c).chan c =
    { p.chan c with
      seq := { (p.chan c).seq with queue := [] }
      playlist := (p.chan c).seq.queue.foldl unmarkProgress (p.chan c).playlist } :=
  Plant.chan_modChan_same p c fun x =>
    { x with seq := { x.seq with queue := [] }, playlist := x.seq.queue.foldl unmarkProgress x.playlist }

/-! ## What a join leaves -/

/-- What a join leaves of the channel and of the ports: its record and its pending changes are given beside. -/
structure Plant.Joined (p q : Plant) (c : Chan) (cursor : Option Nat) : Prop where
  chan : q.chan c = { p.chan c with
    takeRec := (q.chan c).takeRec, pendingSw := (q.chan c).pendingSw, playlist := (q.chan c).playlist
    seq := { (p.chan c).seq with queue := [], cursor := cursor } }
  course : (q.chan c).playlist.map Event.course = (p.chan c).playlist.map Event.course
  outbox : q.outbox = p.outbox

section
variable (p : Plant) (c : Chan)

/-- R131: the cue side of a join that bridges. -/
theorem Plant.cueBridge_joined (t : Nat) : p.Joined (p.cueBridge c t) c (firstAfter (p.chan c).playlist t) ∧
    ((p.cueBridge c t).chan c).takeRec = (p.chan c).takeRec ∧ ((p.cueBridge c t).chan c).pendingSw = (p.chan c).pendingSw ∧
    ∀ j, (p.cueBridge c t).port j = (p.port j).flushed c := by
  have chan : (p.cueBridge c t).chan c = { (p.flushCue c).chan c with
      playlist := (p.flushCue c).passOverTo (firstAfter (p.chan c).playlist t) ((p.flushCue c).chan c).playlist
      seq := { ((p.flushCue c).chan c).seq with cursor := firstAfter (p.chan c).playlist t } } := Plant.chan_modChan_same _ c _
  rw [Plant.flushCue_chan] at chan
  refine ⟨⟨?_, ?_, rfl⟩, ?_, ?_, fun j => p.flushCue_port c j⟩
  · rw [chan]
  · rw [chan]
    exact (Plant.passOverTo_course _ _ _).trans (foldl_unmarkProgress_course _ _)
  · rw [chan]
  · rw [chan]

/-- R131: the cue side of a join on an event. -/
theorem Plant.cueJoin_joined (event offset t : Nat) : p.Joined (p.cueJoin c event offset t) c (some event) ∧
    ((p.cueJoin c event offset t).chan c).takeRec = (p.chan c).takeRec ∧
    ((p.cueJoin c event offset t).chan c).pendingSw = (p.chan c).pendingSw ∧
    ∀ j, (p.cueJoin c event offset t).port j = (p.port j).flushed c := by
  have chan : (p.cueJoin c event offset t).chan c = { (p.flushCue c).chan c with
      playlist := Machine.modEvent ((p.flushCue c).passOverTo (some event) ((p.flushCue c).chan c).playlist) event
        fun e => { e with joinOffset := some offset, progress := e.progress ++ p.dueBefore c t e }
      seq := { ((p.flushCue c).chan c).seq with cursor := some event } } := by
    rw [Plant.cueJoin, Plant.modEvent, Plant.chan_modChan_same, Plant.cursorTo, Plant.chan_modChan_same]
  rw [Plant.flushCue_chan] at chan
  refine ⟨⟨?_, ?_, rfl⟩, ?_, ?_, fun j => p.flushCue_port c j⟩
  · rw [chan]
  · rw [chan]
    exact (modEvent_course _ _ _ (by intro; rfl)).trans ((Plant.passOverTo_course _ _ _).trans (foldl_unmarkProgress_course _ _))
  · rw [chan]
  · rw [chan]


/-! ## The bridge of a take -/

/-- R148: the changes pending once the bridge of a take is decided again. -/
def Plant.kept (p : Plant) (c : Chan) : List PendingSw :=
  if (p.chan c).mode = .taking ∧ (p.chan c).switch = .main ∧ (p.chan c).pendingSw = [] ∧
      p.takeBridge c (((p.chan c).takeRec.map (·.option)).getD .join) = .filler then
    [{ pos := .filler, frame := p.nextLineFrame c, cause := .bridge, act := .bridge }]
  else (p.chan c).pendingSw

theorem Plant.modChan_id (p : Plant) (c : Chan) : (p.modChan c fun x => { x with pendingSw := (p.chan c).pendingSw }) = p :=
  p.setChan_chan c

theorem Plant.keepBridge_eq (p : Plant) (c : Chan) :
    p.keepBridge c = p.modChan c fun x => { x with pendingSw := p.kept c } := by
  simp only [Plant.keepBridge, Plant.kept]
  split
  · exact p.decideSwitch_next c .filler .bridge .bridge
  · exact (p.modChan_id c).symm

/-! ## A list handed to a port -/

theorem Plant.arbitrate_chans (i : PortNo) : (p.arbitrate i).chans = p.chans := by
  simp only [Plant.arbitrate]
  repeat' split
  all_goals rfl

theorem Plant.arbitrate_port_other {i j : PortNo} (h : j ≠ i) : (p.arbitrate i).port j = p.port j := by
  have set : ∀ x : Port, (p.setPort i x).port j = p.port j := fun x => p.port_setPort_other x h
  simp only [Plant.arbitrate]
  repeat' split
  all_goals exact set _

/-- R107: a list with a command left stays in its claim when the finished ones leave. -/
theorem Port.mem_dropFinished {x : Port} {l : CmdList} (h : l ∈ x.claim) (hl : l.cmds ≠ []) : l ∈ x.dropFinished.claim := by
  unfold Port.dropFinished
  split
  · exact h
  · rw [← List.takeWhile_append_dropWhile (p := fun m : CmdList => m.cmds.isEmpty) (l := x.claim)] at h
    exact (List.mem_append.mp h).resolve_left fun m => hl (List.isEmpty_iff.mp
      (List.mem_takeWhile_imp (p := fun n : CmdList => n.cmds.isEmpty) m))

@[simp] theorem Port.handFrame_claim (x : Port) (f : List Byte) : (x.handFrame f).claim = x.claim := by
  unfold Port.handFrame
  split <;> rfl

@[simp] theorem Port.grant_claim (x : Port) (cmd : DevCmd) (r : Requester) : (x.grant cmd r).claim = x.claim := x.handFrame_claim _

/-- R107: the head list without its first command stands where the head list stood. -/
theorem Port.mem_popCommand {x : Port} {l : CmdList} (h : l ∈ x.claim) :
    ∃ m ∈ x.popCommand.claim, m.channel = l.channel ∧ m.purpose = l.purpose := by
  unfold Port.popCommand
  split
  · exact ⟨l, h, rfl, rfl⟩
  · next k rest e =>
    rw [e] at h
    rcases List.mem_cons.mp h with rfl | h
    · exact ⟨_, List.mem_cons_self, rfl, rfl⟩
    · exact ⟨l, List.mem_cons_of_mem _ h, rfl, rfl⟩

/-- R107: a list of commands handed to a port stands in its claim, and nothing is told. -/
theorem Plant.handList_listed (i : PortNo) {l : CmdList} (hl : l.cmds ≠ []) :
    (∃ m ∈ ((p.handList i l).port i).claim, m.channel = l.channel ∧ m.purpose = l.purpose) ∧ (p.handList i l).outbox = p.outbox := by
  have listed : l ∈ (((p.modPort i fun x => x.addList l).port i).dropFinished).claim := by
    refine Port.mem_dropFinished ?_ hl
    rw [Plant.port_modPort_same]
    exact List.mem_append_right _ (List.mem_singleton_self l)
  simp only [Plant.handList, Plant.arbitrate]
  generalize ((p.modPort i fun x => x.addList l).port i).dropFinished = x at listed ⊢
  have stays : ((p.modPort i fun x => x.addList l).setPort i x).outbox = p.outbox ∧
      ∃ m ∈ (((p.modPort i fun x => x.addList l).setPort i x).port i).claim, m.channel = l.channel ∧ m.purpose = l.purpose :=
    ⟨rfl, l, by rwa [Plant.port_setPort_same], rfl, rfl⟩
  split
  · exact ⟨stays.2, stays.1⟩
  · split
    · refine ⟨?_, rfl⟩
      rw [Plant.port_setPort_same, Port.grant_claim]
      exact Port.mem_popCommand listed
    · rw [if_pos (by simpa using List.ne_nil_of_mem listed)]
      exact ⟨stays.2, stays.1⟩

theorem Plant.handList_chans (i : PortNo) (l : CmdList) : (p.handList i l).chans = p.chans := Plant.arbitrate_chans _ i

theorem Plant.handList_chan (i : PortNo) (l : CmdList) (d : Chan) : (p.handList i l).chan d = p.chan d := by
  simp only [Plant.chan, p.handList_chans i l]

theorem Plant.handList_port_other {i j : PortNo} (l : CmdList) (h : j ≠ i) : (p.handList i l).port j = p.port j :=
  (Plant.arbitrate_port_other _ h).trans (p.port_setPort_other _ h)

theorem Port.spent_of_empty {x : Port} (h : x.claim = []) : ∀ l ∈ x.claim, l.cmds = [] := fun _ hl => absurd (h ▸ hl) List.not_mem_nil

/-- R106: a port that is UP and has nothing left to send sends the first command of a list at once. -/
theorem Plant.handList_spent {i : PortNo} {k : ListCmd} {ks : List ListCmd} {u : Purpose} {d : Chan} {x : Port} (hx : p.port i = x)
    (up : x.state = .up) (out : x.outstanding = none) (shift : x.shift = none) (held : x.grantHeld = false)
    (spent : ∀ l ∈ x.claim, l.cmds = []) (now : k.notBefore = none) :
    p.handList i { channel := d, purpose := u, cmds := k :: ks } = p.setPort i { x with
      claim := [{ channel := d, purpose := u, cmds := ks }], outstanding := some { cmd := k.cmd, requester := .changeover d u true }
      shift := some (.frame k.cmd.frame), holding := none, attempt := 1, failures := [], replyTimer := none
      tryTimeout := x.replyTimeout, tryRetries := x.retries } := by
  have drop : (x.addList { channel := d, purpose := u, cmds := k :: ks }).dropFinished =
      { x with claim := [{ channel := d, purpose := u, cmds := k :: ks }] } := by
    have gone := List.dropWhile_append_of_pos (p := fun l : CmdList => l.cmds.isEmpty)
      (l₂ := [{ channel := d, purpose := u, cmds := k :: ks }])
      fun l hl => List.isEmpty_iff.mpr (spent l hl)
    simp [Port.dropFinished, Port.listBusy, Port.addList, out, gone]
  simp only [Plant.handList, Plant.modPort, Plant.arbitrate, Plant.port_setPort_same, hx, drop, up, out, held, Plant.dueCommand, now,
    Plant.setPort_setPort, ne_eq, not_true_eq_false, Option.isSome_none, Bool.false_eq_true, or_self, if_false, Port.popCommand,
    Port.grant, Port.handFrame, shift, List.tail_cons]

/-! ## A cold join -/

omit p c in
theorem Plant.conf_of_config {p : Plant} {c : Chan} {g : ChannelConfig} (hg : (p.chan c).config = some g) (f : ChannelConfig → Nat) :
    p.conf c f = f g := by
  simp only [Plant.conf, Plant.config, hg]

theorem Plant.nextLineFrame_congr {p q : Plant} (hr : q.rest = p.rest) (hn : (q.chan c).now = (p.chan c).now)
    (hg : (q.chan c).config = (p.chan c).config) (hl : (q.chan c).lineInForce = (p.chan c).lineInForce) :
    q.nextLineFrame c = p.nextLineFrame c := by
  have refs : ∀ r, q.ref r = p.ref r := Plant.ref_of_rest hr
  simp only [Plant.nextLineFrame, Plant.config, hn, hg, hl, refs]

theorem Plant.nextLineFrame_of_around {p q : Plant} {b : Bool} (hr : q.rest = p.rest) (h : q.around c b = p.around c b) :
    q.nextLineFrame c = p.nextLineFrame c := by
  have steady := Plant.steady_of_around h
  simp only [Channel.steady, Prod.mk.injEq] at steady
  obtain ⟨now, -, config, line, -, -⟩ := steady
  exact Plant.nextLineFrame_congr c hr now config line

/-- R151: the list of a cold join. -/
def joinList (c : Chan) (e : Event) (t preroll : Nat) : CmdList :=
  { channel := c, purpose := .join,
    cmds := [{ cmd := .select e.clipId, notBefore := none }, { cmd := .point (e.som + (t - e.rstart)), notBefore := none },
             { cmd := .roll, notBefore := some (t - preroll) }] }

/-- R151: what a cold join writes in its record. -/
def joinInfo (now0 t preroll : Nat) (e : Event) : JoinRec :=
  { now0 := now0, t := t, event := e.id, offset := t - e.rstart, cue := e.som + (t - e.rstart), roll := some (t - preroll) }

omit p c in
theorem Plant.Joined.of_record {p q w : Plant} {c : Chan} {cursor : Option Nat} {l : List Event} {k : Option TakeRec} {s : List PendingSw}
    (h : q.Joined w c cursor) (hq : q.chan c = { p.chan c with takeRec := k, pendingSw := s, playlist := l })
    (hl : l.map Event.course = (p.chan c).playlist.map Event.course) (ho : q.outbox = p.outbox) : p.Joined w c cursor := by
  refine ⟨?_, ?_, h.outbox.trans ho⟩
  · rw [h.chan, hq]
  · rw [h.course, hq]
    exact hl

omit p c in
theorem Plant.Joined.decides {p q : Plant} {c : Chan} {cursor : Option Nat} (h : p.Joined q c cursor) (pos : SwitchPos) (frame : Nat)
    (cause : SwitchCause) (act : SwAct) : p.Joined (q.decideSwitch c pos frame cause act) c cursor := by
  have chan : (q.decideSwitch c pos frame cause act).chan c = { q.chan c with
    pendingSw := q.pendingBefore c frame ++ [{ pos := pos, frame := frame, cause := cause, act := act }] } := Plant.chan_modChan_same q c _
  refine ⟨?_, ?_, h.outbox⟩
  · rw [chan, h.chan]
  · rw [chan]
    exact h.course

omit p c in
/-- R148, R150: the channel as a cold join finds it, its bridge decided again and its stage and port written. -/
theorem Plant.coldJoin_base {p : Plant} {c : Chan} {x : Channel} {k : TakeRec} (hx : p.chan c = x) (hk : x.takeRec = some k)
    (f : TakeRec → TakeRec) :
    ((p.keepBridge c).modTake c f).chan c = { x with takeRec := some (f k), pendingSw := p.kept c } := by
  rw [Plant.keepBridge_eq, Plant.modTake, Plant.chan_modChan_same, Plant.chan_modChan_same, hx]
  simp only [hk, Option.map_some]

omit p c in
theorem Plant.keepBridge_port (p : Plant) (c : Chan) (i : PortNo) : (p.keepBridge c).port i = p.port i := by
  rw [Plant.keepBridge_eq]
  rfl

omit p c in
theorem Plant.keepBridge_outbox (p : Plant) (c : Chan) : (p.keepBridge c).outbox = p.outbox := by
  rw [Plant.keepBridge_eq]
  rfl

/-- R151: on an event, a cold join hands its list to the port once the record, the pending changes and the cursor are its own. -/
theorem Plant.coldJoin_on {p : Plant} {c : Chan} {x : Channel} {k : TakeRec} {t : Nat} {e : Event} (hx : p.chan c = x)
    (hk : x.takeRec = some k) (i : PortNo) (now0 : Nat) (stage : Stage)
    (ht : t = now0 + p.conf c (·.cueLead) + (p.port i).preroll) (he : coverAt x.playlist t = some e)
    (ha : joinRefusal (p.conf c (·.tailGuard)) t e = none) :
    ∃ w : Plant, p.coldJoin c i now0 stage = w.handList i (joinList c e t (p.port i).preroll) ∧ p.Joined w c (some e.id) ∧
      (w.chan c).takeRec = some { k with
        stage := stage, port := some i, join := some (joinInfo now0 t (p.port i).preroll e), bridgeReason := none } ∧
      (w.chan c).pendingSw = (if p.nextLineFrame c < t then (p.kept c).filter (fun y => decide (y.frame < t)) else []) ++
        [{ pos := .onLocal, frame := t, cause := .take, act := .joinLocal }] ∧
      ∀ j, w.port j = (p.port j).flushed c := by
  generalize hf : (fun k : TakeRec => { k with stage := stage, port := some i }) = f
  have eq : p.coldJoin c i now0 stage = ((p.keepBridge c).modTake c f).joinOn c i now0 t e := by
    rw [← hf]
    simp only [Plant.coldJoin, hx, ← ht, he, ha]
  generalize hv : ((p.keepBridge c).modTake c f).modTake c
    (fun k => { k with join := some (joinInfo now0 t (p.port i).preroll e), bridgeReason := none }) = v
  have chan : v.chan c = { x with
      takeRec := some { k with
        stage := stage, port := some i, join := some (joinInfo now0 t (p.port i).preroll e), bridgeReason := none }
      pendingSw := p.kept c } := by
    rw [← hv, Plant.modTake, Plant.chan_modChan_same, Plant.coldJoin_base hx hk, ← hf]
    rfl
  generalize hu : v.modEvent c e.id (fun e => if e.cue = .pending then v.bindTo .cueing e else e) = u
  have cued : u.chan c = { v.chan c with playlist := (u.chan c).playlist } ∧
      (u.chan c).playlist.map Event.course = (v.chan c).playlist.map Event.course := by
    rw [← hu, Plant.modEvent, Plant.chan_modChan_same]
    refine ⟨rfl, modEvent_course _ _ _ fun e => ?_⟩
    split <;> rfl
  have port : ∀ j, u.port j = p.port j := fun j => by
    rw [← hu, ← hv]
    exact p.keepBridge_port c j
  have outbox : u.outbox = p.outbox := by
    rw [← hu, ← hv]
    exact p.keepBridge_outbox c
  have line : (u.cueJoin c e.id (t - e.rstart) t).nextLineFrame c = p.nextLineFrame c :=
    Plant.nextLineFrame_of_around (b := true) c (by rw [← hu, ← hv]; simp) (by rw [← hu, ← hv]; simp)
  obtain ⟨joined, record, pending, ports⟩ := u.cueJoin_joined c e.id (t - e.rstart) t
  refine ⟨(u.cueJoin c e.id (t - e.rstart) t).decideSwitch c .onLocal t .take .joinLocal, ?_, ?_, ?_, ?_, fun j => ?_⟩
  · rw [eq, ← hu, ← hv]
    rw [Plant.joinOn, show ((p.keepBridge c).modTake c f).port i = p.port i from p.keepBridge_port c i]
    rfl
  · refine Plant.Joined.decides (joined.of_record (by rw [cued.1, chan, hx]) ?_ outbox) _ _ _ _
    rw [cued.2, chan, hx]
  · refine (congrArg Channel.takeRec (Plant.chan_modChan_same _ c _)).trans (record.trans ?_)
    rw [cued.1, chan]
  · refine (congrArg Channel.pendingSw (Plant.chan_modChan_same _ c _)).trans ?_
    rw [Plant.pendingBefore, line, pending, cued.1, chan]
  · exact (ports j).trans (by rw [port])

/-- R150: a cold join that bridges. -/
theorem Plant.coldJoin_bridges {p : Plant} {c : Chan} {x : Channel} {k : TakeRec} {t : Nat} {r : BridgeReason}
    (hx : p.chan c = x) (hk : x.takeRec = some k) (i : PortNo) (now0 : Nat) (stage : Stage)
    (ht : t = now0 + p.conf c (·.cueLead) + (p.port i).preroll)
    (hr : (coverAt x.playlist t = none ∧ r = .noEvent) ∨
      ∃ e, coverAt x.playlist t = some e ∧ joinRefusal (p.conf c (·.tailGuard)) t e = some r) {q : Plant}
        (hq : q = p.coldJoin c i now0 stage) :
    p.Joined q c (firstAfter x.playlist t) ∧
    (q.chan c).takeRec = some { k with stage := stage, port := some i, join := none, bridgeReason := some r } ∧
    (q.chan c).pendingSw = [{ pos := .filler, frame := p.nextLineFrame c, cause := .bridge, act := .joinBridge t }] ∧
    ∀ j, q.port j = (p.port j).flushed c := by
  generalize hf : (fun k : TakeRec => { k with stage := stage, port := some i }) = f
  have eq : q = ((p.keepBridge c).modTake c f).bridgeAt c t r := by
    rw [hq, ← hf]
    rcases hr with ⟨he, rfl⟩ | ⟨e, he, hr⟩
    · simp only [Plant.coldJoin, hx, ← ht, he]
    · simp only [Plant.coldJoin, hx, ← ht, he, hr]
  generalize hv : ((p.keepBridge c).modTake c f).modTake c (fun k => { k with join := none, bridgeReason := some r }) = v at eq
  have chan : v.chan c = { x with
      takeRec := some { k with stage := stage, port := some i, join := none, bridgeReason := some r }, pendingSw := p.kept c } := by
    rw [← hv, Plant.modTake, Plant.chan_modChan_same, Plant.coldJoin_base hx hk, ← hf]
    rfl
  have port : ∀ j, v.port j = p.port j := fun j => by
    rw [← hv]
    exact p.keepBridge_port c j
  have outbox : v.outbox = p.outbox := by
    rw [← hv]
    exact p.keepBridge_outbox c
  have line : (v.cueBridge c t).nextLineFrame c = p.nextLineFrame c :=
    Plant.nextLineFrame_of_around (b := true) c (by rw [← hv]; simp) (by rw [← hv]; simp)
  obtain ⟨joined, record, -, ports⟩ := v.cueBridge_joined c t
  rw [show q = (v.cueBridge c t).decideSwitch c .filler ((v.cueBridge c t).nextLineFrame c) .bridge (.joinBridge t) by rw [eq, ← hv]; rfl,
    Plant.decideSwitch_next, line]
  rw [chan] at joined record
  refine ⟨?_, ?_, ?_, fun j => ?_⟩
  · rw [← line, ← Plant.decideSwitch_next]
    exact (joined.of_record (by rw [chan, hx]) (by rw [hx]) outbox).decides _ _ _ _
  · rw [Plant.chan_modChan_same]
    exact record
  · rw [Plant.chan_modChan_same]
  · exact (ports j).trans (by rw [port])

omit p c in
/-- R150, R151: whatever it finds, a cold join keeps the record but for its stage, its port, its join and its reason. -/
theorem Plant.coldJoin_joined {p : Plant} {c : Chan} {k : TakeRec} (hk : (p.chan c).takeRec = some k) (i : PortNo) (now0 : Nat)
    (stage : Stage) {q : Plant} (hq : q = p.coldJoin c i now0 stage) :
    ∃ cursor m, p.Joined q c cursor ∧ (q.chan c).takeRec = some m ∧
      m = { k with stage := stage, port := some i, join := m.join, bridgeReason := m.bridgeReason } ∧
      ∀ j, j ≠ i → q.port j = (p.port j).flushed c := by
  have bridges : ∀ r, _ → _ := fun r hr => Plant.coldJoin_bridges (r := r) rfl hk i now0 stage rfl hr hq
  cases he : coverAt (p.chan c).playlist (now0 + p.conf c (·.cueLead) + (p.port i).preroll) with
  | none =>
    obtain ⟨joined, record, -, ports⟩ := bridges .noEvent (Or.inl ⟨he, rfl⟩)
    exact ⟨_, _, joined, record, rfl, fun j _ => ports j⟩
  | some e =>
    cases hr : joinRefusal (p.conf c (·.tailGuard)) (now0 + p.conf c (·.cueLead) + (p.port i).preroll) e with
    | some r =>
      obtain ⟨joined, record, -, ports⟩ := bridges r (Or.inr ⟨e, he, hr⟩)
      exact ⟨_, _, joined, record, rfl, fun j _ => ports j⟩
    | none =>
      obtain ⟨w, eq, joined, record, -, ports⟩ := Plant.coldJoin_on rfl hk i now0 stage rfl he hr
      have chan : q.chan c = w.chan c := by rw [hq, eq, Plant.handList_chan]
      have outbox : q.outbox = w.outbox := by
        rw [hq, eq]
        exact (w.handList_listed i (List.cons_ne_nil _ _)).2
      have others : ∀ j, j ≠ i → q.port j = (p.port j).flushed c := fun j hj => by
        rw [hq, eq, Plant.handList_port_other _ _ hj, ports]
      exact ⟨some e.id, _, ⟨by rw [chan]; exact joined.chan, by rw [chan]; exact joined.course, outbox.trans joined.outbox⟩,
        by rw [chan, record], rfl, others⟩

/-! ## A join in local running -/

/-- R155, R163: the channel as a join in local running begins. -/
def Channel.startLocal (x : Channel) : Channel :=
  let base : TakeRec := x.takeRec.getD
    { kind := .localJoin, option := .join, start := x.now, stage := .joining, port := none, join := none,
      bridgeReason := none, verify := none, result := none, failure := none, rejoined := false }
  { x with
    takeRec := some { base with kind := .localJoin, stage := .joining, port := x.portInUse, join := none, bridgeReason := none,
                                result := none, failure := none, rejoined := false }
    pendingSw := x.pendingSw.filter fun w => match w.act with | .joinBridge _ => false | _ => true }

theorem Plant.startLocalRec_eq : p.startLocalRec c = p.modChan c Channel.startLocal := rfl

theorem Plant.startLocalRec_chan : (p.startLocalRec c).chan c = (p.chan c).startLocal := Plant.chan_modChan_same p c _

omit p c in
/-- R163: a join in local running leaves of the channel all but its record, its pending changes, its queue and its cursor. -/
theorem Plant.localJoinOn_joined {p : Plant} {c : Chan} (i : PortNo) {q : Plant} (hq : q = p.localJoinOn c i) :
    ∃ cursor m, p.Joined q c cursor ∧ (q.chan c).takeRec = some m ∧ m.kind = .localJoin ∧ m.stage = .joining ∧ m.port = some i ∧
      m.result = none ∧ m.failure = none ∧ m.rejoined = false ∧ ∀ j, j ≠ i → q.port j = (p.port j).flushed c := by
  have chan := p.startLocalRec_chan c
  obtain ⟨cursor, m, joined, record, hm, ports⟩ := Plant.coldJoin_joined (p := p.startLocalRec c) (c := c)
    (by rw [chan]; rfl) i (p.chan c).now .joining hq
  refine ⟨cursor, m, joined.of_record chan rfl rfl, record, ?_⟩
  rw [hm]
  exact ⟨rfl, rfl, rfl, rfl, rfl, rfl, ports⟩

end

end Sys2Proof.Machine
end

