-- ==== Sys2Proof/Proofs/Lending.lean ====
section
/-! PROOFS. The spare arbiter (R109 to R111): what a request and a spare that becomes free do. -/

namespace Sys2Proof.Machine

/-! ## A request -/

/-- R109: a channel that holds a spare or waits for one asks in vain. -/
theorem Plant.requestSpare_idle {p : Plant} {c : Chan} (h : (∃ i, (p.port i).holder = some c) ∨ c ∈ p.spareQueue) :
    p.requestSpare c = (p, none) := by
  refine if_pos ?_
  rcases h with ⟨i, h⟩ | h
  · rw [Plant.heldSpare_isSome h, Bool.true_or]
  · rw [List.contains_iff_mem.mpr h, Bool.or_true]

/-- A port is a free spare that is UP and in the channel's set. -/
def Plant.Lendable (p : Plant) (g : ChannelConfig) (i : PortNo) : Prop :=
  (p.port i).role = .spare ∧ (p.port i).state = .up ∧ (p.port i).holder = none ∧ g.spares.testBit i.val = true

section
variable {p : Plant} {c : Chan} {g : ChannelConfig} (hg : (p.chan c).config = some g)
include hg

theorem Plant.eligible_of_config (i : PortNo) :
    p.eligible c i = true ↔ (p.port i).role = .spare ∧ (p.port i).state = .up ∧ g.spares.testBit i.val = true := by
  simp only [Plant.eligible, Plant.config, hg, Bool.and_eq_true, beq_iff_eq, and_assoc]

theorem Plant.lendable_iff (i : PortNo) :
    ((p.port i).holder.isNone && p.eligible c i) = true ↔ p.Lendable g i := by
  rw [Bool.and_eq_true, Plant.eligible_of_config hg, Option.isNone_iff_eq_none, Plant.Lendable]
  tauto

/-- R109: the free spare of the lowest number. -/
theorem Plant.freeSpareFor_lowest {i : PortNo} (h : p.Lendable g i) (low : ∀ j : PortNo, j.val < i.val → ¬p.Lendable g j) :
    p.freeSpareFor c = some i := by
  refine List.find?_eq_some_iff_getElem.mpr ⟨(Plant.lendable_iff hg i).mpr h, i.val, by simp [allPorts], by simp [allPorts], ?_⟩
  intro j hj
  have := low ⟨j, hj.trans i.isLt⟩ hj
  rw [← Plant.lendable_iff hg, Bool.not_eq_true] at this
  rw [Bool.not_eq_true', ← this]
  simp [allPorts]

theorem Plant.freeSpareFor_none (h : ∀ i, ¬p.Lendable g i) : p.freeSpareFor c = none :=
  List.find?_eq_none.mpr fun i _ => by rw [Plant.lendable_iff hg]; exact h i

variable (hh : ∀ i, (p.port i).holder ≠ some c) (hc : c ∉ p.spareQueue)
include hh hc

omit hg in
theorem Plant.requestSpare_fresh : p.requestSpare c =
    match p.freeSpareFor c with
    | some i => (p.lend c i, some i)
    | none => ({ p with spareQueue := p.spareQueue ++ [c] }, none) := by
  refine if_neg ?_
  rw [Plant.heldSpare_none.mpr hh]
  simpa using hc

/-- R109: a spare is lent. -/
theorem Plant.requestSpare_lends {i : PortNo} (h : p.Lendable g i) (low : ∀ j : PortNo, j.val < i.val → ¬p.Lendable g j) :
    p.requestSpare c = (p.lend c i, some i) := by
  rw [Plant.requestSpare_fresh hh hc, Plant.freeSpareFor_lowest hg h low]

/-- R109: the channel waits. -/
theorem Plant.requestSpare_waits (h : ∀ i, ¬p.Lendable g i) :
    p.requestSpare c = ({ p with spareQueue := p.spareQueue ++ [c] }, none) := by
  rw [Plant.requestSpare_fresh hh hc, Plant.freeSpareFor_none hg h]

end

/-! ## A spare becomes free -/

/-- R110: a port that is no free spare, or for which no channel waits, stands. -/
theorem Plant.spareFreed_idle {p : Plant} {i : PortNo}
    (h : (p.port i).role ≠ .spare ∨ (p.port i).state ≠ .up ∨ (p.port i).holder ≠ none ∨
      ∀ d ∈ p.spareQueue, ∀ k, p.config d = some k → k.spares.testBit i.val = false) : p.spareFreed i = p := by
  simp only [Plant.spareFreed]
  split
  · next free =>
    obtain ⟨role, up, holder⟩ := free
    have none : ∀ d ∈ p.spareQueue, ∀ k, p.config d = some k → k.spares.testBit i.val = false := by
      rcases h with h | h | h | h
      · exact absurd role h
      · exact absurd up h
      · exact absurd holder h
      · exact h
    have : p.oldestFor i = .none := List.find?_eq_none.mpr fun d hd he => by
      cases hk : p.config d with
      | none => simp [Plant.eligible, hk] at he
      | some k => simp [Plant.eligible, hk, none d hd k hk] at he
    rw [this]
  · rfl

section
variable {p : Plant} {c : Chan} {g : ChannelConfig} {i : PortNo} {before after : List Chan}

/-- R110: the oldest channel for which the spare is eligible gets it. -/
theorem Plant.spareFreed_lends (hg : (p.chan c).config = some g) (free : p.Lendable g i) (hq : p.spareQueue = before ++ c :: after)
    (hb : ∀ d ∈ before, ∀ k, p.config d = some k → k.spares.testBit i.val = false) :
    p.spareFreed i = ((p.leaveQueue c).lend c i).spareGranted c i ∧ (p.leaveQueue c).spareQueue = before ++ after.filter (· != c) := by
  obtain ⟨role, up, holder, bit⟩ := free
  have fresh : c ∉ before := fun m => by
    have := hb c m g hg
    rw [bit] at this
    exact absurd this (by simp)
  have oldest : p.oldestFor i = some c := by
    rw [Plant.oldestFor, hq]
    refine List.find?_eq_some_iff_append.mpr ⟨(Plant.eligible_of_config hg i).mpr ⟨role, up, bit⟩, before, after, rfl, fun d hd => ?_⟩
    cases hk : p.config d with
    | none => simp [Plant.eligible, hk]
    | some k => simp [Plant.eligible, hk, hb d hd k hk]
  constructor
  · rw [Plant.spareFreed, if_pos ⟨role, up, holder⟩, oldest]
  · have : before.filter (· != c) = before := List.filter_eq_self.mpr fun d hd => by
      simpa using fun e : d = c => fresh (e ▸ hd)
    simp [Plant.leaveQueue, hq, this]

end

theorem Plant.lend_chan (p : Plant) (c d : Chan) (i : PortNo) : (p.lend c i).chan d = p.chan d := rfl

theorem Plant.lend_port_same (p : Plant) (c : Chan) (i : PortNo) : (p.lend c i).port i = { p.port i with holder := some c } :=
  p.port_setPort_same i _

theorem Plant.lend_port_other (p : Plant) (c : Chan) {i j : PortNo} (h : j ≠ i) : (p.lend c i).port j = p.port j :=
  p.port_setPort_other _ h

theorem Plant.leaveQueue_chan (p : Plant) (c d : Chan) : (p.leaveQueue c).chan d = p.chan d := rfl
theorem Plant.leaveQueue_port (p : Plant) (c : Chan) (i : PortNo) : (p.leaveQueue c).port i = p.port i := rfl

theorem Plant.spareGranted_running {p : Plant} {c : Chan} {i : PortNo} (h : (p.chan c).mode = .onLocal ∨ (p.chan c).mode = .returning) :
    p.spareGranted c i = (p.usePort c (some i)).localJoinOn c i := by
  rcases h with h | h
  · simp only [Plant.spareGranted, h]
  · simp only [Plant.spareGranted, h]

theorem Plant.spareGranted_taking {p : Plant} {c : Chan} {i : PortNo} (h : (p.chan c).mode = .taking) :
    p.spareGranted c i = p.usePort c (some i) := by
  simp only [Plant.spareGranted, h]

theorem Plant.spareGranted_else {p : Plant} {c : Chan} {i : PortNo} (ht : (p.chan c).mode ≠ .taking) (hl : (p.chan c).mode ≠ .onLocal)
    (hr : (p.chan c).mode ≠ .returning) : p.spareGranted c i = p := by
  unfold Plant.spareGranted
  split
  · next h => exact absurd h hl
  · next h => exact absurd h hr
  · next h => exact absurd h ht
  · rfl

/-- The ports other than the one joined keep all but the channel's own commands. -/
theorem Plant.localJoinOn_port_other {p : Plant} {c : Chan} {i j : PortNo} (h : j ≠ i) : (p.localJoinOn c i).port j =
    (p.port j).flushed c := by
  obtain ⟨_, _, _, _, _, _, _, _, _, _, ports⟩ := Plant.localJoinOn_joined i rfl
  exact ports j h

theorem Plant.spareGranted_port_other {p : Plant} {c : Chan} {i j : PortNo} (h : j ≠ i) (hj : (p.port j).Clear c) :
    (p.spareGranted c i).port j = p.port j := by
  unfold Plant.spareGranted
  split
  · exact (Plant.localJoinOn_port_other (p := p.usePort c (some i)) h).trans (Port.flushed_clear hj)
  · exact (Plant.localJoinOn_port_other (p := p.usePort c (some i)) h).trans (Port.flushed_clear hj)
  · rfl
  · rfl

/-- Settles O43: the requests by the lowest free spare, the freed spare by the first of the queue that it is eligible for, the spare
given back by its holder's lists. -/
theorem sparesAreLent : Obligations.SparesAreLent := by
  unfold Obligations.SparesAreLent
  intro p c x g free hx hg hfree
  subst hx
  obtain rfl : free = p.Lendable g := funext fun i => propext (hfree i)
  refine ⟨Plant.requestSpare_idle, fun hh hc => ⟨fun i h low => Plant.requestSpare_lends hg hh hc h low,
    Plant.requestSpare_waits hg hh hc⟩, fun i => Plant.spareFreed_idle, ?_, fun i _ one hc j => Plant.releaseSpare_holds_none hc ?_ j⟩
  · intro i before after free hq hb
    obtain ⟨lent, queue⟩ := Plant.spareFreed_lends hg free hq hb
    refine ⟨_, rfl, ?_⟩
    rw [lent]
    generalize hw : (p.leaveQueue c).lend c i = w
    have chan : ∀ d, w.chan d = p.chan d := fun d => by rw [← hw]; rfl
    have around : (w.spareGranted c i).around c true = w.around c true := by simp
    have holder : ((w.spareGranted c i).port i).holder = some c := by
      rw [Plant.holder_of_around around, ← hw, Plant.lend_port_same]
    have tells : w.Tells (w.spareGranted c i) := Plant.spareGranted_tells (.refl w) c i
    have told : ⟨.spareGranted, some c, u8 i.val⟩ ∈ w.notices := by
      rw [← hw]
      exact Plant.mem_notices.mpr (List.mem_append_right _ (List.mem_singleton_self _))
    have rest : (w.spareGranted c i).rest = p.rest := by rw [← hw]; simp
    refine ⟨holder, ?_, tells.mem_notices told, ?_, Plant.still_of_rest rest, fun d hd => ?_, fun j hj slot out => ?_, fun hm => ?_,
      fun hm => ?_, fun ht hl hr => ?_⟩
    · rw [Plant.spareQueue_of_around around, ← hw]
      exact queue
    · refine Plant.hold_of_store ?_
      rw [← hw]
      simp
    · rw [Plant.otherChans_of_around around d hd, chan]
    · have other : w.port j = p.port j := by
        rw [← hw, Plant.lend_port_other _ _ hj, Plant.leaveQueue_port]
      rw [Plant.spareGranted_port_other hj (by rw [other]; exact ⟨slot, out⟩), other]
    · rw [Plant.spareGranted_taking (by rw [chan]; exact hm), Plant.usePort, Plant.chan_modChan_same, chan]
    · have use : (w.usePort c (some i)).chan c = { p.chan c with portInUse := some i } := by
        rw [Plant.usePort, Plant.chan_modChan_same, chan]
      rw [Plant.spareGranted_running (by rw [chan]; exact hm)]
      obtain ⟨cursor, m, joined, record, kind, stage, port, -⟩ :=
        Plant.localJoinOn_joined (p := w.usePort c (some i)) (c := c) i rfl
      have own := joined.chan
      rw [use] at own
      exact ⟨by rw [own], by rw [own], m, record, kind, port, stage⟩
    · rw [Plant.spareGranted_else (by rw [chan]; exact ht) (by rw [chan]; exact hl) (by rw [chan]; exact hr), chan]
  · intro j k hj hk
    rw [one j hj, one k hk]

end Sys2Proof.Machine
end

