-- ==== Sys2Proof/Proofs/Failures.lean ====
section
/-! PROOFS. How a join fails (R154), and HALT and RESUME (R133, R134). -/

namespace Sys2Proof.Machine

/-! ## A join withdrawn -/

/-- R153, R154, R161, R198: the channel's lists on a port and the outcome switch of its join are no longer live. -/
def Plant.unjoined (p : Plant) (c : Chan) (i : PortNo) : Plant := (p.modPort i fun x => x.withdrawLists c false).cancelJoinSwitch c

/-- The changes pending but for the outcome switch of a join. -/
def Channel.unjoin (x : Channel) : Channel := { x with pendingSw := x.pendingSw.filter fun w => !w.act.ofJoin }

section
variable (p : Plant) (c : Chan) (i : PortNo)

theorem Plant.unjoined_chan : (p.unjoined c i).chan c = (p.chan c).unjoin := Plant.chan_modChan_same _ c _

theorem Plant.unjoined_port_same : (p.unjoined c i).port i = (p.port i).withdrawLists c false := p.port_setPort_same i _

theorem Plant.unjoined_port_other {j : PortNo} (h : j ≠ i) : (p.unjoined c i).port j = p.port j := p.port_setPort_other _ h

@[simp] theorem Plant.unjoined_rest : (p.unjoined c i).rest = p.rest := by simp [Plant.unjoined]
@[simp] theorem Plant.unjoined_store : (p.unjoined c i).store = p.store := by simp [Plant.unjoined]
@[simp] theorem Plant.unjoined_around {b : Bool} : (p.unjoined c i).around c b = p.around c b := by simp [Plant.unjoined]
theorem Plant.unjoined_outbox : (p.unjoined c i).outbox = p.outbox := rfl

theorem Plant.unjoined_holder (j : PortNo) : ((p.unjoined c i).port j).holder = (p.port j).holder :=
  Plant.holder_of_around (p.unjoined_around c i) j

/-- R107: a claim of the channel's lists alone, with none of their commands outstanding, is emptied. -/
theorem Port.withdrawLists_all {x : Port} (out : x.outstanding = none) (mine : ∀ l ∈ x.claim, l.channel = c ∧ l.purpose ≠ .stop) :
    x.withdrawLists c false = { x with claim := [] } := by
  have gone : ∀ l ∈ x.claim, (l.channel == c && (false || l.purpose != .stop)) = true := fun l hl => by simp [mine l hl]
  unfold Port.withdrawLists
  cases hc : x.claim with
  | nil => simp [out]
  | cons l rest =>
    rw [hc] at gone
    have filtered : (rest.filter fun l => !(l.channel == c && (false || l.purpose != .stop))) = [] :=
      List.filter_eq_nil_iff.mpr fun m hm => by
        rw [gone m (List.mem_cons_of_mem _ hm), Bool.not_true]
        exact Bool.false_ne_true
    simp only [gone l List.mem_cons_self, if_true, filtered, Port.listBusy, out, Bool.false_eq_true, if_false]

end

/-! ## No further port -/

theorem Plant.usePort_chan (p : Plant) (c : Chan) (o : Option PortNo) :
    (p.usePort c o).chan c = { p.chan c with portInUse := o } := Plant.chan_modChan_same p c _

theorem Plant.tellFailed_chan (p : Plant) (c d : Chan) (k : NoticeKind) (kind : TakeKind) (r : FailReason) (i : PortNo) :
    (p.tellFailed c k kind r i).chan d = p.chan d := rfl

/-- R154: the record of a local join that has failed. -/
def TakeRec.failed (k : TakeRec) (r : FailReason) : TakeRec :=
  { k with kind := .localJoin, stage := .ended, bridgeReason := none, result := some .failed, failure := some r }

/-- R154: a channel in local running whose join finds no further port: the cursor bridges, the record ends and the switch leaves
LOCAL. -/
def Plant.ranOut (p : Plant) (c : Chan) (i : PortNo) (r : FailReason) (t : Nat) (drop : Bool) : Plant :=
  ((((if drop then p.usePort c none else p).cueBridge c t).failRecord c r).leaveServer c).tellFailed c .joinFailed .localJoin r i

theorem Plant.primary_of_around {p q : Plant} {c : Chan} {b : Bool} (h : q.around c b = p.around c b) : q.primary c = p.primary c := by
  have steady := Plant.steady_of_around h
  simp only [Channel.steady, Prod.mk.injEq] at steady
  rw [Plant.primary, Plant.config, steady.2.2.1, Plant.primary, Plant.config]

@[simp] theorem Plant.ranOut_around {b : Bool} (p : Plant) (c : Chan) (i : PortNo) (r : FailReason) (t : Nat) (drop : Bool) :
    (p.ranOut c i r t drop).around c b = p.around c b := by
  unfold Plant.ranOut
  cases drop <;> simp

@[simp] theorem Plant.ranOut_rest (p : Plant) (c : Chan) (i : PortNo) (r : FailReason) (t : Nat) (drop : Bool) :
    (p.ranOut c i r t drop).rest = p.rest := by
  unfold Plant.ranOut
  cases drop <;> simp

section
variable (p : Plant) (c : Chan) (i : PortNo) (r : FailReason) (t : Nat) (drop : Bool)

/-- R131: the cursor bridges, with or without a port in use. -/
theorem Plant.dropped_joined {v : Plant} (hv : v = (if drop then p.usePort c none else p).cueBridge c t) :
    v.chan c = { p.chan c with
      portInUse := if drop then none else (p.chan c).portInUse, playlist := (v.chan c).playlist
      seq := { (p.chan c).seq with queue := [], cursor := firstAfter (p.chan c).playlist t } } ∧
    v.outbox = p.outbox ∧ ∀ j, v.port j = (p.port j).flushed c := by
  generalize hu : (if drop then p.usePort c none else p) = u at hv
  have use : u.chan c = { p.chan c with portInUse := if drop then none else (p.chan c).portInUse } ∧ u.outbox = p.outbox ∧
      ∀ j, u.port j = p.port j := by
    rw [← hu]
    cases drop
    · exact ⟨rfl, rfl, fun _ => rfl⟩
    · exact ⟨p.usePort_chan c none, rfl, fun _ => rfl⟩
  obtain ⟨own, outbox, ports⟩ := use
  obtain ⟨joined, record, pending, flushed⟩ := u.cueBridge_joined c t
  rw [← hv] at joined record pending flushed
  have chan := joined.chan
  rw [record, pending, own] at chan
  exact ⟨chan, joined.outbox.trans outbox, fun j => by rw [flushed, ports]⟩

/-- What the channel is when its join finds no further port. -/
theorem Plant.ranOut_chan {q : Plant} (hq : q = p.ranOut c i r t drop) : q.chan c = { p.chan c with
    portInUse := if drop then none else (p.chan c).portInUse, takeRec := (p.chan c).takeRec.map (·.failed r)
    pendingSw := [{ pos := .filler, frame := p.nextLineFrame c, cause := .portLoss, act := .plain }]
    openEntry := (q.chan c).openEntry, playlist := (q.chan c).playlist
    seq := { (p.chan c).seq with queue := [], cursor := firstAfter (p.chan c).playlist t } } := by
  generalize hv : (if drop then p.usePort c none else p).cueBridge c t = v
  obtain ⟨chan, -, -⟩ := p.dropped_joined c t drop hv.symm
  have line : (v.failRecord c r).nextLineFrame c = p.nextLineFrame c :=
    Plant.nextLineFrame_of_around (b := true) c (by rw [← hv]; cases drop <;> simp) (by rw [← hv]; cases drop <;> simp)
  have eq : q.chan c = { (v.failRecord c r).chan c with
      openEntry := ((v.failRecord c r).chan c).markCut.openEntry
      pendingSw := [{ pos := .filler, frame := p.nextLineFrame c, cause := .portLoss, act := .plain }] } := by
    rw [hq, Plant.ranOut, hv, Plant.leaveServer_eq, line]
    rw [Plant.tellFailed_chan, Plant.chan_modChan_same]
    unfold Channel.markCut
    split <;> rfl
  have failed : (v.failRecord c r).chan c = { v.chan c with takeRec := (v.chan c).takeRec.map (·.failed r) } :=
    Plant.chan_modChan_same v c _
  rw [eq, failed, chan]

/-- What is told when a join finds no further port, and what it leaves of the ports. -/
theorem Plant.ranOut_tells : (p.ranOut c i r t drop).outbox = p.outbox ++
      [.notice ⟨.joinFailed, some c, u8 3 ++ u8 r.code ++ u8 i.val ++ flag (p.spareQueue.contains c)⟩] ∧
    ∀ j, (p.ranOut c i r t drop).port j = (p.port j).flushed c := by
  generalize hv : (if drop then p.usePort c none else p).cueBridge c t = v
  obtain ⟨-, outbox, ports⟩ := p.dropped_joined c t drop hv.symm
  have queue : v.spareQueue = p.spareQueue := Plant.spareQueue_of_around (c := c) (by rw [← hv]; cases drop <;> simp)
  constructor
  · rw [Plant.ranOut, hv, ← outbox, ← queue]
    rfl
  · intro j
    rw [Plant.ranOut, hv, ← ports]
    rfl

section
variable (hm : (p.chan c).mode ≠ .taking)
include hm

theorem Plant.noFurtherPort_running : p.noFurtherPort c i r t drop =
    if drop && (p.primary c).any fun k => (p.port k).state == .up then (p.ranOut c i r t drop).tryPrimary c
    else p.ranOut c i r t drop := by
  have around : (p.ranOut c i r t drop).around c true = p.around c true := by simp
  have primary := Plant.primary_of_around around
  have state := Plant.state_of_around around
  generalize hv : (if drop then p.usePort c none else p).cueBridge c t = v
  have mode : (v.chan c).mode ≠ .taking := by
    rw [(p.dropped_joined c t drop hv.symm).1]
    exact hm
  have same : (match (p.ranOut c i r t drop).primary c with
      | some k => ((p.ranOut c i r t drop).port k).state == .up
      | none => false) = (p.primary c).any fun k => (p.port k).state == .up := by
    rw [primary]
    cases p.primary c with
    | none => rfl
    | some k => exact congrArg (· == PortState.up) (state k)
  rw [← same]
  simp only [Plant.noFurtherPort, hv, if_neg mode]
  rw [Plant.ranOut, hv] <;> rfl

end

end

/-! ## A join fails -/

section
variable {p : Plant} {c : Chan}

/-- R154: a join fails on the channel's spare, or on another port. -/
theorem Plant.joinFail_eq (h : (p.chan c).mode = .taking ∨ (p.chan c).mode.running = true) (i : PortNo) (r : FailReason) :
    p.joinFail c i r = (if (p.port i).holder = some c then (p.unjoined c i).noFurtherPort c i r (p.bridgeFrame c) false
      else (p.unjoined c i).askSpare c i r (p.bridgeFrame c) (p.stageOf c == some .ended)).settlePort i := by
  have mode : ((p.unjoined c i).chan c).mode = .taking ∨ ((p.unjoined c i).chan c).mode.running := by
    rw [Plant.unjoined_chan]
    exact h
  rw [← p.unjoined_holder c i i]
  exact if_pos mode

theorem Plant.askSpare_waits {q : Plant} (h : p.requestSpare c = (q, none)) (i : PortNo) (r : FailReason) (t : Nat) (after : Bool) :
    p.askSpare c i r t after = q.noFurtherPort c i r t true := by
  simp only [Plant.askSpare, h]

theorem Plant.askSpare_running {q : Plant} {s : PortNo} (h : p.requestSpare c = (q, some s)) (i : PortNo) (r : FailReason) (t : Nat)
    (hm : (q.chan c).mode.running = true) : p.askSpare c i r t false = (q.usePort c (some s)).localJoinOn c s := by
  have mode : ((q.usePort c (some s)).chan c).mode.running = true := by
    rw [Plant.usePort_chan]
    exact hm
  simp only [Plant.askSpare, h, Bool.false_eq_true, if_false, if_pos mode]

theorem Plant.askSpare_taking {q : Plant} {s : PortNo} (h : p.requestSpare c = (q, some s)) (i : PortNo) (r : FailReason) (t : Nat)
    (hm : (q.chan c).mode = .taking) : p.askSpare c i r t false =
      ((q.usePort c (some s)).modTake c fun k => { k with rejoined := false }).coldJoin c s (q.chan c).now .joining := by
  have use := q.usePort_chan c (some s)
  have mode : ¬((q.usePort c (some s)).chan c).mode.running = true := by
    rw [use]
    exact (by rw [hm]; decide : ¬(q.chan c).mode.running = true)
  simp only [Plant.askSpare, h, Bool.false_eq_true, if_false, if_neg mode]
  rw [use]

end

theorem Plant.writeLast_chan {p : Plant} {c : Chan} (h : (p.chan c).mode ≠ .idle) (o : DevOutcome) :
    (p.writeLast c o).chan c = { p.chan c with seq := { (p.chan c).seq with last := some o.last } } := by
  rw [Plant.writeLast, if_neg h]
  exact Plant.chan_modChan_same p c _

theorem Plant.noneDue_of_empty {p : Plant} {c : Chan} (h : (p.chan c).seq.queue = []) : p.NoneDue c :=
  Or.inr fun _ hk => absurd (h ▸ hk) List.not_mem_nil

theorem Plant.around_all {p q : Plant} {c : Chan} (h : q.around c true = p.around c true) (b : Bool) : q.around c b = p.around c b := by
  obtain ⟨steady, others, fixed, queue⟩ := Plant.around_eq_iff.mp h
  exact Plant.around_eq_iff.mpr ⟨steady, others, fun i => Port.fixed_all (fixed i) b, fun _ => queue rfl⟩

theorem Plant.lendable_of_around {p q : Plant} {c : Chan} (h : q.around c true = p.around c true) (g : ChannelConfig) (i : PortNo) :
    q.Lendable g i ↔ p.Lendable g i := by
  rw [Plant.Lendable, Plant.Lendable, Plant.role_of_around h, Plant.state_of_around h, Plant.holder_of_around h]

/-- R154, the third bullet: on a primary port that is not UP, with no spare to be lent, the channel waits with none. -/
theorem Plant.askSpare_runsOut {p : Plant} {c : Chan} {g : ChannelConfig} (hg : (p.chan c).config = some g)
    (hm : (p.chan c).mode ≠ .taking) (hh : ∀ j, (p.port j).holder ≠ some c) (hc : c ∉ p.spareQueue) (none : ∀ j, ¬p.Lendable g j)
    (down : (p.port g.primary).state ≠ .up) (i : PortNo) (r : FailReason) (t : Nat) (after : Bool) :
    p.askSpare c i r t after = ({ p with spareQueue := p.spareQueue ++ [c] } : Plant).ranOut c i r t true := by
  rw [Plant.askSpare_waits (Plant.requestSpare_waits hg hh hc none)]
  refine (Plant.noFurtherPort_running { p with spareQueue := p.spareQueue ++ [c] } c i r t true hm).trans (if_neg ?_)
  have primary : ({ p with spareQueue := p.spareQueue ++ [c] } : Plant).primary c = some g.primary := Plant.primary_of_config hg
  rw [primary, Bool.true_and, Option.any_some, beq_iff_eq]
  exact down

/-! ## RESUME -/

section
variable {p : Plant} {c : Chan} {i : PortNo} (hm : (p.chan c).mode.running = true) (hi : (p.chan c).portInUse = some i)
include hm hi

theorem Plant.resumeJoin_running : p.resumeJoin c = ((p.unjoined c i).localJoin c i).settlePort i := by
  simp only [Plant.resumeJoin, hi, if_pos hm]
  rfl

/-- R134: the join that a RESUME starts on a port that is UP. -/
theorem Plant.resumeJoin_up (up : (p.port i).state = .up) {q : Plant} (hq : q = p.resumeJoin c) :
    (q.chan c).seq.halted = (p.chan c).seq.halted ∧ (q.chan c).mode = (p.chan c).mode ∧ (q.chan c).switch = (p.chan c).switch ∧
    ∃ k, (q.chan c).takeRec = some k ∧ k.kind = .localJoin ∧ k.port = some i ∧ k.stage = .joining := by
  generalize hu : p.unjoined c i = u
  have own : u.chan c = (p.chan c).unjoin := by rw [← hu, Plant.unjoined_chan]
  have state : (u.port i).state = .up := (Plant.state_of_around (b := true) (c := c) (by rw [← hu]; simp) i).trans up
  obtain ⟨cursor, m, joined, record, kind, stage, port, -⟩ :=
    Plant.localJoinOn_joined (p := u) (c := c) i rfl
  have chan : q.chan c = (u.localJoinOn c i).chan c := by
    rw [hq, Plant.resumeJoin_running hm hi, hu]
    simp only [Plant.localJoin, state, ne_eq, not_true_eq_false, false_and, if_false]
    exact Plant.settlePort_chan i (Plant.noneDue_of_empty (by rw [joined.chan]))
  rw [chan, joined.chan, own]
  exact ⟨rfl, rfl, rfl, m, record, kind, port, stage⟩

/-- R106, R134, R154: on a primary port that is not UP, with no spare to be lent, the join fails at once. -/
theorem Plant.resumeJoin_down {g : ChannelConfig} {e : Event} {t : Nat} (hg : (p.chan c).config = some g) (hp : i = g.primary)
    (down : (p.port i).state ≠ .up) (ht : t = (p.chan c).now + g.cueLead + (p.port i).preroll)
    (he : coverAt (p.chan c).playlist t = some e) (ha : joinRefusal g.tailGuard t e = none)
    (hh : ∀ j, (p.port j).holder ≠ some c) (hc : c ∉ p.spareQueue) (none : ∀ j, ¬p.Lendable g j) {q : Plant} (hq : q = p.resumeJoin c) :
    (q.chan c).seq.halted = (p.chan c).seq.halted ∧ (q.chan c).seq.last = some .timeout ∧ (q.chan c).seq.queue = [] ∧
    (q.chan c).mode = (p.chan c).mode ∧ (q.chan c).switch = (p.chan c).switch ∧ (q.chan c).portInUse = Option.none ∧
    q.spareQueue = p.spareQueue ++ [c] ∧
    (∃ k, (q.chan c).takeRec = some k ∧ k.kind = .localJoin ∧ k.stage = .ended ∧ k.result = some .failed ∧
      k.failure = some .timeout ∧ k.bridgeReason = Option.none ∧ ∃ j, k.join = some j ∧ j.t = t ∧ j.event = e.id) ∧
    (q.chan c).pendingSw = [{ pos := .filler, frame := p.nextLineFrame c, cause := .portLoss, act := .plain }] ∧
    ⟨.joinFailed, some c, u8 3 ++ u8 FailReason.timeout.code ++ u8 i.val ++ u8 1⟩ ∈ q.notices := by
  generalize hu : p.unjoined c i = u
  have own : u.chan c = (p.chan c).unjoin := by rw [← hu, Plant.unjoined_chan]
  have preroll : (u.port i).preroll = (p.port i).preroll := Plant.preroll_of_around (b := true) (c := c) (by rw [← hu]; simp) i
  have state : (u.port i).state = (p.port i).state := Plant.state_of_around (b := true) (c := c) (by rw [← hu]; simp) i
  generalize hw : u.localJoinOn c i = w
  have conf : ((u.startLocalRec c).chan c).config = some g := by
    rw [Plant.startLocalRec_chan, own]
    exact hg
  -- the join, as it stands before its first command ends
  obtain ⟨w', eq, joined, record, -⟩ := Plant.coldJoin_on (p := u.startLocalRec c) (c := c) (t := t) (e := e) rfl
    (by rw [Plant.startLocalRec_chan]; rfl) i (u.chan c).now .joining
    (by rw [ht, ← preroll, own, Plant.conf_of_config conf]; rfl) (by rw [Plant.startLocalRec_chan, own]; exact he)
    (by rw [Plant.conf_of_config conf]; exact ha)
  have chan : w.chan c = w'.chan c := by
    rw [← hw, show u.localJoinOn c i = _ from eq, Plant.handList_chan]
  rw [← chan] at record
  have around : w.around c true = p.around c true := by
    rw [← hw, ← hu]
    simp
  have kept := joined.chan
  rw [← chan, Plant.startLocalRec_chan, own] at kept
  have mode : (w.chan c).mode = (p.chan c).mode := by rw [kept]; rfl
  have running : (w.chan c).mode.running = true := by rw [mode]; exact hm
  have idle : (w.chan c).mode ≠ .idle := fun h => by rw [h] at running; exact absurd running (by decide)
  have taking : (w.chan c).mode ≠ .taking := fun h => by rw [h] at running; exact absurd running (by decide)
  -- the same, once that command has ended and the join is withdrawn
  generalize hv : (w.writeLast c .timeout).unjoined c i = v
  have ended : v.chan c = { w.chan c with seq := { (w.chan c).seq with last := some .timeout } }.unjoin := by
    rw [← hv, Plant.unjoined_chan, Plant.writeLast_chan idle]
    rfl
  have around' : v.around c true = p.around c true := by
    rw [← around, ← hv]
    simp
  have stage : ((w.writeLast c .timeout).stageOf c == some .ended) = false := by
    rw [Plant.stageOf, Plant.writeLast_chan idle, record]
    rfl
  have holder : ((w.writeLast c .timeout).port i).holder ≠ some c := by
    rw [Plant.holder_of_around (c := c) (p := p) (by rw [← around]; simp) i]
    exact hh i
  have result : q = ((({ v with spareQueue := v.spareQueue ++ [c] } : Plant).ranOut c i .timeout
      ((w.writeLast c .timeout).bridgeFrame c) true).settlePort i).settlePort i := by
    have join : (((u.localJoinOn c i).chan c).takeRec.bind (·.join)).isSome = true := by
      rw [hw, record]
      rfl
    have fails : u.localJoin c i = (w.writeLast c .timeout).joinFail c i .timeout := by
      rw [← hw]
      exact if_pos ⟨by rw [state]; exact down, join⟩
    rw [hq, Plant.resumeJoin_running hm hi, hu, fails,
      Plant.joinFail_eq (Or.inr (by rw [Plant.writeLast_chan idle]; exact running)), if_neg holder, hv, stage,
      Plant.askSpare_runsOut (g := g) (by rw [ended, kept]; exact hg) (by rw [ended]; exact taking)
        (fun j => by rw [Plant.holder_of_around around']; exact hh j) (by rw [Plant.spareQueue_of_around around']; exact hc)
        (fun j => by rw [Plant.lendable_of_around around']; exact none j)
        (by rw [Plant.state_of_around around', ← hp]; exact down)]
  -- and once the channel has found no further port
  generalize hn : ({ v with spareQueue := v.spareQueue ++ [c] } : Plant) = n at result
  generalize (w.writeLast c .timeout).bridgeFrame c = b at result
  have rest : n.rest = p.rest := by
    rw [← hn, show ({ v with spareQueue := v.spareQueue ++ [c] } : Plant).rest = v.rest from rfl, ← hv, ← hw, ← hu]
    simp
  have queue : n.spareQueue = p.spareQueue ++ [c] := by
    rw [← hn, ← Plant.spareQueue_of_around around']
  have line : n.nextLineFrame c = p.nextLineFrame c := by
    refine Plant.nextLineFrame_of_around (b := false) c rest ?_
    rw [← hn, Plant.queue_around]
    exact Plant.around_all around' false
  have out := n.ranOut_chan c i .timeout b true rfl
  obtain ⟨told, -⟩ := n.ranOut_tells c i .timeout b true
  have due : (n.ranOut c i .timeout b true).NoneDue c := Plant.noneDue_of_empty (by rw [out])
  have own' : q.chan c = (n.ranOut c i .timeout b true).chan c := by
    rw [result, Plant.settlePort_chan i (Plant.noneDue_of_chan due (Plant.settlePort_chan i due)), Plant.settlePort_chan i due]
  have spare : q.spareQueue = p.spareQueue ++ [c] := by
    rw [result, (Plant.settlePort_spares _ i).2, (Plant.settlePort_spares _ i).2,
      Plant.spareQueue_of_around (n.ranOut_around c i .timeout b true), queue]
  have tells : (n.ranOut c i .timeout b true).Tells q := by
    rw [result]
    exact Plant.settlePort_tells (Plant.settlePort_tells (.refl _) i) i
  have base : n.chan c = v.chan c := by rw [← hn]; rfl
  have failed : (q.chan c).takeRec = ((w.chan c).takeRec).map (·.failed .timeout) := by
    rw [own', out, base, ended]
    rfl
  rw [record] at failed
  refine ⟨?_, ?_, ?_, ?_, ?_, ?_, spare, ⟨_, failed, rfl, rfl, rfl, rfl, rfl, _, rfl, rfl, rfl⟩, ?_, tells.mem_notices ?_⟩
  · rw [own', out, base, ended, kept]
    rfl
  · rw [own', out, base, ended]
    rfl
  · rw [own', out]
  · rw [own', out, base, ended]
    exact mode
  · rw [own', out, base, ended, kept]
    rfl
  · rw [own', out]
    rfl
  · rw [own', out, line]
  · refine Plant.mem_notices.mpr ?_
    rw [told, show n.spareQueue.contains c = true by simp [queue]]
    exact List.mem_append_right _ (List.mem_singleton_self _)

end

/-! ## HALT and RESUME -/

theorem Plant.resumeJoin_rest (p : Plant) (c : Chan) : (p.resumeJoin c).rest = p.rest := by
  unfold Plant.resumeJoin
  repeat' split
  · simp
  · rfl
  · rfl

theorem halt_unknown {n : Nat} (h : 15 < n) (p : Plant) : halt n p = p.refuse .noSuchChannel := by simp only [halt, chanOf_none h]
theorem resume_unknown {n : Nat} (h : 15 < n) (p : Plant) : resume n p = p.refuse .noSuchChannel := by
  simp only [resume, chanOf_none h]

section
variable {p : Plant} {c : Chan}

theorem halt_idle (h : (p.chan c).mode = .idle) : halt c.val p = p.refuse .notConfigured := by simp only [halt, chanOf_val, if_pos h]
theorem resume_idle (h : (p.chan c).mode = .idle) : resume c.val p = p.refuse .notConfigured := by
  simp only [resume, chanOf_val, if_pos h]

theorem halt_configured (h : (p.chan c).mode ≠ .idle) : halt c.val p = (p.haltSequence c .host, reply .ok []) := by
  simp only [halt, chanOf_val, if_neg h]

theorem resume_unhalted (h : (p.chan c).mode ≠ .idle) (f : (p.chan c).seq.halted = false) : resume c.val p = p.refuse .wrongMode := by
  simp only [resume, chanOf_val, if_neg h, f, Bool.not_false, if_true]

theorem resume_halted (h : (p.chan c).mode ≠ .idle) (f : (p.chan c).seq.halted = true) :
    resume c.val p = ((p.clearHalt c).resumeJoin c, reply .ok []) := by
  simp only [resume, chanOf_val, if_neg h, f, Bool.not_true, Bool.false_eq_true, if_false]

/-- R133: the flag becomes set. -/
theorem Plant.haltSequence_sets (f : (p.chan c).seq.halted = false) (cause : HaltCause) {q : Plant} (hq : q = p.haltSequence c cause) :
    q.chan c = { p.chan c with seq := { (p.chan c).seq with halted := true, queue := [] } } ∧
    (∀ i, q.port i = (p.port i).withdrawSlot c fun _ => true) ∧
    q.outbox = (p.tellHalted c (some cause)).outbox ∧ q.hold = p.hold ∧ q.spareQueue = p.spareQueue := by
  have eq : q = ((p.modChan c fun x => { x with seq := { x.seq with halted := true, queue := [] } }).withdrawSlots c).tellHalted c
      (some cause) := hq.trans (if_neg (by rw [f]; exact Bool.false_ne_true))
  subst eq
  cases cause <;> exact ⟨Plant.chan_modChan_same p c fun x => { x with seq := { x.seq with halted := true, queue := [] } },
    fun i => Plant.port_mapPorts _ _ i, rfl, rfl, rfl⟩

/-- R134: the flag is cleared, with its notice. -/
theorem Plant.clearHalt_clears (f : (p.chan c).seq.halted = true) : p.clearHalt c =
    (p.setChan c { p.chan c with seq := { (p.chan c).seq with halted := false } }).emit
      (.notice ⟨.sequenceHalted, some c, u8 0 ++ u8 0 ++ u8 0 ++ u8 0⟩) := by
  rw [Plant.clearHalt, if_pos f]
  rfl

theorem Plant.resumeJoin_quiet (h : (p.chan c).mode.running = false ∨ (p.chan c).portInUse = none) : p.resumeJoin c = p := by
  unfold Plant.resumeJoin
  rcases h with h | h
  · rw [h]
    split <;> rfl
  · rw [h]

end

/-- Settles O45: HALT by its flag, RESUME by the join it starts. -/
theorem haltAndResume : Obligations.HaltAndResume := by
  unfold Obligations.HaltAndResume
  intro tag n s had
  refine ⟨fun h => ⟨State.request_answers _ _ had (halt_unknown h _), State.request_answers _ _ had (resume_unknown h _)⟩, ?_⟩
  rintro c x rfl rfl
  refine ⟨fun h => ⟨State.request_answers _ _ had (halt_idle h), State.request_answers _ _ had (resume_idle h)⟩, fun h f => ?_,
    fun h f => ⟨State.request_answers _ _ had (resume_unhalted h f), ?_⟩, fun h f => ?_⟩
  · refine State.request_answers _ _ had ((halt_configured h).trans ?_)
    rw [Plant.haltSequence, if_pos f]
  · obtain ⟨chan, ports, told, hold, queue⟩ := Plant.haltSequence_sets f _ rfl
    refine ⟨_, State.request_answers _ _ had (halt_configured h), chan, fun i => ⟨fun k hk => ?_, fun hk => ?_⟩, told, hold, queue,
      Plant.still_of_rest (Plant.haltSequence_rest _ c .host), Plant.otherChans_of_around (Plant.haltSequence_around (b := true) _ c .host)⟩
    · rw [ports]
      simp [Port.withdrawSlot, hk]
    · rw [ports, Port.withdrawSlot_clear hk]
  · rintro y rfl
    rw [← Plant.clearHalt_clears f]
    have cleared : (s.plant.clearHalt c).chan c = { s.plant.chan c with seq := { (s.plant.chan c).seq with halted := false } } := by
      rw [Plant.clearHalt_clears f]
      exact Plant.chan_modChan_same s.plant c fun x => { x with seq := { x.seq with halted := false } }
    have around : (s.plant.clearHalt c).around c true = s.plant.around c true := by simp
    have resumed : exec (.resume tag (.sound c.val)) s = .next (s.answered tag 0x0B ((s.plant.clearHalt c).resumeJoin c) .ok []) :=
      State.request_answers _ _ had (resume_halted h f)
    have still : s.plant.Still ((s.plant.clearHalt c).resumeJoin c) :=
      Plant.still_of_rest ((Plant.resumeJoin_rest _ c).trans (Plant.clearHalt_rest _ c))
    refine ⟨fun quiet => ?_, fun i hm hi up => ?_, fun i g e t line hm hi hg hp down ht he ha hc hh none hl => ?_⟩
    · rw [Plant.resumeJoin_quiet (by rw [cleared]; exact quiet)] at resumed
      exact resumed
    · obtain ⟨halted, mode, switch, record⟩ := Plant.resumeJoin_up (p := s.plant.clearHalt c) (c := c) (i := i) (by rw [cleared]; exact hm)
        (by rw [cleared]; exact hi) (by rw [Plant.state_of_around around]; exact up) rfl
      rw [cleared] at halted mode switch
      exact ⟨_, resumed, halted, mode, switch, record, still⟩
    · have lent : ∀ j, ¬s.plant.Lendable g j := fun j ⟨role, up, holder, bit⟩ => by
        rw [none j role up holder] at bit
        exact absurd bit (by decide)
      obtain ⟨halted, last, queue, mode, switch, port, waits, record, pending, told⟩ :=
        Plant.resumeJoin_down (p := s.plant.clearHalt c) (c := c) (i := i) (g := g) (e := e) (t := t) (by rw [cleared]; exact hm)
          (by rw [cleared]; exact hi) (by rw [cleared]; exact hg) hp (by rw [Plant.state_of_around around]; exact down)
          (by rw [cleared, Plant.preroll_of_around around]; exact ht) (by rw [cleared]; exact he) ha
          (fun j => by rw [Plant.holder_of_around around]; exact hh j) (by rw [Plant.spareQueue_of_around around]; exact hc)
          (fun j => by rw [Plant.lendable_of_around around]; exact lent j) rfl
      rw [cleared] at halted mode switch
      rw [Plant.spareQueue_of_around around] at waits
      refine ⟨_, resumed, halted, last, queue, mode, switch, port, waits, record, ?_, ?_, told, still⟩
      · rw [pending, hl, ← Plant.nextLineFrame_of_config hg, Plant.nextLineFrame_of_around c (Plant.clearHalt_rest _ c) around]
        rfl
      · rw [pending]
        simp

end Sys2Proof.Machine
end

