-- ==== Sys2Proof/Proofs/Aborts.lean ====
section
/-! PROOFS. Changes of health (R143, R173), VETO and the confirm window (R144, R145), and ABORT TAKE (R157). -/

namespace Sys2Proof.Machine

/-! ## Triggers -/

section
variable {p : Plant} {c : Chan}

theorem Plant.doubt_iff : p.doubt c = true ↔
    (p.chan c).replica.state = .stale ∨ (p.chan c).replica.state = .awaitBase ∨ (p.chan c).watch.diverged = true := by
  simp only [Plant.doubt, Bool.or_eq_true, beq_iff_eq, or_assoc]

theorem Plant.trigger_of_config {g : ChannelConfig} (hg : (p.chan c).config = some g) : p.trigger c =
    match g.policy with
    | .manual => p.withhold c .manual
    | .auto => if p.doubt c then p.beginConfirm c true else p.beginTake c .auto .join
    | .autoConfirm => p.beginConfirm c false := by
  simp only [Plant.trigger, Plant.config, hg] <;> rfl

/-- R144: entry to CONFIRMING. -/
theorem Plant.beginConfirm_eq {g : ChannelConfig} (hg : (p.chan c).config = some g) (demoted : Bool) : p.beginConfirm c demoted =
    (p.setChan c { p.chan c with
      mode := .confirming, confirm := some { deadline := (p.chan c).now + g.confirmWindow, demoted := demoted } }).emit
      (.notice ⟨.confirmNeeded, some c, dayLabelBytes (dayLabelOf (p.family c) (p.chan c).baseDay ((p.chan c).now + g.confirmWindow)) ++
        flag demoted ++ p.evidence c⟩) := by
  have conf : p.conf c (·.confirmWindow) = g.confirmWindow := Plant.conf_of_config hg _
  generalize hq : p.modChan c (fun x => { x with
    mode := .confirming, confirm := some { deadline := (p.chan c).now + g.confirmWindow, demoted := demoted } }) = q
  have chan : q.chan c = { p.chan c with
      mode := .confirming, confirm := some { deadline := (p.chan c).now + g.confirmWindow, demoted := demoted } } := by
    rw [← hq, Plant.chan_modChan_same]
  have bytes : ∀ t, q.ctfBytes c t = p.ctfBytes c t :=
    Plant.ctfBytes_of_same (by rw [Plant.config, chan, Plant.config]) (Plant.ref_of_rest (by rw [← hq]; rfl)) (by rw [chan])
  have evidence : q.evidence c = p.evidence c := by
    rw [Plant.evidence, chan]
    rfl
  simp only [Plant.beginConfirm, conf, hq, bytes, evidence]
  rw [← hq]
  rfl

theorem Plant.healthReport_failed {before : Health} (h : before ≠ .failed) : p.healthReport c before .failed =
    match (p.chan c).mode with
    | .shadow => p.trigger c
    | .returning => p.cancelReturn c .mainFailed
    | _ => p := by
  simp only [Plant.healthReport, if_neg h, if_true] <;> rfl

theorem Plant.healthReport_recovered {after : Health} (h : after ≠ .failed) : p.healthReport c .failed after =
    match (p.chan c).mode with
    | .confirming => p.leaveConfirm c .recovered
    | .returning => p.modChan c fun x => { x with returnRec := x.returnRec.map fun r => { r with against := false } }
    | _ => p := by
  simp only [Plant.healthReport, if_neg h, if_neg (Ne.symm h), if_true] <;> rfl

theorem Plant.healthReport_else {before after : Health} (h : before = after ∨ (before ≠ .failed ∧ after ≠ .failed)) :
    p.healthReport c before after = p := by
  rw [Plant.healthReport]
  rcases h with h | ⟨hb, ha⟩
  · rw [if_pos h]
  · rw [if_neg ha, if_neg hb, ite_self]

/-- R144, R145: the channel returns to SHADOW. -/
theorem Plant.leaveConfirm_eq (r : WithholdReason) : p.leaveConfirm c r =
    (p.setChan c { p.chan c with mode := .shadow, confirm := none }).emit (.notice ⟨.takeWithheld, some c, u8 r.code ++ p.evidence c⟩) := by
  have evidence : (p.modChan c fun x => { x with mode := .shadow, confirm := none }).evidence c = p.evidence c := by
    rw [Plant.evidence, Plant.chan_modChan_same]
    rfl
  rw [Plant.leaveConfirm, Plant.withhold, evidence]
  rfl

end

/-! ## The confirm window -/

section
variable {p : Plant} {c : Chan}

theorem Plant.expireConfirm_quiet (h : (p.chan c).confirm = none ∨ (p.chan c).mode ≠ .confirming) : p.expireConfirm c = p := by
  unfold Plant.expireConfirm
  split
  · next r hr => exact if_neg fun hm => h.elim (fun e => by rw [e] at hr; cases hr) fun e => e hm.1
  · rfl

theorem Plant.expireConfirm_confirming {r : ConfirmRec} (hm : (p.chan c).mode = .confirming) (hr : (p.chan c).confirm = some r) :
    p.expireConfirm c = if r.deadline ≤ (p.chan c).now then
      (if r.demoted || p.doubt c then p.leaveConfirm c .doubt else p.beginTake c .auto .join) else p := by
  simp only [Plant.expireConfirm, hr, hm, true_and]

end

/-! ## ABORT TAKE -/

/-- R106: a port whose first list has its last command outstanding settles as it stands. -/
theorem Plant.settlePort_listBusy {p : Plant} {i : PortNo} (busy : (p.port i).listBusy = true)
    (h : ∀ d, (p.chan d).portInUse = some i → p.NoneDue d) : p.settlePort i = p := by
  have drop : (p.port i).dropFinished = p.port i := if_pos busy
  have out : (p.port i).outstanding.isSome = true := by
    unfold Port.listBusy at busy
    split at busy
    · next e => rw [e]; rfl
    · exact absurd busy (by decide)
  rw [Plant.settlePort_eq, drop, Plant.setPort_port, Plant.userTakes_quiet h]
  simp only [Plant.arbitrate, drop, out, true_or, or_true, if_true, Plant.setPort_port]

section
variable {p : Plant} {c : Chan} {i : PortNo}

theorem Plant.modPort_same {f : Port → Port} (h : f (p.port i) = p.port i) : p.modPort i f = p := by
  rw [Plant.modPort, h, Plant.setPort_port]

theorem Plant.leaveQueue_absent (h : c ∉ p.spareQueue) : p.leaveQueue c = p := by
  have : p.spareQueue.filter (· != c) = p.spareQueue := List.filter_eq_self.mpr fun d hd => by
    simpa using fun e : d = c => h (e ▸ hd)
  rw [Plant.leaveQueue, this]

theorem Port.withdrawLists_empty {x : Port} (claim : x.claim = []) (out : x.outstanding = none) (c : Chan) (all : Bool) :
    x.withdrawLists c all = x := by
  cases x
  subst claim out
  rfl

/-- The lists of a channel on a port where nothing but its steps may wait. -/
theorem Plant.OnlyFor.withdraws (h : p.OnlyFor i c) (out : (p.port i).outstanding = none) (all : Bool) :
    (p.port i).withdrawLists c all = p.port i := Port.withdrawLists_empty h.claim out c all

/-- R157: the record of an aborted take, and the switch's way back. -/
def Channel.abort (x : Channel) (line : Nat) : Channel :=
  let y : Channel := { x with takeRec := x.takeRec.map fun k => { k with stage := .aborting } }
  if x.switch = .main then { y with mode := .shadow }
  else { y with pendingSw := [{ pos := .main, frame := line, cause := .abort, act := .abort }] }

theorem Plant.abortSwitch_eq : (p.modTake c fun k => { k with stage := .aborting }).abortSwitch c =
    p.setChan c ((p.chan c).abort (p.nextLineFrame c)) := by
  generalize hq : (p.modTake c fun k => { k with stage := .aborting }) = q
  have chan : q.chan c = { p.chan c with takeRec := (p.chan c).takeRec.map fun k => { k with stage := .aborting } } := by
    rw [← hq, Plant.modTake, Plant.chan_modChan_same]
  have line : q.nextLineFrame c = p.nextLineFrame c :=
    Plant.nextLineFrame_of_around (b := true) c (by rw [← hq]; simp) (by rw [← hq]; simp)
  have switch : (q.chan c).switch = (p.chan c).switch := by rw [chan]
  have set : ∀ y, q.setChan c y = p.setChan c y := fun y => by
    rw [← hq, Plant.modTake, Plant.modChan, Plant.setChan_setChan]
  simp only [Plant.abortSwitch, switch, Channel.abort]
  split
  · rw [Plant.setMode, Plant.modChan, set, chan]
  · rw [Plant.decideSwitch_next, Plant.modChan, set, chan, line]

theorem Plant.abort_eq (hi : (p.chan c).portInUse = some i) (ho : p.OnlyFor i c) (out : (p.port i).outstanding = none) {q r : Plant}
    (hq : q = (p.modChan c fun x => { x with pendingSw := [] }).abortStop c i)
    (hr : r = (((q.backToPrimary c).leaveQueue c).releaseSpare c).wakeCue c) :
    p.abort c = r.setChan c ((r.chan c).abort (r.nextLineFrame c)) := by
  have quiet : ((p.modChan c fun x => { x with pendingSw := [] }).modPort i fun x => x.withdrawLists c false) =
      p.modChan c fun x => { x with pendingSw := [] } := Plant.modPort_same (ho.withdraws out false)
  rw [← Plant.abortSwitch_eq, hr, hq]
  simp only [Plant.abort, hi, quiet]

/-- R157: on the primary port, with no spare held or asked for, the port settles behind its STOP. -/
theorem Plant.abort_primary (hi : (p.chan c).portInUse = some i) (hp : p.primary c = some i) (ho : p.OnlyFor i c)
    (out : (p.port i).outstanding = none) (hh : ∀ j, (p.port j).holder ≠ some c) (hc : c ∉ p.spareQueue) {q : Plant}
    (hq : q = (p.modChan c fun x => { x with pendingSw := [] }).handStop c i none) (use : (q.chan c).portInUse = some i)
    (settled : q.settlePort i = q) :
    p.abort c = q.setChan c ((q.chan c).abort (p.nextLineFrame c)) := by
  have around : q.around c true = p.around c true := by
    rw [hq, Plant.handStop_around]
    exact p.around_modChan c _ ⟨rfl, rfl, rfl, rfl, rfl, rfl⟩
  have rest : q.rest = p.rest := by
    rw [hq, Plant.handStop_rest]
    rfl
  have stop : q = (p.modChan c fun x => { x with pendingSw := [] }).abortStop c i := by
    rw [Plant.abortStop, if_pos]
    · exact hq
    · exact (Plant.primary_of_around (p.around_modChan (b := true) c _ ⟨rfl, rfl, rfl, rfl, rfl, rfl⟩)).trans hp
  have back : q.backToPrimary c = q := by
    rw [Plant.backToPrimary, Plant.primary_of_around around, hp, Plant.usePort]
    exact Plant.modChan_same q (by rw [← use])
  have wake : q.wakeCue c = q := by
    simp only [Plant.wakeCue, use, settled]
  rw [Plant.abort_eq hi ho out stop (r := q), Plant.nextLineFrame_of_around c rest around]
  rw [back, Plant.leaveQueue_absent (by rw [Plant.spareQueue_of_around around]; exact hc),
    Plant.releaseSpare_none (fun j => by rw [Plant.holder_of_around around]; exact hh j), wake]

theorem Plant.OnlyFor.bare (h : p.OnlyFor i c) : (p.port i).Bare := ⟨h.claim, h.slotCue, h.slotPass⟩

/-- The only user of a port is the channel, whose queue is empty. -/
theorem Plant.OnlyFor.quiet (h : p.OnlyFor i c) {q : Plant} (others : p.OtherChans q c) (hq : (q.chan c).seq.queue = []) (d : Chan)
    (hd : (q.chan d).portInUse = some i) : q.NoneDue d := by
  by_cases e : d = c
  · subst e
    exact Plant.noneDue_of_empty hq
  · rw [others d e] at hd
    exact absurd hd (h.user d e)

theorem Plant.otherChans_modChan (p : Plant) (c : Chan) (f : Channel → Channel) : p.OtherChans (p.modChan c f) c := fun d hd => by
  simp [Plant.chan_modChan, hd]

/-- R106, R157: on a primary port that is not UP the STOP ends at once. -/
theorem Plant.abort_down (hi : (p.chan c).portInUse = some i) (hp : p.primary c = some i) (ho : p.OnlyFor i c)
    (out : (p.port i).outstanding = none) (hh : ∀ j, (p.port j).holder ≠ some c) (hc : c ∉ p.spareQueue)
    (down : (p.port i).state ≠ .up) (hq : (p.chan c).seq.queue = []) (hm : (p.chan c).mode ≠ .idle) :
    p.abort c = p.setChan c
      ({ p.chan c with pendingSw := [], seq := { (p.chan c).seq with last := some .timeout } }.abort (p.nextLineFrame c)) := by
  have stop : p.modChan c (fun x => { x with pendingSw := [], seq := { x.seq with last := some .timeout } }) =
      (p.modChan c fun x => { x with pendingSw := [] }).handStop c i none := by
    rw [Plant.handStop_down _ c i none (by exact down) (by exact ho.claim) (by simp), Plant.writeLast, Plant.chan_modChan_same, if_neg hm,
      Plant.modChan_modChan]
    rfl
  have chan := p.chan_modChan_same c fun x => { x with pendingSw := [], seq := { x.seq with last := some .timeout } }
  rw [Plant.abort_primary hi hp ho out hh hc stop (by rw [chan]; exact hi) (Plant.settlePort_bare ho.bare
    (ho.quiet (p.otherChans_modChan c _) (by rw [chan]; exact hq))), chan, Plant.modChan, Plant.setChan_setChan]

/-- R157: a primary port that is UP sends the STOP. -/
theorem Plant.abort_up {z : Port} (hi : (p.chan c).portInUse = some i) (hp : p.primary c = some i) (ho : p.OnlyFor i c)
    (hz : p.port i = z) (up : z.state = .up) (out : z.outstanding = none) (shift : z.shift = none)
    (hh : ∀ j, (p.port j).holder ≠ some c) (hc : c ∉ p.spareQueue) (hq : (p.chan c).seq.queue = []) :
    p.abort c = (p.setChan c ({ p.chan c with pendingSw := [] }.abort (p.nextLineFrame c))).setPort i { z with
      outstanding := some { cmd := .stop, requester := .changeover c .stop true }
      shift := some (.frame DevCmd.stop.frame), holding := none, replyTimer := none, attempt := 1, failures := []
      tryTimeout := z.replyTimeout, tryRetries := z.retries
      claim := [{ channel := c, purpose := .stop, cmds := [] }] } := by
  have hand := Plant.handList_spent (p := p.modChan c fun x => { x with pendingSw := [] }) (k := ⟨.stop, none⟩) (ks := [])
    (u := .stop) (d := c) hz
    up out shift (hz ▸ ho.held) (Port.spent_of_empty (hz ▸ ho.claim)) rfl
  generalize hy : ({ z with
      claim := [{ channel := c, purpose := .stop, cmds := [] }]
      outstanding := some { cmd := .stop, requester := .changeover c .stop true }
      shift := some (.frame DevCmd.stop.frame), holding := none, attempt := 1, failures := [], replyTimer := none
      tryTimeout := z.replyTimeout, tryRetries := z.retries } : Port) = y
  have hand : (p.modChan c fun x => { x with pendingSw := [] }).handList i (stopList c none) =
      (p.modChan c fun x => { x with pendingSw := [] }).setPort i y := by
    rw [← hy]
    exact hand
  have stop : (p.modChan c fun x => { x with pendingSw := [] }).setPort i y =
      (p.modChan c fun x => { x with pendingSw := [] }).handStop c i none := by
    rw [Plant.handStop_up, hand]
    rw [hand, Plant.port_setPort_same, ← hy]
    exact up
  have chan : ((p.modChan c fun x => { x with pendingSw := [] }).setPort i y).chan c = { p.chan c with pendingSw := [] } :=
    p.chan_modChan_same c fun x => { x with pendingSw := [] }
  rw [Plant.abort_primary hi hp ho (by rw [hz]; exact out) hh hc stop (by rw [chan]; exact hi)
    (Plant.settlePort_listBusy (by rw [Plant.port_setPort_same, ← hy]; rfl)
      (ho.quiet (p.otherChans_modChan c fun x => { x with pendingSw := [] }) (by rw [chan]; exact hq))),
    chan, Plant.setPort_setChan, Plant.modChan, Plant.setChan_setChan]

/-- R111, R157: a spare held is released without a STOP. -/
theorem Plant.abort_spare {j : PortNo} (hi : (p.chan c).portInUse = some i) (hp : p.primary c = some j) (hij : i ≠ j)
    (ho : p.OnlyFor i c) (out : (p.port i).outstanding = none) (holder : (p.port i).holder = some c)
    (one : ∀ d, (p.port d).holder = some c → d = i) (hs : p.spareQueue = []) (hq : (p.chan c).seq.queue = [])
    (hj : p.OnlyFor j c) :
    p.abort c = (p.setChan c ({ p.chan c with pendingSw := [], portInUse := some j }.abort (p.nextLineFrame c))).setPort i
      { p.port i with holder := none } := by
  generalize hv : (p.modChan c fun x => { x with pendingSw := [], portInUse := some j }) = v
  have chan : v.chan c = { p.chan c with pendingSw := [], portInUse := some j } := by rw [← hv, Plant.chan_modChan_same]
  have others : p.OtherChans v c := hv ▸ p.otherChans_modChan c _
  have port : ∀ d, v.port d = p.port d := fun d => by rw [← hv]; rfl
  have queue : v.spareQueue = [] := by rw [← hv]; exact hs
  have stop : (p.modChan c fun x => { x with pendingSw := [] }).abortStop c i = p.modChan c fun x => { x with pendingSw := [] } := by
    refine if_neg ?_
    rw [Plant.primary_of_around (p.around_modChan (b := true) c _ ⟨rfl, rfl, rfl, rfl, rfl, rfl⟩), hp, Option.some_inj]
    exact hij.symm
  have back : (p.modChan c fun x => { x with pendingSw := [] }).backToPrimary c = v := by
    rw [Plant.backToPrimary, Plant.primary_of_around (p.around_modChan (b := true) c _ ⟨rfl, rfl, rfl, rfl, rfl, rfl⟩), hp, ← hv,
      Plant.usePort, Plant.modChan_modChan]
  generalize hw : v.setPort i { p.port i with holder := none } = w
  have released : v.releaseSpare c = w := by
    have held : v.heldSpare c = some i := by
      obtain ⟨d, hd⟩ := Option.isSome_iff_exists.mp (Plant.heldSpare_isSome (p := v) (c := c) (i := i) (by rw [port]; exact holder))
      rw [hd, one d (by rw [← port]; exact Plant.heldSpare_some hd)]
    have given : (v.modPort i fun x => { (x.withdrawLists c true).withdrawSlot c (fun _ => true) with holder := none }) = w := by
      rw [← hw, Plant.modPort, port, ho.withdraws out true, Port.withdrawSlot_clear (by rw [ho.slotCue]; simp)]
    simp only [Plant.releaseSpare, held, given]
    rw [Plant.spareFreed_stands (.inr (.inr (.inr (by rw [← hw]; exact queue)))), Plant.settlePort_bare]
    · rw [← hw, Plant.port_setPort_same]
      exact ⟨ho.claim, ho.slotCue, ho.slotPass⟩
    · intro d hd
      rw [← hw, Plant.setPort_chan] at hd
      by_cases e : d = c
      · rw [e, chan, Option.some_inj] at hd
        exact absurd hd.symm hij
      · rw [others d e] at hd
        exact absurd hd (ho.user d e)
  have wake : w.wakeCue c = w := by
    have use : (w.chan c).portInUse = some j := by rw [← hw, Plant.setPort_chan, chan]
    have same : w.port j = p.port j := by rw [← hw, Plant.port_setPort_other _ _ (Ne.symm hij), port]
    simp only [Plant.wakeCue, use]
    refine Plant.settlePort_bare (by rw [same]; exact hj.bare) (hj.quiet (fun d hd => ?_) ?_)
    · rw [← hw, Plant.setPort_chan, others d hd]
    · rw [← hw, Plant.setPort_chan, chan]
      exact hq
  have line : w.nextLineFrame c = p.nextLineFrame c :=
    Plant.nextLineFrame_congr c (by rw [← hw, ← hv]; rfl) (by rw [← hw, Plant.setPort_chan, chan]) (by rw [← hw, Plant.setPort_chan, chan])
      (by rw [← hw, Plant.setPort_chan, chan])
  rw [Plant.abort_eq hi ho out rfl rfl, stop, back, Plant.leaveQueue_absent (by rw [queue]; exact List.not_mem_nil), released, wake,
    line, ← hw, Plant.setPort_chan, chan, Plant.setPort_setChan, ← hv, Plant.modChan, Plant.setChan_setChan]

end

theorem veto_unknown {n : Nat} (h : 15 < n) (p : Plant) : veto n p = p.refuse .noSuchChannel := by simp only [veto, chanOf_none h]
theorem abortTake_unknown {n : Nat} (h : 15 < n) (p : Plant) : abortTake n p = p.refuse .noSuchChannel := by
  simp only [abortTake, chanOf_none h]

section
variable {p : Plant} {c : Chan}

theorem veto_mode (h : (p.chan c).mode ≠ .confirming) : veto c.val p = p.refuse .wrongMode := by
  simp only [veto, chanOf_val, if_neg h]

theorem veto_confirming (h : (p.chan c).mode = .confirming) : veto c.val p = (p.leaveConfirm c .vetoed, reply .ok []) := by
  simp only [veto, chanOf_val, if_pos h]

theorem abortTake_mode (h : (p.chan c).mode ≠ .taking) : abortTake c.val p = p.refuse .wrongMode := by
  simp only [abortTake, chanOf_val, if_pos h]

theorem abortTake_taking {k : TakeRec} (h : (p.chan c).mode = .taking) (hk : (p.chan c).takeRec = some k) : abortTake c.val p =
    if k.stage = .aborting then (p, reply .ok []) else (p.abort c, reply .ok []) := by
  have stage : p.stageOf c = some .aborting ↔ k.stage = .aborting := by simp [Plant.stageOf, hk]
  simp only [abortTake, chanOf_val, if_neg (not_not_intro h), stage]

end

/-- Settles O55: the reports of health by mode and policy, the window by its deadline, ABORT TAKE by the port in use. -/
theorem confirmEndsAndAbort : Obligations.ConfirmEndsAndAbort := by
  unfold Obligations.ConfirmEndsAndAbort
  constructor
  · rintro p c x before after evidence at' rfl rfl
    refine ⟨Plant.healthReport_else, fun hb ha => ?_, fun hb ha => ?_⟩
    · subst ha
      have report := Plant.healthReport_failed (p := p) (c := c) hb
      refine ⟨fun g doubt hm hg hd hat => ?_, fun r hm hr early => ?_, fun hs hret => ?_⟩
      · obtain rfl : doubt = p.doubt c := Bool.eq_iff_iff.mpr (hd.trans Plant.doubt_iff.symm)
        rw [hm] at report
        have report := report.trans (Plant.trigger_of_config hg)
        refine ⟨fun hp => ?_, fun hp hd => ?_, fun demoted hp => ?_⟩
        · rw [hp] at report
          exact report
        · rw [hp, hd] at report
          exact report
        · have begins : p.healthReport c before .failed = p.beginConfirm c demoted := by
            rcases hp with ⟨hp, hd, rfl⟩ | ⟨hp, rfl⟩
            · rw [hp, hd] at report
              exact report
            · rw [hp] at report
              exact report
          rw [begins, Plant.beginConfirm_eq hg, hat]
          rfl
      · rw [report, hm]
        exact Plant.cancelReturn_early hr early .mainFailed
      · rw [report]
        split
        · next h => exact absurd h hs
        · next h => exact absurd h hret
        · rfl
    · subst hb
      have report := Plant.healthReport_recovered (p := p) (c := c) ha
      refine ⟨fun hm => ?_, fun hm => ?_, fun hs hret => ?_⟩
      · rw [report, hm]
        exact Plant.leaveConfirm_eq .recovered
      · rw [hm] at report
        exact report
      · rw [report]
        split
        · next h => exact absurd h hs
        · next h => exact absurd h hret
        · rfl
  · rintro tag n s c x rfl
    refine ⟨fun had h => ⟨State.request_answers _ _ had (veto_unknown h _), State.request_answers _ _ had
      (abortTake_unknown h _)⟩, ?_, ?_, ?_⟩
    · rintro had rfl
      refine ⟨fun h => State.request_answers _ _ had (veto_mode h), fun h => ?_, fun h => State.request_answers _ _ had (abortTake_mode h),
        fun k hm hk => ?_⟩
      · refine State.request_answers _ _ had ((veto_confirming h).trans ?_)
        rw [Plant.leaveConfirm_eq]
        rfl
      · have taken := abortTake_taking hm hk
        refine ⟨fun hs => State.request_answers _ _ had (taken.trans (if_pos hs)), fun hs hsw hh hc g i hg hi hp ho down hq out => ?_,
          fun hs hh hc g i z y line hg hi hp ho hz up hq out shift hl hy => ?_,
            fun hs g i j hg hi hp role holder one ho out hsq hq hj hoj outj hsw => ?_⟩
        · have aborted := Plant.abort_down hi (hp ▸ Plant.primary_of_config hg) ho out hh hc down hq (by rw [hm]; decide)
          refine State.request_answers _ _ had ((taken.trans (if_neg hs)).trans ?_)
          rw [aborted, Channel.abort, if_pos hsw]
          simp only [hk]
          rfl
        · have aborted := Plant.abort_up hi (hp ▸ Plant.primary_of_config hg) ho hz up out shift hh hc hq
          refine State.request_answers _ _ had ((taken.trans (if_neg hs)).trans ?_)
          have way : { s.plant.chan c with pendingSw := [] }.abort (s.plant.nextLineFrame c) = y := by
            rw [Channel.abort, Plant.nextLineFrame_of_config hg, ← hl]
            rcases hy with ⟨hsw, rfl⟩ | ⟨hsw, rfl⟩
            · rw [if_pos hsw]
              simp only [hk]
              rfl
            · rw [if_neg hsw]
              simp only [hk]
              rfl
          rw [aborted, way]
        · have aborted := Plant.abort_spare hi (Plant.primary_of_config hg) hp ho out holder one hsq hq (hj ▸ hoj)
          refine State.request_answers _ _ had ((taken.trans (if_neg hs)).trans ?_)
          rw [aborted, Channel.abort, if_pos hsw, hj]
          simp only [hk]
          rfl
    · intro h
      exact congrArg (Host.Outcome.next ∘ s.passed) (Plant.expireConfirm_quiet h)
    · intro r hm hr
      have expires := Plant.expireConfirm_confirming hm hr
      have passes : ∀ {q}, (s.plant.expireConfirm c) = q → exec (.confirmExpiry c) s = .next (s.passed q) := fun e =>
        congrArg (Host.Outcome.next ∘ s.passed) e
      refine ⟨fun h => passes (expires.trans (if_neg (Nat.not_le.mpr h))), fun h hd => ?_, fun h hd hrep hdiv => ?_⟩
      · have doubt : (r.demoted || s.plant.doubt c) = true := by
          rw [Bool.or_eq_true, Plant.doubt_iff]
          exact hd
        refine passes ((expires.trans (if_pos h)).trans ((if_pos doubt).trans ?_))
        rw [Plant.leaveConfirm_eq]
        rfl
      · have doubt : ¬(r.demoted || s.plant.doubt c) = true := by
          rw [Bool.or_eq_true, Plant.doubt_iff, hd, hdiv]
          rcases hrep with h | h <;> simp [h]
        exact passes ((expires.trans (if_pos h)).trans (if_neg doubt))

end Sys2Proof.Machine
end

