-- ==== Sys2Proof/Proofs/TakeEnds.lean ====
section
/-! PROOFS. How a take or a local join ends at its switch line (R150 to R152, R154, R155). -/

namespace Sys2Proof.Machine

/-! ## A channel written, and what is handed out -/

/-- The channel as written, with more handed out. -/
def Plant.wrote (p : Plant) (c : Chan) (y : Channel) (os : List Outgoing) : Plant :=
  { p.setChan c y with outbox := p.outbox ++ os }

section
variable (p : Plant) (c : Chan) (y : Channel) (os : List Outgoing)

theorem Plant.wrote_chan : (p.wrote c y os).chan c = y := p.chan_setChan_same c y

theorem Plant.wrote_modChan (f : Channel → Channel) : (p.wrote c y os).modChan c f = p.wrote c (f y) os := by
  rw [Plant.modChan, Plant.wrote_chan]
  exact congrArg (fun q : Plant => { q with outbox := p.outbox ++ os }) (p.setChan_setChan c y (f y))

theorem Plant.modChan_wrote (f : Channel → Channel) : p.modChan c f = p.wrote c (f (p.chan c)) [] := by
  rw [Plant.wrote, List.append_nil]
  rfl

theorem Plant.wrote_notify (k : NoticeKind) (d : Option Chan) (b : List Byte) :
    (p.wrote c y os).notify k d b = p.wrote c y (os ++ [.notice ⟨k, d, b⟩]) :=
  congrArg (fun o => ({ p.setChan c y with outbox := o } : Plant)) (List.append_assoc _ _ _)

theorem Plant.wrote_rest : (p.wrote c y os).rest = p.rest := rfl

theorem Plant.wrote_ctfBytes (hg : y.config = (p.chan c).config) (hb : y.baseDay = (p.chan c).baseDay) (t : Nat) :
    (p.wrote c y os).ctfBytes c t = p.ctfBytes c t :=
  Plant.ctfBytes_of_same (p := p) (q := p.wrote c y os) (by simp only [Plant.config, Plant.wrote_chan, hg]) (Plant.ref_of_rest rfl)
    (by rw [Plant.wrote_chan, hb]) t

/-- R141: SWITCH, where the position changes. -/
def Plant.switched (p : Plant) (c : Chan) (x : Channel) (pos : SwitchPos) (cause : SwitchCause) : List Outgoing :=
  if x.switch = pos then [] else
    [.notice ⟨.switch, some c, u8 x.switch.code ++ u8 pos.code ++ u8 x.mode.code ++ p.ctfBytes c x.now ++ u8 cause.code⟩]

theorem Plant.wrote_setSwitch (hg : y.config = (p.chan c).config) (hb : y.baseDay = (p.chan c).baseDay) (pos : SwitchPos)
    (cause : SwitchCause) :
    (p.wrote c y os).setSwitch c pos cause = p.wrote c { y with switch := pos } (os ++ p.switched c y pos cause) := by
  have bytes := p.wrote_ctfBytes c y os hg hb y.now
  simp only [Plant.setSwitch, Plant.wrote_chan, bytes, Plant.switched]
  split
  · next h =>
    rw [List.append_nil, ← h]
  · rw [Plant.wrote_modChan, Plant.wrote_notify]

theorem Plant.wrote_enterLocal (h : y.mode = .taking ∨ y.mode = .onLocal) :
    (p.wrote c y os).enterLocal c = p.wrote c { y with mode := .onLocal } os := by
  rw [Plant.enterLocal, Plant.wrote_chan]
  split
  · exact p.wrote_modChan c y os _
  · next ht =>
    have e : y.mode = .onLocal := h.resolve_left ht
    rw [← e]

/-- R165: with no entry open, FILLER ends none. -/
theorem Plant.cutOnFiller_none {q : Plant} (h : (q.chan c).openEntry = none) (before : SwitchPos) : q.cutOnFiller c before = q := by
  simp only [Plant.cutOnFiller, h]

theorem Plant.wrote_toFiller (hg : y.config = (p.chan c).config) (hb : y.baseDay = (p.chan c).baseDay) (ho : y.openEntry = none)
    (cause : SwitchCause) :
    (p.wrote c y os).toFiller c cause = p.wrote c { y with switch := .filler } (os ++ p.switched c y .filler cause) := by
  rw [Plant.toFiller, Plant.wrote_setSwitch p c y os hg hb]
  refine Plant.cutOnFiller_none c ?_ _
  rw [Plant.wrote_chan]
  exact ho

end

/-! ## The switch line -/

section
variable {p : Plant} {c : Chan} {x : Channel} (hx : p.chan c = x)
include hx

theorem Plant.switchLine_undue (hr : x.returnDue = false) : p.switchLine c =
    let due := x.pendingSw.filter fun w => w.frame ≤ x.now
    let later := p.modChan c fun x => { x with pendingSw := x.pendingSw.filter fun w => !decide (w.frame ≤ x.now) }
    if x.mode.running && !x.held && x.covering.map (·.id) != x.cover then later.follow c
    else
      let q := (due.foldl (fun q w => q.makeSwitch c w) later).adoptLine c
      if (q.chan c).mode.running then q.noteCover c else q := by
  simp only [Plant.switchLine, hx, hr]
  cases x.returnRec <;> rfl

theorem Plant.adoptLine_none (ha : x.adoption = none) : p.adoptLine c = p := by
  simp only [Plant.adoptLine, hx, ha]

/-- R141: the line of a channel in a take or in LOCAL with one change pending, due. -/
theorem Plant.switchLine_one {w : PendingSw} (hp : x.pendingSw = [w]) (hw : w.frame ≤ x.now) (hc : w.cause ≠ .follow)
    (hm : x.mode = .taking ∨ x.mode = .onLocal) {q : Plant} (hq : q = (p.wrote c { x with pendingSw := [] } []).makeSwitch c w)
    (ha : (q.chan c).adoption = none) (hl : (q.chan c).mode = .onLocal) : p.switchLine c = q.noteCover c := by
  have undue : x.returnDue = false := by
    unfold Channel.returnDue
    split
    · rcases hm with h | h <;> simp [h]
    · rfl
  have held : x.held = true := by simp [Channel.held, hp, hc]
  have due : (x.pendingSw.filter fun w => decide (w.frame ≤ x.now)) = [w] := by simp [hp, hw]
  have later : (p.modChan c fun x => { x with pendingSw := x.pendingSw.filter fun w => !decide (w.frame ≤ x.now) }) =
      p.wrote c { x with pendingSw := [] } [] := by
    rw [Plant.modChan_wrote, hx]
    simp only [hp, List.filter_cons, hw, decide_true, Bool.not_true, Bool.false_eq_true, if_false, List.filter_nil]
  rw [Plant.switchLine_undue hx undue]
  simp only [held, due, later, List.foldl_cons, List.foldl_nil, ← hq, Bool.not_true, Bool.and_false, Bool.false_and,
    Bool.false_eq_true, if_false]
  rw [Plant.adoptLine_none rfl ha, hl]
  rfl

end

/-! ## Joins and bridges at their line -/

section
variable {p : Plant} {c : Chan} {j : JoinRec} {g : ChannelConfig} (hg : (p.chan c).config = some g)
include hg

/-- R152: a join whose event stands as it was. -/
theorem Plant.joinHolds_of {e : Event} (he : findEvent (p.chan c).playlist j.event = some e) (hc : e.cue ≠ .skipped)
    (ht : j.t + g.tailGuard < e.rend) (hm : ∀ m, e.clip.bind (·.eom) = some m → j.cue < m) : p.joinHolds c j = true := by
  have eom : (match e.clip.bind (·.eom) with | some m => decide (j.cue < m) | none => true) = true := by
    cases h : e.clip.bind (·.eom) with
    | none => rfl
    | some m => exact decide_eq_true (hm m h)
  simp only [Plant.joinHolds, he, Plant.conf_of_config hg, bne_iff_ne, ne_eq, hc, not_false_eq_true, decide_eq_true ht, Bool.and_eq_true,
    and_self, true_and]
  exact eom

/-- R152: a join whose event is gone, skipped, or too near its end. -/
theorem Plant.joinHolds_not (h : findEvent (p.chan c).playlist j.event = none ∨
    ∃ e, findEvent (p.chan c).playlist j.event = some e ∧
      (e.cue = .skipped ∨ e.rend ≤ j.t + g.tailGuard ∨ ∃ m, e.clip.bind (·.eom) = some m ∧ m ≤ j.cue)) : p.joinHolds c j = false := by
  rcases h with h | ⟨e, he, h⟩
  · simp only [Plant.joinHolds, h]
  · simp only [Plant.joinHolds, he, Plant.conf_of_config hg]
    rcases h with h | h | ⟨m, hm, h⟩
    · simp [h]
    · simp [Nat.not_lt.mpr h]
    · simp [hm, Nat.not_lt.mpr h]

end

section
variable (p : Plant) (c : Chan) (y : Channel) (os : List Outgoing)

theorem Plant.wrote_tellDone (hg : y.config = (p.chan c).config) (hb : y.baseDay = (p.chan c).baseDay) (k : TakeRec) (j : JoinRec)
    (kind : EntryKind) : (p.wrote c y os).tellDone c k j kind = p.wrote c y (os ++ [.notice ⟨k.kind.doneNotice, some c,
      u8 k.kind.code ++ portOrNone k.port ++ (u8 1 ++ u32 j.event ++ u8 1 ++ u8 kind.code ++ u8 0 ++ p.ctfBytes c j.t ++
        u8 1 ++ u24 j.cue ++ opt (fun v => u8 (VerifyResult.code v)) k.verify ++ u8 1 ++ flag k.rejoined ++ u8 0)⟩]) := by
  have day : dayLabelBytes ((p.wrote c y os).dayLabel c j.t) = p.ctfBytes c j.t := p.wrote_ctfBytes c y os hg hb j.t
  rw [Plant.tellDone, Plant.wrote_notify, DoneBody.bytes]
  simp only [day, opt, List.append_assoc]

theorem Plant.wrote_tellBridge (hg : y.config = (p.chan c).config) (hb : y.baseDay = (p.chan c).baseDay) (k : TakeRec)
    (r : BridgeReason) (t : Nat) : (p.wrote c y os).tellBridge c k r t = p.wrote c y (os ++ [.notice ⟨k.kind.doneNotice, some c,
      u8 k.kind.code ++ portOrNone k.port ++ (u8 0 ++ u8 0 ++ u8 1 ++ u8 r.code ++ p.ctfBytes c t ++ u8 0 ++ u8 0 ++ u8 0 ++
        opt u32 (firstAfter y.playlist t))⟩]) := by
  have day : dayLabelBytes ((p.wrote c y os).dayLabel c t) = p.ctfBytes c t := p.wrote_ctfBytes c y os hg hb t
  rw [Plant.tellBridge, Plant.wrote_notify, DoneBody.bytes, Plant.wrote_chan]
  simp only [day, opt, List.append_assoc]

/-- R151, R152: a join that holds ends ON LOCAL, its entry opened. -/
theorem Plant.wrote_joinLine (hg : y.config = (p.chan c).config) (hb : y.baseDay = (p.chan c).baseDay) {k : TakeRec} {j : JoinRec}
    (hk : y.takeRec = some k) (hj : k.join = some j) (hm : y.mode = .taking ∨ y.mode = .onLocal) (ho : y.openEntry = none)
    (holds : (p.wrote c y os).joinHolds c j = true) {kind : EntryKind} (hkind : kind = if j.offset = 0 then EntryKind.start else .join) :
    (p.wrote c y os).joinLine c = p.wrote c { y with
        mode := .onLocal, switch := .onLocal, takeRec := some { k with stage := .ended, result := some .onLocal }
        openEntry := some { event := j.event, start := j.t, kind := kind, port := y.portInUse } }
      (os ++ p.switched c { y with mode := .onLocal } .onLocal .take ++ [.notice ⟨k.kind.doneNotice, some c,
        u8 k.kind.code ++ portOrNone k.port ++ (u8 1 ++ u32 j.event ++ u8 1 ++ u8 kind.code ++ u8 0 ++ p.ctfBytes c j.t ++
          u8 1 ++ u24 j.cue ++ opt (fun v => u8 (VerifyResult.code v)) k.verify ++ u8 1 ++ flag k.rejoined ++ u8 0)⟩]) := by
  have entry : ∀ (z : Channel) (os : List Outgoing) (port : Option PortNo), z.openEntry = none →
      (p.wrote c z os).joinEntry c j.event j.t kind port =
        p.wrote c { z with openEntry := some { event := j.event, start := j.t, kind := kind, port := port } } os := by
    intro z os port hz
    simp only [Plant.joinEntry, Plant.openEntryFor, Plant.wrote_chan, hz]
    exact p.wrote_modChan c z os _
  simp only [Plant.joinLine, Plant.wrote_chan, hk, hj, holds, if_true, ← hkind]
  rw [Plant.wrote_enterLocal p c y os hm, Plant.wrote_setSwitch p c _ os (by exact hg) (by exact hb), Plant.modTake, Plant.wrote_modChan,
    entry _ _ _ (by exact ho), Plant.wrote_tellDone p c _ _ (by exact hg) (by exact hb)]
  simp only [hk, Option.map_some, ← hj]

/-- R150, R155: a take or join that bridges ends at its line. -/
theorem Plant.wrote_endOnBridge (hg : y.config = (p.chan c).config) (hb : y.baseDay = (p.chan c).baseDay) {k : TakeRec}
    (hk : y.takeRec = some k) (hm : y.mode = .taking ∨ y.mode = .onLocal) (ho : y.openEntry = none) (t : Nat) (r : BridgeReason) :
    (p.wrote c y os).endOnBridge c t r = p.wrote c { y with
        mode := .onLocal, switch := .filler
        takeRec := some { k with stage := .ended, result := some .fillerBridge, bridgeReason := some r } }
      (os ++ p.switched c { y with mode := .onLocal } .filler .bridge ++ [.notice ⟨k.kind.doneNotice, some c,
        u8 k.kind.code ++ portOrNone k.port ++ (u8 0 ++ u8 0 ++ u8 1 ++ u8 r.code ++ p.ctfBytes c t ++ u8 0 ++ u8 0 ++ u8 0 ++
          opt u32 (firstAfter y.playlist t))⟩]) := by
  simp only [Plant.endOnBridge]
  rw [Plant.wrote_enterLocal p c y os hm, Plant.wrote_toFiller p c _ os (by exact hg) (by exact hb) (by exact ho), Plant.modTake,
    Plant.wrote_modChan]
  simp only [Plant.wrote_chan, hk, Option.map_some]
  exact Plant.wrote_tellBridge p c _ _ (by exact hg) (by exact hb) _ r t

end

/-! ## The cursor of a bridge -/

theorem firstAfter_map {l : List Event} {f : Event → Event} (h : ∀ e, (f e).rstart = e.rstart ∧ (f e).cue = e.cue ∧ (f e).id = e.id)
    (t : Nat) : firstAfter (l.map f) t = firstAfter l t := by
  simp only [firstAfter, List.find?_map, Option.map_map]
  congr 1
  · funext e
    exact (h e).2.2
  · congr 1
    funext e
    simp only [Function.comp_apply, h]

theorem Plant.passOver_after (p : Plant) (e : Event) (t : Nat)
    (h : (decide (t < e.rstart) && e.cue != .done && e.cue != .skipped) = false) :
    (decide (t < (p.passOver e).rstart) && (p.passOver e).cue != .done && (p.passOver e).cue != .skipped) = false := by
  unfold Plant.passOver
  split
  · exact h
  · exact h
  · exact h
  all_goals
    unfold Plant.skip
    split
    · simp [Plant.bindTo]
    · simp [Plant.bindTo]

theorem firstAfter_cons (e : Event) (l : List Event) (t : Nat) : firstAfter (e :: l) t =
    if (decide (t < e.rstart) && e.cue != .done && e.cue != .skipped) = true then some e.id else firstAfter l t := by
  simp only [firstAfter, List.find?_cons]
  split
  · next h => rw [if_pos h]; rfl
  · next h => rw [if_neg (by simp [h])]

/-- R131: passing over the events before the cursor leaves the first event after T the first. -/
theorem Plant.firstAfter_passOverTo (p : Plant) (t : Nat) {target : Option Nat} {l : List Event} (h : firstAfter l t = target) :
    firstAfter (p.passOverTo target l) t = target := by
  induction l with
  | nil => exact h
  | cons e l ih =>
    rw [firstAfter_cons] at h
    rw [Plant.passOverTo]
    split
    · rw [firstAfter_cons]
      exact h
    · next hid =>
      split at h
      · exact absurd h hid
      · next he =>
        rw [firstAfter_cons, p.passOver_after e t (Bool.not_eq_true _ ▸ he), if_neg Bool.false_ne_true]
        exact ih h

/-! ## The claims of a port that settles -/

/-- What a port has of the Changeover lists: its claim, and the command outstanding. -/
def Port.lists (x : Port) : List CmdList × Option Outstanding := (x.claim, x.outstanding)

theorem Port.withdrawSlot_lists (x : Port) (c : Chan) (which : StepEntry → Bool) : (x.withdrawSlot c which).lists = x.lists := by
  unfold Port.withdrawSlot
  repeat' split
  all_goals rfl

section
variable (p : Plant) (c : Chan) (i : PortNo)

theorem Plant.cueOutcome_lists (s : StepEntry) (o : DevOutcome) : ((p.cueOutcome c s o).port i).lists = (p.port i).lists := by
  have last : ∀ q : Plant, ((q.writeLast c o).port i).lists = (q.port i).lists := fun q => by
    unfold Plant.writeLast
    split <;> rfl
  have halts : ∀ (q : Plant) cause, ((q.haltSequence c cause).port i).lists = (q.port i).lists := fun q cause => by
    unfold Plant.haltSequence
    split
    · rfl
    · cases cause <;>
      exact (congrArg Port.lists (Plant.port_mapPorts _ _ i)).trans (Port.withdrawSlot_lists _ c _)
  have skips : ∀ q : Plant, ((q.skipEvent c s).port i).lists = (q.port i).lists := fun q => by
    unfold Plant.skipEvent
    simp only
    repeat' split
    all_goals rfl
  have drops : ∀ q : Plant, ((q.dropRepetitions c s).port i).lists = (q.port i).lists := fun q => by
    unfold Plant.dropRepetitions
    simp only
    split <;> rfl
  have acts : ∀ (q : Plant) a, ((q.mismatchAction c s a).port i).lists = (q.port i).lists := fun q a => by
    cases a
    · rfl
    · exact skips q
    · exact halts q _
  simp only [Plant.cueOutcome]
  repeat' split
  · rfl
  · exact last p
  · exact last p
  · exact (drops _).trans (last p)
  · exact (acts _ _).trans (last p)
  · exact last p

theorem Plant.takeHeadsN_lists (n : Nat) : ((Plant.takeHeadsN n c p).port i).lists = (p.port i).lists := by
  induction n generalizing p with
  | zero => rfl
  | succ n ih =>
    have pop : ∀ (rest : List StepEntry) s,
        ((((p.modChan c fun x => { x with seq := { x.seq with queue := rest } }).taken c s).port i)).lists = (p.port i).lists :=
      fun rest s => by
        unfold Plant.taken
        split <;> rfl
    simp only [Plant.takeHeadsN]
    repeat' split
    · rfl
    · rfl
    · rw [ih, Plant.cueOutcome_lists, pop]
    · rw [ih, pop]
    · rfl
    · rw [ih, pop]
    · next j _ _ _ _ =>
      by_cases hj : i = j
      · subst hj
        rw [Plant.port_modPort_same]
        exact pop _ _
      · rw [Plant.port_modPort_other _ _ hj]
        exact pop _ _
    · rw [ih, Plant.cueOutcome_lists, pop]

theorem Plant.userTakes_lists (j : PortNo) : ((p.userTakes j).port i).lists = (p.port i).lists := by
  rw [Plant.userTakes]
  generalize p.usersOf j = l
  induction l generalizing p with
  | nil => rfl
  | cons d l ih => exact (ih _).trans (Plant.takeHeadsN_lists _ d i _)

/-- R107: as a port settles its lists only leave it or lose their first command. -/
theorem Plant.settlePort_claim {l : CmdList} (h : l ∈ ((p.settlePort i).port i).claim) :
    ∃ m ∈ (p.port i).claim, l.channel = m.channel ∧ l.purpose = m.purpose ∧ (m.cmds = [] → l.cmds = []) := by
  have drop : ∀ {x : Port} {m : CmdList}, m ∈ x.dropFinished.claim → m ∈ x.claim := fun {x m} hm => by
    unfold Port.dropFinished at hm
    split at hm
    · exact hm
    · exact (List.dropWhile_sublist _).mem hm
  have taken : (((p.setPort i (p.port i).dropFinished).userTakes i).port i).claim = (p.port i).dropFinished.claim := by
    rw [show ∀ q : Plant, (q.port i).claim = (q.port i).lists.1 from fun _ => rfl, Plant.userTakes_lists, Plant.port_setPort_same]
    rfl
  rw [Plant.settlePort_eq] at h
  generalize (p.setPort i (p.port i).dropFinished).userTakes i = q at h taken
  -- what stands in the claim when the arbiter has dropped what is finished once more
  have stood : ∀ m ∈ (q.port i).dropFinished.claim, m ∈ (p.port i).claim := fun m hm => drop (taken ▸ drop hm)
  have kept : ∀ x : Port, (∀ m ∈ x.claim, m ∈ (p.port i).claim) → l ∈ x.claim →
      ∃ m ∈ (p.port i).claim, l.channel = m.channel ∧ l.purpose = m.purpose ∧ (m.cmds = [] → l.cmds = []) :=
    fun x hx hl => ⟨l, hx l hl, rfl, rfl, id⟩
  simp only [Plant.arbitrate] at h
  generalize (q.port i).dropFinished = x at h stood
  repeat' split at h
  · rw [Plant.port_setPort_same] at h
    exact kept x stood h
  · rw [Plant.port_setPort_same, Port.grant_claim] at h
    unfold Port.popCommand at h
    split at h
    · exact kept x stood h
    · next k rest hc =>
      rw [hc] at stood
      rcases List.mem_cons.mp h with rfl | h
      · exact ⟨k, stood k List.mem_cons_self, rfl, rfl, fun e => by rw [e]; rfl⟩
      · exact ⟨l, stood l (List.mem_cons_of_mem _ h), rfl, rfl, id⟩
  · rw [Plant.port_setPort_same] at h
    exact kept x stood h
  · rw [show ∀ (r : Plant) d s, (r.tellCueLate d s).port i = r.port i from fun _ _ _ => rfl, Plant.port_setPort_same,
      Port.grant_claim] at h
    exact kept x stood h
  · rw [Plant.port_setPort_same, Port.grant_claim] at h
    exact kept x stood h
  · rw [Plant.port_setPort_same, Port.grant_claim] at h
    exact kept x stood h
  · rw [Plant.port_setPort_same] at h
    exact kept x stood h

/-- R107: of the channel's lists a withdrawal leaves those of one STOP and, empty, the one whose command is outstanding. -/
theorem Port.withdrawLists_left {x : Port} {l : CmdList} (h : l ∈ (x.withdrawLists c false).claim) (hc : l.channel = c) :
    l.purpose = .stop ∨ l.cmds = [] := by
  have kept : ∀ m : CmdList, m.channel = c → (m.channel == c && (false || m.purpose != .stop)) = false → m.purpose = .stop :=
    fun m hm hk => by simpa [hm] using hk
  unfold Port.withdrawLists at h
  simp only at h
  split at h
  · exact absurd h List.not_mem_nil
  · next k rest _ =>
    have tail : l ∈ (rest.filter fun m => !(m.channel == c && (false || m.purpose != .stop))) → l.purpose = .stop := fun m => by
      simpa [hc] using (List.mem_filter.mp m).2
    repeat' split at h
    · rcases List.mem_cons.mp h with rfl | h
      · exact .inr rfl
      · exact .inl (tail h)
    · exact .inl (tail h)
    · next hk =>
      rcases List.mem_cons.mp h with rfl | h
      · exact .inl (kept l hc (Bool.not_eq_true _ ▸ hk))
      · exact .inl (tail h)

theorem Plant.settlePort_chan_other {d : Chan} (h : (p.chan d).portInUse ≠ some i) : (p.settlePort i).chan d = p.chan d := by
  have fold : ∀ (us : List Chan) (q : Plant), d ∉ us → (us.foldl Plant.takeHeads q).chan d = q.chan d := fun us => by
    induction us with
    | nil => exact fun q _ => rfl
    | cons e us ih =>
      intro q hd
      rw [List.foldl_cons, ih _ fun m => hd (List.mem_cons_of_mem _ m)]
      exact Plant.otherChans_of_around (q.takeHeads_around (b := true) e) d fun m => hd (m ▸ List.mem_cons_self)
  have arb : ∀ q : Plant, (q.arbitrate i).chan d = q.chan d := fun q => by
    simp only [Plant.chan, q.arbitrate_chans i]
  rw [Plant.settlePort_eq, arb, Plant.userTakes, fold]
  · rfl
  · rw [Plant.mem_usersOf]
    exact fun hm => h hm.1

end

/-! ## A bridge whatever entry is open -/

section
variable (p : Plant) (c : Chan)

theorem Plant.wrote_self : p.wrote c (p.chan c) [] = p := by
  rw [Plant.wrote, List.append_nil, p.setChan_chan c]

/-- R165: an entry closed changes of the channel only that entry and its event's mark, and of the rest only what is handed out. -/
theorem Plant.closeEntry_parts (exit : ExitKind) (finish : Nat) {q : Plant} (hq : q = p.closeEntry c exit finish) :
    q.chan c = { p.chan c with openEntry := none, playlist := (q.chan c).playlist } ∧
    (∀ t, firstAfter (q.chan c).playlist t = firstAfter (p.chan c).playlist t) ∧
    (∃ l, q.outbox = p.outbox ++ l) ∧ ∀ j, q.port j = p.port j := by
  subst hq
  unfold Plant.closeEntry
  split
  · next h =>
    refine ⟨?_, fun _ => rfl, ⟨[], (List.append_nil _).symm⟩, fun _ => rfl⟩
    rw [← h]
  · next o h =>
    refine ⟨?_, fun t => ?_, ⟨[_], rfl⟩, fun _ => rfl⟩
    · rw [Plant.modEvent, Plant.chan_modChan_same, Plant.chan_modChan_same]
      rfl
    · rw [Plant.modEvent, Plant.chan_modChan_same, Plant.chan_modChan_same]
      refine firstAfter_map (fun e => ?_) t
      split <;> exact ⟨rfl, rfl, rfl⟩

theorem Plant.cutOnFiller_parts (before : SwitchPos) {q : Plant} (hq : q = p.cutOnFiller c before) :
    q.chan c = { p.chan c with openEntry := (q.chan c).openEntry, playlist := (q.chan c).playlist } ∧
    (∀ t, firstAfter (q.chan c).playlist t = firstAfter (p.chan c).playlist t) ∧
    (∃ l, q.outbox = p.outbox ++ l) ∧ ∀ j, q.port j = p.port j := by
  subst hq
  unfold Plant.cutOnFiller
  simp only
  repeat' split
  · obtain ⟨chan, after, told, ports⟩ := p.closeEntry_parts c .cut (p.chan c).now rfl
    exact ⟨by rw [chan], after, told, ports⟩
  all_goals exact ⟨rfl, fun _ => rfl, ⟨[], (List.append_nil _).symm⟩, fun _ => rfl⟩

/-- R150, R152, R155: a take or join ends on the bridge, whatever entry is open. -/
theorem Plant.endOnBridge_parts {k : TakeRec} (hk : (p.chan c).takeRec = some k)
    (hm : (p.chan c).mode = .taking ∨ (p.chan c).mode = .onLocal) (t : Nat) (r : BridgeReason) {q : Plant} (hq : q = p.endOnBridge c t r) :
    q.chan c = { p.chan c with
      mode := .onLocal, switch := .filler, openEntry := (q.chan c).openEntry, playlist := (q.chan c).playlist
      takeRec := some { k with stage := .ended, result := some .fillerBridge, bridgeReason := some r } } ∧
    (∀ o ∈ p.switched c { p.chan c with mode := .onLocal } .filler .bridge, o ∈ q.outbox) ∧
    .notice ⟨k.kind.doneNotice, some c, u8 k.kind.code ++ portOrNone k.port ++ (u8 0 ++ u8 0 ++ u8 1 ++ u8 r.code ++ p.ctfBytes c t ++
      u8 0 ++ u8 0 ++ u8 0 ++ opt u32 (firstAfter (p.chan c).playlist t))⟩ ∈ q.outbox ∧
    ∀ j, q.port j = p.port j := by
  generalize hv : p.wrote c { p.chan c with mode := .onLocal, switch := .filler }
    (p.switched c { p.chan c with mode := .onLocal } .filler .bridge) = v
  have chan : v.chan c = { p.chan c with mode := .onLocal, switch := .filler } := by rw [← hv, Plant.wrote_chan]
  have switches : ((p.enterLocal c).setSwitch c .filler .bridge) = v := by
    rw [← hv]
    have enter := p.wrote_enterLocal c (p.chan c) [] hm
    rw [Plant.wrote_self] at enter
    rw [enter, Plant.wrote_setSwitch p c _ [] (by rfl) (by rfl), List.nil_append]
  generalize hw : v.cutOnFiller c ((p.enterLocal c).chan c).switch = w
  obtain ⟨own, after, ⟨l, told⟩, ports⟩ := v.cutOnFiller_parts c _ hw.symm
  have record : (w.chan c).takeRec = some k := by rw [own, chan]; exact hk
  -- the record and the notice are written last
  generalize hk' : ({ k with stage := .ended, result := some .fillerBridge, bridgeReason := some r } : TakeRec) = k'
  have eq : q = w.wrote c { w.chan c with takeRec := some k' } [.notice ⟨k.kind.doneNotice, some c,
      u8 k.kind.code ++ portOrNone k.port ++ (u8 0 ++ u8 0 ++ u8 1 ++ u8 r.code ++ w.ctfBytes c t ++ u8 0 ++ u8 0 ++ u8 0 ++
        opt u32 (firstAfter (w.chan c).playlist t))⟩] := by
    have taken : w.modTake c (fun k => { k with stage := .ended, result := some .fillerBridge, bridgeReason := some r }) =
        w.wrote c { w.chan c with takeRec := some k' } [] := by
      rw [Plant.modTake, Plant.modChan_wrote, record, ← hk']
      rfl
    rw [hq]
    simp only [Plant.endOnBridge, Plant.toFiller, switches, hw, taken, Plant.wrote_chan]
    rw [Plant.wrote_tellBridge w c _ _ (by rfl) (by rfl), ← hk']
    rfl
  have rest : w.rest = p.rest := by
    rw [← hw, Plant.cutOnFiller_rest, ← hv, Plant.wrote_rest]
  have bytes : w.ctfBytes c t = p.ctfBytes c t :=
    Plant.ctfBytes_of_same (p := p) (q := w) (show (w.chan c).config = (p.chan c).config by rw [own, chan]) (Plant.ref_of_rest rest)
      (by rw [own, chan]) t
  have outbox : q.outbox = w.outbox ++ [.notice ⟨k.kind.doneNotice, some c,
      u8 k.kind.code ++ portOrNone k.port ++ (u8 0 ++ u8 0 ++ u8 1 ++ u8 r.code ++ p.ctfBytes c t ++ u8 0 ++ u8 0 ++ u8 0 ++
        opt u32 (firstAfter (p.chan c).playlist t))⟩] := by
    rw [eq, ← bytes, show firstAfter (p.chan c).playlist t = firstAfter (w.chan c).playlist t by rw [after, chan]]
    rfl
  have told' : w.outbox = p.outbox ++ p.switched c { p.chan c with mode := .onLocal } .filler .bridge ++ l := by
    rw [told, ← hv]
    rfl
  have own' : q.chan c = { w.chan c with takeRec := some k' } := by rw [eq, Plant.wrote_chan]
  refine ⟨by rw [own', own, chan, ← hk'], fun o ho => ?_, ?_, fun j => ?_⟩
  · rw [outbox, told']
    exact List.mem_append_left _ (List.mem_append_left _ (List.mem_append_right _ ho))
  · rw [outbox]
    exact List.mem_append_right _ (List.mem_singleton_self _)
  · rw [eq, show ∀ y os, (w.wrote c y os).port j = w.port j from fun _ _ => rfl, ports, ← hv]
    rfl

end

/-! ## The outcome switches -/

section
variable {p : Plant} {c : Chan} {w : PendingSw} (hm : (p.chan c).mode = .taking ∨ (p.chan c).mode = .onLocal)
include hm

theorem Plant.makeSwitch_joinLocal (h : w.act = .joinLocal) : p.makeSwitch c w = p.joinLine c := by
  simp only [Plant.makeSwitch, h]
  rcases hm with h | h <;> simp [h, Mode.running]

theorem Plant.makeSwitch_joinBridge {t : Nat} (h : w.act = .joinBridge t) :
    p.makeSwitch c w = p.endOnBridge c t (((p.chan c).takeRec.bind (·.bridgeReason)).getD .noEvent) := by
  simp only [Plant.makeSwitch, h]
  rcases hm with h | h <;> simp [h, Mode.running]

end

theorem Plant.makeSwitch_takeFailed {p : Plant} {c : Chan} {w : PendingSw} {i : PortNo} {r : FailReason}
    (hm : (p.chan c).mode = .taking) (h : w.act = .takeFailed i r) : p.makeSwitch c w = p.failLine c i r := by
  simp only [Plant.makeSwitch, h, hm, if_true]

theorem Plant.wrote_append (p : Plant) (c : Chan) (y : Channel) (as bs : List Outgoing) :
    p.wrote c y (as ++ bs) = { p.setChan c y with outbox := p.outbox ++ as ++ bs } := by
  rw [Plant.wrote, List.append_assoc]

theorem TakeKind.doneNotice_eq (k : TakeKind) : k.doneNotice = if k = .localJoin then NoticeKind.joinDone else .takeDone := by
  cases k <;> rfl

/-- R154, R155: the plant when a take has ended FAILED. -/
def Plant.takeFailed (p : Plant) (c : Chan) (y : Channel) (k : TakeRec) (i : PortNo) (r : FailReason) : Plant :=
  p.wrote c { y with
      mode := .onLocal, switch := .filler, takeRec := some { k with stage := .ended, result := some .failed, failure := some r } }
    (p.switched c { y with mode := .onLocal } .filler .portLoss ++ [.notice ⟨.takeFailed, some c,
      u8 k.kind.code ++ u8 r.code ++ u8 i.val ++ flag (p.spareQueue.contains c)⟩])

theorem Plant.wrote_failLine (p : Plant) (c : Chan) {y : Channel} (hg : y.config = (p.chan c).config)
    (hb : y.baseDay = (p.chan c).baseDay) {k : TakeRec} (hk : y.takeRec = some k) (hm : y.mode = .taking ∨ y.mode = .onLocal)
    (ho : y.openEntry = none) (i : PortNo) (r : FailReason) :
    (y.portInUse = none ∨ (y.portInUse = some i ∧ (p.port i).holder = some c) →
      (p.wrote c y []).failLine c i r = p.takeFailed c y k i r) ∧
    ∀ n, y.portInUse = some n → n ≠ i ∨ (p.port n).holder ≠ some c →
      (p.wrote c y []).failLine c i r = (p.takeFailed c y k i r).localJoin c n := by
  generalize hq : p.takeFailed c y k i r = q
  have port : (q.chan c).portInUse = y.portInUse := by rw [← hq, Plant.takeFailed, Plant.wrote_chan]
  have holder : ∀ j, (q.port j).holder = (p.port j).holder := fun j => by rw [← hq]; rfl
  have told : ((((p.wrote c y []).enterLocal c).toFiller c .portLoss).modTake c fun k =>
      { k with stage := .ended, result := some .failed, failure := some r }).tellFailed c .takeFailed k.kind r i = q := by
    rw [Plant.wrote_enterLocal p c y [] hm, Plant.wrote_toFiller p c _ [] (by exact hg) (by exact hb) (by exact ho), Plant.modTake,
      Plant.wrote_modChan, ← hq]
    simp only [hk, Option.map_some, Plant.takeFailed]
    exact Plant.wrote_notify p c _ _ _ _ _
  have kind : (((p.wrote c y []).chan c).takeRec.map (·.kind)).getD .manual = k.kind := by rw [Plant.wrote_chan, hk]; rfl
  constructor
  · intro h
    simp only [Plant.failLine, kind, told, port, holder]
    rcases h with h | ⟨h, hh⟩
    · simp only [h]
    · simp only [h, hh, and_self, if_true]
  · intro n hn h
    simp only [Plant.failLine, kind, told, port, holder, hn]
    refine if_neg fun ⟨e, hh⟩ => h.elim (fun hne => hne e) fun hne => hne ?_
    rw [e]
    exact hh

/-- R131: with nothing queued, the first event after T is the same behind the bridge's cursor. -/
theorem Plant.cueBridge_after {p : Plant} {c : Chan} (hq : (p.chan c).seq.queue = []) (t : Nat) :
    firstAfter ((p.cueBridge c t).chan c).playlist t = firstAfter (p.chan c).playlist t := by
  have chan : ((p.cueBridge c t).chan c).playlist =
      (p.flushCue c).passOverTo (firstAfter (p.chan c).playlist t) ((p.flushCue c).chan c).playlist :=
    congrArg Channel.playlist (Plant.chan_modChan_same _ c _)
  rw [chan, p.flushCue_chan, hq]
  exact Plant.firstAfter_passOverTo _ t rfl

/-- R152: a join found changed withdraws what is left of its list, the cursor bridges, and it ends on the bridge. -/
theorem Plant.joinLine_changed {p : Plant} {c : Chan} {k : TakeRec} {j : JoinRec} (hk : (p.chan c).takeRec = some k)
    (hj : k.join = some j) (h : p.joinHolds c j = false) (hq : (p.chan c).seq.queue = []) : ∃ v : Plant,
    p.joinLine c = (v.cueBridge c j.t).endOnBridge c j.t .eventChanged ∧ v.chan c = p.chan c ∧ v.rest = p.rest ∧
    (∀ d, d ≠ c → (∀ i, k.port = some i → (p.chan d).portInUse ≠ some i) → v.chan d = p.chan d) ∧
    ∀ i, k.port = some i → ∀ l ∈ (v.port i).claim, l.channel = c → l.purpose = .stop ∨ l.cmds = [] := by
  cases hp : k.port with
  | none =>
    refine ⟨p, ?_, rfl, rfl, fun _ _ _ => rfl, fun i hi => by cases hi⟩
    simp only [Plant.joinLine, hk, hj, h, Bool.false_eq_true, if_false, hp]
  | some i =>
    have due : (p.modPort i fun x => x.withdrawLists c false).NoneDue c := Plant.noneDue_of_empty hq
    refine ⟨p.withdrawJoin c i, ?_, Plant.settlePort_chan i due, p.withdrawJoin_rest c i, fun d _ hd => ?_, fun n hn l hl hc => ?_⟩
    · simp only [Plant.joinLine, hk, hj, h, Bool.false_eq_true, if_false, hp]
    · exact Plant.settlePort_chan_other _ i (hd i rfl)
    · cases hn
      obtain ⟨m, hm, channel, purpose, empty⟩ := Plant.settlePort_claim _ i hl
      rw [Plant.port_modPort_same] at hm
      rw [purpose]
      exact (Port.withdrawLists_left c hm (channel ▸ hc)).imp_right empty

/-- Settles O53: the outcome switch by what was decided, a join's LOCAL by whether its event stands as it was. -/
theorem takeEndsAtItsLine : Obligations.TakeEndsAtItsLine := by
  unfold Obligations.TakeEndsAtItsLine
  intro c p x g k w cov swTo told at' next hx hg hk hp hw hc ha hm hcov hat hnext hsw htold
  subst hx
  obtain rfl : at' = p.ctfBytes c := funext hat
  have switches : ∀ (y : Channel) pos cause, y.mode = .onLocal → y.switch = (p.chan c).switch → y.now = (p.chan c).now →
      p.switched c y pos cause = swTo pos cause.code := fun y pos cause hy hs hn => by
    rw [hsw, Plant.switched, hy, hs, hn]
    rfl
  have tells : ∀ b, Outgoing.notice ⟨k.kind.doneNotice, some c, u8 k.kind.code ++ portOrNone k.port ++ b⟩ = told b := fun b => by
    rw [htold, TakeKind.doneNotice_eq]
  generalize hy : ({ p.chan c with pendingSw := [] } : Channel) = y
  have line := fun {q : Plant} => Plant.switchLine_one (p := p) (c := c) (x := p.chan c) rfl hp hw hc hm (q := q)
  rw [hy] at line
  have chan : (p.wrote c y []).chan c = y := p.wrote_chan c y []
  have mode : y.mode = .taking ∨ y.mode = .onLocal := by rw [← hy]; exact hm
  have conf : y.config = (p.chan c).config := by rw [← hy]
  have day : y.baseDay = (p.chan c).baseDay := by rw [← hy]
  have record : y.takeRec = some k := by rw [← hy]; exact hk
  refine ⟨fun j hact hj => ⟨fun e entry he hcue htail heom hentry ho => ?_, fun hgone hq => ?_⟩, fun t r hact hr ho => ?_,
    fun i r hact hmt ho => ⟨fun hport => ?_, fun n hn hni up => ?_⟩⟩
  · have holds : (p.wrote c y []).joinHolds c j = true :=
      Plant.joinHolds_of (g := g) (by rw [chan, conf]; exact hg) (e := e) (by rw [chan, ← hy]; exact he) hcue htail heom
    have eq := p.wrote_joinLine c y [] conf day record hj mode (by rw [← hy]; exact ho) holds hentry
    rw [line (q := (p.wrote c y []).joinLine c) (Plant.makeSwitch_joinLocal (by rw [chan]; exact mode) hact).symm
      (by rw [eq, Plant.wrote_chan, ← hy]; exact ha) (by rw [eq, Plant.wrote_chan]), eq, Plant.noteCover, Plant.wrote_modChan,
      List.nil_append, Plant.wrote_append, tells, switches _ _ _ rfl (by rw [← hy]) (by rw [← hy]), hcov, ← hy]
    rfl
  · have fails : (p.wrote c y []).joinHolds c j = false :=
      Plant.joinHolds_not (g := g) (by rw [chan, conf]; exact hg) (by rw [chan, ← hy]; exact hgone)
    obtain ⟨v, eq, own, rest, others, claims⟩ := Plant.joinLine_changed (by rw [chan]; exact record) hj fails
      (by rw [chan, ← hy]; exact hq)
    rw [chan] at own
    obtain ⟨joined, record', pending, ports⟩ := v.cueBridge_joined c j.t
    have after := Plant.cueBridge_after (p := v) (c := c) (by rw [own, ← hy]; exact hq) j.t
    have bridged := joined.chan
    rw [own] at bridged record' pending after
    have rest' : (v.cueBridge c j.t).rest = p.rest := (Plant.cueBridge_rest v c j.t).trans rest
    have beside : ((v.cueBridge c j.t).endOnBridge c j.t .eventChanged).around c true = v.around c true := by simp
    generalize v.cueBridge c j.t = u at eq bridged record' pending ports after rest' beside
    have bytes : ∀ t, u.ctfBytes c t = p.ctfBytes c t :=
      Plant.ctfBytes_of_same (p := p) (q := u) (show (u.chan c).config = (p.chan c).config by rw [bridged, conf])
        (Plant.ref_of_rest rest') (by rw [bridged, day])
    obtain ⟨ended, switched, told', ports'⟩ := u.endOnBridge_parts c (k := k) (by rw [record', record]) (by rw [bridged]; exact mode) j.t
      .eventChanged rfl
    have result := line (q := (p.wrote c y []).joinLine c) (Plant.makeSwitch_joinLocal (by rw [chan]; exact mode) hact).symm
      (by rw [eq, ended, bridged, ← hy]; exact ha) (by rw [eq, ended])
    rw [eq] at result
    generalize u.endOnBridge c j.t .eventChanged = r at ended switched told' ports' result beside
    have noted : (p.switchLine c).chan c = { r.chan c with cover := (r.chan c).covering.map (·.id) } := by
      rw [result, Plant.noteCover, Plant.chan_modChan_same]
    have outbox : (p.switchLine c).outbox = r.outbox := by rw [result]; rfl
    refine ⟨_, _, rfl, rfl, ?_, ?_, ?_, ?_, ?_, ?_, ?_, fun o ho => ?_, ?_, fun i hi l hl hc => ?_,
      Plant.still_of_rest (Plant.switchLine_rest p c), fun d hd hnot => ?_⟩
    · rw [noted, ended]
    · rw [noted, ended]
    · rw [noted, ended, bridged, pending, ← hy]
    · rw [noted, ended, bridged, ← hy]
    · rw [noted, ended, bridged]
    · rw [noted, ended, bridged, ← hy]
      rfl
    · rw [noted, ended]
    · have same : u.switched c { u.chan c with mode := .onLocal } .filler .bridge = swTo .filler 1 := by
        refine Eq.trans ?_
          (switches { u.chan c with mode := .onLocal } .filler .bridge rfl (by rw [bridged, ← hy]) (by rw [bridged, ← hy]))
        simp only [Plant.switched, bytes]
      rw [outbox]
      exact switched o (same ▸ ho)
    · rw [after, bytes, tells, ← hy] at told'
      rw [outbox, hnext]
      exact told'
    · have port : (p.switchLine c).port i = r.port i := by rw [result]; rfl
      rw [port, ports', ports, Port.flushed_claim] at hl
      exact claims i hi l hl hc
    · have other : (p.switchLine c).chan d = r.chan d := by
        rw [result]
        exact Plant.otherChans_of_around (Plant.noteCover_around (b := true) r c) d hd
      have written : (p.wrote c y []).chan d = p.chan d := p.chan_setChan_other y hd
      rw [other, Plant.otherChans_of_around beside d hd, others d hd (by rw [written]; exact hnot), written]
  · have eq := p.wrote_endOnBridge c y [] conf day record mode (by rw [← hy]; exact ho) t r
    have made : (p.wrote c y []).makeSwitch c w = (p.wrote c y []).endOnBridge c t r := by
      rw [Plant.makeSwitch_joinBridge (by rw [chan]; exact mode) hact, chan, record]
      simp only [Option.bind_some, hr, Option.getD_some]
    have same : ({ k with stage := .ended, result := some .fillerBridge, bridgeReason := some r } : TakeRec) =
        { k with stage := .ended, result := some .fillerBridge } := by rw [← hr]
    rw [line made.symm (by rw [eq, Plant.wrote_chan, ← hy]; exact ha) (by rw [eq, Plant.wrote_chan]), eq, Plant.noteCover,
      Plant.wrote_modChan, List.nil_append, Plant.wrote_append, tells, switches _ _ _ rfl (by rw [← hy]) (by rw [← hy]), hcov, same,
      hnext, ← hy]
    rfl
  · have eq := (p.wrote_failLine c conf day record mode (by rw [← hy]; exact ho) i r).1 (by rw [← hy]; exact hport)
    have made : (p.wrote c y []).makeSwitch c w = p.takeFailed c y k i r :=
      (Plant.makeSwitch_takeFailed (by rw [chan, ← hy]; exact hmt) hact).trans eq
    rw [line made.symm (by rw [Plant.takeFailed, Plant.wrote_chan, ← hy]; exact ha) (by rw [Plant.takeFailed, Plant.wrote_chan]),
      Plant.noteCover, Plant.takeFailed, Plant.wrote_modChan, Plant.wrote_append, switches _ _ _ rfl (by rw [← hy]) (by rw [← hy]),
      hcov, ← hy]
    rfl
  · have eq := (p.wrote_failLine c conf day record mode (by rw [← hy]; exact ho) i r).2 n (by rw [← hy]; exact hn) hni
    have made : (p.wrote c y []).makeSwitch c w = (p.takeFailed c y k i r).localJoin c n :=
      (Plant.makeSwitch_takeFailed (by rw [chan, ← hy]; exact hmt) hact).trans eq
    generalize hv : p.takeFailed c y k i r = v at made
    have own : v.chan c = { y with
        mode := .onLocal, switch := .filler, takeRec := some { k with stage := .ended, result := some .failed, failure := some r } } := by
      rw [← hv, Plant.takeFailed, Plant.wrote_chan]
    have told' : v.outbox = p.outbox ++ swTo .filler 4 ++ [.notice ⟨.takeFailed, some c,
        u8 k.kind.code ++ u8 r.code ++ u8 i.val ++ flag (p.spareQueue.contains c)⟩] := by
      rw [← hv, Plant.takeFailed, Plant.wrote_append, switches _ _ _ rfl (by rw [← hy]) (by rw [← hy])]
      rfl
    have up' : (v.port n).state = .up := by rw [← hv]; exact up
    have join : v.localJoin c n = v.localJoinOn c n := by
      simp only [Plant.localJoin, up', ne_eq, not_true_eq_false, false_and, if_false]
    rw [join] at made
    obtain ⟨cursor, m, joined, rec, kind, stage, port, result, -⟩ := Plant.localJoinOn_joined (p := v) (c := c) n rfl
    have left := joined.chan
    have beside : (v.localJoinOn c n).around c true = v.around c true := by simp
    have outbox := joined.outbox
    generalize v.localJoinOn c n = u at made rec left beside outbox
    rw [own] at left
    have ends := line made.symm (by rw [left, ← hy]; exact ha) (by rw [left])
    have noted : (p.switchLine c).chan c = { u.chan c with cover := (u.chan c).covering.map (·.id) } := by
      rw [ends, Plant.noteCover, Plant.chan_modChan_same]
    have out : (p.switchLine c).outbox = v.outbox := by rw [ends]; exact outbox
    refine ⟨_, _, m, rfl, rfl, ?_, ?_, ?_, ?_, kind, stage, port, result, fun o ho => ?_, ?_,
      Plant.still_of_rest (Plant.switchLine_rest p c), fun d hd => ?_⟩
    · rw [noted, left]
    · rw [noted, left]
    · rw [noted, left, ← hy]
      exact hn
    · rw [noted]
      exact rec
    · rw [out, told']
      exact List.mem_append_left _ (List.mem_append_right _ ho)
    · rw [out, told']
      exact List.mem_append_right _ (List.mem_singleton_self _)
    · have other : (p.switchLine c).chan d = u.chan d := by
        rw [ends]
        exact Plant.otherChans_of_around (Plant.noteCover_around (b := true) u c) d hd
      have written : v.chan d = p.chan d := by
        rw [← hv]
        exact p.chan_setChan_other _ hd
      rw [other, Plant.otherChans_of_around beside d hd, written]

end Sys2Proof.Machine
end

