-- ==== Sys2Proof/Proofs/Takes.lean ====
section
/-! PROOFS. How a take begins (R146 to R148), a late POINT (R153), and how a take's join fails (R154). -/

namespace Sys2Proof.Machine

/-! ## TAKE and CONFIRM -/

theorem TakeOption.ofCode_code (o : TakeOption) : TakeOption.ofCode o.code = some o := by cases o <;> rfl

theorem take_unknown {n : Nat} (h : 15 < n) (k : Nat) (p : Plant) : take ⟨n, k⟩ p = p.refuse .noSuchChannel := by
  simp only [take, chanOf_none h]

theorem take_option {n k : Nat} (h : n < 16) (hk : 1 < k) (p : Plant) : take ⟨n, k⟩ p = p.refuse .badArgument := by
  obtain ⟨c, rfl⟩ : ∃ c : Chan, n = c.val := ⟨⟨n, h⟩, rfl⟩
  obtain ⟨m, rfl⟩ : ∃ m, k = m + 2 := ⟨k - 2, by omega⟩
  simp only [take, chanOf_val, TakeOption.ofCode]

theorem confirm_unknown {n : Nat} (h : 15 < n) (p : Plant) : confirm n p = p.refuse .noSuchChannel := by
  simp only [confirm, chanOf_none h]

section
variable {p : Plant} {c : Chan} (o : TakeOption)

theorem take_mode (h : (p.chan c).mode = .taking ∨ (p.chan c).mode = .onLocal ∨ (p.chan c).mode = .returning ∨
    (p.chan c).mode = .orphaned) : take ⟨c.val, o.code⟩ p = p.refuse .wrongMode := by
  simp only [take, chanOf_val, TakeOption.ofCode_code]
  rcases h with h | h | h | h <;> rw [h]

theorem take_idle (h : (p.chan c).mode = .idle) : take ⟨c.val, o.code⟩ p = p.refuse .notConfigured := by
  simp only [take, chanOf_val, TakeOption.ofCode_code, h]

theorem take_begins (h : (p.chan c).mode = .confirming ∨ (p.chan c).mode = .shadow) : take ⟨c.val, o.code⟩ p =
    (p.beginTake c .manual o, reply .ok (dayLabelBytes (dayLabelOf (p.family c) (p.chan c).baseDay (p.chan c).now))) := by
  simp only [take, chanOf_val, TakeOption.ofCode_code]
  rcases h with h | h <;> simp only [h] <;> rfl

omit o
theorem confirm_mode (h : (p.chan c).mode ≠ .confirming) : confirm c.val p = p.refuse .wrongMode := by
  simp only [confirm, chanOf_val, if_neg h]

theorem confirm_begins (h : (p.chan c).mode = .confirming) : confirm c.val p = (p.beginTake c .confirmed .join, reply .ok []) := by
  simp only [confirm, chanOf_val, if_pos h]

end

/-! ## The beginning of a take -/

/-- R147: the record of a take as it begins. -/
def takeFresh (kind : TakeKind) (o : TakeOption) (now : Nat) (stage : Stage) (i : Option PortNo) : TakeRec :=
  { kind := kind, option := o, start := now, stage := stage, port := i, join := none, bridgeReason := none, verify := none,
    result := none, failure := none, rejoined := false }

/-- R147, R148: the plant of a take that has begun, its path not yet chosen. -/
def Plant.takeStart (p : Plant) (c : Chan) (kind : TakeKind) (o : TakeOption) : Plant :=
  let hot := (p.config c).any fun g => g.standby == .hot && (p.port g.primary).state == .up
  let q := (p.modChan c fun x =>
    { x with
      takeRec := some (takeFresh kind o (p.chan c).now (if hot then .verifying else .joining) (p.primary c))
      mode := .taking, confirm := none, portInUse := p.primary c, pendingSw := [] }).clearHalt c
  if q.takeBridge c o = .filler then q.decideSwitch c .filler (q.nextLineFrame c) .bridge .bridge else q

theorem Plant.wrote_clearHalt (p : Plant) (c : Chan) (y : Channel) (os : List Outgoing) : (p.wrote c y os).clearHalt c =
    p.wrote c { y with seq := { y.seq with halted := false } }
      (os ++ if y.seq.halted = true then [.notice ⟨.sequenceHalted, some c, u8 0 ++ u8 0 ++ u8 0 ++ u8 0⟩] else []) := by
  rw [Plant.clearHalt, Plant.wrote_chan]
  split
  · rw [Plant.wrote_modChan]
    exact p.wrote_notify c _ os _ _ _
  · next h =>
    rw [List.append_nil]
    have e : y.seq.halted = false := Bool.not_eq_true _ ▸ h
    rw [← e]

theorem Plant.wrote_nextLineFrame (p : Plant) (c : Chan) {y : Channel} (os : List Outgoing) (hg : y.config = (p.chan c).config)
    (hn : y.now = (p.chan c).now) (hl : y.lineInForce = (p.chan c).lineInForce) :
    (p.wrote c y os).nextLineFrame c = p.nextLineFrame c :=
  Plant.nextLineFrame_congr c rfl (by rw [Plant.wrote_chan, hn]) (by rw [Plant.wrote_chan, hg]) (by rw [Plant.wrote_chan, hl])

theorem Plant.wrote_around (p : Plant) (c : Chan) {y : Channel} (os : List Outgoing) (h : y.steady = (p.chan c).steady) {b : Bool} :
    (p.wrote c y os).around c b = p.around c b :=
  Plant.around_eq_iff.mpr ⟨by rw [Plant.wrote_chan, h], fun _ hd => p.chan_setChan_other _ hd, fun _ => rfl, fun _ => rfl⟩

theorem Plant.beginTake_eq (p : Plant) (c : Chan) (kind : TakeKind) (o : TakeOption) :
    p.beginTake c kind o = (p.takeStart c kind o).takePath c := rfl

section
variable {p : Plant} {c : Chan} {g : ChannelConfig} (hg : (p.chan c).config = some g)
include hg

theorem Plant.takeBridge_filler (o : TakeOption) : p.takeBridge c o = .filler ↔ o = .fillerFirst ∨ g.bridge = .filler := by
  cases o
  · simp [Plant.takeBridge, Plant.config, hg]
  · simp [Plant.takeBridge]

/-- R146 to R148, R133: what a take that begins writes. -/
theorem Plant.takeStart_eq (kind : TakeKind) (o : TakeOption) :
    p.takeStart c kind o = p.wrote c { p.chan c with
      takeRec := some (takeFresh kind o (p.chan c).now
        (if g.standby = .hot ∧ (p.port g.primary).state = .up then .verifying else .joining) (some g.primary))
      mode := .taking, confirm := none, portInUse := some g.primary
      pendingSw := if o = .fillerFirst ∨ g.bridge = .filler then
        [{ pos := .filler, frame := p.nextLineFrame c, cause := .bridge, act := .bridge }] else []
      seq := { (p.chan c).seq with halted := false } }
    (if (p.chan c).seq.halted = true then [.notice ⟨.sequenceHalted, some c, u8 0 ++ u8 0 ++ u8 0 ++ u8 0⟩] else []) := by
  have primary : p.primary c = some g.primary := Plant.primary_of_config hg
  have hot : ((p.config c).any fun g => g.standby == .hot && (p.port g.primary).state == .up) = true ↔
      g.standby = .hot ∧ (p.port g.primary).state = .up := by simp [Plant.config, hg]
  simp only [Plant.takeStart, primary, hot]
  rw [Plant.modChan_wrote, Plant.wrote_clearHalt, List.nil_append]
  generalize hw : p.wrote c _ _ = w
  have bridge := Plant.takeBridge_filler (p := w) (c := c) (g := g) (by rw [← hw, Plant.wrote_chan]; exact hg) o
  have line : w.nextLineFrame c = p.nextLineFrame c := by
    rw [← hw]
    exact p.wrote_nextLineFrame c _ (by rfl) (by rfl) (by rfl)
  simp only [bridge]
  split
  · rw [Plant.decideSwitch_next, line, ← hw, Plant.wrote_modChan]
  · exact hw.symm

end

/-! ## A cold join on a port that works for nobody -/

/-- R106, R151: on a port that is UP and has nothing left to send the join's SELECT is sent at once, its POINT and ROLL listed behind it. -/
theorem Plant.coldJoin_grants {p : Plant} {c : Chan} {x : Channel} {k : TakeRec} {t : Nat} {e : Event} {i : PortNo} {z : Port}
    (hx : p.chan c = x) (hk : x.takeRec = some k) (now0 : Nat) (stage : Stage) (hz : p.port i = z)
    (ht : t = now0 + p.conf c (·.cueLead) + z.preroll) (he : coverAt x.playlist t = some e)
    (ha : joinRefusal (p.conf c (·.tailGuard)) t e = none) (up : z.state = .up) (out : z.outstanding = none) (shift : z.shift = none)
    (held : z.grantHeld = false) (spent : ∀ l ∈ z.claim, l.cmds = []) (slot : ∀ s, z.slotCue ≠ some (c, s)) {q : Plant}
    (hq : q = p.coldJoin c i now0 stage) :
    p.Joined q c (some e.id) ∧
    (q.chan c).takeRec = some { k with
      stage := stage, port := some i, join := some (joinInfo now0 t z.preroll e), bridgeReason := none } ∧
    (q.chan c).pendingSw = (if p.nextLineFrame c < t then (p.kept c).filter (fun y => decide (y.frame < t)) else []) ++
      [{ pos := .onLocal, frame := t, cause := .take, act := .joinLocal }] ∧
    (∀ j, j ≠ i → q.port j = (p.port j).flushed c) ∧
    (q.port i).claim = [{ channel := c, purpose := .join, cmds :=
      [{ cmd := .point (e.som + (t - e.rstart)), notBefore := none }, { cmd := .roll, notBefore := some (t - z.preroll) }] }] ∧
    (q.port i).outstanding = some { cmd := .select e.clipId, requester := .changeover c .join true } ∧
    (q.port i).shift = some (.frame (DevCmd.select e.clipId).frame) := by
  subst hz
  obtain ⟨w, eq, joined, record, pending, ports⟩ := Plant.coldJoin_on hx hk i now0 stage ht he ha
  have port : w.port i = p.port i := by
    rw [ports, Port.flushed_clear ⟨slot, fun cmd s => by rw [out]; simp⟩]
  have handed := Plant.handList_spent (p := w) (k := ⟨.select e.clipId, none⟩) (u := .join) (d := c)
    (ks := [{ cmd := .point (e.som + (t - e.rstart)), notBefore := none }, { cmd := .roll, notBefore := some (t - (p.port i).preroll) }])
    port up out shift held spent rfl
  have chan : q.chan c = w.chan c := by rw [hq, eq, Plant.handList_chan]
  have granted := hq.trans (eq.trans handed)
  refine ⟨⟨by rw [chan]; exact joined.chan, by rw [chan]; exact joined.course, ?_⟩, by rw [chan, record], by rw [chan, pending],
    fun j hj => ?_, by rw [granted, Plant.port_setPort_same], by rw [granted, Plant.port_setPort_same],
    by rw [granted, Plant.port_setPort_same]⟩
  · rw [hq, eq, (w.handList_listed i (List.cons_ne_nil _ _)).2]
    exact joined.outbox
  · rw [hq, eq, Plant.handList_port_other _ _ hj, ports]

/-! ## The path of a take -/

section
variable {p : Plant} {c : Chan} {g : ChannelConfig} (hg : (p.chan c).config = some g) (up : (p.port g.primary).state = .up)
include hg up

theorem Plant.takePath_cold (h : g.standby = .cold) : p.takePath c = p.coldJoin c g.primary (p.chan c).now .joining := by
  simp only [Plant.takePath, Plant.primary_of_config hg, up, Plant.config, hg, h, ne_eq, not_true_eq_false, if_false, reduceCtorEq]

theorem Plant.takePath_hot (h : g.standby = .hot) : p.takePath c =
    p.handList g.primary { channel := c, purpose := .verify, cmds := [{ cmd := .ask, notBefore := none }] } := by
  simp only [Plant.takePath, Plant.primary_of_config hg, up, Plant.config, hg, h, ne_eq, not_true_eq_false, if_false, if_true]

end

/-- R146, R147: the reply of TAKE and CONFIRM, and the status that refuses them. -/
theorem take_or_confirm {s : State} {c : Chan} {tag n code : Nat} {cmd : Instr} {kind : TakeKind} {o : TakeOption} {body : List Byte}
    (had : s.Admits tag)
    (h : (cmd = .take tag (.sound ⟨n, o.code⟩) ∧ kind = .manual ∧ code = 0x0E ∧
        body = dayLabelBytes (dayLabelOf (s.plant.family c) (s.plant.chan c).baseDay (s.plant.chan c).now)) ∨
      (cmd = .confirm tag (.sound n) ∧ kind = .confirmed ∧ o = .join ∧ code = 0x0F ∧ body = [])) :
    (15 < n → exec cmd s = .next (s.answered tag code s.plant .noSuchChannel [])) ∧
    (n = c.val →
      ((s.plant.chan c).mode = .taking ∨ (s.plant.chan c).mode = .onLocal ∨ (s.plant.chan c).mode = .returning ∨
          (s.plant.chan c).mode = .orphaned ∨ (kind = .confirmed ∧ (s.plant.chan c).mode ≠ .confirming) →
        exec cmd s = .next (s.answered tag code s.plant .wrongMode [])) ∧
      (kind = .manual → (s.plant.chan c).mode = .idle → exec cmd s = .next (s.answered tag code s.plant .notConfigured [])) ∧
      ((s.plant.chan c).mode = .confirming ∨ (kind = .manual ∧ (s.plant.chan c).mode = .shadow) →
        exec cmd s = .next (s.answered tag code (s.plant.beginTake c kind o) .ok body))) := by
  rcases h with ⟨rfl, rfl, rfl, rfl⟩ | ⟨rfl, rfl, rfl, rfl, rfl⟩
  · refine ⟨fun h => State.request_answers _ _ had (take_unknown h _ _), ?_⟩
    rintro rfl
    refine ⟨fun h => State.request_answers _ _ had (take_mode o ?_), fun _ h => State.request_answers _ _ had (take_idle o h),
      fun h => State.request_answers _ _ had (take_begins o (h.imp_right (·.2)))⟩
    rcases h with h | h | h | h | ⟨h, -⟩
    · exact .inl h
    · exact .inr (.inl h)
    · exact .inr (.inr (.inl h))
    · exact .inr (.inr (.inr h))
    · cases h
  · refine ⟨fun h => State.request_answers _ _ had (confirm_unknown h _), ?_⟩
    rintro rfl
    refine ⟨fun h => State.request_answers _ _ had (confirm_mode ?_), fun h => absurd h (by decide),
      fun h => State.request_answers _ _ had (confirm_begins (h.resolve_right fun h => absurd h.1 (by decide)))⟩
    rcases h with h | h | h | h | ⟨-, h⟩
    · rw [h]; decide
    · rw [h]; decide
    · rw [h]; decide
    · rw [h]; decide
    · exact h

/-! ## What a cold join comes to -/

/-- R150, R151: a cold join from a playlist at T on a port: joined on the event covering T where its limits allow that, and otherwise
bridging, with what stays pending beside. -/
def Plant.ColdJoined (q : Plant) (c : Chan) (l : List Event) (tail now0 t preroll : Nat) (n : PortNo) (line : Nat)
    (kept : List PendingSw) : Prop :=
  ∃ m : TakeRec, (q.chan c).takeRec = some m ∧
    (∀ e, coverAt l t = some e → joinRefusal tail t e = none →
      m.join = some (joinInfo now0 t preroll e) ∧ m.bridgeReason = none ∧
      (q.chan c).pendingSw = (if line < t then kept.filter (fun w => w.frame < t) else []) ++
        [{ pos := .onLocal, frame := t, cause := .take, act := .joinLocal }] ∧
      ∃ l ∈ (q.port n).claim, l.channel = c ∧ l.purpose = .join) ∧
    (∀ r, (coverAt l t = none ∧ r = .noEvent) ∨ (∃ e, coverAt l t = some e ∧ joinRefusal tail t e = some r) →
      m.join = none ∧ m.bridgeReason = some r ∧
      (q.chan c).pendingSw = [{ pos := .filler, frame := line, cause := .bridge, act := .joinBridge t }])

theorem Plant.coldJoin_joins {p : Plant} {c : Chan} {x : Channel} {g : ChannelConfig} {k : TakeRec} {t : Nat} (hx : p.chan c = x)
    (hg : x.config = some g) (hk : x.takeRec = some k) (i : PortNo) (now0 : Nat) (stage : Stage)
    (ht : t = now0 + g.cueLead + (p.port i).preroll) {q : Plant} (hq : q = p.coldJoin c i now0 stage) :
    q.ColdJoined c x.playlist g.tailGuard now0 t (p.port i).preroll i (p.nextLineFrame c) (p.kept c) := by
  subst hx
  have conf := fun f => Plant.conf_of_config hg f
  have ht : t = now0 + p.conf c (·.cueLead) + (p.port i).preroll := by rw [conf]; exact ht
  have joins : ∀ e, coverAt (p.chan c).playlist t = some e → joinRefusal g.tailGuard t e = none → _ := fun e he ha =>
    Plant.coldJoin_on rfl hk i now0 stage ht he (by rw [conf]; exact ha)
  have bridges : ∀ r, (coverAt (p.chan c).playlist t = none ∧ r = .noEvent) ∨
      (∃ e, coverAt (p.chan c).playlist t = some e ∧ joinRefusal g.tailGuard t e = some r) → _ := fun r hr =>
    Plant.coldJoin_bridges (r := r) rfl hk i now0 stage ht (by rw [conf]; exact hr) hq
  obtain ⟨_, m, -, record, -, -⟩ := Plant.coldJoin_joined hk i now0 stage hq
  refine ⟨m, record, fun e he ha => ?_, fun r hr => ?_⟩
  · obtain ⟨w, eq, -, record', pending, -⟩ := joins e he ha
    have chan : q.chan c = w.chan c := by rw [hq, eq, Plant.handList_chan]
    rw [chan, record', Option.some_inj] at record
    rw [← record, chan]
    refine ⟨rfl, rfl, pending, ?_⟩
    rw [hq, eq]
    exact (w.handList_listed i (List.cons_ne_nil _ _)).1
  · obtain ⟨-, record', pending, -⟩ := bridges r hr
    rw [record', Option.some_inj] at record
    rw [← record]
    exact ⟨rfl, rfl, pending⟩

theorem Plant.ColdJoined.congr {p q : Plant} {c : Chan} {l : List Event} {tail now0 t preroll line : Nat} {n : PortNo}
    {kept : List PendingSw} (h : p.ColdJoined c l tail now0 t preroll n line kept) (hc : q.chan c = p.chan c)
    (hp : q.port n = p.port n) : q.ColdJoined c l tail now0 t preroll n line kept := by
  unfold Plant.ColdJoined
  rw [hc, hp]
  exact h

/-- R148: what stays pending when a join begins again. -/
theorem Plant.kept_eq {p : Plant} {c : Chan} {g : ChannelConfig} {k : TakeRec} (hg : (p.chan c).config = some g)
    (hk : (p.chan c).takeRec = some k) : p.kept c =
      if (p.chan c).mode = .taking ∧ (p.chan c).switch = .main ∧ (p.chan c).pendingSw = [] ∧
        (k.option = .fillerFirst ∨ g.bridge = .filler) then
        [{ pos := .filler, frame := p.nextLineFrame c, cause := .bridge, act := .bridge }]
      else (p.chan c).pendingSw := by
  simp only [Plant.kept, hk, Option.map_some, Option.getD_some, Plant.takeBridge_filler hg]

/-! ## A late POINT -/

section
variable {p : Plant} {c : Chan} {k : TakeRec} {j : JoinRec} {roll : Nat} (hk : (p.chan c).takeRec = some k) (hj : k.join = some j)
  (hr : j.roll = some roll)
include hk hj hr

theorem Plant.pointDone_early (i : PortNo) (h : (p.chan c).now < roll) : p.pointDone c i = p := by
  simp only [Plant.pointDone, hk, hj, hr, Option.bind_some, if_pos h]

theorem Plant.pointDone_twice (i : PortNo) (h : roll ≤ (p.chan c).now) (ha : k.rejoined = true) :
    p.pointDone c i = p.joinFail c i .lateTwice := by
  simp only [Plant.pointDone, hk, hj, hr, Option.bind_some, if_neg (Nat.not_lt.mpr h), ha, if_true]

theorem Plant.pointDone_late (i : PortNo) (h : roll ≤ (p.chan c).now) (ha : k.rejoined = false) : p.pointDone c i =
    ((p.unjoined c i).modTake c fun k =>
      { k with rejoined := true, kind := if (p.chan c).mode = .taking then k.kind else .localJoin, result := none }).coldJoin c i
        (p.chan c).now .rejoining := by
  simp only [Plant.pointDone, hk, hj, hr, Option.bind_some, if_neg (Nat.not_lt.mpr h), ha, Bool.false_eq_true, if_false]
  rfl

end

theorem Plant.listOutcome_point {p : Plant} {c : Chan} (h : (p.chan c).mode ≠ .idle) (i : PortNo) (f : Nat) :
    p.listOutcome c i .join true (.point f) .done =
      (p.setChan c { p.chan c with seq := { (p.chan c).seq with last := some .done } }).pointDone c i := by
  have last : p.writeLast c .done = p.setChan c { p.chan c with seq := { (p.chan c).seq with last := some .done } } := by
    rw [Plant.writeLast, if_neg h]
    rfl
  have mode : ¬((p.setChan c { p.chan c with seq := { (p.chan c).seq with last := some .done } }).chan c).mode = .idle := by
    rw [Plant.chan_setChan_same]
    exact h
  simp only [Plant.listOutcome, last, Bool.not_true, Bool.false_eq_true, false_or, if_neg mode]

/-! ## A take's join fails -/

theorem Plant.noFurtherPort_taking {p : Plant} {c : Chan} (hm : (p.chan c).mode = .taking) (i : PortNo) (r : FailReason) (t : Nat)
    (drop : Bool) {q : Plant} (hq : q = p.noFurtherPort c i r t drop) :
    q.chan c = { p.chan c with
      portInUse := if drop then none else (p.chan c).portInUse, playlist := (q.chan c).playlist
      pendingSw := [{ pos := .filler, frame := p.nextLineFrame c, cause := .portLoss, act := .takeFailed i r }]
      seq := { (p.chan c).seq with queue := [], cursor := firstAfter (p.chan c).playlist t } } ∧
    q.spareQueue = p.spareQueue := by
  generalize hv : (if drop then p.usePort c none else p).cueBridge c t = v
  have chan := (p.dropped_joined c t drop hv.symm).1
  have mode : (v.chan c).mode = .taking := by rw [chan]; exact hm
  have around : v.around c true = p.around c true := by rw [← hv]; cases drop <;> simp
  have line : v.nextLineFrame c = p.nextLineFrame c :=
    Plant.nextLineFrame_of_around c (by rw [← hv]; cases drop <;> simp) around
  have eq : q = v.modChan c fun x =>
      { x with pendingSw := [{ pos := .filler, frame := p.nextLineFrame c, cause := .portLoss, act := .takeFailed i r }] } := by
    rw [hq]
    simp only [Plant.noFurtherPort, hv, if_pos mode]
    rw [Plant.decideSwitch_next, line]
  refine ⟨?_, ?_⟩
  · rw [eq, Plant.chan_modChan_same, chan]
  · rw [eq]
    exact (Plant.spareQueue_of_around around : v.spareQueue = p.spareQueue)

/-- R146 to R148, R150, R151: a take on a COLD channel whose primary port works for nobody. -/
theorem coldTake {p : Plant} {c : Chan} {x : Channel} {g : ChannelConfig} {i : PortNo} {z : Port} {kind : TakeKind} {o : TakeOption}
    {t line : Nat} (hx : p.chan c = x) (hg : x.config = some g) (cold : g.standby = .cold) (hi : i = g.primary) (hz : z = p.port i)
    (up : z.state = .up) (out : z.outstanding = none) (shift : z.shift = none) (only : p.OnlyFor i c)
    (ht : t = x.now + g.cueLead + z.preroll) (hl : line = p.nextLineFrame c) :
    ∃ (q : Plant) (k : TakeRec) (y : Channel), p.beginTake c kind o = q ∧ y = q.chan c ∧
      k.kind = kind ∧ k.option = o ∧ k.start = x.now ∧ k.stage = .joining ∧ k.port = some i ∧
      k.verify = none ∧ k.result = none ∧ k.failure = none ∧ k.rejoined = false ∧
      y = { x with
        takeRec := some k, mode := .taking, confirm := none, portInUse := some i, pendingSw := y.pendingSw
        playlist := y.playlist, seq := { x.seq with queue := [], cursor := y.seq.cursor, halted := false } } ∧
      y.playlist.map Event.course = x.playlist.map Event.course ∧
      q.hold = p.hold ∧ q.spareQueue = p.spareQueue ∧
      q.outbox = p.outbox ++ (if x.seq.halted = true then
        [.notice ⟨.sequenceHalted, some c, u8 0 ++ u8 0 ++ u8 0 ++ u8 0⟩] else []) ∧
      p.Still q ∧ p.OtherChans q c ∧ p.OtherUse q c i ∧
      (∀ e, coverAt x.playlist t = some e → joinRefusal g.tailGuard t e = none →
        k.bridgeReason = none ∧
        k.join = some { now0 := x.now, t := t, event := e.id, offset := t - e.rstart, cue := e.som + (t - e.rstart),
                        roll := some (t - z.preroll) } ∧
        (q.port i).claim = [{ channel := c, purpose := .join, cmds :=
          [{ cmd := .point (e.som + (t - e.rstart)), notBefore := none },
           { cmd := .roll, notBefore := some (t - z.preroll) }] }] ∧
        (q.port i).outstanding = some { cmd := .select e.clipId, requester := .changeover c .join true } ∧
        (q.port i).shift = some (.frame (DevCmd.select e.clipId).frame) ∧
        y.seq.cursor = some e.id ∧
        y.pendingSw = (if (o = .fillerFirst ∨ g.bridge = .filler) ∧ line < t then
            [{ pos := .filler, frame := line, cause := .bridge, act := .bridge }] else []) ++
          [{ pos := .onLocal, frame := t, cause := .take, act := .joinLocal }]) ∧
      (∀ r, (coverAt x.playlist t = none ∧ r = .noEvent) ∨
          (∃ e, coverAt x.playlist t = some e ∧ joinRefusal g.tailGuard t e = some r) →
        k.join = none ∧ k.bridgeReason = some r ∧ (q.port i).claim = [] ∧ (q.port i).outstanding = none ∧
        y.seq.cursor = (x.playlist.find? fun e => decide (t < e.rstart) && e.cue != .done && e.cue != .skipped).map (·.id) ∧
        y.pendingSw = [{ pos := .filler, frame := line, cause := .bridge, act := .joinBridge t }]) := by
  subst hx hz
  have start := Plant.takeStart_eq hg kind o
  have cold' : ¬(g.standby = .hot ∧ (p.port g.primary).state = .up) := fun h => by rw [cold] at h; exact absurd h.1 (by decide)
  rw [if_neg cold', ← hl, ← hi] at start
  generalize hv : p.takeStart c kind o = v at start
  have chan : v.chan c = { p.chan c with
      takeRec := some (takeFresh kind o (p.chan c).now .joining (some i)), mode := .taking, confirm := none, portInUse := some i
      pendingSw := if o = .fillerFirst ∨ g.bridge = .filler then
        [{ pos := .filler, frame := line, cause := .bridge, act := .bridge }] else []
      seq := { (p.chan c).seq with halted := false } } := by rw [start, Plant.wrote_chan]
  have hg' : (v.chan c).config = some g := by rw [chan]; exact hg
  have port : ∀ j, v.port j = p.port j := fun j => by rw [start]; rfl
  have other : p.OtherChans v c := fun d hd => by
    rw [start]
    exact p.chan_setChan_other _ hd
  have fresh : (v.chan c).takeRec = some (takeFresh kind o (p.chan c).now .joining (some i)) := by rw [chan]
  have line' : v.nextLineFrame c = line := by
    rw [hl, start]
    exact p.wrote_nextLineFrame c _ (by rfl) (by rfl) (by rfl)
  have kept : v.kept c = (v.chan c).pendingSw := by
    rw [Plant.kept_eq hg' fresh]
    refine if_neg fun ⟨_, _, empty, filler⟩ => ?_
    rw [chan] at empty
    exact absurd ((if_pos filler).symm.trans empty) (List.cons_ne_nil _ _)
  have conf := fun f => Plant.conf_of_config hg' f
  have ht' : t = (p.chan c).now + v.conf c (·.cueLead) + (v.port i).preroll := by rw [conf, port]; exact ht
  have begun : p.beginTake c kind o = v.coldJoin c i (p.chan c).now .joining := by
    rw [Plant.beginTake_eq, hv, Plant.takePath_cold hg' (by rw [port, ← hi]; exact up) cold, chan, hi]
  generalize hq : v.coldJoin c i (p.chan c).now .joining = q at begun
  obtain ⟨cursor, k, joined, record, hk, others⟩ := Plant.coldJoin_joined fresh i (p.chan c).now .joining hq.symm
  have slot : ∀ s, (p.port i).slotCue ≠ some (c, s) := fun s => by rw [only.slotCue]; simp
  have clear : (p.port i).Clear c := ⟨slot, fun cmd s => by rw [out]; simp⟩
  have left := joined.chan
  rw [chan, record] at left
  have around : q.around c true = p.around c true := by
    rw [← hq, Plant.coldJoin_around, start]
    exact p.wrote_around c _ (by rfl)
  refine ⟨q, k, q.chan c, begun, rfl, by rw [hk]; rfl, by rw [hk]; rfl, by rw [hk]; rfl, by rw [hk], by rw [hk], by rw [hk]; rfl,
    by rw [hk]; rfl, by rw [hk]; rfl, by rw [hk]; rfl, ?_, ?_, ?_, Plant.spareQueue_of_around around, ?_, ?_,
    Plant.otherChans_of_around around, fun j hj slot out => ?_, fun e he ha => ?_, fun r hr => ?_⟩
  · rw [left]
  · rw [joined.course, chan]
  · rw [← begun]
    exact Plant.hold_of_store (p.beginTake_store c kind o)
  · rw [joined.outbox, start]
    rfl
  · rw [← begun]
    exact Plant.still_of_rest (p.beginTake_rest c kind o)
  · rw [others j hj, port, Port.flushed_clear ⟨slot, out⟩]
  · have covered : coverAt (v.chan c).playlist t = some e := by rw [chan]; exact he
    obtain ⟨joined', record', pending, -, claim, sent, shifted⟩ := Plant.coldJoin_grants rfl fresh (p.chan c).now .joining
      (port i) (by rw [← port]; exact ht') covered (by rw [conf]; exact ha) up out shift only.held
        (Port.spent_of_empty only.claim) slot hq.symm
    rw [record, Option.some_inj] at record'
    refine ⟨by rw [record'], by rw [record']; rfl, claim, sent, shifted, by rw [joined'.chan], ?_⟩
    rw [pending, line', kept, chan]
    by_cases hb : o = .fillerFirst ∨ g.bridge = .filler
    · by_cases hlt : line < t <;> simp [hb, hlt]
    · simp [hb]
  · have bridged : (coverAt (v.chan c).playlist t = none ∧ r = .noEvent) ∨
        (∃ e, coverAt (v.chan c).playlist t = some e ∧ joinRefusal (v.conf c (·.tailGuard)) t e = some r) := by
      rw [chan, conf]
      exact hr
    obtain ⟨joined', record', pending, ports⟩ := Plant.coldJoin_bridges rfl fresh i (p.chan c).now .joining ht' bridged hq.symm
    rw [record, Option.some_inj] at record'
    have same : q.port i = p.port i := by rw [ports, port, Port.flushed_clear clear]
    refine ⟨by rw [record'], by rw [record'], by rw [same]; exact only.claim, by rw [same]; exact out, ?_, by rw [pending, line']⟩
    rw [joined'.chan, chan]
    rfl

/-- R106: a port that settles touches no other, where the channels working with it have no due head. -/
theorem Plant.settlePort_port_other {p : Plant} {i j : PortNo} (h : ∀ d, (p.chan d).portInUse = some i → p.NoneDue d) (hj : j ≠ i) :
    (p.settlePort i).port j = p.port j := by
  rw [Plant.settlePort_eq, Plant.userTakes_quiet (p := p.setPort i _) h, Plant.arbitrate_port_other _ hj, p.port_setPort_other _ hj]

/-! ## A join that begins again, or fails -/

/-- R148: what stays pending when the channel's join is withdrawn and another begins. -/
def Channel.keeps (x : Channel) (g : ChannelConfig) (k : TakeRec) (line : Nat) : List PendingSw :=
  if x.mode = .taking ∧ x.switch = .main ∧ x.pendingSw.filter (fun w => !w.act.ofJoin) = [] ∧
      (k.option = .fillerFirst ∨ g.bridge = .filler) then [{ pos := .filler, frame := line, cause := .bridge, act := .bridge }]
  else x.pendingSw.filter (fun w => !w.act.ofJoin)

section
variable {p : Plant} {c : Chan} {g : ChannelConfig} {k : TakeRec} (hg : (p.chan c).config = some g)
include hg

/-- R153, R154: the cold join that follows a withdrawn one, on the same port or on another. -/
theorem Plant.coldJoin_again {u q : Plant} {m : TakeRec} (s : PortNo) (stage : Stage) (o : Option PortNo)
    (own : u.chan c = { (p.chan c).unjoin with takeRec := some m, portInUse := o }) (option : m.option = k.option)
    (rest : u.rest = p.rest) (around : u.around c false = p.around c false)
    (hq : q = u.coldJoin c s (p.chan c).now stage) :
    q.ColdJoined c (p.chan c).playlist g.tailGuard (p.chan c).now ((p.chan c).now + g.cueLead + (p.port s).preroll)
      (p.port s).preroll s (p.nextLineFrame c) ((p.chan c).keeps g k (p.nextLineFrame c)) ∧
    q.outbox = u.outbox ∧
    ∃ n cursor, q.chan c = { p.chan c with
      portInUse := o, takeRec := some n, pendingSw := (q.chan c).pendingSw, playlist := (q.chan c).playlist
      seq := { (p.chan c).seq with queue := [], cursor := cursor } } ∧
    n = { m with stage := stage, port := some s, join := n.join, bridgeReason := n.bridgeReason } := by
  have preroll : (u.port s).preroll = (p.port s).preroll := Plant.preroll_of_around around s
  have line : u.nextLineFrame c = p.nextLineFrame c := Plant.nextLineFrame_of_around c rest around
  have conf : (u.chan c).config = some g := by rw [own]; exact hg
  have record : (u.chan c).takeRec = some m := by rw [own]
  have joins := Plant.coldJoin_joins rfl conf record s (p.chan c).now stage rfl hq
  obtain ⟨cursor, n, joined, took, hn, -⟩ := Plant.coldJoin_joined record s (p.chan c).now stage hq
  rw [preroll, line, Plant.kept_eq conf record, line, option, own] at joins
  have left := joined.chan
  rw [took, own] at left
  exact ⟨joins, joined.outbox, n, cursor, left, hn⟩

variable (hk : (p.chan c).takeRec = some k)
include hk

/-- R153: the POINT of a join is done too late for its ROLL for the first time. -/
theorem Plant.pointDone_rejoins {j : JoinRec} {roll : Nat} (i : PortNo) (hj : k.join = some j) (hr : j.roll = some roll)
    (late : roll ≤ (p.chan c).now) (ha : k.rejoined = false) {q : Plant} (hq : q = p.pointDone c i) :
    q.ColdJoined c (p.chan c).playlist g.tailGuard (p.chan c).now ((p.chan c).now + g.cueLead + (p.port i).preroll)
      (p.port i).preroll i (p.nextLineFrame c) ((p.chan c).keeps g k (p.nextLineFrame c)) ∧
    q.outbox = p.outbox ∧ q.spareQueue = p.spareQueue ∧
    ∃ n cursor, q.chan c = { p.chan c with
      takeRec := some n, pendingSw := (q.chan c).pendingSw, playlist := (q.chan c).playlist
      seq := { (p.chan c).seq with queue := [], cursor := cursor } } ∧
    n = { k with
      rejoined := true, kind := if (p.chan c).mode = .taking then k.kind else .localJoin, result := none
      stage := .rejoining, port := some i, join := n.join, bridgeReason := n.bridgeReason } := by
  rw [Plant.pointDone_late hk hj hr i late ha] at hq
  generalize hu : (p.unjoined c i).modTake c _ = u at hq
  have own : u.chan c = { (p.chan c).unjoin with
      takeRec := some { k with rejoined := true, kind := if (p.chan c).mode = .taking then k.kind else .localJoin, result := none }
      portInUse := (p.chan c).portInUse } := by
    rw [← hu, Plant.modTake, Plant.chan_modChan_same, Plant.unjoined_chan, show (p.chan c).unjoin.takeRec = some k from hk]
    rfl
  have around : u.around c true = p.around c true := by rw [← hu]; simp
  obtain ⟨joins, outbox, n, cursor, left, hn⟩ := Plant.coldJoin_again hg i .rejoining _ own rfl (by rw [← hu]; simp)
    (Plant.around_all around false) hq
  refine ⟨joins, outbox.trans (by rw [← hu]; rfl), ?_, n, cursor, left, hn⟩
  rw [hq, Plant.spareQueue_of_around (c := c) (u.coldJoin_around c i _ _), Plant.spareQueue_of_around around]

/-- R154, the first bullet: a spare is lent to a take whose join has failed, and its join begins anew on it. -/
theorem Plant.joinFail_lends {i s : PortNo} (hm : (p.chan c).mode = .taking) (stage : k.stage ≠ .ended) (sole : p.Sole c i)
    (hi : (p.port i).role = .primary) (hh : ∀ j, (p.port j).holder ≠ some c) (hc : c ∉ p.spareQueue) (lend : p.Lendable g s)
    (low : ∀ j : PortNo, j.val < s.val → ¬p.Lendable g j) (r : FailReason) {q : Plant} (hq : q = p.joinFail c i r) :
    q.ColdJoined c (p.chan c).playlist g.tailGuard (p.chan c).now ((p.chan c).now + g.cueLead + (p.port s).preroll)
      (p.port s).preroll s (p.nextLineFrame c) ((p.chan c).keeps g k (p.nextLineFrame c)) ∧
    (∃ n cursor, q.chan c = { p.chan c with
      portInUse := some s, takeRec := some n, pendingSw := (q.chan c).pendingSw, playlist := (q.chan c).playlist
      seq := { (p.chan c).seq with queue := [], cursor := cursor } } ∧
      n = { k with rejoined := false, stage := .joining, port := some s, join := n.join, bridgeReason := n.bridgeReason }) ∧
    (q.port s).holder = some c ∧ q.spareQueue = p.spareQueue ∧ ⟨.spareGranted, some c, u8 s.val⟩ ∈ q.notices := by
  have apart : s ≠ i := fun e => by
    have := lend.1
    rw [e, hi] at this
    exact absurd this (by decide)
  have ended : (p.stageOf c == some .ended) = false := by
    rw [Plant.stageOf, hk]
    exact beq_false_of_ne fun e => stage (Option.some.inj e)
  rw [Plant.joinFail_eq (Or.inl hm), if_neg (hh i), ended] at hq
  generalize hu : p.unjoined c i = u at hq
  have around : u.around c true = p.around c true := by rw [← hu]; simp
  have own : u.chan c = (p.chan c).unjoin := by rw [← hu, Plant.unjoined_chan]
  rw [Plant.askSpare_taking (Plant.requestSpare_lends (g := g) (by rw [own]; exact hg)
    (fun j => by rw [Plant.holder_of_around around]; exact hh j) (by rw [Plant.spareQueue_of_around around]; exact hc)
    ((Plant.lendable_of_around around g s).mpr lend) fun j hj h => low j hj ((Plant.lendable_of_around around g j).mp h)) i r _
    (by rw [Plant.lend_chan, own]; exact hm), Plant.lend_chan, own] at hq
  generalize hv : ((u.lend c s).usePort c (some s)).modTake c _ = v at hq
  have own' : v.chan c = { (p.chan c).unjoin with takeRec := some { k with rejoined := false }, portInUse := some s } := by
    rw [← hv, Plant.modTake, Plant.chan_modChan_same, Plant.usePort_chan, Plant.lend_chan, own,
      show (p.chan c).unjoin.takeRec = some k from hk]
    rfl
  have around' : v.around c false = p.around c false := by rw [← hv, ← hu]; simp
  generalize hw : v.coldJoin c s (p.chan c).unjoin.now .joining = w at hq
  obtain ⟨joins, outbox, n, cursor, left, hn⟩ := Plant.coldJoin_again hg s .joining (some s) own' rfl (by rw [← hv, ← hu]; simp)
    around' hw.symm
  have keeps : w.around c true = v.around c true := by rw [← hw]; simp
  have none : ∀ d, (w.chan d).portInUse = some i → w.NoneDue d := fun d hd => by
    by_cases e : d = c
    · rw [e]
      exact Plant.noneDue_of_empty (by rw [left])
    · rw [Plant.otherChans_of_around keeps d e, Plant.otherChans_of_around around' d e] at hd
      exact absurd hd (sole d e)
  have chan : q.chan c = w.chan c := by
    rw [hq]
    exact Plant.settlePort_chan i (Plant.noneDue_of_empty (by rw [left]))
  have port : q.port s = w.port s := by
    rw [hq]
    exact Plant.settlePort_port_other none apart
  refine ⟨joins.congr chan port, ⟨n, cursor, by rw [chan, ← left], hn⟩, ?_, ?_, ?_⟩
  · rw [port, Plant.holder_of_around keeps, ← hv]
    exact congrArg Port.holder (u.lend_port_same c s)
  · rw [hq, (Plant.settlePort_spares _ i).2, Plant.spareQueue_of_around keeps, ← hv]
    exact (Plant.spareQueue_of_around around : u.spareQueue = p.spareQueue)
  · have told : (⟨.spareGranted, some c, u8 s.val⟩ : Notice) ∈ w.notices := by
      refine Plant.mem_notices.mpr ?_
      rw [outbox, ← hv]
      exact List.mem_append_right u.outbox (List.mem_singleton_self _)
    rw [hq]
    exact (Plant.settlePort_tells (.refl w) i).mem_notices told

end

/-- R154: a take's join that finds no further port, on the channel's spare or with a request that waits. -/
theorem Plant.joinFail_bridges {p : Plant} {c : Chan} {i : PortNo} (hm : (p.chan c).mode = .taking) (drop : Bool)
    (queue : List Chan) (r : FailReason) {q : Plant}
    (hq : q = (({ p.unjoined c i with spareQueue := queue } : Plant).noFurtherPort c i r (p.bridgeFrame c) drop).settlePort i) :
    q.chan c = { p.chan c with
      playlist := (q.chan c).playlist, seq := { (p.chan c).seq with queue := [], cursor := (q.chan c).seq.cursor }
      portInUse := if drop then none else (p.chan c).portInUse
      pendingSw := [{ pos := .filler, frame := p.nextLineFrame c, cause := .portLoss, act := .takeFailed i r }] } ∧
    q.spareQueue = queue := by
  generalize hu : ({ p.unjoined c i with spareQueue := queue } : Plant) = u at hq
  have own : u.chan c = (p.chan c).unjoin := by
    rw [← hu]
    exact p.unjoined_chan c i
  have line : u.nextLineFrame c = p.nextLineFrame c :=
    Plant.nextLineFrame_of_around (b := false) c (by rw [← hu]; exact p.unjoined_rest c i) (by rw [← hu, Plant.queue_around]; simp)
  obtain ⟨chan, spares⟩ := Plant.noFurtherPort_taking (p := u) (by rw [own]; exact hm) i r (p.bridgeFrame c) drop rfl
  rw [line, own] at chan
  have same : q.chan c = (u.noFurtherPort c i r (p.bridgeFrame c) drop).chan c := by
    rw [hq]
    exact Plant.settlePort_chan i (Plant.noneDue_of_empty (by rw [chan]))
  refine ⟨?_, by rw [hq, (Plant.settlePort_spares _ i).2, spares, ← hu]⟩
  rw [same, chan]
  rfl

theorem Plant.joinFail_held {p : Plant} {c : Chan} {i : PortNo} (hm : (p.chan c).mode = .taking) (hh : (p.port i).holder = some c)
    (r : FailReason) : p.joinFail c i r =
      (({ p.unjoined c i with spareQueue := p.spareQueue } : Plant).noFurtherPort c i r (p.bridgeFrame c) false).settlePort i := by
  have queue : p.spareQueue = (p.unjoined c i).spareQueue := (Plant.spareQueue_of_around (p.unjoined_around c i)).symm
  rw [Plant.joinFail_eq (Or.inl hm), if_pos hh, queue]

section
variable {p : Plant} {c : Chan} {g : ChannelConfig} (hg : (p.chan c).config = some g)
  (hm : (p.chan c).mode = .taking ∨ (p.chan c).mode.running = true) (hh : ∀ j, (p.port j).holder ≠ some c) (hc : c ∉ p.spareQueue)
  (none : ∀ j, ¬p.Lendable g j)
include hg hm hh hc none

theorem Plant.joinFail_waits (i : PortNo) (r : FailReason) : p.joinFail c i r =
    (({ p.unjoined c i with spareQueue := p.spareQueue ++ [c] } : Plant).noFurtherPort c i r (p.bridgeFrame c) true).settlePort i := by
  have around := p.unjoined_around c i (b := true)
  rw [Plant.joinFail_eq hm, if_neg (hh i), Plant.askSpare_waits (Plant.requestSpare_waits (g := g) (by rw [Plant.unjoined_chan]; exact hg)
    (fun j => by rw [Plant.holder_of_around around]; exact hh j) (by rw [Plant.spareQueue_of_around around]; exact hc)
    fun j h => none j ((Plant.lendable_of_around around g j).mp h)), Plant.spareQueue_of_around around]

/-- R154, R162: a local join that fails on its primary port, with no spare to be lent, begins again there. -/
theorem Plant.joinFail_primary (running : (p.chan c).mode.running = true) {i : PortNo} (hi : i = g.primary)
    (up : (p.port i).state = .up) (r : FailReason) {q : Plant} (hq : q = p.joinFail c i r) :
    (q.chan c).mode = (p.chan c).mode ∧ (q.chan c).switch = (p.chan c).switch ∧ (q.chan c).portInUse = some i ∧
    q.spareQueue = p.spareQueue ∧
    (∃ m, (q.chan c).takeRec = some m ∧ m.kind = .localJoin ∧ m.stage = .joining ∧ m.port = some i ∧ m.result = .none) ∧
    ⟨.joinFailed, some c, u8 3 ++ u8 r.code ++ u8 i.val ++ u8 1⟩ ∈ q.notices := by
  rw [Plant.joinFail_waits hg hm hh hc none] at hq
  generalize hu : ({ p.unjoined c i with spareQueue := p.spareQueue ++ [c] } : Plant) = u at hq
  have own : u.chan c = (p.chan c).unjoin := by
    rw [← hu]
    exact p.unjoined_chan c i
  have base : u.around c false = p.around c false := by
    rw [← hu, Plant.queue_around]
    simp
  have queue : u.spareQueue = p.spareQueue ++ [c] := by rw [← hu]
  have taking : (u.chan c).mode ≠ .taking := fun h => by
    rw [own] at h
    rw [show (p.chan c).mode = .taking from h] at running
    exact absurd running (by decide)
  have primary : u.primary c = some i := by
    rw [hi]
    exact Plant.primary_of_config (by rw [own]; exact hg)
  rw [Plant.noFurtherPort_running _ _ _ _ _ _ taking, primary, Bool.true_and, Option.any_some,
    if_pos (beq_iff_eq.mpr ((Plant.state_of_around base i).trans up))] at hq
  generalize hw : u.ranOut c i r (p.bridgeFrame c) true = w at hq
  have around : w.around c true = u.around c true := by rw [← hw]; simp
  have out := u.ranOut_chan c i r (p.bridgeFrame c) true hw.symm
  rw [own] at out
  have waits : w.waits c = true := by
    rw [Plant.waits, Plant.spareQueue_of_around around, queue]
    simp
  have tries : w.tryPrimary c = ((w.leaveQueue c).usePort c (some i)).localJoinOn c i := by
    have primary' : w.primary c = some i := (Plant.primary_of_around around).trans primary
    have mode : (w.chan c).mode.running = true := by
      rw [out]
      exact running
    have state : (w.port i).state = .up := by rw [Plant.state_of_around around, Plant.state_of_around base, up]
    simp only [Plant.tryPrimary, primary', waits, state, mode, and_self, if_true]
  obtain ⟨cursor, m, joined, record, kind, stage, port, result, -⟩ := Plant.localJoinOn_joined i tries
  generalize hv : w.tryPrimary c = v at hq joined record
  have chan := joined.chan
  rw [Plant.usePort_chan, Plant.leaveQueue_chan, out] at chan
  have same : q.chan c = v.chan c := by
    rw [hq]
    exact Plant.settlePort_chan i (Plant.noneDue_of_empty (by rw [chan]))
  have told : (⟨.joinFailed, some c, u8 3 ++ u8 r.code ++ u8 i.val ++ u8 1⟩ : Notice) ∈ v.notices := by
    refine Plant.mem_notices.mpr ?_
    rw [joined.outbox]
    have outbox := (u.ranOut_tells c i r (p.bridgeFrame c) true).1
    rw [hw, queue, show (p.spareQueue ++ [c]).contains c = true by simp] at outbox
    exact outbox ▸ List.mem_append_right _ (List.mem_singleton_self _)
  have spares : v.spareQueue = (p.spareQueue ++ [c]).filter (· != c) := by
    rw [← hv, tries, Plant.spareQueue_of_around (c := c) (Plant.localJoinOn_around _ c i), ← queue, ← Plant.spareQueue_of_around around]
    rfl
  rw [same, chan]
  refine ⟨rfl, rfl, rfl, ?_, ⟨m, by rw [← record, chan], kind, stage, port, result⟩, ?_⟩
  · rw [hq, (Plant.settlePort_spares _ i).2, spares, List.filter_append, List.filter_eq_self.mpr fun d hd => by
      simpa using fun e : d = c => hc (e ▸ hd)]
    simp
  · rw [hq]
    exact (Plant.settlePort_tells (.refl v) i).mem_notices told

end

/-! ## The obligation -/

section
variable {p : Plant} {c : Chan} {g : ChannelConfig} {k : TakeRec} (hg : (p.chan c).config = some g)
  (hk : (p.chan c).takeRec = some k) (hm : (p.chan c).mode ≠ .idle) {i : PortNo}
include hg hk hm

/-- R151, R153: the outcome DONE of a join's POINT. -/
theorem listOutcome_pointDone (sole : p.Sole c i) {j : JoinRec} {roll f : Nat} {q : Plant} (hj : k.join = some j) (hr : j.roll = some roll)
    (hq : q = p.listOutcome c i .join true (.point f) .done) :
    ((p.chan c).now < roll → q = p.setChan c { p.chan c with seq := { (p.chan c).seq with last := some .done } }) ∧
    (roll ≤ (p.chan c).now → k.rejoined = true →
      q = (p.setChan c { p.chan c with seq := { (p.chan c).seq with last := some .done } }).joinFail c i .lateTwice) ∧
    (roll ≤ (p.chan c).now → k.rejoined = false →
      q.ColdJoined c (p.chan c).playlist g.tailGuard (p.chan c).now ((p.chan c).now + g.cueLead + (p.port i).preroll)
        (p.port i).preroll i (p.nextLineFrame c) ((p.chan c).keeps g k (p.nextLineFrame c)) ∧ q.outbox = p.outbox ∧
      (∃ m, (q.chan c).takeRec = some m ∧ m.stage = .rejoining ∧ m.rejoined = true ∧ m.port = some i ∧ m.verify = k.verify ∧
        ((p.chan c).mode = .taking → m.kind = k.kind) ∧ ((p.chan c).mode ≠ .taking → m.kind = .localJoin)) ∧
      (q.chan c).mode = (p.chan c).mode ∧ (q.chan c).switch = (p.chan c).switch ∧
      (q.chan c).portInUse = (p.chan c).portInUse ∧ (q.chan c).seq.queue = [] ∧ (q.chan c).seq.last = some .done ∧
      q.spareQueue = p.spareQueue ∧ p.Still q ∧ p.OtherChans q c) := by
  have still : p.Still q := Plant.still_of_rest (by rw [hq]; simp)
  have others : p.OtherChans q c := Plant.otherChans_of_around (b := false) (by rw [hq]; exact p.listOutcome_around c i _ _ _ _ sole)
  rw [Plant.listOutcome_point hm] at hq
  generalize hv : p.setChan c { p.chan c with seq := { (p.chan c).seq with last := some .done } } = v at hq ⊢
  have own : v.chan c = { p.chan c with seq := { (p.chan c).seq with last := some .done } } := by
    rw [← hv]
    exact p.chan_setChan_same c _
  have line : v.nextLineFrame c = p.nextLineFrame c := by
    refine Plant.nextLineFrame_congr c (by rw [← hv]; rfl) ?_ ?_ ?_ <;> rw [own]
  have record : (v.chan c).takeRec = some k := by rw [own]; exact hk
  have now : (v.chan c).now = (p.chan c).now := by rw [own]
  refine ⟨fun early => ?_, fun late ha => ?_, fun late ha => ?_⟩
  · exact hq.trans (Plant.pointDone_early record hj hr i (by rw [now]; exact early))
  · exact hq.trans (Plant.pointDone_twice record hj hr i (by rw [now]; exact late) ha)
  · obtain ⟨joins, outbox, queue, n, cursor, chan, hn⟩ :=
      Plant.pointDone_rejoins (g := g) (by rw [own]; exact hg) record i hj hr (by rw [now]; exact late) ha hq
    have port : v.port i = p.port i := by rw [← hv]; rfl
    rw [line, own, port] at joins
    rw [own] at chan hn
    refine ⟨joins, by rw [outbox, ← hv]; rfl, ⟨n, by rw [chan], ?_⟩, ?_, ?_, ?_, ?_, ?_, by rw [queue, ← hv]; rfl, still, others⟩
    · rw [hn]
      exact ⟨rfl, rfl, rfl, rfl, fun h => if_pos h, fun h => if_neg h⟩
    all_goals rw [chan]

end

/-- Settles O51: the refusals, the cold join's start on a free port, the late POINT, and the three ends of a join that fails. -/
theorem takeBeginsWithColdJoin : Obligations.TakeBeginsWithColdJoin := by
  unfold Obligations.TakeBeginsWithColdJoin
  refine ⟨fun tag n k s had => ⟨fun h => State.request_answers _ _ had (take_unknown h k _), fun hn hk => ?_⟩, ?_⟩
  · exact State.request_answers _ _ had (take_option hn hk _)
  intro tag n cmd kind o body code s c x had hx shape
  subst hx
  obtain ⟨unknown, known⟩ := take_or_confirm had shape
  refine ⟨unknown, fun hn => ?_, ?_⟩
  · obtain ⟨mode, idle, begins⟩ := known hn
    refine ⟨mode, idle, fun g i z t line hm hg cold hi hz up out shift only ht hl => ?_⟩
    obtain ⟨q, k, y, begun, hy, rest⟩ := coldTake (kind := kind) (o := o) rfl hg cold hi hz up out shift only ht
      (hl.trans (Plant.nextLineFrame_of_config hg).symm)
    exact ⟨q, k, y, begun ▸ begins hm, hy, rest⟩
  · clear had shape unknown known
    intro p c i x g k z line kept joined hx hg hk hz hm up out shift held pass claim sole slot hl hkept hjoined
    subst hx hz
    rw [← Plant.nextLineFrame_of_config hg] at hl
    subst hl hkept
    have awake : (p.chan c).mode ≠ .idle := fun h => by
      rw [h] at hm
      exact absurd hm (by decide)
    have runs : (p.chan c).mode = .taking ∨ (p.chan c).mode.running = true := hm.imp_right fun h => by
      rcases h with h | h <;> rw [h] <;> rfl
    have still : ∀ r, p.Still (p.joinFail c i r) := fun r => Plant.still_of_rest (p.joinFail_rest c i r)
    have others : ∀ r, p.OtherChans (p.joinFail c i r) c := fun r => Plant.otherChans_of_around (p.joinFail_around c i r sole)
    have lendable : (∀ s, (p.port s).role = .spare → (p.port s).state = .up → (p.port s).holder = none →
        g.spares.testBit s.val = false) → ∀ j, ¬p.Lendable g j := fun none j ⟨role, state, holder, bit⟩ => by
      rw [none j role state holder] at bit
      exact Bool.false_ne_true bit
    refine ⟨fun j roll f q hj hr hq => ?_, fun r q hq ht => ⟨fun hh => ?_, fun hi role hh hc => ⟨fun none => ?_, ?_⟩⟩, ?_⟩
    · obtain ⟨early, twice, late⟩ := listOutcome_pointDone hg hk awake sole hj hr hq
      exact ⟨early, twice, fun h ha => (late h ha).imp_left (hjoined _ _ _).mpr⟩
    · obtain ⟨chan, queue⟩ := Plant.joinFail_bridges ht false p.spareQueue r (hq.trans (Plant.joinFail_held ht hh r))
      rw [hq] at chan queue ⊢
      exact ⟨chan, queue, still r, others r⟩
    · obtain ⟨chan, queue⟩ := Plant.joinFail_bridges ht true (p.spareQueue ++ [c]) r
        (hq.trans (Plant.joinFail_waits hg runs hh hc (lendable none) i r))
      rw [hq] at chan queue ⊢
      exact ⟨chan, queue, still r, others r⟩
    · intro stage s role' state holder bit low
      obtain ⟨joins, ⟨n, cursor, chan, hn⟩, lent, queue, told⟩ := Plant.joinFail_lends hg hk ht stage sole role hh hc
        ⟨role', state, holder, bit⟩ (fun j hj ⟨role, state, holder, bit⟩ => by
          rw [low j hj role state holder] at bit
          exact Bool.false_ne_true bit) r hq
      refine ⟨(hjoined _ _ _).mpr joins, ⟨n, by rw [chan], ?_⟩, by rw [chan, ht], by rw [chan], by rw [chan], by rw [chan], lent, queue,
        told, hq ▸ still r, hq ▸ others r⟩
      rw [hn]
      exact ⟨rfl, rfl, rfl, rfl⟩
    · intro r q hq ht hi hh hc none
      obtain ⟨mode, switch, port, queue, record, told⟩ :=
        Plant.joinFail_primary hg runs hh hc (lendable none) (runs.resolve_left ht) hi up r hq
      exact ⟨mode, switch, port, queue, record, told, hq ▸ still r, hq ▸ others r⟩

end Sys2Proof.Machine
end

