-- ==== Sys2Proof/Proofs/HotTakes.lean ====
section
/-! PROOFS. A take on a HOT channel (R147, R149), and the loss of the port in use in local running (R161, R162). -/

namespace Sys2Proof.Machine

/-! ## The take begins -/

/-- R147, R149: on a port that is UP and works for nobody a take on a HOT channel sends one ASK. -/
theorem hotTake {p : Plant} {c : Chan} {g : ChannelConfig} {i : PortNo} {z : Port} (hg : (p.chan c).config = some g)
    (hot : g.standby = .hot) (hi : i = g.primary) (hz : z = p.port i) (up : z.state = .up) (out : z.outstanding = none)
    (shift : z.shift = none) (only : p.OnlyFor i c) (kind : TakeKind) (o : TakeOption) :
    p.beginTake c kind o = { (p.setChan c { p.chan c with
          seq := { (p.chan c).seq with halted := false }
          takeRec := some (takeFresh kind o (p.chan c).now .verifying (some i))
          mode := .taking, confirm := none, portInUse := some i
          pendingSw := if o = .fillerFirst ∨ g.bridge = .filler then
            [{ pos := .filler, frame := p.nextLineFrame c, cause := .bridge, act := .bridge }] else [] }).setPort i { z with
        outstanding := some { cmd := .ask, requester := .changeover c .verify true }, shift := some (.frame DevCmd.ask.frame)
        holding := none, replyTimer := none, attempt := 1, failures := [], tryTimeout := z.replyTimeout, tryRetries := z.retries
        claim := [{ channel := c, purpose := .verify, cmds := [] }] } with
        outbox := p.outbox ++ (if (p.chan c).seq.halted = true then
          [.notice ⟨.sequenceHalted, some c, u8 0 ++ u8 0 ++ u8 0 ++ u8 0⟩] else []) } := by
  subst hz hi
  have start := Plant.takeStart_eq hg kind o
  rw [if_pos (show g.standby = .hot ∧ (p.port g.primary).state = .up from ⟨hot, up⟩)] at start
  generalize hv : p.takeStart c kind o = v at start
  have conf : (v.chan c).config = some g := by rw [start, Plant.wrote_chan]; exact hg
  have port : v.port g.primary = p.port g.primary := by rw [start]; rfl
  rw [Plant.beginTake_eq, hv, Plant.takePath_hot conf (by rw [port]; exact up) hot,
    v.handList_spent (k := ⟨.ask, none⟩) (ks := []) port up out shift only.held (Port.spent_of_empty only.claim) rfl, start]
  rfl

/-! ## The verify's outcome is judged -/

/-- R149: the verdict on a verify's outcome handed back in the frame `now`, in the order of the rule. -/
def HotVerdict (g : ChannelConfig) (l : List Event) (now : Nat) (o : DevOutcome) (v : VerifyResult) : Prop :=
  (v = .refused ∧ ∃ m, o = .refused m) ∨ (v = .timeout ∧ o = .timeout) ∨
    (v = .mismatch ∧ ∃ m clip f, o = .state m clip f ∧ m ≠ .rolling) ∨
    (v = .noEvent ∧ (∃ clip f, o = .state .rolling clip f) ∧ coverAt l (now + 1) = none) ∨
    (∃ clip f e, o = .state .rolling clip f ∧ coverAt l (now + 1) = some e ∧
      ((v = .fillerEvent ∧ e.kind = .filler) ∨
       (v = .mismatch ∧ e.kind = .clip ∧ (clip ≠ e.clipId ∨
          (f : Int) < (e.som : Int) + now - e.rstart - g.verifyTol ∨ (e.som : Int) + now - e.rstart + g.verifyTol < f)) ∨
       (e.kind = .clip ∧ clip = e.clipId ∧ (e.som : Int) + now - e.rstart - g.verifyTol ≤ f ∧
          (f : Int) ≤ (e.som : Int) + now - e.rstart + g.verifyTol ∧
          ((v = .limit ∧ joinRefusal g.tailGuard (now + 1) e ≠ none) ∨
           (v = .verified ∧ joinRefusal g.tailGuard (now + 1) e = none)))))

theorem frameNear_iff (tol f : Nat) (e : Event) (now : Nat) : frameNear tol f e now = true ↔
    (e.som : Int) + now - e.rstart - tol ≤ f ∧ (f : Int) ≤ (e.som : Int) + now - e.rstart + tol := by
  simp only [frameNear, Bool.and_eq_true, decide_eq_true_iff]
  omega

theorem Plant.verifyCheck_event (p : Plant) (c : Chan) (f : Nat) (o : DevOutcome) : (p.verifyCheck c f o).2 =
    if (p.verifyCheck c f o).1 = .verified then coverAt (p.chan c).playlist (f + 1) else none := by
  cases o with
  | state mode clip frame =>
    simp only [Plant.verifyCheck]
    split
    · rfl
    · split
      · rfl
      · next e he =>
        split
        · rfl
        · split
          · rfl
          · split
            · rfl
            · exact he.symm
  | _ => rfl

theorem Plant.verifyCheck_verdict {p : Plant} {c : Chan} {g : ChannelConfig} (hg : (p.chan c).config = some g) {now : Nat}
    {o : DevOutcome} {v : VerifyResult} (h : HotVerdict g (p.chan c).playlist now o v) : (p.verifyCheck c now o).1 = v := by
  have tol := Plant.conf_of_config hg (·.verifyTol)
  have tail := Plant.conf_of_config hg (·.tailGuard)
  rcases h with ⟨rfl, m, rfl⟩ | ⟨rfl, rfl⟩ | ⟨rfl, m, clip, f, rfl, hm⟩ | ⟨rfl, ⟨clip, f, rfl⟩, he⟩ | ⟨clip, f, e, rfl, he, h⟩
  · rfl
  · rfl
  · simp only [Plant.verifyCheck, ne_eq, hm, not_false_eq_true, if_true]
  · simp only [Plant.verifyCheck, he, ne_eq, not_true_eq_false, if_false]
  · have near := frameNear_iff g.verifyTol f e now
    simp only [Plant.verifyCheck, he, tol, tail, ne_eq, not_true_eq_false, if_false]
    rcases h with ⟨rfl, kind⟩ | ⟨rfl, kind, far⟩ | ⟨kind, rfl, low, high, ⟨rfl, limit⟩ | ⟨rfl, allowed⟩⟩
    · rw [if_pos kind]
    · rw [if_neg (by rw [kind]; decide), if_pos]
      refine far.imp_right fun h => ?_
      rw [Bool.not_eq_true', Bool.eq_false_iff, ne_eq, near]
      omega
    · rw [if_neg (by rw [kind]; decide), near.mpr ⟨low, high⟩, if_neg (by simp), if_pos (Option.isSome_iff_ne_none.mpr limit)]
    · rw [if_neg (by rw [kind]; decide), near.mpr ⟨low, high⟩, if_neg (by simp), allowed, if_neg (by simp)]

/-! ## What follows the verdict -/

section
variable {p : Plant} {c : Chan} {k : TakeRec} (hk : (p.chan c).takeRec = some k) {o : DevOutcome}
include hk

/-- R149: a verified take joins in the next frame with nothing sent. -/
theorem Plant.verifyOutcome_verified (i : PortNo) {e : Event} {t : Nat} (ht : t = (p.chan c).now + 1)
    (check : p.verifyCheck c (p.chan c).now o = (.verified, some e)) {q : Plant} (hq : q = p.verifyOutcome c i o) :
    p.Joined q c (some e.id) ∧
    (q.chan c).takeRec = some { k with
      verify := some .verified
      join := some { now0 := (p.chan c).now, t := t, event := e.id, offset := t - e.rstart
                     cue := e.som + (t - e.rstart), roll := none } } ∧
    (q.chan c).pendingSw = (if p.nextLineFrame c < t then (p.chan c).pendingSw.filter (fun w => w.frame < t) else []) ++
      [{ pos := .onLocal, frame := t, cause := .take, act := .joinLocal }] ∧
    ∀ j, q.port j = (p.port j).flushed c := by
  subst ht
  generalize hu : (p.modTake c fun k => { k with verify := some .verified }).modTake c (fun k => { k with
    join := some { now0 := (p.chan c).now, t := (p.chan c).now + 1, event := e.id, offset := (p.chan c).now + 1 - e.rstart
                   cue := e.som + ((p.chan c).now + 1 - e.rstart), roll := none } }) = u
  have own : u.chan c = { p.chan c with takeRec := some { k with
      verify := some .verified
      join := some { now0 := (p.chan c).now, t := (p.chan c).now + 1, event := e.id, offset := (p.chan c).now + 1 - e.rstart
                     cue := e.som + ((p.chan c).now + 1 - e.rstart), roll := none } } } := by
    rw [← hu, Plant.modTake, Plant.chan_modChan_same, Plant.modTake, Plant.chan_modChan_same, hk]
    rfl
  generalize hv : u.cueJoin c e.id ((p.chan c).now + 1 - e.rstart) ((p.chan c).now + 1) = v
  obtain ⟨joined, record, pending, ports⟩ := u.cueJoin_joined c e.id ((p.chan c).now + 1 - e.rstart) ((p.chan c).now + 1)
  rw [hv] at joined record pending ports
  have line : v.nextLineFrame c = p.nextLineFrame c :=
    Plant.nextLineFrame_of_around (b := true) c (by rw [← hv, ← hu]; simp) (by rw [← hv, ← hu]; simp)
  have eq : q = v.decideSwitch c .onLocal ((p.chan c).now + 1) .take .joinLocal := by
    rw [hq, Plant.verifyOutcome, check, ← hv, ← hu]
  have last : q.chan c = { v.chan c with pendingSw := v.pendingBefore c ((p.chan c).now + 1) ++
      [{ pos := .onLocal, frame := (p.chan c).now + 1, cause := .take, act := .joinLocal }] } := by
    rw [eq]
    exact Plant.chan_modChan_same v c _
  refine ⟨?_, ?_, ?_, fun j => ?_⟩
  · rw [eq]
    exact (joined.of_record own rfl (by rw [← hu]; rfl)).decides _ _ _ _
  · rw [last, record, own]
  · rw [last, Plant.pendingBefore, line, pending, own]
  · rw [eq]
    exact (ports j).trans (by rw [← hu]; rfl)

/-- R149: any other verdict is recorded and a cold join begins on the same port. -/
theorem Plant.verifyOutcome_fails {i : PortNo} {v : VerifyResult} (up : (p.port i).state = .up)
    (check : p.verifyCheck c (p.chan c).now o = (v, none)) :
    p.verifyOutcome c i o =
      (p.setChan c { p.chan c with takeRec := some { k with verify := some v } }).coldJoin c i (p.chan c).now .joining := by
  have record : (p.modTake c fun k => { k with verify := some v }) =
      p.setChan c { p.chan c with takeRec := some { k with verify := some v } } := by
    rw [Plant.modTake, Plant.modChan, hk]
    rfl
  rw [Plant.verifyOutcome, check, ← record]
  exact if_pos up

end

/-! ## The port settles behind the verify -/

/-- R106: a port that has nothing left to send, and whose users have no due head, drops the lists whose commands are all done. -/
theorem Plant.settlePort_spent {p : Plant} {i : PortNo} {x : Port} (hx : p.port i = x) (spent : ∀ l ∈ x.claim, l.cmds = [])
    (out : x.outstanding = none) (cue : x.slotCue = none) (pass : x.slotPass = none)
    (h : ∀ d, (p.chan d).portInUse = some i → p.NoneDue d) : p.settlePort i = p.setPort i { x with claim := [] } := by
  have drop : x.dropFinished = { x with claim := [] } := by
    have gone : x.claim.dropWhile (fun l => l.cmds.isEmpty) = [] :=
      List.dropWhile_eq_nil_iff.mpr fun l hl => List.isEmpty_iff.mpr (spent l hl)
    simp only [Port.dropFinished, Port.listBusy, out, Bool.false_eq_true, if_false, gone]
  rw [Plant.settlePort_eq, hx, drop, Plant.userTakes_quiet (p := p.setPort i _) h]
  refine Plant.arbitrate_bare ?_
  rw [Plant.port_setPort_same]
  exact ⟨rfl, cue, pass⟩

theorem HotVerdict.covered {g : ChannelConfig} {l : List Event} {now : Nat} {o : DevOutcome}
    (h : HotVerdict g l now o .verified) : ∃ e, coverAt l (now + 1) = some e := by
  rcases h with ⟨h, -⟩ | ⟨h, -⟩ | ⟨h, -⟩ | ⟨h, -⟩ | ⟨_, _, e, -, he, -⟩
  · cases h
  · cases h
  · cases h
  · cases h
  · exact ⟨e, he⟩

/-- R106, R149: what a port that has settled behind a join leaves of the rest, and of the channel all that the join leaves. -/
theorem Plant.Joined.settled {p u w q : Plant} {c : Chan} {cursor : Option Nat} {i : PortNo} {o : LastOutcome}
    (joined : u.Joined w c cursor)
    (own : u.chan c = { p.chan c with seq := { (p.chan c).seq with last := some o } }) (outbox : u.outbox = p.outbox)
    (others : ∀ j, j ≠ i → w.port j = (p.port j).flushed c) (around : w.around c true = p.around c true)
    (settled : q = w ∨ ∃ y, q = w.setPort i y) :
    q.chan c = { p.chan c with
      takeRec := (q.chan c).takeRec, pendingSw := (q.chan c).pendingSw, playlist := (q.chan c).playlist
      seq := { (p.chan c).seq with queue := [], cursor := (q.chan c).seq.cursor, last := some o } } ∧
    (q.chan c).playlist.map Event.course = (p.chan c).playlist.map Event.course ∧
    q.spareQueue = p.spareQueue ∧ q.outbox = p.outbox ∧ p.OtherChans q c ∧ p.OtherUse q c i ∧ (q.chan c).seq.cursor = cursor ∧
    (q.chan c).takeRec = (w.chan c).takeRec ∧ (q.chan c).pendingSw = (w.chan c).pendingSw := by
  obtain ⟨chans, queue, out, ports⟩ : (∀ d, q.chan d = w.chan d) ∧ q.spareQueue = w.spareQueue ∧ q.outbox = w.outbox ∧
      ∀ j, j ≠ i → q.port j = w.port j := by
    rcases settled with rfl | ⟨y, rfl⟩
    · exact ⟨fun _ => rfl, rfl, rfl, fun _ _ => rfl⟩
    · exact ⟨fun _ => rfl, rfl, rfl, fun j hj => w.port_setPort_other y hj⟩
  have left := joined.chan
  rw [own] at left
  refine ⟨?_, ?_, by rw [queue, Plant.spareQueue_of_around around], by rw [out, joined.outbox, outbox], fun d hd => ?_,
    fun j hj slot sent => ?_, ?_, by rw [chans], by rw [chans]⟩
  · rw [chans, left]
  · rw [chans, joined.course, own]
  · rw [chans, Plant.otherChans_of_around around d hd]
  · rw [ports j hj, others j hj, Port.flushed_clear ⟨slot, sent⟩]
  · rw [chans, left]

/-- R149: what the outcome of a take's ASK leaves, on a port that has nothing else to do. -/
theorem verifyEnds {p : Plant} {c : Chan} {g : ChannelConfig} {i : PortNo} {z : Port} {k : TakeRec} {o : DevOutcome} {v : VerifyResult}
    (hm : (p.chan c).mode = .taking) (hg : (p.chan c).config = some g) (hk : (p.chan c).takeRec = some k)
    (sole : p.Sole c i) (hz : p.port i = z) (up : z.state = .up) (out : z.outstanding = none) (shift : z.shift = none)
    (held : z.grantHeld = false) (spent : ∀ l ∈ z.claim, l.cmds = []) (cue : z.slotCue = none) (pass : z.slotPass = none)
    (verdict : HotVerdict g (p.chan c).playlist (p.chan c).now o v) {kept : List PendingSw}
    (hkept : kept = if (p.chan c).switch = .main ∧ (p.chan c).pendingSw = [] ∧ (k.option = .fillerFirst ∨ g.bridge = .filler) then
      [{ pos := .filler, frame := p.nextLineFrame c, cause := .bridge, act := .bridge }] else (p.chan c).pendingSw) {q : Plant}
    (hq : q = (p.listOutcome c i .verify true .ask o).settlePort i) :
    q.chan c = { p.chan c with
      takeRec := (q.chan c).takeRec, pendingSw := (q.chan c).pendingSw, playlist := (q.chan c).playlist
      seq := { (p.chan c).seq with queue := [], cursor := (q.chan c).seq.cursor, last := some o.last } } ∧
    (q.chan c).playlist.map Event.course = (p.chan c).playlist.map Event.course ∧
    q.hold = p.hold ∧ q.spareQueue = p.spareQueue ∧ q.outbox = p.outbox ∧
    p.Still q ∧ p.OtherChans q c ∧ p.OtherUse q c i ∧
    (v = .verified → ∀ e t, t = (p.chan c).now + 1 → coverAt (p.chan c).playlist t = some e →
      (q.chan c).takeRec = some { k with
        verify := some .verified
        join := some { now0 := (p.chan c).now, t := t, event := e.id, offset := t - e.rstart, cue := e.som + (t - e.rstart)
                       roll := none } } ∧
      (q.chan c).seq.cursor = some e.id ∧ (q.port i).claim = [] ∧ (q.port i).outstanding = none ∧ (q.port i).shift = none ∧
      (q.chan c).pendingSw = (if p.nextLineFrame c < t then (p.chan c).pendingSw.filter (fun w => w.frame < t) else []) ++
        [{ pos := .onLocal, frame := t, cause := .take, act := .joinLocal }]) ∧
    (v ≠ .verified → ∀ t, t = (p.chan c).now + g.cueLead + z.preroll →
      (∀ e, coverAt (p.chan c).playlist t = some e → joinRefusal g.tailGuard t e = none →
        (q.chan c).takeRec = some { k with
          verify := some v, stage := .joining, port := some i, bridgeReason := none
          join := some { now0 := (p.chan c).now, t := t, event := e.id, offset := t - e.rstart, cue := e.som + (t - e.rstart)
                         roll := some (t - z.preroll) } } ∧
        (q.chan c).seq.cursor = some e.id ∧
        (q.port i).claim = [{ channel := c, purpose := .join, cmds :=
          [{ cmd := .point (e.som + (t - e.rstart)), notBefore := none },
           { cmd := .roll, notBefore := some (t - z.preroll) }] }] ∧
        (q.port i).outstanding = some { cmd := .select e.clipId, requester := .changeover c .join true } ∧
        (q.port i).shift = some (.frame (DevCmd.select e.clipId).frame) ∧
        (q.chan c).pendingSw = (if p.nextLineFrame c < t then kept.filter (fun w => w.frame < t) else []) ++
          [{ pos := .onLocal, frame := t, cause := .take, act := .joinLocal }]) ∧
      (∀ r, (coverAt (p.chan c).playlist t = none ∧ r = .noEvent) ∨
          (∃ e, coverAt (p.chan c).playlist t = some e ∧ joinRefusal g.tailGuard t e = some r) →
        (q.chan c).takeRec = some { k with
          verify := some v, stage := .joining, port := some i, join := none, bridgeReason := some r } ∧
        (q.chan c).seq.cursor = firstAfter (p.chan c).playlist t ∧
        (q.port i).claim = [] ∧ (q.port i).outstanding = none ∧
        (q.chan c).pendingSw = [{ pos := .filler, frame := p.nextLineFrame c, cause := .bridge, act := .joinBridge t }])) := by
  have awake : (p.chan c).mode ≠ .idle := by rw [hm]; decide
  generalize hw : p.listOutcome c i .verify true .ask o = w at hq
  generalize hu : p.setChan c { p.chan c with seq := { (p.chan c).seq with last := some o.last } } = u
  have own : u.chan c = { p.chan c with seq := { (p.chan c).seq with last := some o.last } } := by
    rw [← hu]
    exact p.chan_setChan_same c _
  have last : p.writeLast c o = u := by
    rw [← hu]
    exact if_neg awake
  have judged : w = u.verifyOutcome c i o := by
    rw [← hw]
    simp only [Plant.listOutcome, last, own, hm, Bool.not_true, Bool.false_eq_true, reduceCtorEq, or_self, if_false]
  have base : ∀ b, u.around c b = p.around c b := fun b => by
    rw [← last]
    simp
  have ports : ∀ j, u.port j = p.port j := fun j => by rw [← hu]; rfl
  have line : u.nextLineFrame c = p.nextLineFrame c := Plant.nextLineFrame_of_around (b := true) c (by rw [← hu]; rfl) (base true)
  have record : (u.chan c).takeRec = some k := by rw [own]; exact hk
  have conf : (u.chan c).config = some g := by rw [own]; exact hg
  have now : (u.chan c).now = (p.chan c).now := by rw [own]
  have list : (u.chan c).playlist = (p.chan c).playlist := by rw [own]
  have clear : z.Clear c := ⟨fun s => by rw [cue]; simp, fun cmd s => by rw [out]; simp⟩
  have flushed : ∀ j, (u.port j).flushed c = (p.port j).flushed c := fun j => by rw [ports]
  have check := Plant.verifyCheck_verdict conf (now := (u.chan c).now) (by rw [list, now]; exact verdict)
  have found := u.verifyCheck_event c (u.chan c).now o
  rw [check, list] at found
  have rises : (u.port i).state = .up := by rw [ports, hz]; exact up
  have around : w.around c true = p.around c true := by
    rw [judged, ← base true]
    simp only [Plant.verifyOutcome, rises, if_true]
    split <;> simp
  have hold : q.hold = p.hold := Plant.hold_of_store (by rw [hq, ← hw]; simp)
  have still : p.Still q := Plant.still_of_rest (by rw [hq, ← hw]; simp)
  have users : (w.chan c).seq.queue = [] → ∀ d, (w.chan d).portInUse = some i → w.NoneDue d := fun empty d hd => by
    by_cases e : d = c
    · rw [e]
      exact Plant.noneDue_of_empty empty
    · rw [Plant.otherChans_of_around around d e] at hd
      exact absurd hd (sole d e)
  by_cases hv : v = .verified
  · subst hv
    obtain ⟨e, he⟩ := verdict.covered
    rw [if_pos rfl, show (u.chan c).now + 1 = (p.chan c).now + 1 by rw [now], he] at found
    obtain ⟨joined, took, pending, moved⟩ := Plant.verifyOutcome_verified record i (t := (p.chan c).now + 1) (by rw [now])
      (Prod.ext check found) judged
    have port : w.port i = z := by rw [moved, flushed, hz, Port.flushed_clear clear]
    have settled := hq.trans (Plant.settlePort_spent port spent out cue pass (users (by rw [joined.chan])))
    obtain ⟨chan, course, queue, outbox, others, use, cursor, record', pending'⟩ := joined.settled own (by rw [← hu]; rfl)
      (fun j _ => (moved j).trans (flushed j)) around (Or.inr ⟨_, settled⟩)
    refine ⟨chan, course, hold, queue, outbox, still, others, use, fun _ e' t ht he' => ?_, fun h => absurd rfl h⟩
    subst ht
    obtain rfl : e = e' := Option.some.inj (he.symm.trans he')
    have port' : q.port i = { z with claim := [] } := by rw [settled, Plant.port_setPort_same]
    refine ⟨?_, cursor, by rw [port'], by rw [port']; exact out, by rw [port']; exact shift, ?_⟩
    · rw [record', took, now]
    · rw [pending', pending, line, own]
  · rw [if_neg hv] at found
    have fails := judged.trans (Plant.verifyOutcome_fails record rises (Prod.ext check found))
    generalize hm' : u.setChan c { u.chan c with takeRec := some { k with verify := some v } } = m at fails
    have own' : m.chan c = { p.chan c with
        seq := { (p.chan c).seq with last := some o.last }, takeRec := some { k with verify := some v } } := by
      rw [← hm', Plant.chan_setChan_same, own]
    have conf' := fun f => Plant.conf_of_config (p := m) (c := c) (g := g) (by rw [own']; exact hg) f
    have port' : m.port i = z := by rw [← hm', ← hz, ← ports]; rfl
    have line' : m.nextLineFrame c = p.nextLineFrame c := by
      rw [← line, ← hm']
      refine Plant.nextLineFrame_congr c rfl ?_ ?_ ?_ <;> rw [Plant.chan_setChan_same]
    have keeps : m.kept c = kept := by
      rw [Plant.kept_eq (by rw [own']; exact hg) (by rw [own']), line', own', hkept]
      simp only [hm, true_and]
    have record' : (m.chan c).takeRec = some { k with verify := some v } := by rw [own']
    obtain ⟨cursor, n, joined, took, hn, moved⟩ := Plant.coldJoin_joined record' i (u.chan c).now .joining fails
    have mine : u.Joined w c cursor := joined.of_record (by rw [own', own]) rfl (by rw [← hm']; rfl)
    have queue : (w.chan c).seq.queue = [] := by rw [joined.chan]
    have eachUser := users queue
    generalize ht : (p.chan c).now + g.cueLead + z.preroll = t
    have ht' : t = (u.chan c).now + m.conf c (·.cueLead) + (m.port i).preroll := by rw [← ht, now, conf', port']
    have tz : t = (u.chan c).now + m.conf c (·.cueLead) + z.preroll := by rw [ht', port']
    have outbox : u.outbox = p.outbox := by rw [← hu]; rfl
    have granted : ∀ e, coverAt (p.chan c).playlist t = some e → joinRefusal g.tailGuard t e = none → _ := fun e he ha =>
      Plant.coldJoin_grants (p := m) (e := e) rfl record' (u.chan c).now .joining port' tz (by rw [own']; exact he)
        (by rw [conf']; exact ha) up out shift held spent clear.slot fails
    have bridged : ∀ r, (coverAt (p.chan c).playlist t = none ∧ r = .noEvent) ∨
        (∃ e, coverAt (p.chan c).playlist t = some e ∧ joinRefusal g.tailGuard t e = some r) → _ := fun r hr =>
      Plant.coldJoin_bridges (p := m) (r := r) rfl record' i (u.chan c).now .joining ht' (by rw [own', conf']; exact hr) fails
    have stays : ∀ e, coverAt (p.chan c).playlist t = some e → joinRefusal g.tailGuard t e = none → q = w := fun e he ha => by
      obtain ⟨-, -, -, -, -, sent, -⟩ := granted e he ha
      exact hq.trans (Plant.settlePort_listBusy (by rw [Port.listBusy, sent]) eachUser)
    have drops : ∀ r, (coverAt (p.chan c).playlist t = none ∧ r = .noEvent) ∨
        (∃ e, coverAt (p.chan c).playlist t = some e ∧ joinRefusal g.tailGuard t e = some r) →
        q = w.setPort i { z with claim := [] } := fun r hr => by
      obtain ⟨-, -, -, ports'⟩ := bridged r hr
      exact hq.trans (Plant.settlePort_spent (by rw [ports', port', Port.flushed_clear clear]) spent out cue pass eachUser)
    have settled : q = w ∨ ∃ y, q = w.setPort i y := by
      cases he : coverAt (p.chan c).playlist t with
      | none => exact Or.inr ⟨_, drops _ (Or.inl ⟨he, rfl⟩)⟩
      | some e =>
        cases ha : joinRefusal g.tailGuard t e with
        | none => exact Or.inl (stays e he ha)
        | some r => exact Or.inr ⟨_, drops r (Or.inr ⟨e, he, ha⟩)⟩
    obtain ⟨chan, course, spares, sentOut, others, use, cursor', took', pending'⟩ := mine.settled own outbox
      (fun j hj => (moved j hj).trans (by rw [← hm']; exact flushed j)) around settled
    have cursor'' : (w.chan c).seq.cursor = (q.chan c).seq.cursor := by rw [joined.chan, cursor']
    refine ⟨chan, course, hold, spares, sentOut, still, others, use, fun h => absurd h hv, fun _ t' heq => ?_⟩
    obtain rfl : t' = t := heq
    refine ⟨fun e he ha => ?_, fun r hr => ?_⟩
    · obtain ⟨joined', record'', pending, -, claim, sent, shifted⟩ := granted e he ha
      rw [stays e he ha] at took' pending' cursor'' ⊢
      refine ⟨by rw [record'', now]; rfl, by rw [joined'.chan], claim, sent, shifted, ?_⟩
      rw [pending, line', keeps]
    · obtain ⟨joined', record'', pending, -⟩ := bridged r hr
      have dropped : q.port i = { z with claim := [] } := by rw [drops r hr, Plant.port_setPort_same]
      refine ⟨by rw [took', record''], ?_, by rw [dropped], by rw [dropped]; exact out, by rw [pending', pending, line']⟩
      rw [← cursor'', joined'.chan, own']

/-! ## The ASK's outcome reaches the channel -/

theorem Plant.modPort_setPort (p : Plant) (i : PortNo) (x : Port) (f : Port → Port) : (p.setPort i x).modPort i f = p.setPort i (f x) := by
  rw [Plant.modPort, Plant.port_setPort_same, Plant.setPort_setPort]

/-- R98: a good reply to the command of an UP port ends it. -/
theorem Plant.goodReply_ends {p : Plant} {i : PortNo} {z : Port} {out : Outstanding} (hz : p.port i = z) (up : z.state = .up)
    (sent : z.outstanding = some out) (timer : z.replyTimer.isSome = true) (r : DevReply) :
    p.goodReply i r = (p.setPort i { z with rx := [], timeouts := 0 }).endCommand i out (replyOutcome out.cmd r) := by
  have set : p.modPort i (fun x => { x with rx := [] }) = p.setPort i { z with rx := [] } := by rw [Plant.modPort, hz]
  simp only [Plant.goodReply, hz, up, sent, timer, reduceCtorEq, if_false, if_true, set, Plant.modPort_setPort]

/-- R99: the last attempt without a reply ends the command with TIMEOUT, which is not the third running. -/
theorem Plant.replyExpired_ends {p : Plant} {i : PortNo} {z : Port} {out : Outstanding} (hz : p.port i = z) (up : z.state = .up)
    (sent : z.outstanding = some out) (timer : z.replyTimer.isSome = true) (last : z.tryRetries < z.attempt) (few : z.timeouts ≠ 2) :
    p.replyExpired i = (p.setPort i { z with timeouts := z.timeouts + 1 }).endCommand i out .timeout := by
  have failed : failedOutcome (z.failures ++ [.noReply]) = .timeout := by simp [failedOutcome]
  have third : ¬z.timeouts + 1 = 3 := fun h => few (by omega)
  simp only [Plant.replyExpired, Plant.attemptFails, hz, up, sent, timer, and_self, if_true, Nat.not_le.mpr last, if_false, failed,
    third, Plant.modPort]

theorem Plant.endCommand_list {p : Plant} {i : PortNo} {z : Port} {c : Chan} {u : Purpose} {live : Bool} {cmd : DevCmd}
    (o : DevOutcome) : (p.setPort i z).endCommand i { cmd := cmd, requester := .changeover c u live } o =
      ((p.setPort i z.endCommand).listOutcome c i u live cmd o).settlePort i := by
  rw [Plant.endCommand, Plant.modPort_setPort]
  rfl

/-- R98, R99, R149: the outcome of a take's ASK. -/
theorem exec_verify {s : State} {c : Chan} {i : PortNo} {z : Port} {cmd : Instr} {o : DevOutcome} (hz : s.plant.port i = z)
    (up : z.state = .up) (sent : z.outstanding = some { cmd := .ask, requester := .changeover c .verify true })
    (timer : z.replyTimer.isSome = true)
    (h : (cmd = .deviceReply i .done ∧ o = .refused none) ∨ (∃ m, cmd = .deviceReply i (.refused m) ∧ o = .refused m) ∨
      (∃ m clip f, cmd = .deviceReply i (.state m clip f) ∧ o = .state m clip f) ∨
      (cmd = .replyTimeout i ∧ z.tryRetries < z.attempt ∧ z.timeouts ≠ 2 ∧ o = .timeout)) :
    ∃ rx timeouts, exec cmd s = .next (s.passed (((s.plant.setPort i
      { z.endCommand with rx := rx, timeouts := timeouts }).listOutcome c i .verify true .ask o).settlePort i)) := by
  have reply : ∀ r, exec (.deviceReply i r) s = .next (s.passed (((s.plant.setPort i
      { z.endCommand with rx := [], timeouts := 0 }).listOutcome c i .verify true .ask (replyOutcome .ask r)).settlePort i)) := fun r =>
    congrArg (Host.Outcome.next ∘ s.passed) ((Plant.goodReply_ends hz up sent timer r).trans (Plant.endCommand_list _))
  rcases h with ⟨rfl, rfl⟩ | ⟨m, rfl, rfl⟩ | ⟨m, clip, f, rfl, rfl⟩ | ⟨rfl, last, few, rfl⟩
  · exact ⟨_, _, reply .done⟩
  · exact ⟨_, _, reply (.refused m)⟩
  · exact ⟨_, _, reply (.state m clip f)⟩
  · exact ⟨_, _, congrArg (Host.Outcome.next ∘ s.passed)
      ((Plant.replyExpired_ends hz up sent timer last few).trans (Plant.endCommand_list _))⟩

/-! ## The port in use is lost (R161) -/

/-- R161, step 1: the channel's lists on the lost port and its join's outcome switch are gone, and a join at work has failed. -/
def Plant.portFreed (p : Plant) (c : Chan) (i : PortNo) : Plant :=
  if (p.unjoined c i).working c then (p.unjoined c i).failRecord c .timeout else p.unjoined c i

/-- R161, steps 2 and 3: the switch leaves LOCAL, or the open entry of the lost port ends. -/
def Plant.portGone (p : Plant) (c : Chan) (i : PortNo) : Plant :=
  if ((p.portFreed c i).chan c).switch = .onLocal then (p.portFreed c i).leaveServer c
  else match ((p.portFreed c i).chan c).openEntry with
    | some o =>
      if o.port = some i ∧ ((p.portFreed c i).chan c).endsOnFiller ((p.portFreed c i).chan c).switch o then
        (p.portFreed c i).closeEntry c .cut ((p.portFreed c i).nextLineFrame c)
      else p.portFreed c i
    | none => p.portFreed c i

section
variable (p : Plant) (c : Chan) (i : PortNo)

/-- R161: the record of a channel whose port in use is lost. -/
def Plant.lostRecord : Option TakeRec :=
  if p.working c then (p.chan c).takeRec.map (·.failed .timeout) else (p.chan c).takeRec

theorem Plant.portFreed_chan : (p.portFreed c i).chan c = { (p.chan c).unjoin with takeRec := p.lostRecord c } := by
  have own := p.unjoined_chan c i
  have working : (p.unjoined c i).working c = p.working c := by
    rw [Plant.working, Plant.working, Plant.stageOf, Plant.stageOf, own]
    rfl
  rw [Plant.portFreed, Plant.lostRecord, working]
  split
  · rw [Plant.failRecord, Plant.modTake, Plant.chan_modChan_same, own]
    rfl
  · exact own

theorem Plant.portFreed_outbox : (p.portFreed c i).outbox = p.outbox := by
  unfold Plant.portFreed
  split <;> rfl

@[simp] theorem Plant.portFreed_rest : (p.portFreed c i).rest = p.rest := by
  unfold Plant.portFreed
  split <;> simp

@[simp] theorem Plant.portFreed_around {b : Bool} : (p.portFreed c i).around c b = p.around c b := by
  unfold Plant.portFreed
  split <;> simp

@[simp] theorem Plant.portGone_rest : (p.portGone c i).rest = p.rest := by
  unfold Plant.portGone
  repeat' split
  all_goals simp

@[simp] theorem Plant.portGone_around {b : Bool} : (p.portGone c i).around c b = p.around c b := by
  unfold Plant.portGone
  repeat' split
  all_goals simp

theorem Plant.portFreed_line : (p.portFreed c i).nextLineFrame c = p.nextLineFrame c :=
  Plant.nextLineFrame_of_around (b := true) c (by simp) (by simp)

end

theorem Plant.dayLabel_of_around {p q : Plant} {c : Chan} {b : Bool} (hr : q.rest = p.rest) (h : q.around c b = p.around c b) (t : Nat) :
    q.dayLabel c t = p.dayLabel c t := by
  have steady := Plant.steady_of_around h
  simp only [Channel.steady, Prod.mk.injEq] at steady
  obtain ⟨-, base, config, -⟩ := steady
  simp only [Plant.dayLabel, Plant.family, Plant.config, base, config, Plant.ref_of_rest hr]

section
variable {p : Plant} {c : Chan} {i : PortNo}

/-- R161, step 2: with the switch at LOCAL. -/
theorem Plant.portGone_onLocal (h : (p.chan c).switch = .onLocal) {v : Plant} (hv : v = p.portGone c i) :
    v.chan c = { p.chan c with
      takeRec := p.lostRecord c
      openEntry := (p.chan c).openEntry.map fun o => { o with cutDue := o.cutDue || (p.chan c).fromServer o }
      pendingSw := [{ pos := .filler, frame := p.nextLineFrame c, cause := .portLoss, act := .plain }] } ∧
    v.outbox = p.outbox := by
  have own := p.portFreed_chan c i
  have switch : ((p.portFreed c i).chan c).switch = .onLocal := by rw [own]; exact h
  rw [Plant.portGone, if_pos switch, Plant.leaveServer_eq, Plant.portFreed_line] at hv
  subst hv
  refine ⟨?_, p.portFreed_outbox c i⟩
  rw [Plant.chan_modChan_same, Channel.markCut_on _ switch, own]
  rfl

/-- R161, step 3: with the switch elsewhere, the open entry of the lost port ends as FILLER ends it. -/
theorem Plant.portGone_closes (h : (p.chan c).switch ≠ .onLocal) {o : OpenEntry} (ho : (p.chan c).openEntry = some o)
    (hp : o.port = some i) (hk : (p.chan c).endsOnFiller (p.chan c).switch o = true) {v : Plant} (hv : v = p.portGone c i) :
    v.chan c = { p.chan c with
      takeRec := p.lostRecord c, openEntry := none, playlist := (v.chan c).playlist
      pendingSw := (p.chan c).pendingSw.filter fun w => !w.act.ofJoin } ∧
    v.outbox = p.outbox ++ [.asRun {
      channel := c, event := o.event, start := p.dayLabel c o.start, finish := p.dayLabel c (p.nextLineFrame c), kind := some o.kind
      exit := .cut, port := o.port }] := by
  have own := p.portFreed_chan c i
  generalize hu : p.portFreed c i = u at own
  have entry : (u.chan c).openEntry = some o := by rw [own]; exact ho
  have ends : (u.chan c).endsOnFiller (u.chan c).switch o = true := by
    rw [own]
    exact hk
  have label : ∀ t, u.dayLabel c t = p.dayLabel c t := fun t => by
    rw [← hu]
    exact Plant.dayLabel_of_around (p.portFreed_rest c i) (p.portFreed_around c i (b := true)) t
  have line : u.nextLineFrame c = p.nextLineFrame c := by rw [← hu, Plant.portFreed_line]
  rw [Plant.portGone, hu, if_neg (by rw [own]; exact h)] at hv
  simp only [entry, hp, ends, and_self, if_true] at hv
  obtain ⟨parts, -⟩ := u.closeEntry_parts c .cut (u.nextLineFrame c) hv
  rw [own] at parts
  refine ⟨parts, ?_⟩
  rw [hv, Plant.closeEntry]
  simp only [entry, label, line]
  rw [← p.portFreed_outbox c i, hu]
  rfl

/-- R161, log entry 71: with the switch elsewhere, every other entry stays open. -/
theorem Plant.portGone_stays (h : (p.chan c).switch ≠ .onLocal)
    (hk : ∀ o, (p.chan c).openEntry = some o → ¬(o.port = some i ∧ (p.chan c).endsOnFiller (p.chan c).switch o = true)) {v : Plant}
    (hv : v = p.portGone c i) :
    v.chan c = { p.chan c with
      takeRec := p.lostRecord c, pendingSw := (p.chan c).pendingSw.filter fun w => !w.act.ofJoin } ∧ v.outbox = p.outbox := by
  have own := p.portFreed_chan c i
  have same : v = p.portFreed c i := by
    rw [hv, Plant.portGone, if_neg (by rw [own]; exact h)]
    split
    · next o ho =>
      rw [own] at ho
      refine if_neg fun ends => ?_
      rw [own] at ends
      exact hk o ho ends
    · rfl
  rw [same]
  exact ⟨own, p.portFreed_outbox c i⟩

theorem coverAt_modEvent (l : List Event) (id t : Nat) (f : Event → Event) (h : ∀ e, (f e).covers t = e.covers t) :
    coverAt (modEvent l id f) t = (coverAt l t).map fun e => if e.id == id then f e else e := by
  rw [coverAt, modEvent, List.find?_map, coverAt]
  congr 2
  funext e
  by_cases he : (e.id == id) = true
  · simp [Function.comp, he, h]
  · simp [Function.comp, he]

/-- R165: an entry closed leaves every join allowed as it was. -/
theorem Plant.closeEntry_joins (p : Plant) (c : Chan) (exit : ExitKind) (finish : Nat) {tail t : Nat} {e : Event}
    (he : coverAt (p.chan c).playlist t = some e) (ha : joinRefusal tail t e = none) :
    ∃ e', coverAt ((p.closeEntry c exit finish).chan c).playlist t = some e' ∧ joinRefusal tail t e' = none := by
  unfold Plant.closeEntry
  split
  · exact ⟨e, he, ha⟩
  · next o h =>
    refine ⟨if e.id == o.event then { e with asRun := true } else e, ?_, ?_⟩
    · rw [Plant.modEvent, Plant.chan_modChan_same, Plant.chan_modChan_same]
      exact (coverAt_modEvent (p.chan c).playlist o.event t (fun e => { e with asRun := true }) fun _ => rfl).trans (by rw [he]; rfl)
    · split
      · exact ha
      · exact ha

theorem Plant.portGone_joins (p : Plant) (c : Chan) (i : PortNo) {tail t : Nat} {e : Event}
    (he : coverAt (p.chan c).playlist t = some e) (ha : joinRefusal tail t e = none) :
    ∃ e', coverAt ((p.portGone c i).chan c).playlist t = some e' ∧ joinRefusal tail t e' = none := by
  have own := p.portFreed_chan c i
  have freed : coverAt ((p.portFreed c i).chan c).playlist t = some e := by rw [own]; exact he
  unfold Plant.portGone
  split
  · refine ⟨e, ?_, ha⟩
    rw [Plant.leaveServer_eq, Plant.chan_modChan_same]
    unfold Channel.markCut
    split <;> exact freed
  · split
    · split
      · exact Plant.closeEntry_joins _ c _ _ freed ha
      · exact ⟨e, freed, ha⟩
    · exact ⟨e, freed, ha⟩

/-- R161: what a lost port leaves of the channel, whatever the switch and the open entry. -/
theorem Plant.portGone_chan {v : Plant} (hv : v = p.portGone c i) : v.chan c = { p.chan c with
    takeRec := p.lostRecord c, openEntry := (v.chan c).openEntry, playlist := (v.chan c).playlist
    pendingSw := (v.chan c).pendingSw } := by
  by_cases h : (p.chan c).switch = .onLocal
  · rw [(Plant.portGone_onLocal h hv).1]
  · by_cases hk : ∃ o, (p.chan c).openEntry = some o ∧ o.port = some i ∧ (p.chan c).endsOnFiller (p.chan c).switch o = true
    · obtain ⟨o, ho, hp, ends⟩ := hk
      rw [(Plant.portGone_closes h ho hp ends hv).1]
    · rw [(Plant.portGone_stays h (fun o ho ends => hk ⟨o, ho, ends⟩) hv).1]

theorem Plant.portGone_pending {v : Plant} (hv : v = p.portGone c i) : (v.chan c).pendingSw =
    if (p.chan c).switch = .onLocal then [{ pos := .filler, frame := p.nextLineFrame c, cause := .portLoss, act := .plain }]
    else (p.chan c).pendingSw.filter fun w => !w.act.ofJoin := by
  by_cases h : (p.chan c).switch = .onLocal
  · rw [if_pos h, (Plant.portGone_onLocal h hv).1]
  · rw [if_neg h]
    by_cases hk : ∃ o, (p.chan c).openEntry = some o ∧ o.port = some i ∧ (p.chan c).endsOnFiller (p.chan c).switch o = true
    · obtain ⟨o, ho, hp, ends⟩ := hk
      rw [(Plant.portGone_closes h ho hp ends hv).1]
    · rw [(Plant.portGone_stays h (fun o ho ends => hk ⟨o, ho, ends⟩) hv).1]

/-- R161: the open entry where the switch leaves LOCAL. -/
theorem Plant.portGone_cut (h : (p.chan c).switch = .onLocal) {cut : Option OpenEntry} (cutNone : (p.chan c).openEntry = none → cut = none)
    (cutSome : ∀ o, (p.chan c).openEntry = some o → cut = some { o with cutDue := o.cutDue || (p.chan c).fromServer o }) {v : Plant}
    (hv : v = p.portGone c i) : (v.chan c).openEntry = cut ∧ v.entries = p.entries := by
  obtain ⟨chan, outbox⟩ := Plant.portGone_onLocal h hv
  refine ⟨?_, congrArg (List.filterMap _) outbox⟩
  rw [chan]
  cases ho : (p.chan c).openEntry with
  | none => exact (cutNone ho).symm
  | some o => exact (cutSome o ho).symm

/-- An entry's event, where it is on the playlist, is a CLIP. -/
theorem Channel.fromServer_of {x : Channel} {o : OpenEntry} {i : PortNo} (hp : o.port = some i) (hk : o.kind ≠ .filler)
    (he : ∀ e, findEvent x.playlist o.event = some e → e.kind = .clip) : x.fromServer o = true := by
  have clip : (findEvent x.playlist o.event).all (fun e => e.kind == .clip) = true := by
    cases h : findEvent x.playlist o.event with
    | none => rfl
    | some e => exact beq_iff_eq.mpr (he e h)
  simp [Channel.fromServer, hp, hk, clip]

section
variable (hh : ∀ j, (p.port j).holder ≠ some c)
include hh

theorem Plant.spareAnew_gone : (p.portGone c i).spareAnew c = (p.portGone c i).requestSpare c := by
  have none : (p.portGone c i).heldSpare c = none := Plant.heldSpare_none.mpr fun j => by
    rw [Plant.holder_of_around (p.portGone_around c i)]
    exact hh j
  rw [Plant.spareAnew, none]

theorem Plant.portLost_eq : p.portLost c i = match (p.portGone c i).requestSpare c with
    | (q, some s) => ((q.usePort c (some s)).tellFailed c .joinFailed .localJoin .timeout i).localJoinOn c s
    | (q, none) => (((q.usePort c none).tellFailed c .joinFailed .localJoin .timeout i).tryPrimary c).wakeCue c := by
  rw [← Plant.spareAnew_gone hh] <;> rfl

theorem Plant.portLost_waits {q : Plant} (h : (p.portGone c i).requestSpare c = (q, none)) :
    p.portLost c i = (((q.usePort c none).tellFailed c .joinFailed .localJoin .timeout i).tryPrimary c).wakeCue c := by
  rw [Plant.portLost_eq hh, h]

theorem Plant.portLost_lends {q : Plant} {s : PortNo} (h : (p.portGone c i).requestSpare c = (q, some s)) :
    p.portLost c i = ((q.usePort c (some s)).tellFailed c .joinFailed .localJoin .timeout i).localJoinOn c s := by
  rw [Plant.portLost_eq hh, h]

end

end

/-- R162: a channel whose primary port is not UP waits on. -/
theorem Plant.tryPrimary_down {p : Plant} {c : Chan} {i : PortNo} (hp : p.primary c = some i) (down : (p.port i).state ≠ .up) :
    p.tryPrimary c = p := by
  simp only [Plant.tryPrimary, hp, down, false_and, and_false, if_false]

/-- R161, step 4: with no spare to be lent and the primary port not UP, the channel waits with no port in use. -/
theorem Plant.portLost_unlent {p : Plant} {c : Chan} {g : ChannelConfig} {i : PortNo} (hg : (p.chan c).config = some g)
    (due : p.NoneDue c) (hh : ∀ j, (p.port j).holder ≠ some c) (hc : c ∉ p.spareQueue) (none : ∀ j, ¬p.Lendable g j)
    (down : (p.port g.primary).state ≠ .up) {q : Plant} (hq : q = p.portLost c i) :
    q.chan c = { (p.portGone c i).chan c with portInUse := .none } ∧ q.spareQueue = p.spareQueue ++ [c] ∧
    q.outbox = (p.portGone c i).outbox ++
      [.notice ⟨.joinFailed, some c, u8 3 ++ u8 FailReason.timeout.code ++ u8 i.val ++ u8 1⟩] ∧
    q.around c false = p.around c false := by
  have own := Plant.portGone_chan (p := p) (c := c) (i := i) rfl
  have around := p.portGone_around c i (b := true)
  have queue := Plant.spareQueue_of_around around
  have waits := Plant.requestSpare_waits (p := p.portGone c i) (c := c) (g := g) (by rw [own]; exact hg)
    (fun j => by rw [Plant.holder_of_around around]; exact hh j) (by rw [queue]; exact hc)
    fun j h => none j ((Plant.lendable_of_around around g j).mp h)
  rw [Plant.portLost_waits hh waits] at hq
  generalize p.portGone c i = v at own around queue hq ⊢
  generalize hw : (({ v with spareQueue := v.spareQueue ++ [c] } : Plant).usePort c .none).tellFailed c .joinFailed .localJoin .timeout i
    = w at hq
  have chan : w.chan c = { v.chan c with portInUse := .none } := by
    rw [← hw]
    exact Plant.usePort_chan _ c .none
  have quiet : w.NoneDue c := by
    rw [Plant.NoneDue, chan, own]
    exact due
  have primary : w.primary c = some g.primary := Plant.primary_of_config (by rw [chan, own]; exact hg)
  have state : (w.port g.primary).state ≠ .up := by
    rw [← hw]
    exact fun h => down ((Plant.state_of_around around g.primary).symm.trans h)
  have same : q = w := by
    rw [hq, Plant.tryPrimary_down primary state, Plant.wakeCue, chan]
    exact Plant.takeHeads_quiet quiet
  rw [same]
  have keeps : w.around c false = p.around c false := by
    rw [← hw, ← Plant.around_all around false]
    simp
  refine ⟨chan, by rw [← hw, ← queue]; rfl, ?_, keeps⟩
  have told : (({ v with spareQueue := v.spareQueue ++ [c] } : Plant).usePort c .none).waits c = true := by
    simp [Plant.waits, Plant.usePort, Plant.modChan, Plant.setChan]
  rw [← hw, Plant.tellFailed, told]
  rfl

/-- R161, step 4: with a spare to be lent, a local join begins on it. -/
theorem Plant.portLost_lent {p : Plant} {c : Chan} {g : ChannelConfig} {i s : PortNo} (hg : (p.chan c).config = some g)
    (hh : ∀ j, (p.port j).holder ≠ some c) (hc : c ∉ p.spareQueue) (lend : p.Lendable g s)
    (low : ∀ j : PortNo, j.val < s.val → ¬p.Lendable g j) {q : Plant} (hq : q = p.portLost c i) :
    ∃ w : Plant, q = w.localJoinOn c s ∧ w.chan c = { (p.portGone c i).chan c with portInUse := some s } ∧
      (w.port s).holder = some c ∧ w.spareQueue = p.spareQueue ∧ w.rest = p.rest ∧ w.around c false = p.around c false ∧
      w.outbox = (p.portGone c i).outbox ++ [.notice ⟨.spareGranted, some c, u8 s.val⟩,
        .notice ⟨.joinFailed, some c, u8 3 ++ u8 FailReason.timeout.code ++ u8 i.val ++ u8 0⟩] := by
  have own := Plant.portGone_chan (p := p) (c := c) (i := i) rfl
  have around := p.portGone_around c i (b := true)
  have queue := Plant.spareQueue_of_around around
  have lends := Plant.requestSpare_lends (p := p.portGone c i) (c := c) (g := g) (by rw [own]; exact hg)
    (fun j => by rw [Plant.holder_of_around around]; exact hh j) (by rw [queue]; exact hc)
    ((Plant.lendable_of_around around g s).mpr lend) fun j hj h => low j hj ((Plant.lendable_of_around around g j).mp h)
  have lost := hq.trans (Plant.portLost_lends hh lends)
  have rest := p.portGone_rest c i
  generalize p.portGone c i = v at own around queue lost rest ⊢
  generalize hu : (v.lend c s).usePort c (some s) = u at lost
  have told : u.waits c = false := by
    refine Bool.eq_false_iff.mpr fun h => hc ?_
    rw [← queue]
    rw [← hu] at h
    exact List.contains_iff_mem.mp h
  refine ⟨_, lost, ?_, ?_, ?_, ?_, ?_, ?_⟩
  · rw [Plant.tellFailed_chan, ← hu, Plant.usePort_chan, Plant.lend_chan]
  · rw [← hu]
    exact congrArg Port.holder (v.lend_port_same c s)
  · rw [← hu, ← queue]
    rfl
  · rw [← hu, ← rest]
    simp
  · rw [← hu, ← Plant.around_all around false]
    simp
  · have outbox : u.outbox = v.outbox ++ [.notice ⟨.spareGranted, some c, u8 s.val⟩] := by
      rw [← hu]
      rfl
    rw [Plant.tellFailed, told]
    refine (congrArg (· ++ [Outgoing.notice ⟨.joinFailed, some c, u8 3 ++ u8 FailReason.timeout.code ++ u8 i.val ++ u8 0⟩])
      outbox).trans ?_
    rw [List.append_assoc]
    rfl

/-- R163: what is pending once a join in local running is allowed. -/
theorem Plant.localJoinOn_pending {p : Plant} {c : Chan} {g : ChannelConfig} {s : PortNo} {t : Nat} {e : Event}
    (hg : (p.chan c).config = some g) (hm : (p.chan c).mode ≠ .taking) (ht : t = (p.chan c).now + g.cueLead + (p.port s).preroll)
    (he : coverAt (p.chan c).playlist t = some e) (ha : joinRefusal g.tailGuard t e = none) {q : Plant} (hq : q = p.localJoinOn c s) :
    (q.chan c).pendingSw = (if p.nextLineFrame c < t then (p.chan c).startLocal.pendingSw.filter (fun w => decide (w.frame < t)) else []) ++
      [{ pos := .onLocal, frame := t, cause := .take, act := .joinLocal }] := by
  have own := p.startLocalRec_chan c
  have conf : ((p.startLocalRec c).chan c).config = some g := by rw [own]; exact hg
  have line : (p.startLocalRec c).nextLineFrame c = p.nextLineFrame c := by
    refine Plant.nextLineFrame_congr c rfl ?_ ?_ ?_ <;> rw [own] <;> rfl
  have keeps : (p.startLocalRec c).kept c = (p.chan c).startLocal.pendingSw := by
    rw [Plant.kept, if_neg (by rw [own]; exact fun h => hm h.1), own]
  obtain ⟨w, eq, -, -, pending, -⟩ := Plant.coldJoin_on (p := p.startLocalRec c) (c := c) (t := t) (e := e) rfl
    (by rw [own]; rfl) s (p.chan c).now .joining (by rw [Plant.conf_of_config conf]; exact ht) (by rw [own]; exact he)
    (by rw [Plant.conf_of_config conf]; exact ha)
  have chan : q.chan c = w.chan c := by rw [hq, show p.localJoinOn c s = _ from eq, Plant.handList_chan]
  rw [chan, pending, line, keeps]

/-- R162: a channel that waits with its primary port UP leaves the queue and begins a local join there. -/
theorem Plant.tryPrimary_up {p : Plant} {c : Chan} {g : ChannelConfig} (hg : (p.chan c).config = some g)
    (hm : (p.chan c).mode.running = true) (hc : c ∈ p.spareQueue) (up : (p.port g.primary).state = .up) :
    p.tryPrimary c = ((p.leaveQueue c).usePort c (some g.primary)).localJoinOn c g.primary := by
  have waits : p.waits c = true := List.contains_iff_mem.mpr hc
  simp only [Plant.tryPrimary, Plant.primary_of_config hg, waits, up, hm, and_self, if_true]

theorem Plant.working_of_stage {p : Plant} {c : Chan} {k : TakeRec} (hk : (p.chan c).takeRec = some k)
    (h : k.stage = .verifying ∨ k.stage = .joining ∨ k.stage = .rejoining) : p.working c = true := by
  have stage : p.stageOf c = some k.stage := by rw [Plant.stageOf, hk]; rfl
  rcases h with h | h | h <;> rw [Plant.working, stage, h]

theorem Plant.entries_item {p q : Plant} {e : AsRunItem} (h : q.outbox = p.outbox ++ [.asRun e]) : q.entries = p.entries ++ [e] := by
  rw [Plant.entries, h, List.filterMap_append]
  rfl

/-- R161: a port in use is lost in local running. -/
theorem Plant.reportLoss_running {p : Plant} {c : Chan} {i : PortNo} (hm : (p.chan c).mode.running = true)
    (hi : (p.chan c).portInUse = some i) : p.reportLoss i (some c) = p.portLost c i := by
  have orphaned : (p.chan c).mode ≠ .orphaned := fun h => by
    rw [h] at hm
    exact absurd hm (by decide)
  simp only [Plant.reportLoss, orphaned, false_and, if_false, hi, ne_eq, not_true_eq_false, hm, if_true]

/-! ## The obligation -/

/-- Settles O52: a HOT take's start and verdict, the loss of the port in use, and the way back to the primary port. -/
theorem hotTakeVerifies : Obligations.HotTakeVerifies := by
  unfold Obligations.HotTakeVerifies
  refine ⟨?_, ?_, ?_⟩
  · intro tag n cmd kind o body code s c x g i z line had hx hn shape hm hg hot hi hz up out shift only hl
    subst hx
    rw [← Plant.nextLineFrame_of_config hg] at hl
    subst hl
    obtain ⟨-, known⟩ := take_or_confirm had shape
    obtain ⟨-, -, begins⟩ := known hn
    rw [begins hm, hotTake hg hot hi hz up out shift only kind o]
    rfl
  · intro s c x g i z k cmd o v hx hm hg hk stage hi sole hz up sent timer claim shift cue pass held hcmd verdict line kept hl hkept
    subst hx
    rw [← Plant.nextLineFrame_of_config hg] at hl
    subst hl
    obtain ⟨rx, timeouts, ran⟩ := exec_verify hz up sent timer hcmd
    generalize hy : ({ z.endCommand with rx := rx, timeouts := timeouts } : Port) = y at ran
    generalize hp : s.plant.setPort i y = p at ran
    generalize hq : (p.listOutcome c i .verify true .ask o).settlePort i = q at ran
    have chan : p.chan c = s.plant.chan c := by rw [← hp]; rfl
    have line : p.nextLineFrame c = s.plant.nextLineFrame c := by rw [← hp]; rfl
    obtain ⟨own, course, hold, queue, outbox, still, others, use, verified, fails⟩ := verifyEnds (p := p) (c := c) (g := g) (i := i)
      (z := y) (k := k) (o := o) (v := v) (by rw [chan]; exact hm) (by rw [chan]; exact hg) (by rw [chan]; exact hk)
      (by rw [← hp]; exact sole) (by rw [← hp, Plant.port_setPort_same]) (by rw [← hy]; exact up) (by rw [← hy]; rfl)
      (by rw [← hy]; exact shift) (by rw [← hy]; exact held)
      (by
        rw [← hy]
        intro l hl
        rw [show ({ z.endCommand with rx := rx, timeouts := timeouts } : Port).claim = z.claim from rfl, claim,
          List.mem_singleton] at hl
        rw [hl])
      (by rw [← hy]; exact cue) (by rw [← hy]; exact pass) (by rw [chan]; exact verdict)
      (kept := kept) (by rw [hkept, chan, line]) hq.symm
    rw [chan] at own course verified fails
    rw [line] at verified fails
    refine ⟨q, q.chan c, ran, rfl, own, course, by rw [hold, ← hp]; rfl, by rw [queue, ← hp]; rfl, by rw [outbox, ← hp]; rfl, ?_,
      fun d hd => by rw [others d hd, ← hp]; rfl, fun j hj slot out => ?_, verified, ?_⟩
    · rw [← hp] at still
      exact ⟨still.refA, still.refB, still.templates, still.link0, still.link1, still.hbTimeout, still.heartbeat, still.pulseMem,
        still.probeFlags, still.probeRx, still.mainDay⟩
    · have other : p.port j = s.plant.port j := by rw [← hp, Plant.port_setPort_other _ _ hj]
      rw [← other] at slot out ⊢
      exact use j hj slot out
    · subst hy
      exact fails
  · intro p c x g i line kept label hx hg hm hl hkept hlabel
    subst hx
    rw [← Plant.nextLineFrame_of_config hg] at hl
    subst hl hkept
    have running : (p.chan c).mode.running = true := by rcases hm with h | h <;> rw [h] <;> rfl
    have taking : (p.chan c).mode ≠ .taking := fun h => by
      rw [h] at running
      exact absurd running (by decide)
    have lendable : (∀ s, (p.port s).role = .spare → (p.port s).state = .up → (p.port s).holder = none →
        g.spares.testBit s.val = false) → ∀ j, ¬p.Lendable g j := fun none j ⟨role, state, holder, bit⟩ => by
      rw [none j role state holder] at bit
      exact Bool.false_ne_true bit
    refine ⟨fun hi due hh hc q cut hq cutNone cutSome => ?_, fun hc up q hq => ?_⟩
    · have lost : p.reportLoss i (some c) = p.portLost c i := Plant.reportLoss_running running hi
      have still : p.Still q := Plant.still_of_rest (by rw [hq]; simp)
      refine ⟨fun none down => ?_, fun s role state holder bit low => ?_⟩
      · obtain ⟨own, queue, outbox, around⟩ := Plant.portLost_unlent hg due hh hc (lendable none) down (hq.trans lost)
        have gone := Plant.portGone_chan (p := p) (c := c) (i := i) rfl
        have pending := Plant.portGone_pending (p := p) (c := c) (i := i) rfl
        have cutEntry := fun h => Plant.portGone_cut (p := p) (c := c) (i := i) h cutNone cutSome rfl
        have closes := fun h o ho hp ends => Plant.portGone_closes (p := p) (c := c) (i := i) h (o := o) ho hp ends rfl
        have stays := fun h hk => Plant.portGone_stays (p := p) (c := c) (i := i) h hk rfl
        generalize p.portGone c i = v at own outbox gone pending cutEntry closes stays
        have entries : q.entries = v.entries := Plant.Tells.entries ⟨[_], outbox⟩
        refine ⟨by rw [own, gone], by rw [own, gone], by rw [own], by rw [own, gone], queue, still,
          Plant.otherChans_of_around around, Plant.mem_notices.mpr ?_,
          fun k hk stage => ?_, fun h => ?_, fun h => ⟨?_, fun o ho hp hk left clip => ?_, fun stands => ?_⟩⟩
        · rw [outbox]
          exact List.mem_append_right _ (List.mem_singleton_self _)
        · rw [own, gone, Plant.lostRecord, if_pos (Plant.working_of_stage hk stage), hk]
          rfl
        · rw [own, entries]
          exact ⟨(cutEntry h).1, (cutEntry h).2, by rw [pending, if_pos h]⟩
        · rw [own, pending, if_neg h]
        · have ends : (p.chan c).endsOnFiller (p.chan c).switch o = true := by
            simp only [Channel.endsOnFiller, Channel.fromServer_of hp hk clip, Bool.true_and, Bool.or_eq_true, bne_iff_ne, beq_iff_eq]
            exact left
          obtain ⟨closed, listed⟩ := closes h o ho hp ends
          refine ⟨by rw [own, closed], ?_⟩
          rw [entries, hlabel, hlabel]
          exact Plant.entries_item listed
        · obtain ⟨open', same⟩ := stays h fun o ho ⟨hp, ends⟩ => by
            rcases stands o ho with h | h | ⟨h, k⟩ | ⟨e, he, k⟩
            · exact h hp
            · simp [Channel.endsOnFiller, Channel.fromServer, h] at ends
            · simp [Channel.endsOnFiller, h, k] at ends
            · simp [Channel.endsOnFiller, Channel.fromServer, he, k] at ends
          rw [own, open', entries]
          exact ⟨rfl, congrArg (List.filterMap _) same⟩
      · obtain ⟨w, eq, chan, holder, queue, rest, around, outbox⟩ := Plant.portLost_lent hg hh hc ⟨role, state, holder, bit⟩
          (fun j hj ⟨role, state, holder, bit⟩ => by
            rw [low j hj role state holder] at bit
            exact Bool.false_ne_true bit) (hq.trans lost)
        obtain ⟨cursor, m, joined, record, kind, stage, port, result, -⟩ := Plant.localJoinOn_joined s eq
        have gone := Plant.portGone_chan (p := p) (c := c) (i := i) rfl
        have pending := Plant.portGone_pending (p := p) (c := c) (i := i) rfl
        have cutEntry := fun h => Plant.portGone_cut (p := p) (c := c) (i := i) h cutNone cutSome rfl
        have stays := fun h hk => Plant.portGone_stays (p := p) (c := c) (i := i) h hk rfl
        have covers := fun {t e} => Plant.portGone_joins p c i (tail := g.tailGuard) (t := t) (e := e)
        generalize p.portGone c i = v at outbox chan gone pending cutEntry stays covers
        have own := joined.chan
        rw [chan] at own
        have sent : q.outbox = v.outbox ++ [.notice ⟨.spareGranted, some c, u8 s.val⟩,
            .notice ⟨.joinFailed, some c, u8 3 ++ u8 FailReason.timeout.code ++ u8 i.val ++ u8 0⟩] := joined.outbox.trans outbox
        have entries : q.entries = v.entries := Plant.Tells.entries ⟨[_, _], sent⟩
        have keeps : q.around c true = w.around c true := by rw [eq]; simp
        have line : w.nextLineFrame c = p.nextLineFrame c := Plant.nextLineFrame_of_around c rest around
        have preroll := Plant.preroll_of_around around s
        refine ⟨by rw [own, gone], by rw [own, gone], by rw [own], by rw [Plant.holder_of_around keeps, holder],
          by rw [Plant.spareQueue_of_around keeps, queue], by rw [own], ⟨m, record, kind, stage, port, result⟩,
          Plant.mem_notices.mpr ?_, Plant.mem_notices.mpr ?_, still,
          Plant.otherChans_of_around ((Plant.around_all keeps false).trans around), fun h => ?_, fun h noStart => ?_,
          fun t e ht he ha => ?_⟩
        · rw [sent]
          exact List.mem_append_right _ List.mem_cons_self
        · rw [sent]
          exact List.mem_append_right _ (List.mem_cons_of_mem _ List.mem_cons_self)
        · rw [own, entries]
          exact cutEntry h
        · obtain ⟨open', same⟩ := stays (by rw [h]; decide) fun o ho ⟨_, ends⟩ => by
            rw [h, Channel.endsOnFiller_kept _ _ (noStart o ho)] at ends
            exact Bool.false_ne_true ends
          rw [own, open', entries]
          exact ⟨rfl, congrArg (List.filterMap _) same⟩
        · obtain ⟨e', he', ha'⟩ := covers he ha
          have joins := Plant.localJoinOn_pending (g := g) (t := t) (e := e') (by rw [chan, gone]; exact hg)
            (by rw [chan, gone]; exact taking) (by rw [chan, gone, preroll]; exact ht) (by rw [chan]; exact he') ha' eq
          rw [line, chan] at joins
          rw [joins, Channel.startLocal]
          simp only [pending] <;> rfl
    · have eq := hq.trans (Plant.tryPrimary_up hg running hc up)
      have around : q.around c false = p.around c false := by rw [eq]; simp
      obtain ⟨cursor, m, joined, record, kind, stage, port, result, -⟩ := Plant.localJoinOn_joined g.primary eq
      have chan := joined.chan
      rw [Plant.usePort_chan, Plant.leaveQueue_chan] at chan
      have queue : q.spareQueue = p.spareQueue.filter (· != c) := by
        rw [eq]
        exact Plant.spareQueue_of_around (c := c) (Plant.localJoinOn_around _ c g.primary)
      refine ⟨by rw [chan], by rw [chan], by rw [chan], ?_, by rw [chan], ⟨m, record, kind, stage, port, result⟩, ?_,
        Plant.still_of_rest (by rw [eq]; simp), Plant.otherChans_of_around around⟩
      · rw [queue]
        simp
      · rw [Plant.notices, joined.outbox]
        rfl

end Sys2Proof.Machine
end

