-- ==== Sys2Proof/Proofs/Templates.lean ====
section
/-! PROOFS. SET TEMPLATE (R115, R116). -/

namespace Sys2Proof.Machine

/-! ## The fields of a step -/

theorem Anchor.ofCode_eq (n : Nat) : Anchor.ofCode n = [Anchor.start, .rollPoint, .finish][n]? := by
  match n with
  | 0 | 1 | 2 => rfl
  | n + 3 => rfl

theorem Cond.ofCode_eq (n : Nat) : Cond.ofCode n = [Cond.always, .ifDone, .ifNotDone, .ifCued, .ifRolling, .ifTimeout][n]? := by
  match n with
  | 0 | 1 | 2 | 3 | 4 | 5 => rfl
  | n + 6 => rfl

theorem DevMode.ofCode_eq (n : Nat) : DevMode.ofCode n = [DevMode.idle, .cued, .rolling, .stopped, .fault][n]? := by
  match n with
  | 0 | 1 | 2 | 3 | 4 => rfl
  | n + 5 => rfl

theorem Mismatch.ofCode_eq (n : Nat) : Mismatch.ofCode n = [Mismatch.ignore, .skipEvent, .halt][n]? := by
  match n with
  | 0 | 1 | 2 => rfl
  | n + 3 => rfl

theorem yesNo_eq (n : Nat) : yesNo n = [false, true][n]? := by
  match n with
  | 0 | 1 => rfl
  | n + 2 => rfl

/-- R115: the six commands, each with the argument that suits it. -/
theorem sendBody_iff (k g : Nat) (const : Option (List Byte)) (b : StepBody) : sendBody k g const = some b ↔
    (k = 0 ∧ g = 1 ∧ const = none ∧ b = .sendSelect) ∨ (k = 1 ∧ g = 2 ∧ const = none ∧ b = .sendPoint) ∨
    (k = 2 ∧ g = 0 ∧ const = none ∧ b = .sendRoll) ∨ (k = 3 ∧ g = 0 ∧ const = none ∧ b = .sendStop) ∨
    (k = 4 ∧ g = 3 ∧ ∃ bytes, const = some bytes ∧ bytes.length ≤ 8 ∧ b = .sendAux bytes) ∨
    (k = 5 ∧ g = 0 ∧ const = none ∧ b = .sendAsk) := by
  constructor
  · intro h
    unfold sendBody at h
    split at h <;> simp_all
  · rintro (⟨rfl, rfl, rfl, rfl⟩ | ⟨rfl, rfl, rfl, rfl⟩ | ⟨rfl, rfl, rfl, rfl⟩ | ⟨rfl, rfl, rfl, rfl⟩ | ⟨rfl, rfl, bytes, rfl, short, rfl⟩ |
      ⟨rfl, rfl, rfl, rfl⟩)
    · rfl
    · rfl
    · rfl
    · rfl
    · exact if_pos short
    · rfl

/-- R115: what a step of each kind sends or checks. -/
theorem stepBody_iff (r : RawStep) (b : StepBody) : stepBody r = some b ↔
    (r.kind = 0 ∧ r.expected = none ∧ r.clipMatch = none ∧ r.onMismatch = none ∧ ∃ k g, r.command = some k ∧ r.argument = some g ∧
      sendBody k g r.constant = some b) ∨
    (r.kind = 1 ∧ r.command = none ∧ r.argument = none ∧ r.constant = none ∧ ∃ m k x mode clip action, r.expected = some m ∧
      r.clipMatch = some k ∧ r.onMismatch = some x ∧ [DevMode.idle, .cued, .rolling, .stopped, .fault][m]? = some mode ∧
      [false, true][k]? = some clip ∧ [Mismatch.ignore, .skipEvent, .halt][x]? = some action ∧ b = .verify mode clip action) := by
  constructor
  · intro h
    unfold stepBody at h
    split at h
    · next c g hk hc hg he hm ho => exact Or.inl ⟨hk, he, hm, ho, c, g, hc, hg, h⟩
    · next m k x hk hc hg he hm ho =>
      split at h
      · next mode clip action em ek ex hconst =>
        rw [DevMode.ofCode_eq] at em
        rw [yesNo_eq] at ek
        rw [Mismatch.ofCode_eq] at ex
        exact Or.inr ⟨hk, hc, hg, hconst, m, k, x, mode, clip, action, he, hm, ho, em, ek, ex, (Option.some.inj h).symm⟩
      · cases h
    · cases h
  · rintro (⟨hk, he, hm, ho, k, g, hc, hg, h⟩ | ⟨hk, hc, hg, hconst, m, k, x, mode, clip, action, he, hm, ho, em, ek, ex, rfl⟩)
    · simp only [stepBody, hk, he, hm, ho, hc, hg, h]
    · rw [← DevMode.ofCode_eq] at em
      rw [← yesNo_eq] at ek
      rw [← Mismatch.ofCode_eq] at ex
      simp only [stepBody, hk, he, hm, ho, hc, hg, hconst, em, ek, ex]

/-- R115: a step in form, field by field. -/
theorem stepOf_iff (r : RawStep) (st : Step) : stepOf r = some st ↔
    st.offset = r.offset ∧ -3000 ≤ r.offset ∧ r.offset ≤ 3000 ∧ st.repeats = r.repeats ∧ r.repeats ≤ 15 ∧
    st.spacing = r.spacing ∧ 1 ≤ r.spacing ∧ r.spacing ≤ 255 ∧
    [Anchor.start, .rollPoint, .finish][r.anchor]? = some st.anchor ∧
    [Cond.always, .ifDone, .ifNotDone, .ifCued, .ifRolling, .ifTimeout][r.condition]? = some st.cond ∧
    stepBody r = some st.body := by
  rw [← Anchor.ofCode_eq, ← Cond.ofCode_eq]
  constructor
  · intro h
    unfold stepOf at h
    split at h
    · next b n k hb hn hk =>
      split at h
      · next ranges =>
        obtain rfl := Option.some.inj h
        obtain ⟨low, high, repeats, spacing, wide⟩ := ranges
        exact ⟨rfl, low, high, rfl, repeats, rfl, spacing, wide, hn, hk, hb⟩
      · cases h
    · cases h
  · obtain ⟨body, anchor, offset, cond, repeats, spacing⟩ := st
    rintro ⟨rfl, low, high, rfl, few, rfl, apart, wide, hn, hk, hb⟩
    simp only [stepOf, hb, hn, hk]
    exact if_pos ⟨low, high, few, apart, wide⟩

/-- R115: a field out of its range, or a field of the other kind, leaves a step out of form. -/
theorem stepOf_none {r : RawStep} (h : r.offset < -3000 ∨ 3000 < r.offset ∨ 15 < r.repeats ∨ r.spacing < 1 ∨ 255 < r.spacing ∨
    2 < r.anchor ∨ 5 < r.condition ∨ 1 < r.kind ∨ (r.kind = 1 ∧ (r.command ≠ none ∨ r.argument ≠ none))) : stepOf r = none := by
  refine Option.eq_none_iff_forall_not_mem.mpr fun st hst => ?_
  obtain ⟨-, low, high, -, few, -, apart, wide, hn, hk, hb⟩ := (stepOf_iff r st).mp hst
  have anchor := (List.getElem?_eq_some_iff.mp hn).1
  have cond := (List.getElem?_eq_some_iff.mp hk).1
  simp only [List.length_cons, List.length_nil] at anchor cond
  have kind := (stepBody_iff r st.body).mp hb
  rcases h with h | h | h | h | h | h | h | h | ⟨h, fields⟩
  · omega
  · omega
  · omega
  · omega
  · omega
  · omega
  · omega
  · rcases kind with ⟨hk, -⟩ | ⟨hk, -⟩ <;> omega
  · rcases kind with ⟨hk, -⟩ | ⟨-, hc, hg, -⟩
    · omega
    · exact fields.elim (fun f => f hc) fun f => f hg

/-- A list is read as a whole exactly where each of its members is. -/
theorem mapM_eq_some_iff {α β : Type} (f : α → Option β) (l : List α) (k : List β) : l.mapM f = some k ↔ l.map f = k.map some := by
  induction l generalizing k with
  | nil => cases k <;> simp
  | cons a l ih =>
    cases ha : f a with
    | none => cases k <;> simp [List.mapM_cons, ha]
    | some b =>
      have step : (a :: l).mapM f = some k ↔ ∃ m, l.mapM f = some m ∧ b :: m = k := by
        simp [List.mapM_cons, ha, Option.bind_eq_some_iff]
      rw [step]
      cases k with
      | nil => simp
      | cons d k => simp [ih, ha, and_comm]

/-! ## SET TEMPLATE -/

/-- R115: what SET TEMPLATE refuses. -/
theorem setTemplate_refuses {a : SetTemplateArgs} (p : Plant)
    (h : 31 < a.template ∨ a.steps = [] ∨ 8 < a.steps.length ∨ ∃ r ∈ a.steps, stepOf r = none) :
    setTemplate a p = p.refuse .badArgument := by
  unfold setTemplate
  split
  · next number =>
    split
    · next steps hs =>
      refine if_neg fun ⟨some', few⟩ => ?_
      have all := (mapM_eq_some_iff stepOf a.steps steps).mp hs
      have length : a.steps.length = steps.length := by simpa using congrArg List.length all
      rcases h with h | h | h | ⟨r, hr, h⟩
      · omega
      · rw [h] at length
        exact absurd length (by simp only [List.length_nil]; omega)
      · omega
      · have m : none ∈ steps.map some := by
          rw [← all, ← h]
          exact List.mem_map_of_mem hr
        simp at m
    · rfl
  · rfl

/-- R115, R116: the plant with the template loaded, before the Cue Sequencers consider their queues. -/
def Plant.loaded (p : Plant) (n : Nat) (h : n < 32) (steps : List Step) : Plant :=
  { p with templates := p.templates.set n steps, chans := p.chans.map (Channel.retemplate n) }

theorem setTemplate_loads {a : SetTemplateArgs} (p : Plant) {steps : List Step} (h : a.template < 32) (hs : a.steps ≠ [])
    (few : a.steps.length ≤ 8) (all : a.steps.map stepOf = steps.map some) :
    setTemplate a p = (allChans.foldl (fun r c => p.wakeAfter r c) (p.loaded a.template h steps),
      reply .ok (u8 a.template ++ u8 a.steps.length)) := by
  have length : steps.length = a.steps.length := by simpa using (congrArg List.length all).symm
  have some' : 1 ≤ steps.length := by
    rw [length]
    exact List.length_pos_iff.mpr hs
  unfold setTemplate
  rw [dif_pos h]
  simp only [(mapM_eq_some_iff stepOf a.steps steps).mpr all]
  rw [if_pos ⟨some', length ▸ few⟩, length]
  rfl

/-! ## The Cue Sequencers consider their queues -/

theorem Plant.takeHeads_spareQueue (p : Plant) (c : Chan) : (p.takeHeads c).spareQueue = p.spareQueue :=
  Plant.spareQueue_of_around (p.takeHeads_around c)

theorem Plant.wakeCue_spareQueue (p : Plant) (c : Chan) : (p.wakeCue c).spareQueue = p.spareQueue := by
  unfold Plant.wakeCue
  split
  · exact (p.settlePort_spares _).2
  · exact p.takeHeads_spareQueue c

theorem Plant.wakeAfter_spareQueue (p q : Plant) (c : Chan) : (p.wakeAfter q c).spareQueue = q.spareQueue := by
  unfold Plant.wakeAfter
  split
  · exact q.wakeCue_spareQueue c
  · rfl

/-- R123, R116: what the Cue Sequencers leave of the rest. -/
theorem Plant.foldl_wakeAfter_leaves (p : Plant) (l : List Chan) (q : Plant) :
    (l.foldl (fun r c => p.wakeAfter r c) q).rest = q.rest ∧ (l.foldl (fun r c => p.wakeAfter r c) q).store = q.store ∧
    (l.foldl (fun r c => p.wakeAfter r c) q).spareQueue = q.spareQueue := by
  induction l generalizing q with
  | nil => exact ⟨rfl, rfl, rfl⟩
  | cons c l ih =>
    obtain ⟨rest, store, queue⟩ := ih (p.wakeAfter q c)
    exact ⟨rest.trans (p.wakeAfter_rest q c), store.trans (p.wakeAfter_store q c), queue.trans (p.wakeAfter_spareQueue q c)⟩

theorem Plant.foldl_wakeAfter_quiet (p q : Plant) (h : ∀ c, (q.chan c).headDue = false ∨ p.uncovers q c = false) (l : List Chan) :
    l.foldl (fun r c => p.wakeAfter r c) q = q := by
  induction l with
  | nil => rfl
  | cons c l ih => rw [List.foldl_cons, Plant.wakeAfter_quiet p q c (h c), ih]

/-! ## What loading a template changes -/

section
variable (p : Plant) (n : Nat) (h : n < 32) (steps : List Step)

theorem Plant.loaded_chan (c : Chan) : (p.loaded n h steps).chan c = (p.chan c).retemplate n := by
  simp [Plant.loaded, Plant.chan]

theorem Plant.loaded_template (t : Nat) (ht : t < 32) :
    (p.loaded n h steps).templates[t] = if t = n then steps else p.templates[t] := by
  rw [Plant.loaded, Vector.getElem_set]
  simp only [eq_comm]

theorem Plant.loaded_rest : { p.loaded n h steps with templates := p.templates, chans := p.chans } = p := rfl

end

theorem Event.waitsFor_iff (n : Nat) (e : Event) : e.waitsFor n = true ↔ e.cue = .pending ∧ ∃ k, e.clip = some k ∧ k.template = n := by
  unfold Event.waitsFor
  cases e.clip <;> simp

/-- R116: an entry leaves the queue exactly where it is live and of an event that names the template. -/
theorem Channel.retemplate_queue (x : Channel) (n : Nat) (k : StepEntry) : k ∈ (x.retemplate n).seq.queue ↔
    k ∈ x.seq.queue ∧ ¬(k.standing = .live ∧ ∃ e ∈ x.playlist, e.waitsFor n = true ∧ e.id = k.event) := by
  simp only [Channel.retemplate, List.mem_filter, Bool.not_eq_true', Bool.and_eq_false_iff, beq_eq_false_iff_ne, List.contains_eq_mem,
    List.mem_map, decide_eq_false_iff_not, not_and_or, ne_eq, and_assoc]

/-- R123: a channel with no due head, or that loses no entry, has nothing to consider. -/
theorem Plant.loaded_quiet (p : Plant) (n : Nat) (h : n < 32) (steps : List Step) (c : Chan)
    (quiet : p.NoneDue c ∨ ((p.chan c).retemplate n).seq.queue = (p.chan c).seq.queue) :
    ((p.loaded n h steps).chan c).headDue = false ∨ p.uncovers (p.loaded n h steps) c = false := by
  have own := p.loaded_chan n h steps c
  rcases quiet with none | same
  · refine Or.inl (Plant.headDue_of_noneDue ?_)
    rw [Plant.NoneDue, own]
    exact none.imp_right fun due k hk => due k (List.mem_of_mem_filter hk)
  · refine Or.inr ?_
    have ports : ∀ i, (p.loaded n h steps).port i = p.port i := fun _ => rfl
    simp only [Plant.uncovers, own, same, ports, bne_self_eq_false, Bool.or_false]
    refine List.any_eq_false.mpr fun i _ => ?_
    cases (p.port i).slotCue <;> simp

/-- Settles O44: the refusals, the fields of a step, and what an accepted SET TEMPLATE changes. -/
theorem setTemplateLoads : Obligations.SetTemplateLoads := by
  unfold Obligations.SetTemplateLoads
  intro tag a s had
  refine ⟨fun h => State.request_answers _ _ had (setTemplate_refuses s.plant h), fun r => stepOf_none, fun r st => ?_,
    fun steps number hs few all => ?_⟩
  · simp only [stepOf_iff, stepBody_iff, sendBody_iff]
  · have loads := setTemplate_loads s.plant (Nat.lt_succ_of_le number) hs few all
    obtain ⟨rest, store, queue⟩ := s.plant.foldl_wakeAfter_leaves allChans (s.plant.loaded a.template (Nat.lt_succ_of_le number) steps)
    refine ⟨s.plant.loaded a.template (Nat.lt_succ_of_le number) steps, _, State.request_answers _ _ had loads, Plant.still_of_rest rest,
      Plant.hold_of_store store, queue, s.plant.loaded_template a.template _ steps, s.plant.loaded_rest a.template _ steps,
      fun names hnames => ?_⟩
    obtain rfl : names = Event.waitsFor a.template := by
      funext e
      rw [Bool.eq_iff_iff, hnames, Event.waitsFor_iff]
    have kept := fun c k (hk : k ∈ (s.plant.chan c).seq.queue) =>
      ((s.plant.chan c).retemplate_queue a.template k).trans (and_iff_right hk)
    refine ⟨fun quiet => ?_, fun c => ⟨_, s.plant.loaded_chan a.template _ steps c, List.filter_sublist, kept c⟩⟩
    refine s.plant.foldl_wakeAfter_quiet _ (fun c => s.plant.loaded_quiet _ _ steps c ((quiet c).imp_right fun stays => ?_)) allChans
    exact List.filter_eq_self.mpr fun k hk => (List.mem_filter.mp ((kept c k hk).mpr (stays k hk))).2

end Sys2Proof.Machine
end

