-- ==== Sys2Proof/Proofs/Clears.lean ====
section
/-! PROOFS. CLEAR CHANNEL (R139). -/

namespace Sys2Proof.Machine

/-! ## A port rid of a channel's lists -/

/-- R107: nothing of the channel's lists is still to be sent, and the outcome of one of their commands is no longer wanted. -/
structure Port.Rid (x : Port) (c : Chan) : Prop where
  claim : ∀ l ∈ x.claim, l.channel = c → l.cmds = []
  out : ∀ k u live, x.outstanding = some ⟨k, .changeover c u live⟩ → live = false

section
variable {x : Port} {c : Chan}

theorem Port.Rid.of_lists {y : Port} (h : x.Rid c) (e : y.lists = x.lists) : y.Rid c := by
  obtain ⟨claim, out⟩ := Prod.mk.inj (show (y.claim, y.outstanding) = (x.claim, x.outstanding) from e)
  exact ⟨claim ▸ h.claim, out ▸ h.out⟩

theorem Port.rid_withdrawLists (x : Port) (c : Chan) : (x.withdrawLists c true).Rid c := by
  refine ⟨fun l hl hc => ?_, fun k u live h => ?_⟩
  · unfold Port.withdrawLists at hl
    simp only at hl
    split at hl
    · exact absurd hl List.not_mem_nil
    · next m rest _ =>
      have tail : l ∉ rest.filter fun m => !(m.channel == c && (true || m.purpose != .stop)) := fun m => by
        simpa [hc] using (List.mem_filter.mp m).2
      repeat' split at hl
      · rcases List.mem_cons.mp hl with rfl | hl
        · rfl
        · exact absurd hl tail
      · exact absurd hl tail
      · next hm =>
        rcases List.mem_cons.mp hl with rfl | hl
        · simp [hc] at hm
        · exact absurd hl tail
  · unfold Port.withdrawLists at h
    simp only at h
    split at h
    · next cmd d v live' _ =>
      obtain ⟨-, e⟩ := Outstanding.mk.inj (Option.some.inj h)
      obtain ⟨rfl, -, rfl⟩ := Requester.changeover.inj e
      simp
    · next other => exact absurd h (other k c u live)

/-- R107: with no command of a list outstanding, none of the channel's lists is left. -/
theorem Port.withdrawLists_none {x : Port} {c : Chan} (idle : x.listBusy = false) {l : CmdList} (hl : l ∈ (x.withdrawLists c true).claim) :
    l.channel ≠ c := by
  have kept : ∀ m : CmdList, ¬(m.channel == c && (true || m.purpose != .stop)) = true → m.channel ≠ c := fun m hm => by simpa using hm
  unfold Port.withdrawLists at hl
  simp only [idle, Bool.false_eq_true, if_false] at hl
  split at hl
  · exact absurd hl List.not_mem_nil
  · have tail : ∀ rest : List CmdList, l ∈ rest.filter (fun m => !(m.channel == c && (true || m.purpose != .stop))) → l.channel ≠ c :=
      fun rest m => by simpa using (List.mem_filter.mp m).2
    split at hl
    · exact tail _ hl
    · next hm =>
      rcases List.mem_cons.mp hl with rfl | hl
      · exact kept _ hm
      · exact tail _ hl

theorem Port.Rid.dropFinished (h : x.Rid c) : x.dropFinished.Rid c := by
  unfold Port.dropFinished
  split
  · exact h
  · exact ⟨fun l hl => h.claim l ((List.dropWhile_sublist _).mem hl), h.out⟩

theorem Port.Rid.addList (h : x.Rid c) {l : CmdList} (hl : l.channel ≠ c) : (x.addList l).Rid c := by
  refine ⟨fun m hm hc => ?_, h.out⟩
  rcases List.mem_append.mp hm with hm | hm
  · exact h.claim m hm hc
  · obtain rfl := List.mem_singleton.mp hm
    exact absurd hc hl

theorem Port.Rid.popCommand (h : x.Rid c) : x.popCommand.Rid c := by
  unfold Port.popCommand
  split
  · exact h
  · next l rest e =>
    refine ⟨fun m hm hc => ?_, h.out⟩
    rcases List.mem_cons.mp hm with rfl | hm
    · rw [show ({ l with cmds := l.cmds.tail } : CmdList).cmds = l.cmds.tail from rfl, h.claim l (by rw [e]; exact List.mem_cons_self) hc]
      rfl
    · exact h.claim m (by rw [e]; exact List.mem_cons_of_mem _ hm) hc

theorem Port.Rid.grant (h : x.Rid c) {cmd : DevCmd} {r : Requester} (hr : ∀ u live, r = .changeover c u live → live = false) :
    (x.grant cmd r).Rid c := by
  refine ⟨fun l hl => h.claim l (by rw [Port.grant_claim] at hl; exact hl), fun k u live e => ?_⟩
  obtain ⟨-, e⟩ := Outstanding.mk.inj (Option.some.inj e)
  exact hr u live e

theorem Port.Rid.markOutstanding (h : x.Rid c) (d : Chan) (f : StepEntry → StepEntry) : (x.markOutstanding d f).Rid c := by
  unfold Port.markOutstanding
  split
  · split
    · refine ⟨h.claim, fun k u live e => ?_⟩
      cases e
    · exact h
  · exact h

theorem Port.Rid.withdrawSlot (h : x.Rid c) (d : Chan) (which : StepEntry → Bool) : (x.withdrawSlot d which).Rid c :=
  h.of_lists (x.withdrawSlot_lists d which)

theorem Port.Rid.flushed (h : x.Rid c) (d : Chan) : (x.flushed d).Rid c := (h.withdrawSlot d _).markOutstanding d _

end

/-! ## The operations keep a port rid of them -/

section
variable {p : Plant} {c : Chan} {j : PortNo}

theorem Plant.setPort_rid (i : PortNo) {x : Port} (hx : i = j → x.Rid c) (h : (p.port j).Rid c) : ((p.setPort i x).port j).Rid c := by
  by_cases e : i = j
  · subst e
    rw [Plant.port_setPort_same]
    exact hx rfl
  · rw [p.port_setPort_other x (Ne.symm e)]
    exact h

theorem Plant.arbitrate_rid (i : PortNo) (h : (p.port j).Rid c) : ((p.arbitrate i).port j).Rid c := by
  have drop : i = j → (p.port i).dropFinished.Rid c := fun e => e ▸ h.dropFinished
  simp only [Plant.arbitrate]
  generalize (p.port i).dropFinished = x at drop
  split
  · exact Plant.setPort_rid i drop h
  · split
    · next l cmd due =>
      refine Plant.setPort_rid i (fun e => (drop e).popCommand.grant fun u live hr => ?_) h
      obtain ⟨hc, -, -⟩ := Requester.changeover.inj hr
      unfold Plant.dueCommand at due
      split at due
      · cases due
      · next m rest claimed =>
        split at due
        · cases due
        · next k ks cmds =>
          have head : m = l := by
            split at due
            · exact (Prod.mk.inj (Option.some.inj due)).1
            · split at due
              · exact (Prod.mk.inj (Option.some.inj due)).1
              · cases due
          have spent := (drop e).claim m (by rw [claimed]; exact List.mem_cons_self) (head ▸ hc)
          rw [cmds] at spent
          cases spent
    · split
      · exact Plant.setPort_rid i drop h
      · split
        · next d s _ =>
          have sent : ((p.setPort i ({ x with slotCue := none }.grant s.action.cmd (.cue d s))).port j).Rid c :=
            Plant.setPort_rid i (fun e => ((drop e).of_lists (y := { x with slotCue := none }) rfl).grant fun _ _ hr => by cases hr) h
          split
          · exact sent
          · exact sent
        · split
          · exact Plant.setPort_rid i
              (fun e => ((drop e).of_lists (y := { x with slotPass := none }) rfl).grant fun _ _ hr => by cases hr) h
          · exact Plant.setPort_rid i drop h

theorem Plant.settlePort_rid (i : PortNo) (h : (p.port j).Rid c) : ((p.settlePort i).port j).Rid c := by
  rw [Plant.settlePort_eq]
  refine Plant.arbitrate_rid i (Port.Rid.of_lists ?_ (Plant.userTakes_lists _ j i))
  exact Plant.setPort_rid i (fun e => e ▸ h.dropFinished) h

theorem Plant.handList_rid (i : PortNo) {l : CmdList} (hl : l.channel ≠ c) (h : (p.port j).Rid c) : ((p.handList i l).port j).Rid c :=
  Plant.arbitrate_rid i (Plant.setPort_rid i (fun e => e ▸ h.addList hl) h)

/-- R151: a join of another channel leaves a port rid of this one's lists. -/
theorem Plant.coldJoin_rid {d : Chan} {k : TakeRec} (hd : d ≠ c) (hk : (p.chan d).takeRec = some k) (i : PortNo)
    (now0 : Nat) (stage : Stage)
    (h : (p.port j).Rid c) : ((p.coldJoin d i now0 stage).port j).Rid c := by
  generalize ht : now0 + p.conf d (·.cueLead) + (p.port i).preroll = t
  have bridges : ∀ r, (coverAt (p.chan d).playlist t = none ∧ r = .noEvent) ∨
      (∃ e, coverAt (p.chan d).playlist t = some e ∧ joinRefusal (p.conf d (·.tailGuard)) t e = some r) →
      ((p.coldJoin d i now0 stage).port j).Rid c := fun r hr => by
    obtain ⟨-, -, -, ports⟩ := Plant.coldJoin_bridges rfl hk i now0 stage ht.symm hr rfl
    rw [ports]
    exact h.flushed d
  cases he : coverAt (p.chan d).playlist t with
  | none => exact bridges .noEvent (Or.inl ⟨he, rfl⟩)
  | some e =>
    cases hr : joinRefusal (p.conf d (·.tailGuard)) t e with
    | some r => exact bridges r (Or.inr ⟨e, he, hr⟩)
    | none =>
      obtain ⟨w, eq, -, -, -, ports⟩ := Plant.coldJoin_on rfl hk i now0 stage ht.symm he hr
      rw [eq]
      refine Plant.handList_rid i hd ?_
      rw [ports]
      exact h.flushed d

theorem Plant.spareGranted_rid {d : Chan} (hd : d ≠ c) (i : PortNo) (h : (p.port j).Rid c) : ((p.spareGranted d i).port j).Rid c := by
  have joins : (((p.usePort d (some i)).localJoinOn d i).port j).Rid c :=
    Plant.coldJoin_rid (p := (p.usePort d (some i)).startLocalRec d) hd (by rw [Plant.startLocalRec_chan]; rfl) i _ _ h
  unfold Plant.spareGranted
  split
  · exact joins
  · exact joins
  · exact h
  · exact h

/-- R110: a spare that is lent to another channel stays rid of this one's lists. -/
theorem Plant.spareFreed_rid (hc : c ∉ p.spareQueue) (i : PortNo) (h : (p.port j).Rid c) : ((p.spareFreed i).port j).Rid c := by
  simp only [Plant.spareFreed]
  split
  · split
    · next d hd =>
      have other : d ≠ c := fun e => hc (e ▸ List.mem_of_find?_eq_some hd)
      refine Plant.spareGranted_rid other i ?_
      exact Plant.setPort_rid i (fun e => e ▸ h.of_lists rfl) h
    · exact h
  · exact h

theorem Plant.disown_rid (i : PortNo) (h : i ≠ j → (p.port j).Rid c) : ((p.disown c i).port j).Rid c := by
  refine Plant.settlePort_rid i ?_
  by_cases e : i = j
  · subst e
    rw [Plant.port_modPort_same]
    exact (Port.rid_withdrawLists _ c).withdrawSlot c _
  · rw [Plant.port_modPort_other _ _ (Ne.symm e)]
    exact h e

/-- R111: a spare that the channel gives back is rid of its lists. -/
theorem Plant.releaseSpare_rid (hc : c ∉ p.spareQueue) (h : p.heldSpare c = some j) : ((p.releaseSpare c).port j).Rid c := by
  rw [Plant.releaseSpare, h]
  refine Plant.settlePort_rid j (Plant.spareFreed_rid (p := p.modPort j _) hc j ?_)
  rw [Plant.port_modPort_same]
  exact ((Port.rid_withdrawLists _ c).withdrawSlot c _).of_lists rfl

end

theorem Port.withdrawSlot_empty (x : Port) (c : Chan) (k : StepEntry) : (x.withdrawSlot c fun _ => true).slotCue ≠ some (c, k) := by
  unfold Port.withdrawSlot
  split
  · next d s e =>
    split
    · exact nofun
    · next other =>
      rw [e]
      intro h
      obtain ⟨rfl, -⟩ := Prod.mk.inj (Option.some.inj h)
      simp at other
  · next e =>
    rw [e]
    exact nofun

/-! ## CLEAR CHANNEL -/

theorem clearChannel_unknown {n : Nat} (h : 15 < n) (p : Plant) : clearChannel n p = p.refuse .noSuchChannel := by
  simp only [clearChannel, chanOf_none h]

section
variable {p : Plant} {c : Chan}

theorem clearChannel_idle (h : (p.chan c).mode = .idle) : clearChannel c.val p = (p.emit (.clearMissed c), reply .ok []) := by
  simp only [clearChannel, chanOf_val, h]

theorem clearChannel_shadow (h : (p.chan c).mode = .shadow) : clearChannel c.val p = (p.clearChannel c, reply .ok []) := by
  simp only [clearChannel, chanOf_val, h]

theorem clearChannel_mode (h : (p.chan c).mode ≠ .idle) (h' : (p.chan c).mode ≠ .shadow) : clearChannel c.val p = p.refuse .wrongMode := by
  simp only [clearChannel, chanOf_val]

/-- R139, R111: the channel in no mode, with no port in use and no spare. -/
def Plant.unbound (p : Plant) (c : Chan) : Plant := (((p.setMode c .idle).usePort c none).leaveQueue c).releaseSpare c

/-- R139, R108: its primary port disowned too. -/
def Plant.cleared (p : Plant) (c : Chan) : Plant :=
  match p.primary c with
  | some i => (p.unbound c).disown c i
  | none => p.unbound c

theorem Plant.clearChannel_eq (p : Plant) (c : Chan) : p.clearChannel c =
    (((((p.cleared c).withdrawCue c fun _ => true).discard c fun _ => true).setChan c
      { Channel.reset with switch := (p.chan c).switch }).emit (.dropBack c)).emit (.clearMissed c) := by
  unfold Plant.clearChannel Plant.cleared Plant.unbound
  cases p.primary c <;> rfl

theorem Plant.cleared_rest (p : Plant) (c : Chan) : (p.cleared c).rest = p.rest := by
  unfold Plant.cleared Plant.unbound
  split <;> simp

theorem Plant.cleared_store (p : Plant) (c : Chan) : (p.cleared c).store = p.store := by
  unfold Plant.cleared Plant.unbound
  split <;> simp

theorem Plant.unbound_spareQueue (p : Plant) (c : Chan) : c ∉ (p.unbound c).spareQueue :=
  (Plant.releaseSpare_spares (by simp [Plant.leaveQueue])).1

theorem Plant.cleared_spareQueue (p : Plant) (c : Chan) : c ∉ (p.cleared c).spareQueue := by
  unfold Plant.cleared
  split
  · rw [Plant.disown, (Plant.settlePort_spares _ _).2]
    exact p.unbound_spareQueue c
  · exact p.unbound_spareQueue c

theorem Plant.cleared_rid {i : PortNo} (h : p.primary c = some i ∨
    ((p.port i).holder = some c ∧ ∀ j, (p.port j).holder = some c → j = i)) : ((p.cleared c).port i).Rid c := by
  have held : (p.port i).holder = some c ∧ (∀ j, (p.port j).holder = some c → j = i) → ((p.unbound c).port i).Rid c := fun ⟨hh, one⟩ => by
    have waits : c ∉ (((p.setMode c .idle).usePort c none).leaveQueue c).spareQueue := by simp [Plant.leaveQueue]
    have ports : ∀ j, (((p.setMode c .idle).usePort c none).leaveQueue c).port j = p.port j := fun _ => rfl
    unfold Plant.unbound
    generalize ((p.setMode c .idle).usePort c none).leaveQueue c = u at waits ports
    rw [← ports] at hh
    obtain ⟨j, hj⟩ := Option.isSome_iff_exists.mp (Plant.heldSpare_isSome hh)
    have holder := Plant.heldSpare_some hj
    rw [ports] at holder
    exact Plant.releaseSpare_rid waits (hj.trans (congrArg some (one j holder)))
  unfold Plant.cleared
  split
  · next j hj =>
    refine Plant.disown_rid j fun other => held (h.resolve_left fun e => other ?_)
    rw [hj] at e
    exact Option.some.inj e
  · next hj =>
    refine held (h.resolve_left fun e => ?_)
    rw [hj] at e
    cases e

/-- R139: with no spare held and no list's command outstanding, the primary port keeps none of the channel's lists. -/
theorem Plant.cleared_claim {i : PortNo} (hp : p.primary c = some i) (hh : ∀ j, (p.port j).holder ≠ some c)
    (idle : (p.port i).listBusy = false) {l : CmdList} (hl : l ∈ ((p.cleared c).port i).claim) : l.channel ≠ c := by
  have free : p.unbound c = ((p.setMode c .idle).usePort c none).leaveQueue c := Plant.releaseSpare_none hh
  simp only [Plant.cleared, hp, free] at hl
  obtain ⟨m, hm, channel, -, -⟩ := Plant.settlePort_claim _ i hl
  rw [Plant.port_modPort_same, Port.withdrawSlot_claim] at hm
  rw [channel]
  exact Port.withdrawLists_none idle hm

end

/-- Settles O50: the refusals, IDLE, and a SHADOW channel put back block by block. -/
theorem clearChannelEmpties : Obligations.ClearChannelEmpties := by
  unfold Obligations.ClearChannelEmpties
  rintro tag n s had
  refine ⟨fun h => State.request_answers _ _ had (clearChannel_unknown h _), ?_⟩
  rintro c rfl
  refine ⟨fun h h' => State.request_answers _ _ had (clearChannel_mode h h'), fun h => State.request_answers _ _ had (clearChannel_idle h),
    fun h => ⟨_, State.request_answers _ _ had (clearChannel_shadow h), ?_⟩⟩
  generalize s.plant = p
  rw [p.clearChannel_eq c]
  have rest := p.cleared_rest c
  have hold := Plant.hold_of_store (p.cleared_store c)
  have waits := p.cleared_spareQueue c
  have rid := fun i => Plant.cleared_rid (p := p) (c := c) (i := i)
  have gone := fun i => Plant.cleared_claim (p := p) (c := c) (i := i)
  generalize p.cleared c = q at rest hold waits rid gone
  have ports : ∀ i, (((((q.withdrawCue c fun _ => true).discard c fun _ => true).setChan c
      { Channel.reset with switch := (p.chan c).switch }).emit (.dropBack c)).emit (.clearMissed c)).port i =
      ((q.port i).withdrawSlot c fun _ => true).markOutstanding c fun s => if true then { s with standing := .removed } else s :=
    fun i => Plant.port_mapPorts _ _ i
  refine ⟨Plant.chan_setChan_same _ c _, ?_, waits, fun i k h => ?_, ?_, ?_, fun i hi => ?_, fun i hp hh idle l hl => ?_,
    Plant.still_of_rest rest⟩
  · rw [← hold]
    exact congrArg Plant.hold ((q.withdrawCue c fun _ => true).discard_all c)
  · rw [ports, Port.markOutstanding_slotCue] at h
    exact Port.withdrawSlot_empty _ c k h
  · exact List.mem_append_left _ (List.mem_append_right _ (List.mem_singleton_self _))
  · exact List.mem_append_right _ (List.mem_singleton_self _)
  · rw [ports]
    have left := ((rid i hi).withdrawSlot c fun _ => true).markOutstanding c fun s => if true then { s with standing := .removed } else s
    exact ⟨left.claim, left.out⟩
  · rw [ports, Port.markOutstanding_claim, Port.withdrawSlot_claim] at hl
    refine gone i hp hh ?_ hl
    unfold Port.listBusy
    split
    · next k d u live e => exact absurd e (idle k d u live)
    · rfl

end Sys2Proof.Machine
end

