-- ==== Sys2Proof/Proofs/Plans.lean ====
section
/-! PROOFS. What the Cue Sequencer leaves of every channel as it works (R119 to R130): all but the sequencing, the events' cue states
and, in local running, the pending changes of switch. -/

namespace Sys2Proof.Machine

/-- A channel without what the Cue Sequencer changes of it. -/
def Channel.plan (x : Channel) : Channel :=
  { x with playlist := x.playlist.map Event.plan, seq := .reset, pendingSw := if x.mode.running then [] else x.pendingSw }

/-- Every channel without what its Cue Sequencer changes. -/
def Plant.plans (p : Plant) : Chan → Channel := fun d => (p.chan d).plan

section
variable (p : Plant)

theorem Plant.plans_modChan (c : Chan) (f : Channel → Channel) (h : (f (p.chan c)).plan = (p.chan c).plan) :
    (p.modChan c f).plans = p.plans := by
  funext d
  by_cases e : d = c
  · subst e
    rw [Plant.plans, Plant.chan_modChan_same, h, Plant.plans]
  · rw [Plant.plans, p.chan_modChan_other f e, Plant.plans]

theorem modEvent_plan (l : List Event) (id : Nat) (f : Event → Event) (h : ∀ e, (f e).plan = e.plan) :
    (modEvent l id f).map Event.plan = l.map Event.plan := by
  rw [modEvent, List.map_map]
  refine List.map_congr_left fun e _ => ?_
  by_cases he : (e.id == id) = true
  · simp [Function.comp, he, h]
  · simp [Function.comp, he]

theorem Plant.plans_modEvent (c : Chan) (id : Nat) (f : Event → Event) (h : ∀ e, (f e).plan = e.plan) :
    (p.modEvent c id f).plans = p.plans :=
  p.plans_modChan c _ (by rw [Channel.plan, modEvent_plan _ _ _ h]; rfl)

theorem Plant.plans_of_chan {p q : Plant} (h : ∀ d, q.chan d = p.chan d) : q.plans = p.plans := funext fun d => by
  rw [Plant.plans, h, Plant.plans]

@[simp] theorem Plant.setPort_plans (i : PortNo) (x : Port) : (p.setPort i x).plans = p.plans := rfl
@[simp] theorem Plant.modPort_plans (i : PortNo) (f : Port → Port) : (p.modPort i f).plans = p.plans := rfl
@[simp] theorem Plant.mapPorts_plans (f : Port → Port) : (p.mapPorts f).plans = p.plans := rfl
@[simp] theorem Plant.emit_plans (o : Outgoing) : (p.emit o).plans = p.plans := rfl
@[simp] theorem Plant.notify_plans (k : NoticeKind) (c : Option Chan) (b : List Byte) : (p.notify k c b).plans = p.plans := rfl

@[simp] theorem Plant.writeLast_plans (c : Chan) (o : DevOutcome) : (p.writeLast c o).plans = p.plans := by
  unfold Plant.writeLast
  split
  · rfl
  · exact p.plans_modChan c _ rfl

@[simp] theorem Plant.haltSequence_plans (c : Chan) (cause : HaltCause) : (p.haltSequence c cause).plans = p.plans := by
  unfold Plant.haltSequence
  split
  · rfl
  · have halted := p.plans_modChan c (fun x => { x with seq := { x.seq with halted := true, queue := [] } }) rfl
    cases cause <;> exact halted

@[simp] theorem Plant.dropRepetitions_plans (c : Chan) (s : StepEntry) : (p.dropRepetitions c s).plans = p.plans := by
  have drop : (p.modChan c fun x => { x with seq := { x.seq with queue := x.seq.queue.filter fun t =>
      !(t.event == s.event && t.step == s.step && t.standing == s.standing) } }).plans = p.plans := p.plans_modChan c _ rfl
  unfold Plant.dropRepetitions
  simp only
  split
  · exact (Plant.plans_modEvent _ c _ _ (by intro; rfl)).trans drop
  · exact drop

theorem Plant.skip_plan (e : Event) : (p.skip e).plan = e.plan := by
  unfold Plant.skip
  split <;> rfl

/-- R126: an event skipped on air asks for FILLER, in local running alone. -/
@[simp] theorem Plant.skipEvent_plans (c : Chan) (s : StepEntry) : (p.skipEvent c s).plans = p.plans := by
  have drop : (p.modChan c fun x => x.dropEntriesLike s).plans = p.plans := p.plans_modChan c _ rfl
  have mode : ((p.modChan c fun x => x.dropEntriesLike s).chan c).mode = (p.chan c).mode := by
    rw [Plant.chan_modChan_same]
    rfl
  unfold Plant.skipEvent
  generalize (p.modChan c fun x => x.dropEntriesLike s) = q at drop mode
  simp only
  split
  · exact drop
  · split
    · exact drop
    · have skips : (q.modEvent c s.event fun e =>
          p.skip { e with progress := e.progress ++ repetitions (p.templateOf e) }).plans = p.plans :=
        (q.plans_modEvent c _ _ (by intro e; rw [p.skip_plan]; rfl)).trans drop
      have spends : (q.modEvent c s.event fun e => { e with progress := e.progress ++ repetitions (p.templateOf e) }).plans = p.plans :=
        (q.plans_modEvent c _ _ (by intro; rfl)).trans drop
      split
      · exact skips
      · exact skips
      · exact skips
      · split
        · next running =>
          generalize hv : (q.modEvent c s.event fun e =>
            { e with progress := e.progress ++ repetitions (p.templateOf e), skipEnded := true }) = v
          have ends : v.plans = p.plans := by
            rw [← hv]
            exact (q.plans_modEvent c _ _ (by intro; rfl)).trans drop
          have still : (v.chan c).mode = (p.chan c).mode := by
            rw [← mode, ← hv, Plant.modEvent, Plant.chan_modChan_same]
          split
          · exact ends
          · refine Eq.trans (Plant.plans_modChan _ c _ ?_) ends
            simp only [Channel.plan, still, running, if_true]
        · exact spends
      · exact spends

@[simp] theorem Plant.mismatchAction_plans (c : Chan) (s : StepEntry) (a : Mismatch) : (p.mismatchAction c s a).plans = p.plans := by
  cases a
  · rfl
  · exact p.skipEvent_plans c s
  · exact p.haltSequence_plans c _

/-- R124, R125: an outcome. -/
@[simp] theorem Plant.cueOutcome_plans (c : Chan) (s : StepEntry) (o : DevOutcome) : (p.cueOutcome c s o).plans = p.plans := by
  have rolls : ∀ q : Plant, (q.modEvent c s.event fun e => if e.cue = .cueing then { e with cue := .rolling } else e).plans = q.plans :=
    fun q => q.plans_modEvent c _ _ fun e => by split <;> rfl
  simp only [Plant.cueOutcome]
  repeat' split
  all_goals simp [rolls, Plant.tellCueFault]

@[simp] theorem Plant.taken_plans (c : Chan) (s : StepEntry) : (p.taken c s).plans = p.plans := by
  unfold Plant.taken
  split
  · exact p.plans_modEvent c _ _ fun e => by split <;> rfl
  · rfl

@[simp] theorem Plant.takeHeadsN_plans (n : Nat) (c : Chan) : (Plant.takeHeadsN n c p).plans = p.plans := by
  induction n generalizing p with
  | zero => rfl
  | succ n ih =>
    have pop : ∀ (rest : List StepEntry) s,
        ((p.modChan c fun x => { x with seq := { x.seq with queue := rest } }).taken c s).plans = p.plans := fun rest s => by
      rw [Plant.taken_plans]
      exact p.plans_modChan c _ rfl
    simp only [Plant.takeHeadsN]
    repeat' split
    all_goals simp [ih, pop]

@[simp] theorem Plant.takeHeads_plans (c : Chan) : (p.takeHeads c).plans = p.plans := p.takeHeadsN_plans _ c

@[simp] theorem Plant.userTakes_plans (i : PortNo) : (p.userTakes i).plans = p.plans := by
  rw [Plant.userTakes]
  generalize p.usersOf i = l
  induction l generalizing p with
  | nil => rfl
  | cons d l ih => exact (ih _).trans (p.takeHeads_plans d)

@[simp] theorem Plant.arbitrate_plans (i : PortNo) : (p.arbitrate i).plans = p.plans :=
  Plant.plans_of_chan fun d => by rw [Plant.chan, p.arbitrate_chans i, Plant.chan]

/-- R106: a port that settles. -/
@[simp] theorem Plant.settlePort_plans (i : PortNo) : (p.settlePort i).plans = p.plans := by
  rw [Plant.settlePort_eq]
  simp

@[simp] theorem Plant.wakeCue_plans (c : Chan) : (p.wakeCue c).plans = p.plans := by
  unfold Plant.wakeCue
  split <;> simp

@[simp] theorem Plant.wakeAfter_plans (q : Plant) (c : Chan) : (p.wakeAfter q c).plans = q.plans := by
  unfold Plant.wakeAfter
  split <;> simp

end

end Sys2Proof.Machine
end

