-- ==== Sys2Proof/Proofs/Channels.lean ====
section
/-! PROOFS. SET CHANNEL (R136 to R138). -/

namespace Sys2Proof.Machine

/-! ## The configuration judged -/

/-- R86: the ranges of the watch parameters. -/
theorem watchSound_iff (w : WatchParams) : watchSound w = true ↔
    w.weights.noSignal ≤ 15 ∧ w.weights.black ≤ 15 ∧ w.weights.frozen ≤ 15 ∧ w.weights.silent ≤ 15 ∧
    w.weights.tcLoss ≤ 15 ∧ w.weights.tcJump ≤ 15 ∧ w.weights.noProbe ≤ 15 ∧ w.weights.siteSilent ≤ 15 ∧
    w.sensitivity ≤ 3 ∧ 1 ≤ w.recovery ∧ w.recovery ≤ 15 ∧ 1 ≤ w.degradeAt ∧ w.degradeAt ≤ w.failAt ∧ w.failAt ≤ 255 ∧
    w.recoverAt < w.failAt ∧ 1 ≤ w.warmUp ∧ w.warmUp ≤ 255 ∧ w.agreeTol ≤ 250 := by
  simp only [watchSound, List.all_cons, List.all_nil, Bool.and_true, Bool.and_eq_true, decide_eq_true_eq]
  omega

/-- R136: the numbers of a configuration record. -/
theorem numbersSound_iff (lines : Nat) (g : RawConfig) : numbersSound lines g = true ↔
    g.spares < 1048576 ∧ 1 ≤ g.confirmWindow ∧ g.confirmWindow ≤ 600 ∧ 1 ≤ g.cueLead ∧ g.cueLead ≤ 250 ∧ g.tailGuard ≤ 1500 ∧
    25 ≤ g.returnLead ∧ g.returnLead ≤ 1500 ∧ g.verifyTol ≤ 10 ∧ 1 ≤ g.switchLine ∧ g.switchLine ≤ lines ∧ g.baseDay ≤ 65535 ∧
    watchSound g.watch = true ∧ ∀ h, g.heartbeat = some h → 50 ≤ h ∧ h ≤ 5000 := by
  have day : g.baseDay < 65536 ↔ g.baseDay ≤ 65535 := Nat.lt_succ_iff
  have spares : g.spares < 2 ^ 20 ↔ g.spares < 1048576 := Iff.rfl
  cases hb : g.heartbeat <;>
    simp only [numbersSound, hb, Bool.and_eq_true, Bool.and_true, decide_eq_true_eq, and_assoc, day, spares, reduceCtorEq, false_implies,
      implies_true, and_true, Option.some.injEq, forall_eq']

theorem portOf_eq_some (n : Nat) (i : PortNo) : portOf n = some i ↔ n = i.val := by
  constructor
  · intro h
    unfold portOf at h
    split at h
    · rw [← Option.some.inj h]
    · cases h
  · rintro rfl
    exact portOf_val i

/-- R136: a configuration record is judged field by field and stored as sent. -/
theorem Plant.configOf_iff (p : Plant) (r : RawConfig) (g : ChannelConfig) : p.configOf r = some g ↔
    RefId.ofCode r.reference = some g.reference ∧ portOf r.primary = some g.primary ∧ Standby.ofCode r.standby = some g.standby ∧
    Policy.ofCode r.policy = some g.policy ∧ Bridge.ofCode r.bridge = some g.bridge ∧
    numbersSound (p.ref g.reference).family.lines r = true ∧ r.spares = g.spares ∧ r.confirmWindow = g.confirmWindow ∧
    r.cueLead = g.cueLead ∧ r.tailGuard = g.tailGuard ∧ r.returnLead = g.returnLead ∧ r.verifyTol = g.verifyTol ∧
    r.switchLine = g.switchLine ∧ r.baseDay = g.baseDay ∧ r.watch = g.watch ∧ r.heartbeat = g.heartbeat := by
  constructor
  · intro h
    unfold Plant.configOf at h
    split at h
    · next k i s y b ha hi hs hy hb =>
      split at h
      · next sound =>
        obtain rfl := Option.some.inj h
        exact ⟨ha, hi, hs, hy, hb, sound, rfl, rfl, rfl, rfl, rfl, rfl, rfl, rfl, rfl, rfl⟩
      · cases h
    · cases h
  · obtain ⟨reference, primary, spares, standby, policy, window, bridge, lead, tail, back, tol, line, day, watch, beat⟩ := g
    rintro ⟨ha, hi, hs, hy, hb, sound, rfl, rfl, rfl, rfl, rfl, rfl, rfl, rfl, rfl, rfl⟩
    simp only [Plant.configOf, ha, hi, hs, hy, hb]
    exact if_pos sound

/-! ## What is refused -/

section
variable {p : Plant} {a : SetChannelArgs}

theorem setChannel_unknown (h : 15 < a.channel) (p : Plant) : setChannel a p = p.refuse .noSuchChannel := by
  simp only [setChannel, chanOf_none h]

variable {c : Chan} (hc : a.channel = c.val)
include hc

theorem setChannel_unsound (h : p.configOf a.config = none) : setChannel a p = p.refuse .badArgument := by
  simp only [setChannel, hc, chanOf_val, h]

variable {g : ChannelConfig} (hg : p.configOf a.config = some g)
include hg

theorem setChannel_mode (h : p.modeAllows c g = false ∨ (p.ref g.reference).configured = false) : setChannel a p = p.refuse .wrongMode := by
  simp only [setChannel, hc, chanOf_val, hg]
  rcases h with h | h
  · rw [h]
    rfl
  · rw [h]
    split <;> rfl

section
variable (allows : p.modeAllows c g = true) (configured : (p.ref g.reference).configured = true)
include allows configured

theorem setChannel_taken (h : (p.port g.primary).role ≠ .primary ∨ p.primaryElsewhere c g.primary = true) :
    setChannel a p = p.refuse .portTaken := by
  simp only [setChannel, hc, chanOf_val, hg, allows, configured, Bool.not_true, Bool.false_eq_true, if_false, if_pos h]

theorem setChannel_accepts (role : (p.port g.primary).role = .primary) (h : p.primaryElsewhere c g.primary = false) :
    setChannel a p = (p.acceptChannel c g, reply .ok ((p.acceptChannel c g).channelBytes c)) := by
  simp only [setChannel, hc, chanOf_val, hg, allows, configured, role, h, Bool.not_true, Bool.false_eq_true, if_false, ne_eq,
    not_true_eq_false, or_self]

end

end

/-- R136, R138: the modes in which a configuration goes on to the next check. -/
theorem Plant.modeAllows_iff (p : Plant) (c : Chan) (g : ChannelConfig) : p.modeAllows c g = true ↔
    (p.chan c).mode = .idle ∨ ((p.chan c).mode = .shadow ∧ ∃ old, (p.chan c).config = some old ∧ old.reference = g.reference ∧
      (p.chan c).baseDay = g.baseDay) := by
  unfold Plant.modeAllows Plant.config
  cases hm : (p.chan c).mode with
  | idle => exact iff_of_true rfl (Or.inl rfl)
  | shadow =>
    cases ho : (p.chan c).config with
    | none => simp
    | some old => simp
  | _ => simp

theorem Plant.primaryElsewhere_iff (p : Plant) (c : Chan) (i : PortNo) : p.primaryElsewhere c i = true ↔
    ∃ d, d ≠ c ∧ p.primary d = some i ∧ (p.chan d).mode ≠ .idle := by
  simp [Plant.primaryElsewhere, allChans, and_assoc]

/-! ## A channel starts -/

section
variable {p : Plant} {c : Chan} {g : ChannelConfig}

theorem Plant.holdCount_none {p : Plant} {c : Chan} (h : ∀ e ∈ p.hold, e.channel ≠ c) (k : HoldKind) : p.holdCount c k = 0 := by
  rw [Plant.holdCount, List.length_eq_zero_iff, List.filter_eq_nil_iff]
  exact fun e he => by simp [h e he]

/-- R137: every block's state as a channel leaves IDLE. -/
def Channel.started (k : Reference) (g : ChannelConfig) : Channel :=
  { Channel.reset with
    now := k.family.fpd + k.station, baseDay := g.baseDay, config := some g, mode := .shadow, portInUse := some g.primary
    lineInForce := g.switchLine, replica := { Replica.reset with reloadTimer := some 0 } }

theorem Plant.startChannel_eq (p : Plant) (c : Chan) (g : ChannelConfig) : p.startChannel c g =
    { p.setChan c (Channel.started (p.ref g.reference) g) with
      hold := p.hold.filter fun h => h.channel != c
      outbox := p.outbox ++ [.back (.askReload c), .notice ⟨.replicaState, some c,
        u8 0 ++ u8 0 ++ u8 0 ++ u8 0 ++ u8 0 ++ u8 0 ++ u8 0 ++ u8 0 ++ u8 0⟩] } := by
  generalize hq : ({ p.setChan c (Channel.started (p.ref g.reference) g) with
    hold := p.hold.filter (fun h => h.channel != c), outbox := p.outbox ++ [.back (.askReload c)] } : Plant) = q
  have waits : p.startChannel c g = q.tellReplica c .awaitBase .configured none := by
    rw [Plant.startChannel, Plant.awaitBase_eq, Plant.modReplica, Plant.modChan, ← hq]
    refine congrArg (fun q : Plant => q.tellReplica c .awaitBase .configured none) ?_
    simp only [Plant.setChan, Plant.chan, Plant.sendBack, Plant.emit, Vector.getElem_set_self, Vector.set_set]
    rfl
  have own : q.chan c = Channel.started (p.ref g.reference) g := by
    rw [← hq]
    exact p.chan_setChan_same c _
  have empty : ∀ k, q.holdCount c k = 0 := Plant.holdCount_none fun e he => by
    rw [← hq] at he
    simpa using (List.mem_filter.mp he).2
  rw [waits, Plant.tellReplica, Plant.replicaBytes, own, empty, empty, empty, ← hq]
  simp only [Plant.notify, Plant.emit, List.append_assoc]
  rfl

end

/-! ## The channel's command in a slot -/

/-- No command of the channel's Cue Sequencer waits in the port's slot. -/
def Port.Unslotted (x : Port) (c : Chan) : Prop := ∀ k, x.slotCue ≠ some (c, k)

section
variable {p : Plant} {c : Chan} {j : PortNo}

theorem Plant.cueOutcome_slotCue (p : Plant) (d : Chan) (s : StepEntry) (o : DevOutcome) (j : PortNo) :
    ((p.cueOutcome d s o).port j).slotCue = (p.port j).slotCue ∨ ((p.cueOutcome d s o).port j).slotCue = none := by
  have last : (p.writeLast d o).ports = p.ports := by
    unfold Plant.writeLast
    split <;> rfl
  have port : (p.writeLast d o).port j = p.port j := by rw [Plant.port, last, Plant.port]
  have drops : ∀ q : Plant, (q.dropRepetitions d s).ports = q.ports := fun q => by
    unfold Plant.dropRepetitions
    simp only
    split <;> rfl
  have skips : ∀ q : Plant, (q.skipEvent d s).ports = q.ports := fun q => by
    unfold Plant.skipEvent
    simp only
    repeat' split
    all_goals rfl
  have halts : ∀ (q : Plant) cause, ((q.haltSequence d cause).port j).slotCue = (q.port j).slotCue ∨
      ((q.haltSequence d cause).port j).slotCue = none := fun q cause => by
    unfold Plant.haltSequence
    split
    · exact Or.inl rfl
    · have withdrawn : ((q.port j).withdrawSlot d fun _ => true).slotCue = (q.port j).slotCue ∨
          ((q.port j).withdrawSlot d fun _ => true).slotCue = none := by
        unfold Port.withdrawSlot
        split
        · split
          · exact Or.inr rfl
          · exact Or.inl rfl
        · exact Or.inl rfl
      have port := Plant.port_mapPorts (q.modChan d fun x => { x with seq := { x.seq with halted := true, queue := [] } })
        (fun x => x.withdrawSlot d fun _ => true) j
      cases cause <;> exact port ▸ withdrawn
  have acts : ∀ (q : Plant) a, ((q.mismatchAction d s a).port j).slotCue = (q.port j).slotCue ∨
      ((q.mismatchAction d s a).port j).slotCue = none := fun q a => by
    cases a with
    | ignore => exact Or.inl rfl
    | skipEvent => exact Or.inl (by rw [Plant.mismatchAction, Plant.port, skips, Plant.port])
    | halt => exact halts q _
  rw [← port]
  simp only [Plant.cueOutcome]
  generalize p.writeLast d o = q at port last
  split
  · exact Or.inl (by rw [port])
  · split
    · split <;> exact Or.inl rfl
    · split
      · exact Or.inl (by rw [Plant.port, drops, Plant.port])
      · split
        · exact acts (q.tellCueFault d s _ _) _
        · exact Or.inl rfl

theorem Plant.cueOutcome_unslotted (h : (p.port j).Unslotted c) (d : Chan) (s : StepEntry) (o : DevOutcome) :
    ((p.cueOutcome d s o).port j).Unslotted c := fun k e => by
  rcases p.cueOutcome_slotCue d s o j with same | gone
  · exact h k (same ▸ e)
  · rw [gone] at e
    cases e

/-- R123: the heads taken go into the slot of the port in use, and no other. -/
theorem Plant.takeHeadsN_unslotted (n : Nat) (d : Chan) (h : (p.port j).Unslotted c) (hd : d = c → (p.chan c).portInUse ≠ some j) :
    ((Plant.takeHeadsN n d p).port j).Unslotted c := by
  induction n generalizing p with
  | zero => exact h
  | succ n ih =>
    have pop : ∀ (rest : List StepEntry) s, ∃ q, (p.modChan d fun x => { x with seq := { x.seq with queue := rest } }).taken d s = q ∧
        q.ports = p.ports ∧ q.plans = p.plans := fun rest s => by
      refine ⟨_, rfl, ?_, ?_⟩
      · unfold Plant.taken
        split <;> rfl
      · rw [Plant.taken_plans]
        exact p.plans_modChan d _ rfl
    have used : ∀ q : Plant, q.plans = p.plans → (d = c → (q.chan c).portInUse ≠ some j) := fun q e hc => by
      have := congrArg Channel.portInUse (congrFun e c)
      exact fun hq => hd hc (this ▸ hq)
    simp only [Plant.takeHeadsN]
    split
    · exact h
    · next s rest _ =>
      obtain ⟨q, hq, ports, plans⟩ := pop rest s
      have port : ∀ i, q.port i = p.port i := fun i => by rw [Plant.port, ports, Plant.port]
      have clear : (q.port j).Unslotted c := by rw [port]; exact h
      simp only [hq]
      split
      · exact h
      · split
        · split
          · exact ih (Plant.cueOutcome_unslotted clear d s _) (used _ (by rw [Plant.cueOutcome_plans, plans]))
          · exact ih clear (used _ plans)
        · next i hi =>
          split
          · exact h
          · split
            · exact ih clear (used _ plans)
            · split
              · by_cases e : i = j
                · subst e
                  rw [Plant.port_modPort_same]
                  intro k hk
                  obtain ⟨rfl, -⟩ := Prod.mk.inj (Option.some.inj hk)
                  exact hd rfl hi
                · rw [Plant.port_modPort_other _ _ (Ne.symm e)]
                  exact clear
              · exact ih (Plant.cueOutcome_unslotted clear d s _) (used _ (by rw [Plant.cueOutcome_plans, plans]))

end

section
variable {p : Plant} {c : Chan} {j : PortNo}

theorem Plant.setPort_unslotted (i : PortNo) {x : Port} (hx : i = j → x.Unslotted c) (h : (p.port j).Unslotted c) :
    ((p.setPort i x).port j).Unslotted c := by
  by_cases e : i = j
  · subst e
    rw [Plant.port_setPort_same]
    exact hx rfl
  · rw [p.port_setPort_other x (Ne.symm e)]
    exact h

theorem Port.dropFinished_slotCue (x : Port) : x.dropFinished.slotCue = x.slotCue := by
  unfold Port.dropFinished
  split <;> rfl

theorem Port.popCommand_slotCue (x : Port) : x.popCommand.slotCue = x.slotCue := by
  unfold Port.popCommand
  split <;> rfl

theorem Port.grant_slotCue (x : Port) (cmd : DevCmd) (r : Requester) : (x.grant cmd r).slotCue = x.slotCue := by
  rw [Port.grant, Port.handFrame]
  cases x.shift <;> rfl

/-- R106: the arbiter puts nothing into a slot. -/
theorem Plant.arbitrate_unslotted (i : PortNo) (h : (p.port j).Unslotted c) : ((p.arbitrate i).port j).Unslotted c := by
  have drop : i = j → (p.port i).dropFinished.Unslotted c := fun e k => by
    rw [Port.dropFinished_slotCue]
    exact e ▸ h k
  simp only [Plant.arbitrate]
  generalize (p.port i).dropFinished = x at drop
  split
  · exact Plant.setPort_unslotted i drop h
  · split
    · refine Plant.setPort_unslotted i (fun e k => ?_) h
      rw [Port.grant_slotCue, Port.popCommand_slotCue]
      exact drop e k
    · split
      · exact Plant.setPort_unslotted i drop h
      · split
        · next d s _ =>
          have sent : ((p.setPort i ({ x with slotCue := none }.grant s.action.cmd (.cue d s))).port j).Unslotted c :=
            Plant.setPort_unslotted i (fun _ k => by rw [Port.grant_slotCue]; exact nofun) h
          split
          · exact sent
          · exact sent
        · split
          · exact Plant.setPort_unslotted i (fun e k => by rw [Port.grant_slotCue]; exact drop e k) h
          · exact Plant.setPort_unslotted i drop h

/-- R106, R123: as a port settles, a channel puts its head into the slot of its port in use alone. -/
theorem Plant.settlePort_unslotted (i : PortNo) (h : (p.port j).Unslotted c) (hp : (p.chan c).portInUse ≠ some j) :
    ((p.settlePort i).port j).Unslotted c := by
  have fold : ∀ (us : List Chan) (q : Plant), q.plans = p.plans → (q.port j).Unslotted c →
      ((us.foldl Plant.takeHeads q).port j).Unslotted c := fun us => by
    induction us with
    | nil => exact fun _ _ hq => hq
    | cons d us ih =>
      intro q plans hq
      refine ih _ (by rw [Plant.takeHeads_plans, plans]) (Plant.takeHeadsN_unslotted _ d hq fun _ hc => hp ?_)
      exact (congrArg Channel.portInUse (congrFun plans c)).symm.trans hc
  rw [Plant.settlePort_eq]
  refine Plant.arbitrate_unslotted i (fold _ _ rfl (Plant.setPort_unslotted i (fun e k => ?_) h))
  rw [Port.dropFinished_slotCue]
  exact e ▸ h k

end

theorem Port.withdrawLists_idle {x : Port} {c : Chan} (claim : x.claim = [])
    (idle : ∀ k u live, x.outstanding ≠ some ⟨k, .changeover c u live⟩) : x.withdrawLists c true = x := by
  have out : ∀ o : Option Outstanding, (∀ k u live, o ≠ some ⟨k, .changeover c u live⟩) →
      { x with claim := [], outstanding := o }.withdrawLists c true = { x with claim := [], outstanding := o } := fun o idle => by
    cases o with
    | none => rfl
    | some b =>
      obtain ⟨k, r⟩ := b
      cases r with
      | changeover d u live =>
        have other : d ≠ c := fun e => idle k u live (by rw [e])
        simp [Port.withdrawLists, other]
      | _ => rfl
  have eta : x = { x with claim := [], outstanding := x.outstanding } := by rw [← claim]
  rw [eta]
  exact out _ idle

/-! ## A channel is configured anew -/

section
variable {p : Plant} {c : Chan} {g : ChannelConfig}

theorem Plant.reconfigure_same (h : p.primary c = some g.primary) :
    p.reconfigure c g = p.setChan c { p.chan c with config := some g } := by
  simp only [Plant.reconfigure, h, if_true]
  rfl

theorem Plant.reconfigure_other {old : PortNo} (h : p.primary c = some old) (ho : old ≠ g.primary) : p.reconfigure c g =
    ((p.setChan c { p.chan c with config := some g, portInUse := some g.primary }).disown c old).settlePort g.primary := by
  have set : (p.modChan c fun x => { x with config := some g }).usePort c (some g.primary) =
      p.setChan c { p.chan c with config := some g, portInUse := some g.primary } := by
    rw [Plant.usePort, Plant.modChan_modChan]
    rfl
  simp only [Plant.reconfigure, h, Option.some.injEq, ho, if_false, set]

/-- R138: what a new primary port leaves of the channel and of the old port. -/
theorem Plant.reconfigure_leaves {old : PortNo} (h : p.primary c = some old) (ho : old ≠ g.primary) {q : Plant}
    (hq : q = p.reconfigure c g) :
    (q.chan c).plan = { p.chan c with config := some g, portInUse := some g.primary }.plan ∧
    q.hold = p.hold ∧ q.spareQueue = p.spareQueue ∧ q.hbTimeout = p.hbTimeout ∧ (q.port old).Rid c ∧ (q.port old).Unslotted c := by
  rw [Plant.reconfigure_other h ho] at hq
  generalize hu : p.setChan c { p.chan c with config := some g, portInUse := some g.primary } = u at hq
  have own : u.chan c = { p.chan c with config := some g, portInUse := some g.primary } := by
    rw [← hu]
    exact p.chan_setChan_same c _
  have used : ∀ v : Plant, v.plans = u.plans → (v.chan c).portInUse ≠ some old := fun v e hv => by
    have := (congrArg Channel.portInUse (congrFun e c)).symm.trans hv
    rw [show (u.plans c).portInUse = (u.chan c).portInUse from rfl, own] at this
    exact ho (Option.some.inj this).symm
  have disowned : (u.disown c old).plans = u.plans := by rw [Plant.disown, Plant.settlePort_plans, Plant.modPort_plans]
  refine ⟨?_, ?_, ?_, ?_, ?_, ?_⟩
  · have plans : q.plans = u.plans := by rw [hq, Plant.settlePort_plans, disowned]
    exact (congrFun plans c).trans (congrArg Channel.plan own)
  · rw [hq]
    have kept : Plant.store ((u.disown c old).settlePort g.primary) = u.store := by simp [Plant.disown]
    exact (Plant.hold_of_store kept).trans (by rw [← hu]; rfl)
  · rw [hq, (Plant.settlePort_spares _ _).2, Plant.disown, (Plant.settlePort_spares _ _).2, ← hu]
    rfl
  · rw [hq]
    exact (Plant.still_of_rest (p := u) (by simp)).hbTimeout.trans (by rw [← hu]; rfl)
  · rw [hq]
    exact Plant.settlePort_rid _ (Plant.disown_rid old fun e => absurd rfl e)
  · rw [hq]
    refine Plant.settlePort_unslotted _ (Plant.settlePort_unslotted _ ?_ (used _ (Plant.modPort_plans _ _ _))) (used _ disowned)
    rw [Plant.port_modPort_same]
    exact Port.withdrawSlot_empty _ c

/-- R138: where nothing of the channel stands on either port and no step is queued, nothing else changes. -/
theorem Plant.reconfigure_exact {old : PortNo} (h : p.primary c = some old) (ho : old ≠ g.primary) (empty : (p.chan c).seq.queue = [])
    (left : p.OnlyFor old c) (taken : p.OnlyFor g.primary c)
    (idle : ∀ k u live, (p.port old).outstanding ≠ some ⟨k, .changeover c u live⟩) :
    p.reconfigure c g = p.setChan c { p.chan c with config := some g, portInUse := some g.primary } := by
  rw [Plant.reconfigure_other h ho]
  generalize hu : p.setChan c { p.chan c with config := some g, portInUse := some g.primary } = u
  have port : ∀ i, u.port i = p.port i := fun i => by rw [← hu]; rfl
  have others : p.OtherChans u c := fun d hd => by
    rw [← hu]
    exact p.chan_setChan_other _ hd
  have queue : (u.chan c).seq.queue = [] := by
    rw [← hu, Plant.chan_setChan_same]
    exact empty
  have keeps : ((u.port old).withdrawLists c true).withdrawSlot c (fun _ => true) = u.port old := by
    rw [port, Port.withdrawLists_idle left.claim idle, Port.withdrawSlot_clear fun s => by rw [left.slotCue]; exact nofun]
  have disowned : u.disown c old = u := by
    rw [Plant.disown, Plant.modPort, keeps, Plant.setPort_port]
    exact Plant.settlePort_bare (by rw [port]; exact left.bare) (left.quiet others queue)
  rw [disowned]
  exact Plant.settlePort_bare (by rw [port]; exact taken.bare) (taken.quiet others queue)

end

/-- R136: the heartbeat timeout taken where one is given. -/
theorem Plant.takeHeartbeat_eq (p : Plant) (h : Option Nat) : p.takeHeartbeat h = { p with hbTimeout := h.getD p.hbTimeout } := by
  cases h <;> rfl

/-- Settles O49: each check of R136 is one lemma about `setChannel`; a channel that starts and one configured anew have their state
named by `Channel.started` and by `Plant.reconfigure_same`, `_leaves` and `_exact`. -/
theorem setChannelFollowsR136 : Obligations.SetChannelFollowsR136 := by
  unfold Obligations.SetChannelFollowsR136
  refine ⟨fun tag a s had => ⟨fun h => State.request_answers _ _ had (setChannel_unknown h _), ?_⟩, fun p r =>
    ⟨fun g => ?_, watchSound_iff⟩⟩
  · rintro c x hc rfl
    refine ⟨fun h => State.request_answers _ _ had (setChannel_unsound hc h), fun g hg => ⟨?_, fun mode configured => ⟨?_, ?_⟩⟩⟩
    · intro wrong
      refine State.request_answers _ _ had (setChannel_mode hc hg ?_)
      have allows := s.plant.modeAllows_iff c g
      rcases wrong with ⟨idle, shadow⟩ | ⟨shadow, old, config, differs⟩ | ⟨-, unset⟩
      · refine Or.inl (Bool.eq_false_iff.mpr fun e => ?_)
        rcases allows.mp e with h | ⟨h, -⟩
        · exact idle h
        · exact shadow h
      · refine Or.inl (Bool.eq_false_iff.mpr fun e => ?_)
        rcases allows.mp e with h | ⟨-, old', config', same, day⟩
        · exact nomatch h.symm.trans shadow
        · obtain rfl := Option.some.inj (config.symm.trans config')
          exact differs.elim (fun h => h same) (fun h => h day)
      · exact Or.inr unset
    · intro taken
      refine State.request_answers _ _ had (setChannel_taken hc hg ((Plant.modeAllows_iff _ _ _).mpr mode) configured ?_)
      exact taken.imp id (Plant.primaryElsewhere_iff _ _ _).mpr
    · intro role free hb heartbeat
      have taken : s.plant.primaryElsewhere c g.primary = false :=
        Bool.eq_false_iff.mpr fun e => by
          obtain ⟨d, other, primary, busy⟩ := (Plant.primaryElsewhere_iff _ _ _).mp e
          exact busy (free d other primary)
      have answers : ∀ q : Plant, (if (s.plant.chan c).mode = .idle then s.plant.startChannel c g else s.plant.reconfigure c g) = q →
          q.hbTimeout = s.plant.hbTimeout → ∀ y, q.chan c = y → y.mode = .shadow →
          exec (.setChannel tag (.sound a)) s = .next (s.answered tag 0x0C { q with hbTimeout := hb } .ok
            (u8 1 ++ u8 y.replica.state.code ++ u8 y.watch.health.code)) := by
        rintro q hq same y rfl shadow
        have bytes : q.channelBytes c = u8 1 ++ u8 (q.chan c).replica.state.code ++ u8 (q.chan c).watch.health.code := by
          rw [Plant.channelBytes, shadow]
          rfl
        rw [← bytes]
        refine State.request_answers _ _ had ?_
        rw [setChannel_accepts hc hg ((Plant.modeAllows_iff _ _ _).mpr mode) configured role taken, Plant.acceptChannel, hq,
          Plant.takeHeartbeat_eq, same, ← heartbeat]
        rfl
      refine ⟨fun idle => ?_, fun shadow same => ?_, fun old shadow primary moved => ?_⟩
      · have started := Plant.startChannel_eq s.plant c g
        have own : (s.plant.startChannel c g).chan c = Channel.started (s.plant.ref g.reference) g := by
          rw [started]
          exact Plant.chan_setChan_same s.plant c _
        have beat : (s.plant.startChannel c g).hbTimeout = s.plant.hbTimeout := by rw [started]; rfl
        generalize s.plant.startChannel c g = q at started own beat answers
        exact ⟨{ q with hbTimeout := hb }, answers q (if_pos idle) beat _ own rfl, by rw [started]; rfl⟩
      · exact answers _ ((if_neg (by rw [shadow]; exact nofun)).trans (Plant.reconfigure_same same)) rfl
          { s.plant.chan c with config := some g }
          (Plant.chan_setChan_same _ c _) shadow
      · have anew : (if (s.plant.chan c).mode = .idle then s.plant.startChannel c g else s.plant.reconfigure c g) =
            s.plant.reconfigure c g := if_neg (by rw [shadow]; exact nofun)
        refine ⟨?_, fun empty left only idle => answers _ (anew.trans (Plant.reconfigure_exact primary moved empty left only idle)) rfl
          { s.plant.chan c with config := some g, portInUse := some g.primary }
          (Plant.chan_setChan_same _ c _) shadow⟩
        obtain ⟨q, hq⟩ : ∃ q, q = s.plant.reconfigure c g := ⟨_, rfl⟩
        obtain ⟨plan, hold, queue, beat, rid, slot⟩ := Plant.reconfigure_leaves primary moved hq
        have mode : (q.chan c).mode = .shadow := (congrArg Channel.mode plan :).trans shadow
        have replica : (q.chan c).replica = (s.plant.chan c).replica := (congrArg Channel.replica plan :)
        have watch : (q.chan c).watch = (s.plant.chan c).watch := (congrArg Channel.watch plan :)
        refine ⟨{ q with hbTimeout := hb }, (answers q (anew.trans hq.symm) beat _ rfl mode).trans ?_, (congrArg Channel.config plan :),
          (congrArg Channel.portInUse plan :), mode, (congrArg Channel.switch plan :), (congrArg Channel.now plan :),
          (congrArg Channel.baseDay plan :), replica, watch, (congrArg Channel.playlist plan :), rfl, hold, queue, rid.claim, slot⟩
        rw [replica, watch]
  · rw [p.configOf_iff, portOf_eq_some, numbersSound_iff]
    constructor
    · rintro ⟨reference, primary, standby, policy, bridge, numbers, spares, window, lead, tail, back, tol, line, day, watch, beat⟩
      rw [spares, window, lead, tail, back, tol, line, day, watch, beat] at numbers
      tauto
    · rintro ⟨reference, primary, spares, sp, standby, policy, window, w1, w2, bridge, lead, l1, l2, tail, t1, back, b1, b2, tol, v1,
        line, s1, s2, day, d1, watch, sound, beat, h1⟩
      refine ⟨reference, primary, standby, policy, bridge, ?_, spares, window, lead, tail, back, tol, line, day, watch, beat⟩
      rw [spares, window, lead, tail, back, tol, line, day, watch, beat]
      exact ⟨sp, w1, w2, l1, l2, t1, b1, b2, v1, s1, s2, d1, sound, h1⟩

end Sys2Proof.Machine
end

