-- ==== Sys2Proof/Proofs/Outcomes.lean ====
section
/-! PROOFS. What an outcome handed to a Cue Sequencer moves (R119, R124 to R126). -/

namespace Sys2Proof.Machine

theorem modEvent_eq (l : List Event) (id : Nat) (f : Event → Event) : modEvent l id f = l.map fun e => if e.id = id then f e else e := by
  simp only [modEvent, beq_iff_eq]

theorem Port.withdrawSlot_mine {x : Port} {c : Chan} {k : StepEntry} (h : x.slotCue = some (c, k)) :
    x.withdrawSlot c (fun _ => true) = { x with slotCue := none } := by
  simp [Port.withdrawSlot, h]

/-- R119: the channel with its last outcome written. -/
def Channel.heard (x : Channel) (o : DevOutcome) : Channel := { x with seq := { x.seq with last := some o.last } }

section
variable {p : Plant} {c : Chan} {k : StepEntry} {o : DevOutcome} {y : Channel} {os : List Outgoing}

theorem Plant.wrote_modEvent (id : Nat) (f : Event → Event) : (p.wrote c y os).modEvent c id f =
    p.wrote c { y with playlist := y.playlist.map fun e => if e.id = id then f e else e } os := by
  rw [Plant.modEvent, Plant.wrote_modChan, modEvent_eq]

theorem Plant.writeLast_wrote (h : (p.chan c).mode ≠ .idle) : p.writeLast c o = p.wrote c ((p.chan c).heard o) [] := by
  rw [Plant.writeLast, if_neg h, Plant.wrote, List.append_nil]
  rfl

/-- R125: a match drops what is left of its step. -/
theorem Plant.wrote_dropRepetitions (live : k.standing = .live) : (p.wrote c y os).dropRepetitions c k =
    p.wrote c { y with
      playlist := y.playlist.map fun e => if e.id = k.event then
        { e with progress := e.progress ++ (repetitions (p.templateOf e)).filter fun r => r.1 == k.step } else e
      seq := { y.seq with queue := y.seq.queue.filter fun t => !(t.event == k.event && t.step == k.step && t.standing == .live) } } os := by
  rw [Plant.dropRepetitions, Plant.wrote_modChan, if_pos live, Plant.wrote_modEvent, live]
  rfl

/-- R126: SKIP_EVENT drops the event's queued entries. -/
def Channel.unqueued (y : Channel) (k : StepEntry) (s : Standing) : Channel :=
  { y with seq := { y.seq with queue := y.seq.queue.filter fun t => !(t.event == k.event && t.standing == s) } }

/-- R126: the event's steps are spent. -/
def Plant.spent (p : Plant) (e : Event) : Event := { e with progress := e.progress ++ repetitions (p.templateOf e) }

theorem Plant.wrote_skipEvent_gone (h : k.standing ≠ .live ∨ findEvent y.playlist k.event = none) :
    (p.wrote c y os).skipEvent c k = p.wrote c (y.unqueued k k.standing) os := by
  rw [Plant.skipEvent_gone _ _ _ (by rw [Plant.wrote_chan]; exact h), Plant.wrote_modChan]
  rfl

section
variable {e : Event} (live : k.standing = .live) (found : findEvent y.playlist k.event = some e)
include live found

theorem Plant.wrote_skipEvent_early (h : e.cue = .pending ∨ e.cue = .cueing ∨ e.cue = .rolling) :
    (p.wrote c y os).skipEvent c k = p.wrote c { y.unqueued k .live with
      playlist := y.playlist.map fun j => if j.id = k.event then { p.spent j with
        cue := .skipped, bound := if j.cue = .pending then some (p.templateOf j) else j.bound } else j } os := by
  have skips : ∀ j : Event, p.skip (p.spent j) = { p.spent j with
      cue := .skipped, bound := if j.cue = .pending then some (p.templateOf j) else j.bound } := fun j => by
    have cue : (p.spent j).cue = j.cue := rfl
    rw [Plant.skip, cue]
    split <;> rfl
  have moves : (p.wrote c y os).skipEvent c k =
      ((p.wrote c y os).modChan c fun x => x.dropEntriesLike k).modEvent c k.event fun j => p.skip (p.spent j) := by
    simp only [Plant.skipEvent, live, Plant.wrote_chan, found]
    rcases h with h | h | h <;> rw [h] <;> rfl
  simp only [moves, skips, Plant.wrote_modChan, Plant.wrote_modEvent, Channel.dropEntriesLike, live]
  rfl

theorem Plant.wrote_skipEvent_late (h : e.cue = .done ∨ e.cue = .skipped ∨ (e.cue = .airing ∧ y.mode.running = false)) :
    (p.wrote c y os).skipEvent c k = p.wrote c { y.unqueued k .live with
      playlist := y.playlist.map fun j => if j.id = k.event then p.spent j else j } os := by
  have moves : (p.wrote c y os).skipEvent c k =
      ((p.wrote c y os).modChan c fun x => x.dropEntriesLike k).modEvent c k.event p.spent := by
    simp only [Plant.skipEvent, live, Plant.wrote_chan, found]
    rcases h with h | h | ⟨h, away⟩
    · rw [h]; rfl
    · rw [h]; rfl
    · rw [h, away]; rfl
  simp only [moves, Plant.wrote_modChan, Plant.wrote_modEvent, Channel.dropEntriesLike, live]
  rfl

theorem Plant.wrote_skipEvent_airing (h : e.cue = .airing) (running : y.mode.running = true) (hn : y.now = (p.chan c).now)
    (hg : y.config = (p.chan c).config) (hl : y.lineInForce = (p.chan c).lineInForce) :
    (p.wrote c y os).skipEvent c k = p.wrote c { y.unqueued k .live with
      playlist := y.playlist.map fun j => if j.id = k.event then { p.spent j with skipEnded := true } else j
      pendingSw := if y.pendingSw.any (fun w => w.cause != .follow) then y.pendingSw else
        [{ pos := .filler, frame := p.nextLineFrame c, cause := .follow, act := .plain }] } os := by
  generalize hq : ((p.wrote c y os).modChan c fun x => x.dropEntriesLike k).modEvent c k.event
    (fun j => { p.spent j with skipEnded := true }) = q
  have eq : q = p.wrote c { y.unqueued k .live with
      playlist := y.playlist.map fun j => if j.id = k.event then { p.spent j with skipEnded := true } else j } os := by
    simp only [← hq, Plant.wrote_modChan, Plant.wrote_modEvent, Channel.dropEntriesLike, live]
    rfl
  have moves : (p.wrote c y os).skipEvent c k =
      if (q.chan c).held then q else q.decideSwitch c .filler (q.nextLineFrame c) .follow .plain := by
    rw [← hq]
    simp only [Plant.skipEvent, live, Plant.wrote_chan, found, h, running, if_true]
    rfl
  have held : (q.chan c).held = y.pendingSw.any fun w => w.cause != .follow := by
    rw [eq, Plant.wrote_chan]
    rfl
  have next : q.nextLineFrame c = p.nextLineFrame c := by
    have rest : q.rest = p.rest := by rw [eq]; rfl
    have own := (congrArg (fun q : Plant => q.chan c) eq).trans (Plant.wrote_chan p c _ os)
    exact Plant.nextLineFrame_congr c rest ((congrArg Channel.now own :).trans hn) ((congrArg Channel.config own :).trans hg)
      ((congrArg Channel.lineInForce own :).trans hl)
  rw [moves, held, Plant.decideSwitch_next, next, eq]
  cases y.pendingSw.any fun w => w.cause != .follow with
  | true => rfl
  | false =>
    simp only [Bool.false_eq_true, if_false, Plant.wrote_modChan]

end

/-! ## Outcomes -/

section
variable (configured : (p.chan c).mode ≠ .idle)
include configured

theorem Plant.cueOutcome_sent {cmd : DevCmd} (ha : k.action = .send cmd) (h : cmd ≠ .roll ∨ o ≠ .done ∨ k.standing ≠ .live) :
    p.cueOutcome c k o = p.wrote c ((p.chan c).heard o) [] := by
  have still : ¬(cmd = .roll ∧ o = .done ∧ k.standing = .live) := fun ⟨a, b, d⟩ =>
    h.elim (fun h => h a) fun h => h.elim (fun h => h b) fun h => h d
  simp only [Plant.cueOutcome, if_neg configured, ha, if_neg still, Plant.writeLast_wrote configured]

theorem Plant.cueOutcome_rolls (ha : k.action = .send .roll) (done : o = .done) (live : k.standing = .live) :
    p.cueOutcome c k o = p.wrote c { (p.chan c).heard o with
      playlist := (p.chan c).playlist.map fun e => if e.id = k.event ∧ e.cue = .cueing then { e with cue := .rolling } else e } [] := by
  have rolls : ∀ e : Event, (if e.id = k.event then (if e.cue = .cueing then { e with cue := .rolling } else e) else e) =
      if e.id = k.event ∧ e.cue = .cueing then { e with cue := .rolling } else e := fun e => by
    by_cases h : e.id = k.event <;> simp [h]
  subst done
  simp only [Plant.cueOutcome, if_neg configured, ha, live, and_self, if_true, Plant.writeLast_wrote configured,
    Plant.wrote_modEvent, rolls]
  rfl

section
variable {mode : DevMode} {clip : Option (List Byte)} {action : Mismatch} (ha : k.action = .verify mode clip action)
include ha

theorem Plant.cueOutcome_matches (h : verifyMatches mode clip o = true) :
    p.cueOutcome c k o = (p.wrote c ((p.chan c).heard o) []).dropRepetitions c k := by
  simp only [Plant.cueOutcome, if_neg configured, ha, h, if_true, Plant.writeLast_wrote configured]

/-- R125: CUE FAULT, with the action taken. -/
def StepEntry.fault (k : StepEntry) (c : Chan) (r : CueReason) (a : Option Mismatch) : Outgoing :=
  .notice ⟨.cueFault, some c, u32 k.event ++ opt u8 (some k.step) ++ opt u8 (some k.rep) ++ opt flag (some k.isLast) ++ r.bytes ++
    opt u8 (a.map Mismatch.code)⟩

variable (h : verifyMatches mode clip o = false)
include h

theorem Plant.cueOutcome_faults (early : k.isLast = false ∨ k.standing = .removed) :
    p.cueOutcome c k o = p.wrote c ((p.chan c).heard o) [k.fault c (mismatchReason mode o) none] := by
  have passes : (k.isLast && k.standing != .removed) = false := by
    rcases early with e | e
    · rw [e]; rfl
    · rw [e, Bool.and_eq_false_iff]; exact Or.inr rfl
  simp only [Plant.cueOutcome, if_neg configured, ha, h, passes, Bool.false_eq_true, if_false, Plant.writeLast_wrote configured]
  exact Plant.wrote_notify ..

theorem Plant.cueOutcome_acts (last : k.isLast = true) (kept : k.standing ≠ .removed) : p.cueOutcome c k o =
    (p.wrote c ((p.chan c).heard o) [k.fault c (mismatchReason mode o) (some action)]).mismatchAction c k action := by
  have acts : (k.isLast && k.standing != .removed) = true := by
    rw [last, Bool.true_and]
    exact bne_iff_ne.mpr kept
  simp only [Plant.cueOutcome, if_neg configured, ha, h, acts, Bool.false_eq_true, if_false, if_true, Plant.writeLast_wrote configured]
  exact congrArg (fun q : Plant => q.mismatchAction c k action) (Plant.wrote_notify ..)

end

end

end

/-- R125: the outcomes that match. -/
theorem verifyMatches_iff (mode : DevMode) (clip : Option (List Byte)) (o : DevOutcome) : verifyMatches mode clip o = true ↔
    ∃ m id fr, o = .state m id fr ∧ m = mode ∧ (clip = none ∨ clip = some id) := by
  cases o with
  | state m id fr =>
    have form : verifyMatches mode clip (.state m id fr) = true ↔ m = mode ∧ (clip = none ∨ clip = some id) := by
      cases clip with
      | none => simp [verifyMatches]
      | some want =>
        rw [verifyMatches, Bool.and_eq_true, beq_iff_eq, beq_iff_eq, or_iff_right nofun, Option.some_inj, eq_comm (a := id)]
    rw [form]
    refine ⟨fun h => ⟨m, id, fr, rfl, h⟩, ?_⟩
    rintro ⟨_, _, _, e, h⟩
    obtain ⟨rfl, rfl, rfl⟩ := DevOutcome.state.inj e
    exact h
  | _ => simp [verifyMatches]

/-- R125: the reason by the outcome. -/
theorem mismatchReason_bytes {mode : DevMode} {clip : Option (List Byte)} {o : DevOutcome} {reason : List Byte}
    (h : (∃ m id fr, o = .state m id fr ∧ (m ≠ mode ∨ (∃ want, clip = some want ∧ want ≠ id)) ∧
        reason = u8 0 ++ u8 1 ++ u8 mode.code ++ u8 1 ++ u8 m.code ++ u8 1 ++ str id) ∨
      (((∃ n, o = .refused n) ∨ o = .done) ∧ reason = u8 1 ++ u8 0 ++ u8 0 ++ u8 0) ∨
      (o = .timeout ∧ reason = u8 2 ++ u8 0 ++ u8 0 ++ u8 0) ∨ (o = .lineError ∧ reason = u8 3 ++ u8 0 ++ u8 0 ++ u8 0)) :
    verifyMatches mode clip o = false ∧ (mismatchReason mode o).bytes = reason := by
  obtain ⟨m, id, fr, rfl, differs, rfl⟩ | ⟨⟨n, rfl⟩ | rfl, rfl⟩ | ⟨rfl, rfl⟩ | ⟨rfl, rfl⟩ := h
  · refine ⟨Bool.eq_false_iff.mpr fun h => ?_, ?_⟩
    · obtain ⟨m', id', fr', e, same, clips⟩ := (verifyMatches_iff _ _ _).mp h
      obtain ⟨rfl, rfl, rfl⟩ := DevOutcome.state.inj e
      rcases differs with moved | ⟨want, rfl, other⟩
      · exact moved same
      · exact clips.elim nofun fun e => other (Option.some.inj e)
    · simp only [mismatchReason, CueReason.bytes, opt, List.append_assoc]
  all_goals exact ⟨rfl, rfl⟩

/-- Settles O47: `Plant.cueOutcome` by the entry's action; what a VERIFY's last repetition moves is `haltSequence` or `skipEvent`
on the channel with its outcome written and the notice sent. -/
theorem outcomesMoveSteps : Obligations.OutcomesMoveSteps := by
  unfold Obligations.OutcomesMoveSteps
  rintro c k o p q x y rfl rfl
  refine ⟨fun idle => if_pos idle, ?_⟩
  rintro configured rfl
  have plain : p.wrote c ((p.chan c).heard o) [] = p.setChan c ((p.chan c).heard o) := by
    rw [Plant.wrote, List.append_nil]
    rfl
  refine ⟨fun cmd ha => ⟨fun h => (Plant.cueOutcome_sent configured ha h).trans plain, ?_⟩, fun mode clip action ha => ⟨?_, ?_⟩⟩
  · rintro rfl done live
    rw [Plant.cueOutcome_rolls configured ha done live, Plant.wrote, List.append_nil]
    rfl
  · intro h live
    rw [Plant.cueOutcome_matches configured ha ((verifyMatches_iff _ _ _).mpr h), Plant.wrote_dropRepetitions live, Plant.wrote,
      List.append_nil]
    rfl
  · intro reason f hr hf
    obtain ⟨differs, bytes⟩ := mismatchReason_bytes hr
    have told : ∀ a, f a = p.wrote c ((p.chan c).heard o) [k.fault c (mismatchReason mode o) a] := fun a => by
      rw [hf, StepEntry.fault, bytes]
      simp only [opt, List.append_assoc]
      rfl
    have rewrites : ∀ a z, (f a).setChan c z = p.wrote c z [k.fault c (mismatchReason mode o) a] := fun a z => by
      rw [told]
      exact Plant.wrote_modChan p c _ _ fun _ => z
    refine ⟨fun early => (Plant.cueOutcome_faults configured ha differs early).trans (told none).symm, fun last kept => ?_⟩
    have acts := Plant.cueOutcome_acts configured ha differs last kept
    refine ⟨?_, ?_, ?_, ?_, ?_⟩
    · rintro rfl
      exact acts.trans (told _).symm
    · rintro rfl halted
      refine acts.trans ((if_pos ?_).trans (told _).symm)
      rw [Plant.wrote_chan]
      exact halted
    · rintro rfl free
      obtain ⟨chan, ports, out, hold, -⟩ := Plant.haltSequence_sets (p := p.wrote c ((p.chan c).heard o) [k.fault c (mismatchReason mode o)
        (some .halt)]) (c := c) (by rw [Plant.wrote_chan]; exact free) _ acts
      rw [Plant.wrote_chan] at chan
      refine ⟨chan, fun i => ⟨fun s hs => ?_, fun hs => ?_⟩, ?_, hold, ?_, ?_⟩
      · exact (ports i).trans (Port.withdrawSlot_mine hs)
      · exact (ports i).trans (Port.withdrawSlot_clear hs _)
      · rw [out, told]
        rfl
      · rw [acts]
        exact Plant.still_of_rest (Plant.haltSequence_rest _ c _)
      · rw [acts]
        exact fun d hd => (Plant.otherChans_of_around (Plant.haltSequence_around (b := true) _ c _) d hd).trans
          (p.chan_setChan_other _ hd)
    · rintro rfl gone
      rw [acts, rewrites]
      refine Plant.wrote_skipEvent_gone (y := (p.chan c).heard o) (gone.imp ?_ id)
      intro retired
      rw [retired]
      exact nofun
    · rintro rfl live e z spent found hs rfl
      obtain rfl : spent = p.spent := funext hs
      refine ⟨fun early => ?_, fun late => ?_, ?_⟩
      · rw [acts, rewrites]
        exact Plant.wrote_skipEvent_early (y := (p.chan c).heard o) live found early
      · rw [acts, rewrites]
        exact Plant.wrote_skipEvent_late (y := (p.chan c).heard o) live found late
      · rintro airing running line rfl
        rw [acts, rewrites]
        exact Plant.wrote_skipEvent_airing (y := (p.chan c).heard o) live found airing running rfl rfl rfl

end Sys2Proof.Machine
end

