-- ==== Sys2Proof/Proofs/CueStates.lean ====
section
/-! PROOFS. The cue states that a frame start moves (R127, R128, R120). -/

namespace Sys2Proof.Machine

/-! ## What the moving of cue states reads and what it writes -/

/-- An event without what is noted of it when it has been told or logged. -/
def Event.shown (e : Event) : Event := { e with asRun := false, emptyTold := false }

/-- The channel's events, so far as R127 moves them. -/
def Plant.shows (p : Plant) (c : Chan) : List Event := (p.chan c).playlist.map Event.shown

/-- What R127 reads beside the events. -/
def Plant.cueSetting (p : Plant) (c : Chan) : Nat × Nat × Bool × Bool × Vector (List Step) 32 :=
  ((p.chan c).now, p.prerollInUse c, (p.chan c).seq.issuing, (p.chan c).seq.halted, p.templates)

/-- From one plant to another the channel's events change as a function says, and what R127 reads beside them stands. -/
structure Plant.Recues (p q : Plant) (c : Chan) (f : Event → Event) : Prop where
  setting : q.cueSetting c = p.cueSetting c
  events : q.shows c = (p.shows c).map f

section
variable {p q r : Plant} {c : Chan} {n : Nat} {f g : Event → Event}

theorem Plant.Recues.refl (p : Plant) (c : Chan) : p.Recues p c id := ⟨rfl, (List.map_id _).symm⟩

theorem Plant.Recues.trans (h : p.Recues q c f) (h' : q.Recues r c g) : p.Recues r c (g ∘ f) :=
  ⟨h'.setting.trans h.setting, by rw [h'.events, h.events, List.map_map]⟩

theorem Plant.Recues.then (h : p.Recues q c f) (h' : q.Recues r c id) : p.Recues r c f := h.trans h'

theorem Plant.Recues.after (h' : p.Recues q c id) (h : q.Recues r c f) : p.Recues r c f := h'.trans h

theorem Plant.Recues.congr (h : p.Recues q c f) (e : ∀ j ∈ p.shows c, f j = g j) : p.Recues q c g :=
  ⟨h.setting, h.events.trans (List.map_congr_left e)⟩

theorem Plant.recues_of_chan (hc : q.chan c = p.chan c) (hp : q.ports = p.ports) (ht : q.templates = p.templates) : p.Recues q c id :=
  ⟨by simp only [Plant.cueSetting, Plant.prerollInUse, Plant.primary, Plant.config, Plant.port, hc, hp, ht],
    by rw [List.map_id, Plant.shows, hc, Plant.shows]⟩

/-- A change of the channel that leaves what R127 reads. -/
theorem Plant.recues_modChan (p : Plant) (c : Chan) (m : Channel → Channel) {f : Event → Event} (hn : (m (p.chan c)).now = (p.chan c).now)
    (hu : (m (p.chan c)).portInUse = (p.chan c).portInUse) (hg : (m (p.chan c)).config = (p.chan c).config)
    (hi : (m (p.chan c)).seq.issuing = (p.chan c).seq.issuing) (hh : (m (p.chan c)).seq.halted = (p.chan c).seq.halted)
    (he : (m (p.chan c)).playlist.map Event.shown = ((p.chan c).playlist.map Event.shown).map f) : p.Recues (p.modChan c m) c f := by
  have port : ∀ i, (p.modChan c m).port i = p.port i := fun _ => rfl
  have templates : (p.modChan c m).templates = p.templates := rfl
  refine ⟨?_, by rw [Plant.shows, Plant.chan_modChan_same, he, Plant.shows]⟩
  simp only [Plant.cueSetting, Plant.prerollInUse, Plant.primary, Plant.config, port, templates, Plant.chan_modChan_same, hn, hu, hg, hi,
    hh]

theorem Plant.recues_modEvent (p : Plant) (c : Chan) (n : Nat) {m f : Event → Event} (h : ∀ e, (m e).shown = f e.shown) :
    p.Recues (p.modEvent c n m) c fun e => if e.id = n then f e else e := by
  refine Plant.recues_modChan p c _ rfl rfl rfl rfl rfl ?_
  rw [modEvent_eq, List.map_map, List.map_map]
  refine List.map_congr_left fun e _ => ?_
  have same : e.shown.id = e.id := rfl
  simp only [Function.comp, same]
  split
  · exact h e
  · rfl

theorem Plant.recues_unmoved (p : Plant) (c : Chan) (n : Nat) {m : Event → Event} (h : ∀ e, (m e).shown = e.shown) :
    p.Recues (p.modEvent c n m) c id :=
  (Plant.recues_modEvent p c n (f := id) h).congr fun j _ => ite_self j

theorem Plant.Recues.unmoved (h : p.Recues q c f) (n : Nat) {m : Event → Event} (hm : ∀ e, (m e).shown = e.shown) :
    p.Recues (q.modEvent c n m) c f := h.then (Plant.recues_unmoved q c n hm)

/-! ## The as-run entries that it opens and closes -/

theorem Plant.closeEntry_recues (p : Plant) (c : Chan) (exit : ExitKind) (t : Nat) : p.Recues (p.closeEntry c exit t) c id := by
  have closed : ∀ item, p.Recues ((p.appendEntry item).modChan c fun x => { x with openEntry := none }) c id := fun item =>
    Plant.Recues.after (p := p) (q := p.appendEntry item) (Plant.recues_of_chan rfl rfl rfl)
      (Plant.recues_modChan _ c (fun x => { x with openEntry := none }) rfl rfl rfl rfl rfl (List.map_id _).symm)
  unfold Plant.closeEntry
  split
  · exact .refl p c
  · exact .unmoved (closed _) _ (by exact fun _ => rfl)

theorem Plant.openEntryFor_recues (p : Plant) (c : Chan) (n t : Nat) (kind : EntryKind) (port : Option PortNo) :
    p.Recues (p.openEntryFor c n t kind port) c id := by
  have opened : ∀ q : Plant, p.Recues q c id → p.Recues (q.modChan c fun x =>
      { x with openEntry := some { event := n, start := t, kind := kind, port := port } }) c id := fun q h =>
    h.then (Plant.recues_modChan q c _ rfl rfl rfl rfl rfl (List.map_id _).symm)
  unfold Plant.openEntryFor
  refine opened _ ?_
  split
  · exact p.closeEntry_recues c _ _
  · exact .refl p c

theorem Plant.airingEntry_recues (p : Plant) (c : Chan) (halted : Bool) (e : Event) : p.Recues (p.airingEntry c halted e) c id := by
  unfold Plant.airingEntry
  simp only
  split
  · split
    · exact p.openEntryFor_recues c _ _ _ _
    · split
      · exact .refl p c
      · split <;> exact p.openEntryFor_recues c _ _ _ _
  · exact .refl p c

theorem Plant.doneEntry_recues (p : Plant) (c : Chan) (stepped : Bool) (e : Event) : p.Recues (p.doneEntry c stepped e) c id := by
  unfold Plant.doneEntry
  split
  · split
    · split <;> exact p.closeEntry_recues c _ _
    · exact .refl p c
  · exact .refl p c

theorem Plant.tellIfEmpty_recues (p : Plant) (c : Chan) (e : Event) : p.Recues (p.tellIfEmpty c e) c id := by
  unfold Plant.tellIfEmpty
  split
  · exact (Plant.recues_unmoved p c e.id (m := fun e => { e with emptyTold := true }) fun _ => rfl).then
      (Plant.recues_of_chan (by rfl) (by rfl) (by rfl))
  · exact .refl p c

/-! ## One event -/

/-- An event's cue state moves; leaving PENDING binds the template (R116). -/
def Plant.turned (p : Plant) (s : CueState) (e : Event) : Event :=
  if e.cue = .pending ∧ s ≠ .pending then p.bindTo s e else { e with cue := s }

/-- R127, rule 1. -/
def Plant.finished (p : Plant) (c : Chan) (e : Event) : Event :=
  if e.cue = .airing ∧ e.rend ≤ (p.chan c).now then { e with cue := .done } else e

/-- R127, rules 2 to 4: the event before AIRING, moved to a cue state. -/
def Plant.cueTurned (p : Plant) (c : Chan) (s : CueState) (e : Event) : Event :=
  if s = .airing then p.finished c { p.turned .airing e with begunHalted := (p.chan c).seq.halted }
  else if s = e.cue then e else p.turned s e

/-- R127 for one event. -/
def Plant.cueMoved (p : Plant) (c : Chan) (e : Event) : Event :=
  match e.cue with
  | .airing => p.finished c e
  | .done | .skipped => e
  | _ => p.cueTurned c (p.nextCue (p.chan c).now (p.prerollInUse c) (p.chan c).seq.issuing e) e

theorem Plant.templateOf_congr (h : q.templates = p.templates) (e : Event) : q.templateOf e = p.templateOf e := by
  simp only [Plant.templateOf, h]

theorem Plant.templates_of_setting (h : q.cueSetting c = p.cueSetting c) : q.templates = p.templates :=
  congrArg (fun σ => σ.2.2.2.2) h

theorem Plant.turned_congr (h : q.cueSetting c = p.cueSetting c) : q.turned = p.turned := by
  unfold Plant.turned Plant.bindTo
  rw [show q.templateOf = p.templateOf from funext (Plant.templateOf_congr (Plant.templates_of_setting h))]

theorem Plant.finished_congr (h : q.cueSetting c = p.cueSetting c) : q.finished c = p.finished c := by
  unfold Plant.finished
  rw [show (q.chan c).now = (p.chan c).now from congrArg (fun σ => σ.1) h]

theorem Plant.cueMoved_congr (h : q.cueSetting c = p.cueSetting c) : q.cueMoved c = p.cueMoved c := by
  have next : q.nextCue = p.nextCue := by
    unfold Plant.nextCue
    rw [show q.templateOf = p.templateOf from funext (Plant.templateOf_congr (Plant.templates_of_setting h))]
  obtain ⟨now, preroll, issuing, halted, -⟩ := by simpa only [Plant.cueSetting, Prod.mk.injEq] using h
  unfold Plant.cueMoved Plant.cueTurned
  rw [next, Plant.turned_congr h, Plant.finished_congr h, now, preroll, issuing, halted]

/-- The event that bears an id, among events whose ids differ. -/
theorem Plant.eq_of_shows (nodup : ((p.shows c).map (·.id)).Nodup) {e : Event} (h : findEvent (p.chan c).playlist n = some e) {j : Event}
    (hj : j ∈ p.shows c) (hn : j.id = n) : j = e.shown := by
  have mem : e.shown ∈ p.shows c := List.mem_map_of_mem (List.mem_of_find?_eq_some h)
  have hid : e.id = n := by simpa using List.find?_some h
  exact List.inj_on_of_nodup_map nodup hj mem (hn.trans hid.symm)

theorem Plant.absent_of_shows (h : findEvent (p.chan c).playlist n = none) {j : Event} (hj : j ∈ p.shows c) : j.id ≠ n := by
  obtain ⟨e, he, rfl⟩ := List.mem_map.mp hj
  have absent : ¬e.id = n := by simpa using List.find?_eq_none.mp h e he
  exact absent

theorem Plant.setCue_recues (p : Plant) (c : Chan) (n : Nat) (s : CueState) :
    p.Recues (p.setCue c n s) c fun e => if e.id = n then p.turned s e else e :=
  Plant.recues_modEvent p c n fun e => by
    have cue : e.shown.cue = e.cue := rfl
    simp only [Plant.turned, cue]
    split <;> rfl

/-- What is done to the one event that bears an id, done by a case of its own. -/
theorem Plant.Recues.found (nodup : ((p.shows c).map (·.id)).Nodup) {e : Event} (found : findEvent (p.chan c).playlist n = some e)
    (h : p.Recues q c fun j => if j.id = n then f j else j) (same : f e.shown = g e.shown) :
    p.Recues q c fun j => if j.id = n then g j else j :=
  h.congr fun _ hj => by
    split
    · next hn => rw [Plant.eq_of_shows nodup found hj hn, same]
    · rfl

theorem Plant.Recues.unfound (found : findEvent (p.chan c).playlist n = none) (h : p.Recues q c id) :
    p.Recues q c fun j => if j.id = n then g j else j :=
  h.congr fun _ hj => (if_neg (Plant.absent_of_shows found hj)).symm

theorem Plant.Recues.fixed (nodup : ((p.shows c).map (·.id)).Nodup) {e : Event} (found : findEvent (p.chan c).playlist n = some e)
    (h : p.Recues q c id) (same : g e.shown = e.shown) : p.Recues q c fun j => if j.id = n then g j else j :=
  .found nodup found (f := id) (h.congr fun j _ => (ite_self j).symm) same.symm

/-- R127, rule 1. -/
theorem Plant.finishIfEnded_recues (nodup : ((p.shows c).map (·.id)).Nodup) (stepped : Bool) (n : Nat) :
    p.Recues (p.finishIfEnded c stepped n) c fun e => if e.id = n then p.finished c e else e := by
  unfold Plant.finishIfEnded
  cases found : findEvent (p.chan c).playlist n with
  | none => exact .unfound found (.refl p c)
  | some e =>
    simp only
    split
    · next h =>
      have turned : (p.doneEntry c stepped e).turned .done e.shown = p.finished c e.shown := by
        obtain ⟨airing, ended⟩ := h
        have cue : e.shown.cue = .airing := airing
        rw [Plant.finished, if_pos ⟨cue, ended⟩, Plant.turned, if_neg fun h => nomatch h.1.symm.trans cue]
      exact .found nodup found ((p.doneEntry_recues c stepped e).after (Plant.setCue_recues _ c n .done)) turned
    · next h => exact .fixed nodup found (.refl p c) (if_neg h)

theorem Plant.turned_id (s : CueState) (e : Event) : (p.turned s e).id = e.id := by
  unfold Plant.turned
  split <;> rfl

theorem Plant.finished_id (e : Event) : (p.finished c e).id = e.id := by
  unfold Plant.finished
  split <;> rfl

/-- R127, rules 2 to 4: the plant as an event before AIRING moves to a cue state. -/
def Plant.cueCarried (p : Plant) (c : Chan) (stepped : Bool) (n : Nat) (s : CueState) (e : Event) : Plant :=
  let q := p.tellIfEmpty c e
  if s = e.cue then q
  else match s with
    | .airing =>
      (((q.setCue c n .airing).modEvent c n fun e => { e with begunHalted := (p.chan c).seq.halted }).airingEntry c
        (p.chan c).seq.halted e).finishIfEnded c stepped n
    | .skipped => (q.setCue c n .skipped).modChan c fun x => x.dropEntries n
    | s => q.setCue c n s

theorem Plant.Recues.nodup (h : p.Recues q c f) (hf : ∀ e, (f e).id = e.id) (nodup : ((p.shows c).map (·.id)).Nodup) :
    ((q.shows c).map (·.id)).Nodup := by
  rw [h.events, List.map_map]
  exact (List.map_congr_left fun e _ => hf e).symm ▸ nodup

theorem Plant.cueCarried_recues (nodup : ((p.shows c).map (·.id)).Nodup) (stepped : Bool) {n : Nat} {e : Event}
    (found : findEvent (p.chan c).playlist n = some e) (early : e.cue ≠ .airing) (s : CueState) :
    p.Recues (p.cueCarried c stepped n s e) c fun j => if j.id = n then p.cueTurned c s j else j := by
  have told := p.tellIfEmpty_recues c e
  unfold Plant.cueCarried
  generalize p.tellIfEmpty c e = q at told
  have sets : ∀ s, p.Recues (q.setCue c n s) c fun j => if j.id = n then p.turned s j else j := fun s => by
    rw [← Plant.turned_congr told.setting]
    exact told.after (Plant.setCue_recues q c n s)
  simp only
  split
  · next same => exact .fixed nodup found told (by rw [Plant.cueTurned, if_neg (by rw [same]; exact early)]; exact if_pos same)
  · next moved =>
    have turns : s ≠ .airing → p.turned s e.shown = p.cueTurned c s e.shown := fun h => by
      rw [Plant.cueTurned, if_neg h]
      exact (if_neg moved).symm
    cases s with
    | airing =>
      have begun := (sets .airing).trans (Plant.recues_modEvent (q.setCue c n .airing) c n (m := fun e =>
        { e with begunHalted := (p.chan c).seq.halted }) (f := fun e => { e with begunHalted := (p.chan c).seq.halted }) fun _ => rfl)
      have aired := begun.then (Plant.airingEntry_recues _ c (p.chan c).seq.halted e)
      have keeps : ∀ j : Event, ((fun j => if j.id = n then { j with begunHalted := (p.chan c).seq.halted } else j) ∘
          fun j => if j.id = n then p.turned .airing j else j) j = if j.id = n then
            { p.turned .airing j with begunHalted := (p.chan c).seq.halted } else j := fun j => by
        by_cases hj : j.id = n <;> simp [hj, Plant.turned_id]
      have aired := aired.congr fun j _ => keeps j
      have ids : ∀ j : Event, (if j.id = n then { p.turned .airing j with begunHalted := (p.chan c).seq.halted } else j : Event).id =
          j.id := fun j => by
        split
        · exact Plant.turned_id _ j
        · rfl
      refine (aired.trans (Plant.finishIfEnded_recues (aired.nodup ids nodup) stepped n)).congr fun j _ => ?_
      rw [Plant.finished_congr aired.setting, Function.comp, ids]
      by_cases hj : j.id = n
      · rw [if_pos hj, if_pos hj, if_pos hj, Plant.cueTurned, if_pos rfl]
      · rw [if_neg hj, if_neg hj, if_neg hj]
    | skipped =>
      refine .found nodup found ((sets .skipped).then (Plant.recues_modChan _ c (fun x => x.dropEntries n) rfl rfl rfl rfl rfl
        (List.map_id _).symm)) (turns nofun)
    | pending => exact .found nodup found (sets .pending) (turns nofun)
    | cueing => exact .found nodup found (sets .cueing) (turns nofun)
    | rolling => exact .found nodup found (sets .rolling) (turns nofun)
    | done => exact .found nodup found (sets .done) (turns nofun)

theorem Plant.moveCue_early {e : Event} (found : findEvent (p.chan c).playlist n = some e)
    (h : e.cue = .pending ∨ e.cue = .cueing ∨ e.cue = .rolling) (stepped : Bool) : p.moveCue c stepped n = p.cueCarried c stepped n
      (p.nextCue (p.chan c).now (p.prerollInUse c) (p.chan c).seq.issuing e) e := by
  rcases h with h | h | h <;> simp only [Plant.moveCue, Plant.cueCarried, found, h] <;> rfl

theorem Plant.moveCue_airing {e : Event} (found : findEvent (p.chan c).playlist n = some e) (h : e.cue = .airing) (stepped : Bool) :
    p.moveCue c stepped n = p.finishIfEnded c stepped n := by simp only [Plant.moveCue, found, h]

/-- R127 for one event. -/
theorem Plant.moveCue_recues (nodup : ((p.shows c).map (·.id)).Nodup) (stepped : Bool) (n : Nat) :
    p.Recues (p.moveCue c stepped n) c fun e => if e.id = n then p.cueMoved c e else e := by
  cases found : findEvent (p.chan c).playlist n with
  | none => 
    rw [Plant.moveCue, found]
    exact .unfound found (.refl p c)
  | some e =>
    have early : (e.cue = .pending ∨ e.cue = .cueing ∨ e.cue = .rolling) → p.Recues (p.moveCue c stepped n) c
        fun e => if e.id = n then p.cueMoved c e else e := fun h => by
      have moves : p.cueTurned c (p.nextCue (p.chan c).now (p.prerollInUse c) (p.chan c).seq.issuing e) e.shown = p.cueMoved c e.shown := by
        have cue : e.shown.cue = e.cue := rfl
        rcases h with h | h | h <;> simp only [Plant.cueMoved, cue, h] <;> rfl
      rw [Plant.moveCue_early found h]
      exact .found nodup found (Plant.cueCarried_recues nodup stepped found (by rcases h with h | h | h <;> rw [h] <;> nofun) _) moves
    have cue : e.shown.cue = e.cue := rfl
    cases h : e.cue with
    | airing =>
      have same : p.finished c e.shown = p.cueMoved c e.shown := by simp only [Plant.cueMoved, cue, h]
      rw [Plant.moveCue_airing found h]
      exact .found nodup found (Plant.finishIfEnded_recues nodup stepped n) same
    | done =>
      have moves : p.moveCue c stepped n = p := by simp only [Plant.moveCue, found, h]
      rw [moves]
      exact .fixed nodup found (.refl p c) (by simp only [Plant.cueMoved, cue, h])
    | skipped =>
      have moves : p.moveCue c stepped n = p := by simp only [Plant.moveCue, found, h]
      rw [moves]
      exact .fixed nodup found (.refl p c) (by simp only [Plant.cueMoved, cue, h])
    | pending => exact early (.inl h)
    | cueing => exact early (.inr (.inl h))
    | rolling => exact early (.inr (.inr h))

theorem Plant.cueTurned_id (s : CueState) (e : Event) : (p.cueTurned c s e).id = e.id := by
  unfold Plant.cueTurned
  split
  · exact (Plant.finished_id _).trans (Plant.turned_id .airing e)
  · split
    · rfl
    · exact Plant.turned_id s e

theorem Plant.cueMoved_id (e : Event) : (p.cueMoved c e).id = e.id := by
  unfold Plant.cueMoved
  split
  · exact Plant.finished_id e
  · rfl
  · rfl
  · exact Plant.cueTurned_id _ e

/-! ## The events of a channel -/

theorem Plant.foldl_moveCue_recues (stepped : Bool) (ids : List Nat) (distinct : ids.Nodup) {p : Plant}
    (nodup : ((p.shows c).map (·.id)).Nodup) :
    p.Recues (ids.foldl (fun q n => q.moveCue c stepped n) p) c fun j => if j.id ∈ ids then p.cueMoved c j else j := by
  induction ids generalizing p with
  | nil => exact (Plant.Recues.refl p c).congr fun j _ => (if_neg (List.not_mem_nil)).symm
  | cons n ids ih =>
    obtain ⟨fresh, distinct⟩ := List.nodup_cons.mp distinct
    have first := Plant.moveCue_recues nodup stepped n
    have keeps : ∀ j : Event, (if j.id = n then p.cueMoved c j else j).id = j.id := fun j => by
      split
      · exact Plant.cueMoved_id j
      · rfl
    refine (first.trans (ih distinct (first.nodup keeps nodup))).congr fun j _ => ?_
    rw [Function.comp, keeps, Plant.cueMoved_congr first.setting]
    by_cases h : j.id = n
    · rw [if_neg (h ▸ fresh), if_pos h, if_pos (h ▸ List.mem_cons_self)]
    · rw [if_neg h]
      simp only [List.mem_cons, h, false_or]

end

/-- R120: the events from the cursor on. -/
theorem fromCursor_split {past events : List Event} {cursor : Option Nat} (h : ∀ e ∈ past, cursor ≠ some e.id)
    (hc : cursor = events.head?.map (·.id)) : fromCursor (past ++ events) cursor = events := by
  cases events with
  | nil =>
    subst hc
    rfl
  | cons e l =>
    subst hc
    induction past with
    | nil => simp [fromCursor]
    | cons b past ih =>
      have other : (b.id != e.id) = true := bne_iff_ne.mpr fun he => h b List.mem_cons_self (by simp [he])
      have rest := ih fun d hd => h d (List.mem_cons_of_mem _ hd)
      simpa [fromCursor, other] using rest

theorem movedIds_split {past events : List Event} {cursor : Option Nat} (h : ∀ e ∈ past, cursor ≠ some e.id)
    (hc : cursor = events.head?.map (·.id)) :
    movedIds (past ++ events) cursor = ((past.filter fun e => e.cue == .airing) ++ events).map (·.id) := by
  simp [movedIds, fromCursor_split h hc]

/-! ## Due frames -/

theorem foldl_min_le_iff (l : List Nat) (d m : Nat) : l.foldl min d ≤ m ↔ d ≤ m ∨ ∃ x ∈ l, x ≤ m := by
  induction l generalizing d with
  | nil => simp
  | cons a l ih => simp only [List.foldl_cons, ih, min_le_iff, List.exists_mem_cons_iff, or_assoc]

theorem mem_repetitions {t : List Step} {n k : Nat} : (n, k) ∈ repetitions t ↔ ∃ st, t[n]? = some st ∧ k ≤ st.repeats := by
  simp only [repetitions, List.mem_flatMap, List.mem_map, List.mem_range, Prod.exists, Prod.mk.injEq, Nat.lt_succ_iff]
  constructor
  · rintro ⟨st, i, hi, j, hj, rfl, rfl⟩
    exact ⟨st, List.mem_zipIdx_iff_getElem?.mp hi, hj⟩
  · rintro ⟨st, hst, hk⟩
    exact ⟨st, n, List.mem_zipIdx_iff_getElem?.mpr hst, k, hk, rfl, rfl⟩

/-- R127: before the roll point, the earliest due frame has come exactly where a repetition is due. -/
theorem earliestDue_le_iff {preroll now : Nat} {e : Event} {t : List Step} (h : now < rollPoint preroll e) : earliestDue preroll e t ≤ now ↔
    ∃ (n : Nat) (st : Step) (rep : Nat), t[n]? = some st ∧ rep ≤ st.repeats ∧ dueFrame preroll e st rep ≤ now := by
  have mem : ∀ d, d ∈ ((repetitions t).filterMap fun (n, k) => (t[n]?).map fun s => dueFrame preroll e s k) ↔
      ∃ (n : Nat) (st : Step) (rep : Nat), t[n]? = some st ∧ rep ≤ st.repeats ∧ dueFrame preroll e st rep = d := fun d => by
    rw [List.mem_filterMap]
    constructor
    · rintro ⟨⟨n, k⟩, hr, hd⟩
      obtain ⟨st, hst, hk⟩ := mem_repetitions.mp hr
      refine ⟨n, st, k, hst, hk, ?_⟩
      simpa [hst] using hd
    · rintro ⟨n, st, k, hst, hk, rfl⟩
      exact ⟨(n, k), mem_repetitions.mpr ⟨st, hst, hk⟩, by simp [hst]⟩
  unfold earliestDue
  generalize (repetitions t).filterMap (fun (n, k) => (t[n]?).map fun s => dueFrame preroll e s k) = ds at mem
  have due : (∃ d ∈ ds, d ≤ now) ↔
      ∃ (n : Nat) (st : Step) (rep : Nat), t[n]? = some st ∧ rep ≤ st.repeats ∧ dueFrame preroll e st rep ≤ now := by
    constructor
    · rintro ⟨d, hd, hle⟩
      obtain ⟨n, st, k, hst, hk, rfl⟩ := (mem d).mp hd
      exact ⟨n, st, k, hst, hk, hle⟩
    · rintro ⟨n, st, k, hst, hk, hle⟩
      exact ⟨_, (mem _).mpr ⟨n, st, k, hst, hk, rfl⟩, hle⟩
  rw [← due]
  cases ds with
  | nil => simpa using h
  | cons d ds => simp only [foldl_min_le_iff, List.exists_mem_cons_iff]

theorem sendsRoll_iff (t : List Step) : sendsRoll t = true ↔ ∃ st ∈ t, st.body = .sendRoll := by
  simp [sendsRoll]

/-! ## Where one event goes -/

section
variable {p : Plant} {c : Chan} {e : Event}

theorem Plant.cueMoved_airing (h : e.cue = .airing) : p.cueMoved c e = p.finished c e := by simp only [Plant.cueMoved, h]

theorem Plant.cueMoved_gone (h : e.cue = .done ∨ e.cue = .skipped) : p.cueMoved c e = e := by
  rcases h with h | h <;> simp only [Plant.cueMoved, h]

theorem Plant.cueMoved_early (h : e.cue = .pending ∨ e.cue = .cueing ∨ e.cue = .rolling) : p.cueMoved c e =
    p.cueTurned c (p.nextCue (p.chan c).now (p.prerollInUse c) (p.chan c).seq.issuing e) e := by
  rcases h with h | h | h <;> simp only [Plant.cueMoved, h]

/-- R127 moves the cue state, binds the template and notes the halt flag, and nothing else. -/
theorem Plant.cueMoved_plain (e : Event) :
    { p.cueMoved c e with cue := .pending, bound := none, begunHalted := false } =
      { e with cue := .pending, bound := none, begunHalted := false } := by
  have turned : ∀ s (e : Event), { p.turned s e with cue := .pending, bound := none, begunHalted := false } =
      { e with cue := .pending, bound := none, begunHalted := false } := fun s e => by
    unfold Plant.turned
    split <;> rfl
  have finished : ∀ e : Event, { p.finished c e with cue := .pending, bound := none, begunHalted := false } =
      { e with cue := .pending, bound := none, begunHalted := false } := fun e => by
    unfold Plant.finished
    split <;> rfl
  unfold Plant.cueMoved
  split
  · exact finished e
  · rfl
  · rfl
  · unfold Plant.cueTurned
    split
    · exact (finished _).trans (turned .airing e)
    · split
      · rfl
      · exact turned _ e

end

section
variable {p : Plant} {c : Chan} {e : Event}

theorem Plant.cueTurned_cue {s : CueState} (h : s ≠ .airing) (e : Event) : (p.cueTurned c s e).cue = s := by
  rw [Plant.cueTurned, if_neg h]
  split
  · next same => exact same.symm
  · unfold Plant.turned
    split <;> rfl

theorem Plant.cueTurned_airing (e : Event) : (p.cueTurned c .airing e).cue = (if e.rend ≤ (p.chan c).now then .done else .airing) ∧
    (p.cueTurned c .airing e).begunHalted = (p.chan c).seq.halted := by
  have airs : ({ p.turned .airing e with begunHalted := (p.chan c).seq.halted } : Event).cue = .airing ∧
      ({ p.turned .airing e with begunHalted := (p.chan c).seq.halted } : Event).rend = e.rend := by
    unfold Plant.turned
    split <;> exact ⟨rfl, rfl⟩
  rw [Plant.cueTurned, if_pos rfl, Plant.finished, airs.1, airs.2]
  by_cases h : e.rend ≤ (p.chan c).now
  · rw [if_pos ⟨rfl, h⟩, if_pos h]
    exact ⟨rfl, rfl⟩
  · rw [if_neg fun k => h k.2, if_neg h]
    exact ⟨airs.1, rfl⟩

/-- R116: an event that leaves PENDING binds its template. -/
theorem Plant.cueTurned_bound (s : CueState) (e : Event) : (p.cueTurned c s e).bound =
    if e.cue = .pending ∧ (p.cueTurned c s e).cue ≠ .pending then some (p.templateOf e) else e.bound := by
  have turned : ∀ s, (p.turned s e).bound = if e.cue = .pending ∧ s ≠ .pending then some (p.templateOf e) else e.bound := fun s => by
    unfold Plant.turned
    split <;> rfl
  by_cases h : s = .airing
  · subst h
    have past : (p.cueTurned c .airing e).cue ≠ .pending := by
      rw [(Plant.cueTurned_airing e).1]
      split <;> exact nofun
    have finished : ∀ j : Event, (p.finished c j).bound = j.bound := fun j => by
      unfold Plant.finished
      split <;> rfl
    have bound : (p.cueTurned c .airing e).bound = (p.turned .airing e).bound := by
      rw [Plant.cueTurned, if_pos rfl, finished]
    simp only [bound, turned, past, ne_eq, reduceCtorEq, not_false_eq_true]
  · rw [Plant.cueTurned_cue h, Plant.cueTurned, if_neg h]
    split
    · next same => rw [same, if_neg fun k => k.2 k.1]
    · exact turned s

end

/-! ## What the rules say of an event before AIRING -/

section
variable {p : Plant} {now preroll : Nat} {issuing : Bool} {e : Event}

theorem Plant.nextCue_starts (h : e.rstart ≤ now) (unmarked : e.unmarked = true) : p.nextCue now preroll issuing e = .airing :=
  if_pos ⟨h, unmarked⟩

theorem Plant.nextCue_eclipsed (h : e.rstart ≤ now) (eclipsed : e.eclipsed = true) : p.nextCue now preroll issuing e = .skipped := by
  have marked : e.unmarked = false := by rw [Event.unmarked, eclipsed]; rfl
  rw [Plant.nextCue, if_neg (by simp [marked]), if_pos ⟨h, eclipsed⟩]

theorem Plant.nextCue_marked (marked : e.unmarked = false) (h : e.eclipsed = false ∨ now < e.rstart) :
    p.nextCue now preroll issuing e = e.cue := by
  have waits : ¬(e.rstart ≤ now ∧ e.eclipsed = true) := fun ⟨a, b⟩ => by
    rcases h with h | h
    · rw [h] at b
      cases b
    · omega
  rw [Plant.nextCue, if_neg (by simp [marked]), if_neg waits, marked]
  rfl

section
variable (unmarked : e.unmarked = true) (before : now < e.rstart)
include unmarked before

theorem Plant.nextCue_before : p.nextCue now preroll issuing e =
    if e.kind = .clip ∧ e.cue ≠ .rolling ∧ rollPoint preroll e ≤ now ∧ (!sendsRoll (p.templateOf e) || !issuing) then .rolling
    else if e.kind = .clip ∧ e.cue = .pending ∧ earliestDue preroll e (p.templateOf e) ≤ now ∧ !issuing then .cueing
    else e.cue := by
  rw [Plant.nextCue, if_neg (by omega), if_neg (by omega), unmarked]
  rfl

theorem Plant.nextCue_rolls (clip : e.kind = .clip) (h : e.cue ≠ .rolling) (roll : rollPoint preroll e ≤ now)
    (free : sendsRoll (p.templateOf e) = false ∨ issuing = false) : p.nextCue now preroll issuing e = .rolling := by
  rw [Plant.nextCue_before unmarked before, if_pos ⟨clip, h, roll, by rcases free with f | f <;> simp [f]⟩]

theorem Plant.nextCue_cues (clip : e.kind = .clip) (h : e.cue = .pending) (roll : now < rollPoint preroll e) (quiet : issuing = false)
    (due : earliestDue preroll e (p.templateOf e) ≤ now) : p.nextCue now preroll issuing e = .cueing := by
  rw [Plant.nextCue_before unmarked before, if_neg (by omega), if_pos ⟨clip, h, due, by simp [quiet]⟩]

theorem Plant.nextCue_stays (h : e.kind = .filler ∨ e.cue = .rolling ∨ (sendsRoll (p.templateOf e) = true ∧ issuing = true) ∨
    (now < rollPoint preroll e ∧ (e.cue ≠ .pending ∨ issuing = true ∨ now < earliestDue preroll e (p.templateOf e)))) :
    p.nextCue now preroll issuing e = e.cue := by
  rw [Plant.nextCue_before unmarked before, if_neg, if_neg]
  · rintro ⟨clip, pending, due, quiet⟩
    rcases h with h | h | ⟨-, h⟩ | ⟨-, h | h | h⟩
    · exact nomatch clip.symm.trans h
    · exact nomatch pending.symm.trans h
    · simp [h] at quiet
    · exact h pending
    · simp [h] at quiet
    · omega
  · rintro ⟨clip, still, roll, free⟩
    rcases h with h | h | ⟨h, h'⟩ | ⟨h, -⟩
    · exact nomatch clip.symm.trans h
    · exact still h
    · simp [h, h'] at free
    · omega

end

end

section
variable {p q : Plant} {c : Chan} {f : Event → Event}

theorem Plant.ids_shows (p : Plant) (c : Chan) : (p.shows c).map (·.id) = (p.chan c).playlist.map (·.id) := List.map_map

/-- The event of the plant after that bears an id is the event before, changed. -/
theorem Plant.Recues.event (h : p.Recues q c f) (keeps : ∀ j, (f j).id = j.id) (nodup : ((p.chan c).playlist.map (·.id)).Nodup)
    {e y : Event} (he : e ∈ (p.chan c).playlist) (hy : y ∈ (q.chan c).playlist) (hid : y.id = e.id) : y.shown = f e.shown := by
  have mem : y.shown ∈ q.shows c := List.mem_map_of_mem hy
  rw [h.events] at mem
  obtain ⟨j, hj, same⟩ := List.mem_map.mp mem
  have hje : j.id = e.shown.id := (keeps j).symm.trans ((congrArg Event.id same).trans hid)
  rw [← Plant.ids_shows] at nodup
  rw [← List.inj_on_of_nodup_map nodup hj (List.mem_map_of_mem he) hje]
  exact same.symm

/-- R127: the events that a frame start moves, each by the rules. -/
theorem Plant.moveCues_recues (p : Plant) (c : Chan) (stepped : Bool) (nodup : ((p.chan c).playlist.map (·.id)).Nodup)
    {past events : List Event} (hl : (p.chan c).playlist = past ++ events) (hpast : ∀ e ∈ past, (p.chan c).seq.cursor ≠ some e.id)
    (hc : (p.chan c).seq.cursor = events.head?.map (·.id)) :
    ∃ moves : List Nat, (∀ e ∈ (p.chan c).playlist, e.id ∈ moves ↔ (e ∈ past ∧ e.cue = .airing) ∨ e ∈ events) ∧
      p.Recues (p.moveCues c stepped) c fun j => if j.id ∈ moves then p.cueMoved c j else j := by
  have split := movedIds_split hpast hc
  rw [← hl] at split
  refine ⟨movedIds (p.chan c).playlist (p.chan c).seq.cursor, fun e he => ?_, ?_⟩
  · rw [split, List.mem_map]
    constructor
    · rintro ⟨j, hj, hje⟩
      have hjl : j ∈ (p.chan c).playlist := by
        rw [hl]
        exact List.mem_append.mpr ((List.mem_append.mp hj).imp (fun h => (List.mem_filter.mp h).1) id)
      obtain rfl := List.inj_on_of_nodup_map nodup hjl he hje
      exact (List.mem_append.mp hj).imp (fun h => by simpa using h) id
    · intro h
      exact ⟨e, List.mem_append.mpr (h.imp (fun h => by simpa using h) id), rfl⟩
  · have distinct : (movedIds (p.chan c).playlist (p.chan c).seq.cursor).Nodup := by
      rw [split]
      rw [hl] at nodup
      exact (((List.filter_sublist (l := past)).append (List.Sublist.refl events)).map (·.id)).nodup nodup
    exact (Plant.foldl_moveCue_recues stepped _ distinct ((p.ids_shows c).symm ▸ nodup)).then
      (Plant.recues_modChan _ c Channel.recursor rfl rfl rfl rfl rfl (List.map_id _).symm)

/-- What R127 leaves of the events of a channel. -/
def Event.uncued (e : Event) : Event :=
  { e with cue := .pending, bound := none, asRun := false, emptyTold := false, begunHalted := false }

theorem Plant.Recues.uncued (h : p.Recues q c f) (hf : ∀ j, (f j).uncued = j.uncued) :
    (q.chan c).playlist.map Event.uncued = (p.chan c).playlist.map Event.uncued := by
  have strips : ∀ l : List Event, (l.map Event.shown).map Event.uncued = l.map Event.uncued := fun l => List.map_map
  have events := congrArg (List.map Event.uncued) h.events
  rw [List.map_map] at events
  exact (strips _).symm.trans (events.trans ((List.map_congr_left fun j _ => hf j).trans (strips _)))

/-- R127, rules 2 to 4, and R116, for an event before AIRING. -/
structure Plant.CueRules (p : Plant) (c : Chan) (e y : Event) (roll : Nat) (sends : Bool) : Prop where
  starts : e.unmarked = true → e.rstart ≤ (p.chan c).now →
    (e.rend ≤ (p.chan c).now → y.cue = .done) ∧ ((p.chan c).now < e.rend → y.cue = .airing ∧ y.begunHalted = (p.chan c).seq.halted)
  skips : e.eclipsed = true → e.rstart ≤ (p.chan c).now → y.cue = .skipped
  marked : e.unmarked = false → (e.eclipsed = false ∨ (p.chan c).now < e.rstart) → y.cue = e.cue
  rolls : e.unmarked = true → (p.chan c).now < e.rstart → e.kind = .clip → e.cue ≠ .rolling → roll ≤ (p.chan c).now →
    sends = false ∨ (p.chan c).seq.issuing = false → y.cue = .rolling
  cues : e.unmarked = true → (p.chan c).now < e.rstart → e.kind = .clip → e.cue = .pending → (p.chan c).now < roll →
    (p.chan c).seq.issuing = false → (∃ (n : Nat) (st : Step) (rep : Nat), (p.templateOf e)[n]? = some st ∧ rep ≤ st.repeats ∧
      dueFrame (p.prerollInUse c) e st rep ≤ (p.chan c).now) → y.cue = .cueing
  stays : e.unmarked = true → (p.chan c).now < e.rstart → e.kind = .filler ∨ e.cue = .rolling ∨
    (sends = true ∧ (p.chan c).seq.issuing = true) ∨ ((p.chan c).now < roll ∧ (e.cue ≠ .pending ∨ (p.chan c).seq.issuing = true ∨
      ∀ (n : Nat) (st : Step) (rep : Nat), (p.templateOf e)[n]? = some st → rep ≤ st.repeats →
        (p.chan c).now < dueFrame (p.prerollInUse c) e st rep)) → y.cue = e.cue
  binds : e.cue = .pending → y.cue ≠ .pending → y.bound = some (p.templateOf e)
  bound : e.cue ≠ .pending ∨ y.cue = .pending → y.bound = e.bound

theorem Plant.cueTurned_rules (p : Plant) (c : Chan) {e : Event} (early : e.cue = .pending ∨ e.cue = .cueing ∨ e.cue = .rolling) {y : Event}
    (hy : y = p.cueTurned c (p.nextCue (p.chan c).now (p.prerollInUse c) (p.chan c).seq.issuing e) e) {sends : Bool}
    (hsends : sends = true ↔ ∃ st ∈ p.templateOf e, st.body = .sendRoll) :
    p.CueRules c e y (rollPoint (p.prerollInUse c) e) sends := by
  obtain rfl : sends = sendsRoll (p.templateOf e) := Bool.eq_iff_iff.mpr (hsends.trans (sendsRoll_iff _).symm)
  generalize hs : p.nextCue (p.chan c).now (p.prerollInUse c) (p.chan c).seq.issuing e = s at hy
  have other : s ≠ .airing → y.cue = s := fun h => by rw [hy, Plant.cueTurned_cue h]
  have kept : s = e.cue → y.cue = e.cue := fun h => by
    rw [other (by rw [h]; rcases early with k | k | k <;> rw [k] <;> exact nofun), h]
  have bound : y.bound = if e.cue = .pending ∧ y.cue ≠ .pending then some (p.templateOf e) else e.bound := by
    rw [hy]
    exact Plant.cueTurned_bound s e
  refine ⟨fun unmarked start => ?_, fun eclipsed start => ?_, fun marked h => ?_, fun unmarked before clip h roll free => ?_,
    fun unmarked before clip h roll quiet due => ?_, fun unmarked before h => ?_, fun h k => ?_, fun h => ?_⟩
  · obtain rfl := hs.symm.trans (Plant.nextCue_starts start unmarked)
    obtain ⟨cue, begun⟩ := Plant.cueTurned_airing (p := p) (c := c) e
    rw [← hy] at cue begun
    exact ⟨fun h => cue.trans (if_pos h), fun h => ⟨cue.trans (if_neg (Nat.not_le.mpr h)), begun⟩⟩
  · obtain rfl := hs.symm.trans (Plant.nextCue_eclipsed start eclipsed)
    exact other nofun
  · exact kept (hs.symm.trans (Plant.nextCue_marked marked h))
  · obtain rfl := hs.symm.trans (Plant.nextCue_rolls unmarked before clip h roll free)
    exact other nofun
  · obtain rfl := hs.symm.trans (Plant.nextCue_cues unmarked before clip h roll quiet ((earliestDue_le_iff roll).mpr due))
    exact other nofun
  · refine kept (hs.symm.trans (Plant.nextCue_stays unmarked before ?_))
    refine h.imp id (Or.imp id (Or.imp id fun ⟨roll, k⟩ => ⟨roll, k.imp id (Or.imp id fun none => ?_)⟩))
    refine Nat.lt_of_not_le fun due => ?_
    obtain ⟨n, st, rep, hst, hrep, hdue⟩ := (earliestDue_le_iff roll).mp due
    exact absurd (none n st rep hst hrep) (Nat.not_lt.mpr hdue)
  · rw [bound, if_pos ⟨h, k⟩]
  · rw [bound, if_neg fun k => h.elim (fun h => h k.1) fun h => k.2 h]

end

/-! ## An empty template -/

section
variable {p : Plant} {c : Chan} {e : Event}

theorem Plant.modEvent_found (p : Plant) (c : Chan) {n : Nat} (f : Event → Event) (h : ∀ e, (f e).id = e.id) {e : Event}
    (found : findEvent (p.chan c).playlist n = some e) : findEvent ((p.modEvent c n f).chan c).playlist n = some (f e) := by
  rw [Plant.modEvent, Plant.chan_modChan_same]
  exact (findEvent_modEvent_same _ n f h).trans (congrArg (Option.map f) found)

theorem Plant.setCue_found (p : Plant) (c : Chan) (s : CueState) {e : Event} {n : Nat} (found : findEvent (p.chan c).playlist n = some e) :
    findEvent ((p.setCue c n s).chan c).playlist n = some (p.turned s e) :=
  p.modEvent_found c (p.turned s) (Plant.turned_id s) found

/-- R128: the notice of an empty template is sent once. -/
theorem Plant.tellIfEmpty_tells (h : e.cue = .pending ∨ e.cue = .cueing) (clip : e.kind = .clip) (unmarked : e.unmarked = true)
    (empty : p.templateOf e = []) (rolled : rollPoint (p.prerollInUse c) e ≤ (p.chan c).now)
    (found : findEvent (p.chan c).playlist e.id = some e) :
    (p.tellIfEmpty c e).outbox = p.outbox ++ (if e.emptyTold then [] else
      [.notice ⟨.cueFault, some c, u32 e.id ++ u8 0 ++ u8 0 ++ u8 0 ++ u8 4 ++ u8 0 ++ u8 0 ++ u8 0 ++ u8 0⟩]) ∧
    findEvent ((p.tellIfEmpty c e).chan c).playlist e.id = some { e with emptyTold := true } ∧
    (p.tellIfEmpty c e).templates = p.templates := by
  cases told : e.emptyTold with
  | true =>
    have same : p.tellIfEmpty c e = p := if_neg (by simp [told])
    rw [same, found, if_pos rfl, List.append_nil]
    refine ⟨rfl, ?_, rfl⟩
    rw [← told]
  | false =>
    have tells : p.tellIfEmpty c e = (p.modEvent c e.id fun e => { e with emptyTold := true }).tellEmpty c e.id :=
      if_pos ⟨clip, h, unmarked, by rw [told]; rfl, empty, rolled⟩
    rw [tells, if_neg Bool.false_ne_true]
    refine ⟨rfl, ?_, rfl⟩
    exact p.modEvent_found c (fun e => { e with emptyTold := true }) (fun _ => rfl) found

end

/-- Settles O48: the fold over the events moved is a map of `Plant.cueMoved` over the list, whose value for one event `CueRules` gives;
the notice of an empty template is the one that `tellIfEmpty` sends. -/
theorem cueStatesMove : Obligations.CueStatesMove := by
  unfold Obligations.CueStatesMove
  refine ⟨?_, ?_⟩
  · rintro c stepped p q x rfl rfl nodup
    refine ⟨?_, fun past events hl hpast hc => ?_⟩
    · rw [Plant.moveCues, Plant.chan_modChan_same]
      rfl
    obtain ⟨moves, member, moved⟩ := p.moveCues_recues c stepped nodup hl hpast hc
    generalize p.moveCues c stepped = q at moved
    have keeps : ∀ j : Event, (if j.id ∈ moves then p.cueMoved c j else j).id = j.id := fun j => by
      split
      · exact Plant.cueMoved_id j
      · rfl
    refine ⟨moved.uncued fun j => ?_, fun e he y hy hid roll sends hroll hsends => ?_⟩
    · split
      · exact congrArg (fun j : Event => { j with asRun := false, emptyTold := false }) (Plant.cueMoved_plain j)
      · rfl
    have shown := moved.event keeps nodup he hy hid
    have here := member e he
    have cue : y.cue = y.shown.cue := rfl
    have bound : y.bound = y.shown.bound := rfl
    refine ⟨fun airing => ?_, fun stays => ?_, fun rest early => ?_⟩
    · have on : e.id ∈ moves := here.mpr ((List.mem_append.mp (hl ▸ he)).imp (fun h => ⟨h, airing⟩) id)
      have airs : e.shown.cue = .airing := airing
      rw [cue, shown, if_pos (show e.shown.id ∈ moves from on), Plant.cueMoved_airing airs]
      exact ⟨fun ended => congrArg Event.cue (if_pos ⟨airs, ended⟩), fun h =>
        (congrArg Event.cue (if_neg fun k => absurd k.2 (Nat.not_le.mpr h))).trans airs⟩
    · have same : y.shown = e.shown := by
        rw [shown]
        split
        · next on =>
          refine Plant.cueMoved_gone (e := e.shown) ?_
          rcases stays with h | h | ⟨quiet, old⟩
          · exact Or.inl h
          · exact Or.inr h
          · rcases here.mp on with h | h
            · exact absurd h.2 quiet
            · rw [hl] at nodup
              exact absurd rfl ((List.nodup_append.mp (List.Nodup.of_map _ nodup)).2.2 _ old _ h)
        · rfl
      rw [cue, bound, same]
      exact ⟨rfl, rfl⟩
    · have on : e.shown.id ∈ moves := here.mpr (Or.inr rest)
      rw [if_pos on, Plant.cueMoved_early (e := e.shown) early] at shown
      obtain ⟨starts, skips, marked, rolls, cues, stays, binds, kept⟩ := Plant.cueTurned_rules p c (e := e.shown) early shown hsends
      subst hroll
      exact ⟨starts, skips, marked, fun unmarked before => ⟨rolls unmarked before, cues unmarked before, stays unmarked before⟩, binds,
        kept⟩
  · rintro c stepped p x e rfl found early clip unmarked empty rolled before
    have next : p.nextCue (p.chan c).now (p.prerollInUse c) (p.chan c).seq.issuing e = .rolling :=
      Plant.nextCue_rolls unmarked before clip (by rcases early with h | h <;> rw [h] <;> exact nofun) rolled
        (Or.inl (by rw [empty]; rfl))
    have moves : p.moveCue c stepped e.id = (p.tellIfEmpty c e).setCue c e.id .rolling := by
      rcases early with h | h <;> simp only [Plant.moveCue, found, next, h, reduceCtorEq, if_false]
    obtain ⟨out, kept, templates⟩ := Plant.tellIfEmpty_tells early clip unmarked empty rolled found
    rw [moves]
    refine ⟨out, (Plant.setCue_found _ c .rolling kept).trans (congrArg some ?_)⟩
    have template : (p.tellIfEmpty c e).templateOf { e with emptyTold := true } = [] := (Plant.templateOf_congr templates e).trans empty
    rcases early with h | h
    · rw [Plant.turned, if_pos ⟨h, nofun⟩, if_pos h, Plant.bindTo, template]
    · have left : e.cue ≠ .pending := by rw [h]; exact nofun
      rw [Plant.turned, if_neg fun k => left k.1, if_neg left]

end Sys2Proof.Machine
end

