-- ==== Sys2Proof/Proofs/Retirement.lean ====
section
/-! PROOFS. Retirement at a frame start, and the as-run entries opened and closed (R42, R87, R164 to R166). -/

namespace Sys2Proof.Machine

theorem Mode.running_iff (m : Mode) : m.running = true ↔ m = .onLocal ∨ m = .returning := by
  cases m <;> simp [Mode.running]

/-! ## Retirement -/

/-- R166: what the log is handed of an event retired without an entry. -/
def Plant.missed (p : Plant) (c : Chan) (e : Event) : Outgoing :=
  .asRun { channel := c, event := e.id, start := p.dayLabel c e.rstart, finish := p.dayLabel c e.rend, kind := none, exit := .notAired,
           port := none }

/-- R129: the queued steps of the events that leave stay to be taken. -/
def retiredEntry (ids : List Nat) (k : StepEntry) : StepEntry :=
  if k.standing = .live ∧ k.event ∈ ids then { k with standing := .retired } else k

/-- The channel without the events retired. -/
def Channel.retired (x : Channel) (gone : List Event) : Channel :=
  { x with
    playlist := x.playlist.filter fun e => decide (e.id ∉ gone.map (·.id))
    watch := { x.watch with lastEnded := gone.foldl lastEndedAfter x.watch.lastEnded }
    seq := { x.seq with queue := x.seq.queue.map (retiredEntry (gone.map (·.id))) } }

theorem retiredEntry_nil (k : StepEntry) : retiredEntry [] k = k := if_neg fun h => List.not_mem_nil h.2

theorem retiredEntry_leave (n : Nat) (ids : List Nat) (k : StepEntry) :
    retiredEntry ids (k.leave .retired n) = retiredEntry (n :: ids) k := by
  by_cases h : k.standing = .live ∧ k.event = n
  · have mine : k.isOf n = true := by simp [StepEntry.isOf, h.1, h.2]
    rw [StepEntry.leave, if_pos mine, retiredEntry, if_neg (fun a => nomatch a.1), retiredEntry,
      if_pos ⟨h.1, h.2 ▸ List.mem_cons_self⟩]
  · have other : ¬k.isOf n = true := fun m => h (by simpa [StepEntry.isOf, and_comm] using m)
    rw [StepEntry.leave, if_neg other, retiredEntry, retiredEntry]
    refine if_congr (and_congr_right fun live => ?_) rfl rfl
    rw [List.mem_cons, or_iff_right fun e => h ⟨live, e⟩]

/-- The channel without one event, its steps left to be taken. -/
def Channel.without (x : Channel) (e : Event) : Channel :=
  { x with
    playlist := x.playlist.filter (·.id != e.id)
    watch := { x.watch with lastEnded := lastEndedAfter x.watch.lastEnded e }
    seq := { x.seq with queue := x.seq.queue.map (StepEntry.leave .retired e.id) } }

theorem Channel.retired_cons (x : Channel) (e : Event) (gone : List Event) : (x.without e).retired gone = x.retired (e :: gone) := by
  have list : (x.playlist.filter (·.id != e.id)).filter (fun j => decide (j.id ∉ gone.map (·.id))) =
      x.playlist.filter fun j => decide (j.id ∉ (e :: gone).map (·.id)) := by
    rw [List.filter_filter]
    refine List.filter_congr fun j _ => ?_
    by_cases h : j.id = e.id <;> simp [h]
  have queue : (x.seq.queue.map (StepEntry.leave .retired e.id)).map (retiredEntry (gone.map (·.id))) =
      x.seq.queue.map (retiredEntry ((e :: gone).map (·.id))) := by
    rw [List.map_map]
    exact List.map_congr_left fun k _ => retiredEntry_leave e.id _ k
  simp only [Channel.retired, Channel.without, list, queue, List.foldl_cons]

section
variable {p : Plant} {c : Chan}

theorem Plant.retireEntries_chan (p : Plant) (c : Chan) (n : Nat) : (p.retireEntries c n).chan c =
    { p.chan c with seq := { (p.chan c).seq with queue := (p.chan c).seq.queue.map (StepEntry.leave .retired n) } } :=
  Plant.chan_modChan_same p c fun x => { x with seq := { x.seq with queue := x.seq.queue.map (StepEntry.leave .retired n) } }

theorem Plant.retireOne_parts (e : Event) {q : Plant} (hq : q = p.retireOne c e) :
    q.chan c = (p.chan c).without e ∧
    q.outbox = p.outbox ++ (if (p.chan c).mode.running && !e.asRun then [p.missed c e] else []) ∧
    q.hold = p.hold ∧ q.spareQueue = p.spareQueue ∧ p.OtherChans q c := by
  have leaves : ∀ u : Plant, u.chans = p.chans → u.hold = p.hold → u.spareQueue = p.spareQueue →
      q = (u.modChan c fun x => { x with playlist := x.playlist.filter (·.id != e.id), watch.lastEnded := lastEndedAfter x.watch.lastEnded e
        }).retireEntries c e.id →
      q.chan c = (p.chan c).without e ∧ q.outbox = u.outbox ∧ q.hold = p.hold ∧ q.spareQueue = p.spareQueue ∧ p.OtherChans q c := by
    rintro u chans hold queue rfl
    have chan : ∀ d, u.chan d = p.chan d := fun d => by rw [Plant.chan, chans, Plant.chan]
    refine ⟨?_, rfl, hold, queue, fun d hd => ((Plant.otherChans_of_around (Plant.retireEntries_around (b := true) _ c _)) d hd).trans
      ((u.chan_modChan_other _ hd).trans (chan d))⟩
    rw [Plant.retireEntries_chan, Plant.chan_modChan_same, chan]
    rfl
  unfold Plant.retireOne at hq
  cases h : (p.chan c).mode.running && !e.asRun with
  | false =>
    rw [h] at hq
    rw [if_neg Bool.false_ne_true, List.append_nil]
    exact leaves p rfl rfl rfl hq
  | true =>
    rw [h] at hq
    exact leaves (p.notAired c e) rfl rfl rfl hq

theorem Plant.retireAll_parts (gone : List Event) {p q : Plant} (hq : q = gone.foldl (fun q e => q.retireOne c e) p) :
    q.chan c = (p.chan c).retired gone ∧
    q.outbox = p.outbox ++ (if (p.chan c).mode.running then (gone.filter fun e => !e.asRun).map (p.missed c) else []) ∧
    q.hold = p.hold ∧ q.spareQueue = p.spareQueue ∧ p.OtherChans q c ∧ q.rest = p.rest := by
  induction gone generalizing p with
  | nil =>
    obtain rfl : p = q := hq.symm
    refine ⟨?_, by simp, rfl, rfl, fun _ _ => rfl, rfl⟩
    have list : (p.chan c).playlist.filter (fun e => decide (e.id ∉ ([] : List Event).map (·.id))) = (p.chan c).playlist :=
      List.filter_eq_self.mpr fun e _ => by simp
    have queue : (p.chan c).seq.queue.map (retiredEntry (([] : List Event).map (·.id))) = (p.chan c).seq.queue :=
      List.map_id'' retiredEntry_nil _
    rw [Channel.retired, list, queue]
    rfl
  | cons e gone ih =>
    obtain ⟨own, out, hold, queue, others⟩ := Plant.retireOne_parts (p := p) (c := c) e rfl
    have rest : (p.retireOne c e).rest = p.rest := p.retireOne_rest c e
    obtain ⟨own', out', hold', queue', others', rest'⟩ := ih hq
    have label : ∀ j, (p.retireOne c e).missed c j = p.missed c j := fun j => by
      have day : ∀ t, (p.retireOne c e).dayLabel c t = p.dayLabel c t := fun t => by
        simp only [Plant.dayLabel, Plant.family, Plant.config, own, Channel.without, Plant.ref_of_rest rest]
      simp only [Plant.missed, day]
    refine ⟨?_, ?_, hold'.trans hold, queue'.trans queue, fun d hd => (others' d hd).trans (others d hd), rest'.trans rest⟩
    · rw [own', own, Channel.retired_cons]
    · rw [out', out, own, show (p.retireOne c e).missed c = p.missed c from funext label, List.append_assoc]
      have mode : ((p.chan c).without e).mode = (p.chan c).mode := rfl
      rw [mode]
      cases (p.chan c).mode.running <;> cases h : e.asRun <;> simp [h]

end

/-! ## The event that ended last (R87) -/

/-- R87: an event that the watch remembers as it is retired. -/
def Event.counts (e : Event) : Prop := e.cue = .done ∧ e.eclipsed = false ∧ e.beyond = false

theorem lastEndedAfter_uncounted {e : Event} (h : ¬e.counts) (held : Option (Nat × Nat)) : lastEndedAfter held e = held :=
  if_neg fun ⟨a, b, d⟩ => h ⟨a, by simpa using b, by simpa using d⟩

theorem lastEndedAfter_counted {e : Event} (h : e.counts) (held : Option (Nat × Nat)) :
    (lastEndedAfter held e = held ∧ ∃ m u, held = some (m, u) ∧ e.rend < u) ∨
      (lastEndedAfter held e = some (e.id, e.rend) ∧ ∀ m u, held = some (m, u) → u ≤ e.rend) := by
  obtain ⟨a, b, d⟩ := h
  cases held with
  | none => exact Or.inr ⟨by simp [lastEndedAfter, a, b, d], nofun⟩
  | some w =>
    obtain ⟨m, u⟩ := w
    by_cases late : e.rend < u
    · exact Or.inl ⟨by simp [lastEndedAfter, a, b, d, late], m, u, rfl, late⟩
    · refine Or.inr ⟨by simp [lastEndedAfter, a, b, d, late], fun m' u' h => ?_⟩
      obtain ⟨rfl, rfl⟩ := Prod.mk.inj (Option.some.inj h)
      exact Nat.not_lt.mp late

/-- R87: the memory is the one before or that of an event retired, and never goes back. -/
theorem foldl_lastEnded_source (gone : List Event) (held : Option (Nat × Nat)) :
    (gone.foldl lastEndedAfter held = held ∨ ∃ k ∈ gone, k.counts ∧ gone.foldl lastEndedAfter held = some (k.id, k.rend)) ∧
    ∀ m u, held = some (m, u) → ∃ n t, gone.foldl lastEndedAfter held = some (n, t) ∧ u ≤ t := by
  induction gone generalizing held with
  | nil => exact ⟨Or.inl rfl, fun m u h => ⟨m, u, h, Nat.le_refl u⟩⟩
  | cons e gone ih =>
    obtain ⟨source, mono⟩ := ih (lastEndedAfter held e)
    have later : (∃ k ∈ gone, k.counts ∧ gone.foldl lastEndedAfter (lastEndedAfter held e) = some (k.id, k.rend)) →
        ∃ k ∈ e :: gone, k.counts ∧ gone.foldl lastEndedAfter (lastEndedAfter held e) = some (k.id, k.rend) :=
      fun ⟨k, hk, h⟩ => ⟨k, List.mem_cons_of_mem _ hk, h⟩
    rw [List.foldl_cons]
    by_cases counts : e.counts
    · rcases lastEndedAfter_counted counts held with ⟨same, -⟩ | ⟨taken, upper⟩
      · rw [same] at source mono later ⊢
        exact ⟨source.imp id later, mono⟩
      · refine ⟨Or.inr (source.elim (fun same => ⟨e, List.mem_cons_self, counts, same.trans taken⟩) later), fun m u h => ?_⟩
        obtain ⟨n, t, final, le⟩ := mono _ _ taken
        exact ⟨n, t, final, (upper m u h).trans le⟩
    · rw [lastEndedAfter_uncounted counts] at source mono later ⊢
      exact ⟨source.imp id later, mono⟩

theorem foldl_lastEnded_uncounted {gone : List Event} (h : ∀ e ∈ gone, ¬e.counts) (held : Option (Nat × Nat)) :
    gone.foldl lastEndedAfter held = held :=
  (foldl_lastEnded_source gone held).1.resolve_right fun ⟨k, hk, counts, _⟩ => h k hk counts

/-- R87: the memory stands at or after the end of every event retired that counts. -/
theorem foldl_lastEnded_counted {gone : List Event} {e : Event} (he : e ∈ gone) (counts : e.counts) (held : Option (Nat × Nat)) :
    ∃ n t, gone.foldl lastEndedAfter held = some (n, t) ∧ e.rend ≤ t ∧
      ((held = some (n, t) ∧ e.rend < t) ∨ ∃ k ∈ gone, k.counts ∧ k.id = n ∧ k.rend = t) := by
  induction gone generalizing held with
  | nil => cases he
  | cons j gone ih =>
    rw [List.foldl_cons]
    have here : ∀ {n t : Nat}, some (j.id, j.rend) = some (n, t) → j.counts → ∃ k ∈ j :: gone, k.counts ∧ k.id = n ∧ k.rend = t :=
      fun h hj => ⟨j, List.mem_cons_self, hj, (Prod.mk.inj (Option.some.inj h)).1, (Prod.mk.inj (Option.some.inj h)).2⟩
    rcases List.mem_cons.mp he with rfl | he
    · obtain ⟨source, mono⟩ := foldl_lastEnded_source gone (lastEndedAfter held e)
      have first : ∃ m u, lastEndedAfter held e = some (m, u) ∧ e.rend ≤ u ∧
          ((held = some (m, u) ∧ e.rend < u) ∨ some (e.id, e.rend) = some (m, u)) := by
        rcases lastEndedAfter_counted counts held with ⟨same, m, u, hu, lt⟩ | ⟨taken, -⟩
        · exact ⟨m, u, same.trans hu, Nat.le_of_lt lt, Or.inl ⟨hu, lt⟩⟩
        · exact ⟨e.id, e.rend, taken, Nat.le_refl _, Or.inr rfl⟩
      obtain ⟨m, u, hu, le, kept⟩ := first
      obtain ⟨n, t, final, le'⟩ := mono m u hu
      refine ⟨n, t, final, le.trans le', ?_⟩
      rcases source with same | ⟨k, hk, hc, taken⟩
      · obtain ⟨rfl, rfl⟩ := Prod.mk.inj (Option.some.inj (hu.symm.trans (same.symm.trans final)))
        exact kept.imp id fun h => here h counts
      · obtain ⟨rfl, rfl⟩ := Prod.mk.inj (Option.some.inj (taken.symm.trans final))
        exact Or.inr ⟨k, List.mem_cons_of_mem _ hk, hc, rfl, rfl⟩
    · obtain ⟨n, t, final, le, kept⟩ := ih he (lastEndedAfter held j)
      refine ⟨n, t, final, le, ?_⟩
      rcases kept with ⟨hw, lt⟩ | ⟨k, hk, h⟩
      · by_cases hj : j.counts
        · rcases lastEndedAfter_counted hj held with ⟨same, -⟩ | ⟨taken, -⟩
          · exact Or.inl ⟨same.symm.trans hw, lt⟩
          · exact Or.inr (here (taken.symm.trans hw) hj)
        · exact Or.inl ⟨(lastEndedAfter_uncounted hj held).symm.trans hw, lt⟩
      · exact Or.inr ⟨k, List.mem_cons_of_mem _ hk, h⟩

/-! ## What a retirement leaves -/

section
variable {p : Plant} {c : Chan}

theorem Plant.retire_none (h : (p.chan c).playlist.filter (Event.retires (p.chan c).now) = []) : p.retire c = p := by
  simp only [Plant.retire, h]

theorem Plant.retire_some {gone : List Event} (h : (p.chan c).playlist.filter (Event.retires (p.chan c).now) = gone) (some : gone ≠ []) :
    p.retire c = (gone.foldl (fun q e => q.retireOne c e) p).modChan c Channel.recursor := by
  cases gone with
  | nil => exact absurd rfl some
  | cons e gone => simp only [Plant.retire, h]

/-- The events that stay are those that are not retired. -/
theorem filter_retired {l : List Event} (nodup : (l.map (·.id)).Nodup) (f : Event → Bool) :
    l.filter (fun e => decide (e.id ∉ (l.filter f).map (·.id))) = l.filter fun e => !f e := by
  refine List.filter_congr fun e he => ?_
  have mem : e.id ∈ (l.filter f).map (·.id) ↔ f e = true := by
    rw [List.mem_map]
    constructor
    · rintro ⟨j, hj, hje⟩
      obtain ⟨hj, hf⟩ := List.mem_filter.mp hj
      rwa [← List.inj_on_of_nodup_map nodup hj he hje]
    · exact fun hf => ⟨e, List.mem_filter.mpr ⟨he, hf⟩, rfl⟩
  simp only [mem, decide_not, Bool.decide_eq_true]

end

/-! ## A channel's entry opened and closed -/

/-- R165: what the log is handed as an entry is closed. -/
def Plant.closing (p : Plant) (c : Chan) (o : OpenEntry) (t : Nat) (exit : ExitKind) : Outgoing :=
  .asRun { channel := c, event := o.event, start := p.dayLabel c o.start, finish := p.dayLabel c t, kind := some o.kind, exit := exit,
           port := o.port }

/-- The events with those that bear an id noted as logged. -/
def loggedAs (n : Nat) (l : List Event) : List Event := l.map fun k => if k.id = n then { k with asRun := true } else k

section
variable {p : Plant} {c : Chan} {y : Channel} {os : List Outgoing}

section
variable (hg : y.config = (p.chan c).config) (hb : y.baseDay = (p.chan c).baseDay)
include hg hb

theorem Plant.wrote_dayLabel (t : Nat) : (p.wrote c y os).dayLabel c t = p.dayLabel c t := by
  have refs : ∀ r, (p.wrote c y os).ref r = p.ref r := Plant.ref_of_rest (p.wrote_rest c y os)
  simp only [Plant.dayLabel, Plant.family, Plant.config, Plant.wrote_chan, hg, hb, refs]

/-- R165: the open entry is closed, and its event noted as logged. -/
theorem Plant.wrote_closeEntry {o : OpenEntry} (ho : y.openEntry = some o) (exit : ExitKind) (t : Nat) :
    (p.wrote c y os).closeEntry c exit t =
      p.wrote c { y with openEntry := none, playlist := loggedAs o.event y.playlist } (os ++ [p.closing c o t exit]) := by
  have handed : ∀ item, (p.wrote c y os).appendEntry item = p.wrote c y (os ++ [.asRun item]) := fun item =>
    congrArg (fun l => ({ p.setChan c y with outbox := l } : Plant)) (List.append_assoc _ _ _)
  simp only [Plant.closeEntry, Plant.wrote_chan, ho, Plant.wrote_dayLabel hg hb, handed, Plant.wrote_modChan, Plant.wrote_modEvent]
  rfl

/-- R164: an entry opened closes the one open before it. -/
theorem Plant.wrote_openEntryFor {o : OpenEntry} (ho : y.openEntry = some o) (n t : Nat) (kind : EntryKind) (port : Option PortNo) :
    (p.wrote c y os).openEntryFor c n t kind port = p.wrote c { y with
      openEntry := some { event := n, start := t, kind := kind, port := port }, playlist := loggedAs o.event y.playlist }
      (os ++ [p.closing c o t ((p.wrote c y os).exitAt c o.event t)]) := by
  simp only [Plant.openEntryFor, Plant.wrote_chan, ho, Plant.wrote_closeEntry hg hb ho, Plant.wrote_modChan]

end

theorem Plant.wrote_openEntryFor_first (ho : y.openEntry = none) (n t : Nat) (kind : EntryKind) (port : Option PortNo) :
    (p.wrote c y os).openEntryFor c n t kind port =
      p.wrote c { y with openEntry := some { event := n, start := t, kind := kind, port := port } } os := by
  simp only [Plant.openEntryFor, Plant.wrote_chan, ho, Plant.wrote_modChan]

/-- R165: END where the event's resolved end has come, CUT otherwise. -/
theorem Plant.exitAt_eq (nodup : ((p.chan c).playlist.map (·.id)).Nodup) {n t : Nat} {exit : ExitKind}
    (h : (exit = .finish ∧ ∃ k ∈ (p.chan c).playlist, k.id = n ∧ k.rend ≤ t) ∨
      (exit = .cut ∧ ∀ k ∈ (p.chan c).playlist, k.id = n → t < k.rend)) : p.exitAt c n t = exit := by
  unfold Plant.exitAt
  cases found : findEvent (p.chan c).playlist n with
  | none =>
    rcases h with ⟨-, k, hk, hn, -⟩ | ⟨rfl, -⟩
    · exact absurd hn (by simpa using List.find?_eq_none.mp found k hk)
    · rfl
  | some e =>
    have he := List.mem_of_find?_eq_some found
    have hid : e.id = n := by simpa using List.find?_some found
    simp only
    rcases h with ⟨rfl, k, hk, hn, ended⟩ | ⟨rfl, on⟩
    · rw [List.inj_on_of_nodup_map nodup he hk (hid.trans hn.symm), if_pos ended]
    · rw [if_neg (Nat.not_le.mpr (on e he hid))]

end

/-! ## An event goes on air or ends -/

/-- What the as-run entries read of an event: its id and its end. -/
def Event.span (e : Event) : Nat × Nat := (e.id, e.rend)

theorem modEvent_span (l : List Event) (n : Nat) {f : Event → Event} (h : ∀ e, (f e).span = e.span) :
    (l.map fun e => if e.id = n then f e else e).map Event.span = l.map Event.span := by
  rw [List.map_map]
  refine List.map_congr_left fun e _ => ?_
  simp only [Function.comp]
  split
  · exact h e
  · rfl

/-- Lists of the same spans hold an event of the same id and end. -/
theorem exists_of_span {l l' : List Event} (h : l'.map Event.span = l.map Event.span) {k : Event} (hk : k ∈ l') :
    ∃ j ∈ l, j.id = k.id ∧ j.rend = k.rend := by
  have mem : k.span ∈ l.map Event.span := h ▸ List.mem_map_of_mem hk
  obtain ⟨j, hj, same⟩ := List.mem_map.mp mem
  exact ⟨j, hj, congrArg Prod.fst same, congrArg Prod.snd same⟩

theorem ids_of_span {l l' : List Event} (h : l'.map Event.span = l.map Event.span) : l'.map (·.id) = l.map (·.id) := by
  have ids := congrArg (List.map Prod.fst) h
  rwa [List.map_map, List.map_map] at ids

section
variable {p : Plant} {c : Chan} {e : Event}

theorem Plant.wrote_setCue {y : Channel} {os : List Outgoing} (n : Nat) (s : CueState) : (p.wrote c y os).setCue c n s =
    p.wrote c { y with playlist := y.playlist.map fun k => if k.id = n then p.turned s k else k } os :=
  Plant.wrote_modEvent n (p.turned s)

theorem Plant.tellIfEmpty_wrote (p : Plant) (c : Chan) (e : Event) : ∃ l os,
    p.tellIfEmpty c e = p.wrote c { p.chan c with playlist := l } os ∧ (∀ o ∈ os, ∃ n, o = Outgoing.notice n) ∧
      l.map Event.span = (p.chan c).playlist.map Event.span := by
  have told := Plant.wrote_modEvent (p := p) (c := c) (y := p.chan c) (os := []) e.id fun e => { e with emptyTold := true }
  rw [Plant.wrote_self] at told
  unfold Plant.tellIfEmpty
  rw [told]
  split
  · exact ⟨_, _, Plant.wrote_notify .., fun o ho => ⟨_, List.mem_singleton.mp ho⟩,
      modEvent_span (p.chan c).playlist e.id (f := fun e => { e with emptyTold := true }) fun _ => rfl⟩
  · exact ⟨(p.chan c).playlist, [], (p.wrote_self c).symm, nofun, rfl⟩

/-- R127: an event that has reached its start goes on air, its entry is opened, and it ends where its end has come too. -/
theorem Plant.moveCue_airs (stepped : Bool) (found : findEvent (p.chan c).playlist e.id = some e)
    (early : e.cue = .pending ∨ e.cue = .cueing ∨ e.cue = .rolling) (unmarked : e.unmarked = true) (start : e.rstart ≤ (p.chan c).now) :
    ∃ l os, p.moveCue c stepped e.id =
        ((p.wrote c { p.chan c with playlist := l } os).airingEntry c (p.chan c).seq.halted e).finishIfEnded c stepped e.id ∧
      (∀ o ∈ os, ∃ n, o = Outgoing.notice n) ∧ l.map Event.span = (p.chan c).playlist.map Event.span ∧
      ∀ k ∈ l, k.id = e.id → k.cue = .airing := by
  obtain ⟨l, os, told, notices, spans⟩ := p.tellIfEmpty_wrote c e
  have other : CueState.airing ≠ e.cue := by rcases early with h | h | h <;> rw [h] <;> exact nofun
  have turned : ∀ k : Event, (p.turned .airing k).span = k.span ∧ (p.turned .airing k).cue = .airing := fun k => by
    unfold Plant.turned
    split <;> exact ⟨rfl, rfl⟩
  rw [Plant.moveCue_early found early, Plant.nextCue_starts start unmarked, Plant.cueCarried]
  simp only [if_neg other, told, Plant.wrote_setCue, Plant.wrote_modEvent]
  refine ⟨_, os, rfl, notices, ?_, fun k hk hn => ?_⟩
  · refine (modEvent_span _ _ (f := fun k => { k with begunHalted := (p.chan c).seq.halted }) fun _ => rfl).trans ?_
    exact (modEvent_span _ _ fun k => (turned k).1).trans spans
  · obtain ⟨j, hj, rfl⟩ := List.mem_map.mp hk
    obtain ⟨i, hi, rfl⟩ := List.mem_map.mp hj
    by_cases h : i.id = e.id
    · simp [h, Plant.turned_id, (turned i).2]
    · simp [h] at hn

/-! ## The entry that an event on air opens -/

/-- R172: a return is due. -/
theorem Channel.returnDue_iff (x : Channel) : x.returnDue = true ↔
    x.mode = .returning ∧ ∃ r, x.returnRec = some r ∧ r.state = .pending ∧ r.tRet ≤ x.now := by
  unfold Channel.returnDue
  cases x.returnRec with
  | none => simp
  | some r => simp [and_assoc]

/-- R164: whether an event that goes on air has an entry: in local running, with no return due. -/
def Channel.logs (x : Channel) : Prop :=
  x.mode = .onLocal ∨ (x.mode = .returning ∧ ∀ r, x.returnRec = some r → r.state = .pending → x.now < r.tRet)

theorem Channel.logs_iff (x : Channel) : (x.mode.running && !x.returnDue) = true ↔ x.logs := by
  rw [Bool.and_eq_true, Mode.running_iff, Bool.not_eq_true', Bool.eq_false_iff, ne_eq, x.returnDue_iff, Channel.logs]
  constructor
  · rintro ⟨h | h, due⟩
    · exact Or.inl h
    · exact Or.inr ⟨h, fun r hr hs => Nat.lt_of_not_le fun le => due ⟨h, r, hr, hs, le⟩⟩
  · rintro (h | ⟨h, before⟩)
    · exact ⟨Or.inl h, fun ⟨k, _⟩ => nomatch h.symm.trans k⟩
    · exact ⟨Or.inr h, fun ⟨_, r, hr, hs, le⟩ => absurd (before r hr hs) (Nat.not_lt.mpr le)⟩

theorem Channel.logs_not {x : Channel} (h : (x.mode ≠ .onLocal ∧ x.mode ≠ .returning) ∨
    (x.mode = .returning ∧ ∃ r, x.returnRec = some r ∧ r.state = .pending ∧ r.tRet ≤ x.now)) : ¬x.logs := by
  rintro (k | ⟨k, before⟩)
  · rcases h with h | h
    · exact h.1 k
    · exact nomatch k.symm.trans h.1
  · rcases h with h | ⟨-, r, hr, hs, le⟩
    · exact h.2 k
    · exact absurd (before r hr hs) (Nat.not_lt.mpr le)

theorem Plant.airingEntry_none {q : Plant} (halted : Bool) (h : ¬(q.chan c).logs ∨
    (e.kind = .clip ∧ ((∃ w ∈ (q.chan c).pendingSw, w.cause ≠ .follow) ∨ e.rend ≤ (q.chan c).now))) : q.airingEntry c halted e = q := by
  unfold Plant.airingEntry
  simp only
  split
  · next logs =>
    rcases h with h | ⟨clip, h⟩
    · exact absurd ((Channel.logs_iff _).mp logs) h
    · have none : ((q.chan c).held || decide (e.rend ≤ (q.chan c).now)) = true := by
        rcases h with ⟨w, hw, hc⟩ | h
        · rw [Channel.held, Bool.or_eq_true]
          exact Or.inl (List.any_eq_true.mpr ⟨w, hw, bne_iff_ne.mpr hc⟩)
        · rw [decide_eq_true h, Bool.or_true]
      rw [clip]
      exact if_pos none
  · rfl

/-- R164: the entry by the event's kind, the halt flag and the port in use. -/
theorem Plant.airingEntry_opens {q : Plant} {halted : Bool} (logs : (q.chan c).logs) {kind : EntryKind} {port : Option PortNo}
    (h : (e.kind = .filler ∧ kind = .start ∧ port = none) ∨
      (e.kind = .clip ∧ (∀ w ∈ (q.chan c).pendingSw, w.cause = .follow) ∧ (q.chan c).now < e.rend ∧
        (((halted = true ∨ (q.chan c).portInUse = none) ∧ kind = .filler ∧ port = none) ∨
          (halted = false ∧ (q.chan c).portInUse ≠ none ∧ kind = .start ∧ port = (q.chan c).portInUse)))) :
    q.airingEntry c halted e = q.openEntryFor c e.id e.rstart kind port := by
  unfold Plant.airingEntry
  simp only
  rw [if_pos ((Channel.logs_iff _).mpr logs)]
  rcases h with ⟨filler, rfl, rfl⟩ | ⟨clip, follow, on, h⟩
  · rw [filler]
  · have free : ((q.chan c).held || decide (e.rend ≤ (q.chan c).now)) = false := by
      rw [decide_eq_false (Nat.not_le.mpr on), Bool.or_false, Channel.held, List.any_eq_false]
      exact fun w hw => by simp [follow w hw]
    rw [clip]
    simp only [free, Bool.false_eq_true, if_false]
    rcases h with ⟨h, rfl, rfl⟩ | ⟨h, used, rfl, rfl⟩
    · refine if_pos ?_
      rcases h with h | h <;> simp [h]
    · refine if_neg ?_
      simp [h, Option.isNone_iff_eq_none, used]

/-! ## The entry that an event done closes -/

theorem Plant.finishIfEnded_on {q : Plant} {stepped : Bool} {n : Nat}
    (h : ∀ k ∈ (q.chan c).playlist, k.id = n → (q.chan c).now < k.rend) : q.finishIfEnded c stepped n = q := by
  unfold Plant.finishIfEnded
  split
  · next k found =>
    have hk := h k (List.mem_of_find?_eq_some found) (by simpa using List.find?_some found)
    exact if_neg fun ended => absurd hk (Nat.not_lt.mpr ended.2)
  · rfl

theorem Plant.finishIfEnded_ends {q : Plant} {stepped : Bool} {n : Nat} (found : findEvent (q.chan c).playlist n = some e)
    (airing : e.cue = .airing) (ended : e.rend ≤ (q.chan c).now) :
    q.finishIfEnded c stepped n = (q.doneEntry c stepped e).setCue c n .done := by
  rw [Plant.finishIfEnded, found]
  exact if_pos ⟨airing, ended⟩

theorem Plant.doneEntry_other {q : Plant} {stepped : Bool} (h : ∀ o, (q.chan c).openEntry = some o → o.event ≠ e.id) :
    q.doneEntry c stepped e = q := by
  unfold Plant.doneEntry
  split
  · next o ho => exact if_neg (h o ho)
  · rfl

theorem Plant.doneEntry_own {q : Plant} {stepped : Bool} {o : OpenEntry} (ho : (q.chan c).openEntry = some o) (own : o.event = e.id) :
    q.doneEntry c stepped e = q.closeEntry c (if stepped then .cut else .finish) (if stepped then (q.chan c).now else e.rend) := by
  rw [Plant.doneEntry, ho]
  refine (if_pos own).trans ?_
  cases stepped <;> rfl

/-! ## From the event to the log -/

/-- The as-run entries of what is handed out. -/
def itemsOf (os : List Outgoing) : List Outgoing := os.filter fun o => match o with
  | .asRun _ => true
  | _ => false

theorem itemsOf_eq (os : List Outgoing) : itemsOf os = (os.filterMap fun o => match o with
    | .asRun e => some e
    | _ => none).map Outgoing.asRun := by
  induction os with
  | nil => rfl
  | cons o os ih =>
    cases o with
    | asRun e => exact congrArg (Outgoing.asRun e :: ·) ih
    | _ => exact ih

theorem itemsOf_notices {os : List Outgoing} (h : ∀ o ∈ os, ∃ n, o = Outgoing.notice n) : itemsOf os = [] := by
  rw [itemsOf, List.filter_eq_nil_iff]
  intro o ho
  obtain ⟨n, rfl⟩ := h o ho
  exact Bool.false_ne_true

theorem Plant.wrote_entries (y : Channel) (os : List Outgoing) :
    (p.wrote c y os).entries.map Outgoing.asRun = p.entries.map Outgoing.asRun ++ itemsOf os := by
  have all : ∀ q : Plant, q.entries.map Outgoing.asRun = itemsOf q.outbox := fun q => (itemsOf_eq q.outbox).symm
  rw [all, all]
  exact List.filter_append ..

theorem Plant.wrote_entries_none (y : Channel) {os : List Outgoing} (h : itemsOf os = []) : (p.wrote c y os).entries = p.entries := by
  have same := p.wrote_entries (c := c) y os
  rw [h, List.append_nil] at same
  exact List.map_injective_iff.mpr (fun a b h => Outgoing.asRun.inj h) same

/-- R165: how an entry ends as another is opened. -/
def exitsAt (l : List Event) (n t : Nat) (exit : ExitKind) : Prop :=
  (exit = .finish ∧ ∃ k ∈ l, k.id = n ∧ k.rend ≤ t) ∨ (exit = .cut ∧ ∀ k ∈ l, k.id = n → t < k.rend)

theorem exits_of_span {l l' : List Event} (h : l'.map Event.span = l.map Event.span) {n t : Nat} {exit : ExitKind}
    (he : exitsAt l n t exit) : exitsAt l' n t exit := by
  refine he.imp (fun ⟨hx, k, hk, hn, ended⟩ => ?_) fun ⟨hx, on⟩ => ⟨hx, fun k hk hn => ?_⟩
  · obtain ⟨j, hj, id, rend⟩ := exists_of_span h.symm hk
    exact ⟨hx, j, hj, id.trans hn, rend ▸ ended⟩
  · obtain ⟨j, hj, id, rend⟩ := exists_of_span h hk
    exact rend ▸ on j hj (id.trans hn)

/-- R164: an entry opened, where one is open before it and where none is. -/
theorem Plant.wrote_opens {y : Channel} {os : List Outgoing} (hg : y.config = (p.chan c).config) (hb : y.baseDay = (p.chan c).baseDay)
    (nodup : (y.playlist.map (·.id)).Nodup) (n t : Nat) (kind : EntryKind) (port : Option PortNo) : ∃ l' os',
    (p.wrote c y os).openEntryFor c n t kind port = p.wrote c { y with
      openEntry := some { event := n, start := t, kind := kind, port := port }, playlist := l' } os' ∧
    l'.map Event.span = y.playlist.map Event.span ∧ (∀ k ∈ l', ∃ j ∈ y.playlist, j.id = k.id ∧ j.cue = k.cue) ∧
    (y.openEntry = none → os' = os) ∧
    ∀ o exit, y.openEntry = some o → exitsAt y.playlist o.event t exit →
      os' = os ++ [p.closing c o t exit] ∧ l' = loggedAs o.event y.playlist := by
  cases ho : y.openEntry with
  | none => exact ⟨y.playlist, os, Plant.wrote_openEntryFor_first ho n t kind port, rfl, fun k hk => ⟨k, hk, rfl, rfl⟩, fun _ => rfl, nofun⟩
  | some o =>
    refine ⟨_, _, Plant.wrote_openEntryFor hg hb ho n t kind port, modEvent_span _ _ fun _ => rfl, fun k hk => ?_, nofun,
      fun o' exit h he => ?_⟩
    · obtain ⟨j, hj, rfl⟩ := List.mem_map.mp hk
      refine ⟨j, hj, ?_⟩
      split <;> exact ⟨rfl, rfl⟩
    · obtain rfl := Option.some.inj h
      rw [Plant.exitAt_eq (by rw [Plant.wrote_chan]; exact nodup) (by rw [Plant.wrote_chan]; exact he)]
      exact ⟨rfl, rfl⟩

/-- The event that bears an id, in a list of the same spans. -/
theorem found_of_span {l l' : List Event} (nodup : (l.map (·.id)).Nodup) (h : l'.map Event.span = l.map Event.span)
    (found : findEvent l e.id = some e) : ∃ e', findEvent l' e.id = some e' ∧ e' ∈ l' ∧ e'.id = e.id ∧ e'.rend = e.rend := by
  have he := List.mem_of_find?_eq_some found
  cases found' : findEvent l' e.id with
  | none =>
    obtain ⟨j, hj, id, -⟩ := exists_of_span h.symm he
    exact absurd id (by simpa using List.find?_eq_none.mp found' j hj)
  | some e' =>
    have he' := List.mem_of_find?_eq_some found'
    have hid : e'.id = e.id := by simpa using List.find?_some found'
    obtain ⟨j, hj, id, rend⟩ := exists_of_span h he'
    rw [List.inj_on_of_nodup_map nodup hj he (id.trans hid)] at rend
    exact ⟨e', rfl, he', hid, rend.symm⟩

/-! ## The four parts of the statement -/

/-- R42, R87, R166: what a retirement changes. -/
theorem Plant.retire_leaves (nodup : ((p.chan c).playlist.map (·.id)).Nodup) {gone : List Event}
    (hgone : gone = (p.chan c).playlist.filter (Event.retires (p.chan c).now)) (some : gone ≠ []) {q : Plant} (hq : q = p.retire c) :
    q.chan c = Channel.recursor { p.chan c with
      playlist := (p.chan c).playlist.filter fun e => !e.retires (p.chan c).now
      watch := { (p.chan c).watch with lastEnded := gone.foldl lastEndedAfter (p.chan c).watch.lastEnded }
      seq := { (p.chan c).seq with queue := (p.chan c).seq.queue.map (retiredEntry (gone.map (·.id))) } } ∧
    q.outbox = p.outbox ++ (if (p.chan c).mode.running then (gone.filter fun e => !e.asRun).map (p.missed c) else []) ∧
    q.hold = p.hold ∧ q.spareQueue = p.spareQueue ∧ p.OtherChans q c := by
  rw [Plant.retire_some hgone.symm some] at hq
  obtain ⟨own, out, hold, queue, others, -⟩ := Plant.retireAll_parts (p := p) (c := c) gone rfl
  subst hq
  refine ⟨?_, out, hold, queue, fun d hd => (Plant.chan_modChan_other _ _ hd).trans (others d hd)⟩
  rw [Plant.chan_modChan_same, own, Channel.retired, hgone, filter_retired nodup]

/-- An event of a list of the same spans that bears the id ends as the event does. -/
theorem rend_of_span {l l' : List Event} (nodup : (l.map (·.id)).Nodup) (h : l'.map Event.span = l.map Event.span)
    (found : findEvent l e.id = some e) {k : Event} (hk : k ∈ l') (hn : k.id = e.id) : k.rend = e.rend := by
  obtain ⟨j, hj, id, rend⟩ := exists_of_span h hk
  rw [← rend, List.inj_on_of_nodup_map nodup hj (List.mem_of_find?_eq_some found) (id.trans hn)]

theorem turned_done (p : Plant) (k : Event) : (p.turned .done k).cue = .done ∧ (p.turned .done k).asRun = k.asRun := by
  unfold Plant.turned
  split <;> exact ⟨rfl, rfl⟩

section
variable (nodup : ((p.chan c).playlist.map (·.id)).Nodup) (found : findEvent (p.chan c).playlist e.id = some e)
  (early : e.cue = .pending ∨ e.cue = .cueing ∨ e.cue = .rolling) (unmarked : e.unmarked = true) (start : e.rstart ≤ (p.chan c).now)
  (stepped : Bool) {q : Plant} (hq : q = p.moveCue c stepped e.id)
include nodup found early unmarked start hq

/-- R164: an event on air without an entry of its own. -/
theorem Plant.airs_quiet (on : (p.chan c).now < e.rend)
    (h : ¬(p.chan c).logs ∨ (e.kind = .clip ∧ ∃ w ∈ (p.chan c).pendingSw, w.cause ≠ .follow)) :
    (q.chan c).openEntry = (p.chan c).openEntry ∧ q.entries = p.entries := by
  obtain ⟨l, os, moves, notices, spans, -⟩ := Plant.moveCue_airs stepped found early unmarked start
  have none : (p.wrote c { p.chan c with playlist := l } os).airingEntry c (p.chan c).seq.halted e =
      p.wrote c { p.chan c with playlist := l } os := Plant.airingEntry_none _ (by
    rw [Plant.wrote_chan]
    exact h.imp id fun h => ⟨h.1, Or.inl h.2⟩)
  rw [none, Plant.finishIfEnded_on (by
    rw [Plant.wrote_chan]
    exact fun k hk hn => rend_of_span nodup spans found hk hn ▸ on)] at moves
  rw [hq, moves, Plant.wrote_chan]
  exact ⟨rfl, Plant.wrote_entries_none _ (itemsOf_notices notices)⟩

/-- R164: an event on air opens its entry. -/
theorem Plant.airs_opens (on : (p.chan c).now < e.rend) (logs : (p.chan c).logs) {kind : EntryKind} {port : Option PortNo}
    (h : (e.kind = .filler ∧ kind = .start ∧ port = none) ∨
      (e.kind = .clip ∧ (∀ w ∈ (p.chan c).pendingSw, w.cause = .follow) ∧
        ((((p.chan c).seq.halted = true ∨ (p.chan c).portInUse = none) ∧ kind = .filler ∧ port = none) ∨
          ((p.chan c).seq.halted = false ∧ (p.chan c).portInUse ≠ none ∧ kind = .start ∧ port = (p.chan c).portInUse)))) :
    (q.chan c).openEntry = some { event := e.id, start := e.rstart, kind := kind, port := port } ∧
    ((p.chan c).openEntry = none → q.entries = p.entries) ∧
    ∀ o exit, (p.chan c).openEntry = some o → exitsAt (p.chan c).playlist o.event e.rstart exit →
      q.entries.map Outgoing.asRun = p.entries.map Outgoing.asRun ++ [p.closing c o e.rstart exit] ∧
      ∀ k ∈ (q.chan c).playlist, k.id = o.event → k.asRun = true := by
  obtain ⟨l, os, moves, notices, spans, -⟩ := Plant.moveCue_airs stepped found early unmarked start
  have opens : (p.wrote c { p.chan c with playlist := l } os).airingEntry c (p.chan c).seq.halted e =
      (p.wrote c { p.chan c with playlist := l } os).openEntryFor c e.id e.rstart kind port :=
    Plant.airingEntry_opens (by rw [Plant.wrote_chan]; exact logs) (by
      rw [Plant.wrote_chan]
      exact h.imp id fun ⟨clip, follow, h⟩ => ⟨clip, follow, on, h⟩)
  obtain ⟨l', os', opened, spans', -, first, next⟩ := Plant.wrote_opens (p := p) (c := c) (y := { p.chan c with playlist := l }) (os := os)
    rfl rfl (ids_of_span spans ▸ nodup) e.id e.rstart kind port
  rw [opens, opened, Plant.finishIfEnded_on (by
    rw [Plant.wrote_chan]
    exact fun k hk hn => rend_of_span nodup (spans'.trans spans) found hk hn ▸ on)] at moves
  rw [hq, moves, Plant.wrote_chan]
  refine ⟨rfl, fun none => ?_, fun o exit ho he => ?_⟩
  · rw [first none]
    exact Plant.wrote_entries_none _ (itemsOf_notices notices)
  · obtain ⟨rfl, rfl⟩ := next o exit ho (exits_of_span spans he)
    refine ⟨?_, fun k hk hn => ?_⟩
    · rw [Plant.wrote_entries, itemsOf, List.filter_append]
      exact congrArg (fun a => _ ++ (a ++ _)) (itemsOf_notices notices)
    · obtain ⟨j, hj, rfl⟩ := List.mem_map.mp hk
      by_cases id : j.id = o.event
      · rw [if_pos id]
      · rw [if_neg id] at hn
        exact absurd hn id

/-- R127, R15, R164: an event that a step has passed whole without an entry of its own. -/
theorem Plant.passes_quiet (ended : e.rend ≤ (p.chan c).now) (other : ∀ o, (p.chan c).openEntry = some o → o.event ≠ e.id)
    (h : ¬(p.chan c).logs ∨ e.kind = .clip) : (q.chan c).openEntry = (p.chan c).openEntry ∧ q.entries = p.entries := by
  obtain ⟨l, os, moves, notices, spans, airing⟩ := Plant.moveCue_airs stepped found early unmarked start
  obtain ⟨e', found', mem, id, rend⟩ := found_of_span nodup spans found
  have none : (p.wrote c { p.chan c with playlist := l } os).airingEntry c (p.chan c).seq.halted e =
      p.wrote c { p.chan c with playlist := l } os := Plant.airingEntry_none _ (by
    rw [Plant.wrote_chan]
    exact h.imp (fun h => h) fun h => ⟨h, Or.inr ended⟩)
  rw [none, Plant.finishIfEnded_ends (by rw [Plant.wrote_chan]; exact found') (airing e' mem id)
    (by rw [Plant.wrote_chan, rend]; exact ended), Plant.doneEntry_other (by rw [Plant.wrote_chan, id]; exact other),
    Plant.wrote_setCue] at moves
  rw [hq, moves, Plant.wrote_chan]
  exact ⟨rfl, Plant.wrote_entries_none _ (itemsOf_notices notices)⟩

/-- R127, R15, R164, R165: a FILLER event that a step has passed whole has an entry, opened and closed at once. -/
theorem Plant.passes_filler (ended : e.rend ≤ (p.chan c).now) (filler : e.kind = .filler) (logs : (p.chan c).logs) {own : OpenEntry}
    (hown : own = { event := e.id, start := e.rstart, kind := .start, port := none }) {last : Outgoing}
    (hlast : last = p.closing c own (if stepped then (p.chan c).now else e.rend) (if stepped then .cut else .finish)) :
    (q.chan c).openEntry = none ∧ (∀ k ∈ (q.chan c).playlist, k.id = e.id → k.cue = .done ∧ k.asRun = true) ∧
    ((p.chan c).openEntry = none → q.entries.map Outgoing.asRun = p.entries.map Outgoing.asRun ++ [last]) ∧
    ∀ o exit, (p.chan c).openEntry = some o → exitsAt (p.chan c).playlist o.event e.rstart exit →
      q.entries.map Outgoing.asRun = p.entries.map Outgoing.asRun ++ [p.closing c o e.rstart exit, last] := by
  obtain ⟨l, os, moves, notices, spans, airing⟩ := Plant.moveCue_airs stepped found early unmarked start
  have opens : (p.wrote c { p.chan c with playlist := l } os).airingEntry c (p.chan c).seq.halted e =
      (p.wrote c { p.chan c with playlist := l } os).openEntryFor c e.id e.rstart .start none :=
    Plant.airingEntry_opens (by rw [Plant.wrote_chan]; exact logs) (Or.inl ⟨filler, rfl, rfl⟩)
  obtain ⟨l', os', opened, spans', cues, first, next⟩ := Plant.wrote_opens (p := p) (c := c) (y := { p.chan c with playlist := l })
    (os := os) rfl rfl (ids_of_span spans ▸ nodup) e.id e.rstart .start none
  obtain ⟨e', found', mem, id, rend⟩ := found_of_span nodup (spans'.trans spans) found
  have airs : e'.cue = .airing := by
    obtain ⟨j, hj, hid, hcue⟩ := cues e' mem
    exact hcue ▸ airing j hj (hid.trans id)
  rw [opens, opened, Plant.finishIfEnded_ends (by rw [Plant.wrote_chan]; exact found') airs
    (by rw [Plant.wrote_chan, rend]; exact ended), Plant.doneEntry_own (by rw [Plant.wrote_chan]) id.symm,
    Plant.wrote_closeEntry (by rfl) (by rfl) (by rfl), Plant.wrote_setCue, Plant.wrote_chan, rend] at moves
  subst hown
  rw [← hlast] at moves
  have items : ∀ os', itemsOf (os' ++ [last]) = itemsOf os' ++ [last] := fun os' => by
    rw [hlast]
    exact List.filter_append ..
  rw [hq, moves, Plant.wrote_chan]
  refine ⟨rfl, fun k hk hn => ?_, fun none => ?_, fun o exit ho he => ?_⟩
  · obtain ⟨j, hj, rfl⟩ := List.mem_map.mp hk
    obtain ⟨i, hi, rfl⟩ := List.mem_map.mp hj
    by_cases h : i.id = e.id
    · simp [h, turned_done]
    · simp [h] at hn
  · rw [Plant.wrote_entries, items, first none, itemsOf_notices notices]
    rfl
  · obtain ⟨rfl, rfl⟩ := next o exit ho (exits_of_span spans he)
    rw [Plant.wrote_entries, items, itemsOf, List.filter_append]
    exact congrArg (fun a => _ ++ ((a ++ _) ++ _)) (itemsOf_notices notices)

end

/-- R127, rule 1, and R165: an event on air at its end. -/
theorem Plant.ends_own (nodup : ((p.chan c).playlist.map (·.id)).Nodup) (found : findEvent (p.chan c).playlist e.id = some e)
    (airing : e.cue = .airing) (ended : e.rend ≤ (p.chan c).now) (stepped : Bool) {o : OpenEntry} (ho : (p.chan c).openEntry = some o)
    (own : o.event = e.id) : p.moveCue c stepped e.id = p.wrote c { p.chan c with
      openEntry := none
      playlist := (p.chan c).playlist.map fun k => if k.id = e.id then { k with cue := .done, asRun := true } else k }
      [p.closing c o (if stepped then (p.chan c).now else e.rend) (if stepped then .cut else .finish)] := by
  have closed := Plant.wrote_closeEntry (p := p) (c := c) (y := p.chan c) (os := []) rfl rfl ho (if stepped then .cut else .finish)
    (if stepped then (p.chan c).now else e.rend)
  rw [Plant.wrote_self] at closed
  rw [Plant.moveCue_airing found airing, Plant.finishIfEnded_ends found airing ended, Plant.doneEntry_own ho own, closed,
    Plant.wrote_setCue]
  have list : (loggedAs o.event (p.chan c).playlist).map (fun k => if k.id = e.id then p.turned .done k else k) =
      (p.chan c).playlist.map fun k => if k.id = e.id then { k with cue := .done, asRun := true } else k := by
    rw [loggedAs, List.map_map, own]
    refine List.map_congr_left fun k hk => ?_
    by_cases h : k.id = e.id
    · have airs : ({ k with asRun := true } : Event).cue = .airing :=
        (congrArg Event.cue (List.inj_on_of_nodup_map nodup hk (List.mem_of_find?_eq_some found) h)).trans airing
      simp only [Function.comp, h, if_true, Plant.turned]
      exact if_neg fun k => nomatch k.1.symm.trans airs
    · simp only [Function.comp, h, if_false]
  simp only [list]
  rfl

theorem Plant.ends_other (nodup : ((p.chan c).playlist.map (·.id)).Nodup) (found : findEvent (p.chan c).playlist e.id = some e)
    (airing : e.cue = .airing) (ended : e.rend ≤ (p.chan c).now) (stepped : Bool)
    (other : ∀ o, (p.chan c).openEntry = some o → o.event ≠ e.id) : p.moveCue c stepped e.id = p.setChan c { p.chan c with
      playlist := (p.chan c).playlist.map fun k => if k.id = e.id then { k with cue := .done } else k } := by
  have turns := Plant.wrote_setCue (p := p) (c := c) (y := p.chan c) (os := []) e.id .done
  rw [Plant.wrote_self] at turns
  rw [Plant.moveCue_airing found airing, Plant.finishIfEnded_ends found airing ended, Plant.doneEntry_other other, turns, Plant.wrote,
    List.append_nil]
  have list : (p.chan c).playlist.map (fun k => if k.id = e.id then p.turned .done k else k) =
      (p.chan c).playlist.map fun k => if k.id = e.id then { k with cue := .done } else k := by
    refine List.map_congr_left fun k hk => ?_
    by_cases h : k.id = e.id
    · have airs := (congrArg Event.cue (List.inj_on_of_nodup_map nodup hk (List.mem_of_find?_eq_some found) h)).trans airing
      simp only [h, if_true, Plant.turned]
      exact if_neg fun k => nomatch k.1.symm.trans airs
    · simp only [h, if_false]
  simp only [list]
  rfl

end

/-! ## A join's entry (R164) -/

section
variable {p : Plant} {c : Chan}

theorem Plant.joinEntry_first (h : (p.chan c).openEntry = none) (n t : Nat) (kind : EntryKind) (port : Option PortNo) :
    p.joinEntry c n t kind port =
      p.setChan c { p.chan c with openEntry := some { event := n, start := t, kind := kind, port := port } } := by
  have opens := Plant.wrote_openEntryFor_first (p := p) (c := c) (y := p.chan c) (os := []) h n t kind port
  rw [Plant.wrote_self, Plant.wrote, List.append_nil] at opens
  rw [Plant.joinEntry, h]
  exact opens

theorem Plant.joinEntry_closes (nodup : ((p.chan c).playlist.map (·.id)).Nodup) {o : OpenEntry} (ho : (p.chan c).openEntry = some o)
    (n t : Nat) (kind : EntryKind) (port : Option PortNo) {exit : ExitKind}
    (h : (o.event = n ∧ (o.kind = .filler ∨ o.cutDue = true) ∧ exit = .cut) ∨
      (o.event ≠ n ∧ exitsAt (p.chan c).playlist o.event t exit)) :
    p.joinEntry c n t kind port = p.wrote c { p.chan c with
      openEntry := some { event := n, start := t, kind := kind, port := port }, playlist := loggedAs o.event (p.chan c).playlist }
      [p.closing c o t exit] := by
  rw [Plant.joinEntry, ho]
  rcases h with ⟨same, ends, rfl⟩ | ⟨other, exits⟩
  · have closed := Plant.wrote_closeEntry (p := p) (c := c) (y := p.chan c) (os := []) rfl rfl ho .cut t
    rw [Plant.wrote_self] at closed
    refine (if_pos same).trans ((if_pos ends).trans ?_)
    rw [closed, Plant.wrote_openEntryFor_first rfl]
    rfl
  · have opens := Plant.wrote_openEntryFor (p := p) (c := c) (y := p.chan c) (os := []) rfl rfl ho n t kind port
    rw [Plant.wrote_self, Plant.exitAt_eq nodup exits] at opens
    exact (if_neg other).trans opens

end

/-- Settles O56: the retirement is a fold whose parts `Plant.retireAll_parts` gives; an event that goes on air or ends, and a join,
change the channel and what is handed out as `Plant.wrote` says. -/
theorem retirementAndAsRunEntries : Obligations.RetirementAndAsRunEntries := by
  unfold Obligations.RetirementAndAsRunEntries
  rintro c p x label closed rfl nodup hlabel hclosed
  obtain rfl : label = p.dayLabel c := funext hlabel
  obtain rfl : closed = p.closing c := by
    funext o t exit
    exact hclosed o t exit
  refine ⟨?_, ?_, ?_⟩
  · rintro gone q hgone hq
    refine ⟨fun none => hq.trans (Plant.retire_none (hgone.symm.trans none)), ?_⟩
    rintro some y rfl
    obtain ⟨own, out, hold, queue, others⟩ := Plant.retire_leaves nodup hgone some hq
    have memory : (q.chan c).watch.lastEnded = gone.foldl lastEndedAfter (p.chan c).watch.lastEnded := by rw [own]; rfl
    refine ⟨?_, ?_, fun h => ?_, fun e he done clear within => ?_, hold, queue, ?_, others⟩
    · have list : (q.chan c).playlist = (p.chan c).playlist.filter fun e => !e.retires (p.chan c).now := by rw [own]; rfl
      rw [memory, list, own]
      rfl
    · rw [out]
      have mode := (p.chan c).mode.running_iff
      by_cases h : (p.chan c).mode = .onLocal ∨ (p.chan c).mode = .returning
      · rw [if_pos (mode.mpr h), if_pos h]
        rfl
      · rw [if_neg fun k => h (mode.mp k), if_neg h]
    · rw [memory]
      refine foldl_lastEnded_uncounted (fun e he counts => ?_) _
      obtain ⟨done, clear, within⟩ := counts
      rcases h e he with k | k | k
      · exact k done
      · exact nomatch clear.symm.trans k
      · exact nomatch within.symm.trans k
    · rw [memory]
      obtain ⟨n, t, final, le, source⟩ := foldl_lastEnded_counted he ⟨done, clear, within⟩ (p.chan c).watch.lastEnded
      refine ⟨n, t, final, le, fun m u hu => ?_, source.imp id fun ⟨k, hk, ⟨a, b, d⟩, id, rend⟩ => ⟨k, hk, a, b, d, id, rend⟩⟩
      obtain ⟨n', t', final', le'⟩ := (foldl_lastEnded_source gone _).2 m u hu
      obtain ⟨rfl, rfl⟩ := Prod.mk.inj (Option.some.inj (final.symm.trans final'))
      exact le'
    · rw [hq]
      exact Plant.still_of_rest (p.retire_rest c)
  · rintro stepped e q y found hq rfl
    have last : (if stepped = true then p.closing c { event := e.id, start := e.rstart, kind := .start, port := none } (p.chan c).now .cut
        else p.closing c { event := e.id, start := e.rstart, kind := .start, port := none } e.rend .finish) =
        p.closing c { event := e.id, start := e.rstart, kind := .start, port := none } (if stepped then (p.chan c).now else e.rend)
          (if stepped then .cut else .finish) := by
      cases stepped <;> rfl
    refine ⟨fun early unmarked start on => ⟨fun h => ?_, fun kind port logs h => ?_⟩,
      fun early unmarked start ended other => ⟨fun h => ?_, fun filler logs own hown => ?_⟩, fun airing ended =>
        ⟨fun o ho own => ?_, fun other => ?_⟩⟩
    · exact Plant.airs_quiet nodup found early unmarked start stepped hq on
        (h.elim (fun h => .inl (Channel.logs_not (.inl h))) (Or.imp (fun h => Channel.logs_not (.inr h)) id))
    · exact Plant.airs_opens nodup found early unmarked start stepped hq on logs h
    · exact Plant.passes_quiet nodup found early unmarked start stepped hq ended other
        (h.elim (fun h => .inl (Channel.logs_not (.inl h))) (Or.imp (fun h => Channel.logs_not (.inr h)) id))
    · subst hown
      rw [last]
      exact Plant.passes_filler nodup found early unmarked start stepped hq ended filler logs rfl rfl
    · have ends := Plant.ends_own nodup found airing ended stepped ho own
      cases stepped <;> exact hq.trans ends
    · exact hq.trans (Plant.ends_other nodup found airing ended stepped other)
  · rintro n t kind port y rfl
    refine ⟨fun none => Plant.joinEntry_first none n t kind port, fun o ho => ⟨fun same kind' cut => ?_, fun exit h => ?_⟩⟩
    · rw [← same]
      exact p.joinEntry_stays c t kind port ho kind' cut
    · exact Plant.joinEntry_closes nodup ho n t kind port
        (h.imp id (Or.elim · (fun ⟨other, he⟩ => ⟨other, .inl he⟩) fun ⟨other, he⟩ => ⟨other, .inr he⟩))

end Sys2Proof.Machine
end

