-- ==== Sys2Proof/Proofs/StepQueue.lean ====
section
/-! PROOFS. The step queue: what a frame start queues, how the heads are taken, and the grant of a command (R117 to R123, R130). -/

namespace Sys2Proof.Machine

/-! ## The stable sort -/

section
variable {α : Type} {key : α → Nat} {R : α → α → Prop}

theorem insertBy_perm (before : α → α → Bool) (x : α) (l : List α) : (insertBy before x l).Perm (x :: l) := by
  induction l with
  | nil => exact .refl _
  | cons y l ih =>
    rw [insertBy]
    split
    · exact .refl _
    · exact (ih.cons y).trans (.swap x y l)

theorem sortBy_perm (before : α → α → Bool) (l : List α) : (sortBy before l).Perm l := by
  have all : ∀ (l acc : List α), (l.foldl (fun acc x => insertBy before x acc) acc).Perm (acc ++ l) := fun l => by
    induction l with
    | nil => exact fun acc => by simp
    | cons x l ih => exact fun acc => (ih _).trans (((insertBy_perm before x acc).append_right l).trans List.perm_middle.symm)
  exact all l []

/-- By key, and for one key as a relation says. -/
def ByKey (key : α → Nat) (R : α → α → Prop) (a b : α) : Prop := key a < key b ∨ (key a = key b ∧ R a b)

theorem insertBy_pairwise {x : α} {l : List α} (sorted : l.Pairwise (ByKey key R)) (after : ∀ y ∈ l, R y x) :
    (insertBy (fun a b => decide (key a < key b)) x l).Pairwise (ByKey key R) := by
  induction l with
  | nil => exact List.pairwise_singleton _ _
  | cons y l ih =>
    obtain ⟨first, rest⟩ := List.pairwise_cons.mp sorted
    rw [insertBy]
    split
    · next lt =>
      have lt : key x < key y := of_decide_eq_true lt
      refine List.pairwise_cons.mpr ⟨fun z hz => Or.inl ?_, sorted⟩
      rcases List.mem_cons.mp hz with rfl | hz
      · exact lt
      · rcases first z hz with h | h
        · exact lt.trans h
        · exact h.1 ▸ lt
    · next ge =>
      have ge : key y ≤ key x := Nat.not_lt.mp fun lt => ge (decide_eq_true lt)
      refine List.pairwise_cons.mpr ⟨fun z hz => ?_, ih rest fun z hz => after z (List.mem_cons_of_mem _ hz)⟩
      rcases List.mem_cons.mp ((insertBy_perm _ x l).mem_iff.mp hz) with rfl | hz
      · rcases Nat.lt_or_eq_of_le ge with lt | eq
        · exact Or.inl lt
        · exact Or.inr ⟨eq, after y List.mem_cons_self⟩
      · exact first z hz

/-- A stable sort by a key keeps the order of the list for elements of one key. -/
theorem sortBy_pairwise {l : List α} (ordered : l.Pairwise R) :
    (sortBy (fun a b => decide (key a < key b)) l).Pairwise (ByKey key R) := by
  have all : ∀ (l acc : List α), l.Pairwise R → acc.Pairwise (ByKey key R) → (∀ y ∈ acc, ∀ x ∈ l, R y x) →
      (l.foldl (fun acc x => insertBy (fun a b => decide (key a < key b)) x acc) acc).Pairwise (ByKey key R) := fun l => by
    induction l with
    | nil => exact fun acc _ sorted _ => sorted
    | cons x l ih =>
      intro acc ordered sorted after
      obtain ⟨first, rest⟩ := List.pairwise_cons.mp ordered
      refine ih _ rest (insertBy_pairwise sorted fun y hy => after y hy x List.mem_cons_self) fun y hy z hz => ?_
      rcases List.mem_cons.mp ((insertBy_perm _ x acc).mem_iff.mp hy) with rfl | hy
      · exact first z hz
      · exact after y hy z (List.mem_cons_of_mem _ hz)
  exact all l [] ordered .nil nofun

end

/-! ## The entries of one event -/

/-- R117, R118: the entry of a repetition. -/
def Event.entry (e : Event) (preroll : Nat) (st : Step) (n k : Nat) : StepEntry :=
  { event := e.id, step := n, rep := k, isLast := k == st.repeats, due := dueFrame preroll e st k, cond := st.cond,
    action := entryAction e st.body, standing := .live }

theorem mem_dueEntries {preroll now : Nat} {e : Event} {t : List Step} {s : StepEntry} : s ∈ dueEntries preroll now e t ↔
    ∃ st n k, t[n]? = some st ∧ k ≤ st.repeats ∧ (n, k) ∉ e.progress ∧ dueFrame preroll e st k ≤ now ∧ dueFrame preroll e st k ≤ e.rend ∧
      s = e.entry preroll st n k := by
  simp only [dueEntries, List.mem_flatMap, List.mem_filterMap, List.mem_range, Prod.exists, Nat.lt_succ_iff]
  constructor
  · rintro ⟨st, n, hst, k, hk, h⟩
    split at h
    · cases h
    · next free =>
      simp only [Bool.or_eq_true, List.contains_eq_mem, decide_eq_true_eq, not_or, Nat.not_lt] at free
      exact ⟨st, n, k, List.mem_zipIdx_iff_getElem?.mp hst, hk, free.1.1, free.1.2, free.2, (Option.some.inj h).symm⟩
  · rintro ⟨st, n, k, hst, hk, fresh, due, within, rfl⟩
    refine ⟨st, n, List.mem_zipIdx_iff_getElem?.mpr hst, k, hk, if_neg ?_⟩
    simp [fresh, due, within]

/-- Within an event: by step number, then by repetition. -/
def StepEntry.within (a b : StepEntry) : Prop := a.step < b.step ∨ (a.step = b.step ∧ a.rep < b.rep)

theorem dueEntries_pairwise (preroll now : Nat) (e : Event) (t : List Step) :
    (dueEntries preroll now e t).Pairwise StepEntry.within := by
  have made : ∀ (st : Step) (n k : Nat) (s : StepEntry),
      (if e.progress.contains (n, k) || decide (now < dueFrame preroll e st k) || decide (e.rend < dueFrame preroll e st k) then none
        else some (e.entry preroll st n k)) = some s → s.step = n ∧ s.rep = k := fun st n k s h => by
    split at h
    · cases h
    · rw [← Option.some.inj h]
      exact ⟨rfl, rfl⟩
  have steps : t.zipIdx.Pairwise fun a b => a.2 < b.2 := by
    rw [List.pairwise_iff_getElem]
    intro i j hi hj lt
    simpa using lt
  rw [dueEntries, List.pairwise_flatMap]
  refine ⟨fun (st, n) _ => ?_, steps.imp fun {a b} lt x hx y hy => Or.inl ?_⟩
  · rw [List.pairwise_filterMap]
    refine List.pairwise_lt_range.imp fun {a b} lt x hx y hy => Or.inr ?_
    obtain ⟨hxs, hxr⟩ := made st n a x hx
    obtain ⟨hys, hyr⟩ := made st n b y hy
    rw [hxs, hys, hxr, hyr]
    exact ⟨rfl, lt⟩
  · obtain ⟨st, n⟩ := a
    obtain ⟨st', n'⟩ := b
    obtain ⟨i, -, hx⟩ := List.mem_filterMap.mp hx
    obtain ⟨j, -, hy⟩ := List.mem_filterMap.mp hy
    rw [(made st n i x hx).1, (made st' n' j y hy).1]
    exact lt

/-! ## The entries of a channel -/

/-- R121: the events that may queue steps. -/
def Event.queues (e : Event) : Bool := e.unmarked && e.cue != .done

section
variable {p : Plant} {c : Chan} {past events : List Event}

/-- What is due, event after event. -/
def Plant.dueList (p : Plant) (c : Chan) (events : List Event) : List StepEntry :=
  (events.filter Event.queues).flatMap fun e => dueEntries (p.prerollInUse c) (p.chan c).now e (p.templateOf e)

theorem Plant.newlyDue_eq (hl : (p.chan c).playlist = past ++ events) (hpast : ∀ e ∈ past, (p.chan c).seq.cursor ≠ some e.id)
    (hc : (p.chan c).seq.cursor = events.head?.map (·.id)) :
    p.newlyDue c = sortBy (fun a b => decide (a.due < b.due)) (p.dueList c events) := by
  have from_cursor := fromCursor_split hpast hc
  rw [← hl] at from_cursor
  simp only [Plant.newlyDue, from_cursor]
  rfl

theorem Plant.mem_dueList {s : StepEntry} : s ∈ p.dueList c events ↔ ∃ e ∈ events, e.unmarked = true ∧ e.cue ≠ .done ∧
    ∃ st n k, (p.templateOf e)[n]? = some st ∧ k ≤ st.repeats ∧ (n, k) ∉ e.progress ∧
      dueFrame (p.prerollInUse c) e st k ≤ (p.chan c).now ∧ dueFrame (p.prerollInUse c) e st k ≤ e.rend ∧
      s = e.entry (p.prerollInUse c) st n k := by
  simp only [Plant.dueList, List.mem_flatMap, List.mem_filter, mem_dueEntries, Event.queues, Bool.and_eq_true, bne_iff_ne, and_assoc]

/-- In the order of the list of events, and within an event by step and repetition. -/
def InOrder (ids : List Nat) (a b : StepEntry) : Prop :=
  ids.idxOf a.event < ids.idxOf b.event ∨ (a.event = b.event ∧ a.within b)

theorem Plant.dueList_pairwise (nodup : (events.map (·.id)).Nodup) :
    (p.dueList c events).Pairwise (InOrder (events.map (·.id))) := by
  have places : (events.map (·.id)).Pairwise fun a b => (events.map (·.id)).idxOf a < (events.map (·.id)).idxOf b := by
    rw [List.pairwise_iff_getElem]
    intro i j hi hj lt
    rwa [List.Nodup.idxOf_getElem nodup i hi, List.Nodup.idxOf_getElem nodup j hj]
  have event : ∀ (e : Event) (s : StepEntry), s ∈ dueEntries (p.prerollInUse c) (p.chan c).now e (p.templateOf e) → s.event = e.id :=
    fun e s hs => by
      obtain ⟨st, n, k, -, -, -, -, -, rfl⟩ := mem_dueEntries.mp hs
      rfl
  rw [Plant.dueList, List.pairwise_flatMap]
  refine ⟨fun e _ => (dueEntries_pairwise _ _ e _).imp_of_mem fun {a b} ha hb h => Or.inr ⟨?_, h⟩, ?_⟩
  · rw [event e a ha, event e b hb]
  · refine ((List.pairwise_map.mp places).sublist List.filter_sublist).imp fun {e e'} lt a ha b hb => Or.inl ?_
    rw [event e a ha, event e' b hb]
    exact lt

/-- R121: the entries that join the queue. -/
def Plant.fresh (p : Plant) (c : Chan) : List StepEntry := (p.newlyDue c).take (16 - (p.chan c).seq.queue.length)

theorem Plant.enqueueDue_chan : (p.enqueueDue c).chan c = { p.chan c with
    seq := { (p.chan c).seq with queue := (p.chan c).seq.queue ++ p.fresh c }
    playlist := (p.fresh c).foldl markProgress (p.chan c).playlist } := by
  rw [Plant.enqueueDue, Plant.chan_modChan_same]
  rfl

theorem foldl_markProgress_marked (ks : List StepEntry) (l : List Event) : (∀ e' ∈ ks.foldl markProgress l,
    (∃ e ∈ l, e'.id = e.id ∧ ∀ r ∈ e.progress, r ∈ e'.progress) ∧ ∀ k ∈ ks, e'.id = k.event → (k.step, k.rep) ∈ e'.progress) ∧
    (ks.foldl markProgress l).map (fun e => { e with progress := [] }) = l.map fun e => { e with progress := [] } := by
  induction ks generalizing l with
  | nil => exact ⟨fun e he => ⟨⟨e, he, rfl, fun _ h => h⟩, nofun⟩, rfl⟩
  | cons k ks ih =>
    obtain ⟨marked, same⟩ := ih (markProgress l k)
    have eq : markProgress l k = l.map fun e => if e.id = k.event then { e with progress := e.progress ++ [(k.step, k.rep)] } else e :=
      modEvent_eq ..
    refine ⟨fun e' he' => ?_, same.trans ?_⟩
    · obtain ⟨⟨e, he, id, keeps⟩, later⟩ := marked e' he'
      rw [eq] at he
      obtain ⟨j, hj, rfl⟩ := List.mem_map.mp he
      by_cases h : j.id = k.event
      · rw [if_pos h] at id keeps
        refine ⟨⟨j, hj, id, fun r hr => keeps r (List.mem_append_left _ hr)⟩, fun k' hk' hid => ?_⟩
        rcases List.mem_cons.mp hk' with rfl | hk'
        · exact keeps _ (List.mem_append_right _ (List.mem_singleton_self _))
        · exact later k' hk' hid
      · rw [if_neg h] at id keeps
        refine ⟨⟨j, hj, id, keeps⟩, fun k' hk' hid => ?_⟩
        rcases List.mem_cons.mp hk' with rfl | hk'
        · exact absurd (id.symm.trans hid) h
        · exact later k' hk' hid
    · rw [eq, List.map_map]
      refine List.map_congr_left fun j _ => ?_
      simp only [Function.comp]
      split <;> rfl

/-- An element of an ordered list is among the first so many, or they all come before it. -/
theorem mem_take_or {α : Type} {R : α → α → Prop} {l : List α} (ordered : l.Pairwise R) {a : α} (h : a ∈ l) (n : Nat) :
    a ∈ l.take n ∨ ((l.take n).length = n ∧ ∀ b ∈ l.take n, R b a) := by
  rw [← List.take_append_drop n l] at ordered h
  rcases List.mem_append.mp h with h | h
  · exact Or.inl h
  · have long : n < l.length := by
      have := List.length_pos_of_mem h
      rw [List.length_drop] at this
      omega
    exact Or.inr ⟨by rw [List.length_take]; omega, fun b hb => (List.pairwise_append.mp ordered).2.2 b hb a h⟩

section
variable (hl : (p.chan c).playlist = past ++ events) (hpast : ∀ e ∈ past, (p.chan c).seq.cursor ≠ some e.id)
  (hc : (p.chan c).seq.cursor = events.head?.map (·.id))
include hl hpast hc

theorem Plant.mem_newlyDue {s : StepEntry} : s ∈ p.newlyDue c ↔ s ∈ p.dueList c events := by
  rw [Plant.newlyDue_eq hl hpast hc]
  exact mem_sortBy _ _ _

theorem Plant.newlyDue_sorted : (p.newlyDue c).Pairwise fun a b => a.due ≤ b.due := by
  rw [Plant.newlyDue_eq hl hpast hc]
  exact (sortBy_pairwise (key := StepEntry.due) (List.pairwise_of_forall (R := fun _ _ => True) fun _ _ => trivial)).imp
    fun h => h.elim Nat.le_of_lt fun h => Nat.le_of_eq h.1

theorem Plant.newlyDue_ordered (nodup : (events.map (·.id)).Nodup) :
    (p.newlyDue c).Pairwise (ByKey StepEntry.due (InOrder (events.map (·.id)))) := by
  rw [Plant.newlyDue_eq hl hpast hc]
  exact sortBy_pairwise (Plant.dueList_pairwise nodup)

theorem Plant.newlyDue_distinct (nodup : (events.map (·.id)).Nodup) :
    ((p.newlyDue c).map fun k => (k.event, k.step, k.rep)).Nodup := by
  rw [Plant.newlyDue_eq hl hpast hc]
  refine (((sortBy_perm _ _).map _).nodup_iff).mpr (List.pairwise_map.mpr ((Plant.dueList_pairwise nodup).imp fun {a b} h same => ?_))
  obtain ⟨event, step, rep⟩ : a.event = b.event ∧ a.step = b.step ∧ a.rep = b.rep := by simpa using same
  rcases h with h | ⟨-, h | h⟩
  · rw [event] at h
    exact Nat.lt_irrefl _ h
  · exact Nat.lt_irrefl _ (step ▸ h)
  · exact Nat.lt_irrefl _ (rep ▸ h.2)

end

end

/-! ## The heads are taken -/

section
variable {p : Plant} {c : Chan}

theorem Plant.modEvent_seq (p : Plant) (c : Chan) (n : Nat) (f : Event → Event) : ((p.modEvent c n f).chan c).seq = (p.chan c).seq := by
  rw [Plant.modEvent, Plant.chan_modChan_same]

theorem Plant.writeLast_queue (o : DevOutcome) : ((p.writeLast c o).chan c).seq.queue = (p.chan c).seq.queue := by
  unfold Plant.writeLast
  split
  · rfl
  · rw [Plant.chan_modChan_same]

theorem Plant.haltSequence_queue (cause : HaltCause) :
    ((p.haltSequence c cause).chan c).seq.queue.Sublist (p.chan c).seq.queue := by
  cases h : (p.chan c).seq.halted with
  | true =>
    rw [Plant.haltSequence, if_pos h]
  | false =>
    rw [(Plant.haltSequence_sets h cause rfl).1]
    exact List.nil_sublist _

theorem Plant.dropRepetitions_queue (k : StepEntry) : ((p.dropRepetitions c k).chan c).seq.queue.Sublist (p.chan c).seq.queue := by
  unfold Plant.dropRepetitions
  simp only
  split
  · rw [Plant.modEvent_seq, Plant.chan_modChan_same]
    exact List.filter_sublist
  · rw [Plant.chan_modChan_same]
    exact List.filter_sublist

theorem Plant.skipEvent_queue (k : StepEntry) : ((p.skipEvent c k).chan c).seq.queue.Sublist (p.chan c).seq.queue := by
  generalize hq : p.modChan c (fun x => x.dropEntriesLike k) = q
  have drops : (q.chan c).seq.queue.Sublist (p.chan c).seq.queue := by
    rw [← hq, Plant.chan_modChan_same]
    exact List.filter_sublist
  have mods : ∀ f, ((q.modEvent c k.event f).chan c).seq.queue.Sublist (p.chan c).seq.queue := fun f => by
    rw [Plant.modEvent_seq]
    exact drops
  unfold Plant.skipEvent
  simp only [hq]
  split
  · exact drops
  · split
    · exact drops
    · split
      · exact mods _
      · exact mods _
      · exact mods _
      · split
        · split
          · exact mods _
          · rw [Plant.decideSwitch, Plant.chan_modChan_same]
            exact mods _
        · exact mods _
      · exact mods _

/-- R124 to R126: an outcome queues nothing. -/
theorem Plant.cueOutcome_queue (k : StepEntry) (o : DevOutcome) :
    ((p.cueOutcome c k o).chan c).seq.queue.Sublist (p.chan c).seq.queue := by
  have wrote : ∀ q : Plant, (q.chan c).seq.queue.Sublist ((p.writeLast c o).chan c).seq.queue →
      (q.chan c).seq.queue.Sublist (p.chan c).seq.queue := fun q h => by
    rwa [Plant.writeLast_queue] at h
  unfold Plant.cueOutcome
  split
  · exact .refl _
  · refine wrote _ ?_
    generalize p.writeLast c o = q
    split
    · split
      · rw [Plant.modEvent_seq]
      · exact .refl _
    · next mode clip action _ =>
      split
      · exact Plant.dropRepetitions_queue k
      · split
        · cases action with
          | ignore => exact .refl _
          | skipEvent => exact Plant.skipEvent_queue (p := q.tellCueFault c k _ _) k
          | halt => exact Plant.haltSequence_queue (p := q.tellCueFault c k _ _) _
        · exact .refl _

theorem Plant.taken_queue (k : StepEntry) : ((p.taken c k).chan c).seq.queue = (p.chan c).seq.queue := by
  unfold Plant.taken
  split
  · rw [Plant.modEvent_seq]
  · rfl

/-- R123: the head is taken off the queue, and its PENDING event moves to CUEING. -/
def Plant.popped (p : Plant) (c : Chan) (k : StepEntry) (rest : List StepEntry) : Plant :=
  (p.modChan c fun x => { x with seq := { x.seq with queue := rest } }).taken c k

theorem Plant.popped_queue (k : StepEntry) (rest : List StepEntry) : ((p.popped c k rest).chan c).seq.queue = rest := by
  rw [Plant.popped, Plant.taken_queue, Plant.chan_modChan_same]

/-- What the head of the queue finds (R123). -/
theorem Plant.takeHeadsN_head (n : Nat) {k : StepEntry} {rest : List StepEntry} (h : (p.chan c).seq.queue = k :: rest) :
    Plant.takeHeadsN (n + 1) c p =
      if !(p.chan c).seq.issuing || decide ((p.chan c).now < k.due) then p
      else match (p.chan c).portInUse with
        | none => if k.cond.holds (p.chan c).seq.last then Plant.takeHeadsN n c ((p.popped c k rest).cueOutcome c k .timeout)
          else Plant.takeHeadsN n c (p.popped c k rest)
        | some i =>
          if (p.port i).slotCue.isSome || (p.port i).cueBusy c || !(p.port i).claim.isEmpty then p
          else if !k.cond.holds (p.chan c).seq.last then Plant.takeHeadsN n c (p.popped c k rest)
          else if (p.port i).state = .up then (p.popped c k rest).modPort i fun y => { y with slotCue := some (c, k) }
          else Plant.takeHeadsN n c ((p.popped c k rest).cueOutcome c k .timeout) := by
  simp only [Plant.takeHeadsN, h]
  rfl

/-- The heads taken do not depend on the fuel, where that is enough. -/
theorem Plant.takeHeadsN_fuel (n m : Nat) (hn : (p.chan c).seq.queue.length ≤ n) (hm : (p.chan c).seq.queue.length ≤ m) :
    Plant.takeHeadsN n c p = Plant.takeHeadsN m c p := by
  have empty : ∀ m, (p.chan c).seq.queue = [] → Plant.takeHeadsN m c p = p := fun m h => by
    cases m with
    | zero => rfl
    | succ m => simp only [Plant.takeHeadsN, h]
  induction n generalizing m p with
  | zero =>
    have h := List.eq_nil_of_length_eq_zero (Nat.le_zero.mp hn)
    rw [empty m h]
    rfl
  | succ n ih =>
    cases h : (p.chan c).seq.queue with
    | nil => rw [empty _ h, empty _ h]
    | cons k rest =>
      rw [h, List.length_cons] at hn hm
      obtain ⟨m, rfl⟩ : ∃ j, m = j + 1 := ⟨m - 1, by omega⟩
      have pop : (((p.popped c k rest)).chan c).seq.queue.length = rest.length := by rw [Plant.popped_queue]
      have out : ((((p.popped c k rest).cueOutcome c k .timeout)).chan c).seq.queue.length ≤ rest.length := by
        rw [← pop]
        exact (Plant.cueOutcome_queue k _).length_le
      have after : ∀ q : Plant, (q.chan c).seq.queue.length ≤ rest.length → Plant.takeHeadsN n c q = Plant.takeHeadsN m c q :=
        fun q hq => ih m (by omega) (by omega) fun m h => by
          cases m with
          | zero => rfl
          | succ m => simp only [Plant.takeHeadsN, h]
      rw [Plant.takeHeadsN_head n h, Plant.takeHeadsN_head m h, after _ (Nat.le_of_eq pop), after _ out]

theorem Plant.takeHeads_empty (h : (p.chan c).seq.queue = []) : p.takeHeads c = p := by
  rw [Plant.takeHeads, h]
  rfl

section
variable {k : StepEntry} {rest : List StepEntry} (h : (p.chan c).seq.queue = k :: rest)
include h

theorem Plant.takeHeads_head : p.takeHeads c =
      if !(p.chan c).seq.issuing || decide ((p.chan c).now < k.due) then p
      else match (p.chan c).portInUse with
        | none => if k.cond.holds (p.chan c).seq.last then ((p.popped c k rest).cueOutcome c k .timeout).takeHeads c
          else (p.popped c k rest).takeHeads c
        | some i =>
          if (p.port i).slotCue.isSome || (p.port i).cueBusy c || !(p.port i).claim.isEmpty then p
          else if !k.cond.holds (p.chan c).seq.last then (p.popped c k rest).takeHeads c
          else if (p.port i).state = .up then (p.popped c k rest).modPort i fun y => { y with slotCue := some (c, k) }
          else ((p.popped c k rest).cueOutcome c k .timeout).takeHeads c := by
  have pop : Plant.takeHeadsN rest.length c (p.popped c k rest) = (p.popped c k rest).takeHeads c :=
    Plant.takeHeadsN_fuel _ _ (by rw [Plant.popped_queue]) (Nat.le_refl _)
  have out : Plant.takeHeadsN rest.length c ((p.popped c k rest).cueOutcome c k .timeout) =
      ((p.popped c k rest).cueOutcome c k .timeout).takeHeads c :=
    Plant.takeHeadsN_fuel _ _ ((Plant.cueOutcome_queue k _).length_le.trans (by rw [Plant.popped_queue])) (Nat.le_refl _)
  have head := Plant.takeHeadsN_head (p := p) (c := c) rest.length h
  rw [pop, out] at head
  rw [Plant.takeHeads, h]
  exact head

/-- R123: a head that is not due, or whose way is not free, stays. -/
theorem Plant.takeHeads_stays (wait : (p.chan c).seq.issuing = false ∨ (p.chan c).now < k.due ∨
    ∃ i, (p.chan c).portInUse = some i ∧ ((p.port i).slotCue ≠ none ∨ (p.port i).claim ≠ [] ∨
      ∃ cmd j, (p.port i).outstanding = some ⟨cmd, .cue c j⟩)) : p.takeHeads c = p := by
  rw [Plant.takeHeads_head h]
  by_cases early : (!(p.chan c).seq.issuing || decide ((p.chan c).now < k.due)) = true
  · exact if_pos early
  · rw [if_neg early]
    rcases wait with off | later | ⟨i, hi, busy⟩
    · exact absurd (by rw [off]; rfl) early
    · exact absurd (by rw [decide_eq_true later, Bool.or_true]) early
    · rw [hi]
      refine if_pos ?_
      rcases busy with slot | claim | ⟨cmd, j, out⟩
      · simp [Option.isSome_iff_ne_none.mpr slot]
      · simp [claim]
      · simp [Port.cueBusy, out]

section
variable (issuing : (p.chan c).seq.issuing = true) (due : k.due ≤ (p.chan c).now) (free : ∀ i, (p.chan c).portInUse = some i →
  (p.port i).slotCue = none ∧ (p.port i).claim = [] ∧ ∀ cmd j, (p.port i).outstanding ≠ some ⟨cmd, .cue c j⟩)
include issuing due free

/-- R123: what becomes of a head that is due and whose way is free. -/
theorem Plant.takeHeads_takes : p.takeHeads c =
    if k.cond.holds (p.chan c).seq.last = false then (p.popped c k rest).takeHeads c
    else match (p.chan c).portInUse with
      | none => ((p.popped c k rest).cueOutcome c k .timeout).takeHeads c
      | some i => if (p.port i).state = .up then (p.popped c k rest).modPort i fun y => { y with slotCue := some (c, k) }
        else ((p.popped c k rest).cueOutcome c k .timeout).takeHeads c := by
  have now : (!(p.chan c).seq.issuing || decide ((p.chan c).now < k.due)) = false := by
    rw [issuing, decide_eq_false (Nat.not_lt.mpr due)]
    rfl
  rw [Plant.takeHeads_head h, now, if_neg Bool.false_ne_true]
  cases hi : (p.chan c).portInUse with
  | none => cases k.cond.holds (p.chan c).seq.last <;> rfl
  | some i =>
    obtain ⟨slot, claim, out⟩ := free i hi
    have open' : ((p.port i).slotCue.isSome || (p.port i).cueBusy c || !(p.port i).claim.isEmpty) = false := by
      have idle : (p.port i).cueBusy c = false := by
        unfold Port.cueBusy
        split
        · next cmd d j ho => exact beq_eq_false_iff_ne.mpr fun e => out cmd j (by rw [ho, e])
        · rfl
      rw [slot, claim, idle]
      rfl
    simp only [open', Bool.false_eq_true, if_false]
    cases k.cond.holds (p.chan c).seq.last <;> rfl

end

end

/-- R123: the head taken, written out. -/
theorem Plant.popped_eq (k : StepEntry) (rest : List StepEntry) : p.popped c k rest = p.setChan c { p.chan c with
    seq := { (p.chan c).seq with queue := rest }
    playlist := (p.chan c).playlist.map fun e => if k.standing = .live ∧ e.id = k.event ∧ e.cue = .pending ∧ e.unmarked = true then
      { e with cue := .cueing, bound := some (p.templateOf e) } else e } := by
  rw [Plant.popped, Plant.modChan_wrote, Plant.taken]
  by_cases live : k.standing = .live
  · rw [if_pos live, Plant.wrote_modEvent, Plant.wrote, List.append_nil]
    have list : (p.chan c).playlist.map (fun e => if e.id = k.event then
        (if e.cue = .pending ∧ e.unmarked = true then (p.bindTo .cueing e) else e) else e) =
        (p.chan c).playlist.map fun e => if k.standing = .live ∧ e.id = k.event ∧ e.cue = .pending ∧ e.unmarked = true then
          { e with cue := .cueing, bound := some (p.templateOf e) } else e := by
      refine List.map_congr_left fun e _ => ?_
      by_cases id : e.id = k.event
      · rw [if_pos id]
        exact if_congr (by simp [live, id]) rfl rfl
      · simp only [id, live, false_and, and_false, if_false]
    rw [← list]
    rfl
  · rw [if_neg live, Plant.wrote, List.append_nil]
    have list : (p.chan c).playlist.map (fun e => if k.standing = .live ∧ e.id = k.event ∧ e.cue = .pending ∧ e.unmarked = true then
        { e with cue := .cueing, bound := some (p.templateOf e) } else e) = (p.chan c).playlist :=
      List.map_id'' (fun e => if_neg fun a => live a.1) _
    rw [list]
    rfl

end

/-! ## Conditions, the frame start's sequence, and the grant -/

theorem Cond.holds_iff (o : Option LastOutcome) (k : Cond) : k.holds o = true ↔ k = .always ∨ (k = .ifDone ∧ o = some .done) ∨
    (k = .ifNotDone ∧ o ≠ some .done) ∨ (k = .ifCued ∧ o = some (.state .cued)) ∨ (k = .ifRolling ∧ o = some (.state .rolling)) ∨
    (k = .ifTimeout ∧ o = some .timeout) := by
  cases k <;> simp [Cond.holds]

theorem Plant.issues_iff (p : Plant) (c : Chan) : p.issues c = true ↔ (p.chan c).seq.halted = false ∧
    ((p.chan c).mode = .onLocal ∨ (p.chan c).mode = .returning ∨
      (((p.chan c).mode = .shadow ∨ (p.chan c).mode = .confirming ∨ (p.chan c).mode = .taking) ∧
        ∃ g, (p.chan c).config = some g ∧ g.standby = .hot)) := by
  have hot : (p.config c).any (fun g => g.standby == .hot) = true ↔ ∃ g, (p.chan c).config = some g ∧ g.standby = .hot := by
    rw [Plant.config, Option.any_eq_true]
    simp
  rw [Plant.issues, Bool.and_eq_true, Bool.not_eq_true']
  refine and_congr_right fun _ => ?_
  cases h : (p.chan c).mode <;> simp [hot]

/-- R106, R130: the command in the slot is granted, and one late by more than 2 frames told of. -/
theorem Plant.arbitrate_slot {p : Plant} {i : PortNo} {c : Chan} {k : StepEntry} (up : (p.port i).state = .up)
    (out : (p.port i).outstanding = none) (held : (p.port i).grantHeld = false) (claim : (p.port i).claim = [])
    (slot : (p.port i).slotCue = some (c, k)) : p.arbitrate i =
      if k.due + 2 < (p.chan c).now then
        (p.setPort i ({ p.port i with slotCue := none }.grant k.action.cmd (.cue c k))).tellCueLate c k
      else p.setPort i ({ p.port i with slotCue := none }.grant k.action.cmd (.cue c k)) := by
  simp [Plant.arbitrate, Port.dropFinished_empty claim, Plant.dueCommand, up, claim, out, held, slot]

/-- Settles O46: the newly due entries are a stable sort of what the events from the cursor on have due, so that what joins the queue is a
first part of a list ordered by `ByKey`; the heads are taken one by one (`Plant.takeHeads_takes`), whatever the fuel. -/
theorem dueStepsAreQueued : Obligations.DueStepsAreQueued := by
  unfold Obligations.DueStepsAreQueued
  refine ⟨?_, ?_, Cond.holds_iff, ?_, ?_⟩
  · rintro c p q x past events due rfl rfl few hl hpast hc hdue
    have due_eq : ∀ e st rep, due e st rep = (dueFrame (p.prerollInUse c) e st rep : Int) := fun e st rep => by
      rw [hdue, dueFrame, Int.ofNat_toNat, max_comm]
      cases st.anchor <;> rfl
    have queue : ((p.enqueueDue c).chan c).seq.queue = (p.chan c).seq.queue ++ p.fresh c := by rw [Plant.enqueueDue_chan]
    have list : ((p.enqueueDue c).chan c).playlist = (p.fresh c).foldl markProgress (p.chan c).playlist := by rw [Plant.enqueueDue_chan]
    have short : (p.fresh c).length ≤ 16 - (p.chan c).seq.queue.length := List.length_take_le _ _
    have length : ((p.enqueueDue c).chan c).seq.queue.length = (p.chan c).seq.queue.length + (p.fresh c).length := by
      rw [queue, List.length_append]
    have mem : ∀ k ∈ p.fresh c, k ∈ p.dueList c events := fun k hk =>
      (Plant.mem_newlyDue hl hpast hc).mp (List.mem_of_mem_take hk)
    have sorted := Plant.newlyDue_sorted hl hpast hc
    have distinct : ((p.chan c).playlist.map (·.id)).Nodup → (events.map (·.id)).Nodup := fun nodup => by
      rw [hl] at nodup
      exact ((List.sublist_append_right past events).map Event.id).nodup nodup
    have entry : ∀ e ∈ events, e.unmarked = true → e.cue ≠ .done → ∀ step rep st, (p.templateOf e)[step]? = some st → rep ≤ st.repeats →
        (step, rep) ∉ e.progress → due e st rep ≤ (p.chan c).now → due e st rep ≤ e.rend →
        e.entry (p.prerollInUse c) st step rep ∈ p.newlyDue c := fun e he unmarked on step rep st hst hrep hfresh now within => by
      rw [due_eq, Int.ofNat_le] at now within
      exact (Plant.mem_newlyDue hl hpast hc).mpr (Plant.mem_dueList.mpr ⟨e, he, unmarked, on, st, step, rep, hst, hrep, hfresh, now,
        within, rfl⟩)
    obtain ⟨marked, plain⟩ := foldl_markProgress_marked (p.fresh c) (p.chan c).playlist
    refine ⟨p.fresh c, queue, by omega, fun before nodup hbefore => ?_, sorted.sublist (List.take_sublist _ _), fun k hk => ?_,
      fun e he unmarked on step rep st hst hrep hfresh now within => ?_, fun nodup => ?_, fun k hk e he hid => ?_, ?_, ?_, ?_, rfl⟩
    · have ordered := Plant.newlyDue_ordered hl hpast hc (distinct nodup)
      have keyed : ∀ a b : StepEntry, ByKey StepEntry.due (InOrder (events.map (·.id))) a b → before a b.due b.event b.step b.rep :=
        fun a b h => by
          rw [hbefore, Int.ofNat_lt, Int.ofNat_inj]
          exact h
      refine ⟨(ordered.sublist (List.take_sublist _ _)).imp (keyed _ _), fun e he unmarked on step rep st hst hrep hfresh now within => ?_⟩
      rcases mem_take_or ordered (entry e he unmarked on step rep st hst hrep hfresh now within) (16 - (p.chan c).seq.queue.length) with
        h | ⟨-, h⟩
      · exact Or.inl ⟨_, h, rfl, rfl, rfl⟩
      · refine Or.inr fun k hk => ?_
        rw [due_eq]
        exact keyed k _ (h k hk)
    · obtain ⟨e, he, unmarked, on, st, n, r, hst, hr, hfresh, now, within, rfl⟩ := Plant.mem_dueList.mp (mem k hk)
      exact ⟨now, rfl, e, he, rfl, unmarked, on, hfresh, within, st, hst, hr, beq_iff_eq, rfl, rfl, (due_eq e st r).symm⟩
    · rcases mem_take_or sorted (entry e he unmarked on step rep st hst hrep hfresh now within) (16 - (p.chan c).seq.queue.length) with
        h | ⟨full, h⟩
      · exact Or.inl ⟨_, h, rfl, rfl, rfl⟩
      · have full : (p.fresh c).length = 16 - (p.chan c).seq.queue.length := full
        refine Or.inr ⟨by omega, fun k hk => ?_⟩
        rw [due_eq, Int.ofNat_le]
        exact h k hk
    · exact ((List.take_sublist _ _).map _).nodup (Plant.newlyDue_distinct hl hpast hc (distinct nodup))
    · rw [list] at he
      exact (marked e he).2 k hk hid
    · rw [list]
      exact plain
    · rw [Plant.enqueueDue_chan]
    · exact fun d hd => p.chan_modChan_other _ hd
  · rintro c p q x rfl rfl
    have issuing : (((p.renewIssuing c).enqueueDue c).chan c).seq.issuing = p.issues c := by
      rw [Plant.enqueueDue_chan, Plant.renewIssuing, Plant.chan_modChan_same]
    refine ⟨issuing ▸ p.issues_iff c, fun on => ?_, fun off => ?_⟩
    · rw [issuing] at on
      exact if_pos on
    · rw [issuing] at off
      exact if_neg (by rw [off]; exact Bool.false_ne_true)
  · rintro c p m x rfl
    refine ⟨Plant.takeHeads_empty, fun k rest h => ⟨Plant.takeHeads_stays h, ?_⟩⟩
    rintro issuing due free rfl
    have takes := Plant.takeHeads_takes h issuing due free
    rw [← Plant.popped_eq]
    have port : ∀ i, (p.popped c k rest).port i = p.port i := fun i => by
      rw [Plant.popped_eq]
      rfl
    refine ⟨fun no => takes.trans (if_pos no), fun yes => ⟨fun i hi up => ?_, fun none => ?_⟩⟩
    · rw [takes, if_neg (by rw [yes]; exact nofun), hi]
      refine (if_pos up).trans ?_
      rw [Plant.modPort, port]
    · rw [takes, if_neg (by rw [yes]; exact nofun)]
      rcases none with none | ⟨i, hi, down⟩
      · rw [none]
      · rw [hi]
        exact if_neg down
  · rintro c p i y k x at' rfl rfl up out held claim shift slot hat
    obtain rfl : at' = fun t => dayLabelBytes (p.dayLabel c t) := funext hat
    rw [Plant.arbitrate_slot up out held claim slot, Port.grant, Port.handFrame]
    simp only [shift]
    split
    · rfl
    · rw [List.append_nil]
      rfl

end Sys2Proof.Machine
end

