-- ==== Sys2Proof/Proofs/Edits.lean ====
section
/-! PROOFS. The store's operations on a channel: what they leave beside the playlist, when they uncover a due head of the step queue,
and EDIT EVENT (R23 to R31, R123, R129). -/

namespace Sys2Proof.Machine

/-! ## What operations leave of the plant -/

/-- From one plant to another a channel's playlist has become a list under operations of the store: of the channel nothing but the
playlist, the sequencing and, for an emptying, the watch changed; the queue and the slots only lose entries. -/
structure Plant.Ran (p q : Plant) (c : Chan) (os : List PlOp) (l : List Event) : Prop where
  own : { q.chan c with seq := (p.chan c).seq, watch := (p.chan c).watch } = { p.chan c with playlist := l }
  watch : .empty ∉ os → (q.chan c).watch = (p.chan c).watch
  issuing : (q.chan c).seq.issuing = (p.chan c).seq.issuing
  queue : (q.chan c).seq.queue.Sublist (p.chan c).seq.queue
  slots : ∀ i, (q.port i).slotCue = (p.port i).slotCue ∨ (q.port i).slotCue = none
  unhit : (∀ o ∈ os, ∀ k, k ∈ (p.chan c).seq.queue ∨ (∃ i, (p.port i).slotCue = some (c, k)) → ¬o.Hits k) →
    ((q.chan c).seq.queue = (p.chan c).seq.queue ∧ ∀ i, (q.port i).slotCue = (p.port i).slotCue) ∨ (q.chan c).seq.queue = []
  hold : q.hold = p.hold
  spares : q.spareQueue = p.spareQueue
  outbox : q.outbox = p.outbox
  others : p.OtherChans q c
  rest : q.rest = p.rest

namespace Plant.Ran

variable {p q r : Plant} {c : Chan} {os os' : List PlOp} {l l' : List Event}

theorem playlist (h : p.Ran q c os l) : (q.chan c).playlist = l := (congrArg Channel.playlist h.own :)

theorem refl (p : Plant) (c : Chan) : p.Ran p c [] (p.chan c).playlist where
  own := rfl
  watch _ := rfl
  issuing := rfl
  queue := .refl _
  slots _ := Or.inl rfl
  unhit _ := Or.inl ⟨rfl, fun _ => rfl⟩
  hold := rfl
  spares := rfl
  outbox := rfl
  others _ _ := rfl
  rest := rfl

theorem slot_mem (h : p.Ran q c os l) {k : StepEntry} (hk : k ∈ (q.chan c).seq.queue ∨ ∃ i, (q.port i).slotCue = some (c, k)) :
    k ∈ (p.chan c).seq.queue ∨ ∃ i, (p.port i).slotCue = some (c, k) := by
  refine hk.imp (fun hk => h.queue.subset hk) fun ⟨i, hi⟩ => ⟨i, ?_⟩
  rcases h.slots i with same | none
  · rwa [← same]
  · rw [none] at hi
    cases hi

theorem trans (h : p.Ran q c os l) (h' : q.Ran r c os' l') : p.Ran r c (os ++ os') l' where
  own := by
    have own' := congrArg (fun x : Channel => { x with seq := (p.chan c).seq, watch := (p.chan c).watch }) h'.own
    exact own'.trans (congrArg (fun x : Channel => { x with playlist := l' }) h.own)
  watch h'' := by
    rw [List.mem_append, not_or] at h''
    exact (h'.watch h''.2).trans (h.watch h''.1)
  issuing := h'.issuing.trans h.issuing
  queue := h'.queue.trans h.queue
  slots i := by
    rcases h'.slots i with same | none
    · rw [same]
      exact h.slots i
    · exact Or.inr none
  unhit free := by
    have first := h.unhit fun o ho => free o (List.mem_append_left _ ho)
    have next := h'.unhit fun o ho k hk => free o (List.mem_append_right _ ho) k (h.slot_mem hk)
    rcases next with ⟨same, slots⟩ | none
    · rcases first with ⟨same', slots'⟩ | none
      · exact Or.inl ⟨same.trans same', fun i => (slots i).trans (slots' i)⟩
      · exact Or.inr (same.trans none)
    · exact Or.inr none
  hold := h'.hold.trans h.hold
  spares := h'.spares.trans h.spares
  outbox := h'.outbox.trans h.outbox
  others d hd := (h'.others d hd).trans (h.others d hd)
  rest := h'.rest.trans h.rest

theorem refs (h : p.Ran q c os l) (n : RefId) : q.ref n = p.ref n := Plant.ref_of_rest h.rest n

theorem now (h : p.Ran q c os l) : (q.chan c).now = (p.chan c).now := (congrArg Channel.now h.own :)

theorem config (h : p.Ran q c os l) : q.config c = p.config c := (congrArg Channel.config h.own :)

theorem baseDay (h : p.Ran q c os l) : (q.chan c).baseDay = (p.chan c).baseDay := (congrArg Channel.baseDay h.own :)

theorem family (h : p.Ran q c os l) : q.family c = p.family c := Plant.family_of_config h.config h.refs

theorem lead (h : p.Ran q c os l) : q.lead c = p.lead c := Plant.lead_of_config h.config

theorem env (h : p.Ran q c os l) : q.plEnv c = p.plEnv c := by
  rw [Plant.plEnv, Plant.plEnv, h.family, h.baseDay, h.now, h.lead]

theorem noneDue (h : p.Ran q c os l) (none : p.NoneDue c) : q.NoneDue c :=
  none.imp (fun off => h.issuing.trans off) fun later k hk => by
    rw [h.now]
    exact later k (h.queue.subset hk)

/-- Of the channel, operations that empty no playlist leave all but the playlist and the sequencing. -/
theorem leaves (h : p.Ran q c os l) (plain : .empty ∉ os) :
    { q.chan c with playlist := [], seq := .reset } = { p.chan c with playlist := [], seq := .reset } :=
  calc ({ q.chan c with playlist := [], seq := .reset } : Channel)
    _ = { q.chan c with playlist := [], seq := .reset, watch := (p.chan c).watch } := by rw [← h.watch plain]
    _ = _ := congrArg (fun x : Channel => { x with playlist := [], seq := .reset }) h.own

/-- R123: operations that uncover nothing leave nothing uncovered. -/
theorem undisturbed (h : p.Ran q c os l) (free : p.Undisturbed c os') : q.Undisturbed c os' :=
  free.imp h.noneDue fun unhit o ho k hk => unhit o ho k (h.slot_mem hk)

/-- R123: where the operations uncover no due head, the Cue Sequencer has nothing to consider. -/
theorem quiet (h : p.Ran q c os l) (free : p.Undisturbed c os) : p.wakeAfter q c = q := by
  refine Plant.wakeAfter_quiet p q c ?_
  rcases free with none | unhit
  · exact Or.inl (Plant.headDue_of_noneDue (h.noneDue none))
  · rcases h.unhit unhit with ⟨queue, slots⟩ | empty
    · refine Or.inr ?_
      rw [Plant.uncovers, queue, Bool.or_eq_false_iff, List.any_eq_false]
      refine ⟨fun i _ => ?_, bne_self_eq_false _⟩
      rw [slots]
      cases (p.port i).slotCue <;> exact Bool.false_ne_true
    · refine Or.inl ?_
      rw [Channel.headDue, empty]
      exact Bool.and_false _

/-- A later change of the playlist alone. -/
theorem relist (h : p.Ran q c os l) (hc : r.chan c = { q.chan c with playlist := l' }) (others : q.OtherChans r c)
    (ports : r.ports = q.ports)
    (hold : r.hold = q.hold) (spares : r.spareQueue = q.spareQueue) (outbox : r.outbox = q.outbox) (rest : r.rest = q.rest) :
    p.Ran r c os l' where
  own := by
    rw [hc]
    exact congrArg (fun x : Channel => { x with playlist := l' }) h.own
  watch free := by rw [hc]; exact h.watch free
  issuing := by rw [hc]; exact h.issuing
  queue := by rw [hc]; exact h.queue
  slots i := by rw [Plant.port, ports]; exact h.slots i
  unhit free := by
    have port : ∀ i, r.port i = q.port i := fun i => by rw [Plant.port, ports, Plant.port]
    rw [hc]
    simp only [port]
    exact h.unhit free
  hold := hold.trans h.hold
  spares := spares.trans h.spares
  outbox := outbox.trans h.outbox
  others d hd := (others d hd).trans (h.others d hd)
  rest := rest.trans h.rest

/-- R32: the playlist resolved. -/
theorem resolve (h : p.Ran q c os l) :
    p.Ran (q.resolve c) c os (resolveList (4 * (p.family c).fpd) ((p.chan c).now + p.lead c) l) := by
  refine h.relist ?_ (fun d hd => q.resolve_other hd) rfl rfl rfl rfl (q.resolve_rest c)
  rw [Plant.resolve_chan, h.family, h.lead, h.now, h.playlist]

end Plant.Ran

/-! ## One operation -/

section
variable {p : Plant} {c : Chan}

/-- R120: a change of the sequencing and the watch alone. -/
theorem Plant.ran_modChan (p : Plant) (c : Chan) (f : Channel → Channel) {os : List PlOp}
    (own : { f (p.chan c) with seq := (p.chan c).seq, watch := (p.chan c).watch } = p.chan c)
    (watch : .empty ∉ os → (f (p.chan c)).watch = (p.chan c).watch) (issuing : (f (p.chan c)).seq.issuing = (p.chan c).seq.issuing)
    (queue : (f (p.chan c)).seq.queue.Sublist (p.chan c).seq.queue)
    (unhit : (∀ o ∈ os, ∀ k, k ∈ (p.chan c).seq.queue ∨ (∃ i, (p.port i).slotCue = some (c, k)) → ¬o.Hits k) →
      (f (p.chan c)).seq.queue = (p.chan c).seq.queue ∨ (f (p.chan c)).seq.queue = []) :
    p.Ran (p.modChan c f) c os (p.chan c).playlist where
  own := by rw [Plant.chan_modChan_same]; exact own
  watch free := by rw [Plant.chan_modChan_same]; exact watch free
  issuing := by rw [Plant.chan_modChan_same]; exact issuing
  queue := by rw [Plant.chan_modChan_same]; exact queue
  slots _ := Or.inl rfl
  unhit free := by
    rw [Plant.chan_modChan_same]
    exact (unhit free).imp (fun h => ⟨h, fun _ => rfl⟩) id
  hold := rfl
  spares := rfl
  outbox := rfl
  others d hd := p.chan_modChan_other f hd
  rest := rfl

theorem Plant.ran_self (p : Plant) (c : Chan) (os : List PlOp) : p.Ran p c os (p.chan c).playlist where
  own := rfl
  watch _ := rfl
  issuing := rfl
  queue := .refl _
  slots _ := Or.inl rfl
  unhit _ := Or.inl ⟨rfl, fun _ => rfl⟩
  hold := rfl
  spares := rfl
  outbox := rfl
  others _ _ := rfl
  rest := rfl

theorem Port.withdrawSlot_slot (x : Port) (c : Chan) (which : StepEntry → Bool) :
    (x.withdrawSlot c which).slotCue = x.slotCue ∨ (x.withdrawSlot c which).slotCue = none := by
  unfold Port.withdrawSlot
  split
  · split
    · exact Or.inr rfl
    · exact Or.inl rfl
  · exact Or.inl rfl

theorem Port.withdrawSlot_unpicked {x : Port} {c : Chan} {which : StepEntry → Bool} (h : ∀ k, x.slotCue = some (c, k) → which k = false) :
    (x.withdrawSlot c which).slotCue = x.slotCue := by
  unfold Port.withdrawSlot
  split
  · next d k hk =>
    split
    · next mine =>
      obtain ⟨rfl, picked⟩ : d = c ∧ which k = true := by simpa using mine
      rw [h k hk] at picked
      cases picked
    · rfl
  · rfl

theorem PlOp.hits_of {o : PlOp} {k : StepEntry} {n : Nat} (ho : o = .delete n ∨ ∃ d, o = .replace d ∧ d.id = n) (h : k.isOf n = true) :
    o.Hits k := by
  obtain ⟨rfl, live⟩ : k.event = n ∧ k.standing = .live := by simpa [StepEntry.isOf] using h
  exact ⟨live, ho⟩

theorem Channel.dropEntries_unhit {x : Channel} {n : Nat} (h : ∀ k ∈ x.seq.queue, k.isOf n = false) :
    (x.dropEntries n).seq.queue = x.seq.queue :=
  List.filter_eq_self.mpr fun k hk => by rw [h k hk]; rfl

/-- R129, R131: what an operation withdraws from the slots. -/
theorem Plant.Ran.withdrawCue {q : Plant} {os : List PlOp} {l : List Event} (h : p.Ran q c os l) (which : StepEntry → Bool)
    (picks : (∀ o ∈ os, ∀ k, k ∈ (p.chan c).seq.queue ∨ (∃ i, (p.port i).slotCue = some (c, k)) → ¬o.Hits k) →
      (∀ i k, (q.port i).slotCue = some (c, k) → which k = false) ∨ (q.chan c).seq.queue = []) :
    p.Ran (q.withdrawCue c which) c os l := by
  have slot : ∀ i, ((q.withdrawCue c which).port i).slotCue = ((q.port i).withdrawSlot c which).slotCue := fun i => by
    rw [Plant.withdrawCue, Plant.mapPorts, Plant.port_mapPorts, Port.markOutstanding_slotCue]
  refine ⟨h.own, h.watch, h.issuing, h.queue, fun i => ?_, fun free => ?_, h.hold, h.spares, h.outbox, h.others, h.rest⟩
  · rw [slot]
    rcases (q.port i).withdrawSlot_slot c which with same | none
    · rw [same]
      exact h.slots i
    · exact Or.inr none
  · rcases picks free with unpicked | empty
    · refine (h.unhit free).imp (fun ⟨queue, slots⟩ => ⟨queue, fun i => ?_⟩) id
      rw [slot, Port.withdrawSlot_unpicked (unpicked i)]
      exact slots i
    · exact Or.inr empty

/-- R129: what an operation means for the sequencing. -/
theorem Plant.cueEffect_ran (p : Plant) (c : Chan) (old : List Event) (o : PlOp) :
    p.Ran (p.cueEffect c old o) c [o] (p.chan c).playlist := by
  cases o with
  | insert pred d =>
    have recurs := p.ran_modChan c Channel.recursor (os := [.insert pred d]) rfl (fun _ => rfl) rfl (.refl _) fun _ => Or.inl rfl
    simp only [Plant.cueEffect]
    split
    · split
      · exact p.ran_self c _
      · exact recurs
    · exact p.ran_self c _
  | replace d =>
    have drops := p.ran_modChan c (fun x => x.dropEntries d.id) (os := [.replace d]) rfl (fun _ => rfl) rfl List.filter_sublist fun free =>
      Or.inl (Channel.dropEntries_unhit fun k hk => Bool.eq_false_iff.mpr fun h =>
        free _ List.mem_cons_self k (Or.inl hk) (PlOp.hits_of (Or.inr ⟨d, rfl, rfl⟩) h))
    simp only [Plant.cueEffect]
    split
    · split
      · exact drops
      · exact p.ran_self c _
    · exact p.ran_self c _
  | delete n =>
    have unhit : (∀ o ∈ [PlOp.delete n], ∀ k, k ∈ (p.chan c).seq.queue ∨ (∃ i, (p.port i).slotCue = some (c, k)) → ¬o.Hits k) → ∀ k,
        k ∈ (p.chan c).seq.queue ∨ (∃ i, (p.port i).slotCue = some (c, k)) → k.isOf n = false := fun free k hk =>
      Bool.eq_false_iff.mpr fun h => free _ List.mem_cons_self k hk (PlOp.hits_of (Or.inl rfl) h)
    have drops := p.ran_modChan c (fun x => (x.dropEntries n).recursor) (os := [.delete n]) rfl (fun _ => rfl) rfl List.filter_sublist
      fun free => Or.inl (Channel.dropEntries_unhit fun k hk => unhit free k (Or.inl hk))
    have removed := drops.withdrawCue (StepEntry.isOf n) fun free => Or.inl fun i k hk => unhit free k (Or.inr ⟨i, hk⟩)
    simp only [Plant.cueEffect]
    split
    · exact p.ran_self c _
    · exact removed
  | empty =>
    have empties := p.ran_modChan c (fun x =>
      { x with seq := { x.seq with queue := [], cursor := none }, watch := { x.watch with lastEnded := none } }) (os := [.empty]) rfl
      (fun h => absurd List.mem_cons_self h) rfl (List.nil_sublist _) fun _ => Or.inr rfl
    refine empties.withdrawCue _ fun _ => Or.inr ?_
    rw [Plant.chan_modChan_same]

/-- R23 to R28: one operation carried out, without the resolution that follows it. -/
theorem Plant.plRun_ok {p : Plant} {o : PlOp} {r : PlDone} (h : plApply (p.plEnv c) (p.chan c).playlist p.freeRecords o = .ok r) :
    ∃ q, p.plRun c o = .ok (q, r) ∧ p.Ran q c [o] r.list := by
  have runs : p.plRun c o = .ok ((p.modChan c fun x => { x with playlist := r.list }).cueEffect c (p.chan c).playlist o, r) := by
    simp only [Plant.plRun, h]
  refine ⟨_, runs, ?_⟩
  have listed := (Plant.Ran.refl p c).relist (r := p.modChan c fun x => { x with playlist := r.list }) (l' := r.list)
    (p.chan_modChan_same c _) (fun d hd => p.chan_modChan_other _ hd) rfl rfl rfl rfl rfl
  have effect := (p.modChan c fun x => { x with playlist := r.list }).cueEffect_ran c (p.chan c).playlist o
  rw [Plant.chan_modChan_same] at effect
  exact listed.trans effect

theorem Plant.plRun_error {p : Plant} {o : PlOp} {st : Status} (h : plApply (p.plEnv c) (p.chan c).playlist p.freeRecords o = .error st) :
    p.plRun c o = .error st := by
  simp only [Plant.plRun, h]

/-- R30: an edit refused, and one carried out. -/
theorem Plant.edit_error {p : Plant} {o : PlOp} {st : Status} (h : plApply (p.plEnv c) (p.chan c).playlist p.freeRecords o = .error st) :
    p.edit c o = .error st := by
  simp only [Plant.edit, Plant.plOne, Plant.plRun_error h]

theorem Plant.edit_ok {p : Plant} {o : PlOp} {r : PlDone} (h : plApply (p.plEnv c) (p.chan c).playlist p.freeRecords o = .ok r) :
    ∃ q, p.edit c o = .ok (p.wakeAfter q c, r) ∧
      p.Ran q c [o] (resolveList (4 * (p.family c).fpd) ((p.chan c).now + p.lead c) r.list) := by
  obtain ⟨q, runs, ran⟩ := Plant.plRun_ok h
  exact ⟨q.resolve c, by simp only [Plant.edit, Plant.plOne, runs], ran.resolve⟩

/-! ## What the Cue Sequencer changes then -/

theorem Plant.wakeAfter_tells (p q : Plant) (c : Chan) : q.Tells (p.wakeAfter q c) := by
  unfold Plant.wakeAfter
  split
  · exact Plant.wakeCue_tells (.refl q) c
  · exact .refl q

theorem Plant.Tells.outbox_le {p q : Plant} (h : p.Tells q) : p.outbox <+: q.outbox := by
  obtain ⟨l, hl⟩ := h
  exact ⟨_, hl.symm⟩

/-- R123: operations carried out, and the Cue Sequencer's part of the channel left aside. -/
theorem Plant.Ran.woken {q : Plant} {os : List PlOp} {l : List Event} (h : p.Ran q c os l) {r : Plant} (hr : r = p.wakeAfter q c) :
    (r.chan c).playlist.map Event.plan = l.map Event.plan ∧ (r.chan c).replica = (p.chan c).replica ∧ r.hold = p.hold ∧
    r.spareQueue = p.spareQueue ∧ p.outbox <+: r.outbox ∧ p.Still r ∧ (∀ t, r.dayLabel c t = p.dayLabel c t) ∧
    (p.Undisturbed c os → r = q) := by
  subst hr
  have plan : ((p.wakeAfter q c).chan c).plan = (q.chan c).plan := congrFun (Plant.wakeAfter_plans p q c) c
  refine ⟨?_, ?_, ?_, ?_, ?_, ?_, fun t => ?_, h.quiet⟩
  · rw [← h.playlist]
    exact (congrArg Channel.playlist plan :)
  · exact (congrArg Channel.replica plan :).trans (congrArg Channel.replica h.own :)
  · exact (Plant.hold_of_store (Plant.wakeAfter_store p q c)).trans h.hold
  · exact (Plant.wakeAfter_spareQueue p q c).trans h.spares
  · exact h.outbox ▸ (Plant.wakeAfter_tells p q c).outbox_le
  · exact Plant.still_of_rest ((Plant.wakeAfter_rest p q c).trans h.rest)
  · have config : (p.wakeAfter q c).config c = p.config c := (congrArg Channel.config plan :).trans h.config
    have baseDay : ((p.wakeAfter q c).chan c).baseDay = (p.chan c).baseDay := (congrArg Channel.baseDay plan :).trans h.baseDay
    rw [Plant.dayLabel, Plant.dayLabel, baseDay,
      Plant.family_of_config config fun n => Plant.ref_of_rest ((Plant.wakeAfter_rest p q c).trans h.rest) n]

end

/-! ## EDIT EVENT -/

section
variable {p : Plant} {c : Chan} {o : PlOp} {report : Plant → Chan → PlDone → Answer}

theorem editEvent_unknown {n : Nat} (h : 15 < n) : editEvent n o report p = p.refuse .noSuchChannel := by
  simp only [editEvent, chanOf_none h]

theorem editEvent_idle (h : (p.chan c).mode = .idle) : editEvent c.val o report p = p.refuse .notConfigured := by
  simp only [editEvent, chanOf_val, h]

theorem editEvent_owned (h : (p.chan c).mode = .shadow ∨ (p.chan c).mode = .confirming ∨ (p.chan c).mode = .taking) :
    editEvent c.val o report p = p.refuse .replicaOwns := by
  rcases h with h | h | h <;> simp only [editEvent, chanOf_val, h]

section
variable (h : (p.chan c).mode = .onLocal ∨ (p.chan c).mode = .returning ∨ (p.chan c).mode = .orphaned)
include h

theorem editEvent_error {st : Status} (e : p.edit c o = .error st) : editEvent c.val o report p = p.refuse st := by
  rcases h with h | h | h <;> simp only [editEvent, chanOf_val, h, e]

theorem editEvent_ok {q : Plant} {r : PlDone} (e : p.edit c o = .ok (q, r)) : editEvent c.val o report p = (q, report q c r) := by
  rcases h with h | h | h <;> simp only [editEvent, chanOf_val, h, e]

end

end

/-- R31: how an edit is reported. -/
def PlOp.report : PlOp → Plant → Chan → PlDone → Answer
  | .insert _ d | .replace d => reportEvent d.id
  | .delete n => reportDelete n
  | .empty => fun _ _ r => reply (editStatus r.late r.moved) []

/-- R30: the three forms of EDIT EVENT. -/
theorem editEvent_request {tag n : Nat} {cmd : Instr} {o : PlOp} {s : State} (had : s.Admits tag)
    (h : (∃ pred d, cmd = .editEventInsert tag (.sound ⟨n, pred, d⟩) ∧ o = .insert pred d) ∨
      (∃ d, cmd = .editEventReplace tag (.sound ⟨n, d⟩) ∧ o = .replace d) ∨
      (∃ id, cmd = .editEventDelete tag (.sound ⟨n, id⟩) ∧ o = .delete id)) {q : Plant} {st : Status} {body : List Byte}
    (e : editEvent n o o.report s.plant = (q, reply st body)) : exec cmd s = .next (s.answered tag 0x04 q st body) := by
  obtain ⟨pred, d, rfl, rfl⟩ | ⟨d, rfl, rfl⟩ | ⟨m, rfl, rfl⟩ := h
  · exact State.request_answers (h := editInsert) _ _ had e
  · exact State.request_answers (h := editReplace) _ _ had e
  · exact State.request_answers (h := editDelete) _ _ had e

theorem PlOp.report_reply (o : PlOp) (q : Plant) (c : Chan) (r : PlDone) : ∃ st body, o.report q c r = reply st body := by
  have event : ∀ n, ∃ st body, reportEvent n q c r = reply st body := fun n => by
    unfold reportEvent
    split <;> exact ⟨_, _, rfl⟩
  cases o with
  | insert pred d => exact event d.id
  | replace d => exact event d.id
  | delete n => exact ⟨_, _, rfl⟩
  | empty => exact ⟨_, _, rfl⟩

theorem editStatus_eq (late moved : Bool) : editStatus late moved = if late = true then .late else if moved = true then
    .adjusted else .ok := rfl

/-- R26: a deletion moves no label. -/
theorem plApply_delete_unmoved {e : PlEnv} {l : List Event} {free m : Nat} {r : PlDone}
    (h : plApply e l free (.delete m) = .ok r) : r.moved = false := by
  simp only [plApply, plDelete] at h
  split at h
  · cases h
  · split at h
    all_goals
      injection h with h
      exact congrArg PlDone.moved h.symm

/-- Settles O32: an operation carried out is `Plant.Ran` from the plant before, and the reply is read off the plant after. -/
theorem editEventCarriesOut : Obligations.EditEventCarriesOut := by
  unfold Obligations.EditEventCarriesOut
  intro tag n cmd o s had form
  refine ⟨fun h => editEvent_request had form (editEvent_unknown h), ?_⟩
  rintro c x rfl rfl
  refine ⟨fun h => editEvent_request had form (editEvent_idle h), fun h => editEvent_request had form (editEvent_owned h),
    fun h => ⟨fun st e => editEvent_request had form (editEvent_error h (Plant.edit_error e)), ?_⟩⟩
  rintro done list e rfl
  obtain ⟨u, edits, ran⟩ := Plant.edit_ok e
  obtain ⟨q, hq⟩ : ∃ q, q = s.plant.wakeAfter u c := ⟨_, rfl⟩
  obtain ⟨plan, -, hold, spares, out, still, days, quiet⟩ := ran.woken hq
  rw [← hq] at edits
  have answers : ∀ st body, o.report q c done = reply st body → exec cmd s = .next (s.answered tag 0x04 q st body) :=
    fun st body hr => editEvent_request had form (by rw [editEvent_ok h edits, hr])
  obtain ⟨st, body, hr⟩ := o.report_reply q c done
  have replied : ∀ st' body', o.report q c done = reply st' body' → st = st' ∧ body = body' := fun st' body' h' => by
    have same := hr.symm.trans h'
    exact ⟨congrArg Answer.status same, congrArg Answer.content same⟩
  refine ⟨q, st, body, answers st body hr, plan, hold, spares, out, still, fun free => ?_, fun at' hat => ⟨?_, ?_⟩⟩
  · obtain rfl := quiet free
    have plain : .empty ∉ [o] := by
      rw [List.mem_singleton]
      obtain ⟨_, _, -, rfl⟩ | ⟨_, -, rfl⟩ | ⟨_, -, rfl⟩ := form <;> exact nofun
    exact ⟨ran.playlist, ran.leaves plain, ran.outbox, ran.others⟩
  · intro d pred e' ho found
    obtain rfl : at' = q.ctfBytes c := funext fun t => (hat t).trans (congrArg dayLabelBytes (days t).symm)
    have reports : o.report q c done = reportEvent d.id q c done := by rcases ho with rfl | rfl <;> rfl
    rw [reportEvent, found] at reports
    obtain ⟨rfl, rfl⟩ := replied _ _ reports
    refine ⟨?_, rfl⟩
    simp only [editStatus_eq, Bool.or_eq_true]
  · rintro m rfl
    obtain rfl : at' = q.ctfBytes c := funext fun t => (hat t).trans (congrArg dayLabelBytes (days t).symm)
    obtain ⟨rfl, rfl⟩ := replied _ _ rfl
    refine ⟨?_, rfl⟩
    have unmoved : done.moved = false := plApply_delete_unmoved e
    rw [editStatus_eq, unmoved]
    rfl

end Sys2Proof.Machine
end

