-- ==== Sys2Proof/Proofs/OperationLists.lean ====
section
/-! PROOFS. Operation lists carried out on a channel's playlist (R29), alone and with the resolution that follows them: the list and the
free records they leave are those of `plAfter`, and the place of a refusal is the one `plAfter` stops at. -/

namespace Sys2Proof.Machine

/-! ## The pool's free records (R19) -/

theorem length_filter_id_ne {l : List Event} {e : Event} {n : Nat} (nodup : (idsOf l).Nodup) (found : findEvent l n = some e) :
    (l.filter fun e => e.id != n).length + 1 = l.length := by
  have mem : n ∈ idsOf l := List.mem_map.mpr ⟨e, List.mem_of_find?_eq_some found, by simpa using List.find?_some found⟩
  have ids : (idsOf l).filter (fun m => m != n) = idsOf (l.filter fun e => e.id != n) := by
    rw [idsOf, List.filter_map]
    rfl
  calc (l.filter fun e => e.id != n).length + 1
    _ = ((idsOf l).filter fun m => m != n).length + 1 := by rw [ids, length_idsOf]
    _ = ((idsOf l).erase n).length + 1 := by rw [nodup.erase_eq_filter]
    _ = (idsOf l).length := by
      rw [List.length_erase_of_mem mem]
      have := List.length_pos_of_mem mem
      omega
    _ = l.length := length_idsOf l

/-- R19, R24: an operation takes a record of the pool for each event it adds, and gives one back for each event it removes. -/
theorem plApply_records {v : PlEnv} {l : List Event} {free : Nat} {o : PlOp} {r : PlDone} (nodup : (idsOf l).Nodup)
    (h : plApply v l free o = .ok r) : r.free + r.list.length = free + l.length := by
  cases o with
  | insert pred d =>
    obtain ⟨-, room, -, a, b, hl, hr⟩ := plInsert_room h
    have grown : r.list.length = l.length + 1 := by
      rw [← length_idsOf, ← length_idsOf, hr, hl]
      simp
      omega
    have taken : r.free = free - 1 := by
      simp only [plApply, plInsert] at h
      repeat' split at h
      all_goals cases h
      all_goals rfl
    omega
  | replace d =>
    have same : r.list.length = l.length := by rw [← length_idsOf, plReplace_ids h, length_idsOf]
    have kept : r.free = free := by
      simp only [plApply, plReplace] at h
      repeat' split at h
      all_goals cases h
      all_goals rfl
    omega
  | delete n =>
    simp only [plApply, plDelete] at h
    split at h
    · cases h
    · next old found =>
      split at h
      all_goals cases h
      · simp [modEvent]
      · have := length_filter_id_ne nodup found
        simp only
        omega
  | empty =>
    cases h
    simp

/-- The records in use, where one channel's playlist alone has changed. -/
theorem sum_length_others {p q : Plant} {c : Chan} (others : p.OtherChans q c) :
    (allChans.map fun d => (q.chan d).playlist.length).sum + (p.chan c).playlist.length =
      (allChans.map fun d => (p.chan d).playlist.length).sum + (q.chan c).playlist.length := by
  have rest : ∑ d ∈ Finset.univ.erase c, (q.chan d).playlist.length = ∑ d ∈ Finset.univ.erase c, (p.chan d).playlist.length :=
    Finset.sum_congr rfl fun d hd => by rw [others d (Finset.ne_of_mem_erase hd)]
  rw [allChans, ← Fin.sum_univ_def, ← Fin.sum_univ_def, ← Finset.add_sum_erase _ _ (Finset.mem_univ c),
    ← Finset.add_sum_erase _ _ (Finset.mem_univ c), rest]
  omega

/-- R19: the pool's free records after an operation are those that the store counts. -/
theorem Plant.Ran.freeRecords {p q : Plant} {c : Chan} {os : List PlOp} {l : List Event} {free : Nat} (h : p.Ran q c os l)
    (sound : p.PoolSound) (count : free + l.length = p.freeRecords + (p.chan c).playlist.length) : q.freeRecords = free := by
  have sums := sum_length_others h.others
  have total := sound.all
  rw [h.playlist] at sums
  rw [Plant.freeRecords] at count ⊢
  omega

theorem Plant.freeRecords_of_store {p q : Plant} (h : q.store = p.store) : q.freeRecords = p.freeRecords := by
  have each : ∀ d, (q.chan d).playlist.length = (p.chan d).playlist.length := fun d => by
    rw [← length_idsOf, Plant.ids_of_store h, length_idsOf]
  simp only [Plant.freeRecords, each]

/-! ## Operations one after another (R29) -/

section
variable {p : Plant} {c : Chan}

theorem Plant.plRunAll_ok {os : List PlOp} {l : List Event} {free : Nat} (sound : p.PoolSound)
    (h : plAfter (p.plEnv c) (p.chan c).playlist p.freeRecords os = some (l, free)) :
    p.Ran (p.plRunAll c os) c os l ∧ (p.plRunAll c os).freeRecords = free := by
  induction os generalizing p with
  | nil =>
    cases h
    exact ⟨.refl p c, rfl⟩
  | cons o os ih =>
    rw [plAfter] at h
    split at h
    · next r hr =>
      obtain ⟨q, runs, ran⟩ := Plant.plRun_ok hr
      have count := ran.freeRecords sound (plApply_records (sound.ids c) hr)
      have next : p.plRunAll c (o :: os) = q.plRunAll c os := by rw [Plant.plRunAll, runs]
      rw [← ran.env, ← ran.playlist, ← count] at h
      obtain ⟨ran', count'⟩ := ih ((Plant.plRun_bounded runs).pool sound) h
      rw [next]
      exact ⟨ran.trans ran', count'⟩
    · cases h

theorem plCheck_ok {v : PlEnv} {l l' : List Event} {free free' : Nat} {os : List PlOp} (h : plAfter v l free os = some (l', free'))
    (n : Nat) : plCheck v n l free os = .ok () := by
  induction os generalizing l free n with
  | nil => rfl
  | cons o os ih =>
    rw [plAfter] at h
    split at h
    · next r hr =>
      rw [plCheck, hr]
      exact ih h (n + 1)
    · cases h

theorem plCheck_error {v : PlEnv} {l l' : List Event} {free free' : Nat} {os : List PlOp} {o : PlOp} {os' : List PlOp} {st : Status}
    (h : plAfter v l free os = some (l', free')) (e : plApply v l' free' o = .error st) (n : Nat) :
    plCheck v n l free (os ++ o :: os') = .error (n + os.length, st) := by
  induction os generalizing l free n with
  | nil =>
    cases h
    rw [List.nil_append, plCheck, e]
    rfl
  | cons o' os ih =>
    rw [plAfter] at h
    split at h
    · next r hr =>
      rw [List.cons_append, plCheck, hr]
      refine (ih h (n + 1)).trans ?_
      rw [List.length_cons, Nat.add_right_comm, Nat.add_assoc]
    · cases h

/-- R29: an operation list carried out, and what the Cue Sequencer does then. -/
theorem Plant.editList_ok {os : List PlOp} {l : List Event} {free : Nat} (sound : p.PoolSound)
    (h : plAfter (p.plEnv c) (p.chan c).playlist p.freeRecords os = some (l, free)) :
    ∃ q, p.editList c os = .ok (p.wakeAfter q c) ∧
      p.Ran q c os (resolveList (4 * (p.family c).fpd) ((p.chan c).now + p.lead c) l) ∧ q.freeRecords = free := by
  obtain ⟨ran, count⟩ := Plant.plRunAll_ok sound h
  refine ⟨(p.plRunAll c os).resolve c, ?_, ran.resolve, ?_⟩
  · rw [Plant.editList, Plant.plList, plCheck_ok h]
  · rw [← count]
    exact Plant.freeRecords_of_store (Plant.resolve_store _ c)

/-- R29: an operation list refused changes nothing, and tells the place. -/
theorem Plant.editList_error {os os' : List PlOp} {o : PlOp} {l : List Event} {free : Nat} {st : Status}
    (h : plAfter (p.plEnv c) (p.chan c).playlist p.freeRecords os = some (l, free)) (e : plApply (p.plEnv c) l free o = .error st) :
    p.editList c (os ++ o :: os') = .error (os.length, st) := by
  rw [Plant.editList, Plant.plList, plCheck_error h e, Nat.zero_add]

end

end Sys2Proof.Machine
end

