-- ==== Sys2Proof/Proofs/Records.lean ====
section
/-! PROOFS. Records in order: what is applied, deferred or staged (R59, R61, R64), batches (R60, R62), and the early entries that
follow (R50). -/

namespace Sys2Proof.Machine

/-! ## A replica and the hold written anew -/

/-- Nothing has changed but a channel's replica, the hold and what is handed out. -/
structure Plant.Tracked (p u : Plant) (c : Chan) (y : Replica) : Prop where
  chan : u.chan c = { p.chan c with replica := y }
  others : p.OtherChans u c
  ports : u.ports = p.ports
  spares : u.spareQueue = p.spareQueue
  rest : u.rest = p.rest

namespace Plant.Tracked

variable {p u v : Plant} {c : Chan} {y z : Replica}

theorem replica (h : p.Tracked u c y) : (u.chan c).replica = y := (congrArg Channel.replica h.chan :)

theorem playlist (h : p.Tracked u c y) : (u.chan c).playlist = (p.chan c).playlist := (congrArg Channel.playlist h.chan :)

theorem mode (h : p.Tracked u c y) : (u.chan c).mode = (p.chan c).mode := (congrArg Channel.mode h.chan :)

theorem now (h : p.Tracked u c y) : (u.chan c).now = (p.chan c).now := (congrArg Channel.now h.chan :)

theorem config (h : p.Tracked u c y) : u.config c = p.config c := (congrArg Channel.config h.chan :)

theorem family (h : p.Tracked u c y) : u.family c = p.family c :=
  Plant.family_of_config h.config fun n => Plant.ref_of_rest h.rest n

theorem lead (h : p.Tracked u c y) : u.lead c = p.lead c := Plant.lead_of_config h.config

theorem env (h : p.Tracked u c y) : u.plEnv c = p.plEnv c := by
  rw [Plant.plEnv, Plant.plEnv, h.family, h.now, h.lead, (congrArg Channel.baseDay h.chan : (u.chan c).baseDay = _)]

theorem lists (h : p.Tracked u c y) (d : Chan) : (u.chan d).playlist = (p.chan d).playlist := by
  rcases Decidable.em (d = c) with rfl | hd
  · exact h.playlist
  · rw [h.others d hd]

theorem free (h : p.Tracked u c y) : u.freeRecords = p.freeRecords := by simp only [Plant.freeRecords, h.lists]

theorem pool (h : p.Tracked u c y) (sound : p.PoolSound) : u.PoolSound where
  ids d := by rw [h.lists]; exact sound.ids d
  each d := by rw [h.lists]; exact sound.each d
  all := by simp only [h.lists]; exact sound.all

theorem undisturbed (h : p.Tracked u c y) {os : List PlOp} (free : p.Undisturbed c os) : u.Undisturbed c os := by
  have seq : (u.chan c).seq = (p.chan c).seq := (congrArg Channel.seq h.chan :)
  have port : ∀ i, u.port i = p.port i := fun i => by rw [Plant.port, h.ports, Plant.port]
  simp only [Plant.Undisturbed, Plant.NoneDue, seq, port, h.now]
  exact free

theorem trans (h : p.Tracked u c y) (h' : u.Tracked v c z) : p.Tracked v c z where
  chan := h'.chan.trans (congrArg (fun x : Channel => { x with replica := z }) h.chan)
  others d hd := (h'.others d hd).trans (h.others d hd)
  ports := h'.ports.trans h.ports
  spares := h'.spares.trans h.spares
  rest := h'.rest.trans h.rest

end Plant.Tracked

theorem Plant.Ran.mode {p q : Plant} {c : Chan} {os : List PlOp} {l : List Event} (h : p.Ran q c os l) :
    (q.chan c).mode = (p.chan c).mode := (congrArg Channel.mode h.own :)

theorem Plant.Ran.replica {p q : Plant} {c : Chan} {os : List PlOp} {l : List Event} (h : p.Ran q c os l) :
    (q.chan c).replica = (p.chan c).replica := (congrArg Channel.replica h.own :)

section
variable {p : Plant} {c : Chan}

theorem Plant.modReplica_tracked (p : Plant) (c : Chan) (f : Replica → Replica) :
    p.Tracked (p.modReplica c f) c (f (p.chan c).replica) where
  chan := p.chan_modChan_same c _
  others _ hd := p.chan_modChan_other _ hd
  ports := rfl
  spares := rfl
  rest := rfl

theorem Plant.discard_tracked (p : Plant) (c : Chan) (which : HoldEntry → Bool) : p.Tracked (p.discard c which) c (p.chan c).replica where
  chan := rfl
  others _ _ := rfl
  ports := rfl
  spares := rfl
  rest := rfl

/-- R49: next behind a record. -/
theorem Plant.advanceNext_eq {seq : Nat} (h : (p.chan c).replica.next = some seq) : p.advanceNext c = p.stepNext c seq := by
  rw [Plant.advanceNext, Plant.stepNext, Plant.modReplica, Plant.modChan, h]
  rfl

theorem Plant.stepNext_tracked (p : Plant) (c : Chan) (seq : Nat) :
    p.Tracked (p.stepNext c seq) c { (p.chan c).replica with next := some ((seq + 1) % 65536) } where
  chan := p.chan_setChan_same c _
  others _ hd := p.chan_setChan_other _ hd
  ports := rfl
  spares := rfl
  rest := rfl

/-! ## A STALE replica (R55) -/

theorem Plant.staled_chan (p : Plant) (c : Chan) (reason : Nat) (refused : Option (Status × Nat)) :
    ((p.staled c reason refused).chan c).replica.state = .stale := by
  exact congrArg (fun x : Channel => x.replica.state) (p.chan_setChan_same c _)

theorem Plant.staled_early (p : Plant) (c : Chan) (reason : Nat) (refused : Option (Status × Nat)) :
    (p.staled c reason refused).holdCount c .early = 0 := by
  have none : ((p.hold.filter fun h => h.channel != c).filter fun h => h.channel == c && h.kind == .early) = [] := by
    rw [List.filter_filter, List.filter_eq_nil_iff]
    intro h _
    rcases Decidable.em (h.channel = c) with mine | other
    · simp [mine]
    · simp [other]
  exact congrArg List.length none

/-- R55: what a replica loses is the same whether its batch is still open. -/
theorem Plant.staled_closed (p : Plant) (c : Chan) (reason : Nat) (refused : Option (Status × Nat)) :
    (p.modReplica c fun x => { x with batch := none }).staled c reason refused = p.staled c reason refused := by
  simp only [Plant.staled, Plant.modReplica, Plant.modChan, Plant.chan_setChan_same, Plant.setChan_setChan]
  rfl

/-- R55: what a replica loses is the same whether some of its hold entries are gone before. -/
theorem Plant.staled_discard (p : Plant) (c : Chan) (which : HoldEntry → Bool) (reason : Nat) (refused : Option (Status × Nat)) :
    (p.discard c which).staled c reason refused = p.staled c reason refused := by
  have left : ((p.discard c which).hold.filter fun h => h.channel != c) = p.hold.filter fun h => h.channel != c := by
    rw [Plant.discard, List.filter_filter]
    refine List.filter_congr fun h _ => ?_
    rcases Decidable.em (h.channel = c) with mine | other
    · simp [mine]
    · simp [other]
  rw [Plant.staled, left]
  rfl

/-! ## A record in order with nothing early (R50) -/

theorem Plant.nextEarly_none (h : p.holdCount c .early = 0) : p.nextEarly c = none := by
  rw [Plant.holdCount, List.length_eq_zero_iff, List.filter_eq_nil_iff] at h
  rw [Plant.nextEarly, List.find?_eq_none]
  intro k hk both
  exact h k hk (Bool.and_eq_true_iff.mp both).1

theorem Plant.drain_settled (n : Nat) (h : p.nextEarly c = none) : Plant.drain n c p = p := by
  cases n with
  | zero => rfl
  | succ n =>
    rw [Plant.drain, h]
    split <;> rfl

theorem Plant.afterDrain_stands (h : (p.chan c).replica.state ≠ .gap) : p.afterDrain c = p :=
  if_pos (bne_iff_ne.mpr h)

theorem Plant.inOrder_settled {seq : Nat} {r : Rec} {m q : Plant} (hn : (p.chan c).replica.next = some seq) (hm : m = p.stepNext c seq)
    (hq : m.handleRecord c seq r = q) (early : q.holdCount c .early = 0) (hs : (q.chan c).replica.state ≠ .gap) :
    p.inOrder c seq r = q := by
  rw [Plant.inOrder, Plant.advanceNext_eq hn, ← hm, hq, Plant.drain_settled _ (Plant.nextEarly_none early), Plant.afterDrain_stands hs]

/-- R50, R55: an in-order record that makes the replica STALE. -/
theorem Plant.inOrder_stale {seq reason : Nat} {r : Rec} {m : Plant} {refused : Option (Status × Nat)}
    (hn : (p.chan c).replica.next = some seq) (hm : m = p.stepNext c seq) (hq : m.handleRecord c seq r = m.staled c reason refused) :
    p.inOrder c seq r = m.staled c reason refused :=
  Plant.inOrder_settled hn hm hq (m.staled_early c reason refused) (by rw [Plant.staled_chan]; decide)

/-- R47, R49: the command of a record in order. -/
theorem exec_inOrder {l : LinkId} {seq : Nat} {cmd : Instr} {r : Rec} {s : State} (hp : p = s.plant.goodFrame l)
    (h : (∃ pred d, cmd = .evPut l c.val seq pred d ∧ r = .put pred d) ∨ (∃ d, cmd = .evSwap l c.val seq d ∧ r = .swap d) ∨
      (∃ e, cmd = .evDrop l c.val seq e ∧ r = .drop e) ∨ (cmd = .chWipe l c.val seq ∧ r = .wipe) ∨
      (∃ k, cmd = .batchOpen l c.val seq k ∧ r = .batchOpen k) ∨ (cmd = .batchClose l c.val seq ∧ r = .batchClose))
    (hm : (p.chan c).mode ≠ .idle) (ht : (p.chan c).replica.state = .current ∨ (p.chan c).replica.state = .gap)
    (hn : (p.chan c).replica.next = some seq) (hs : seq < 65536) : exec cmd s = .next (s.passed (p.inOrder c seq r)) := by
  obtain ⟨run, notBase⟩ := exec_record s h
  have zero : (seq + 65536 - seq) % 65536 = 0 := by rw [Nat.add_sub_cancel_left]
  rw [run, hp, Plant.channelRecord_runs s.plant l r hs (hp ▸ hm),
    Plant.classify_tracked ((Plant.tracking_iff _ c).mpr (hp ▸ ht)) notBase (hp ▸ hn) rfl, zero]
  rfl

/-! ## The records that are operations of the store -/

/-- A record that stands for an operation of the store. -/
def Rec.Edits (r : Rec) : Prop := (∃ pred d, r = .put pred d) ∨ (∃ d, r = .swap d) ∨ (∃ e, r = .drop e) ∨ r = .wipe

theorem Rec.edits_of {l : LinkId} {n seq : Nat} {cmd : Instr} {r : Rec}
    (h : (∃ pred d, cmd = .evPut l n seq pred d ∧ r = .put pred d) ∨ (∃ d, cmd = .evSwap l n seq d ∧ r = .swap d) ∨
      (∃ e, cmd = .evDrop l n seq e ∧ r = .drop e) ∨ (cmd = .chWipe l n seq ∧ r = .wipe)) : r.Edits :=
  h.imp (fun ⟨pred, d, _, hr⟩ => ⟨pred, d, hr⟩) <| Or.imp (fun ⟨d, _, hr⟩ => ⟨d, hr⟩) <| Or.imp (fun ⟨e, _, hr⟩ => ⟨e, hr⟩) fun h => h.2

variable {seq : Nat} {r : Rec}

theorem Plant.handleRecord_stages {b : Batch} (hr : r.Edits) (hb : (p.chan c).replica.batch = some b) :
    p.handleRecord c seq r = p.stage c seq r b := by
  obtain ⟨_, _, rfl⟩ | ⟨_, rfl⟩ | ⟨_, rfl⟩ | rfl := hr <;> simp only [Plant.handleRecord, hb]

theorem Plant.handleRecord_defers (hr : r.Edits) (hb : (p.chan c).replica.batch = none) (hd : (p.chan c).mode.deferral = true) :
    p.handleRecord c seq r = p.defer c seq r := by
  have deferring : p.deferring c = true := hd
  obtain ⟨_, _, rfl⟩ | ⟨_, rfl⟩ | ⟨_, rfl⟩ | rfl := hr <;> simp only [Plant.handleRecord, hb, deferring, if_true]

theorem Plant.handleRecord_applies (hr : r.Edits) (hb : (p.chan c).replica.batch = none) (hd : (p.chan c).mode.deferral = false) :
    p.handleRecord c seq r = p.applyRecord c seq r := by
  have deferring : p.deferring c = false := hd
  obtain ⟨_, _, rfl⟩ | ⟨_, rfl⟩ | ⟨_, rfl⟩ | rfl := hr <;>
    simp only [Plant.handleRecord, hb, deferring, Bool.false_eq_true, if_false]

/-! ## Staging and batches (R60 to R64) -/

theorem Plant.goStale_stale {r : ReplicaReason} {refused : Option (Status × Nat)}
    (h : (p.chan c).replica.state = .current ∨ (p.chan c).replica.state = .gap) :
    p.goStale c r refused = p.staled c r.code refused := Plant.goStale_eq h r refused

theorem Plant.stage_fits {b : Batch} (few : b.staged < 64) (room : p.hold.length < 256) : p.stage c seq r b =
    (p.addHold ⟨c, seq, r, .staged, some b.mark⟩).modReplica c fun x => { x with batch := some { b with staged := b.staged + 1 } } := by
  rw [Plant.stage, if_neg (by omega), if_neg (by omega)]

theorem Plant.stepNext_modReplica (p : Plant) (c : Chan) (seq : Nat) (f : Replica → Replica) : (p.stepNext c seq).modReplica c f =
    p.setChan c { p.chan c with replica := f { (p.chan c).replica with next := some ((seq + 1) % 65536) } } := by
  simp only [Plant.modReplica, Plant.modChan, Plant.stepNext, Plant.chan_setChan_same, Plant.setChan_setChan]

/-- The hold written anew. -/
def Plant.setHold (p : Plant) (l : List HoldEntry) : Plant := { p with hold := l }

/-- R64: staged entries that become deferred are not early. -/
theorem early_deferStaged (c : Chan) (l : List HoldEntry) :
    ((l.map (HoldEntry.deferStaged c)).filter fun h => h.channel == c && h.kind == .early).length =
      (l.filter fun h => h.channel == c && h.kind == .early).length := by
  rw [← List.countP_eq_length_filter, ← List.countP_eq_length_filter, List.countP_map]
  refine List.countP_congr fun h _ => ?_
  simp only [Function.comp, HoldEntry.deferStaged_early]

theorem Plant.closeBatch_open {b : Batch} (hb : (p.chan c).replica.batch = some b) : p.closeBatch c =
    if b.staged ≠ b.count then (p.modReplica c fun x => { x with batch := none }).goStale c .batchRefused none
    else if p.deferring c then (p.modReplica c fun x => { x with batch := none }).deferBatch c
    else (p.modReplica c fun x => { x with batch := none }).applyBatch c := by
  simp only [Plant.closeBatch, hb]

/-- R62: the staged operations handed to the store as one list. -/
theorem Plant.applyBatch_error {staged : List HoldEntry} {k : Nat} {list : List Event} {free : Nat} {st : Status} {u : Plant}
    (hst : staged = p.hold.filter fun h => h.channel == c && h.kind == .staged) (hu : u = p.discard c fun h => h.kind == .staged)
    (hk : k < staged.length)
    (after : plAfter (u.plEnv c) (u.chan c).playlist u.freeRecords ((staged.take k).map fun h => h.content.op) = some (list, free))
    (e : plApply (u.plEnv c) list free staged[k].content.op = .error st) :
    p.applyBatch c = u.goStale c .batchRefused (some (st, staged[k].seq)) := by
  have ops : staged.map (fun h => h.content.op) =
      (staged.take k).map (fun h => h.content.op) ++ staged[k].content.op :: (staged.drop (k + 1)).map fun h => h.content.op := by
    rw [← List.map_cons (f := fun h : HoldEntry => h.content.op), ← List.map_append, List.getElem_cons_drop, List.take_append_drop]
  have place : ((staged.take k).map fun h => h.content.op).length = k := by
    rw [List.length_map, List.length_take, Nat.min_eq_left hk.le]
  have edits := Plant.editList_error (os' := (staged.drop (k + 1)).map fun h => h.content.op) after e
  rw [← ops, place] at edits
  rw [Plant.applyBatch, Plant.stagedEntries, ← hst, ← hu, edits]
  simp only [List.getElem?_eq_getElem hk, Option.map_some, Option.getD_some]

theorem Plant.applyBatch_ok {staged : List HoldEntry} {list : List Event} {free : Nat} {u : Plant}
    (hst : staged = p.hold.filter fun h => h.channel == c && h.kind == .staged) (hu : u = p.discard c fun h => h.kind == .staged)
    (sound : u.PoolSound) (after : plAfter (u.plEnv c) (u.chan c).playlist u.freeRecords (staged.map fun h => h.content.op)
      = some (list, free)) :
    ∃ q, p.applyBatch c = u.wakeAfter q c ∧ u.Ran q c (staged.map fun h => h.content.op)
      (resolveList (4 * (u.family c).fpd) ((u.chan c).now + u.lead c) list) := by
  obtain ⟨q, edits, ran, -⟩ := Plant.editList_ok sound after
  refine ⟨q, ?_, ran⟩
  rw [Plant.applyBatch, Plant.stagedEntries, ← hst, ← hu, edits]

end

/-- Settles O27: each record is handled on the plant with next advanced, and nothing early follows it. -/
theorem batchFraming : Obligations.BatchFraming := by
  unfold Obligations.BatchFraming
  intro l c seq s p m x hp hm hx current hn hs early rfl
  subst hx
  have track := p.stepNext_tracked c seq
  have tracked : ((p.stepNext c seq).chan c).replica.state = .current ∨ ((p.stepNext c seq).chan c).replica.state = .gap :=
    Or.inl (by rw [track.replica]; exact current)
  have batch : ((p.stepNext c seq).chan c).replica.batch = (p.chan c).replica.batch := by rw [track.replica]
  have closes := (p.stepNext c seq).modReplica_tracked c fun x => { x with batch := none }
  have run : ∀ {cmd r}, _ → exec cmd s = .next (s.passed (p.inOrder c seq r)) := fun h =>
    exec_inOrder hp h hm (Or.inl current) hn hs
  have stale : ∀ {r reason}, (p.stepNext c seq).handleRecord c seq r = (p.stepNext c seq).goStale c reason none →
      p.inOrder c seq r = (p.stepNext c seq).staled c reason.code none := fun h =>
    Plant.inOrder_stale hn rfl (h.trans (Plant.goStale_stale tracked))
  refine ⟨fun n none low high => ?_, fun n wrong => ?_, fun b cmd r hb hr => ?_, fun none => ?_, fun b hb differs => ?_,
    fun b hb meets deferral => ?_, fun b staged hb meets plain hst => ?_⟩
  · have opens : (p.stepNext c seq).handleRecord c seq (.batchOpen n) =
        (p.stepNext c seq).modReplica c fun x => { x with batch := some { count := n, staged := 0, mark := seq, timer := 0 } } := by
      have good : ¬(((p.stepNext c seq).chan c).replica.batch.isSome = true ∨ n < 1 ∨ 64 < n) := by
        rw [batch, none]
        simp
        omega
      exact if_neg good
    rw [Plant.stepNext_modReplica] at opens
    rw [run (r := .batchOpen n) (by simp), Plant.inOrder_settled hn rfl opens early]
    rw [Plant.chan_setChan_same]
    simp [current]
  · have refuses : (p.stepNext c seq).handleRecord c seq (.batchOpen n) = (p.stepNext c seq).goStale c .batchRefused none := by
      refine if_pos ?_
      rwa [batch, Option.isSome_iff_ne_none]
    rw [run (r := .batchOpen n) (by simp), stale refuses]
    rfl
  · have stages := Plant.handleRecord_stages (seq := seq) (Rec.edits_of hr) (batch.trans hb)
    rw [run (hr.imp id <| Or.imp id <| Or.imp id Or.inl)]
    refine ⟨fun many => ?_, fun few full => ?_, fun few room => ?_⟩
    · rw [stale (stages.trans (if_pos (by omega)))]
      rfl
    · rw [stale (stages.trans ((if_neg (by omega)).trans (if_pos full)))]
      rfl
    · have fits := Plant.stage_fits (p := p.stepNext c seq) (c := c) (seq := seq) (r := r) few room
      have written := congrArg (Plant.setHold · (p.hold ++ [⟨c, seq, r, .staged, some b.mark⟩]))
        (p.stepNext_modReplica c seq fun x => { x with batch := some { b with staged := b.staged + 1 } })
      rw [Plant.inOrder_settled hn rfl (stages.trans (fits.trans written))]
      · rfl
      · refine (p.holdCount_addHold ⟨c, seq, r, .staged, some b.mark⟩ c .early).trans ?_
        rw [early, if_neg (by simp)]
      · refine ne_of_eq_of_ne (congrArg (fun x : Channel => x.replica.state) (p.chan_setChan_same c _)) ?_
        rw [current]
        decide
  · have refuses : (p.stepNext c seq).handleRecord c seq .batchClose = (p.stepNext c seq).goStale c .batchRefused .none := by
      show (p.stepNext c seq).closeBatch c = _
      simp only [Plant.closeBatch, batch, none]
    rw [run (r := .batchClose) (by simp), stale refuses]
    rfl
  · have refuses : (p.stepNext c seq).handleRecord c seq .batchClose = (p.stepNext c seq).staled c 8 none := by
      refine (Plant.closeBatch_open (batch.trans hb)).trans ?_
      rw [if_pos differs, Plant.goStale_stale (by rw [closes.replica]; exact tracked), Plant.staled_closed]
      rfl
    rw [run (r := .batchClose) (by simp), Plant.inOrder_stale hn rfl refuses]
  · have deferring : (p.stepNext c seq).deferring c = true := (congrArg Mode.deferral track.mode).trans deferral
    have handled := Plant.closeBatch_open (batch.trans hb)
    rw [if_neg (not_not.mpr meets), if_pos deferring] at handled
    rw [run (r := .batchClose) (by simp)]
    refine ⟨fun few => ?_, fun many => ?_⟩
    · have kept : ((p.stepNext c seq).modReplica c fun x => { x with batch := none }).deferBatch c = _ :=
        Plant.deferBatch_room (Nat.not_lt.mpr few)
      have written := congrArg (Plant.setHold · (p.hold.map (HoldEntry.deferStaged c)))
        (p.stepNext_modReplica c seq fun x => { x with batch := none })
      rw [Plant.inOrder_settled (r := .batchClose) hn rfl (handled.trans (kept.trans written))]
      · refine congrArg Host.Outcome.next (congrArg s.passed (congrArg (Plant.setHold _) ?_))
        refine List.map_congr_left fun h _ => ?_
        simp [HoldEntry.deferStaged]
      · exact (early_deferStaged c p.hold).trans early
      · refine ne_of_eq_of_ne (congrArg (fun x : Channel => x.replica.state) (p.chan_setChan_same c _)) ?_
        rw [current]
        decide
    · have overflows : ((p.stepNext c seq).modReplica c fun x => { x with batch := none }).deferBatch c = _ := if_pos many
      rw [Plant.goStale_stale (by rw [closes.replica]; exact tracked), Plant.staled_closed] at overflows
      rw [Plant.inOrder_stale (r := .batchClose) (reason := 10) hn rfl (handled.trans overflows)]
  · have deferring : ¬(p.stepNext c seq).deferring c = true := by
      rw [Plant.deferring, track.mode, plain]
      exact Bool.false_ne_true
    have handled := Plant.closeBatch_open (batch.trans hb)
    rw [if_neg (not_not.mpr meets), if_neg deferring] at handled
    rw [run (r := .batchClose) (by simp)]
    obtain ⟨w, hw⟩ : ∃ w, w = (p.stepNext c seq).modReplica c fun x => { x with batch := none } := ⟨_, rfl⟩
    obtain ⟨u, hu⟩ : ∃ u, u = w.discard c fun h => h.kind == .staged := ⟨_, rfl⟩
    have opened : p.Tracked u c { (p.chan c).replica with next := some ((seq + 1) % 65536), batch := none } := by
      have all := (track.trans closes).trans (((p.stepNext c seq).modReplica c fun x => { x with batch := none }).discard_tracked c
        fun h => h.kind == .staged)
      rw [closes.replica, track.replica, ← hw, ← hu] at all
      exact all
    have whole : w.hold = p.hold := by rw [hw]; rfl
    have taken : u.hold = p.hold.filter fun h => !(h.channel == c && h.kind == .staged) := by rw [hu, ← whole]; rfl
    have silent : u.outbox = p.outbox := by rw [hu, hw]; rfl
    rw [← hw] at handled
    rw [← whole] at hst
    refine ⟨fun k hk list free st after e => ?_, fun sound list free after => ?_⟩
    · rw [← opened.env, ← opened.playlist, ← opened.free] at after
      rw [← opened.env] at e
      have refused := Plant.applyBatch_error hst hu hk after e
      rw [Plant.goStale_stale (by rw [opened.replica]; exact Or.inl current), hu, Plant.staled_discard, hw, Plant.staled_closed] at refused
      rw [Plant.inOrder_stale (r := .batchClose) (reason := 8) hn rfl (handled.trans (hw ▸ refused))]
    · rw [← opened.env, ← opened.playlist, ← opened.free] at after
      obtain ⟨q, applied, ran⟩ := Plant.applyBatch_ok hst hu (opened.pool sound) after
      obtain ⟨r, hr⟩ : ∃ r, r = u.wakeAfter q c := ⟨_, rfl⟩
      obtain ⟨plan, replica, hold, -, out, -, -, quiet⟩ := ran.woken hr
      rw [← hr] at applied
      rw [opened.replica] at replica
      rw [opened.family, opened.now, opened.lead] at plan ran
      have left : r.holdCount c .early = 0 := by
        rw [Plant.holdCount, List.length_eq_zero_iff, List.filter_eq_nil_iff] at early ⊢
        rw [hold, taken]
        exact fun h hh => early h (List.mem_of_mem_filter hh)
      refine ⟨r, ?_, plan, replica, hold.trans taken, silent ▸ out, ?_, fun free => ?_⟩
      · rw [Plant.inOrder_settled (r := .batchClose) hn rfl (handled.trans applied) left (by rw [replica, current]; decide)]
      · exact Plant.still_of_rest ((by rw [hr, Plant.wakeAfter_rest] : r.rest = q.rest).trans (ran.rest.trans opened.rest))
      · obtain rfl := quiet (opened.undisturbed free)
        exact ⟨ran.playlist, ran.outbox.trans silent, fun d hd => (ran.others d hd).trans (opened.others d hd)⟩

/-! ## A record applied (R59), and the early entries behind it (R50) -/

section
variable {p : Plant} {c : Chan} {seq : Nat} {r : Rec}

theorem Plant.applyRecord_error {st : Status} (e : plApply (p.plEnv c) (p.chan c).playlist p.freeRecords r.op = .error st) :
    p.applyRecord c seq r = p.goStale c .recordRefused (some (st, seq)) := by
  rw [Plant.applyRecord, Plant.edit_error e]

theorem Plant.applyRecord_ok {done : PlDone} (e : plApply (p.plEnv c) (p.chan c).playlist p.freeRecords r.op = .ok done) :
    ∃ q, p.applyRecord c seq r = p.wakeAfter q c ∧
      p.Ran q c [r.op] (resolveList (4 * (p.family c).fpd) ((p.chan c).now + p.lead c) done.list) := by
  obtain ⟨q, edits, ran⟩ := Plant.edit_ok e
  exact ⟨q, by rw [Plant.applyRecord, edits], ran⟩

/-- R59: a record carried out that uncovers nothing: the list resolved, and the free records that the store counts. -/
theorem Plant.handleRecord_runs {l : List Event} {free : Nat} (hr : r.Edits) (hb : (p.chan c).replica.batch = none)
    (hd : (p.chan c).mode.deferral = false) (sound : p.PoolSound) (quiet : p.Undisturbed c [r.op])
    (after : plAfter (p.plEnv c) (p.chan c).playlist p.freeRecords [r.op] = some (l, free)) :
    ∃ q, p.handleRecord c seq r = q ∧ p.Ran q c [r.op] (resolveList (4 * (p.family c).fpd) (p.plEnv c).floor l) ∧
      q.freeRecords = free ∧ q.PoolSound := by
  rw [plAfter] at after
  split at after
  · next done e =>
    cases after
    obtain ⟨q, edits, ran⟩ := Plant.edit_ok e
    have applied : p.handleRecord c seq r = q := by
      rw [Plant.handleRecord_applies hr hb hd, Plant.applyRecord, edits]
      exact ran.quiet quiet
    have count : done.free + (resolveList (4 * (p.family c).fpd) ((p.chan c).now + p.lead c) done.list).length =
        p.freeRecords + (p.chan c).playlist.length := by
      rw [← plApply_records (sound.ids c) e, ← length_idsOf (resolveList _ _ _), idsOf_resolveList, length_idsOf]
    exact ⟨q, applied, ran, ran.freeRecords sound count, (applied ▸ p.handleRecord_bounded c seq r).pool sound⟩
  · cases after

/-- What the records behind one in order must be to follow it without a gap: the channel's early entries of the numbers from `s` on. -/
structure Plant.Follow (p : Plant) (c : Chan) (s : Nat) (behind : List HoldEntry) : Prop where
  entry : ∀ k (h : k < behind.length), behind[k] ∈ p.hold ∧ behind[k].channel = c ∧ behind[k].kind = .early ∧
    behind[k].seq = (s + k) % 65536 ∧ behind[k].content.Edits
  sole : ∀ h ∈ p.hold, h.channel = c → h.kind = .early → ∀ k ∈ behind, h.seq = k.seq → h = k
  left : ∀ h ∈ p.hold, h.channel = c → h.kind = .early → h ∉ behind → h.seq ≠ (s + behind.length) % 65536
  few : behind.length < 65536

namespace Plant.Follow

variable {s : Nat} {behind : List HoldEntry} {h : HoldEntry}

theorem nextEarly_nil (f : p.Follow c s []) (hn : (p.chan c).replica.next = some (s % 65536)) : p.nextEarly c = none := by
  rw [Plant.nextEarly, List.find?_eq_none, hn]
  intro k hk all
  obtain ⟨⟨mine, early⟩, num⟩ : (k.channel = c ∧ k.kind = .early) ∧ k.seq = s % 65536 := by simpa using all
  exact f.left k hk mine early List.not_mem_nil num

theorem nextEarly_cons (f : p.Follow c s (h :: behind)) (hn : (p.chan c).replica.next = some (s % 65536)) : p.nextEarly c = some h := by
  obtain ⟨mem, mine, early, num, -⟩ : h ∈ p.hold ∧ h.channel = c ∧ h.kind = .early ∧ h.seq = (s + 0) % 65536 ∧ _ :=
    f.entry 0 (Nat.succ_pos _)
  obtain ⟨k, hk⟩ : ∃ k, p.nextEarly c = some k := by
    rw [← Option.isSome_iff_exists, Plant.nextEarly, List.find?_isSome]
    exact ⟨h, mem, by simp [mine, early, num, hn]⟩
  have all := List.find?_some hk
  rw [hn] at all
  obtain ⟨⟨mine', early'⟩, num'⟩ : (k.channel = c ∧ k.kind = .early) ∧ k.seq = s % 65536 := by simpa using all
  rw [hk, f.sole k (List.mem_of_find?_eq_some hk) mine' early' h List.mem_cons_self (num'.trans num.symm)]

/-- R50: the hold without the first of them. -/
theorem discard_first (f : p.Follow c s (h :: behind)) :
    (p.hold.filter fun k => !(k.channel == c && (k.kind == .early && k.seq == h.seq))) = p.hold.filter fun k => k != h := by
  refine List.filter_congr fun k hk => ?_
  obtain ⟨-, mine, early, -, -⟩ := f.entry 0 (Nat.succ_pos _)
  rcases Decidable.em (k = h) with rfl | differs
  · have mine : k.channel = c := mine
    have early : k.kind = .early := early
    simp [mine, early]
  · rw [bne_iff_ne.mpr differs, Bool.not_eq_true']
    refine Bool.eq_false_iff.mpr fun all => differs ?_
    obtain ⟨mine, early, num⟩ : k.channel = c ∧ k.kind = .early ∧ k.seq = h.seq := by simpa using all
    exact f.sole k hk mine early h List.mem_cons_self num

/-- R50: the rest of them follow in a plant whose hold has lost the first. -/
theorem tail (f : p.Follow c s (h :: behind)) {q : Plant} (hold : q.hold = p.hold.filter fun k => k != h) :
    q.Follow c (s + 1) behind where
  entry k hk := by
    obtain ⟨mem, mine, early, num, edits⟩ := f.entry (k + 1) (Nat.succ_lt_succ hk)
    obtain ⟨-, -, -, first, -⟩ : h ∈ p.hold ∧ h.channel = c ∧ h.kind = .early ∧ h.seq = (s + 0) % 65536 ∧ _ :=
      f.entry 0 (Nat.succ_pos _)
    have few := f.few
    simp only [List.getElem_cons_succ, List.length_cons] at mem mine early num edits few
    refine ⟨?_, mine, early, by rw [num, Nat.add_assoc s 1, Nat.add_comm 1], edits⟩
    rw [hold, List.mem_filter, bne_iff_ne]
    refine ⟨mem, fun same => ?_⟩
    rw [same] at num
    omega
  sole k hk mine early k' hk' := by
    rw [hold] at hk
    exact f.sole k (List.mem_of_mem_filter hk) mine early k' (List.mem_cons_of_mem h hk')
  left k hk mine early out := by
    rw [hold, List.mem_filter, bne_iff_ne] at hk
    rw [Nat.add_assoc, Nat.add_comm 1]
    refine f.left k hk.1 mine early fun inside => ?_
    rcases List.mem_cons.mp inside with same | inside
    · exact hk.2 same
    · exact out inside
  few := Nat.lt_of_succ_lt f.few

end Plant.Follow

/-- R50: the early entries that follow without a gap are applied in sequence order, and leave the hold. -/
theorem Plant.drain_follows {behind : List HoldEntry} {s n : Nat} {list : List Event} {free : Nat} (follow : p.Follow c s behind)
    (ht : p.tracking c = true) (hn : (p.chan c).replica.next = some (s % 65536)) (hb : (p.chan c).replica.batch = none)
    (hd : (p.chan c).mode.deferral = false) (sound : p.PoolSound) (fuel : p.hold.length ≤ n)
    (quiet : p.Undisturbed c (behind.map fun h => h.content.op))
    (after : plGroups (p.plEnv c) (4 * (p.family c).fpd) (p.chan c).playlist p.freeRecords (behind.map fun h => [h.content.op]) =
      some (list, free)) :
    ∃ q, Plant.drain n c p = q ∧ (q.chan c).playlist = list ∧
      (q.chan c).replica = { (p.chan c).replica with next := some ((s + behind.length) % 65536) } ∧
      q.hold = p.hold.filter (fun h => !behind.contains h) ∧ q.rest = p.rest ∧ p.OtherChans q c ∧ q.outbox = p.outbox := by
  induction behind generalizing p s n with
  | nil =>
    cases after
    have none : p.nextEarly c = none := follow.nextEarly_nil hn
    refine ⟨p, Plant.drain_settled n none, rfl, ?_, (List.filter_eq_self.mpr fun _ _ => rfl).symm, rfl, fun _ _ => rfl, rfl⟩
    rw [List.length_nil, Nat.add_zero, ← hn]
  | cons h behind ih =>
    obtain ⟨mem, mine, early, num, edits⟩ := follow.entry 0 (Nat.succ_pos _)
    obtain ⟨n, rfl⟩ : ∃ m, n = m + 1 := ⟨n - 1, by have := List.length_pos_of_mem mem; omega⟩
    obtain ⟨u, hu⟩ : ∃ u, u = (p.discard c fun k => k.kind == .early && k.seq == h.seq).advanceNext c := ⟨_, rfl⟩
    have drains : Plant.drain (n + 1) c p = Plant.drain n c (u.handleRecord c h.seq h.content) := by
      rw [Plant.drain, follow.nextEarly_cons hn, hu, ht]
      rfl
    have taken : u.hold = p.hold.filter fun k => k != h := by
      rw [hu, ← follow.discard_first]
      rfl
    have silent : u.outbox = p.outbox := by rw [hu]; rfl
    have track : p.Tracked u c { (p.chan c).replica with next := some ((s + 1) % 65536) } := by
      have both := (p.discard_tracked c fun k => k.kind == .early && k.seq == h.seq).trans (Plant.modReplica_tracked _ c fun x =>
        { x with next := x.next.map fun n => (n + 1) % 65536 })
      rw [(p.discard_tracked c _).replica, hn, Option.map_some, Nat.mod_add_mod] at both
      rw [hu]
      exact both
    have fewer : u.hold.length ≤ n := by
      have : u.hold.length < p.hold.length := by
        rw [taken]
        exact List.length_filter_lt_length_iff_exists.mpr ⟨h, mem, by simp⟩
      omega
    rw [List.map_cons, plGroups] at after
    split at after
    · next l' free' first =>
      rw [← track.env, ← track.playlist, ← track.free] at first
      have one : u.Undisturbed c [h.content.op] := track.undisturbed (quiet.imp id fun unhit o ho => unhit o (by
        rw [List.mem_singleton] at ho
        rw [ho]
        exact List.mem_cons_self))
      obtain ⟨q, applied, ran, count, pool⟩ := Plant.handleRecord_runs (seq := h.seq) edits (by rw [track.replica]; exact hb)
        (by rw [track.mode]; exact hd) (track.pool sound) one first
      have replica : (q.chan c).replica = { (p.chan c).replica with next := some ((s + 1) % 65536) } :=
        ran.replica.trans track.replica
      rw [track.env, track.family] at ran
      rw [← ran.playlist, ← count, ← track.env, ← ran.env, ← track.family, ← ran.family] at after
      have others : p.OtherChans q c := fun d hd' => (ran.others d hd').trans (track.others d hd')
      have later : q.Undisturbed c (behind.map fun h => h.content.op) := ran.undisturbed <| track.undisturbed <|
        quiet.imp id fun unhit o ho => unhit o (List.mem_cons_of_mem _ ho)
      have tracks : q.tracking c = true := by
        rw [Plant.tracking, replica]
        exact ht
      obtain ⟨r, drained, list', replica', hold, rest, others', outbox⟩ := ih (follow.tail (ran.hold.trans taken)) tracks
        (by rw [replica]) (by rw [replica]; exact hb)
        (by rw [ran.mode, track.mode]; exact hd) pool
        (ran.hold ▸ fewer) later after
      refine ⟨r, drains.trans ((congrArg (Plant.drain n c) applied).trans drained), list', ?_, ?_, rest.trans (ran.rest.trans track.rest),
        fun d hd' => (others' d hd').trans (others d hd'), outbox.trans (ran.outbox.trans silent)⟩
      · rw [replica', replica, List.length_cons, Nat.add_assoc, Nat.add_comm 1]
      · rw [hold, ran.hold, taken, List.filter_filter]
        refine List.filter_congr fun k _ => ?_
        rw [List.contains_cons, Bool.not_or, Bool.and_comm]
        rfl
    · cases after

/-- R50: what a drain leaves of a gap. -/
theorem Plant.afterDrain_closes (gap : (p.chan c).replica.state = .gap) (early : p.holdCount c .early = 0) : p.afterDrain c =
    (p.modReplica c fun x => { x with state := .current, gapTimer := none }).tellReplica c .gap .gapClosed none := by
  rw [Plant.afterDrain, if_neg (by rw [gap]; decide), if_pos early]

theorem Plant.afterDrain_waits (gap : (p.chan c).replica.state = .gap) (early : p.holdCount c .early ≠ 0) : p.afterDrain c =
    p.modReplica c fun x => { x with gapTimer := some 0 } := by
  rw [Plant.afterDrain, if_neg (by rw [gap]; decide), if_neg early]

end

/-- Settles O26: with nothing early the record is handled on the plant with next advanced; in GAP the early entries follow it. -/
theorem inOrderRecords : Obligations.InOrderRecords := by
  unfold Obligations.InOrderRecords
  intro l c seq s p m cmd r hp hr hm hn hs hb hm'
  have track : p.Tracked m c { (p.chan c).replica with next := some ((seq + 1) % 65536) } := hm' ▸ p.stepNext_tracked c seq
  have edits := Rec.edits_of hr
  have batch : (m.chan c).replica.batch = none := by rw [track.replica]; exact hb
  have hold : m.hold = p.hold := by rw [hm']; rfl
  have silent : m.outbox = p.outbox := by rw [hm']; rfl
  have counts : ∀ k, m.holdCount c k = p.holdCount c k := fun k => by rw [Plant.holdCount, hold, Plant.holdCount]
  have run : (p.chan c).replica.state = .current ∨ (p.chan c).replica.state = .gap →
      exec cmd s = .next (s.passed (p.inOrder c seq r)) := fun ht =>
    exec_inOrder hp (hr.imp id <| Or.imp id <| Or.imp id Or.inl) hm ht hn hs
  have state : (m.chan c).replica.state = (p.chan c).replica.state := by rw [track.replica]
  refine ⟨fun current early plain => ⟨fun st e => ?_, fun done e => ?_⟩, fun current early deferral => ⟨fun few room => ?_,
    fun many room => ?_, fun full => ?_⟩, fun gap plain sound behind left list free hleft entry sole next few quiet after => ?_⟩
  · rw [← track.env, ← track.playlist, ← track.free] at e
    have refused := (Plant.handleRecord_applies edits batch (track.mode ▸ plain)).trans (Plant.applyRecord_error (seq := seq) e)
    rw [Plant.goStale_stale (Or.inl (state.trans current))] at refused
    rw [run (Or.inl current), Plant.inOrder_stale (reason := 7) hn hm' refused]
  · rw [← track.env, ← track.playlist, ← track.free] at e
    obtain ⟨q, applied, ran⟩ := Plant.applyRecord_ok (seq := seq) e
    obtain ⟨t, ht⟩ : ∃ t, t = m.wakeAfter q c := ⟨_, rfl⟩
    obtain ⟨plan, replica, hold', spares, out, -, -, quiet⟩ := ran.woken ht
    rw [← ht] at applied
    rw [track.replica] at replica
    rw [track.family, track.now, track.lead] at plan ran
    have still : p.Still t := Plant.still_of_rest ((by rw [ht, Plant.wakeAfter_rest] : t.rest = q.rest).trans (ran.rest.trans track.rest))
    have handled := (Plant.handleRecord_applies edits batch (track.mode ▸ plain)).trans applied
    have none : t.holdCount c .early = 0 := by
      rw [Plant.holdCount, hold', hold]
      exact early
    refine ⟨t, ?_, plan, replica, hold'.trans hold, spares.trans track.spares, silent ▸ out, still, fun free => ?_⟩
    · rw [run (Or.inl current), Plant.inOrder_settled hn hm' handled none (by rw [replica, current]; decide)]
    · obtain rfl := quiet (track.undisturbed free)
      refine ⟨ran.playlist, ?_, ran.outbox.trans silent, fun d hd => (ran.others d hd).trans (track.others d hd)⟩
      have own := congrArg (fun x : Channel => { x with playlist := [], replica := .reset, seq := .reset, watch := .reset }) ran.own
      rw [track.chan] at own
      exact own
  · have kept : m.defer c seq r = m.addHold ⟨c, seq, r, .deferred, none⟩ := by
      rw [Plant.defer, counts, hold, if_neg (Nat.not_le.mpr room), if_neg (Nat.not_le.mpr few)]
    have handled := (Plant.handleRecord_defers (seq := seq) edits batch (track.mode ▸ deferral)).trans kept
    rw [run (Or.inl current), Plant.inOrder_settled hn hm' handled]
    · rw [← hold]
      rfl
    · rw [Plant.holdCount_addHold, if_neg (by simp), counts]
      exact early
    · exact ne_of_eq_of_ne (state.trans current) (by decide)
  · have overflows : m.defer c seq r = m.goStale c .deferOverflow none := by
      rw [Plant.defer, counts, hold, if_neg (Nat.not_le.mpr room), if_pos many]
    have handled := (Plant.handleRecord_defers edits batch (track.mode ▸ deferral)).trans overflows
    rw [Plant.goStale_stale (Or.inl (state.trans current))] at handled
    rw [run (Or.inl current), Plant.inOrder_stale (reason := 10) hn hm' handled]
  · have fills : m.defer c seq r = m.goStale c .holdFull none := by
      rw [Plant.defer, hold, if_pos full]
    have handled := (Plant.handleRecord_defers edits batch (track.mode ▸ deferral)).trans fills
    rw [Plant.goStale_stale (Or.inl (state.trans current))] at handled
    rw [run (Or.inl current), Plant.inOrder_stale (reason := 5) hn hm' handled]
  · rw [plGroups] at after
    split at after
    · next l' free' first =>
      rw [← track.env, ← track.playlist, ← track.free] at first
      have one : m.Undisturbed c [r.op] := track.undisturbed <| quiet.imp id fun unhit o ho =>
        unhit o (List.mem_singleton.mp ho ▸ List.mem_cons_self)
      obtain ⟨q, applied, ran, count, pool⟩ := Plant.handleRecord_runs (seq := seq) edits batch (track.mode ▸ plain) (track.pool sound) one
        first
      have replica := ran.replica.trans track.replica
      rw [track.env, track.family] at ran
      rw [← ran.playlist, ← count, ← track.env, ← ran.env, ← track.family, ← ran.family] at after
      have others : p.OtherChans q c := fun d hd' => (ran.others d hd').trans (track.others d hd')
      have later : q.Undisturbed c (behind.map fun h => h.content.op) := ran.undisturbed <| track.undisturbed <|
        quiet.imp id fun unhit o ho => unhit o (List.mem_cons_of_mem _ ho)
      have same : q.hold = p.hold := ran.hold.trans hold
      have follow : q.Follow c (seq + 1) behind := {
        entry := fun k hk => same ▸ entry k hk
        sole := fun h hh => sole h (same ▸ hh)
        left := fun h hh mine kind out => next h (by
          rw [hleft, List.mem_filter]
          exact ⟨same ▸ hh, by simp [mine, kind, out]⟩)
        few := few }
      obtain ⟨t, drained, list', replica', hold', rest, others', outbox⟩ := Plant.drain_follows (n := p.hold.length + 1) follow
        ((Plant.tracking_iff q c).mpr (Or.inr (by rw [replica]; exact gap))) (by rw [replica]) (by rw [replica]; exact hb)
        (by rw [ran.mode, track.mode]; exact plain) pool (same ▸ Nat.le_succ _) later after
      rw [replica] at replica'
      have counted : t.holdCount c .early = left.length := by
        rw [Plant.holdCount, hold', same, hleft, List.filter_filter]
      have whole : p.inOrder c seq r = t.afterDrain c := by
        rw [Plant.inOrder, Plant.advanceNext_eq hn, ← hm', applied, drained]
      have opened : (t.chan c).replica.state = .gap := by rw [replica']; exact gap
      have held : t.hold = p.hold.filter (fun h => !behind.contains h) := hold'.trans (congrArg _ same)
      have sent : t.outbox = p.outbox := outbox.trans (ran.outbox.trans silent)
      rw [run (Or.inr gap), whole]
      rcases Decidable.em (left = []) with empty | waiting
      · have closes := t.modReplica_tracked c fun x => { x with state := .current, gapTimer := none }
        rw [Plant.afterDrain_closes opened (counted.trans (congrArg List.length empty)), Plant.tellReplica_eq]
        refine ⟨_, rfl, closes.playlist.trans list', held, ?_, fun d hd' => ?_, fun _ => ⟨?_, ?_⟩, fun h => absurd empty h⟩
        · exact Plant.still_of_rest (closes.rest.trans (rest.trans (ran.rest.trans track.rest)))
        · exact (closes.others d hd').trans ((others' d hd').trans (others d hd'))
        · refine closes.replica.trans ?_
          rw [replica']
        · exact congrArg (· ++ _) sent
      · have waits := t.modReplica_tracked c fun x => { x with gapTimer := some 0 }
        rw [Plant.afterDrain_waits opened (by rw [counted, Ne, List.length_eq_zero_iff]; exact waiting)]
        refine ⟨_, rfl, waits.playlist.trans list', held, ?_, fun d hd' => ?_, fun h => absurd h waiting, fun _ => ⟨?_, sent⟩⟩
        · exact Plant.still_of_rest (waits.rest.trans (rest.trans (ran.rest.trans track.rest)))
        · exact (waits.others d hd').trans ((others' d hd').trans (others d hd'))
        · refine waits.replica.trans ?_
          rw [replica']
    · cases after

end Sys2Proof.Machine
end

