-- ==== Sys2Proof/Proofs/Deferrals.lean ====
section
/-! PROOFS. The deferred entries applied at the return switch (R66): in groups, until the first refusal; and that nothing of it reads
whether an event has an as-run entry. -/

namespace Sys2Proof.Machine

/-! ## What becomes of a playlist -/

/-- R66: the list that deferred groups leave, and the refusal that ends them. -/
inductive Deferred (v : PlEnv) (window : Nat) : List Event → Nat → List (List HoldEntry) → List Event → Option (Status × Nat) → Prop
  | all {l : List Event} {free : Nat} : Deferred v window l free [] l none
  | group {l l' l'' : List Event} {free free' : Nat} {g : List HoldEntry} {gs : List (List HoldEntry)} {r : Option (Status × Nat)}
      (done : plAfter v l free (g.map fun h => h.content.op) = some (l', free'))
      (rest : Deferred v window (resolveList window v.floor l') free' gs l'' r) : Deferred v window l free (g :: gs) l'' r
  | refused {l l' : List Event} {free free' : Nat} {g : List HoldEntry} {gs : List (List HoldEntry)} {h : HoldEntry}
      {before after : List HoldEntry} {st : Status} (split : g = before ++ h :: after)
      (done : plAfter v l free (before.map fun h => h.content.op) = some (l', free'))
      (refuses : plApply v l' free' h.content.op = .error st) : Deferred v window l free (g :: gs) l (some (st, h.seq))

section
variable {v : PlEnv} {window : Nat}

/-- R29: operations are all carried out, or one of them is refused after those before it. -/
theorem plAfter_or (v : PlEnv) (l : List Event) (free : Nat) (g : List HoldEntry) :
    (∃ l' free', plAfter v l free (g.map fun h => h.content.op) = some (l', free')) ∨
    ∃ before h after l' free' st, g = before ++ h :: after ∧
      plAfter v l free (before.map fun h => h.content.op) = some (l', free') ∧ plApply v l' free' h.content.op = .error st := by
  induction g generalizing l free with
  | nil => exact Or.inl ⟨l, free, rfl⟩
  | cons h g ih =>
    cases e : plApply v l free h.content.op with
    | error st => exact Or.inr ⟨[], h, g, l, free, st, rfl, rfl, e⟩
    | ok done =>
      have step : ∀ os, plAfter v l free (h.content.op :: os) = plAfter v done.list done.free os := fun os => by rw [plAfter, e]
      rcases ih done.list done.free with ⟨l', free', all⟩ | ⟨before, k, after, l', free', st, rfl, done', refuses⟩
      · exact Or.inl ⟨l', free', (step _).trans all⟩
      · exact Or.inr ⟨h :: before, k, after, l', free', st, rfl, (step _).trans done', refuses⟩

theorem Deferred.total (l : List Event) (free : Nat) (gs : List (List HoldEntry)) : ∃ l' r, Deferred v window l free gs l' r := by
  induction gs generalizing l free with
  | nil => exact ⟨l, none, .all⟩
  | cons g gs ih =>
    rcases plAfter_or v l free g with ⟨l', free', done⟩ | ⟨before, h, after, l', free', st, split, done, refuses⟩
    · obtain ⟨l'', r, rest⟩ := ih (resolveList window v.floor l') free'
      exact ⟨l'', r, .group done rest⟩
    · exact ⟨l, _, .refused split done refuses⟩

theorem Deferred.of_plGroups {l l' : List Event} {free free' : Nat} {gs after : List (List HoldEntry)} {l'' : List Event}
    {r : Option (Status × Nat)} (h : plGroups v window l free (gs.map fun g => g.map fun h => h.content.op) = some (l', free'))
    (rest : Deferred v window l' free' after l'' r) : Deferred v window l free (gs ++ after) l'' r := by
  induction gs generalizing l free with
  | nil =>
    cases h
    exact rest
  | cons g gs ih =>
    rw [List.map_cons, plGroups] at h
    split at h
    · next done => exact .group done (ih h)
    · cases h

end

/-! ## The mark of the as-run entry -/

/-- An event without the mark that an as-run entry has been opened for it. -/
def Event.unlogged (e : Event) : Event := { e with asRun := false }

theorem stopOf_unlogged (h : Nat) (l : List Event) : stopOf h (l.map Event.unlogged) = (stopOf h l).map Event.unlogged := by
  induction l with
  | nil => rfl
  | cons e l ih =>
    have same : (e.unlogged.passed || e.unlogged.under h) = (e.passed || e.under h) := rfl
    rw [List.map_cons, stopOf, stopOf, same, ih]
    split <;> rfl

theorem hardStart_unlogged (floor h : Nat) (l : List Event) : hardStart floor h (l.map Event.unlogged) = hardStart floor h l := by
  rw [hardStart, hardStart, stopOf_unlogged]
  cases stopOf h l <;> rfl

theorem Event.cutAt_unlogged (e : Event) (t : Nat) : e.unlogged.cutAt t = (e.cutAt t).unlogged := by
  rw [Event.cutAt, Event.cutAt, apply_ite Event.unlogged]
  rfl

theorem walkBack_unlogged (h place : Nat) (l : List Event) :
    walkBack h place (l.map Event.unlogged) = (walkBack h place l).map Event.unlogged := by
  induction l with
  | nil => rfl
  | cons e l ih =>
    have passed : e.unlogged.passed = e.passed := rfl
    have under : e.unlogged.under h = e.under h := rfl
    rw [List.map_cons, walkBack, walkBack, passed, under, ih, Event.cutAt_unlogged]
    split
    · rfl
    · split <;> rfl

theorem find?_unlogged {f : Event → Bool} (hf : ∀ e, f e.unlogged = f e) (l : List Event) :
    (l.map Event.unlogged).find? f = (l.find? f).map Event.unlogged := by
  rw [List.find?_map, (funext hf : f ∘ Event.unlogged = f)]

theorem prevEnd_unlogged (l : List Event) : prevEnd (l.map Event.unlogged) = prevEnd l := by
  rw [prevEnd, prevEnd, find?_unlogged (fun _ => rfl), Option.map_map]
  rfl

theorem visit_unlogged (window floor : Nat) (l : List Event) (e : Event) :
    visit window floor (l.map Event.unlogged) e.unlogged = (visit window floor l e).map Event.unlogged := by
  have place : ∀ t, e.unlogged.place window t = (e.place window t).unlogged := fun t => by
    rw [Event.place, Event.place, apply_ite Event.unlogged]
    rfl
  have cue : e.unlogged.cue = e.cue := rfl
  have rule : e.unlogged.rule = e.rule := rfl
  simp only [visit, cue, rule, place, prevEnd_unlogged, hardStart_unlogged, walkBack_unlogged]
  cases e.cue
  case pending => cases e.rule <;> rfl
  all_goals rfl

theorem resolveList_unlogged (window floor : Nat) (l : List Event) :
    resolveList window floor (l.map Event.unlogged) = (resolveList window floor l).map Event.unlogged := by
  have all : ∀ (l done : List Event), (l.map Event.unlogged).foldl (visit window floor) (done.map Event.unlogged) =
      (l.foldl (visit window floor) done).map Event.unlogged := fun l => by
    induction l with
    | nil => exact fun _ => rfl
    | cons e l ih => exact fun done => by rw [List.map_cons, List.foldl_cons, visit_unlogged, ih, List.foldl_cons]
  rw [resolveList, resolveList, List.map_reverse]
  exact congrArg List.reverse (all l [])

theorem splitAfter_unlogged (l : List Event) (pred : Nat) :
    splitAfter (l.map Event.unlogged) pred = (splitAfter l pred).map fun x => (x.1.map Event.unlogged, x.2.map Event.unlogged) := by
  induction l with
  | nil =>
    rw [List.map_nil, splitAfter]
    split <;> rfl
  | cons e l ih =>
    have id : e.unlogged.id = e.id := rfl
    rw [List.map_cons, splitAfter, splitAfter, id, ih]
    split
    · rfl
    · split
      · rfl
      · rw [Option.map_map, Option.map_map]
        rfl

theorem modEvent_unlogged {f : Event → Event} (hf : ∀ e, f e.unlogged = (f e).unlogged) (l : List Event) (n : Nat) :
    modEvent (l.map Event.unlogged) n f = (modEvent l n f).map Event.unlogged := by
  rw [modEvent, modEvent, List.map_map, List.map_map]
  refine List.map_congr_left fun e _ => ?_
  have id : e.unlogged.id = e.id := rfl
  simp only [Function.comp, id, hf, apply_ite Event.unlogged]

/-- What an operation did, the marks of the as-run entries left aside. -/
def PlDone.unlogged (r : PlDone) : PlDone := { r with list := r.list.map Event.unlogged }

theorem checkDesc_unlogged {f : Family} {b : Nat} {d : RawDesc} {a : Accepted} (h : checkDesc f b d = .ok a) :
    a.event.unlogged = a.event := by
  unfold checkDesc at h
  repeat' split at h
  all_goals cases h
  all_goals rfl

/-- R23 to R28: no operation of the store reads the mark. -/
theorem plApply_unlogged (v : PlEnv) (l : List Event) (free : Nat) (o : PlOp) :
    plApply v (l.map Event.unlogged) free o = (plApply v l free o).map PlDone.unlogged := by
  have found : ∀ n, findEvent (l.map Event.unlogged) n = (findEvent l n).map Event.unlogged := fun n => find?_unlogged (fun _ => rfl) l
  cases o with
  | insert pred d =>
    simp only [plApply, plInsert]
    cases e : checkDesc v.family v.baseDay d with
    | error st => rfl
    | ok a =>
      have new := checkDesc_unlogged e
      have known : (l.map Event.unlogged).any (fun e => e.id == d.id) = l.any fun e => e.id == d.id := by
        rw [List.any_map]
        rfl
      simp only [splitAfter_unlogged, known, List.length_map, List.map_eq_nil_iff]
      cases splitAfter l pred with
      | none => rfl
      | some x =>
        have frozen : frozenAfter (x.2.map Event.unlogged) = frozenAfter x.2 := by
          rw [frozenAfter, frozenAfter, find?_unlogged (fun _ => rfl), Option.map_map]
          rfl
        have bare : ∀ t, ({ a.event with cue := .skipped, rstart := t, rend := t } : Event).unlogged =
            { a.event with cue := .skipped, rstart := t, rend := t } := fun t =>
          congrArg (fun e : Event => { e with cue := .skipped, rstart := t, rend := t }) new
        have placed : (if a.event.rule = .follow then { a.event with rstart := v.floor } else a.event : Event).unlogged =
            if a.event.rule = .follow then { a.event with rstart := v.floor } else a.event := by
          rw [apply_ite Event.unlogged, new]
          exact congrArg (fun x : Event => if a.event.rule = .follow then x else a.event)
            (congrArg (fun e : Event => { e with rstart := v.floor }) new)
        simp only [Option.map_some, frozen, apply_ite (Except.map PlDone.unlogged)]
        cases frozenAfter x.2 <;>
          simp only [Except.map, PlDone.unlogged, List.map_append, List.map_cons, bare, placed]
  | replace d =>
    simp only [plApply, plReplace, found]
    cases e : checkDesc v.family v.baseDay d with
    | error st => rfl
    | ok a =>
      cases findEvent l d.id with
      | none => rfl
      | some old =>
        have cue : old.unlogged.cue = old.cue := rfl
        simp only [Option.map_some, cue]
        cases old.cue
        case done | skipped => rfl
        case pending =>
          have new : ∀ e : Event, e.unlogged.replaced a.event = (e.replaced a.event).unlogged := fun o =>
            (congrArg (fun e : Event => { e with rstart := o.rstart, rend := o.rend }) (checkDesc_unlogged e)).symm
          simp only [modEvent_unlogged (f := fun o => o.replaced a.event) new]
          rfl
        all_goals
          simp only [modEvent_unlogged (f := fun e => { e with duration := frozenDuration v old.unlogged d.duration }) fun _ => rfl]
          rfl
  | delete n =>
    simp only [plApply, plDelete, found]
    cases findEvent l n with
    | none => rfl
    | some old =>
      have cue : old.unlogged.cue = old.cue := rfl
      have removed : (l.map Event.unlogged).filter (fun e => e.id != n) = (l.filter fun e => e.id != n).map Event.unlogged := by
        rw [List.filter_map]
        rfl
      simp only [Option.map_some, cue, removed, modEvent_unlogged (fun e => Event.cutAt_unlogged e v.floor)]
      cases old.cue <;> rfl
  | empty =>
    rw [plApply, plApply, List.length_map]
    rfl

/-- R29: nor does an operation list. -/
theorem plAfter_unlogged {v : PlEnv} {l l' k : List Event} {free free' : Nat} {os : List PlOp} (h : plAfter v l free os = some (l', free'))
    (same : k.map Event.unlogged = l.map Event.unlogged) :
    ∃ k', plAfter v k free os = some (k', free') ∧ k'.map Event.unlogged = l'.map Event.unlogged := by
  induction os generalizing l k free with
  | nil =>
    cases h
    exact ⟨k, rfl, same⟩
  | cons o os ih =>
    rw [plAfter] at h
    split at h
    · next r hr =>
      have both : (plApply v k free o).map PlDone.unlogged = (plApply v l free o).map PlDone.unlogged := by
        rw [← plApply_unlogged, ← plApply_unlogged, same]
      rw [hr] at both
      cases e : plApply v k free o with
      | error st =>
        rw [e] at both
        cases both
      | ok r' =>
        rw [e] at both
        have lists : r'.unlogged = r.unlogged := Except.ok.inj both
        have count : r'.free = r.free := (congrArg PlDone.free lists :)
        have step : plAfter v k free (o :: os) = plAfter v r'.list r.free os := by rw [plAfter, e, ← count]
        rw [step]
        exact ih h (congrArg PlDone.list lists :)
    · cases h

theorem plApply_error_unlogged {v : PlEnv} {l k : List Event} {free : Nat} {o : PlOp} {st : Status} (h : plApply v l free o = .error st)
    (same : k.map Event.unlogged = l.map Event.unlogged) : plApply v k free o = .error st := by
  have both : (plApply v k free o).map PlDone.unlogged = (plApply v l free o).map PlDone.unlogged := by
    rw [← plApply_unlogged, ← plApply_unlogged, same]
  rw [h] at both
  cases e : plApply v k free o with
  | error st' =>
    rw [e] at both
    cases both
    rfl
  | ok r =>
    rw [e] at both
    cases both

/-- R66: nor do the deferred groups. -/
theorem Deferred.unlogged {v : PlEnv} {window : Nat} {l l' k : List Event} {free : Nat} {gs : List (List HoldEntry)}
    {r : Option (Status × Nat)} (d : Deferred v window l free gs l' r) (same : k.map Event.unlogged = l.map Event.unlogged) :
    ∃ k', Deferred v window k free gs k' r ∧ k'.map Event.unlogged = l'.map Event.unlogged := by
  induction d generalizing k with
  | all => exact ⟨k, .all, same⟩
  | group done _ ih =>
    obtain ⟨k', done', same'⟩ := plAfter_unlogged done same
    obtain ⟨k'', rest, same''⟩ := ih (k := resolveList window v.floor k') (by
      rw [← resolveList_unlogged, same', resolveList_unlogged])
    exact ⟨k'', .group done' rest, same''⟩
  | refused split done refuses =>
    obtain ⟨k', done', same'⟩ := plAfter_unlogged done same
    exact ⟨k, .refused split done' (plApply_error_unlogged refuses same'), same⟩

/-! ## Groups (R64, R66) -/

/-- R64: the groups that a deferred list falls into: a lone record, or the records of one batch mark. -/
inductive Grouped : List (List HoldEntry) → Prop
  | nil : Grouped []
  | lone {h : HoldEntry} {gs : List (List HoldEntry)} (single : h.mark = none) (rest : Grouped gs) : Grouped ([h] :: gs)
  | batch {g : List HoldEntry} {gs : List (List HoldEntry)} {k : Nat} (filled : g ≠ []) (marked : ∀ h ∈ g, h.mark = some k)
      (next : ∀ h ∈ gs.flatten.head?, h.mark ≠ some k) (rest : Grouped gs) : Grouped (g :: gs)

theorem grouped_of {groups : List (List HoldEntry)}
    (form : ∀ g ∈ groups, (∃ h, g = [h] ∧ h.mark = none) ∨ (g ≠ [] ∧ ∃ k, ∀ h ∈ g, h.mark = some k))
    (apart : ∀ before g g' after, groups = before ++ g :: g' :: after → ∀ h ∈ g, ∀ h' ∈ g', h.mark = none ∨ h.mark ≠ h'.mark) :
    Grouped groups := by
  induction groups with
  | nil => exact .nil
  | cons g gs ih =>
    have rest : Grouped gs := ih (fun g' hg' => form g' (List.mem_cons_of_mem g hg')) fun before g₁ g₂ after split =>
      apart (g :: before) g₁ g₂ after (by rw [split]; rfl)
    rcases form g List.mem_cons_self with ⟨h, rfl, single⟩ | ⟨filled, k, marked⟩
    · exact .lone single rest
    · refine .batch filled marked (fun h hh => ?_) rest
      cases gs with
      | nil => cases hh
      | cons g' after =>
        obtain ⟨h', t, rfl⟩ : ∃ h' t, g' = h' :: t := by
          rcases form g' (List.mem_cons_of_mem g List.mem_cons_self) with ⟨h', rfl, -⟩ | ⟨full, -⟩
          · exact ⟨h', [], rfl⟩
          · exact List.exists_cons_of_ne_nil full
        obtain rfl : h' = h := by simpa using hh
        obtain ⟨e, t', rfl⟩ := List.exists_cons_of_ne_nil filled
        rcases apart [] _ _ after rfl e List.mem_cons_self h' List.mem_cons_self with none | differs
        · rw [marked e List.mem_cons_self] at none
          cases none
        · rw [marked e List.mem_cons_self] at differs
          exact differs.symm

/-- R66: the front of a deferred list is its first group. -/
theorem frontGroup_flatten {g : List HoldEntry} {gs : List (List HoldEntry)} (h : Grouped (g :: gs)) :
    frontGroup (g :: gs).flatten = (g, gs.flatten) ∧ g ≠ [] := by
  cases h with
  | lone single rest =>
    refine ⟨?_, List.cons_ne_nil _ _⟩
    simp only [List.flatten_cons, List.singleton_append, frontGroup, single]
  | @batch _ _ k filled marked next rest =>
    refine ⟨?_, filled⟩
    obtain ⟨e, t, rfl⟩ := List.exists_cons_of_ne_nil filled
    have all : ∀ h ∈ e :: t, (h.mark == some k) = true := fun h hh => beq_iff_eq.mpr (marked h hh)
    have stop : ∀ h ∈ gs.flatten.head?, ¬(h.mark == some k) = true := fun h hh same => next h hh (beq_iff_eq.mp same)
    have front : frontGroup ((e :: t) :: gs).flatten = (((e :: t) :: gs).flatten.takeWhile (fun h => h.mark == some k),
        ((e :: t) :: gs).flatten.dropWhile fun h => h.mark == some k) := by
      simp only [List.flatten_cons, List.cons_append, frontGroup, marked e List.mem_cons_self]
    rw [front, List.flatten_cons, List.takeWhile_append_of_pos all, List.dropWhile_append_of_pos all]
    cases later : gs.flatten with
    | nil => rw [List.takeWhile_nil, List.dropWhile_nil, List.append_nil]
    | cons h l =>
      have other : ¬(h.mark == some k) = true := stop h (by rw [later]; rfl)
      rw [List.takeWhile_cons_of_neg (p := fun h : HoldEntry => h.mark == some k) other,
        List.dropWhile_cons_of_neg (p := fun h : HoldEntry => h.mark == some k) other, List.append_nil]

theorem Grouped.rest {g : List HoldEntry} {gs : List (List HoldEntry)} (h : Grouped (g :: gs)) : Grouped gs := by
  cases h with
  | lone _ rest => exact rest
  | batch _ _ _ rest => exact rest

section
variable {p : Plant} {c : Chan} {g : List HoldEntry} {gs : List (List HoldEntry)}

/-- R66: a group is handed to the store as its operation list; a lone record is one operation. -/
theorem Plant.applyGroup_eq (h : Grouped (g :: gs)) :
    (∃ e, g = [e] ∧ (∀ q r, p.edit c e.content.op = .ok (q, r) → p.applyGroup c g = .ok q) ∧
      ∀ st, p.edit c e.content.op = .error st → p.applyGroup c g = .error (0, st)) ∨
    p.applyGroup c g = p.editList c (g.map fun h => h.content.op) := by
  cases h with
  | @lone e _ single rest =>
    exact Or.inl ⟨e, rfl, fun q r he => by rw [Plant.applyGroup, if_pos single, he],
      fun st he => by rw [Plant.applyGroup, if_pos single, he]⟩
  | @batch _ _ k filled marked next rest =>
    refine Or.inr ?_
    match g, filled with
    | [e], _ =>
      rw [Plant.applyGroup, if_neg (by rw [marked e List.mem_cons_self]; exact Option.some_ne_none k)]
      rfl
    | e :: e' :: t, _ => rfl

theorem Plant.applyGroup_ok {l : List Event} {free : Nat} (h : Grouped (g :: gs)) (sound : p.PoolSound)
    (quiet : p.Undisturbed c (g.map fun h => h.content.op))
    (after : plAfter (p.plEnv c) (p.chan c).playlist p.freeRecords (g.map fun h => h.content.op) = some (l, free)) :
    ∃ q, p.applyGroup c g = .ok q ∧
      p.Ran q c (g.map fun h => h.content.op) (resolveList (4 * (p.family c).fpd) (p.plEnv c).floor l) ∧ q.freeRecords = free := by
  rcases Plant.applyGroup_eq (p := p) (c := c) h with ⟨e, rfl, applies, -⟩ | applies
  · rw [List.map_singleton, plAfter] at after
    split at after
    · next done hd =>
      cases after
      obtain ⟨q, edits, ran⟩ := Plant.edit_ok hd
      rw [ran.quiet quiet] at edits
      refine ⟨q, applies q done edits, ran, ran.freeRecords sound ?_⟩
      rw [← plApply_records (sound.ids c) hd, ← length_idsOf (resolveList _ _ _), idsOf_resolveList, length_idsOf]
    · cases after
  · obtain ⟨q, edits, ran, count⟩ := Plant.editList_ok sound after
    rw [ran.quiet quiet] at edits
    exact ⟨q, applies.trans edits, ran, count⟩

theorem Plant.applyGroup_error {l : List Event} {free : Nat} {e : HoldEntry} {before after : List HoldEntry} {st : Status}
    (h : Grouped (g :: gs)) (split : g = before ++ e :: after)
    (done : plAfter (p.plEnv c) (p.chan c).playlist p.freeRecords (before.map fun h => h.content.op) = some (l, free))
    (refuses : plApply (p.plEnv c) l free e.content.op = .error st) : p.applyGroup c g = .error (before.length, st) := by
  rcases Plant.applyGroup_eq (p := p) (c := c) h with ⟨e', rfl, -, applies⟩ | applies
  · obtain ⟨rfl, rfl, rfl⟩ : before = [] ∧ e' = e ∧ after = [] := by
      cases before with
      | nil =>
        obtain ⟨rfl, rfl⟩ := List.cons.inj split
        exact ⟨rfl, rfl, rfl⟩
      | cons b before => simp at split
    cases done
    exact applies st (Plant.edit_error refuses)
  · rw [applies, split, List.map_append, List.map_cons, Plant.editList_error done refuses, List.length_map]

/-- R66: what a refusal makes of the plant as the operations before it leave it. -/
def Plant.refusedAt (p : Plant) (c : Chan) : Option (Status × Nat) → Plant
  | none => p
  | some x => p.goStale c .returnRefused (some x)

theorem Plant.applyDeferredN_ok {n : Nat} {q : Plant} (h : Grouped (g :: gs)) (e : p.applyGroup c g = .ok q) :
    Plant.applyDeferredN (n + 1) c (g :: gs).flatten p = Plant.applyDeferredN n c gs.flatten q := by
  obtain ⟨front, filled⟩ := frontGroup_flatten h
  rw [Plant.applyDeferredN, front]
  · simp only [e]
  · exact fun none => filled (List.append_eq_nil_iff.mp none).1

theorem Plant.applyDeferredN_error {n : Nat} {k : Nat} {st : Status} (h : Grouped (g :: gs)) (e : p.applyGroup c g = .error (k, st)) :
    Plant.applyDeferredN (n + 1) c (g :: gs).flatten p =
      p.goStale c .returnRefused (some (st, (g[k]?.map HoldEntry.seq).getD 0)) := by
  obtain ⟨front, filled⟩ := frontGroup_flatten h
  rw [Plant.applyDeferredN, front]
  · simp only [e]
  · exact fun none => filled (List.append_eq_nil_iff.mp none).1

/-- R66: the groups before the first refusal are carried out; where one is refused the replica becomes STALE there. -/
theorem Plant.applyDeferredN_ends {groups : List (List HoldEntry)} {list : List Event} {r : Option (Status × Nat)} {n free window : Nat}
    {v : PlEnv} {l : List Event} (d : Deferred v window l free groups list r) (hv : v = p.plEnv c) (hw : window = 4 * (p.family c).fpd)
    (hl : l = (p.chan c).playlist) (hf : free = p.freeRecords) (grouped : Grouped groups) (fuel : groups.flatten.length ≤ n)
    (sound : p.PoolSound) (quiet : p.Undisturbed c (groups.flatten.map fun h => h.content.op)) :
    ∃ m os, p.Ran m c os list ∧ Plant.applyDeferredN n c groups.flatten p = m.refusedAt c r := by
  induction d generalizing p n with
  | all =>
    refine ⟨p, [], hl ▸ .refl p c, ?_⟩
    cases n <;> rfl
  | @group l l' l'' free free' g gs r done rest ih =>
    rw [hv, hl, hf] at done
    have filled := (frontGroup_flatten grouped).2
    rw [List.flatten_cons, List.length_append] at fuel
    obtain ⟨n, rfl⟩ : ∃ k, n = k + 1 := ⟨n - 1, by have := List.length_pos_iff.mpr filled; omega⟩
    have first : p.Undisturbed c (g.map fun h => h.content.op) := quiet.imp id fun unhit o ho => unhit o (by
      rw [List.flatten_cons, List.map_append]
      exact List.mem_append_left _ ho)
    have later : p.Undisturbed c (gs.flatten.map fun h => h.content.op) := quiet.imp id fun unhit o ho => unhit o (by
      rw [List.flatten_cons, List.map_append]
      exact List.mem_append_right _ ho)
    obtain ⟨q, applies, ran, count⟩ := Plant.applyGroup_ok grouped sound first done
    obtain ⟨m, os, ran', ends⟩ := ih (n := n) (hv.trans ran.env.symm) (hw.trans (by rw [ran.family])) (by rw [ran.playlist, hw, hv])
      count.symm grouped.rest
      (by have := List.length_pos_iff.mpr filled; omega) ((Plant.applyGroup_bounded applies).pool sound) (ran.undisturbed later)
    exact ⟨m, _, ran.trans ran', (Plant.applyDeferredN_ok grouped applies).trans ends⟩
  | @refused l l' free free' g gs h before after st split done refuses =>
    rw [hv, hl, hf] at done
    rw [hv] at refuses
    have filled := (frontGroup_flatten grouped).2
    rw [List.flatten_cons, List.length_append] at fuel
    obtain ⟨n, rfl⟩ : ∃ k, n = k + 1 := ⟨n - 1, by have := List.length_pos_iff.mpr filled; omega⟩
    refine ⟨p, [], hl ▸ .refl p c, (Plant.applyDeferredN_error grouped (Plant.applyGroup_error grouped split done refuses)).trans ?_⟩
    rw [split, List.getElem?_append_right le_rfl, Nat.sub_self]
    rfl

/-- R66: the deferred entries of a channel, applied. -/
theorem Plant.applyDeferred_ends {groups : List (List HoldEntry)} {list : List Event} {r : Option (Status × Nat)}
    (d : Deferred (p.plEnv c) (4 * (p.family c).fpd) (p.chan c).playlist p.freeRecords groups list r) (grouped : Grouped groups)
    (held : p.hold.filter (fun h => h.channel == c && h.kind == .deferred) = groups.flatten) (sound : p.PoolSound)
    (quiet : p.Undisturbed c (groups.flatten.map fun h => h.content.op)) :
    ∃ m os, p.applyDeferred c = m.refusedAt c r ∧ (p.discard c fun h => h.kind == .deferred).Ran m c os list := by
  obtain ⟨u, hu⟩ : ∃ u, u = p.discard c fun h => h.kind == .deferred := ⟨_, rfl⟩
  have track : p.Tracked u c (p.chan c).replica := hu ▸ p.discard_tracked c _
  obtain ⟨m, os, ran, ends⟩ := Plant.applyDeferredN_ends (p := u) (c := c) (n := groups.flatten.length) d track.env.symm
    (by rw [track.family]) track.playlist.symm track.free.symm grouped le_rfl (track.pool sound) (track.undisturbed quiet)
  refine ⟨m, os, ?_, hu ▸ ran⟩
  rw [Plant.applyDeferred, Plant.deferredEntries, held, ← hu, ends]

end

end Sys2Proof.Machine
end

