-- ==== Sys2Proof/Proofs/Returns.lean ====
section
/-! PROOFS. The return switch (R172): what it writes of the channel, what it gives back of the ports, and the deferred records
applied there (R66). -/

namespace Sys2Proof.Machine

/-! ## The return switch in parts -/

/-- R165: the channel's open entry is closed at the return's frame. -/
def Plant.entryClosed (p : Plant) (c : Chan) (r : ReturnRec) : Plant :=
  match (p.chan c).openEntry with
  | some o => p.closeEntry c (p.exitAt c o.event r.tRet) r.tRet
  | none => p

/-- R172: the channel's switch taken to MAIN and its mode to SHADOW. -/
def Plant.handedOver (p : Plant) (c : Chan) (r : ReturnRec) : Plant :=
  let q := ((p.entryClosed c r).modChan c fun x =>
    { x with mode := .shadow, pendingSw := [], returnRec := some { r with state := .done } }).setSwitch c .main .retn
  if q.working c then q.modTake c fun k => { k with stage := .ended } else q

/-- R172: a join's lists are withdrawn from the port in use. -/
def Plant.unclaimed (p : Plant) (c : Chan) : Option PortNo → Plant
  | some i => p.modPort i fun y => y.withdrawLists c false
  | none => p

/-- R172: the channel on its primary port, waiting for no spare. -/
def Plant.unlisted (p : Plant) (c : Chan) (r : ReturnRec) : Plant :=
  (((p.handedOver c r).unclaimed c (p.chan c).portInUse).backToPrimary c).leaveQueue c

/-- R172: and a spare that it held given back. -/
def Plant.handedBack (p : Plant) (c : Chan) (r : ReturnRec) : Plant := (p.unlisted c r).releaseSpare c

/-- R172: the STOP that a COLD channel on its primary port leaves there. -/
def Plant.stopBehind (p q : Plant) (c : Chan) (r : ReturnRec) : Plant :=
  match p.config c with
  | some g =>
    if g.standby = Standby.cold ∧ ((p.chan c).portInUse.isSome && (p.chan c).portInUse == p.primary c) = true then
      q.handStop c g.primary (some (r.tRet + 1))
    else q
  | none => q

theorem Plant.returnSwitch_eq (p : Plant) (c : Chan) (r : ReturnRec) {q : Plant}
    (hq : q = p.stopBehind ((p.handedBack c r).applyDeferred c) c r) : p.returnSwitch c r =
      (q.notify .returnDone (some c) (u32 r.event ++ q.ctfBytes c r.tRet ++ u8 (q.chan c).replica.state.code)).wakeCue c := by
  rw [hq]
  rfl

/-- R166: the playlist, its event on air noted as logged. -/
def Channel.logged (x : Channel) : List Event :=
  match x.openEntry with
  | some o => loggedAs o.event x.playlist
  | none => x.playlist

/-- R172: a channel whose return has been made. -/
def Channel.handedOver (x : Channel) (r : ReturnRec) : Channel :=
  { x with
    mode := .shadow, switch := .main, pendingSw := [], returnRec := some { r with state := .done }, openEntry := none
    playlist := x.logged
    takeRec := x.takeRec.map fun k => if k.stage = .ended ∨ k.stage = .aborting then k else { k with stage := .ended } }

section
variable {p : Plant} {c : Chan} {r : ReturnRec} {x : Channel}

/-- R172: a join in progress ends with the return. -/
theorem Plant.wrote_endsJoin (y : Channel) (os : List Outgoing) :
    (if (p.wrote c y os).working c then (p.wrote c y os).modTake c fun k => { k with stage := .ended } else p.wrote c y os) =
      p.wrote c { y with takeRec := y.takeRec.map fun k =>
        if k.stage = .ended ∨ k.stage = .aborting then k else { k with stage := .ended } } os := by
  rw [Plant.modTake, Plant.wrote_modChan, Plant.working, Plant.stageOf, Plant.wrote_chan]
  obtain ⟨t, ht⟩ : ∃ t, t = y.takeRec := ⟨_, rfl⟩
  rw [← ht]
  cases t with
  | none => exact congrArg (fun t => p.wrote c { y with takeRec := t } os) ht.symm
  | some k =>
    have same : p.wrote c y os = p.wrote c { y with takeRec := some k } os := by rw [ht]
    cases e : k.stage <;> simp [e, same]

theorem Plant.entryClosed_wrote (hx : p.chan c = x) : ∃ closed, (x.openEntry = none → closed = []) ∧
    (∀ o ∈ closed, ∃ e, o = .asRun e) ∧ p.entryClosed c r = p.wrote c { x with openEntry := none, playlist := x.logged } closed := by
  have self := p.wrote_self c
  rw [hx] at self
  cases ho : x.openEntry with
  | none =>
    have list : x.logged = x.playlist := by rw [Channel.logged, ho]
    have empty : ({ x with openEntry := none, playlist := x.logged } : Channel) = x := by rw [list, ← ho]
    refine ⟨[], fun _ => rfl, fun _ h => absurd h List.not_mem_nil, ?_⟩
    rw [Plant.entryClosed, hx, ho, empty, self]
  | some o =>
    have closed := Plant.wrote_closeEntry (p := p) (c := c) (y := x) (os := []) (by rw [hx]) (by rw [hx]) ho (p.exitAt c o.event r.tRet)
      r.tRet
    rw [self] at closed
    refine ⟨[p.closing c o r.tRet (p.exitAt c o.event r.tRet)], fun h => absurd h (Option.some_ne_none o), fun _ h =>
      ⟨_, List.mem_singleton.mp h⟩, ?_⟩
    rw [Plant.entryClosed, hx, ho, Channel.logged, ho]
    exact closed

theorem Plant.handedOver_wrote (hx : p.chan c = x) : ∃ closed, (x.openEntry = none → closed = []) ∧
    (∀ o ∈ closed, ∃ e, o = .asRun e) ∧
    p.handedOver c r = p.wrote c (x.handedOver r) (closed ++ p.switched c { x with mode := .shadow } .main .retn) := by
  obtain ⟨closed, empty, entries, wrote⟩ := Plant.entryClosed_wrote (r := r) hx
  refine ⟨closed, empty, entries, ?_⟩
  simp only [Plant.handedOver, wrote]
  rw [Plant.wrote_modChan, Plant.wrote_setSwitch p c _ closed (by rw [hx]) (by rw [hx]), Plant.wrote_endsJoin]
  rfl

theorem Plant.unclaimed_chan (v : Plant) (c d : Chan) (o : Option PortNo) : (v.unclaimed c o).chan d = v.chan d := by
  cases o <;> rfl

theorem Plant.unclaimed_port (v : Plant) (c : Chan) (o : Option PortNo) (i : PortNo) :
    (v.unclaimed c o).port i = if o = some i then (v.port i).withdrawLists c false else v.port i := by
  cases o with
  | none => rfl
  | some j =>
    rw [Plant.unclaimed]
    rcases Decidable.em (j = i) with rfl | other
    · rw [if_pos rfl, Plant.port_modPort_same]
    · rw [if_neg (fun same => other (Option.some.inj same)), Plant.port_modPort_other _ _ (Ne.symm other)]

theorem Plant.unclaimed_fields (v : Plant) (c : Chan) (o : Option PortNo) : (v.unclaimed c o).hold = v.hold ∧
    (v.unclaimed c o).rest = v.rest ∧ (v.unclaimed c o).spareQueue = v.spareQueue ∧ (v.unclaimed c o).outbox = v.outbox := by
  cases o <;> exact ⟨rfl, rfl, rfl, rfl⟩

theorem Plant.unlisted_parts (hx : p.chan c = x) {q : Plant} (hq : q = p.unlisted c r) :
    q.chan c = { x.handedOver r with portInUse := p.primary c } ∧ p.OtherChans q c ∧ q.hold = p.hold ∧ q.rest = p.rest ∧
    q.spareQueue = p.spareQueue.filter (· != c) ∧ q.outbox = (p.handedOver c r).outbox ∧
    ∀ i, q.port i = if x.portInUse = some i then (p.port i).withdrawLists c false else p.port i := by
  obtain ⟨closed, -, -, wrote⟩ := Plant.handedOver_wrote (r := r) hx
  obtain ⟨v, hv⟩ : ∃ v, v = p.handedOver c r := ⟨_, rfl⟩
  have primary : v.primary c = p.primary c := by
    rw [hv, wrote, Plant.primary, Plant.config, Plant.wrote_chan, Plant.primary, Plant.config, hx]
    rfl
  have chan : v.chan c = x.handedOver r := by rw [hv, wrote, Plant.wrote_chan]
  have others : p.OtherChans v c := fun d hd => by
    rw [hv, wrote]
    exact p.chan_setChan_other _ hd
  have ports : ∀ i, v.port i = p.port i := fun i => by rw [hv, wrote]; rfl
  have rest : v.rest = p.rest := by rw [hv, wrote, Plant.wrote_rest]
  have hold : v.hold = p.hold := by rw [hv, wrote]; rfl
  have spares : v.spareQueue = p.spareQueue := by rw [hv, wrote]; rfl
  obtain ⟨hold', rest', spares', outbox'⟩ := v.unclaimed_fields c x.portInUse
  have primary' : (v.unclaimed c x.portInUse).primary c = p.primary c := by
    rw [Plant.primary, Plant.config, Plant.unclaimed_chan]
    exact primary
  rw [hq, Plant.unlisted, hx, ← hv]
  refine ⟨?_, fun d hd => ?_, hold'.trans hold, rest'.trans rest, congrArg _ (spares'.trans spares), outbox', fun i => ?_⟩
  · rw [Plant.leaveQueue_chan, Plant.backToPrimary, Plant.usePort, Plant.chan_modChan_same, Plant.unclaimed_chan, chan, primary']
  · rw [Plant.leaveQueue_chan, Plant.backToPrimary, Plant.usePort, Plant.chan_modChan_other _ _ hd, Plant.unclaimed_chan, others d hd]
  · rw [← ports]
    exact v.unclaimed_port c x.portInUse i

theorem Plant.stopBehind_plans (p q : Plant) (c : Chan) (r : ReturnRec) : (p.stopBehind q c r).plans = q.plans := by
  have hand : ∀ i t, (q.handStop c i t).plans = q.plans := fun i t => by
    simp [Plant.handStop, apply_ite Plant.plans, Plant.handList]
  rw [Plant.stopBehind]
  split
  · split
    · exact hand _ _
    · rfl
  · rfl

theorem Plant.stopBehind_store (p q : Plant) (c : Chan) (r : ReturnRec) : (p.stopBehind q c r).store = q.store := by
  rw [Plant.stopBehind]
  split
  · split
    · exact Plant.handStop_store q c _ _
    · rfl
  · rfl

end

/-! ## The deferred records at the return switch (R66) -/

section
variable {p m : Plant} {c : Chan}

/-- R55, R66: the replica after a refusal, where it takes records. -/
def Replica.refusedAt (y : Replica) : Option (Status × Nat) → Replica
  | none => y
  | some _ => if y.state = .current ∨ y.state = .gap then
      { y with state := .stale, batch := none, gapTimer := none, reloadTimer := some 0 } else y

theorem Plant.refusedAt_parts (m : Plant) (c : Chan) (r : Option (Status × Nat)) :
    (m.refusedAt c r).chan c = { m.chan c with replica := (m.chan c).replica.refusedAt r } ∧ m.OtherChans (m.refusedAt c r) c ∧
    (m.refusedAt c r).hold.Sublist m.hold ∧ (m.refusedAt c r).rest = m.rest ∧ (m.refusedAt c r).ports = m.ports ∧
    (m.refusedAt c r).spareQueue = m.spareQueue := by
  cases r with
  | none => exact ⟨rfl, fun _ _ => rfl, .refl _, rfl, rfl, rfl⟩
  | some x =>
    rcases Decidable.em ((m.chan c).replica.state = .current ∨ (m.chan c).replica.state = .gap) with tracks | waits
    · rw [Plant.refusedAt, Plant.goStale_eq tracks, Replica.refusedAt, if_pos tracks]
      exact ⟨m.chan_setChan_same c _, fun d hd => m.chan_setChan_other _ hd, List.filter_sublist, rfl, rfl, rfl⟩
    · rw [Plant.refusedAt, Plant.goStale, if_neg waits, Replica.refusedAt, if_neg waits]
      exact ⟨rfl, fun _ _ => rfl, .refl _, rfl, rfl, rfl⟩

theorem loggedAs_unlogged (n : Nat) (l : List Event) : (loggedAs n l).map Event.unlogged = l.map Event.unlogged := by
  rw [loggedAs, List.map_map]
  refine List.map_congr_left fun e _ => ?_
  simp only [Function.comp, apply_ite Event.unlogged]
  exact ite_self _

theorem Channel.logged_unlogged (x : Channel) : x.logged.map Event.unlogged = x.playlist.map Event.unlogged := by
  unfold Channel.logged
  split
  · exact loggedAs_unlogged _ _
  · rfl

theorem Channel.logged_ids (x : Channel) : idsOf x.logged = idsOf x.playlist := by
  have ids : ∀ l, idsOf l = idsOf (l.map Event.unlogged) := fun l => by
    rw [idsOf, idsOf, List.map_map]
    rfl
  rw [ids, x.logged_unlogged, ← ids]

theorem Plant.handedBack_store (p : Plant) (c : Chan) (r : ReturnRec) : (p.handedBack c r).store = p.store := by
  obtain ⟨chan, others, hold, -⟩ := Plant.unlisted_parts (p := p) (c := c) (r := r) rfl rfl
  rw [Plant.handedBack, Plant.releaseSpare_store]
  refine Plant.store_eq_iff.mpr ⟨fun d => ?_, hold⟩
  rcases Decidable.em (d = c) with rfl | hd
  · rw [chan]
    exact (p.chan d).logged_ids
  · rw [others d hd]

/-- R172: a channel with no due head, handed back. -/
theorem Plant.handedBack_chan {r : ReturnRec} (none : p.NoneDue c) :
    (p.handedBack c r).chan c = { (p.chan c).handedOver r with portInUse := p.primary c } := by
  obtain ⟨chan, -, -, -, spares, -⟩ := Plant.unlisted_parts (p := p) (c := c) (r := r) rfl rfl
  have due : (p.unlisted c r).NoneDue c := by
    rw [Plant.NoneDue, chan]
    exact none
  exact (Plant.releaseSpare_own due (by rw [spares]; simp)).trans chan

theorem Plant.handedBack_rest (p : Plant) (c : Chan) (r : ReturnRec) : (p.handedBack c r).rest = p.rest := by
  obtain ⟨-, -, -, rest, -⟩ := Plant.unlisted_parts (p := p) (c := c) (r := r) rfl rfl
  exact (Plant.releaseSpare_rest _ c).trans rest

/-- R141: a return that is due is made at the switch line. -/
theorem Plant.switchLine_returns {r : ReturnRec} (hm : (p.chan c).mode = .returning) (hr : (p.chan c).returnRec = some r)
    (hs : r.state = .pending) (due : r.tRet ≤ (p.chan c).now) : p.switchLine c = p.returnSwitch c r := by
  have now : (p.chan c).returnDue = true := (Channel.returnDue_iff _).mpr ⟨hm, r, hr, hs, due⟩
  simp only [Plant.switchLine, hr, now]

/-- R172: what the return switch leaves of the plant once the deferred records are applied: the playlists but for what the Cue
Sequencer changes, and the hold. -/
theorem Plant.returnSwitch_kept (p : Plant) (c : Chan) (r : ReturnRec) :
    (p.returnSwitch c r).plans = ((p.handedBack c r).applyDeferred c).plans ∧
    (p.returnSwitch c r).hold = ((p.handedBack c r).applyDeferred c).hold := by
  rw [Plant.returnSwitch_eq p c r rfl]
  refine ⟨?_, Plant.hold_of_store ?_⟩
  · rw [Plant.wakeCue_plans, Plant.notify_plans, Plant.stopBehind_plans]
  · rw [Plant.wakeCue_store, Plant.notify_store, Plant.stopBehind_store]

end

/-- Settles O31: the groups are applied one after another until a refusal (`Plant.applyDeferred_ends`); what the return switch does
before that leaves the playlist but for the mark of its as-run entries, which no operation reads. -/
theorem deferredAreApplied : Obligations.DeferredAreApplied := by
  unfold Obligations.DeferredAreApplied
  intro p c groups sound quiet held form apart
  have grouped := grouped_of form apart
  obtain ⟨u, hu⟩ : ∃ u, u = p.discard c fun h => h.kind == .deferred := ⟨_, rfl⟩
  have track : p.Tracked u c (p.chan c).replica := hu ▸ p.discard_tracked c _
  have hold : u.hold = p.hold.filter (fun h => !(h.channel == c && h.kind == .deferred)) := by rw [hu]; rfl
  refine ⟨fun list free done => ?_, fun before g after list free k hk list' free' st split current done part refuses => ?_, ?_⟩
  · have d := Deferred.of_plGroups (after := []) done .all
    rw [List.append_nil] at d
    obtain ⟨m, os, ends, ran⟩ := Plant.applyDeferred_ends d grouped held sound quiet
    rw [← hu] at ran
    rw [ends]
    exact ⟨ran.playlist, ran.replica.trans track.replica, ran.hold.trans hold, ran.outbox.trans (by rw [hu]; rfl),
      Plant.still_of_rest (ran.rest.trans track.rest), fun d hd => (ran.others d hd).trans (track.others d hd)⟩
  · have d := Deferred.of_plGroups (after := g :: after) done
      (.refused (h := g[k]) (before := g.take k) (after := g.drop (k + 1)) (by rw [List.getElem_cons_drop, List.take_append_drop]) part
        refuses)
    rw [← split] at d
    obtain ⟨m, os, ends, ran⟩ := Plant.applyDeferred_ends d grouped held sound quiet
    rw [← hu] at ran
    have replica := ran.replica.trans track.replica
    refine ⟨m, ends.trans (Plant.goStale_eq (by rw [replica]; exact current) _ _), ran.playlist, replica, ran.hold.trans hold,
      ran.outbox.trans (by rw [hu]; rfl), Plant.still_of_rest (ran.rest.trans track.rest),
      fun d hd => (ran.others d hd).trans (track.others d hd)⟩
  · rintro r x rfl hm hr hs due empty
    rw [Plant.switchLine_returns hm hr hs due]
    obtain ⟨plans, kept⟩ := p.returnSwitch_kept c r
    obtain ⟨v, hv⟩ : ∃ v, v = p.handedBack c r := ⟨_, rfl⟩
    have none : p.NoneDue c := Plant.noneDue_of_empty empty
    have chan : v.chan c = { (p.chan c).handedOver r with portInUse := p.primary c } := hv ▸ Plant.handedBack_chan none
    have store : v.store = p.store := hv ▸ p.handedBack_store c r
    have rest : v.rest = p.rest := hv ▸ p.handedBack_rest c r
    have config : v.config c = p.config c := (congrArg Channel.config chan :)
    have family : v.family c = p.family c := Plant.family_of_config config fun n => Plant.ref_of_rest rest n
    have env : v.plEnv c = p.plEnv c := by
      rw [Plant.plEnv, Plant.plEnv, family, Plant.lead_of_config config, chan]
      rfl
    have same : (v.chan c).playlist.map Event.unlogged = (p.chan c).playlist.map Event.unlogged := by
      rw [chan]
      exact (p.chan c).logged_unlogged
    obtain ⟨list, res, d⟩ := Deferred.total (v := p.plEnv c) (window := 4 * (p.family c).fpd) (p.chan c).playlist p.freeRecords groups
    obtain ⟨list', d', same'⟩ := d.unlogged same
    rw [← env, ← family, ← Plant.freeRecords_of_store store] at d'
    obtain ⟨m, os, ends, ran⟩ := Plant.applyDeferred_ends d grouped held sound quiet
    have idle : v.NoneDue c := Plant.noneDue_of_empty (by rw [chan]; exact empty)
    obtain ⟨m', os', ends', ran'⟩ := Plant.applyDeferred_ends d' grouped (by rw [Plant.hold_of_store store]; exact held)
      ((Plant.Bounded.of_store store).pool sound) (Or.inl idle)
    obtain ⟨own, -⟩ := m.refusedAt_parts c res
    obtain ⟨own', -, fewer, -⟩ := m'.refusedAt_parts c res
    rw [← hv, ends'] at plans kept
    have plan : ((p.returnSwitch c r).chan c).plan = ((m'.refusedAt c res).chan c).plan := congrFun plans c
    have replica : (m'.chan c).replica = (m.chan c).replica :=
      (ran'.replica.trans (congrArg Channel.replica chan :)).trans ran.replica.symm
    refine ⟨?_, ?_, fun h hh mine => ?_⟩
    · have lists : ((p.returnSwitch c r).chan c).playlist.map Event.plan = list'.map Event.plan := by
        rw [← ran'.playlist]
        exact (congrArg Channel.playlist plan :).trans (by rw [own']; rfl)
      have marks : ∀ l : List Event, l.map (fun e => { e.plan with asRun := false }) = (l.map Event.plan).map Event.unlogged := fun l => by
        rw [List.map_map]
        rfl
      have swap : ∀ l : List Event, (l.map Event.plan).map Event.unlogged = (l.map Event.unlogged).map Event.plan := fun l => by
        rw [List.map_map, List.map_map]
        rfl
      rw [marks, lists, swap, same', ← swap, ← marks, ends, own, ← ran.playlist]
    · refine (congrArg Channel.replica plan :).trans ?_
      rw [ends, own, own']
      exact congrArg (fun y : Replica => y.refusedAt res) replica
    · rw [kept] at hh
      have left := fewer.subset hh
      rw [ran'.hold] at left
      have away := (List.mem_filter.mp left).2
      intro kind
      simp [mine, kind] at away

end Sys2Proof.Machine
end

