-- ==== Sys2Proof/Proofs/Clocks.lean ====
section
/-! PROOFS. No work on channels and ports but the frame start and the day roll moves a channel's now or base day, and none but a release
to IDLE makes a channel that is not IDLE one that is (R1, R15, R17, R140, R177). -/

namespace Sys2Proof.Machine

/-- A channel's now, base day and configuration, and whether it is IDLE. -/
def Channel.clock (x : Channel) : Nat × Nat × Option ChannelConfig × Bool := (x.now, x.baseDay, x.config, x.mode == .idle)

/-- Those of every channel. -/
def Plant.clocks (p : Plant) : Chan → Nat × Nat × Option ChannelConfig × Bool := fun d => (p.chan d).clock

theorem Plant.clocks_of_chans {p q : Plant} (h : q.chans = p.chans) : q.clocks = p.clocks :=
  funext fun d => congrArg (fun v : Vector Channel 16 => v[d].clock) h

theorem Plant.clocks_of_plans {p q : Plant} (h : q.plans = p.plans) : q.clocks = p.clocks :=
  funext fun d =>
    (congrArg (fun y : Channel => (y.now, y.baseDay, y.config, y.mode == .idle)) (congrFun h d : (q.chan d).plan = (p.chan d).plan) :)

theorem Plant.modChan_clocks {p : Plant} {c : Chan} {f : Channel → Channel} (h : (f (p.chan c)).clock = (p.chan c).clock) :
    (p.modChan c f).clocks = p.clocks := by
  funext d
  rw [Plant.clocks, Plant.clocks, Plant.chan_modChan]
  split
  · next e => rw [e, h]
  · rfl

theorem Plant.foldl_clocks {α : Type} (f : Plant → α → Plant) (h : ∀ q a, (f q a).clocks = q.clocks) (l : List α) (p : Plant) :
    (l.foldl f p).clocks = p.clocks := by
  induction l generalizing p with
  | nil => rfl
  | cons a l ih => rw [List.foldl_cons, ih, h]

section
variable (p : Plant) (c : Chan) (i : PortNo)

/-! ## The parts of the plant -/

@[simp] theorem Plant.modPort_clocks (f : Port → Port) : (p.modPort i f).clocks = p.clocks := rfl
@[simp] theorem Plant.setPort_clocks (x : Port) : (p.setPort i x).clocks = p.clocks := rfl
@[simp] theorem Plant.mapPorts_clocks (f : Port → Port) : (p.mapPorts f).clocks = p.clocks := rfl
@[simp] theorem Plant.emit_clocks (o : Outgoing) : (p.emit o).clocks = p.clocks := rfl
@[simp] theorem Plant.notify_clocks (k : NoticeKind) (d : Option Chan) (b : List Byte) : (p.notify k d b).clocks = p.clocks := rfl
@[simp] theorem Plant.setRef_clocks (r : RefId) (x : Reference) : (p.setRef r x).clocks = p.clocks := by cases r <;> rfl
@[simp] theorem Plant.tickFree_clocks : p.tickFree.clocks = p.clocks := rfl
@[simp] theorem Plant.leaveQueue_clocks : (p.leaveQueue c).clocks = p.clocks := rfl
@[simp] theorem Plant.discard_clocks (which : HoldEntry → Bool) : (p.discard c which).clocks = p.clocks := rfl
@[simp] theorem Plant.modEvent_clocks (n : Nat) (f : Event → Event) : (p.modEvent c n f).clocks = p.clocks := Plant.modChan_clocks rfl
@[simp] theorem Plant.resolve_clocks : (p.resolve c).clocks = p.clocks := Plant.modChan_clocks rfl

/-! ## The Cue Sequencer and the arbiters -/

@[simp] theorem Plant.withdrawCue_clocks (which : StepEntry → Bool) : (p.withdrawCue c which).clocks = p.clocks := rfl

@[simp] theorem Plant.cueEffect_clocks (old : List Event) (o : PlOp) : (p.cueEffect c old o).clocks = p.clocks :=
  funext fun d => by
    have ran := p.cueEffect_ran c old o
    rcases Decidable.em (d = c) with rfl | hd
    · exact (congrArg Channel.clock ran.own :)
    · exact congrArg Channel.clock (ran.others d hd)

@[simp] theorem Plant.closeEntry_clocks (exit : ExitKind) (t : Nat) : (p.closeEntry c exit t).clocks = p.clocks := by
  unfold Plant.closeEntry
  split
  · rfl
  · exact (Plant.modEvent_clocks _ _ _ _).trans (Plant.modChan_clocks rfl)

@[simp] theorem Plant.openEntryFor_clocks (n t : Nat) (kind : EntryKind) (port : Option PortNo) :
    (p.openEntryFor c n t kind port).clocks = p.clocks := by
  unfold Plant.openEntryFor
  split
  · exact (Plant.modChan_clocks rfl).trans (Plant.closeEntry_clocks ..)
  · exact Plant.modChan_clocks rfl

@[simp] theorem Plant.joinEntry_clocks (n t : Nat) (kind : EntryKind) (port : Option PortNo) :
    (p.joinEntry c n t kind port).clocks = p.clocks := by
  unfold Plant.joinEntry
  repeat' split
  all_goals simp

@[simp] theorem Plant.airingEntry_clocks (halted : Bool) (e : Event) : (p.airingEntry c halted e).clocks = p.clocks := by
  simp only [Plant.airingEntry]
  repeat' split
  all_goals simp

@[simp] theorem Plant.doneEntry_clocks (stepped : Bool) (e : Event) : (p.doneEntry c stepped e).clocks = p.clocks := by
  unfold Plant.doneEntry
  repeat' split
  all_goals simp

@[simp] theorem Plant.renewIssuing_clocks : (p.renewIssuing c).clocks = p.clocks := Plant.modChan_clocks rfl

@[simp] theorem Plant.clearHalt_clocks : (p.clearHalt c).clocks = p.clocks := by
  unfold Plant.clearHalt
  split
  · exact (Plant.modChan_clocks (by rfl) : (p.modChan c fun x => { x with seq := { x.seq with halted := false } }).clocks = p.clocks)
  · rfl

@[simp] theorem Plant.decideSwitch_clocks (pos : SwitchPos) (frame : Nat) (cause : SwitchCause) (act : SwAct) :
    (p.decideSwitch c pos frame cause act).clocks = p.clocks := Plant.modChan_clocks rfl

@[simp] theorem Plant.sequence_clocks : (p.sequence c).clocks = p.clocks := by
  have queued : ((p.renewIssuing c).enqueueDue c).clocks = p.clocks := (Plant.modChan_clocks rfl).trans (p.renewIssuing_clocks c)
  unfold Plant.sequence
  split
  · exact (Plant.clocks_of_plans (Plant.takeHeads_plans _ c)).trans queued
  · exact (Plant.modChan_clocks rfl).trans queued

@[simp] theorem Plant.arbitrate_clocks : (p.arbitrate i).clocks = p.clocks := Plant.clocks_of_plans (p.arbitrate_plans i)
@[simp] theorem Plant.settlePort_clocks : (p.settlePort i).clocks = p.clocks := Plant.clocks_of_plans (p.settlePort_plans i)
@[simp] theorem Plant.wakeCue_clocks : (p.wakeCue c).clocks = p.clocks := Plant.clocks_of_plans (p.wakeCue_plans c)
@[simp] theorem Plant.wakeAfter_clocks (q : Plant) : (p.wakeAfter q c).clocks = q.clocks := Plant.clocks_of_plans (p.wakeAfter_plans q c)
@[simp] theorem Plant.writeLast_clocks (o : DevOutcome) : (p.writeLast c o).clocks = p.clocks := Plant.clocks_of_plans
  (p.writeLast_plans c o)
@[simp] theorem Plant.cueOutcome_clocks (s : StepEntry) (o : DevOutcome) : (p.cueOutcome c s o).clocks = p.clocks :=
  Plant.clocks_of_plans (p.cueOutcome_plans c s o)

@[simp] theorem Plant.moveCue_clocks (stepped : Bool) (n : Nat) : (p.moveCue c stepped n).clocks = p.clocks := by
  have drops : ∀ (q : Plant) (k : Nat), (q.modChan c fun x => x.dropEntries k).clocks = q.clocks := fun q k => Plant.modChan_clocks rfl
  simp only [Plant.moveCue, Plant.finishIfEnded, Plant.tellIfEmpty, Plant.setCue, Plant.tellEmpty]
  repeat' split
  all_goals simp [drops]

@[simp] theorem Plant.moveCues_clocks (stepped : Bool) : (p.moveCues c stepped).clocks = p.clocks :=
  (Plant.modChan_clocks rfl).trans (Plant.foldl_clocks _ (fun q n => q.moveCue_clocks c stepped n) _ _)

@[simp] theorem Plant.retire_clocks : (p.retire c).clocks = p.clocks := by
  have one : ∀ (q : Plant) (e : Event), (q.retireOne c e).clocks = q.clocks := fun q e => by
    simp only [Plant.retireOne, Plant.retireEntries]
    rw [Plant.mapPorts_clocks, Plant.modChan_clocks, Plant.modChan_clocks]
    · split <;> rfl
    · rfl
    · rfl
  simp only [Plant.retire]
  split
  · rfl
  · exact (Plant.modChan_clocks rfl).trans (Plant.foldl_clocks _ one _ _)

@[simp] theorem Plant.flushCue_clocks : (p.flushCue c).clocks = p.clocks :=
  (Plant.withdrawCue_clocks _ c _).trans (Plant.modChan_clocks rfl)

@[simp] theorem Plant.cursorTo_clocks (n : Option Nat) : (p.cursorTo c n).clocks = p.clocks := Plant.modChan_clocks rfl

@[simp] theorem Plant.startLocalRec_clocks : (p.startLocalRec c).clocks = p.clocks := Plant.modChan_clocks rfl

@[simp] theorem Plant.cueJoin_clocks (n offset t : Nat) : (p.cueJoin c n offset t).clocks = p.clocks :=
  by
  simp [Plant.cueJoin]

@[simp] theorem Plant.cueBridge_clocks (t : Nat) : (p.cueBridge c t).clocks = p.clocks := by simp [Plant.cueBridge]

@[simp] theorem Plant.cueAdopt_clocks (n : Nat) : (p.cueAdopt c n).clocks = p.clocks := by
  simp [Plant.cueAdopt]

@[simp] theorem Plant.handList_clocks (l : CmdList) : (p.handList i l).clocks = p.clocks := by simp [Plant.handList]

@[simp] theorem Plant.handStop_clocks (t : Option Nat) : (p.handStop c i t).clocks = p.clocks := by
  simp [Plant.handStop, apply_ite Plant.clocks]

@[simp] theorem Plant.requestSpare_clocks : (p.requestSpare c).1.clocks = p.clocks := by
  unfold Plant.requestSpare
  repeat' split
  all_goals rfl

/-! ## The Changeover Unit -/

@[simp] theorem Plant.usePort_clocks (o : Option PortNo) : (p.usePort c o).clocks = p.clocks := Plant.modChan_clocks rfl
@[simp] theorem Plant.modTake_clocks (f : TakeRec → TakeRec) : (p.modTake c f).clocks = p.clocks := Plant.modChan_clocks rfl
@[simp] theorem Plant.cancelJoinSwitch_clocks : (p.cancelJoinSwitch c).clocks = p.clocks := Plant.modChan_clocks rfl
@[simp] theorem Plant.noteCover_clocks : (p.noteCover c).clocks = p.clocks := Plant.modChan_clocks rfl
@[simp] theorem Plant.leaveServer_clocks : (p.leaveServer c).clocks = p.clocks := by
  rw [Plant.leaveServer_eq]
  refine Plant.modChan_clocks ?_
  unfold Channel.markCut
  split <;> rfl

@[simp] theorem Plant.setSwitch_clocks (pos : SwitchPos) (cause : SwitchCause) : (p.setSwitch c pos cause).clocks = p.clocks := by
  simp only [Plant.setSwitch]
  split
  · rfl
  · exact (Plant.modChan_clocks (by rfl) : (p.modChan c fun x => { x with switch := pos }).clocks = p.clocks)

@[simp] theorem Plant.coldJoin_clocks (now0 : Nat) (stage : Stage) : (p.coldJoin c i now0 stage).clocks = p.clocks := by
  simp only [Plant.coldJoin, Plant.bridgeAt, Plant.joinOn, Plant.keepBridge]
  repeat' split
  all_goals simp

@[simp] theorem Plant.localJoinOn_clocks : (p.localJoinOn c i).clocks = p.clocks := by
  simp [Plant.localJoinOn]

@[simp] theorem Plant.spareFreed_clocks : (p.spareFreed i).clocks = p.clocks := by
  simp only [Plant.spareFreed, Plant.spareGranted, Plant.lend]
  repeat' split
  all_goals simp

@[simp] theorem Plant.releaseSpare_clocks : (p.releaseSpare c).clocks = p.clocks := by
  unfold Plant.releaseSpare
  split <;> simp

@[simp] theorem Plant.backToPrimary_clocks : (p.backToPrimary c).clocks = p.clocks := p.usePort_clocks c _

@[simp] theorem Plant.tellFailed_clocks (k : NoticeKind) (kind : TakeKind) (r : FailReason) :
    (p.tellFailed c k kind r i).clocks = p.clocks := rfl

@[simp] theorem Plant.tryPrimary_clocks : (p.tryPrimary c).clocks = p.clocks := by
  unfold Plant.tryPrimary
  repeat' split
  all_goals simp

@[simp] theorem Plant.noFurtherPort_clocks (r : FailReason) (t : Nat) (drop : Bool) : (p.noFurtherPort c i r t drop).clocks = p.clocks := by
  simp [Plant.noFurtherPort, Plant.failRecord, apply_ite Plant.clocks]

theorem Plant.requestSpare_clocks_of {q : Plant} {o : Option PortNo} (h : p.requestSpare c = (q, o)) : q.clocks = p.clocks := by
  have asked := p.requestSpare_clocks c
  rwa [h] at asked

@[simp] theorem Plant.askSpare_clocks (r : FailReason) (t : Nat) (after : Bool) : (p.askSpare c i r t after).clocks = p.clocks := by
  simp only [Plant.askSpare, Plant.failedAfterSwitch, Plant.failRecord]
  split
  · next h => split <;> split <;> simp [p.requestSpare_clocks_of c h]
  · next h => simp [p.requestSpare_clocks_of c h]

@[simp] theorem Plant.joinFail_clocks (r : FailReason) : (p.joinFail c i r).clocks = p.clocks := by
  simp [Plant.joinFail, apply_ite Plant.clocks]

@[simp] theorem Plant.portLost_clocks : (p.portLost c i).clocks = p.clocks := by
  have anew : ∀ {u q : Plant} {o : Option PortNo}, u.spareAnew c = (q, o) → q.clocks = u.clocks := fun {u q o} h => by
    unfold Plant.spareAnew at h
    split at h
    · cases h
      rfl
    · exact u.requestSpare_clocks_of c h
  simp only [Plant.portLost, Plant.failRecord]
  split
  · next h =>
    simp only [Plant.localJoinOn_clocks, Plant.tellFailed_clocks, Plant.usePort_clocks, anew h]
    repeat' split
    all_goals simp
  · next h =>
    simp only [Plant.wakeCue_clocks, Plant.tryPrimary_clocks, Plant.tellFailed_clocks, Plant.usePort_clocks, anew h]
    repeat' split
    all_goals simp

@[simp] theorem Plant.localJoin_clocks : (p.localJoin c i).clocks = p.clocks := by simp [Plant.localJoin, apply_ite Plant.clocks]

@[simp] theorem Plant.takePath_clocks : (p.takePath c).clocks = p.clocks := by
  unfold Plant.takePath
  repeat' split
  all_goals simp [Plant.turnToSpare]

@[simp] theorem Plant.verifyOutcome_clocks (o : DevOutcome) : (p.verifyOutcome c i o).clocks = p.clocks := by
  simp only [Plant.verifyOutcome, Plant.turnToSpare]
  repeat' split
  all_goals simp

@[simp] theorem Plant.pointDone_clocks : (p.pointDone c i).clocks = p.clocks := by
  simp only [Plant.pointDone]
  repeat' split
  all_goals simp

@[simp] theorem Plant.listOutcome_clocks (purpose : Purpose) (live : Bool) (cmd : DevCmd) (o : DevOutcome) :
    (p.listOutcome c i purpose live cmd o).clocks = p.clocks := by
  simp only [Plant.listOutcome]
  repeat' split
  all_goals simp

@[simp] theorem Plant.cutOnFiller_clocks (before : SwitchPos) : (p.cutOnFiller c before).clocks = p.clocks := by
  simp only [Plant.cutOnFiller]
  repeat' split
  all_goals simp

@[simp] theorem Plant.toFiller_clocks (cause : SwitchCause) : (p.toFiller c cause).clocks = p.clocks := by simp [Plant.toFiller]

@[simp] theorem Plant.adoptFailed_clocks (r : AdoptReason) : (p.adoptFailed c r).clocks = p.clocks := by
  have dropped : (p.modChan c fun x => { x with adoption := none }).clocks = p.clocks := Plant.modChan_clocks rfl
  simp [Plant.adoptFailed, dropped]

@[simp] theorem Plant.follow_clocks : (p.follow c).clocks = p.clocks := by
  unfold Plant.follow
  split <;> simp

@[simp] theorem Plant.serveClaim_clocks : (p.serveClaim i).clocks = p.clocks := by
  have timed : ∀ n q, (Plant.timeoutClaims n i q).clocks = q.clocks := fun n => by
    induction n with
    | zero => exact fun _ => rfl
    | succ n ih =>
      intro q
      simp only [Plant.timeoutClaims]
      repeat' split
      all_goals simp [ih]
  simp only [Plant.serveClaim]
  split <;> simp [timed]

/-! ## Modes -/

theorem Plant.clock_idle {q : Plant} {d : Chan} (h : q.clocks = p.clocks) : (q.chan d).mode = .idle ↔ (p.chan d).mode = .idle := by
  have idle : ((q.chan d).mode == .idle) = ((p.chan d).mode == .idle) := congrArg (·.2.2.2) (congrFun h d)
  rw [← beq_iff_eq, idle, beq_iff_eq]

theorem Plant.setMode_clocks {m : Mode} (hm : m ≠ .idle) (busy : (p.chan c).mode ≠ .idle) : (p.setMode c m).clocks = p.clocks :=
  Plant.modChan_clocks (by rw [Channel.clock, Channel.clock, beq_false_of_ne busy, beq_false_of_ne hm])

/-- What a channel's own decision does, where its mode is one of several that are not IDLE. -/
theorem Plant.modChan_clocks_busy {f : Channel → Channel} (busy : (p.chan c).mode ≠ .idle)
    (h : ((f (p.chan c)).now, (f (p.chan c)).baseDay, (f (p.chan c)).config) =
      ((p.chan c).now, (p.chan c).baseDay, (p.chan c).config)) (hm : (f (p.chan c)).mode ≠ .idle) :
    (p.modChan c f).clocks = p.clocks := by
  injection h with now h
  injection h with day config
  refine Plant.modChan_clocks ?_
  rw [Channel.clock, Channel.clock, now, day, config, beq_false_of_ne busy, beq_false_of_ne hm]

@[simp] theorem Plant.enterLocal_clocks : (p.enterLocal c).clocks = p.clocks := by
  unfold Plant.enterLocal
  split
  · next h => exact p.setMode_clocks c (by decide) (by rw [h]; decide)
  · rfl

theorem Plant.beginTake_clocks (kind : TakeKind) (o : TakeOption) (busy : (p.chan c).mode ≠ .idle) :
    (p.beginTake c kind o).clocks = p.clocks := by
  simp only [Plant.beginTake, Plant.takePath_clocks, apply_ite Plant.clocks, Plant.decideSwitch_clocks, ite_self, Plant.clearHalt_clocks]
  exact Plant.modChan_clocks_busy p c busy rfl nofun

theorem Plant.beginConfirm_clocks (demoted : Bool) (busy : (p.chan c).mode ≠ .idle) : (p.beginConfirm c demoted).clocks = p.clocks := by
  simp only [Plant.beginConfirm, Plant.notify_clocks]
  exact Plant.modChan_clocks_busy p c busy rfl nofun

theorem Plant.leaveConfirm_clocks (r : WithholdReason) (busy : (p.chan c).mode ≠ .idle) : (p.leaveConfirm c r).clocks = p.clocks := by
  simp only [Plant.leaveConfirm, Plant.withhold, Plant.notify_clocks]
  exact Plant.modChan_clocks_busy p c busy rfl nofun

@[simp] theorem Plant.expireConfirm_clocks : (p.expireConfirm c).clocks = p.clocks := by
  unfold Plant.expireConfirm
  split
  · split
    · next h =>
      have busy : (p.chan c).mode ≠ .idle := by rw [h.1]; decide
      split
      · exact p.leaveConfirm_clocks c _ busy
      · exact p.beginTake_clocks c _ _ busy
    · rfl
  · rfl

theorem Plant.trigger_clocks (busy : (p.chan c).mode ≠ .idle) : (p.trigger c).clocks = p.clocks := by
  unfold Plant.trigger
  split
  · rfl
  · split
    · rfl
    · split
      · exact p.beginConfirm_clocks c _ busy
      · exact p.beginTake_clocks c _ _ busy
    · exact p.beginConfirm_clocks c _ busy

theorem Plant.cancelReturn_clocks (why : CancelReason) (busy : (p.chan c).mode ≠ .idle) : (p.cancelReturn c why).clocks = p.clocks := by
  simp only [Plant.cancelReturn]
  split
  · rfl
  · have left : ∀ (m : Plant) (r : ReturnRec), m.chan c = p.chan c → m.clocks = p.clocks →
        (m.modChan c fun x => { x with mode := .onLocal, returnRec := some r }).clocks = p.clocks := fun m r own kept =>
      (Plant.modChan_clocks_busy m c (by rwa [own]) rfl Mode.noConfusion).trans kept
    split
    · unfold Plant.logAtReturn
      split
      · split
        · rw [Plant.airingEntry_clocks]
          exact left _ _ rfl rfl
        · exact left _ _ rfl rfl
      · exact left _ _ rfl rfl
    · exact left _ _ rfl rfl

@[simp] theorem Plant.healthReport_clocks (before after : Health) : (p.healthReport c before after).clocks = p.clocks := by
  have busy : ∀ {m : Mode}, (p.chan c).mode = m → m ≠ .idle → (p.chan c).mode ≠ .idle := fun h hm => by rwa [h]
  unfold Plant.healthReport
  split
  · rfl
  · split
    · split
      · next h => exact p.trigger_clocks c (busy h (by decide))
      · next h => exact p.cancelReturn_clocks c _ (busy h (by decide))
      · rfl
    · split
      · split
        · next h => exact p.leaveConfirm_clocks c _ (busy h (by decide))
        · exact Plant.modChan_clocks (by rfl)
        · rfl
      · rfl

/-! ## A channel's frame start -/

@[simp] theorem Plant.watchFrame_clocks : (p.watchFrame c).clocks = p.clocks := by
  have watched : (p.evaluateWatch c).clocks = p.clocks := by
    simp only [Plant.evaluateWatch]
    split
    · rfl
    · split
      · exact Plant.modChan_clocks (by rfl)
      · rw [Plant.tellHealth, Plant.notify_clocks]
        exact Plant.modChan_clocks (by rfl)
  rw [Plant.watchFrame, Plant.healthReport_clocks, watched]

@[simp] theorem Plant.watchAndExpiry_clocks : (p.watchAndExpiry c).clocks = p.clocks := by
  unfold Plant.watchAndExpiry
  split
  · split
    · split <;> simp
    · simp
  · simp

@[simp] theorem Plant.serveClaims_clocks : (p.serveClaims c).clocks = p.clocks :=
  Plant.foldl_clocks _ (fun q i => q.serveClaim_clocks i) _ _

@[simp] theorem Plant.sequenceFrame_clocks : (p.sequenceFrame c).clocks = p.clocks := by
  simp only [Plant.sequenceFrame]
  split <;> simp

@[simp] theorem Plant.cuesAndRetirement_clocks (stepped : Bool) : (p.cuesAndRetirement c stepped).clocks = p.clocks := by
  simp only [Plant.cuesAndRetirement]
  split
  · simp
  · split <;> simp

@[simp] theorem Plant.latchLine_clocks : (p.latchLine c).clocks = p.clocks := by
  unfold Plant.latchLine
  split
  · exact Plant.modChan_clocks (by rfl)
  · rfl

theorem Plant.channelFrame_clocks (step : Option Int) :
    (Plant.channelFrame step p c).clocks = (Plant.beginFrame step p c).clocks := by
  simp [Plant.channelFrame]

/-! ## The switch line -/

@[simp] theorem Plant.endOnBridge_clocks (t : Nat) (r : BridgeReason) : (p.endOnBridge c t r).clocks = p.clocks := by
  simp only [Plant.endOnBridge]
  split <;> simp [Plant.tellBridge]

@[simp] theorem Plant.joinLine_clocks : (p.joinLine c).clocks = p.clocks := by
  simp only [Plant.joinLine]
  repeat' split
  all_goals simp [Plant.tellDone, Plant.withdrawJoin]

@[simp] theorem Plant.failLine_clocks (r : FailReason) : (p.failLine c i r).clocks = p.clocks := by
  simp only [Plant.failLine]
  repeat' split
  all_goals simp

theorem Plant.adopt_clocks (a : Adoption) (busy : (p.chan c).mode ≠ .idle) : (p.adopt c a).clocks = p.clocks := by
  have adopted := Plant.modChan_clocks_busy (f := fun x => { x with adoption := none, mode := .onLocal }) p c busy rfl nofun
  simp only [Plant.adopt]
  repeat' split
  all_goals simp [adopted]

@[simp] theorem Plant.modReplica_clocks (f : Replica → Replica) : (p.modReplica c f).clocks = p.clocks := Plant.modChan_clocks rfl

@[simp] theorem Plant.goStale_clocks (r : ReplicaReason) (refused : Option (Status × Nat)) : (p.goStale c r refused).clocks = p.clocks := by
  simp only [Plant.goStale]
  split
  · simp [Plant.tellReplica, Plant.sendBack]
  · rfl

@[simp] theorem Plant.awaitBase_clocks : (p.awaitBase c).clocks = p.clocks :=
by
  simp [Plant.awaitBase, Plant.sendBack, Plant.clearReplica]

theorem Plant.plRun_clocks {o : PlOp} {done : PlDone} {q : Plant} (h : p.plRun c o = .ok (q, done)) : q.clocks = p.clocks := by
  simp only [Plant.plRun] at h
  split at h
  · cases h
  · cases h
    rw [Plant.cueEffect_clocks]
    exact Plant.modChan_clocks (by rfl)

theorem Plant.plRunAll_clocks (ops : List PlOp) : (p.plRunAll c ops).clocks = p.clocks := by
  induction ops generalizing p with
  | nil => rfl
  | cons o ops ih =>
    simp only [Plant.plRunAll]
    split
    · exact ih p
    · next h => exact (ih _).trans (p.plRun_clocks c h)

theorem Plant.edit_clocks {o : PlOp} {done : PlDone} {q : Plant} (h : p.edit c o = .ok (q, done)) : q.clocks = p.clocks := by
  simp only [Plant.edit, Plant.plOne] at h
  split at h
  · cases h
  · next one =>
    cases h
    split at one
    · cases one
    · next ran =>
      cases one
      rw [Plant.wakeAfter_clocks, Plant.resolve_clocks, p.plRun_clocks c ran]

theorem Plant.editList_clocks {ops : List PlOp} {q : Plant} (h : p.editList c ops = .ok q) : q.clocks = p.clocks := by
  simp only [Plant.editList, Plant.plList] at h
  split at h
  · cases h
  · next listed =>
    cases h
    split at listed
    · cases listed
    · cases listed
      rw [Plant.wakeAfter_clocks, Plant.resolve_clocks, p.plRunAll_clocks]

theorem Plant.applyGroup_clocks {g : List HoldEntry} {q : Plant} (h : p.applyGroup c g = .ok q) : q.clocks = p.clocks := by
  unfold Plant.applyGroup at h
  split at h
  · split at h
    · split at h
      · next edited =>
        cases h
        exact p.edit_clocks c edited
      · cases h
    · exact p.editList_clocks c h
  · exact p.editList_clocks c h

theorem Plant.applyDeferredN_clocks (n : Nat) (l : List HoldEntry) : (Plant.applyDeferredN n c l p).clocks = p.clocks := by
  induction n generalizing p l with
  | zero => rfl
  | succ n ih =>
    cases l with
    | nil => rfl
    | cons x t =>
      simp only [Plant.applyDeferredN]
      split
      · next h => exact (ih _ _).trans (p.applyGroup_clocks c h)
      · exact p.goStale_clocks c _ _

@[simp] theorem Plant.applyDeferred_clocks : (p.applyDeferred c).clocks = p.clocks :=
  (Plant.applyDeferredN_clocks _ c _ _).trans (p.discard_clocks c _)

theorem Plant.returnSwitch_clocks (r : ReturnRec) (busy : (p.chan c).mode ≠ .idle) : (p.returnSwitch c r).clocks = p.clocks := by
  have handed : ∀ (m : Plant) (t : ReturnRec), (m.chan c).mode ≠ .idle →
      (m.modChan c fun x => { x with mode := .shadow, pendingSw := [], returnRec := some t }).clocks = m.clocks := fun m t hm =>
    Plant.modChan_clocks_busy m c hm rfl Mode.noConfusion
  have closed : ∀ (exit : ExitKind) (t : Nat), ((p.closeEntry c exit t).chan c).mode ≠ .idle := fun exit t h =>
    busy ((Plant.clock_idle p (p.closeEntry_clocks c exit t)).mp h)
  simp only [Plant.returnSwitch]
  repeat' split
  all_goals simp [handed, closed, busy]

/-! ## Releases to IDLE -/

/-- The channel is as it was in its clock, or IDLE with no adoption; the other channels are as they were in theirs. -/
def Plant.Timed (p : Plant) (c : Chan) (q : Plant) : Prop :=
  (∀ d ≠ c, q.clocks d = p.clocks d) ∧ (q.clocks c = p.clocks c ∨ (q.chan c).mode = .idle ∧ (q.chan c).adoption = none)

theorem Plant.timed_of_clocks {q : Plant} (h : q.clocks = p.clocks) : p.Timed c q := ⟨fun d _ => congrFun h d, .inl (congrFun h c)⟩

theorem Plant.modChan_clocks_other {d : Chan} (f : Channel → Channel) (h : d ≠ c) : (p.modChan c f).clocks d = p.clocks d := by
  rw [Plant.clocks, Plant.clocks, Plant.chan_modChan, if_neg h]

theorem Plant.clearChannel_idles : (∀ d ≠ c, (p.clearChannel c).clocks d = p.clocks d) ∧
    ((p.clearChannel c).chan c).mode = .idle ∧ ((p.clearChannel c).chan c).adoption = none := by
  obtain ⟨q, kept, cleared⟩ : ∃ q : Plant, q.clocks = (p.setMode c .idle).clocks ∧
      p.clearChannel c = ((q.setChan c { Channel.reset with switch := (p.chan c).switch }).emit (.dropBack c)).emit (.clearMissed c) := by
    refine ⟨_, ?_, rfl⟩
    simp only [Plant.discard_clocks, Plant.withdrawCue_clocks]
    split <;> simp [Plant.disown]
  rw [cleared]
  refine ⟨fun d hd => ?_, ?_⟩
  · have others : (q.setChan c { Channel.reset with switch := (p.chan c).switch }).chan d = q.chan d := q.chan_setChan_other _ hd
    rw [Plant.emit_clocks, Plant.emit_clocks, Plant.clocks, others]
    exact (congrFun kept d).trans (p.modChan_clocks_other c _ hd)
  · have own : (q.setChan c { Channel.reset with switch := (p.chan c).switch }).chan c = _ := q.chan_setChan_same c _
    exact ⟨congrArg Channel.mode own, congrArg Channel.adoption own⟩

theorem Plant.releaseLine_timed : p.Timed c (p.releaseLine c) := by
  have freed : (p.modChan c fun x => { x with release := none }).clocks = p.clocks := Plant.modChan_clocks rfl
  unfold Plant.releaseLine
  split
  · exact p.timed_of_clocks c rfl
  · split
    · exact p.timed_of_clocks c rfl
    · next orphaned =>
      have busy : ((p.modChan c fun x => { x with release := none }).chan c).mode ≠ .idle := fun idle => by
        rw [Plant.clock_idle p freed] at idle
        rw [idle] at orphaned
        exact orphaned (by decide)
      split
      · exact p.timed_of_clocks c (by simp [freed])
      · refine p.timed_of_clocks c ?_
        rw [apply_ite Plant.clocks, Plant.tellReplica, Plant.notify_clocks, ite_self, Plant.awaitBase_clocks, Plant.backToPrimary_clocks,
          Plant.setSwitch_clocks, Plant.setMode_clocks _ c (by decide) busy, freed]
      · obtain ⟨others, own⟩ := Plant.clearChannel_idles
          ((((p.modChan c fun x => { x with release := none }).setMode c .idle).setSwitch c .main .release)) c
        refine ⟨fun d hd => (others d hd).trans ?_, .inr own⟩
        rw [Plant.setSwitch_clocks, Plant.setMode, Plant.modChan_clocks_other _ c _ hd, freed]

theorem Plant.makeSwitch_idle (w : PendingSw) (h : (p.chan c).mode = .idle) : p.makeSwitch c w = p := by
  have stands : p.releaseLine c = p := by
    unfold Plant.releaseLine
    split
    · rfl
    · exact if_pos (by rw [h]; decide)
  simp only [Plant.makeSwitch, h, stands]
  split <;> rfl

theorem Plant.makeSwitch_timed (w : PendingSw) : p.Timed c (p.makeSwitch c w) := by
  by_cases idle : (p.chan c).mode = .idle
  · exact p.timed_of_clocks c (by rw [p.makeSwitch_idle c w idle])
  · simp only [Plant.makeSwitch]
    split
    case h_7 => exact p.releaseLine_timed c
    all_goals refine p.timed_of_clocks c ?_
    all_goals split
    all_goals simp [Plant.setMode_clocks, idle]

theorem Plant.adoptLine_clocks (busy : (p.chan c).mode ≠ .idle) : (p.adoptLine c).clocks = p.clocks := by
  simp only [Plant.adoptLine]
  split
  · rfl
  · split
    · exact p.adopt_clocks c _ busy
    · exact p.adoptFailed_clocks c _

section
variable {p c} {q m : Plant}

theorem Plant.Timed.kept (h : p.Timed c q) (k : m.clocks = q.clocks)
    (adopts : (q.chan c).mode = .idle → (m.chan c).adoption = (q.chan c).adoption) :
    p.Timed c m := by
  obtain ⟨others, own⟩ := h
  refine ⟨fun d hd => (congrFun k d).trans (others d hd), own.imp (congrFun k c).trans fun ⟨idle, unadopted⟩ => ?_⟩
  exact ⟨(Plant.clock_idle q k).mpr idle, (adopts idle).trans unadopted⟩

/-- What a channel does next that is in its clock while it is not IDLE, and nothing once it is IDLE with no adoption. -/
theorem Plant.Timed.next (busy : (p.chan c).mode ≠ .idle) (h : p.Timed c q) (going : (q.chan c).mode ≠ .idle → q.Timed c m)
    (gone : (q.chan c).mode = .idle → (q.chan c).adoption = none → m = q) : p.Timed c m := by
  by_cases idle : (q.chan c).mode = .idle
  · have own : (q.chan c).mode = .idle ∧ (q.chan c).adoption = none := h.2.resolve_left fun kept =>
      busy ((beq_iff_eq (b := Mode.idle)).mp ((congrArg (·.2.2.2) kept).symm.trans ((beq_iff_eq (b := Mode.idle)).mpr idle)))
    rwa [gone own.1 own.2]
  · obtain ⟨others, own⟩ := going idle
    refine ⟨fun d hd => (others d hd).trans (h.1 d hd), own.imp_left fun kept => kept.trans (h.2.resolve_right fun gone => idle gone.1)⟩

end

theorem Plant.makeSwitches_timed (busy : (p.chan c).mode ≠ .idle) (l : List PendingSw) (q : Plant) (h : p.Timed c q) :
    p.Timed c (l.foldl (fun q w => q.makeSwitch c w) q) := by
  induction l generalizing q with
  | nil => exact h
  | cons w l ih =>
    exact ih _ (h.next busy (fun _ => q.makeSwitch_timed c w) fun idle _ => q.makeSwitch_idle c w idle)

/-- The switch line of a channel that is not IDLE. -/
theorem Plant.switchLine_timed (busy : (p.chan c).mode ≠ .idle) : p.Timed c (p.switchLine c) := by
  have late : ∀ f : Channel → List PendingSw, (p.modChan c fun x => { x with pendingSw := f x }).clocks = p.clocks :=
    fun f => Plant.modChan_clocks rfl
  simp only [Plant.switchLine]
  split
  · exact p.timed_of_clocks c (p.returnSwitch_clocks c _ busy)
  · split
    · exact p.timed_of_clocks c (by simp [late])
    · have made := (p.makeSwitches_timed c busy ((p.chan c).pendingSw.filter fun w => w.frame ≤ (p.chan c).now) _
        (p.timed_of_clocks c (late fun x => x.pendingSw.filter fun w => !decide (w.frame ≤ x.now))))
      have adopted := made.next busy (fun going => Plant.timed_of_clocks _ c (Plant.adoptLine_clocks _ c going))
        fun _ unadopted => by simp only [Plant.adoptLine, unadopted]
      split
      · next running =>
        exact adopted.kept (Plant.noteCover_clocks _ c) fun idle => by
          rw [idle] at running
          exact absurd running (by decide)
      · exact adopted

end

end Sys2Proof.Machine
end

