-- ==== Sys2Proof/Proofs/FrameStarts.lean ====
section
/-! PROOFS. The frame start of a channel and the end of a reference's frame: now by 1 and by the time step, and the roll at two days
(R1, R14, R15, R17). -/

namespace Sys2Proof.Machine

/-! ## A channel's frame start begins -/

/-- A channel whose now has come to n (R1, R15, R141). -/
def Channel.broughtTo (n : Nat) (x : Channel) : Channel :=
  { x with
    now := n, pendingSw := x.pendingSw.map fun w => if w.act = .joinLocal then w else { w with frame := min w.frame n } }

section
variable {p : Plant} {c : Chan} {step : Option Int} {n d : Nat}

theorem Plant.advanceNow_eq (h : (((p.chan c).now : Int) + 1 + step.getD 0).toNat = n) :
    p.advanceNow c step = p.setChan c ((p.chan c).broughtTo n) := by
  simp only [Plant.advanceNow, Plant.modChan, h]
  rfl

theorem Plant.family_setChan_same {x : Channel} (h : x.config = (p.chan c).config) : (p.setChan c x).family c = p.family c :=
  Plant.family_of_config ((congrArg Channel.config (p.chan_setChan_same c x)).trans h) (p.setChan_ref c x)

theorem Plant.beginFrame_early (h : (((p.chan c).now : Int) + 1 + step.getD 0).toNat = n) (early : n < 2 * (p.family c).fpd) :
    Plant.beginFrame step p c = (p.setChan c ((p.chan c).broughtTo n)).tellStep c step := by
  have own := p.chan_setChan_same c ((p.chan c).broughtTo n)
  have family : (p.setChan c ((p.chan c).broughtTo n)).family c = p.family c := Plant.family_setChan_same rfl
  rw [Plant.beginFrame, Plant.advanceNow_eq h, Plant.rollIfDue_stands (.inr (by rw [own, family]; exact early))]

theorem Plant.beginFrame_rolls (busy : (p.chan c).mode ≠ .idle) (h : (((p.chan c).now : Int) + 1 + step.getD 0).toNat = n)
    (late : 2 * (p.family c).fpd ≤ n) : ∃ q : Plant, Plant.beginFrame step p c = q.tellStep c step ∧
      q.outbox = p.outbox ++ [.notice ⟨.dayRolled, some c, u16 (((p.chan c).baseDay + 1) % 65536)⟩] ∧
      (q.chan c).now = n - (p.family c).fpd ∧ (q.chan c).baseDay = ((p.chan c).baseDay + 1) % 65536 ∧
      q.config c = p.config c ∧ q.family c = p.family c ∧ (q.chan c).mode = (p.chan c).mode ∧ ∀ o ≠ c, q.chan o = p.chan o := by
  obtain ⟨m, hm⟩ : ∃ m, m = p.setChan c ((p.chan c).broughtTo n) := ⟨_, rfl⟩
  have own : m.chan c = (p.chan c).broughtTo n := by rw [hm]; exact p.chan_setChan_same c _
  have family : m.family c = p.family c := by rw [hm]; exact Plant.family_setChan_same rfl
  have due : 2 * (m.family c).fpd ≤ (m.chan c).now := by rw [own, family]; exact late
  have going : (m.chan c).mode ≠ .idle := by rw [own]; exact busy
  have rolled := Plant.rollIfDue_chan going due
  refine ⟨m.rollIfDue c, by rw [Plant.beginFrame, Plant.advanceNow_eq h, hm], ?_, ?_, ?_, ?_, ?_, ?_, fun o ho => ?_⟩
  · rw [Plant.rollIfDue_due going due, Plant.rolled_chan, own, hm]
    rfl
  · rw [rolled, own, family]
    rfl
  · rw [rolled, own]
    rfl
  · rw [Plant.config, rolled, own]
    rfl
  · rw [← family]
    refine Plant.family_of_config ?_ fun r => ?_
    · rw [Plant.config, rolled]
      rfl
    · rw [Plant.rollIfDue_due going due]
      exact m.rolled_ref c r
  · rw [rolled, own]
    rfl
  · rw [Plant.rollIfDue_due going due]
    refine ((m.rolled c).resolve_other ho).trans ((m.rolled_other ho).trans ?_)
    rw [hm]
    exact p.chan_setChan_other _ ho

/-- R15: TIME STEP and the resolution, of a channel that has come to n. -/
theorem Plant.tellStep_brought (p : Plant) (c : Chan) (n : Nat) (δ : Int) :
    (p.setChan c ((p.chan c).broughtTo n)).tellStep c (some δ) =
      { p.setChan c { (p.chan c).broughtTo n with
          playlist := resolveList (4 * (p.family c).fpd) (n + p.lead c) (p.chan c).playlist } with
        outbox := p.outbox ++ [.notice ⟨.timeStep, some c, s32 δ ++ dayLabelBytes (dayLabelOf (p.family c) (p.chan c).baseDay n)⟩] } := by
  obtain ⟨m, hm⟩ : ∃ m, m = p.setChan c ((p.chan c).broughtTo n) := ⟨_, rfl⟩
  have own : m.chan c = (p.chan c).broughtTo n := by rw [hm]; exact p.chan_setChan_same c _
  have family : m.family c = p.family c := by rw [hm]; exact Plant.family_setChan_same rfl
  have lead : m.lead c = p.lead c := Plant.lead_of_config (by rw [Plant.config, own]; rfl)
  have told : m.tellStep c (some δ) = (m.resolve c).notify .timeStep (some c)
      (s32 δ ++ dayLabelBytes (dayLabelOf (m.family c) (m.chan c).baseDay (m.chan c).now)) := rfl
  rw [← hm, told, Plant.resolve, Plant.modChan, family, lead, own, hm, Plant.setChan_setChan]
  rfl

theorem Plant.tellStep_outbox (q : Plant) (δ : Int) :
    (q.tellStep c (some δ)).outbox = q.outbox ++ [.notice ⟨.timeStep, some c, s32 δ ++ q.ctfBytes c (q.chan c).now⟩] := rfl

theorem Plant.tellStep_clocks (q : Plant) : (q.tellStep c step).clocks = q.clocks := by
  unfold Plant.tellStep
  split <;> simp

end

/-! ## The clocks of a frame start -/

/-- What a frame start makes of a channel's now and base day, of a family with d frames a day. -/
def tick (step : Option Int) (d : Nat) (k : Nat × Nat × Option ChannelConfig × Bool) : Nat × Nat × Option ChannelConfig × Bool :=
  let n := ((k.1 : Int) + 1 + step.getD 0).toNat
  if n < 2 * d then (n, k.2.1, k.2.2) else (n - d, (k.2.1 + 1) % 65536, k.2.2)

theorem Plant.ticked {p q : Plant} {c : Chan} {step : Option Int} {d n : Nat} (h : q.clocks c = tick step d (p.clocks c))
    (hn : ((p.chan c).now : Int) + 1 + step.getD 0 = n) :
    (n < 2 * d → (q.chan c).now = n ∧ (q.chan c).baseDay = (p.chan c).baseDay) ∧
      (2 * d ≤ n → (q.chan c).now = n - d ∧ (q.chan c).baseDay = ((p.chan c).baseDay + 1) % 65536) := by
  have now : (((p.chan c).now : Int) + 1 + step.getD 0).toNat = n := by omega
  refine ⟨fun early => ?_, fun late => ?_⟩
  · rw [tick, if_pos (now ▸ early : _)] at h
    exact ⟨(congrArg (·.1) h).trans now, congrArg (·.2.1) h⟩
  · rw [tick, if_neg (Nat.not_lt.mpr (now ▸ late : _))] at h
    exact ⟨(congrArg (·.1) h).trans (congrArg (· - d) now), congrArg (·.2.1) h⟩

theorem Plant.beginFrame_clock {p : Plant} {c : Chan} (step : Option Int) (busy : (p.chan c).mode ≠ .idle) :
    (Plant.beginFrame step p c).clocks c = tick step (p.family c).fpd (p.clocks c) ∧
      ∀ o ≠ c, (Plant.beginFrame step p c).clocks o = p.clocks o := by
  by_cases early : (((p.chan c).now : Int) + 1 + step.getD 0).toNat < 2 * (p.family c).fpd
  · rw [Plant.beginFrame_early rfl early, Plant.tellStep_clocks]
    refine ⟨?_, fun o ho => congrArg Channel.clock (p.chan_setChan_other _ ho)⟩
    exact (congrArg Channel.clock (p.chan_setChan_same c _)).trans (if_pos early : tick step (p.family c).fpd (p.clocks c) = _).symm
  · obtain ⟨q, begun, _, now, day, config, _, mode, others⟩ := Plant.beginFrame_rolls busy rfl (Nat.not_lt.mp early)
    rw [begun, Plant.tellStep_clocks]
    refine ⟨?_, fun o ho => congrArg Channel.clock (others o ho)⟩
    refine Eq.trans ?_ (if_neg early : tick step (p.family c).fpd (p.clocks c) = _).symm
    rw [Plant.clocks, Channel.clock, now, day, mode]
    exact congrArg (fun g => (_, _, g, _)) config

theorem Plant.family_of_clock {p q : Plant} (r : q.rest = p.rest) {d : Chan} (h : q.clocks d = p.clocks d) : q.family d = p.family d :=
  Plant.family_of_config (congrArg (·.2.2.1) h) fun o => Plant.ref_of_rest r o

theorem Plant.idle_of_clock {p q : Plant} {d : Chan} (h : q.clocks d = p.clocks d) : (q.chan d).mode = .idle ↔ (p.chan d).mode = .idle := by
  have idle : ((q.chan d).mode == .idle) = ((p.chan d).mode == .idle) := congrArg (·.2.2.2) h
  rw [← beq_iff_eq, idle, beq_iff_eq]

theorem Plant.config_of_clock {p q : Plant} {d : Chan} (h : q.clocks d = p.clocks d) : q.config d = p.config d := congrArg (·.2.2.1) h

/-- R1: the frame starts of several channels, one after another: each moves once. -/
theorem Plant.channelFrames_clock (step : Option Int) (l : List Chan) (nodup : l.Nodup) (p : Plant)
    (busy : ∀ c ∈ l, (p.chan c).mode ≠ .idle)
    (d : Chan) : (l.foldl (Plant.channelFrame step) p).clocks d =
      if d ∈ l then tick step (p.family d).fpd (p.clocks d) else p.clocks d := by
  induction l generalizing p with
  | nil => simp
  | cons c l ih =>
    obtain ⟨fresh, nodup⟩ := List.nodup_cons.mp nodup
    obtain ⟨own, others⟩ := Plant.beginFrame_clock step (busy c List.mem_cons_self)
    rw [← Plant.channelFrame_clocks] at own others
    rw [List.foldl_cons, ih nodup _ fun o ho => ?_]
    · by_cases e : d = c
      · subst e
        rw [if_neg fresh, if_pos List.mem_cons_self, own]
      · rw [others d e, Plant.family_of_clock (Plant.channelFrame_rest step p c) (others d e)]
        simp [e]
    · rw [Ne, Plant.idle_of_clock (others o fun e => fresh (e ▸ ho))]
      exact busy o (List.mem_cons_of_mem c ho)

/-! ## The lines of a frame -/

/-- Every channel is as it was in its clock, but one of the reference may have gone to IDLE. -/
def Plant.Released (p : Plant) (r : RefId) (q : Plant) : Prop :=
  ∀ d, q.clocks d = p.clocks d ∨ ((q.chan d).mode = .idle ∧ ∃ g, p.config d = some g ∧ g.reference = r)

theorem Plant.Released.refl (p : Plant) (r : RefId) : p.Released r p := fun _ => .inl rfl

theorem Plant.released_of_clocks {p q : Plant} (r : RefId) (h : q.clocks = p.clocks) : p.Released r q := fun d => .inl (congrFun h d)

theorem Plant.Released.trans {p q m : Plant} {r : RefId} (h : p.Released r q) (k : q.Released r m) : p.Released r m := fun d => by
  rcases h d with kept | ⟨idle, bound⟩
  · refine (k d).imp (fun e => e.trans kept) fun ⟨idle, g, hg, hr⟩ => ⟨idle, g, (Plant.config_of_clock kept).symm.trans hg, hr⟩
  · refine .inr ⟨?_, bound⟩
    rcases k d with kept | gone
    · exact (Plant.idle_of_clock kept).mpr idle
    · exact gone.1

theorem Plant.switchLines_released (r : RefId) (line : Chan → Nat) (l : List Chan) (nodup : l.Nodup) (p : Plant)
    (bound : ∀ c ∈ l, (p.chan c).mode ≠ .idle ∧ ∃ g, p.config c = some g ∧ g.reference = r) :
    p.Released r (l.foldl (fun q c => (q.setRaised r (line c)).switchLine c) p) := by
  induction l generalizing p with
  | nil => exact .refl p r
  | cons c l ih =>
    obtain ⟨fresh, nodup⟩ := List.nodup_cons.mp nodup
    obtain ⟨busy, ofRef⟩ := bound c List.mem_cons_self
    have raised : (p.setRaised r (line c)).clocks = p.clocks := Plant.setRef_clocks _ r _
    obtain ⟨others, own⟩ := (p.setRaised r (line c)).switchLine_timed c (by rwa [Ne, Plant.clock_idle p raised])
    rw [raised] at others own
    refine Plant.Released.trans (q := (p.setRaised r (line c)).switchLine c) (fun d => ?_) (ih nodup _ fun o ho => ?_)
    · rcases Decidable.em (d = c) with rfl | e
      · exact own.imp_right fun gone => ⟨gone.1, ofRef⟩
      · exact .inl (others d e)
    · have kept := others o fun e => fresh (e ▸ ho)
      obtain ⟨busy, g, hg, hr⟩ := bound o (List.mem_cons_of_mem c ho)
      exact ⟨by rwa [Ne, Plant.idle_of_clock kept], g, (Plant.config_of_clock kept).trans hg, hr⟩

theorem Plant.raiseLines_released (p : Plant) (r : RefId) (upto : Nat) : p.Released r (p.raiseLines r upto) := by
  simp only [Plant.raiseLines]
  split
  · exact .refl p r
  · have order := (sortBy_perm (fun a b => decide ((p.chan a).lineInForce < (p.chan b).lineInForce))
      (p.inFreeOrder ((p.bound r).filter fun c =>
        decide ((p.ref r).raised < (p.chan c).lineInForce) && decide ((p.chan c).lineInForce ≤ upto)))).trans (p.inFreeOrder_perm _)
    have nodup : (p.lineChannels r upto).Nodup := order.nodup_iff.mpr ((allChans_nodup.filter _).filter _)
    refine (Plant.switchLines_released r (fun c => (p.chan c).lineInForce) _ nodup p fun c hc => ?_).trans
      (Plant.released_of_clocks r ((Plant.setRef_clocks _ r _).trans (Plant.tickFree_clocks _)))
    obtain ⟨g, hg, hr, hm⟩ := (p.mem_bound r c).mp (List.mem_of_mem_filter (order.mem_iff.mp hc))
    exact ⟨hm, g, hg, hr⟩

/-! ## The end of a reference's frame -/

/-- R13, R14: how many lines have been raised does not enter the examination of a label. -/
theorem Reference.examine_counters (x : Reference) (a b : Nat) (allowed : Int → Bool) :
    ({ x with raised := a, line := b } : Reference).examine allowed =
      ({ (x.examine allowed).1 with raised := a, line := b }, (x.examine allowed).2) := by
  obtain ⟨l, hl⟩ : ∃ l, x.goodLabel = l := ⟨_, rfl⟩
  have same : ({ x with raised := a, line := b } : Reference).goodLabel = l := hl
  simp only [Reference.examine, hl, same, Reference.offsetSeen, Reference.after]
  cases l <;> cases x.timeSet
  case some.true =>
    dsimp only
    repeat' split
    all_goals rfl
  all_goals rfl

theorem Plant.stepAllowed_iff (p : Plant) (r : RefId) (k : Int) : p.stepAllowed r k = true ↔
    ∀ c g, p.config c = some g → g.reference = r → (p.chan c).mode ≠ .idle →
      (((p.ref r).family.fpd / 2 : Nat) : Int) ≤ ((p.chan c).now : Int) + 1 + k := by
  simp only [Plant.stepAllowed, List.all_eq_true, decide_eq_true_eq, Plant.mem_bound]
  exact ⟨fun h c g hg hr hm => h c ⟨g, hg, hr, hm⟩, fun h c ⟨g, hg, hr, hm⟩ => h c g hg hr hm⟩

/-- The station time, the offset and the faulty labels of a reference. -/
def Reference.time (x : Reference) : Nat × Bool × Option Int × Nat × Bool := (x.station, x.timeSet, x.offset, x.offsetRun, x.faulty)

section
variable {p m : Plant} {r : RefId} {x y : Reference} {step : Option Int} {allowed : Int → Bool}

/-- R1, R14: the clocks and the station time at the end of a frame. -/
theorem Plant.endFrame_moves (hx : p.ref r = x) (hm : m = p.raiseLines r x.family.lines)
    (ha : ∀ k, allowed k = true ↔ ∀ c g, m.config c = some g → g.reference = r → (m.chan c).mode ≠ .idle →
      ((x.family.fpd / 2 : Nat) : Int) ≤ ((m.chan c).now : Int) + 1 + k)
    (he : x.examine allowed = (y, step)) (line length : Nat) :
    ((p.endFrame r line length).ref r).time = y.time ∧
      (∀ c g, m.config c = some g → g.reference = r → (m.chan c).mode ≠ .idle →
        (p.endFrame r line length).clocks c = tick step x.family.fpd (m.clocks c)) ∧
      ∀ c, (∀ g, m.config c = some g → g.reference ≠ r) → (p.endFrame r line length).clocks c = m.clocks c := by
  obtain ⟨a, b, raised, _⟩ := p.raiseLines_counters r x.family.lines
  rw [← hm, hx] at raised
  have family : (m.ref r).family = x.family := by rw [raised]
  have same : m.stepAllowed r = allowed := funext fun k => by
    rw [Bool.eq_iff_iff, Plant.stepAllowed_iff, ha, family]
  have examined : (m.ref r).examine (m.stepAllowed r) = ({ y with raised := a, line := b }, step) := by
    rw [same, raised, Reference.examine_counters, he]
  have ended : p.endFrame r line length = m.frameStart r line length := by rw [Plant.endFrame, hx, hm]
  have clocks : ∀ c, (p.endFrame r line length).clocks c =
      if c ∈ m.frameOrder r line length then tick step ((m.examined r line length).family c).fpd (m.clocks c) else m.clocks c := fun c => by
    have start : (m.examined r line length).clocks = m.clocks := Plant.clocks_of_chans (m.examined_chans r line length)
    rw [ended, Plant.frameStart_eq, examined, Plant.channelFrames_clock step _ (m.frameOrder_nodup r line length) _ fun c hc => ?_, start]
    rw [Plant.examined_chan]
    exact ((m.mem_frameOrder r line length c).mp hc).1
  refine ⟨?_, fun c g hg hr busy => ?_, fun c unbound => ?_⟩
  · rw [ended, Plant.frameStart_ref, examined]
    rfl
  · have fam : (m.examined r line length).family c = x.family := by
      have config : (m.examined r line length).config c = some g := (congrArg Channel.config (m.examined_chan r line length c)).trans hg
      simp only [Plant.family, config, hr, Plant.examined_ref, examined]
      have kept := (Reference.examine_keeps x allowed).1
      rw [he] at kept
      exact kept
    rw [clocks, if_pos ((m.mem_frameOrder r line length c).mpr ⟨busy, g, hg, hr⟩), fam]
  · rw [clocks, if_neg fun hc => ?_]
    obtain ⟨_, g, hg, hr⟩ := (m.mem_frameOrder r line length c).mp hc
    exact unbound g hg hr

/-- R1, R14: what a command that ends a frame leaves, whatever it then does to the reference's lock and lines. -/
theorem Plant.frameEnd_moves (hx : p.ref r = x) (hm : m = p.raiseLines r x.family.lines)
    (ha : ∀ k, allowed k = true ↔ ∀ c g, m.config c = some g → g.reference = r → (m.chan c).mode ≠ .idle →
      ((x.family.fpd / 2 : Nat) : Int) ≤ ((m.chan c).now : Int) + 1 + k)
    (he : x.examine allowed = (y, step)) {line length : Nat} {q : Plant}
    (time : (q.ref r).time = ((p.endFrame r line length).ref r).time) (released : (p.endFrame r line length).Released r q) :
    (q.ref r).station = y.station ∧ (q.ref r).timeSet = y.timeSet ∧ (q.ref r).offset = y.offset ∧ (q.ref r).offsetRun = y.offsetRun ∧
      (q.ref r).faulty = y.faulty ∧
      (∀ c g (t : Nat), m.config c = some g → g.reference = r → (m.chan c).mode ≠ .idle → (q.chan c).mode ≠ .idle →
        ((p.chan c).now : Int) + 1 + step.getD 0 = t →
        (t < 2 * x.family.fpd → (q.chan c).now = t ∧ (q.chan c).baseDay = (p.chan c).baseDay) ∧
        (2 * x.family.fpd ≤ t → (q.chan c).now = t - x.family.fpd ∧ (q.chan c).baseDay = ((p.chan c).baseDay + 1) % 65536)) ∧
      (∀ c, (∀ g, p.config c = some g → g.reference ≠ r) →
        (q.chan c).now = (p.chan c).now ∧ (q.chan c).baseDay = (p.chan c).baseDay) := by
  obtain ⟨sameTime, moved, stood⟩ := Plant.endFrame_moves hx hm ha he line length
  have lines : p.Released r m := by rw [hm]; exact p.raiseLines_released r _
  have sound := time.trans sameTime
  refine ⟨congrArg (·.1) sound, congrArg (·.2.1) sound, congrArg (·.2.2.1) sound, congrArg (·.2.2.2.1) sound, congrArg (·.2.2.2.2) sound,
    fun c g t hg hr busy still ht => ?_, fun c unbound => ?_⟩
  · have before : m.clocks c = p.clocks c := (lines c).resolve_right fun gone => busy gone.1
    have after := ((released c).resolve_right fun gone => still gone.1).trans (moved c g hg hr busy)
    rw [before] at after
    exact Plant.ticked after ht
  · have before : m.clocks c = p.clocks c := (lines c).resolve_right fun ⟨_, g, hg, hr⟩ => unbound g hg hr
    have free : ∀ g, m.config c = some g → g.reference ≠ r := by rwa [Plant.config_of_clock before]
    have ended := (stood c free).trans before
    have after := ((released c).resolve_right fun ⟨_, g, hg, hr⟩ =>
      unbound g ((Plant.config_of_clock ended).symm.trans hg) hr).trans ended
    exact ⟨congrArg (·.1) after, congrArg (·.2.1) after⟩

theorem Plant.modRef_clocks (f : Reference → Reference) : (p.modRef r f).clocks = p.clocks := Plant.setRef_clocks p r _

theorem Plant.missPulse_clocks : (p.missPulse r).clocks = p.clocks := by
  simp only [Plant.missPulse, Plant.tellReference]
  split <;> simp [Plant.modRef_clocks]

theorem Plant.missPulse_time : ((p.missPulse r).ref r).time = (p.ref r).time := by
  rcases Nat.lt_or_ge (p.ref r).miss 2 with h | h
  · rw [Plant.missPulse_counts h, Plant.ref_setRef_same]
    rfl
  · rw [Plant.missPulse_loses h, Plant.tellReference_ref, Plant.ref_setRef_same]
    rfl

theorem Plant.relock_moves (pos : Nat) :
    ((p.relock r pos).ref r).time = ((p.endFrame r 1 pos).ref r).time ∧ (p.endFrame r 1 pos).Released r (p.relock r pos) := by
  refine ⟨?_, Plant.released_of_clocks r (Plant.modRef_clocks _)⟩
  rw [Plant.relock, Plant.tellReference_ref, Plant.modRef_ref]
  rfl

theorem Plant.windowClose_moves (h : (p.ref r).lock = .locked) :
    ((p.windowClose r).ref r).time = ((p.endFrame r 9 (p.ref r).family.lines).ref r).time ∧
      (p.endFrame r 9 (p.ref r).family.lines).Released r (p.windowClose r) := by
  rw [Plant.windowClose_eq h, Plant.missPulse_time]
  obtain ⟨a, b, raised, _⟩ := (p.endFrame r 9 (p.ref r).family.lines).raiseLines_counters r 8
  refine ⟨by rw [raised]; rfl, (Plant.raiseLines_released _ r 8).trans (Plant.released_of_clocks r Plant.missPulse_clocks)⟩

end

/-- The commands that end a frame of a reference. -/
theorem exec_endsFrame (r : RefId) (cmd : Instr) (s : State) (x : Reference) (hx : s.plant.ref r = x)
    (h : (∃ pos, cmd = .framePulse r pos ∧ x.line ≤ pos + 1 ∧
        ((x.lock = .locked ∧ x.family.lines ≤ pos + 8 ∧ pos ≤ x.family.lines + 8) ∨
         (x.lock = .rephasing ∧ x.predicted ≤ pos + 8 ∧ pos ≤ x.predicted + 8) ∨
         (x.lock = .lost ∧ pos ≤ x.family.lines ∧ x.family.lines - pos ≤ pos ∧ x.run = 7 ∧
           ∃ o : Int, x.lastPulse = some o ∧ o + x.family.lines ≤ pos + 8 ∧ (pos : Int) ≤ o + x.family.lines + 8))) ∨
      (cmd = .pulseWindowClose r ∧ x.lock = .locked) ∨ (cmd = .rephaseWindowClose r ∧ x.lock = .rephasing) ∨
      (cmd = .crystalFrameEnd r ∧ x.lock = .lost)) :
    ∃ (q : Plant) (line length : Nat), exec cmd s = .next (s.passed q) ∧
      (q.ref r).time = ((s.plant.endFrame r line length).ref r).time ∧ (s.plant.endFrame r line length).Released r q := by
  subst hx
  rcases h with ⟨pos, rfl, h0, ⟨locked, h1, h2⟩ | ⟨rephasing, h1, h2⟩ | ⟨lost, hp, late, run, phase⟩⟩ | ⟨rfl, locked⟩ | ⟨rfl, rephasing⟩ |
    ⟨rfl, lost⟩
  · refine ⟨_, 1, pos, congrArg (Host.Outcome.next ∘ s.passed) (Plant.pulseAt_ends locked h0 h1 h2), ?_,
      Plant.released_of_clocks r (Plant.modRef_clocks _)⟩
    rw [Plant.modRef_ref]
    rfl
  · exact ⟨_, 1, pos, congrArg (Host.Outcome.next ∘ s.passed) (Plant.pulseAt_locks rephasing h0 h1 h2), Plant.relock_moves pos⟩
  · have eighth : ((s.plant.ref r).pulseLost pos).run = 8 := by
      rw [Reference.pulseLost, if_pos ((Reference.inPhase_iff _ _).mpr phase), run]
    have locks : s.plant.pulseAt r pos = s.plant.relock r pos := by
      rw [Plant.pulseAt_lost lost h0 hp, if_pos eighth]
      exact if_pos late
    exact ⟨_, 1, pos, congrArg (Host.Outcome.next ∘ s.passed) locks, Plant.relock_moves pos⟩
  · exact ⟨_, _, _, rfl, Plant.windowClose_moves locked⟩
  · refine ⟨_, 1, (s.plant.ref r).predicted + 8, congrArg (Host.Outcome.next ∘ s.passed)
    (if_pos rephasing : s.plant.rephaseClose r = _), ?_,
      Plant.released_of_clocks r (Plant.modRef_clocks _)⟩
    rw [Plant.modRef_ref]
    rfl
  · exact ⟨_, 1, (s.plant.ref r).family.lines, congrArg (Host.Outcome.next ∘ s.passed) (if_pos lost : s.plant.crystalEnd r = _), rfl,
      .refl _ r⟩

/-- R17: the report of a frame of the channel's timeline. -/
theorem Plant.ctfBytes_eq (p : Plant) (c : Chan) (t : Nat) :
    p.ctfBytes c t = dayLabelBytes (dayLabelOf (p.family c) (p.chan c).baseDay t) := rfl

/-- Settles O23: the channel's own frame start by its three steps, and a frame's end by the clocks of the channels. -/
theorem frameStartMovesNow : Obligations.FrameStartMovesNow := by
  refine ⟨?_, ?_, ?_⟩
  · rintro c step p q _ y n _ at' rfl rfl busy hn rfl report rfl
    have n' : (((p.chan c).now : Int) + 1 + step.getD 0).toNat = n := by omega
    refine ⟨fun early none => ?_, fun δ early some => ?_, fun late day hd => ?_⟩
    · rw [Plant.beginFrame_early n' early, none]
      rfl
    · rw [Plant.beginFrame_early n' early, some, report]
      exact p.tellStep_brought c n δ
    · obtain ⟨q, begun, told, now, day, _, family, _⟩ := Plant.beginFrame_rolls busy n' late
      rw [begun, hd]
      refine ⟨fun none => ?_, fun δ some => ?_⟩
      · rw [none, ← told]
        rfl
      · rw [some, Plant.tellStep_outbox, told, report, Plant.ctfBytes_eq, family, now, day, List.append_assoc]
        rfl
  · rintro c step p n _ rfl busy hn
    have clock := (Plant.beginFrame_clock step busy).1
    rw [← Plant.channelFrame_clocks] at clock
    obtain ⟨early, late⟩ := Plant.ticked clock hn
    exact ⟨early, late, Plant.still_of_rest (p.channelFrame_rest step c)⟩
  · rintro r cmd s x m _ hx rfl hm ends allowed ha y step he
    obtain ⟨q, line, length, run, time, released⟩ := exec_endsFrame r cmd s x hx ends
    exact ⟨q, run, Plant.frameEnd_moves hx hm ha he time released⟩

end Sys2Proof.Machine
end

