-- ==== Sys2Proof/Proofs/DeviceLines.lean ====
section
/-! PROOFS. The events of a device line: frames sent, replies, faults and timeouts, the outcomes they hand over, and the entry to DOWN
and the return from it (R95 to R103, R108, R111). -/

namespace Sys2Proof.Machine

/-! ## Where no command ends -/

section
variable {x : Port}

theorem Port.shiftDone_eq (x : Port) : x.shiftDone = { x with shift := x.holding.map ShiftItem.frame, holding := none } := by
  unfold Port.shiftDone
  split
  · next h => rw [h]; rfl
  · next h => rw [h]; rfl

theorem Port.handFrame_empty (h : x.shift = none) (bytes : List Byte) :
    x.handFrame bytes = { x with shift := some (.frame bytes), holding := none } := by
  simp only [Port.handFrame, h]

/-- R97, R103: the last character of a frame has left. -/
theorem Port.frameSent_sends {b : List Byte} (h : x.shift = some (.frame b)) : x.frameSent = { x with
    shift := x.holding.map ShiftItem.frame, holding := none,
    replyTimer := if x.state = .up ∧ x.outstanding ≠ none then some 0 else x.replyTimer,
    probeTimer := if x.state = .down ∧ x.outstanding ≠ none then some 0 else x.probeTimer } := by
  simp only [Port.frameSent, h, Port.shiftDone_eq]
  cases x.state <;> cases x.outstanding <;> rfl

theorem Port.frameSent_stands (h : ∀ b, x.shift ≠ some (.frame b)) : x.frameSent = x := by
  unfold Port.frameSent
  split
  · next e => exact absurd e (h _)
  · rfl

theorem Port.breakEnds_ends (h : x.shift = some .brk) : x.breakEnds =
    { x with shift := x.holding.map ShiftItem.frame, holding := none } := by
  simp only [Port.breakEnds, h, Port.shiftDone_eq]

theorem Port.breakEnds_stands (h : x.shift ≠ some .brk) : x.breakEnds = x := by
  unfold Port.breakEnds
  split
  · next e => exact absurd e h
  · rfl

theorem Port.probeAgain_probes (down : x.state = .down) (timer : x.probeTimer ≠ none) (h : x.shift = none) :
    x.probeAgain = { x with shift := some (.frame DevCmd.ask.frame), holding := none, probeTimer := none } := by
  rw [Port.probeAgain, if_pos ⟨down, Option.isSome_iff_ne_none.mpr timer⟩, Port.handFrame_empty h]

theorem Port.probeAgain_stands (h : x.state ≠ .down ∨ x.probeTimer = none) : x.probeAgain = x :=
  if_neg fun ⟨down, timer⟩ => h.elim (fun up => up down) fun idle => Option.isSome_iff_ne_none.mp timer idle

theorem Port.resend_empty (h : x.shift = none) (cmd : DevCmd) (failures : List FailKind) : x.resend cmd failures = { x with
    shift := some (.frame cmd.frame), holding := none, attempt := x.attempt + 1, failures := failures, replyTimer := none,
    tryTimeout := x.replyTimeout, tryRetries := x.retries } := by
  rw [Port.resend, Port.handFrame_empty h]

end

section
variable {p : Plant} {i : PortNo} {x : Port} {out : Outstanding}

theorem Plant.modPort_of (hx : p.port i = x) (f : Port → Port) : p.modPort i f = p.setPort i (f x) := by rw [Plant.modPort, hx]

theorem Plant.goodReply_off (h : (p.port i).state = .off) (r : DevReply) : p.goodReply i r = p := by
  simp only [Plant.goodReply, h, if_true]

/-- R98, R103: a good frame that nothing awaits. -/
theorem Plant.goodReply_unawaited (hx : p.port i = x) (r : DevReply)
    (h : (x.state = .up ∧ (x.outstanding = none ∨ x.replyTimer = none)) ∨ (x.state = .down ∧ x.probeTimer = none)) :
    p.goodReply i r = p.setPort i { x with rx := [] } := by
  have gathered := Plant.modPort_of hx fun x => { x with rx := [] }
  rcases h with ⟨up, out | timer⟩ | ⟨down, timer⟩
  · simp only [Plant.goodReply, hx, up, out, gathered, reduceCtorEq, if_false]
  · simp only [Plant.goodReply, hx, up, timer, gathered, reduceCtorEq, if_false, Option.isSome_none, Bool.false_eq_true]
    split <;> simp_all
  · simp only [Plant.goodReply, hx, down, timer, gathered, reduceCtorEq, if_false, Option.isSome_none, Bool.false_eq_true]

/-- R96, R99: a receive fault, and the attempt that fails with it. -/
theorem Plant.deviceFault_off (h : (p.port i).state = .off) (f : LineFault) (begun : Bool) (left : List Byte) :
    p.deviceFault i f begun left = p := by
  simp only [Plant.deviceFault, if_pos h]

theorem Plant.deviceFault_between (hx : p.port i = x) (on : x.state ≠ .off) (f : LineFault) (left : List Byte) :
    p.deviceFault i f false left = p.setPort i { x with flags := x.flags.mark f } := by
  simp only [Plant.deviceFault, hx, if_neg on, Plant.modPort_of hx, Bool.false_eq_true, false_and, if_false]

theorem Plant.deviceFault_unawaited (hx : p.port i = x) (f : LineFault) (left : List Byte)
    (h : x.state = .down ∨ (x.state = .up ∧ x.replyTimer = none)) :
    p.deviceFault i f true left = p.setPort i { x with flags := x.flags.mark f, rx := left } := by
  have on : x.state ≠ .off := by
    rcases h with h | ⟨h, _⟩ <;> rw [h] <;> decide
  have quiet : ¬(x.state = .up ∧ x.replyTimer.isSome = true) := fun ⟨up, timer⟩ => by
    rcases h with h | ⟨_, h⟩
    · rw [h] at up
      cases up
    · rw [h] at timer
      cases timer
  simp only [Plant.deviceFault, hx, if_neg on, Plant.modPort_of hx, true_and, if_neg quiet, if_true]

theorem Plant.deviceFault_fails (hx : p.port i = x) (up : x.state = .up) (timer : x.replyTimer ≠ none) (f : LineFault) (left : List Byte) :
    p.deviceFault i f true left = (p.setPort i { x with flags := x.flags.mark f, rx := left }).attemptFails i .garbled := by
  have on : x.state ≠ .off := by rw [up]; decide
  simp only [Plant.deviceFault, hx, if_neg on, Plant.modPort_of hx, if_true, true_and,
    if_pos (⟨up, Option.isSome_iff_ne_none.mpr timer⟩ : x.state = .up ∧ x.replyTimer.isSome = true)]

theorem Plant.replyExpired_stands (hx : p.port i = x) (h : x.state ≠ .up ∨ x.replyTimer = none) : p.replyExpired i = p := by
  refine if_neg fun ⟨up, timer⟩ => ?_
  rw [hx] at up timer
  exact h.elim (fun away => away up) fun idle => Option.isSome_iff_ne_none.mp timer idle

theorem Plant.replyExpired_fails (hx : p.port i = x) (up : x.state = .up) (timer : x.replyTimer ≠ none) :
    p.replyExpired i = p.attemptFails i .noReply :=
  if_pos (by rw [hx]; exact ⟨up, Option.isSome_iff_ne_none.mpr timer⟩)

/-! ## Failed attempts -/

theorem failedOutcome_garbled {l : List FailKind} (h : ∀ k ∈ l, k = .garbled) : failedOutcome (l ++ [.garbled]) = .lineError := by
  refine if_pos (List.all_eq_true.mpr fun k hk => ?_)
  rw [beq_iff_eq]
  exact (List.mem_append.mp hk).elim (h k) fun h => List.mem_singleton.mp h

theorem failedOutcome_noReply {l : List FailKind} {k : FailKind} (h : .noReply ∈ l ++ [k]) : failedOutcome (l ++ [k]) = .timeout :=
  if_neg fun all => absurd (List.all_eq_true.mp all _ h) (by decide)

variable {k : FailKind} (hx : p.port i = x) (sent : x.outstanding = some out)
include hx sent

/-- R99: while attempts remain the command is resent. -/
theorem Plant.attemptFails_resends (more : x.attempt ≤ x.tryRetries) :
    p.attemptFails i k = p.setPort i (x.resend out.cmd (x.failures ++ [k])) := by
  simp only [Plant.attemptFails, hx, sent, if_pos more, Plant.modPort_of hx]

theorem Plant.attemptFails_lineError (last : x.tryRetries < x.attempt) (h : failedOutcome (x.failures ++ [k]) = .lineError) :
    p.attemptFails i k = p.endCommand i out .lineError := by
  simp only [Plant.attemptFails, hx, sent, if_neg (Nat.not_le.mpr last), h]

theorem Plant.attemptFails_timeout (last : x.tryRetries < x.attempt) (h : failedOutcome (x.failures ++ [k]) = .timeout)
    (few : x.timeouts ≠ 2) :
    p.attemptFails i k = (p.setPort i { x with timeouts := x.timeouts + 1 }).endCommand i out .timeout := by
  have third : ¬x.timeouts + 1 = 3 := fun h => few (by omega)
  simp only [Plant.attemptFails, hx, sent, if_neg (Nat.not_le.mpr last), h, if_neg third, Plant.modPort_of hx]

theorem Plant.attemptFails_third (last : x.tryRetries < x.attempt) (h : failedOutcome (x.failures ++ [k]) = .timeout)
    (third : x.timeouts = 2) : p.attemptFails i k =
      (((p.setPort i { x.ended with timeouts := 3, grantHeld :=
        true }).handOutcome i out .timeout).settlePort i).enterDown i .timeouts := by
  have three : x.timeouts + 1 = 3 := by omega
  simp only [Plant.attemptFails, hx, sent, if_neg (Nat.not_le.mpr last), h, if_pos three, Plant.modPort_of hx]
  rfl

end

/-! ## The end of a command -/

/-- The ends of the command outstanding on a port: a good reply, a last attempt without one, and a last garbled attempt. -/
def Port.Ends (x : Port) (i : PortNo) (k : DevCmd) (cmd : Instr) (y : Port) (o : DevOutcome) : Prop :=
  (∃ r, cmd = .deviceReply i r ∧ y = { x.ended with rx := [], timeouts := 0 } ∧ o = replyOutcome k r) ∨
    (cmd = .replyTimeout i ∧ x.tryRetries < x.attempt ∧ x.timeouts ≠ 2 ∧ y = { x.ended with timeouts := x.timeouts + 1 } ∧
      o = .timeout) ∨
    (∃ f left, cmd = .deviceReceiveFault i f true left ∧ x.tryRetries < x.attempt ∧ (∀ k ∈ x.failures, k = .garbled) ∧
      y = { x.ended with flags := x.flags.mark f, rx := left } ∧ o = .lineError) ∨
    (∃ f left, cmd = .deviceReceiveFault i f true left ∧ x.tryRetries < x.attempt ∧ x.timeouts ≠ 2 ∧ .noReply ∈ x.failures ∧
      y = { x.ended with timeouts := x.timeouts + 1, flags := x.flags.mark f, rx := left } ∧ o = .timeout)

theorem replyOutcome_eq (k : DevCmd) (r : DevReply) : replyOutcome k r = match r with
    | .done => if k = .ask then DevOutcome.refused none else .done
    | .refused n => .refused n
    | .state m clip fr => if k = .ask then .state m clip fr else .refused none := by
  cases r <;> cases k <;> rfl

theorem Plant.endCommand_eq (p : Plant) (i : PortNo) (z : Port) (out : Outstanding) (o : DevOutcome) :
    (p.setPort i z).endCommand i out o = ((p.setPort i z.ended).handOutcome i out o).settlePort i := by
  rw [Plant.endCommand, Plant.modPort_setPort]
  rfl

/-- R98 to R100: the outcome is handed to the requester, and the port settles. -/
theorem exec_ends {s : State} {i : PortNo} {x y : Port} {out : Outstanding} {cmd : Instr} {o : DevOutcome} (hx : s.plant.port i = x)
    (up : x.state = .up) (timer : x.replyTimer ≠ none) (sent : x.outstanding = some out) (h : x.Ends i out.cmd cmd y o) :
    exec cmd s = .next (s.passed (((s.plant.setPort i y).handOutcome i out o).settlePort i)) := by
  have faults : ∀ f left, (s.plant.setPort i { x with flags := x.flags.mark f, rx := left }).port i = _ := fun f left =>
    s.plant.port_setPort_same i _
  rcases h with ⟨r, rfl, rfl, rfl⟩ | ⟨rfl, last, few, rfl, rfl⟩ | ⟨f, left, rfl, last, garbled, rfl, rfl⟩ |
    ⟨f, left, rfl, last, few, noReply, rfl, rfl⟩
  · refine congrArg (Host.Outcome.next ∘ s.passed) (?_ : s.plant.goodReply i r = _)
    rw [Plant.goodReply_ends hx up sent (Option.isSome_iff_ne_none.mpr timer), Plant.endCommand_eq]
    rfl
  · refine congrArg (Host.Outcome.next ∘ s.passed) (?_ : s.plant.replyExpired i = _)
    rw [Plant.replyExpired_fails hx up timer, Plant.attemptFails_timeout hx sent last (failedOutcome_noReply (by simp)) few,
      Plant.endCommand_eq]
    rfl
  · refine congrArg (Host.Outcome.next ∘ s.passed) (?_ : s.plant.deviceFault i f true left = _)
    rw [Plant.deviceFault_fails hx up timer, Plant.attemptFails_lineError (faults f left) sent last (failedOutcome_garbled garbled),
      Plant.endCommand_eq]
    rfl
  · refine congrArg (Host.Outcome.next ∘ s.passed) (?_ : s.plant.deviceFault i f true left = _)
    rw [Plant.deviceFault_fails hx up timer, Plant.attemptFails_timeout (faults f left) sent last
      (failedOutcome_noReply (List.mem_append_left _ noReply)) few, Plant.setPort_setPort, Plant.endCommand_eq]
    rfl

/-! ## A Cue Sequencer's command -/

section
variable {p : Plant} {c : Chan} {i : PortNo} {k : StepEntry} {o : DevOutcome}

/-- R124 to R126: an outcome touches no port but where a halt withdraws a command from a slot. -/
theorem Plant.cueOutcome_port (h : (p.port i).slotCue = none) : (p.cueOutcome c k o).port i = p.port i := by
  have last : ∀ q : Plant, (q.writeLast c o).port i = q.port i := fun q => by
    unfold Plant.writeLast
    split <;> rfl
  have drops : ∀ q : Plant, (q.dropRepetitions c k).port i = q.port i := fun q => by
    unfold Plant.dropRepetitions
    simp only
    split <;> rfl
  have skips : ∀ q : Plant, (q.skipEvent c k).port i = q.port i := fun q => by
    unfold Plant.skipEvent
    simp only
    repeat' split
    all_goals rfl
  have halts : ∀ q : Plant, q.port i = p.port i → (q.haltSequence c (.verify k.event k.step)).port i = q.port i := fun q hq => by
    unfold Plant.haltSequence
    split
    · rfl
    · refine (Plant.port_mapPorts _ _ i).trans ?_
      have empty : (q.port i).slotCue = none := by rw [hq, h]
      exact (by unfold Port.withdrawSlot; rw [empty] : (q.port i).withdrawSlot c (fun _ => true) = q.port i)
  unfold Plant.cueOutcome
  split
  · rfl
  · simp only
    repeat' split
    · exact last p
    · exact last p
    · exact (drops _).trans (last p)
    · next action _ _ _ =>
      cases action with
      | ignore => exact last p
      | skipEvent => exact (skips _).trans (last p)
      | halt => exact (halts ((p.writeLast c o).tellCueFault c k _ _) (last p)).trans (last p)
    · exact last p

/-- R122: an outcome does not settle whether steps are issued. -/
theorem Plant.cueOutcome_issuing : ((p.cueOutcome c k o).chan c).seq.issuing = (p.chan c).seq.issuing := by
  have last : ∀ q : Plant, ((q.writeLast c o).chan c).seq.issuing = (q.chan c).seq.issuing := fun q => by
    unfold Plant.writeLast
    split
    · rfl
    · rw [Plant.chan_modChan_same]
  have drops : ∀ q : Plant, ((q.dropRepetitions c k).chan c).seq.issuing = (q.chan c).seq.issuing := fun q => by
    unfold Plant.dropRepetitions
    simp only
    split
    · rw [Plant.modEvent_seq, Plant.chan_modChan_same]
    · rw [Plant.chan_modChan_same]
  have skips : ∀ q : Plant, ((q.skipEvent c k).chan c).seq.issuing = (q.chan c).seq.issuing := fun q => by
    unfold Plant.skipEvent Plant.decideSwitch
    simp only
    repeat' split
    all_goals simp [Plant.modEvent_seq, Channel.dropEntriesLike]
  have halts : ∀ q : Plant, ((q.haltSequence c (.verify k.event k.step)).chan c).seq.issuing = (q.chan c).seq.issuing := fun q => by
    unfold Plant.haltSequence
    split
    · rfl
    · exact congrArg (·.seq.issuing) (q.chan_modChan_same c fun x => { x with seq := { x.seq with halted := true, queue := [] } })
  unfold Plant.cueOutcome
  split
  · rfl
  · simp only
    repeat' split
    · rw [Plant.modEvent_seq, last]
    · exact last p
    · exact (drops _).trans (last p)
    · next action _ _ _ =>
      cases action with
      | ignore => exact last p
      | skipEvent => exact (skips _).trans (last p)
      | halt => exact (halts _).trans (last p)
    · exact last p

theorem Plant.cueOutcome_plan (d : Chan) : ((p.cueOutcome c k o).chan d).plan = (p.chan d).plan :=
  congrFun (p.cueOutcome_plans c k o) d

theorem Plant.cueOutcome_noneDue (h : p.NoneDue c) : (p.cueOutcome c k o).NoneDue c := by
  have now : ((p.cueOutcome c k o).chan c).now = (p.chan c).now := (congrArg Channel.now (Plant.cueOutcome_plan (k := k) (o := o) c) :)
  refine h.imp (fun off => Plant.cueOutcome_issuing.trans off) fun later e he => ?_
  rw [now]
  exact later e ((Plant.cueOutcome_queue k o).subset he)

theorem Plant.usersOf_only (only : ∀ d, d ≠ c → (p.chan d).portInUse ≠ some i) (uses : (p.chan c).portInUse = some i)
    (busy : (p.chan c).mode ≠ .idle) : p.usersOf i = [c] := by
  have mem : ∀ d, d ∈ p.usersOf i ↔ d = c := fun d => by
    rw [Plant.mem_usersOf]
    refine ⟨fun ⟨h, _⟩ => Decidable.byContradiction fun e => only d e h, ?_⟩
    rintro rfl
    exact ⟨uses, busy⟩
  have nodup : (p.usersOf i).Nodup := allChans_nodup.filter _
  exact List.perm_singleton.mp ((List.perm_ext_iff_of_nodup nodup (List.nodup_singleton c)).mpr fun d => by simp [mem d])

/-- R108, R123: the outcome of a Cue Sequencer's command, and what its port and its channel do then. -/
theorem Plant.cueEnd_settles {y : Port} (only : p.OnlyFor i c) (hy : y.Bare) {m : Plant} (hm : m = (p.setPort i y).cueOutcome c k o)
    {cmd : DevCmd} :
    ((p.chan c).portInUse = some i → (p.chan c).mode ≠ .idle →
      ((p.setPort i y).handOutcome i ⟨cmd, .cue c k⟩ o).settlePort i = (m.takeHeads c).arbitrate i) ∧
    ((p.chan c).portInUse ≠ some i ∨ (p.chan c).mode = .idle → p.NoneDue c →
      ((p.setPort i y).handOutcome i ⟨cmd, .cue c k⟩ o).settlePort i = m) := by
  have own : (p.setPort i y).port i = y := p.port_setPort_same i y
  have port : m.port i = y := by
    rw [hm, Plant.cueOutcome_port (by rw [own]; exact hy.slotCue), own]
  have use : ∀ d, (m.chan d).portInUse = (p.chan d).portInUse ∧ (m.chan d).mode = (p.chan d).mode := fun d => by
    have plan := Plant.cueOutcome_plan (p := p.setPort i y) (c := c) (k := k) (o := o) d
    rw [← hm] at plan
    exact ⟨(congrArg Channel.portInUse plan :), (congrArg Channel.mode plan :)⟩
  have others : ∀ d, d ≠ c → (m.chan d).portInUse ≠ some i := fun d hd => by
    rw [(use d).1]
    exact only.user d hd
  refine ⟨fun uses busy => ?_, fun away quiet => ?_⟩
  · have handed : (p.setPort i y).handOutcome i ⟨cmd, .cue c k⟩ o = m := by
      rw [hm]
      exact if_pos uses
    rw [handed, Plant.settlePort_claimless (by rw [port]; exact hy.claim), Plant.userTakes,
      Plant.usersOf_only others ((use c).1.trans uses) (by rw [(use c).2]; exact busy)]
    rfl
  · have none : m.NoneDue c := by
      rw [hm]
      exact Plant.cueOutcome_noneDue quiet
    have handed : (p.setPort i y).handOutcome i ⟨cmd, .cue c k⟩ o = m := by
      have woken := Plant.wakeAfter_quiet (p.setPort i y) m c (.inl (Plant.headDue_of_noneDue none))
      rw [hm] at woken ⊢
      simp only [Plant.handOutcome]
      split
      · rfl
      · exact woken
    rw [handed]
    refine Plant.settlePort_bare (by rw [port]; exact hy) fun d hd => ?_
    by_cases e : d = c
    · rwa [e]
    · exact absurd hd (others d e)

end

/-! ## A Changeover list's command -/

section
variable {p : Plant} {c : Chan} {i : PortNo} {u : Purpose} {live : Bool} {k : DevCmd} {o : DevOutcome}

theorem Plant.listOutcome_idle (h : (p.chan c).mode = .idle) : p.listOutcome c i u live k o = p := by
  have last : p.writeLast c o = p := if_pos h
  simp only [Plant.listOutcome, last, h, or_true, if_true]

theorem Plant.listOutcome_writes
    (stands : live = false ∨ u = .stop ∨ (u = .join ∧ o = .done ∧ ∀ f, k ≠ .point f)) :
    p.listOutcome c i u live k o = p.writeLast c o := by
  simp only [Plant.listOutcome]
  split
  · rfl
  · next wanted =>
    rcases stands with rfl | rfl | ⟨rfl, rfl, point⟩
    · exact absurd (.inl rfl) wanted
    · rfl
    · cases k with
      | point f => exact absurd rfl (point f)
      | _ => rfl

/-- R153: any outcome of a join's command but DONE and a STATE fails the join. -/
theorem Plant.listOutcome_fails {r : FailReason} (h : (p.chan c).mode ≠ .idle)
    (hr : ((∃ n, o = .refused n) ∧ r = .refused) ∨ (o = .timeout ∧ r = .timeout) ∨ (o = .lineError ∧ r = .lineError)) :
    p.listOutcome c i .join true k o = (p.writeLast c o).joinFail c i r := by
  have kept : ((p.writeLast c o).chan c).mode ≠ .idle := by
    rw [Plant.writeLast_wrote h, Plant.wrote_chan]
    exact h
  have wanted : ¬((!true) = true ∨ ((p.writeLast c o).chan c).mode = .idle) := fun h => h.elim nofun kept
  rcases hr with ⟨⟨n, rfl⟩, rfl⟩ | ⟨rfl, rfl⟩ | ⟨rfl, rfl⟩ <;> simp only [Plant.listOutcome, if_neg wanted]

end

end Sys2Proof.Machine
end

