-- ==== Sys2Proof/Proofs/PortsDown.lean ====
section
/-! PROOFS. A port's entry to DOWN, where nothing of it concerns a channel but its owner, and its return to UP (R102, R103, R111). -/

namespace Sys2Proof.Machine

section
variable {p : Plant} {i : PortNo} {z : Port}

/-- The plant with more handed out. -/
def Plant.sending (p : Plant) (os : List Outgoing) : Plant := { p with outbox := p.outbox ++ os }

theorem Plant.sending_port (p : Plant) (os : List Outgoing) (i : PortNo) : (p.sending os).port i = p.port i := rfl
theorem Plant.sending_chan (p : Plant) (os : List Outgoing) (c : Chan) : (p.sending os).chan c = p.chan c := rfl
theorem Plant.sending_setPort (p : Plant) (os : List Outgoing) (i : PortNo) (x : Port) :
    (p.sending os).setPort i x = (p.setPort i x).sending os := rfl
theorem Plant.sending_sending (p : Plant) (os more : List Outgoing) : (p.sending os).sending more = p.sending (os ++ more) :=
  congrArg (fun l => ({ p with outbox := l } : Plant)) (List.append_assoc ..)
theorem Plant.sending_nil (p : Plant) : p.sending [] = p := congrArg (fun l => ({ p with outbox := l } : Plant)) (List.append_nil _)

/-- R107: a port that is not UP, with no claim, serves none. -/
theorem Plant.serveClaim_vacant (down : (p.port i).state ≠ .up) (bare : (p.port i).Bare)
    (quiet : ∀ d, (p.chan d).portInUse = some i → p.NoneDue d) : p.serveClaim i = p := by
  have dropped : (p.port i).dropFinished = p.port i := Port.dropFinished_empty bare.claim
  have timed : ∀ n, Plant.timeoutClaims n i p = p := fun n => by
    cases n with
    | zero => rfl
    | succ n => simp [Plant.timeoutClaims, dropped, Plant.setPort_port, down, Plant.dueCommand, bare.claim]
  rw [Plant.serveClaim, if_neg down, timed, Plant.settlePort_bare bare quiet]

theorem Plant.presented_none (h : (p.port i).claim = []) : p.presented i = none := by
  simp [Plant.presented, Port.dropFinished_empty h, Plant.dueCommand, h]

/-- R102: the entry to DOWN of a port with no claim, up to the commands that wait in its slots. -/
theorem Plant.enterDown_open {cause : PortCause} (hz : p.port i = z) (claim : z.claim = [])
    (idle : ∀ c, p.ownerOf i = some c → ¬((p.chan c).mode.running = true ∧ (p.chan c).portInUse = some i)) {os : List Outgoing}
    (sent : (z.outstanding = none ∧ os = []) ∨ ∃ k, z.outstanding = some ⟨k, .pass⟩ ∧ os = [.passOutcome i .timeout]) :
    p.enterDown i cause =
      (((((((p.setPort i z.down).sending os).timeoutSlots i).userTakes i).tellPort i z.state cause).modPort i
        fun y => { y with holder := none }).reportLoss i (p.ownerOf i)).serveClaim i := by
  have joins : p.releaseJoin i (p.ownerOf i) = p := by
    unfold Plant.releaseJoin
    split
    · next c hc => exact if_neg (idle c hc)
    · rfl
  have due : p.presented i = none := Plant.presented_none (by rw [hz]; exact claim)
  have down : p.modPort i Port.down = p.setPort i z.down := Plant.modPort_of hz _
  rcases sent with ⟨sent, rfl⟩ | ⟨k, sent, rfl⟩
  · simp only [Plant.enterDown, joins, hz, due, down, sent, Plant.sending_nil]
    rfl
  · simp only [Plant.enterDown, joins, hz, due, down, sent]
    rfl

/-- R104: PORT STATE of a port that has fallen, and the spare taken from its holder. -/
theorem Plant.tellDown_eq (m : Plant) (i : PortNo) (before : PortState) (cause : PortCause) :
    (m.tellPort i before cause).modPort i (fun y => { y with holder := none }) =
      (m.setPort i { m.port i with flags := .clear, holder := none }).sending
        [.notice (portNotice i (m.port i) before cause.code (m.ownerOf i))] := by
  have told : m.tellPort i before cause = (m.setPort i { m.port i with flags := .clear }).sending
      [.notice (portNotice i (m.port i) before cause.code (m.ownerOf i))] := rfl
  rw [told, Plant.modPort, Plant.sending_port, Plant.port_setPort_same, Plant.sending_setPort, Plant.setPort_setPort]

theorem Plant.ownerOf_congr {q : Plant} (role : (q.port i).role = (p.port i).role) (holder : (q.port i).holder = (p.port i).holder)
    (use : ∀ c, q.primary c = p.primary c ∧ (q.chan c).mode = (p.chan c).mode) : q.ownerOf i = p.ownerOf i := by
  have uses : (fun c => q.primary c == some i && (q.chan c).mode != .idle) = fun c => p.primary c == some i && (p.chan c).mode != .idle :=
    funext fun c => by rw [(use c).1, (use c).2]
  simp only [Plant.ownerOf, role, holder, uses]

theorem Port.down_eq (held : z.grantHeld = false) : z.down = z.fallen := by
  have kept : { z with grantHeld := false } = z := by rw [← held]
  exact congrArg Port.fallen kept

end

/-! ## Ports that no channel works with -/

section
variable {p : Plant} {i : PortNo} {z : Port} {cause : PortCause}

/-- R102, R108: an unused port falls: its pass-through ends, PORT STATE is sent, and its holder is taken from it. -/
theorem Plant.enterDown_unused (hz : p.port i = z) (bare : z.Bare) (user : ∀ c, (p.chan c).portInUse ≠ some i) {os : List Outgoing}
    (sent : (z.outstanding = none ∧ os = []) ∨ ∃ k, z.outstanding = some ⟨k, .pass⟩ ∧ os = [.passOutcome i .timeout]) :
    p.enterDown i cause = ((((p.setPort i { z.down with flags := .clear, holder := none }).sending
      (os ++ [.notice (portNotice i z.down z.state cause.code (p.ownerOf i))])).reportLoss i (p.ownerOf i)).serveClaim i) := by
  obtain ⟨m, hm⟩ : ∃ m, m = (p.setPort i z.down).sending os := ⟨_, rfl⟩
  have port : m.port i = z.down := by rw [hm]; exact p.port_setPort_same i _
  have chans : ∀ c, m.chan c = p.chan c := fun c => by rw [hm]; rfl
  have slots : m.timeoutSlots i = m := by
    rw [Plant.timeoutSlots, Plant.timeoutSlotCue_empty _ _ (by rw [port]; exact bare.slotCue),
      Plant.timeoutSlotPass_empty _ _ (by rw [port]; exact bare.slotPass)]
  have takes : m.userTakes i = m := Plant.userTakes_quiet fun d hd => absurd (chans d ▸ hd) (user d)
  have owner : m.ownerOf i = p.ownerOf i := Plant.ownerOf_congr (by rw [port, hz]; rfl) (by rw [port, hz]; rfl) fun c =>
    ⟨by rw [Plant.primary, Plant.config, chans]; rfl, by rw [chans]⟩
  rw [Plant.enterDown_open hz bare.claim (fun c _ h => user c h.2) sent, ← hm, slots, takes, Plant.tellDown_eq, port, owner, hm,
    Plant.sending_setPort, Plant.setPort_setPort, Plant.sending_sending]

/-- R111, R160, R161: a loss that reaches no channel. -/
theorem Plant.reportLoss_stands {owner : Option Chan} (h : ∀ c, owner = some c →
    ((p.chan c).mode = .orphaned → (p.port i).role ≠ .spare) ∧
      ((p.chan c).portInUse = some i → (p.chan c).mode.running = false ∧ (p.chan c).mode ≠ .taking)) : p.reportLoss i owner = p := by
  unfold Plant.reportLoss
  split
  · rfl
  · next c =>
    obtain ⟨orphaned, uses⟩ := h c rfl
    rw [if_neg fun h => orphaned h.1 h.2]
    by_cases at' : (p.chan c).portInUse = some i
    · obtain ⟨running, taking⟩ := uses at'
      simp only [at', running, taking, if_false, false_and, ne_eq, not_true_eq_false, Bool.false_eq_true]
    · exact if_pos at'

/-- R103: an unused port that no channel waits for only comes up. -/
theorem Plant.nowUp_unused (bare : (p.port i).Bare) (user : ∀ c, (p.chan c).portInUse ≠ some i) (queue : p.spareQueue = []) :
    p.nowUp i = p := by
  have waits : ∀ c, p.waits c = false := fun c => by rw [Plant.waits, queue]; rfl
  have primary : ∀ c, p.tryPrimary c = p := fun c => by
    simp only [Plant.tryPrimary, waits, Bool.false_eq_true, false_and, if_false]
    split <;> rfl
  have settles : p.settlePort i = p := Plant.settlePort_bare bare fun d hd => absurd hd (user d)
  simp only [Plant.nowUp, Plant.spareFreed_stands (.inr (.inr (.inr queue))), primary, ite_self]
  split <;> exact settles

/-- R103: a good reply to the probe. -/
theorem Plant.goodReply_probed (hz : p.port i = z) (down : z.state = .down) (timer : z.probeTimer ≠ none) (unshared : p.Unshared i)
    (queue : p.spareQueue = []) (r : DevReply) : p.goodReply i r =
      (p.setPort i { z.ended with rx := [], state := .up, probeTimer := none, timeouts := 0, flags := .clear }).emit
        (.notice (portNotice i { z with state := .up } .down 2 (p.ownerOf i))) := by
  obtain ⟨y, hy⟩ : ∃ y : Port, y = { z.ended with rx := [], state := .up, probeTimer := none, timeouts := 0 } := ⟨_, rfl⟩
  have up : p.goodReply i r = ((p.setPort i y).tellPort i .down .reply).nowUp i := by
    have gathered := Plant.modPort_of hz fun x => { x with rx := [] }
    simp only [Plant.goodReply, hz, down, gathered, Plant.modPort_setPort, Option.isSome_iff_ne_none.mpr timer, if_true, hy,
      reduceCtorEq, if_false]
    rfl
  have owner : (p.setPort i y).ownerOf i = p.ownerOf i := Plant.ownerOf_congr (by rw [Plant.port_setPort_same, hy, hz]; rfl)
    (by rw [Plant.port_setPort_same, hy, hz]; rfl) fun c => ⟨rfl, rfl⟩
  rw [up, Plant.tellPort_eq, owner, Plant.port_setPort_same, Plant.modPort_setPort]
  obtain ⟨m, hm⟩ : ∃ m, m = (p.setPort i { y with flags := .clear }).emit
      (.notice (portNotice i y .down PortCause.reply.code (p.ownerOf i))) := ⟨_, rfl⟩
  have port : m.port i = { y with flags := .clear } := by rw [hm]; exact p.port_setPort_same i _
  have chans : ∀ c, m.chan c = p.chan c := fun c => by rw [hm]; rfl
  have waiting : m.spareQueue = [] := by rw [hm]; exact queue
  rw [← hm, Plant.nowUp_unused ?_ (fun c => chans c ▸ unshared.user c) waiting, hm, hy]
  · rfl
  · rw [port, hy]
    exact ⟨by rw [← unshared.claim, hz]; rfl, by rw [← unshared.slotCue, hz]; rfl, by rw [← unshared.slotPass, hz]; rfl⟩

/-- R102, R108: a port that no channel works with falls, and its loss reaches nobody. -/
theorem Plant.enterDown_unreported (hz : p.port i = z) (bare : z.Bare) (user : ∀ c, (p.chan c).portInUse ≠ some i)
    (kept : z.role = .spare → ∀ c, z.holder = some c → (p.chan c).mode ≠ .orphaned) {os : List Outgoing}
    (sent : (z.outstanding = none ∧ os = []) ∨ ∃ k, z.outstanding = some ⟨k, .pass⟩ ∧ os = [.passOutcome i .timeout]) :
    p.enterDown i cause = (p.setPort i { z.down with flags := .clear, holder := none }).sending
      (os ++ [.notice (portNotice i z.down z.state cause.code (p.ownerOf i))]) := by
  rw [Plant.enterDown_unused hz bare user sent]
  obtain ⟨m, hm⟩ : ∃ m, m = (p.setPort i { z.down with flags := .clear, holder := none }).sending
      (os ++ [.notice (portNotice i z.down z.state cause.code (p.ownerOf i))]) := ⟨_, rfl⟩
  have port : m.port i = { z.down with flags := .clear, holder := none } := by rw [hm]; exact p.port_setPort_same i _
  have chans : ∀ c, m.chan c = p.chan c := fun c => by rw [hm]; rfl
  have unreported : m.reportLoss i (p.ownerOf i) = m := Plant.reportLoss_stands fun c hc =>
    ⟨fun orphaned spare => by
      rw [port] at spare
      have role : z.role = .spare := spare
      rw [Plant.ownerOf, hz, role] at hc
      exact kept role c hc (chans c ▸ orphaned), fun uses => absurd (chans c ▸ uses) (user c)⟩
  rw [← hm, unreported]
  refine Plant.serveClaim_vacant ?_ ?_ fun d hd => absurd (chans d ▸ hd) (user d)
  · rw [port]
    exact PortState.noConfusion
  · rw [port]
    exact ⟨bare.claim, bare.slotCue, bare.slotPass⟩

theorem Plant.requestSpare_chan (p : Plant) (c d : Chan) : (p.requestSpare c).1.chan d = p.chan d := by
  unfold Plant.requestSpare
  repeat' split
  all_goals rfl

theorem Plant.requestSpare_port (p : Plant) (c : Chan) (i : PortNo) : ∃ h, (p.requestSpare c).1.port i = { p.port i with holder := h } := by
  unfold Plant.requestSpare
  split
  · exact ⟨_, rfl⟩
  · split
    · next j _ =>
      by_cases e : i = j
      · subst e
        exact ⟨some c, p.port_modPort_same i fun x => { x with holder := some c }⟩
      · exact ⟨(p.port i).holder, p.port_modPort_other (fun x => { x with holder := some c }) e⟩
    · exact ⟨_, rfl⟩

/-- R109, R111: the port of an orphan's adoption falls: the orphan asks for another spare. -/
theorem Plant.enterDown_orphan {c : Chan} (hz : p.port i = z) (bare : z.Bare) (user : ∀ c, (p.chan c).portInUse ≠ some i)
    (spare : z.role = .spare) (held : z.holder = some c) (orphaned : (p.chan c).mode = .orphaned) {os : List Outgoing}
    (sent : (z.outstanding = none ∧ os = []) ∨ ∃ k, z.outstanding = some ⟨k, .pass⟩ ∧ os = [.passOutcome i .timeout]) :
    p.enterDown i cause = (((p.setPort i { z.down with flags := .clear, holder := none }).sending
      (os ++ [.notice (portNotice i z.down z.state cause.code (some c))])).requestSpare c).1 := by
  have owner : p.ownerOf i = some c := by simp only [Plant.ownerOf, hz, spare, held]
  rw [Plant.enterDown_unused hz bare user sent, owner]
  obtain ⟨m, hm⟩ : ∃ m, m = (p.setPort i { z.down with flags := .clear, holder := none }).sending
      (os ++ [.notice (portNotice i z.down z.state cause.code (some c))]) := ⟨_, rfl⟩
  have port : m.port i = { z.down with flags := .clear, holder := none } := by rw [hm]; exact p.port_setPort_same i _
  have chans : ∀ c, m.chan c = p.chan c := fun c => by rw [hm]; rfl
  have asks : m.reportLoss i (some c) = (m.requestSpare c).1 :=
    if_pos ⟨by rw [chans]; exact orphaned, by rw [port]; exact spare⟩
  rw [← hm, asks]
  obtain ⟨h, after⟩ := m.requestSpare_port c i
  have others : ∀ d, (m.requestSpare c).1.chan d = p.chan d := fun d => (m.requestSpare_chan c d).trans (chans d)
  refine Plant.serveClaim_vacant ?_ ?_ fun d hd => absurd (others d ▸ hd) (user d)
  · rw [after, port]
    exact PortState.noConfusion
  · rw [after, port]
    exact ⟨bare.claim, bare.slotCue, bare.slotPass⟩

/-- R102, R105, R124: a command that waits in the Cue Sequencer's slot of a channel with nothing queued ends with TIMEOUT. -/
theorem Plant.enterDown_slot {c : Chan} {x : Channel} {e : StepEntry} {cmd : DevCmd} (hz : p.port i = z) (primary : z.role = .primary)
    (claim : z.claim = []) (slotPass : z.slotPass = none) (others : ∀ d, d ≠ c → (p.chan d).portInUse ≠ some i) (hx : p.chan c = x)
    (mode : x.mode = .shadow ∨ x.mode = .confirming) (queue : x.seq.queue = []) (slot : z.slotCue = some (c, e))
    (he : e.action = .send cmd) {k : DevCmd} (sent : z.outstanding = some ⟨k, .pass⟩) :
    p.enterDown i cause = ((p.setChan c { x with seq := { x.seq with last := some .timeout } }).setPort i
      { z.down with slotCue := none, flags := .clear, holder := none }).sending
        [.passOutcome i .timeout,
          .notice (portNotice i { z.down with slotCue := none } z.state cause.code (p.ownerOf i))] := by
  have running : x.mode.running = false := by rcases mode with h | h <;> rw [h] <;> rfl
  have taking : x.mode ≠ .taking := by rcases mode with h | h <;> rw [h] <;> decide
  have busy : x.mode ≠ .idle := by rcases mode with h | h <;> rw [h] <;> decide
  have owned : ∀ d, (p.chan d).portInUse = some i → d = c := fun d h => Decidable.byContradiction fun e => others d e h
  obtain ⟨m, hm⟩ : ∃ m, m = ((p.setChan c { x with seq := { x.seq with last := some .timeout } }).setPort i
      { z.down with slotCue := none }).sending [.passOutcome i .timeout] := ⟨_, rfl⟩
  have slots : ((p.setPort i z.down).sending [.passOutcome i .timeout]).timeoutSlots i = m := by
    have waiting : ((p.setPort i z.down).sending [.passOutcome i .timeout]).port i = z.down := p.port_setPort_same i _
    have own : ((p.setPort i { z.down with slotCue := none }).sending [.passOutcome i .timeout]).chan c = x := hx
    have emptied : ((p.setPort i z.down).sending [.passOutcome i .timeout]).modPort i (fun x => { x with slotCue := none }) =
        (p.setPort i { z.down with slotCue := none }).sending [.passOutcome i .timeout] := by
      rw [Plant.modPort_of waiting, Plant.sending_setPort, Plant.setPort_setPort]
    have ends : ((p.setPort i { z.down with slotCue := none }).sending [.passOutcome i .timeout]).cueOutcome c e .timeout = m := by
      rw [Plant.cueOutcome_sent (o := .timeout) (by rw [own]; exact busy) he (.inr (.inl nofun)), own, hm]
      exact Plant.sending_nil _
    rw [Plant.timeoutSlots, Plant.timeoutSlotCue_ends _ _ (by rw [waiting]; exact slot), emptied, ends,
      Plant.timeoutSlotPass_empty _ _ (by rw [hm]; exact (congrArg Port.slotPass (Plant.port_setPort_same _ i _)).trans slotPass)]
  have port : m.port i = { z.down with slotCue := none } := by rw [hm]; exact Plant.port_setPort_same _ i _
  have own : m.chan c = { x with seq := { x.seq with last := some .timeout } } := by rw [hm]; exact p.chan_setChan_same c _
  have away : ∀ d, d ≠ c → m.chan d = p.chan d := fun d hd => by rw [hm]; exact p.chan_setChan_other _ hd
  have quiet : ∀ q : Plant, q.chans = m.chans → ∀ d, (q.chan d).portInUse = some i → q.NoneDue d := fun q hq d hd => by
    have same : ∀ d, q.chan d = m.chan d := fun d => by rw [Plant.chan, Plant.chan, hq]
    by_cases e : d = c
    · subst e
      exact Plant.noneDue_of_empty (by rw [same, own]; exact queue)
    · exact absurd (by rw [← away d e, ← same]; exact hd) (others d e)
  have owner : m.ownerOf i = p.ownerOf i := Plant.ownerOf_congr (by rw [port, hz]; rfl) (by rw [port, hz]; rfl) fun d => by
    by_cases e : d = c
    · subst e
      exact ⟨by rw [Plant.primary, Plant.config, own, Plant.primary, Plant.config, hx], by rw [own, hx]⟩
    · exact ⟨by rw [Plant.primary, Plant.config, away d e]; rfl, by rw [away d e]⟩
  have idle : ∀ d, p.ownerOf i = some d → ¬((p.chan d).mode.running = true ∧ (p.chan d).portInUse = some i) := fun d _ ⟨runs, uses⟩ => by
    rw [owned d uses, hx, running] at runs
    cases runs
  rw [Plant.enterDown_open hz claim idle (.inr ⟨k, sent, rfl⟩), slots, Plant.userTakes_quiet (quiet m rfl), Plant.tellDown_eq, port, owner]
  obtain ⟨w, hw⟩ : ∃ w, w = (m.setPort i { z.down with slotCue := none, flags := .clear, holder := none }).sending
      [.notice (portNotice i { z.down with slotCue := none } z.state cause.code (p.ownerOf i))] := ⟨_, rfl⟩
  have fallen : w.port i = { z.down with slotCue := none, flags := .clear, holder := none } := by
    rw [hw]
    exact m.port_setPort_same i _
  have unreported : w.reportLoss i (p.ownerOf i) = w := Plant.reportLoss_stands fun d _ => by
    refine ⟨fun _ spare => ?_, fun uses => ?_⟩
    · rw [fallen] at spare
      exact absurd (primary.symm.trans spare) (by decide)
    · have mine : d = c := Decidable.byContradiction fun e => others d e (by rw [← away d e]; rw [hw] at uses; exact uses)
      have chan : w.chan d = m.chan c := by rw [hw, mine]; rfl
      rw [chan, own]
      exact ⟨running, taking⟩
  rw [← hw, unreported, Plant.serveClaim_vacant (by rw [fallen]; exact PortState.noConfusion) (by rw [fallen]; exact ⟨claim, rfl, slotPass⟩)
    (quiet w (by rw [hw]; rfl)), hw, hm, Plant.sending_setPort, Plant.setPort_setPort, Plant.sending_sending]
  rfl

end

/-- R102: the port of a long break, and of the third TIMEOUT running. -/
theorem Plant.portBreak_falls {p : Plant} {i : PortNo} {x : Port} (hx : p.port i = x) (up : x.state = .up) :
    p.portBreak i = (p.setPort i { x with flags := { x.flags with brk := true }, rx := [] }).enterDown i .brk := by
  have marked : x.flags.mark .brk = { x.flags with brk := true } := rfl
  rw [Plant.portBreak, if_pos (by rw [hx]; exact up), Plant.modPort_of hx, marked]

/-- Settles O42, event by event. -/
theorem deviceLineEvents : Obligations.DeviceLineEvents := by
  rintro i s x hx
  have events : ∀ {p q : Plant}, p = q → (.next (s.passed p) : Meaning) = .next (s.passed q) := fun h => by rw [h]
  have sets : ∀ f : Port → Port, s.plant.modPort i f = s.plant.setPort i (f x) := Plant.modPort_of hx
  have stands : ∀ {f : Port → Port}, f x = x → s.plant.modPort i f = s.plant := fun h => Plant.modPort_same (by rw [hx]; exact h)
  refine ⟨fun b h => ⟨_, rfl, events ((sets _).trans (congrArg _ (Port.frameSent_sends h)))⟩,
    fun h => events (stands (Port.frameSent_stands h)),
    fun h => events ((sets _).trans (congrArg _ (Port.breakEnds_ends h))),
    fun h => events (stands (Port.breakEnds_stands h)),
    fun down timer h => events ((sets _).trans (congrArg _ (Port.probeAgain_probes down timer h))),
    fun h => events (stands (Port.probeAgain_stands h)),
    fun r h => events (Plant.goodReply_off (by rw [hx]; exact h) r),
    fun r h => events (Plant.goodReply_unawaited hx r h),
    fun f b left h => events (Plant.deviceFault_off (by rw [hx]; exact h) f b left),
    fun f left h => events (Plant.deviceFault_between hx h f left),
    fun f left h => events (Plant.deviceFault_unawaited hx f left h),
    fun h => events (Plant.replyExpired_stands hx h), ?_, ?_, ?_, ?_, ?_, ?_, fun h => events (if_neg (by rw [hx]; exact h)), ?_, ?_, ?_⟩
  · intro out up timer shift sent more
    refine ⟨_, rfl, events ?_, fun f left => events ?_⟩
    · refine (Plant.replyExpired_fails hx up timer).trans ?_
      rw [Plant.attemptFails_resends hx sent more, Port.resend_empty shift]
    · obtain ⟨z, hz⟩ : ∃ z : Port, z = { x with flags := x.flags.mark f, rx := left } := ⟨_, rfl⟩
      refine (Plant.deviceFault_fails hx up timer f left).trans ?_
      rw [← hz, Plant.attemptFails_resends (s.plant.port_setPort_same i z) (by rw [hz]; exact sent) (by rw [hz]; exact more),
        Plant.setPort_setPort, Port.resend_empty (by rw [hz]; exact shift), hz]
  · intro k up timer sent unshared
    have ends : ∀ {cmd y o}, x.Ends i k cmd y o → y.claim = x.claim → y.slotCue = x.slotCue → y.slotPass = x.slotPass →
        exec cmd s = .next (s.passed ((s.plant.setPort i y).emit (.passOutcome i o))) := fun {cmd y o} h claim cue pass => by
      rw [exec_ends hx up timer sent h]
      refine events ?_
      have port : ((s.plant.setPort i y).emit (.passOutcome i o)).port i = y := s.plant.port_setPort_same i y
      refine Plant.settlePort_bare (p := (s.plant.setPort i y).emit (.passOutcome i o)) ?_ fun d hd => absurd hd (unshared.user d)
      rw [port]
      exact ⟨claim.trans (by rw [← hx, unshared.claim]), cue.trans (by rw [← hx, unshared.slotCue]),
        pass.trans (by rw [← hx, unshared.slotPass])⟩
    refine ⟨fun r o ho => ?_, fun last few => ?_, fun last garbled f left => ?_, fun last few noReply f left => ?_⟩
    · exact ends (.inl ⟨r, rfl, rfl, ho.trans (replyOutcome_eq k r).symm⟩) rfl rfl rfl
    · exact ends (.inr (.inl ⟨rfl, last, few, rfl, rfl⟩)) rfl rfl rfl
    · exact ends (.inr (.inr (.inl ⟨f, left, rfl, last, garbled, rfl, rfl⟩))) rfl rfl rfl
    · exact ends (.inr (.inr (.inr ⟨f, left, rfl, last, few, noReply, rfl, rfl⟩))) rfl rfl rfl
  · intro k c e cmd y o m up timer sent only h hm
    have ended : x.Ends i k cmd y o := h.imp_left fun ⟨r, hc, hy, ho⟩ => ⟨r, hc, hy, ho.trans (replyOutcome_eq k r).symm⟩
    have bare : y.Bare := by
      obtain ⟨claim, cue, pass, _, _⟩ := only
      rw [hx] at claim cue pass
      rcases ended with ⟨r, _, rfl, _⟩ | ⟨_, _, _, rfl, _⟩ | ⟨f, left, _, _, _, rfl, _⟩ | ⟨f, left, _, _, _, _, rfl, _⟩ <;>
        exact ⟨claim, cue, pass⟩
    obtain ⟨working, away⟩ := Plant.cueEnd_settles only bare hm (cmd := k)
    rw [exec_ends hx up timer sent ended]
    exact ⟨fun uses busy => events (working uses busy), fun h quiet => events (away h quiet)⟩
  · intro k c u live cmd y o up timer sent h
    have ended : x.Ends i k cmd y o := h.imp_left fun ⟨r, hc, hy, ho⟩ => ⟨r, hc, hy, ho.trans (replyOutcome_eq k r).symm⟩
    have handed : (s.plant.setPort i y).handOutcome i ⟨k, .changeover c u live⟩ o = (s.plant.setPort i y).listOutcome c i u live k o := rfl
    rw [exec_ends hx up timer sent ended, handed]
  · rintro p w c z u live k o rfl
    refine ⟨Plant.listOutcome_idle, fun busy hw => ?_⟩
    have written : p.writeLast c o = w := by
      rw [hw, Plant.writeLast, if_neg busy]
      rfl
    rw [← written]
    refine ⟨Plant.listOutcome_writes, ?_⟩
    rintro r rfl rfl hr
    exact Plant.listOutcome_fails busy hr
  · exact fun r down timer unshared queue => events (Plant.goodReply_probed hx down timer unshared queue r)
  · rintro y k up unshared kept sent rfl
    obtain ⟨claim, cue, pass, held, user⟩ := unshared
    rw [hx] at claim cue pass held
    refine ⟨?_, fun timer last third => ?_⟩
    · obtain ⟨z, hz⟩ : ∃ z : Port, z = { x with flags := { x.flags with brk := true }, rx := [] } := ⟨_, rfl⟩
      have owner : (s.plant.setPort i z).ownerOf i = s.plant.ownerOf i := Plant.ownerOf_congr
        (by rw [Plant.port_setPort_same, hz, hx]) (by rw [Plant.port_setPort_same, hz, hx]) fun _ => ⟨rfl, rfl⟩
      have fallen := Plant.enterDown_unreported (cause := .brk) (s.plant.port_setPort_same i z) (by rw [hz]; exact ⟨claim, cue, pass⟩) user
        (by rw [hz]; exact kept) (.inr ⟨k, by rw [hz]; exact sent, rfl⟩)
      have was : z.state = .up := by rw [hz]; exact up
      refine events ((Plant.portBreak_falls hx up).trans ?_)
      rw [← hz, fallen, Plant.setPort_setPort, owner, was, Port.down_eq (by rw [hz]; exact held), hz]
      rfl
    · obtain ⟨z, hz⟩ : ∃ z : Port, z = { x.ended with timeouts := 3, grantHeld := true } := ⟨_, rfl⟩
      obtain ⟨p, hp⟩ : ∃ p, p = (s.plant.setPort i z).sending [.passOutcome i .timeout] := ⟨_, rfl⟩
      have port : p.port i = z := by rw [hp]; exact s.plant.port_setPort_same i z
      have users : ∀ c, (p.chan c).portInUse ≠ some i := fun c => by rw [hp]; exact user c
      have bare : z.Bare := by rw [hz]; exact ⟨claim, cue, pass⟩
      have settled : ((s.plant.setPort i z).handOutcome i ⟨k, .pass⟩ .timeout).settlePort i = p := by
        have handed : (s.plant.setPort i z).handOutcome i ⟨k, .pass⟩ .timeout = p := by rw [hp]; rfl
        rw [handed]
        exact Plant.settlePort_bare (by rw [port]; exact bare) fun d hd => absurd hd (users d)
      have owner : p.ownerOf i = s.plant.ownerOf i := Plant.ownerOf_congr (by rw [port, hz, hx]; rfl)
        (by rw [port, hz, hx]; rfl) fun c => by
        rw [hp]
        exact ⟨rfl, rfl⟩
      have fallen := Plant.enterDown_unreported (cause := .timeouts) port bare users (by rw [hz, hp]; exact kept)
        (.inl ⟨by rw [hz]; rfl, rfl⟩)
      have was : z.state = .up := by rw [hz]; exact up
      have down : z.down = x.fallen := by rw [hz, ← Port.down_eq held]; rfl
      refine events ((Plant.replyExpired_fails hx up timer).trans ?_)
      rw [Plant.attemptFails_third hx sent last (failedOutcome_noReply (by simp)) third, ← hz, settled, fallen, owner, was, down, hp,
        Plant.sending_setPort, Plant.setPort_setPort, Plant.sending_sending]
      rfl
  · rintro y k c e cmd z up primary claim pass held others hc mode uses queue sent slot he rfl
    obtain ⟨w, hw⟩ : ∃ w : Port, w = { x with flags := { x.flags with brk := true }, rx := [] } := ⟨_, rfl⟩
    have owner : (s.plant.setPort i w).ownerOf i = s.plant.ownerOf i := Plant.ownerOf_congr
      (by rw [Plant.port_setPort_same, hw, hx]) (by rw [Plant.port_setPort_same, hw, hx]) fun _ => ⟨rfl, rfl⟩
    have fallen := Plant.enterDown_slot (cause := .brk) (s.plant.port_setPort_same i w) (by rw [hw]; exact primary)
      (by rw [hw]; exact claim)
      (by rw [hw]; exact pass) others hc mode queue (by rw [hw]; exact slot) he (k := k) (by rw [hw]; exact sent)
    have was : w.state = .up := by rw [hw]; exact up
    refine events ((Plant.portBreak_falls hx up).trans ?_)
    rw [← hw, fallen, Plant.setPort_setChan, Plant.setPort_setPort, owner, was, Port.down_eq (by rw [hw]; exact held), hw]
    rfl
  · rintro y k c up unshared spare holder orphaned sent rfl
    obtain ⟨claim, cue, pass, held, user⟩ := unshared
    rw [hx] at claim cue pass held
    obtain ⟨z, hz⟩ : ∃ z : Port, z = { x with flags := { x.flags with brk := true }, rx := [] } := ⟨_, rfl⟩
    have fallen := Plant.enterDown_orphan (cause := .brk) (s.plant.port_setPort_same i z) (by rw [hz]; exact ⟨claim, cue, pass⟩) user
      (by rw [hz]; exact spare) (by rw [hz]; exact holder) orphaned (.inr ⟨k, by rw [hz]; exact sent, rfl⟩)
    have was : z.state = .up := by rw [hz]; exact up
    refine events ((Plant.portBreak_falls hx up).trans ?_)
    rw [← hz, fallen, Plant.setPort_setPort, was, Port.down_eq (by rw [hz]; exact held), hz]
    rfl

end Sys2Proof.Machine
end

