-- ==== Sys2Proof/Proofs/SwitchLines.lean ====
section
/-! PROOFS. A channel's switch line: the line raised alone (R1, R141), switch following (R132), and the changes that leave the channel
outside local running (R157, R177). -/

namespace Sys2Proof.Machine

/-! ## The line raised -/

section
variable {p : Plant} {c : Chan} {x : Channel} {g : ChannelConfig} (hx : p.chan c = x) (hg : x.config = some g)
include hx hg

theorem Plant.reachLine_idle (hm : x.mode = .idle) : p.reachLine c = p := by
  simp only [Plant.reachLine, Plant.config, hx, hg, hm, if_true]

theorem Plant.reachLine_busy (hm : x.mode ≠ .idle) : p.reachLine c = p.raiseLines g.reference x.lineInForce := by
  simp only [Plant.reachLine, Plant.config, hx, hg, hm, if_false]

/-- R1: the one channel whose line is raised. -/
theorem Plant.lineChannels_only {upto : Nat} (hm : x.mode ≠ .idle) (line : x.lineInForce = upto) (late : (p.ref g.reference).raised < upto)
    (others : ∀ d, d ≠ c → ∀ k, p.config d = some k → k.reference = g.reference →
      (p.chan d).mode = .idle ∨ (p.chan d).lineInForce ≤ (p.ref g.reference).raised ∨ upto < (p.chan d).lineInForce) :
    p.lineChannels g.reference upto = [c] := by
  obtain ⟨here, hh⟩ : ∃ l, l = (p.bound g.reference).filter fun c =>
    decide ((p.ref g.reference).raised < (p.chan c).lineInForce) && decide ((p.chan c).lineInForce ≤ upto) := ⟨_, rfl⟩
  have nodup : here.Nodup := hh ▸ (allChans_nodup.filter _).filter _
  have only : ∀ d, d ∈ here ↔ d = c := fun d => by
    rw [hh, List.mem_filter, Plant.mem_bound]
    constructor
    · rintro ⟨⟨k, hk, hr, busy⟩, between⟩
      by_contra other
      rw [Bool.and_eq_true, decide_eq_true_eq, decide_eq_true_eq] at between
      rcases others d other k hk hr with idle | low | high
      · exact busy idle
      · omega
      · omega
    · rintro rfl
      refine ⟨⟨g, by rw [Plant.config, hx, hg], rfl, by rwa [hx]⟩, ?_⟩
      rw [Bool.and_eq_true, decide_eq_true_eq, decide_eq_true_eq, hx, line]
      exact ⟨late, Nat.le_refl _⟩
  have one : here = [c] := List.perm_singleton.mp ((List.perm_ext_iff_of_nodup nodup (List.nodup_singleton c)).mpr fun d => by
    rw [only, List.mem_singleton])
  rw [Plant.lineChannels, ← hh, one]
  exact List.perm_singleton.mp ((sortBy_perm _ _).trans (p.inFreeOrder_perm [c]))

/-- R1, R141: a line raised with no other between is the switch line of its channel alone. -/
theorem Plant.reachLine_alone {r : Reference} {q : Plant} (hm : x.mode ≠ .idle) (hr : r = p.ref g.reference)
    (late : r.raised < x.lineInForce)
    (others : ∀ d, d ≠ c → ∀ k, p.config d = some k → k.reference = g.reference →
      (p.chan d).mode = .idle ∨ (p.chan d).lineInForce ≤ r.raised ∨ x.lineInForce < (p.chan d).lineInForce)
    (hq : q = p.setRef g.reference { r with raised := x.lineInForce, line := max r.line x.lineInForce }) :
    ∃ n, p.reachLine c = { q.switchLine c with free := n } := by
  subst hr
  have raised : p.setRaised g.reference x.lineInForce = q := hq.symm
  refine ⟨(q.switchLine c).tickFree.free, ?_⟩
  rw [Plant.reachLine_busy hx hg hm, Plant.raiseLines, if_neg (Nat.not_le.mpr late),
    Plant.lineChannels_only hx hg hm rfl late others]
  simp only [List.foldl_cons, List.foldl_nil, hx, raised]
  have ref : (q.switchLine c).tickFree.ref g.reference =
      { p.ref g.reference with raised := x.lineInForce, line := max (p.ref g.reference).line x.lineInForce } := by
    refine (Plant.ref_of_rest (p := q) (Plant.switchLine_rest q c) g.reference).trans ?_
    rw [hq, Plant.ref_setRef_same]
  have stands : ({ (q.switchLine c).tickFree.ref g.reference with
      raised := x.lineInForce, line := max ((q.switchLine c).tickFree.ref g.reference).line x.lineInForce } : Reference) =
      (q.switchLine c).tickFree.ref g.reference := by
    rw [ref, Nat.max_eq_left (Nat.le_max_right _ _)]
  rw [Plant.setRaised, stands, Plant.setRef_self]
  rfl

end

/-! ## What the line of a channel outside local running makes -/

theorem Channel.returnDue_not {x : Channel} (h : x.mode ≠ .returning) : x.returnDue = false :=
  Bool.eq_false_iff.mpr fun due => h ((Channel.returnDue_iff x).mp due).1

theorem Mode.running_not {m : Mode} (h : m.running = false) : m ≠ .returning := by
  rintro rfl
  exact Bool.noConfusion h

section
variable {p : Plant} {c : Chan} {x : Channel} (hx : p.chan c = x)
include hx

/-- R141: the changes due are made in their order, then a pending adoption. -/
theorem Plant.switchLine_waits (hm : x.mode.running = false) : p.switchLine c =
    let q := ((x.pendingSw.filter fun w => w.frame ≤ x.now).foldl (fun q w => q.makeSwitch c w)
      (p.wrote c { x with pendingSw := x.pendingSw.filter fun w => !decide (w.frame ≤ x.now) } [])).adoptLine c
    if (q.chan c).mode.running then q.noteCover c else q := by
  rw [Plant.switchLine_undue hx (Channel.returnDue_not (Mode.running_not hm)), Plant.modChan_wrote, hx]
  simp only [hm, Bool.false_and, Bool.false_eq_true, if_false]

/-- R141, R176: with no change pending, a pending adoption. -/
theorem Plant.switchLine_adopts (hm : x.mode.running = false) (hp : x.pendingSw = []) : p.switchLine c =
    if ((p.adoptLine c).chan c).mode.running then (p.adoptLine c).noteCover c else p.adoptLine c := by
  have same : p.wrote c { x with pendingSw := [] } [] = p := by
    rw [← hp, ← hx]
    exact p.wrote_self c
  rw [Plant.switchLine_waits hx hm, hp]
  simp only [List.filter_nil, List.foldl_nil, same]

/-- R141: with nothing pending the channel stands. -/
theorem Plant.switchLine_stands (hm : x.mode.running = false) (hp : x.pendingSw = []) (ha : x.adoption = none) : p.switchLine c = p := by
  rw [Plant.switchLine_adopts hx hm hp, Plant.adoptLine_none hx ha, hx, hm]
  rfl

/-- R141: the one change pending is made. -/
theorem Plant.switchLine_makes {w : PendingSw} {q : Plant} (hm : x.mode.running = false) (hp : x.pendingSw = [w]) (hw : w.frame ≤ x.now)
    (hq : (p.wrote c { x with pendingSw := [] } []).makeSwitch c w = q) (ha : (q.chan c).adoption = none)
    (still : (q.chan c).mode.running = false) : p.switchLine c = q := by
  rw [Plant.switchLine_waits hx hm, hp]
  simp only [List.filter_cons, hw, decide_true, if_true, Bool.not_true, Bool.false_eq_true, if_false, List.filter_nil, List.foldl_cons,
    List.foldl_nil, hq, Plant.adoptLine_none rfl ha, still]

/-- R157: the way back of an abort. -/
theorem Plant.switchLine_aborts {w : PendingSw} (hm : x.mode = .taking) (ha : x.adoption = none) (hp : x.pendingSw = [w])
    (act : w.act = .abort) (hw : w.frame ≤ x.now) : p.switchLine c =
      p.wrote c { x with mode := .shadow, switch := .main, pendingSw := [] } (p.switched c { x with mode := .shadow } .main .abort) := by
  have made : (p.wrote c { x with pendingSw := [] } []).makeSwitch c w =
      p.wrote c { x with mode := .shadow, switch := .main, pendingSw := [] } (p.switched c { x with mode := .shadow } .main .abort) := by
    simp only [Plant.makeSwitch, act, Plant.wrote_chan, hm, if_true]
    rw [Plant.setMode, Plant.wrote_modChan, Plant.wrote_setSwitch p c _ [] (by rw [hx]) (by rw [hx])]
    rfl
  refine Plant.switchLine_makes hx (by rw [hm]; rfl) hp hw made ?_ ?_ <;> rw [Plant.wrote_chan]
  · exact ha
  · rfl

end

/-! ## RELEASE (R177) -/

section
variable {p u : Plant} {c : Chan} {x : Channel}

/-- R177: the channel released to a target. -/
def Plant.releasedTo (q : Plant) (c : Chan) : ReleaseTarget → Plant
  | .filler => q.setSwitch c .filler .release
  | .main .shadow =>
    let v := (((q.setMode c .shadow).setSwitch c .main .release).backToPrimary c).awaitBase c
    if (q.chan c).replica.state = .awaitBase then v else v.tellReplica c (q.chan c).replica.state .released none
  | .main .idle => ((q.setMode c .idle).setSwitch c .main .release).clearChannel c

/-- R177: an accepted RELEASE at its line. -/
theorem Plant.releaseLine_of {t : ReleaseTarget} (hr : (u.chan c).release = some t) (hm : (u.chan c).mode = .orphaned) :
    u.releaseLine c = (u.modChan c fun x => { x with release := none }).releasedTo c t := by
  have orphaned : ¬(u.chan c).mode ≠ .orphaned := fun h => h hm
  rw [Plant.releaseLine, hr]
  simp only [if_neg orphaned]
  rcases t with _ | _ | _ <;> rfl

/-- R139: what CLEAR CHANNEL's work leaves. -/
theorem Plant.clearChannel_parts (p : Plant) (c : Chan) {q : Plant} (hq : q = p.clearChannel c) :
    q.chan c = { Channel.reset with switch := (p.chan c).switch } ∧ c ∉ q.spareQueue ∧ (∀ h ∈ q.hold, h.channel ≠ c) ∧
    .dropBack c ∈ q.outbox ∧ .clearMissed c ∈ q.outbox ∧ q.NoSlot c ∧ p.Still q := by
  have rest := Plant.still_of_rest ((p.clearChannel_rest c))
  rw [← hq] at rest
  rw [p.clearChannel_eq c] at hq
  have waits := p.cleared_spareQueue c
  obtain ⟨u, hu⟩ : ∃ u, u = p.cleared c := ⟨_, rfl⟩
  rw [← hu] at hq waits
  have ports : ∀ i, q.port i =
      ((u.port i).withdrawSlot c fun _ => true).markOutstanding c fun s => if true then { s with standing := .removed } else s :=
    fun i => by rw [hq]; exact Plant.port_mapPorts _ _ i
  have hold : q.hold = u.hold.filter fun h => h.channel != c := by
    rw [hq]
    exact congrArg Plant.hold ((u.withdrawCue c fun _ => true).discard_all c)
  refine ⟨by rw [hq]; exact Plant.chan_setChan_same _ c _, by rw [hq]; exact waits, fun h hh => ?_, ?_, ?_, fun i k h => ?_, rest⟩
  · rw [hold] at hh
    exact bne_iff_ne.mp (List.mem_filter.mp hh).2
  · rw [hq]
    exact List.mem_append_left _ (List.mem_append_right _ (List.mem_singleton_self _))
  · rw [hq]
    exact List.mem_append_right _ (List.mem_singleton_self _)
  · rw [ports, Port.markOutstanding_slotCue] at h
    exact Port.withdrawSlot_empty _ c k h

/-- R139: what had been handed out before stays handed out. -/
theorem Plant.clearChannel_mem (p : Plant) (c : Chan) {o : Outgoing} (ho : o ∈ p.outbox) : o ∈ (p.clearChannel c).outbox := by
  have told : p.Tells (p.cleared c) := by
    have unbound : p.Tells (p.unbound c) := Plant.releaseSpare_tells ((Plant.Tells.refl p).of_eq (by rfl)) c
    unfold Plant.cleared
    split
    · exact Plant.settlePort_tells (unbound.of_eq (by rfl)) _
    · exact unbound
  rw [p.clearChannel_eq c]
  exact List.mem_append_left _ (List.mem_append_left _ (told.mem ho))

/-- R70: of a channel whose entries have left the hold none is counted. -/
theorem Plant.holdCount_gone (q : Plant) {l : List HoldEntry} (gone : q.hold = l.filter fun h => h.channel != c) (k : HoldKind) :
    q.holdCount c k = 0 := by
  rw [Plant.holdCount, gone, List.filter_filter, List.length_eq_zero_iff, List.filter_eq_nil_iff]
  intro h _
  rcases Decidable.em (h.channel = c) with same | other
  · simp [same]
  · simp [other]

/-- R53, R70: a replica that waits for a BASE. -/
theorem Plant.wrote_awaitBase (y : Channel) (os : List Outgoing) : (p.wrote c y os).awaitBase c =
    { p.wrote c { y with replica := { Replica.reset with reloadTimer := some 0 } } (os ++ [.back (.askReload c)]) with
      hold := p.hold.filter fun h => h.channel != c } := by
  have waits := p.wrote_modChan c y os fun x => { x with replica := { Replica.reset with reloadTimer := some 0 } }
  rw [Plant.awaitBase_eq]
  refine Eq.trans (b := { (p.wrote c y os).modChan c fun x => { x with replica := { Replica.reset with reloadTimer := some 0 } } with
      hold := p.hold.filter (fun h => h.channel != c), outbox := p.outbox ++ os ++ [.back (.askReload c)] }) rfl ?_
  rw [waits, List.append_assoc]
  rfl

section
variable (hx : p.chan c = x) {w : PendingSw} (hm : x.mode = .orphaned) (ha : x.adoption = none) (hp : x.pendingSw = [w])
  (act : w.act = .release) (hw : w.frame ≤ x.now)
include hx hm ha hp act hw

omit ha in
theorem Plant.switchLine_releases {q : Plant}
    (hq : (p.wrote c { x with pendingSw := [] } []).releaseLine c = q) (adopt : (q.chan c).adoption = none)
    (still : (q.chan c).mode.running = false) : p.switchLine c = q := by
  refine Plant.switchLine_makes hx (by rw [hm]; rfl) hp hw ?_ adopt still
  simp only [Plant.makeSwitch, act, hq]

theorem Plant.switchLine_releases_filler (hr : x.release = some .filler) : p.switchLine c =
    p.wrote c { x with switch := .filler, release := none, pendingSw := [] } (p.switched c x .filler .release) := by
  have made : (p.wrote c { x with pendingSw := [] } []).releaseLine c =
      p.wrote c { x with switch := .filler, release := none, pendingSw := [] } (p.switched c x .filler .release) := by
    rw [Plant.releaseLine_of (by rw [Plant.wrote_chan]; exact hr) (by rw [Plant.wrote_chan]; exact hm), Plant.wrote_modChan]
    exact Plant.wrote_setSwitch p c _ [] (by rw [hx]) (by rw [hx]) _ _
  refine Plant.switchLine_releases hx hm hp act hw made ?_ ?_ <;> rw [Plant.wrote_chan]
  · exact ha
  · exact congrArg Mode.running hm

theorem Plant.switchLine_releases_shadow {g : ChannelConfig} (hg : x.config = some g) (hr : x.release = some (.main .shadow)) :
    p.switchLine c = { p.setChan c { x with
        mode := .shadow, switch := .main, release := none, pendingSw := [], portInUse := some g.primary
        replica := { Replica.reset with reloadTimer := some 0 } } with
      hold := p.hold.filter fun h => h.channel != c
      outbox := p.outbox ++ p.switched c { x with mode := .shadow } .main .release ++ [.back (.askReload c)] ++
        (if x.replica.state = .awaitBase then [] else
          [.notice ⟨.replicaState, some c, u8 x.replica.state.code ++ u8 0 ++ u8 13 ++ u8 0 ++ u8 0 ++ u8 0 ++
            u8 0 ++ u8 0 ++ u8 0⟩]) } := by
  obtain ⟨u, hu⟩ : ∃ u, u = p.wrote c { x with
      mode := .shadow, switch := .main, release := none, pendingSw := [], portInUse := some g.primary }
    (p.switched c { x with mode := .shadow } .main .release) := ⟨_, rfl⟩
  have made : (p.wrote c { x with pendingSw := [] } []).releaseLine c = if x.replica.state = .awaitBase then u.awaitBase c else
      (u.awaitBase c).tellReplica c x.replica.state .released none := by
    rw [Plant.releaseLine_of (by rw [Plant.wrote_chan]; exact hr) (by rw [Plant.wrote_chan]; exact hm), Plant.wrote_modChan,
      Plant.releasedTo, Plant.setMode, Plant.wrote_modChan, Plant.wrote_setSwitch p c _ [] (by rw [hx]) (by rw [hx]), Plant.wrote_chan,
      Plant.backToPrimary, Plant.usePort, Plant.wrote_modChan, hu, Plant.primary_of_config (by rw [Plant.wrote_chan]; exact hg)]
    rfl
  refine Plant.switchLine_releases hx hm hp act hw (made.trans ?_) ?_ ?_
  · obtain ⟨v, hv⟩ : ∃ v, v = u.awaitBase c := ⟨_, rfl⟩
    have wrote : v = { p.wrote c { x with
        mode := .shadow, switch := .main, release := none, pendingSw := [], portInUse := some g.primary
        replica := { Replica.reset with reloadTimer := some 0 } }
          (p.switched c { x with mode := .shadow } .main .release ++ [.back (.askReload c)]) with
      hold := p.hold.filter fun h => h.channel != c } := by
      rw [hv, hu, Plant.wrote_awaitBase]
    have told : v.replicaNotice c x.replica.state ReplicaReason.released.code none = ⟨.replicaState, some c,
        u8 x.replica.state.code ++ u8 0 ++ u8 13 ++ u8 0 ++ u8 0 ++ u8 0 ++ u8 0 ++ u8 0 ++ u8 0⟩ := by
      have count := v.holdCount_gone (c := c) (l := p.hold) (by rw [wrote])
      have own : (v.chan c).replica = { Replica.reset with reloadTimer := some 0 } := by
        rw [wrote]
        exact (congrArg Channel.replica (p.chan_setChan_same c _) :)
      simp only [Plant.replicaNotice, count, own]
      rfl
    rw [← hv, Plant.tellReplica_eq, told]
    rcases Decidable.em (x.replica.state = .awaitBase) with waits | tells
    · rw [if_pos waits, if_pos waits, List.append_nil, wrote, Plant.wrote]
      simp only [List.append_assoc]
    · rw [if_neg tells, if_neg tells, wrote, Plant.wrote, Plant.emit]
      simp only [List.append_assoc]
  · exact (congrArg Channel.adoption (p.chan_setChan_same c _)).trans ha
  · exact congrArg Mode.running (congrArg Channel.mode (p.chan_setChan_same c _))

omit ha in
/-- R177, R139: a RELEASE to MAIN and IDLE. -/
theorem Plant.switchLine_releases_idle (hr : x.release = some (.main .idle)) {q : Plant} (hq : q = p.switchLine c) :
    q.chan c = { Channel.reset with switch := .main } ∧ c ∉ q.spareQueue ∧ (∀ h ∈ q.hold, h.channel ≠ c) ∧
    (∀ o ∈ p.switched c { x with mode := .idle } .main .release, o ∈ q.outbox) ∧ .dropBack c ∈ q.outbox ∧ .clearMissed c ∈ q.outbox ∧
    q.NoSlot c ∧ p.Still q := by
  obtain ⟨u, hu⟩ : ∃ u, u = p.wrote c { x with mode := .idle, switch := .main, release := none, pendingSw := [] }
    (p.switched c { x with mode := .idle } .main .release) := ⟨_, rfl⟩
  have made : (p.wrote c { x with pendingSw := [] } []).releaseLine c = u.clearChannel c := by
    rw [Plant.releaseLine_of (by rw [Plant.wrote_chan]; exact hr) (by rw [Plant.wrote_chan]; exact hm), Plant.wrote_modChan,
      Plant.releasedTo, Plant.setMode, Plant.wrote_modChan, Plant.wrote_setSwitch p c _ [] (by rw [hx]) (by rw [hx]), hu]
    rfl
  obtain ⟨chan, spares, hold, back, missed, slots, -⟩ := u.clearChannel_parts c rfl
  have own : (u.clearChannel c).chan c = { Channel.reset with switch := .main } := by
    rw [chan, hu, Plant.wrote_chan]
  rw [Plant.switchLine_releases hx hm hp act hw made (by rw [own]; rfl) (by rw [own]; rfl)] at hq
  subst hq
  refine ⟨own, spares, hold, fun o ho => u.clearChannel_mem c ?_, back, missed, slots, ?_⟩
  · rw [hu]
    exact List.mem_append_right _ ho
  · exact Plant.still_of_rest ((u.clearChannel_rest c).trans (by rw [hu, Plant.wrote_rest]))

end

/-! ## Switch following (R132) -/

section
variable (hx : p.chan c = x) (hm : x.mode = .onLocal)
include hx hm

/-- R132: in LOCAL with nothing pending and the covering event followed already, the channel stands. -/
theorem Plant.switchLine_follows_none (ha : x.adoption = none) (hp : x.pendingSw = []) (same : x.covering.map (·.id) = x.cover) :
    p.switchLine c = p := by
  have self : ∀ y, y = x → p.wrote c y [] = p := fun y hy => by rw [hy, ← hx]; exact p.wrote_self c
  have acted : (x.covering.map (·.id) != x.cover) = false := by simpa using same
  have later : p.wrote c { x with pendingSw := [] } [] = p := self _ (by rw [← hp])
  rw [Plant.switchLine_undue hx (Channel.returnDue_not (by rw [hm]; decide)), Plant.modChan_wrote, hx]
  simp only [acted, Bool.and_false, Bool.false_eq_true, if_false, hp, List.filter_nil, List.foldl_nil, later,
    Plant.adoptLine_none hx ha]
  rw [hx, hm, if_pos (show Mode.onLocal.running = true from rfl), Plant.noteCover, Plant.modChan_wrote, hx]
  exact self _ (by rw [same])

/-- R132: where nothing holds the switch it follows the covering event. -/
theorem Plant.switchLine_follows (free : ∀ w ∈ x.pendingSw, w.cause = .follow) (next : x.covering.map (·.id) ≠ x.cover) :
    p.switchLine c =
      (p.wrote c { x with pendingSw := x.pendingSw.filter fun w => decide (x.now < w.frame) } []).follow c := by
  have held : x.held = false := by
    rw [Channel.held, List.any_eq_false]
    intro w hw
    simp [free w hw]
  have acts : (x.covering.map (·.id) != x.cover) = true := bne_iff_ne.mpr next
  have later : (fun w : PendingSw => !decide (w.frame ≤ x.now)) = fun w => decide (x.now < w.frame) := by
    funext w
    rw [← decide_not]
    exact decide_eq_decide.mpr Nat.not_le
  rw [Plant.switchLine_undue hx (Channel.returnDue_not (by rw [hm]; decide)), Plant.modChan_wrote, hx]
  have runs : x.mode.running = true := by rw [hm]; rfl
  simp only [held, acts, runs, Bool.not_false, Bool.and_self, if_true, later]

end

section
variable (hg : x.config = (p.chan c).config) (hb : x.baseDay = (p.chan c).baseDay)
include hg hb

theorem Plant.follow_local (pos : x.followPos = .onLocal) : (p.wrote c x []).follow c =
    p.wrote c { x with switch := .onLocal, cover := x.covering.map (·.id) } (p.switched c x .onLocal .follow) := by
  simp only [Plant.follow, Plant.wrote_chan, pos, Plant.noteCover, Plant.wrote_modChan]
  exact p.wrote_setSwitch c { x with cover := x.covering.map (·.id) } [] hg hb _ _

theorem Plant.follow_filler (pos : x.followPos = .filler) : (p.wrote c x []).follow c =
    (p.wrote c { x with switch := .filler, cover := x.covering.map (·.id) } (p.switched c x .filler .follow)).cutOnFiller c x.switch := by
  simp only [Plant.follow, Plant.wrote_chan, pos, Plant.noteCover, Plant.wrote_modChan, Plant.toFiller]
  exact congrArg (fun q : Plant => q.cutOnFiller c x.switch)
    (p.wrote_setSwitch c { x with cover := x.covering.map (·.id) } [] hg hb _ _)

theorem Plant.cutOnFiller_cuts {os : List Outgoing} {before : SwitchPos} {o : OpenEntry} (ho : x.openEntry = some o)
    (hm : x.mode.running = true) (ends : x.endsOnFiller before o = true) : (p.wrote c x os).cutOnFiller c before =
      p.wrote c { x with openEntry := none, playlist := loggedAs o.event x.playlist } (os ++ [p.closing c o x.now .cut]) := by
  simp only [Plant.cutOnFiller, Plant.wrote_chan, ho, hm, ends, Bool.and_self, if_true]
  exact Plant.wrote_closeEntry hg hb ho .cut x.now

omit hg hb in
theorem Plant.cutOnFiller_stays {q : Plant} {before : SwitchPos}
    (stays : ∀ o, (q.chan c).openEntry = some o → (q.chan c).endsOnFiller before o = false) : q.cutOnFiller c before = q := by
  rw [Plant.cutOnFiller]
  split
  · next o ho => rw [stays o ho, Bool.and_false, if_neg Bool.false_ne_true]
  · rfl

end

/-- R161, R165: which open entry FILLER ends. -/
theorem Channel.endsOnFiller_iff (x : Channel) (before : SwitchPos) (o : OpenEntry) : x.endsOnFiller before o = true ↔
    o.port ≠ none ∧ o.kind ≠ .filler ∧ (before ≠ .filler ∨ o.kind = .start) ∧
      ∀ e, findEvent x.playlist o.event = some e → e.kind = .clip := by
  have clips : (findEvent x.playlist o.event).all (fun e => e.kind == .clip) = true ↔
      ∀ e, findEvent x.playlist o.event = some e → e.kind = .clip := by
    cases findEvent x.playlist o.event <;> simp
  simp only [Channel.endsOnFiller, Channel.fromServer, Bool.and_eq_true, Bool.or_eq_true, bne_iff_ne, beq_iff_eq,
    Option.isSome_iff_ne_none, clips, and_assoc]
  exact and_congr_right fun _ => and_congr_right fun _ => and_comm

/-- R132: where the channel's switch follows its covering event to. -/
theorem Channel.followPos_local {e : Event} (he : x.covering = some e) (clip : e.kind = .clip) (on : e.skipEnded = false)
    (port : x.portInUse ≠ none) (runs : (if e.cue = .airing then e.begunHalted else x.seq.halted) = false) : x.followPos = .onLocal := by
  have served : x.portInUse.isSome = true := Option.isSome_iff_ne_none.mpr port
  have issues : x.haltedFor e = false := runs
  simp only [Channel.followPos, he, clip, on, served, issues, Bool.not_false, and_self, if_true]

theorem Channel.followPos_filler (off : ∀ e, x.covering = some e → e.kind = .filler ∨ e.skipEnded = true ∨ x.portInUse = none ∨
    (if e.cue = .airing then e.begunHalted else x.seq.halted) = true) : x.followPos = .filler := by
  rw [Channel.followPos]
  split
  · next e he =>
    refine if_neg fun ⟨clip, issues, on, served⟩ => ?_
    have runs : ¬(if e.cue = .airing then e.begunHalted else x.seq.halted) = true := by simpa [Channel.haltedFor] using issues
    rcases off e he with filler | ended | port | halted
    · rw [filler] at clip
      exact nomatch clip
    · simp [ended] at on
    · simp [port] at served
    · exact runs halted
  · rfl

end

end Sys2Proof.Machine
end

