-- ==== Sys2Proof/Proofs/Adoptions.lean ====
section
/-! PROOFS. An adoption at its switch line (R176): one that fails, one that is carried out, and what the loss of its port leaves. -/

namespace Sys2Proof.Machine

/-! ## An adoption fails -/

/-- R111: a channel that waits for no spare and gives its own back. -/
theorem Plant.releaseSpare_plan {p : Plant} {c : Chan} (hc : c ∉ p.spareQueue) : ((p.releaseSpare c).chan c).plan = (p.chan c).plan := by
  rw [Plant.releaseSpare]
  split
  · rfl
  · next i _ =>
    obtain ⟨chan, -⟩ := Plant.spareFreed_unwaiting (c := c) (p := p.modPort i fun x =>
      { (x.withdrawLists c true).withdrawSlot c (fun _ => true) with holder := none }) i hc
    exact (congrFun (Plant.settlePort_plans _ i) c).trans (congrArg Channel.plan chan)

section
variable {p : Plant} {c : Chan} {x : Channel} {g : ChannelConfig} (hx : p.chan c = x) (hg : x.config = some g)
include hx hg

theorem Plant.adoptFailed_eq (r : AdoptReason) : p.adoptFailed c r =
    (((p.wrote c { x with adoption := none, portInUse := some g.primary } []).leaveQueue c).releaseSpare c).notify .adoptFailed (some c)
      (u8 r.code) := by
  rw [Plant.adoptFailed, Plant.modChan_wrote, Plant.backToPrimary, Plant.usePort, Plant.wrote_modChan, hx,
    Plant.primary_of_config (by rw [Plant.wrote_chan]; exact hg)]

/-- R176: an adoption that fails where the channel holds no spare and waits for none. -/
theorem Plant.adoptFailed_bare (r : AdoptReason) (hc : c ∉ p.spareQueue) (hh : ∀ i, (p.port i).holder ≠ some c) : p.adoptFailed c r =
    p.wrote c { x with adoption := none, portInUse := some g.primary } [.notice ⟨.adoptFailed, some c, u8 r.code⟩] := by
  rw [Plant.adoptFailed_eq hx hg, Plant.leaveQueue_absent (by exact hc), Plant.releaseSpare_none (by exact hh), Plant.wrote_notify,
    List.nil_append]

/-- R176: an adoption that fails. -/
theorem Plant.adoptFailed_left (r : AdoptReason) {q : Plant} (hq : q = p.adoptFailed c r) :
    (q.chan c).mode = x.mode ∧ (q.chan c).adoption = none ∧ (q.chan c).portInUse = some g.primary ∧ c ∉ q.spareQueue ∧
    ⟨.adoptFailed, some c, u8 r.code⟩ ∈ q.notices ∧
    ((∀ i j, (p.port i).holder = some c → (p.port j).holder = some c → i = j) → ∀ i, (q.port i).holder ≠ some c) := by
  obtain ⟨u, hu⟩ : ∃ u, u = (p.wrote c { x with adoption := none, portInUse := some g.primary } []).leaveQueue c := ⟨_, rfl⟩
  have chan : u.chan c = { x with adoption := none, portInUse := some g.primary } := by
    rw [hu, Plant.leaveQueue_chan, Plant.wrote_chan]
  have queue : c ∉ u.spareQueue := by
    rw [hu]
    simp [Plant.leaveQueue]
  have ports : ∀ j, u.port j = p.port j := fun j => by rw [hu]; rfl
  have plan := Plant.releaseSpare_plan queue
  rw [chan] at plan
  rw [Plant.adoptFailed_eq hx hg, ← hu] at hq
  subst hq
  refine ⟨(congrArg Channel.mode plan :), (congrArg Channel.adoption plan :), (congrArg Channel.portInUse plan :),
    (Plant.releaseSpare_spares queue).1, Plant.mem_notices.mpr (List.mem_append_right _ (List.mem_singleton_self _)), fun one i => ?_⟩
  exact Plant.releaseSpare_holds_none queue (fun i j => by rw [ports, ports]; exact one i j) i

end

/-! ## What stays on air -/

/-- Every event on air of a list is on air in the other. -/
def AirsOn (l l' : List Event) : Prop :=
  ∀ n, (∀ e ∈ l, e.id = n → e.cue = .airing) → ∀ e ∈ l', e.id = n → e.cue = .airing

theorem airsOn_map (l : List Event) {f : Event → Event} (h : ∀ e, (f e).id = e.id ∧ (e.cue = .airing → (f e).cue = .airing)) :
    AirsOn l (l.map f) := by
  rintro n airs e he rfl
  obtain ⟨k, hk, rfl⟩ := List.mem_map.mp he
  exact (h k).2 (airs k hk (h k).1.symm)

theorem airsOn_modEvent (l : List Event) (id : Nat) {f : Event → Event}
    (h : ∀ e, (f e).id = e.id ∧ (e.cue = .airing → (f e).cue = .airing)) : AirsOn l (modEvent l id f) :=
  airsOn_map l fun e => by
    split
    · exact h e
    · exact ⟨rfl, fun airs => airs⟩

theorem AirsOn.trans {l m n : List Event} (h : AirsOn l m) (k : AirsOn m n) : AirsOn l n := fun i airs => k i (h i airs)

theorem AirsOn.refl (l : List Event) : AirsOn l l := fun _ airs => airs

/-- Where one of the events that bear an id is not on air, what they become is no matter. -/
theorem airsOn_modEvent_off {l : List Event} {k : Event} (hk : k ∈ l) (off : k.cue ≠ .airing) {f : Event → Event}
    (h : ∀ e, (f e).id = e.id) : AirsOn l (modEvent l k.id f) := by
  rintro n airs e he rfl
  obtain ⟨m, hm, rfl⟩ := List.mem_map.mp he
  have ids : (if m.id == k.id then f m else m).id = m.id := by
    split
    · exact h m
    · rfl
  rw [ids] at airs
  have other : m.id ≠ k.id := fun same => off (airs k hk same.symm)
  rw [if_neg (fun same => other (beq_iff_eq.mp same))]
  exact airs m hm rfl

theorem airsOn_unmarks (q : List StepEntry) (l : List Event) : AirsOn l (q.foldl unmarkProgress l) := by
  induction q generalizing l with
  | nil => exact .refl l
  | cons s q ih =>
    have step : AirsOn l (unmarkProgress l s) := by
      unfold unmarkProgress
      split
      · exact airsOn_modEvent l _ fun _ => ⟨rfl, fun airs => airs⟩
      · exact .refl l
    exact step.trans (ih _)

theorem Plant.passOver_airs (p : Plant) (e : Event) : (p.passOver e).id = e.id ∧ (e.cue = .airing → (p.passOver e).cue = .airing) := by
  have id : (p.passOver e).id = e.id := (congrArg Event.id (p.passOver_course e) :)
  refine ⟨id, fun airs => ?_⟩
  simp only [Plant.passOver, airs]

/-- R131: an event on air that is passed over stays on air. -/
theorem Plant.passOverTo_airs (p : Plant) (target : Option Nat) (l : List Event) : AirsOn l (p.passOverTo target l) := by
  have one : ∀ e ∈ p.passOverTo target l, ∃ k ∈ l, k.id = e.id ∧ (k.cue = .airing → e.cue = .airing) := by
    induction l with
    | nil => exact fun _ h => absurd h List.not_mem_nil
    | cons k l ih =>
      intro e he
      rw [Plant.passOverTo] at he
      split at he
      · rcases List.mem_cons.mp he with rfl | he
        · exact ⟨k, List.mem_cons_self, rfl, fun airs => airs⟩
        · exact ⟨e, List.mem_cons_of_mem _ he, rfl, fun airs => airs⟩
      · rcases List.mem_cons.mp he with rfl | he
        · obtain ⟨id, airs⟩ := p.passOver_airs k
          exact ⟨k, List.mem_cons_self, id.symm, airs⟩
        · obtain ⟨m, hm, same⟩ := ih e he
          exact ⟨m, List.mem_cons_of_mem _ hm, same⟩
  rintro n airs e he rfl
  obtain ⟨k, hk, id, on⟩ := one e he
  exact on (airs k hk id)

/-- The channels' modes and adoptions stand, and so does what they have on air. -/
def Plant.Airs (p q : Plant) : Prop := ∀ d, (q.chan d).mode = (p.chan d).mode ∧ (q.chan d).adoption = (p.chan d).adoption ∧
  AirsOn (p.chan d).playlist (q.chan d).playlist

theorem Plant.Airs.refl (p : Plant) : p.Airs p := fun _ => ⟨rfl, rfl, .refl _⟩

theorem Plant.Airs.trans {p q m : Plant} (h : p.Airs q) (k : q.Airs m) : p.Airs m := fun d =>
  ⟨(k d).1.trans (h d).1, (k d).2.1.trans (h d).2.1, (h d).2.2.trans (k d).2.2⟩

section
variable {a p : Plant} (h : a.Airs p)
include h

theorem Plant.Airs.of_chans {q : Plant} (e : ∀ d, q.chan d = p.chan d) : a.Airs q := fun d => by
  rw [e]
  exact h d

theorem Plant.modChan_airs (c : Chan) {f : Channel → Channel} (hf : (f (p.chan c)).mode = (p.chan c).mode ∧
    (f (p.chan c)).adoption = (p.chan c).adoption ∧ AirsOn (p.chan c).playlist (f (p.chan c)).playlist) : a.Airs (p.modChan c f) := by
  refine h.trans fun d => ?_
  rw [Plant.chan_modChan]
  split
  · next e =>
    subst e
    exact hf
  · exact ⟨rfl, rfl, .refl _⟩

/-- What leaves the events as they are. -/
theorem Plant.modChan_airs_same (c : Chan) {f : Channel → Channel} (hf : (f (p.chan c)).mode = (p.chan c).mode ∧
    (f (p.chan c)).adoption = (p.chan c).adoption ∧ (f (p.chan c)).playlist = (p.chan c).playlist) : a.Airs (p.modChan c f) :=
  Plant.modChan_airs h c ⟨hf.1, hf.2.1, by rw [hf.2.2]; exact .refl _⟩

theorem Plant.modEvent_airs (c : Chan) (id : Nat) {f : Event → Event}
    (hf : ∀ e, (f e).id = e.id ∧ (e.cue = .airing → (f e).cue = .airing)) : a.Airs (p.modEvent c id f) :=
  Plant.modChan_airs h c ⟨rfl, rfl, airsOn_modEvent _ id hf⟩

/-! ## The Cue Sequencer -/

theorem Plant.writeLast_airs (c : Chan) (o : DevOutcome) : a.Airs (p.writeLast c o) := by
  unfold Plant.writeLast
  split
  · exact h
  · exact Plant.modChan_airs_same h c ⟨rfl, rfl, rfl⟩

theorem Plant.haltSequence_airs (c : Chan) (cause : HaltCause) : a.Airs (p.haltSequence c cause) := by
  unfold Plant.haltSequence
  split
  · exact h
  · have halts := Plant.modChan_airs_same h c (f := fun x => { x with seq := { x.seq with halted := true, queue := [] } }) ⟨rfl, rfl, rfl⟩
    cases cause <;> exact halts

theorem Plant.dropRepetitions_airs (c : Chan) (s : StepEntry) : a.Airs (p.dropRepetitions c s) := by
  unfold Plant.dropRepetitions
  simp only
  split
  · exact Plant.modEvent_airs (Plant.modChan_airs_same h c ⟨rfl, rfl, rfl⟩) c _ fun _ => ⟨rfl, fun airs => airs⟩
  · exact Plant.modChan_airs_same h c ⟨rfl, rfl, rfl⟩

theorem Plant.skipEvent_airs (c : Chan) (s : StepEntry) : a.Airs (p.skipEvent c s) := by
  have drop := Plant.modChan_airs_same h c (f := fun x => x.dropEntriesLike s) ⟨rfl, rfl, rfl⟩
  have list : ((p.modChan c fun x => x.dropEntriesLike s).chan c).playlist = (p.chan c).playlist := by
    rw [Plant.chan_modChan_same]
    rfl
  unfold Plant.skipEvent
  generalize (p.modChan c fun x => x.dropEntriesLike s) = q at drop list
  have spends : ∀ f : Event → Event, (∀ e, (f e).id = e.id ∧ (e.cue = .airing → (f e).cue = .airing)) → a.Airs (q.modEvent c s.event f) :=
    fun f => Plant.modEvent_airs drop c _
  simp only
  split
  · exact drop
  · split
    · exact drop
    · next e found =>
      have id : e.id = s.event := by simpa using List.find?_some found
      have skips : e.cue ≠ .airing → a.Airs (q.modEvent c s.event fun e =>
          p.skip { e with progress := e.progress ++ repetitions (p.templateOf e) }) := fun off => by
        refine Plant.modChan_airs drop c ⟨rfl, rfl, ?_⟩
        rw [← id]
        exact airsOn_modEvent_off (by rw [list]; exact List.mem_of_find?_eq_some found) off
          fun e => (congrArg Event.id (p.skip_course _) :)
      split
      · next cue => exact skips (by rw [cue]; decide)
      · next cue => exact skips (by rw [cue]; decide)
      · next cue => exact skips (by rw [cue]; decide)
      · have ends := spends (fun e => { e with progress := e.progress ++ repetitions (p.templateOf e), skipEnded := true })
          fun _ => ⟨rfl, fun airs => airs⟩
        split
        · split
          · exact ends
          · exact Plant.modChan_airs_same ends c ⟨rfl, rfl, rfl⟩
        · exact spends _ fun _ => ⟨rfl, fun airs => airs⟩
      · exact spends _ fun _ => ⟨rfl, fun airs => airs⟩

theorem Plant.mismatchAction_airs (c : Chan) (s : StepEntry) (z : Mismatch) : a.Airs (p.mismatchAction c s z) := by
  cases z
  · exact h
  · exact Plant.skipEvent_airs h c s
  · exact Plant.haltSequence_airs h c _

theorem Plant.cueOutcome_airs (c : Chan) (s : StepEntry) (o : DevOutcome) : a.Airs (p.cueOutcome c s o) := by
  have last := Plant.writeLast_airs h c o
  have told : ∀ r z, a.Airs ((p.writeLast c o).tellCueFault c s r z) := fun _ _ => last.of_chans fun _ => rfl
  simp only [Plant.cueOutcome]
  repeat' split
  · exact h
  · exact Plant.modEvent_airs last c _ fun e => by
      split
      · next cue => exact ⟨rfl, fun airs => absurd (cue.symm.trans airs) (by decide)⟩
      · exact ⟨rfl, fun airs => airs⟩
  · exact last
  · exact Plant.dropRepetitions_airs last c s
  · exact Plant.mismatchAction_airs (told _ _) c s _
  · exact told _ _

theorem Plant.taken_airs (c : Chan) (s : StepEntry) : a.Airs (p.taken c s) := by
  unfold Plant.taken
  split
  · exact Plant.modEvent_airs h c _ fun e => by
      split
      · next cue => exact ⟨rfl, fun airs => absurd (cue.1.symm.trans airs) (by decide)⟩
      · exact ⟨rfl, fun airs => airs⟩
  · exact h

omit h in
theorem Plant.takeHeadsN_airs (n : Nat) (c : Chan) : ∀ {p : Plant}, a.Airs p → a.Airs (Plant.takeHeadsN n c p) := by
  induction n with
  | zero => exact fun h => h
  | succ n ih =>
    intro p h
    have pop : ∀ (rest : List StepEntry) s,
        a.Airs ((p.modChan c fun x => { x with seq := { x.seq with queue := rest } }).taken c s) := fun rest s =>
      Plant.taken_airs (Plant.modChan_airs_same h c ⟨rfl, rfl, rfl⟩) c s
    simp only [Plant.takeHeadsN]
    repeat' split
    · exact h
    · exact h
    · exact ih (Plant.cueOutcome_airs (pop _ _) _ _ _)
    · exact ih (pop _ _)
    · exact h
    · exact ih (pop _ _)
    · exact (pop _ _).of_chans fun _ => rfl
    · exact ih (Plant.cueOutcome_airs (pop _ _) _ _ _)

theorem Plant.settlePort_airs (i : PortNo) : a.Airs (p.settlePort i) := by
  have takes : ∀ (l : List Chan) {q : Plant}, a.Airs q → a.Airs (l.foldl Plant.takeHeads q) := fun l => by
    induction l with
    | nil => exact fun h => h
    | cons d l ih => exact fun h => ih (Plant.takeHeadsN_airs _ d h)
  have dropped : a.Airs (p.setPort i (p.port i).dropFinished) := h.of_chans fun _ => rfl
  have taken : a.Airs ((p.setPort i (p.port i).dropFinished).userTakes i) := takes _ dropped
  rw [Plant.settlePort_eq]
  refine taken.of_chans fun d => ?_
  rw [Plant.chan, Plant.arbitrate_chans]
  rfl

theorem Plant.wakeCue_airs (c : Chan) : a.Airs (p.wakeCue c) := by
  unfold Plant.wakeCue
  split
  · exact Plant.settlePort_airs h _
  · exact Plant.takeHeadsN_airs _ c h

/-! ## The Changeover Unit -/

theorem Plant.decideSwitch_airs (c : Chan) (pos : SwitchPos) (frame : Nat) (cause : SwitchCause) (act : SwAct) :
    a.Airs (p.decideSwitch c pos frame cause act) := Plant.modChan_airs_same h c ⟨rfl, rfl, rfl⟩

theorem Plant.modTake_airs (c : Chan) (f : TakeRec → TakeRec) : a.Airs (p.modTake c f) := Plant.modChan_airs_same h c ⟨rfl, rfl, rfl⟩

theorem Plant.usePort_airs (c : Chan) (o : Option PortNo) : a.Airs (p.usePort c o) := Plant.modChan_airs_same h c ⟨rfl, rfl, rfl⟩

/-- R131: the cursor set on an event, or on none. -/
theorem Plant.cursorSet_airs (c : Chan) (target : Option Nat) : a.Airs ((p.flushCue c).cursorTo c target) := by
  have flushed : a.Airs (p.flushCue c) :=
    Plant.Airs.of_chans (Plant.modChan_airs (f := fun x =>
      { x with seq := { x.seq with queue := [] }, playlist := x.seq.queue.foldl unmarkProgress x.playlist }) h c
        ⟨rfl, rfl, airsOn_unmarks _ _⟩) fun _ => rfl
  exact Plant.modChan_airs flushed c ⟨rfl, rfl, Plant.passOverTo_airs _ _ _⟩

theorem Plant.cueJoin_airs (c : Chan) (event offset t : Nat) : a.Airs (p.cueJoin c event offset t) :=
  Plant.modEvent_airs (Plant.cursorSet_airs h c _) c _ fun _ => ⟨rfl, fun airs => airs⟩

theorem Plant.joinOn_airs (c : Chan) (i : PortNo) (now0 t : Nat) (e : Event) : a.Airs (p.joinOn c i now0 t e) := by
  refine Plant.Airs.of_chans ?_ fun d => Plant.handList_chan _ _ _ _
  refine Plant.decideSwitch_airs (Plant.cueJoin_airs (Plant.modEvent_airs (Plant.modTake_airs h c _) c _ fun e => ?_) c _ _ _) c _ _ _ _
  split
  · next cue => exact ⟨rfl, fun airs => absurd (cue.symm.trans airs) (by decide)⟩
  · exact ⟨rfl, fun airs => airs⟩

theorem Plant.bridgeAt_airs (c : Chan) (t : Nat) (r : BridgeReason) : a.Airs (p.bridgeAt c t r) :=
  Plant.decideSwitch_airs (Plant.cursorSet_airs (Plant.modTake_airs h c _) c _) c _ _ _ _

theorem Plant.coldJoin_airs (c : Chan) (i : PortNo) (now0 : Nat) (stage : Stage) : a.Airs (p.coldJoin c i now0 stage) := by
  have start : ∀ f, a.Airs ((p.keepBridge c).modTake c f) := fun f => by
    rw [Plant.keepBridge_eq]
    exact Plant.modTake_airs (Plant.modChan_airs_same h c ⟨rfl, rfl, rfl⟩) c f
  simp only [Plant.coldJoin]
  split
  · exact Plant.bridgeAt_airs (start _) _ _ _
  · split
    · exact Plant.bridgeAt_airs (start _) _ _ _
    · exact Plant.joinOn_airs (start _) _ _ _ _ _

theorem Plant.localJoinOn_airs (c : Chan) (i : PortNo) : a.Airs (p.localJoinOn c i) :=
  Plant.coldJoin_airs (p := p.startLocalRec c) (Plant.modChan_airs_same h c ⟨rfl, rfl, rfl⟩) c i _ _

theorem Plant.tryPrimary_airs (c : Chan) : a.Airs (p.tryPrimary c) := by
  unfold Plant.tryPrimary
  split
  · next i _ =>
    split
    · exact Plant.localJoinOn_airs (Plant.usePort_airs (p := p.leaveQueue c) (h.of_chans fun _ => rfl) c (some i)) c i
    · split
      · exact Plant.usePort_airs (p := p.leaveQueue c) (h.of_chans fun _ => rfl) c (some i)
      · exact h
  · exact h

theorem Plant.tellFailed_airs (c : Chan) (k : NoticeKind) (kind : TakeKind) (r : FailReason) (i : PortNo) :
    a.Airs (p.tellFailed c k kind r i) := h.of_chans fun _ => rfl

theorem Plant.portGone_airs (c : Chan) (i : PortNo) : a.Airs (p.portGone c i) := by
  have freed : a.Airs (p.portFreed c i) := by
    unfold Plant.portFreed
    have unjoined : a.Airs (p.unjoined c i) :=
      Plant.modChan_airs_same (p := p.modPort i fun x => x.withdrawLists c false) (h.of_chans fun _ => rfl) c ⟨rfl, rfl, rfl⟩
    split
    · exact Plant.modTake_airs unjoined c _
    · exact unjoined
  unfold Plant.portGone
  split
  · rw [Plant.leaveServer_eq]
    refine Plant.modChan_airs_same freed c ?_
    unfold Channel.markCut
    split <;> exact ⟨rfl, rfl, rfl⟩
  · split
    · split
      · unfold Plant.closeEntry
        split
        · exact freed
        · exact Plant.modEvent_airs (Plant.modChan_airs_same (p := (p.portFreed c i).appendEntry _) (freed.of_chans fun _ => rfl) c
            ⟨rfl, rfl, rfl⟩) c _ fun _ => ⟨rfl, fun airs => airs⟩
      · exact freed
    · exact freed

/-- R161: a channel that loses its port stays in its mode, and what it has on air stays there. -/
theorem Plant.portLost_airs (c : Chan) (i : PortNo) : a.Airs (p.portLost c i) := by
  have gone := Plant.portGone_airs h c i
  have anew : ∀ q o, (p.portGone c i).spareAnew c = (q, o) → a.Airs q := fun q o e => by
    unfold Plant.spareAnew at e
    split at e
    · cases e
      exact gone
    · have asked := (p.portGone c i).requestSpare_chan c
      rw [e] at asked
      exact gone.of_chans asked
  have lost : p.portLost c i = match (p.portGone c i).spareAnew c with
    | (q, some s) => ((q.usePort c (some s)).tellFailed c .joinFailed .localJoin .timeout i).localJoinOn c s
    | (q, none) => (((q.usePort c none).tellFailed c .joinFailed .localJoin .timeout i).tryPrimary c).wakeCue c := rfl
  rw [lost]
  split
  · next q s e => exact Plant.localJoinOn_airs (Plant.tellFailed_airs (Plant.usePort_airs (anew q _ e) c (some s)) c _ _ _ _) c s
  · next q e =>
    exact Plant.wakeCue_airs (Plant.tryPrimary_airs (Plant.tellFailed_airs (Plant.usePort_airs (anew q _ e) c none) c _ _ _ _) c) c

end

end Sys2Proof.Machine
end

