-- ==== Sys2Proof/Proofs/AdoptionsMade.lean ====
section
/-! PROOFS. An adoption carried out at its switch line (R176), and the port that it finds. -/

namespace Sys2Proof.Machine

/-! ## The adoption -/

/-- R176: the channel runs locally, its event on air, before its port is looked at. -/
def Plant.adopted (p : Plant) (c : Chan) (a : Adoption) : Plant :=
  let now := (p.chan c).now
  let q := (p.modChan c fun x => { x with adoption := none, mode := .onLocal }).cueAdopt c a.event
  let q := q.modEvent c a.event fun e => if e.cue = .airing then e else
    if e.cue = .pending then { q.bindTo .airing e with begunHalted := (p.chan c).seq.halted }
    else { e with cue := .airing, begunHalted := (p.chan c).seq.halted }
  let q := q.openEntryFor c a.event now .join (p.chan c).portInUse
  q.notify .adoptDone (some c) (u32 a.event ++ q.ctfBytes c now ++ u8 a.port.val)

theorem Plant.adopt_eq (p : Plant) (c : Chan) (a : Adoption) : p.adopt c a =
    match (p.chan c).portInUse with
    | some i => if p.portWorks c i then p.adopted c a else (p.adopted c a).portLost c i
    | none => p.adopted c a := rfl

/-- R176: the entry that an adoption opens. -/
def adoptEntry (x : Channel) (a : Adoption) : OpenEntry := { event := a.event, start := x.now, kind := .join, port := x.portInUse }

/-- R164: an entry opened, whatever entry was open before; what is on air stays there. -/
theorem Plant.wrote_openEntryFor_any {u : Plant} {c : Chan} {y : Channel} {os : List Outgoing} (hg : y.config = (u.chan c).config)
    (hb : y.baseDay = (u.chan c).baseDay) (n t : Nat) (kind : EntryKind) (port : Option PortNo) : ∃ l closed,
    (u.wrote c y os).openEntryFor c n t kind port =
      u.wrote c { y with openEntry := some { event := n, start := t, kind := kind, port := port }, playlist := l } (os ++ closed) ∧
    (y.openEntry = none → closed = []) ∧ AirsOn y.playlist l := by
  rcases ho : y.openEntry with _ | o
  · exact ⟨y.playlist, [], (Plant.wrote_openEntryFor_first ho n t kind port).trans (by rw [List.append_nil]), fun _ => rfl, .refl _⟩
  · refine ⟨loggedAs o.event y.playlist, _, Plant.wrote_openEntryFor hg hb ho n t kind port, nofun, airsOn_map _ fun e => ?_⟩
    split <;> exact ⟨rfl, fun airs => airs⟩

section
variable {p : Plant} {c : Chan} {x : Channel} {a : Adoption} (hx : p.chan c = x)
include hx

theorem Plant.adopted_parts {q : Plant} (hq : q = p.adopted c a) : ∃ closed,
    q.chan c = { x with
      adoption := none, mode := .onLocal, openEntry := some (adoptEntry x a), playlist := (q.chan c).playlist
      seq := { x.seq with queue := [], cursor := some a.event } } ∧
    q.outbox = p.outbox ++ (closed ++ [.notice ⟨.adoptDone, some c, u32 a.event ++ p.ctfBytes c x.now ++ u8 a.port.val⟩]) ∧
    (x.openEntry = none → closed = []) ∧ (∀ j, q.port j = (p.port j).flushed c) ∧ q.spareQueue = p.spareQueue ∧ q.rest = p.rest ∧
    ∀ e ∈ (q.chan c).playlist, e.id = a.event → e.cue = .airing := by
  obtain ⟨v, hv⟩ : ∃ v, v = p.modChan c fun x => { x with adoption := none, mode := .onLocal } := ⟨_, rfl⟩
  have base : v.chan c = { x with adoption := none, mode := .onLocal } := by rw [hv, Plant.chan_modChan_same, hx]
  obtain ⟨u, hu⟩ : ∃ u, u = v.cueAdopt c a.event := ⟨_, rfl⟩
  obtain ⟨l, own⟩ : ∃ l, u.chan c = { x with
      adoption := none, mode := .onLocal, playlist := l, seq := { x.seq with queue := [], cursor := some a.event } } := by
    refine ⟨(u.chan c).playlist, ?_⟩
    rw [hu, Plant.cueAdopt, Plant.modEvent, Plant.chan_modChan_same, Plant.cursorTo, Plant.chan_modChan_same, Plant.flushCue_chan, base]
  have ports : ∀ j, u.port j = (p.port j).flushed c := fun j => by
    rw [hu]
    refine (v.flushCue_port c j).trans ?_
    rw [hv]
    rfl
  have kept : u.outbox = p.outbox ∧ u.spareQueue = p.spareQueue := by rw [hu, hv]; exact ⟨rfl, rfl⟩
  have rest : u.rest = p.rest := by rw [hu, hv]; rfl
  obtain ⟨f, airs, made⟩ : ∃ f : Event → Event, (∀ e, (f e).cue = .airing) ∧ p.adopted c a =
      let w := (u.modEvent c a.event f).openEntryFor c a.event x.now .join x.portInUse
      w.notify .adoptDone (some c) (u32 a.event ++ w.ctfBytes c x.now ++ u8 a.port.val) := by
    refine ⟨_, fun e => ?_, by rw [hu, hv, ← hx, Plant.adopted]⟩
    split
    · next h => exact h
    · split <;> rfl
  have set : u.modEvent c a.event f = u.wrote c { x with
      adoption := none, mode := .onLocal, playlist := l.map fun e => if e.id = a.event then f e else e
      seq := { x.seq with queue := [], cursor := some a.event } } [] := by
    have self := u.wrote_self c
    rw [own] at self
    exact (congrArg (fun q : Plant => q.modEvent c a.event f) self.symm).trans (Plant.wrote_modEvent a.event f)
  have listed : ∀ e ∈ (l.map fun e => if e.id = a.event then f e else e), e.id = a.event → e.cue = .airing := fun e he own => by
    obtain ⟨k, -, rfl⟩ := List.mem_map.mp he
    rcases Decidable.em (k.id = a.event) with same | other
    · rw [if_pos same]
      exact airs k
    · rw [if_neg other] at own
      exact absurd own other
  obtain ⟨m, closed, opened, unopened, airing⟩ : ∃ m closed, (u.modEvent c a.event f).openEntryFor c a.event x.now .join x.portInUse =
        u.wrote c { x with
          adoption := none, mode := .onLocal, openEntry := some (adoptEntry x a), playlist := m
          seq := { x.seq with queue := [], cursor := some a.event } } closed ∧
      (x.openEntry = none → closed = []) ∧ ∀ e ∈ m, e.id = a.event → e.cue = .airing := by
    obtain ⟨m, closed, opened, unopened, kept⟩ := Plant.wrote_openEntryFor_any (u := u) (c := c) (os := []) (y := { x with
        adoption := none, mode := .onLocal, playlist := l.map fun e => if e.id = a.event then f e else e
        seq := { x.seq with queue := [], cursor := some a.event } }) (by rw [own]) (by rw [own]) a.event x.now .join x.portInUse
    exact ⟨m, closed, (congrArg (fun q : Plant => q.openEntryFor c a.event x.now .join x.portInUse) set).trans opened, unopened,
      kept a.event listed⟩
  have bytes := u.wrote_ctfBytes c { x with
      adoption := none, mode := .onLocal, openEntry := some (adoptEntry x a), playlist := m
      seq := { x.seq with queue := [], cursor := some a.event } } closed (by rw [own]) (by rw [own]) x.now
  have day : u.ctfBytes c x.now = p.ctfBytes c x.now := Plant.ctfBytes_of_same (by rw [Plant.config, own, Plant.config, hx])
    (Plant.ref_of_rest rest) (by rw [own, hx]) _
  simp only [opened, bytes, day, Plant.wrote_notify] at made
  rw [made] at hq
  have chan : q.chan c = { x with
      adoption := none, mode := .onLocal, openEntry := some (adoptEntry x a), playlist := m
      seq := { x.seq with queue := [], cursor := some a.event } } := by rw [hq, Plant.wrote_chan]
  refine ⟨closed, ?_, ?_, unopened, fun j => ?_, ?_, ?_, ?_⟩
  · rw [chan]
  · rw [hq, ← kept.1]
    rfl
  · rw [hq, ← ports]
    rfl
  · rw [hq, ← kept.2]
    rfl
  · rw [hq, Plant.wrote_rest, rest]
  · rw [chan]
    exact airing

end

/-! ## The port that an adoption finds -/

/-- R109: with no spare to be lent the channel waits, whether it waited before or not. -/
theorem Plant.requestSpare_unlent {v : Plant} {c : Chan} {g : ChannelConfig} (hg : (v.chan c).config = some g)
    (hh : ∀ j, (v.port j).holder ≠ some c) (none : ∀ j, ¬v.Lendable g j) :
    ∃ l, c ∈ l ∧ v.requestSpare c = ({ v with spareQueue := l }, .none) := by
  rcases Decidable.em (c ∈ v.spareQueue) with waits | fresh
  · exact ⟨v.spareQueue, waits, Plant.requestSpare_idle (.inr waits)⟩
  · exact ⟨_, List.mem_append_right _ (List.mem_singleton_self c), Plant.requestSpare_waits hg hh fresh none⟩

/-- R161, step 4: with no spare to be lent and the primary port not UP, the channel waits with no port in use. -/
theorem Plant.portLost_waiting {p : Plant} {c : Chan} {g : ChannelConfig} {i : PortNo} (hg : (p.chan c).config = some g)
    (due : p.NoneDue c) (hh : ∀ j, (p.port j).holder ≠ some c) (none : ∀ j, ¬p.Lendable g j)
    (down : (p.port g.primary).state ≠ .up) {q : Plant} (hq : q = p.portLost c i) :
    q.chan c = { (p.portGone c i).chan c with portInUse := .none } ∧ c ∈ q.spareQueue ∧
    q.outbox = (p.portGone c i).outbox ++
      [.notice ⟨.joinFailed, some c, u8 3 ++ u8 FailReason.timeout.code ++ u8 i.val ++ u8 1⟩] := by
  have own := Plant.portGone_chan (p := p) (c := c) (i := i) rfl
  have around := p.portGone_around c i (b := true)
  obtain ⟨l, waits, asks⟩ := Plant.requestSpare_unlent (v := p.portGone c i) (c := c) (g := g) (by rw [own]; exact hg)
    (fun j => by rw [Plant.holder_of_around around]; exact hh j) fun j h => none j ((Plant.lendable_of_around around g j).mp h)
  rw [Plant.portLost_waits hh asks] at hq
  generalize p.portGone c i = v at own around hq ⊢
  obtain ⟨u, hu⟩ : ∃ u, u = ({ v with spareQueue := l } : Plant).usePort c .none := ⟨_, rfl⟩
  have told : u.waits c = true := List.contains_iff_mem.mpr (by rw [hu]; exact waits)
  obtain ⟨w, hw⟩ : ∃ w, w = u.tellFailed c .joinFailed .localJoin .timeout i := ⟨_, rfl⟩
  have chan : w.chan c = { v.chan c with portInUse := .none } := by
    rw [hw, hu]
    exact Plant.usePort_chan _ c .none
  have quiet : w.NoneDue c := by
    rw [Plant.NoneDue, chan, own]
    exact due
  have primary : w.primary c = some g.primary := Plant.primary_of_config (by rw [chan, own]; exact hg)
  have state : (w.port g.primary).state ≠ .up := by
    rw [hw, hu]
    exact fun h => down ((Plant.state_of_around around g.primary).symm.trans h)
  have same : q = w := by
    rw [hq, ← hu, ← hw, Plant.tryPrimary_down primary state, Plant.wakeCue, chan]
    exact Plant.takeHeads_quiet quiet
  rw [same]
  refine ⟨chan, by rw [hw, hu]; exact waits, ?_⟩
  rw [hw, Plant.tellFailed, told, hu]
  rfl

/-- R161: what had been handed out before a port is lost stays handed out. -/
theorem Plant.portLost_mem (p : Plant) (c : Chan) (i : PortNo) {o : Outgoing} (ho : o ∈ p.outbox) : o ∈ (p.portLost c i).outbox := by
  have gone : o ∈ (p.portGone c i).outbox := by
    have freed : o ∈ (p.portFreed c i).outbox := by rw [Plant.portFreed_outbox]; exact ho
    unfold Plant.portGone
    split
    · rw [Plant.leaveServer_eq]
      exact freed
    · split
      · split
        · unfold Plant.closeEntry
          split
          · exact freed
          · exact List.mem_append_left _ freed
        · exact freed
      · exact freed
  have anew : ∀ q s, (p.portGone c i).spareAnew c = (q, s) → (p.portGone c i).Tells q := fun q s e => by
    unfold Plant.spareAnew at e
    split at e
    · cases e
      exact .refl _
    · have asked := Plant.requestSpare_tells (.refl (p.portGone c i)) c
      rwa [e] at asked
  have lost : p.portLost c i = match (p.portGone c i).spareAnew c with
    | (q, some s) => ((q.usePort c (some s)).tellFailed c .joinFailed .localJoin .timeout i).localJoinOn c s
    | (q, none) => (((q.usePort c none).tellFailed c .joinFailed .localJoin .timeout i).tryPrimary c).wakeCue c := rfl
  refine Plant.Tells.mem ?_ gone
  rw [lost]
  split
  · next q s e => exact Plant.localJoinOn_tells (Plant.tellFailed_tells ((anew q _ e).of_eq (by rfl)) c _ _ _ _) c s
  · next q e => exact Plant.wakeCue_tells (Plant.tryPrimary_tells (Plant.tellFailed_tells ((anew q _ e).of_eq (by rfl)) c _ _ _ _) c) c

/-! ## The adoption's switch line -/

section
variable (p : Plant) (c : Chan)

theorem Plant.noteCover_chan : (p.noteCover c).chan c = { p.chan c with cover := (p.chan c).covering.map (·.id) } :=
  Plant.chan_modChan_same p c _

theorem Plant.noteCover_outbox : (p.noteCover c).outbox = p.outbox := rfl

theorem Plant.noteCover_spareQueue : (p.noteCover c).spareQueue = p.spareQueue := rfl

end

section
variable {p : Plant} {c : Chan} {x : Channel} {g : ChannelConfig} {a : Adoption} (hx : p.chan c = x) (hg : x.config = some g)
  (hm : x.mode = .orphaned) (ha : x.adoption = some a) (hp : x.pendingSw = [])
include hx hm ha hp

/-- R176: an adoption whose event no longer covers the frame. -/
theorem Plant.switchLine_adopt_fails (left : (coverAt x.playlist x.now).map (·.id) ≠ some a.event) :
    p.switchLine c = if ((p.adoptFailed c .eventGone).chan c).mode.running then (p.adoptFailed c .eventGone).noteCover c
      else p.adoptFailed c .eventGone := by
  have line : p.adoptLine c = p.adoptFailed c .eventGone := by
    simp only [Plant.adoptLine, hx, ha]
    exact if_neg left
  rw [Plant.switchLine_adopts hx (by rw [hm]; rfl) hp, line]

/-- R176: an adoption that is carried out. -/
theorem Plant.switchLine_adopt_made (covers : (coverAt x.playlist x.now).map (·.id) = some a.event) :
    p.switchLine c = if ((p.adopt c a).chan c).mode.running then (p.adopt c a).noteCover c else p.adopt c a := by
  have line : p.adoptLine c = p.adopt c a := by
    simp only [Plant.adoptLine, hx, ha]
    exact if_pos covers
  rw [Plant.switchLine_adopts hx (by rw [hm]; rfl) hp, line]

include hg in
/-- R176: what an adoption that fails leaves. -/
theorem Plant.switchLine_adopt_left (left : (coverAt x.playlist x.now).map (·.id) ≠ some a.event) {q : Plant} (hq : q = p.switchLine c) :
    q = p.adoptFailed c .eventGone ∧ (q.chan c).mode = .orphaned := by
  obtain ⟨mode, -⟩ := Plant.adoptFailed_left hx hg .eventGone rfl
  rw [Plant.switchLine_adopt_fails hx hm ha hp left, mode, hm, if_neg (by decide)] at hq
  rw [hq]
  exact ⟨rfl, mode.trans hm⟩

variable (covers : (coverAt x.playlist x.now).map (·.id) = some a.event) {q : Plant} (hq : q = p.switchLine c)
include covers hq

/-- R176: an adoption carried out puts its event on air in local running, and tells it. -/
theorem Plant.switchLine_adopt_on : q = (p.adopt c a).noteCover c ∧ (q.chan c).mode = .onLocal ∧ (q.chan c).adoption = none ∧
    ⟨.adoptDone, some c, u32 a.event ++ p.ctfBytes c x.now ++ u8 a.port.val⟩ ∈ q.notices ∧
    ∀ e ∈ (q.chan c).playlist, e.id = a.event → e.cue = .airing := by
  obtain ⟨v, hv⟩ : ∃ v, v = p.adopted c a := ⟨_, rfl⟩
  obtain ⟨closed, own, outbox, -, -, -, -, airing⟩ := Plant.adopted_parts hx hv
  have told : .notice ⟨.adoptDone, some c, u32 a.event ++ p.ctfBytes c x.now ++ u8 a.port.val⟩ ∈ v.outbox := by
    rw [outbox]
    exact List.mem_append_right _ (List.mem_append_right _ (List.mem_singleton_self _))
  obtain ⟨airs, kept⟩ : v.Airs (p.adopt c a) ∧ ∀ o ∈ v.outbox, o ∈ (p.adopt c a).outbox := by
    rw [Plant.adopt_eq, ← hv]
    split
    · split
      · exact ⟨.refl v, fun _ h => h⟩
      · exact ⟨Plant.portLost_airs (.refl v) c _, fun _ h => v.portLost_mem c _ h⟩
    · exact ⟨.refl v, fun _ h => h⟩
  obtain ⟨mode, adoption, on⟩ := airs c
  rw [own] at mode adoption
  rw [Plant.switchLine_adopt_made hx hm ha hp covers, mode, if_pos (show Mode.running Mode.onLocal = true from rfl)] at hq
  have note : q.chan c = { (p.adopt c a).chan c with cover := ((p.adopt c a).chan c).covering.map (·.id) } := by
    rw [hq, Plant.noteCover_chan]
  refine ⟨hq, by rw [note]; exact mode, by rw [note]; exact adoption, Plant.mem_notices.mpr ?_, ?_⟩
  · rw [hq, Plant.noteCover_outbox]
    exact kept _ told
  · rw [note]
    exact on a.event airing

variable {i : PortNo} (hi : x.portInUse = some i)
include hi

/-- R176: an adoption that finds its port UP, and the channel's. -/
theorem Plant.switchLine_adopt_works (works : p.portWorks c i = true) (ho : x.openEntry = none) :
    (q.chan c).switch = x.switch ∧ (q.chan c).seq.cursor = some a.event ∧ (q.chan c).seq.queue = [] ∧
    (q.chan c).openEntry = some { event := a.event, start := x.now, kind := .join, port := some i } ∧
    (q.chan c).portInUse = some i ∧ (q.chan c).pendingSw = [] ∧ q.entries = p.entries := by
  obtain ⟨made, -⟩ := Plant.switchLine_adopt_on hx hm ha hp covers hq
  obtain ⟨closed, own, outbox, unopened, -⟩ := Plant.adopted_parts (a := a) hx rfl
  rw [Plant.adopt_eq, hx, hi] at made
  simp only [works, if_true] at made
  have note : q.chan c = { (p.adopted c a).chan c with cover := ((p.adopted c a).chan c).covering.map (·.id) } := by
    rw [made, Plant.noteCover_chan]
  rw [unopened ho, List.nil_append] at outbox
  refine ⟨by rw [note, own], by rw [note, own], by rw [note, own], ?_, by rw [note, own]; exact hi, by rw [note, own]; exact hp, ?_⟩
  · rw [note, own, adoptEntry, hi]
  · exact Plant.Tells.entries (p := p) ⟨[_], by rw [made, Plant.noteCover_outbox]; exact outbox⟩

/-- R176, R161: an adoption on a primary port that is not UP, with no spare to be lent. -/
theorem Plant.switchLine_adopt_down (hg : x.config = some g) (line : p.nextLineFrame c = x.now + 1) (primary : i = g.primary)
    (down : (p.port i).state ≠ .up) (hh : ∀ j, (p.port j).holder ≠ some c) (none : ∀ j, ¬p.Lendable g j) :
    (q.chan c).portInUse = .none ∧ c ∈ q.spareQueue ∧
    ⟨.joinFailed, some c, u8 3 ++ u8 FailReason.timeout.code ++ u8 i.val ++ u8 1⟩ ∈ q.notices ∧
    (x.switch = .onLocal → (q.chan c).pendingSw = [{ pos := .filler, frame := x.now + 1, cause := .portLoss, act := .plain }]) ∧
    (x.switch ≠ .onLocal → (q.chan c).pendingSw = []) ∧
    (x.switch = .filler → x.openEntry = .none → q.entries = p.entries ∧
      (q.chan c).openEntry = some { event := a.event, start := x.now, kind := .join, port := some i }) := by
  obtain ⟨made, -⟩ := Plant.switchLine_adopt_on hx hm ha hp covers hq
  obtain ⟨v, hv⟩ : ∃ v, v = p.adopted c a := ⟨_, rfl⟩
  obtain ⟨closed, own, outbox, unopened, ports, -, rest, -⟩ := Plant.adopted_parts hx hv
  have works : p.portWorks c i = false := by simp [Plant.portWorks, down]
  rw [Plant.adopt_eq, hx, hi, ← hv] at made
  simp only [works, Bool.false_eq_true, if_false] at made
  have fixed : ∀ j, (v.port j).fixed true = (p.port j).fixed true := fun j => by rw [ports, Port.flushed_fixed]
  have holder : ∀ j, (v.port j).holder = (p.port j).holder := fun j => (congrArg (·.2.2.2) (fixed j) :)
  have state : ∀ j, (v.port j).state = (p.port j).state := fun j => (congrArg (·.2.1) (fixed j) :)
  have role : ∀ j, (v.port j).role = (p.port j).role := fun j => (congrArg (·.1) (fixed j) :)
  obtain ⟨waiting, waits, told⟩ := Plant.portLost_waiting (p := v) (c := c) (g := g) (i := i) (by rw [own]; exact hg)
    (Plant.noneDue_of_empty (by rw [own])) (fun j => by rw [holder]; exact hh j)
    (fun j ⟨r, s, h, bit⟩ => none j ⟨(role j).symm.trans r, (state j).symm.trans s, (holder j).symm.trans h, bit⟩)
    (by rw [state, ← primary]; exact down) rfl
  have pending := Plant.portGone_pending (p := v) (c := c) (i := i) rfl
  have frame : v.nextLineFrame c = x.now + 1 := by
    rw [← line]
    refine Plant.nextLineFrame_congr c rest ?_ ?_ ?_ <;> rw [own, hx]
  rw [own, hp, frame] at pending
  have note : q.chan c = { (v.portLost c i).chan c with cover := ((v.portLost c i).chan c).covering.map (·.id) } := by
    rw [made, Plant.noteCover_chan]
  refine ⟨by rw [note, waiting], by rw [made, Plant.noteCover_spareQueue]; exact waits, Plant.mem_notices.mpr ?_, fun at' => ?_,
    fun at' => ?_, fun filler closedYet => ?_⟩
  · rw [made, Plant.noteCover_outbox, told]
    exact List.mem_append_right _ (List.mem_singleton_self _)
  · rw [note, waiting]
    exact pending.trans (if_pos at')
  · rw [note, waiting]
    exact pending.trans (if_neg at')
  · obtain ⟨gone, silent⟩ := Plant.portGone_stays (p := v) (c := c) (i := i) (by rw [own]; exact fun h => by rw [filler] at h; cases h)
      (fun o ho ⟨_, ends⟩ => by
        rw [own] at ho ends
        obtain rfl := Option.some.inj ho
        rw [filler, Channel.endsOnFiller_kept _ _ fun h : EntryKind.join = .start => nomatch h] at ends
        exact Bool.false_ne_true ends) rfl
    rw [unopened closedYet, List.nil_append] at outbox
    refine ⟨Plant.Tells.entries (p := p) ⟨[⟨.adoptDone, some c, u32 a.event ++ p.ctfBytes c x.now ++ u8 a.port.val⟩,
        ⟨.joinFailed, some c, u8 3 ++ u8 FailReason.timeout.code ++ u8 i.val ++ u8 1⟩], ?_⟩, ?_⟩
    · rw [made, Plant.noteCover_outbox, told, silent, outbox, List.append_assoc]
      rfl
    · rw [note, waiting, gone, own, adoptEntry, hi]

end

end Sys2Proof.Machine
end

