-- ==== Sys2Proof/Proofs/ReturnLines.lean ====
section
/-! PROOFS. What the acts behind a return switch leave (R172): the deferred records applied, the spare given back, the steps considered
again. -/

namespace Sys2Proof.Machine

/-! ## What the deferred records and the Cue Sequencer leave -/

/-- A channel without what records, the Cue Sequencer and the watch change of it. -/
def Channel.post (x : Channel) : Channel := { x.plan with playlist := [], replica := .reset, watch := .reset }

/-- The channel's post, the ports' fixed parts, the spare queue and what had been handed out stand; the claims and the hold gain
nothing. -/
structure Plant.Follows (p q : Plant) (c : Chan) : Prop where
  chan : (q.chan c).post = (p.chan c).post
  fixed : ∀ i, (q.port i).fixed true = (p.port i).fixed true
  claims : ∀ i, ∀ l ∈ (q.port i).claim, ∃ m ∈ (p.port i).claim, m.channel = l.channel ∧ m.purpose = l.purpose
  queue : q.spareQueue = p.spareQueue
  hold : q.hold.Sublist p.hold
  outbox : ∀ o ∈ p.outbox, o ∈ q.outbox

namespace Plant.Follows

variable {p q r : Plant} {c : Chan}

theorem refl (p : Plant) (c : Chan) : p.Follows p c where
  chan := rfl
  fixed _ := rfl
  claims _ l hl := ⟨l, hl, rfl, rfl⟩
  queue := rfl
  hold := .refl _
  outbox _ h := h

theorem trans (h : p.Follows q c) (k : q.Follows r c) : p.Follows r c where
  chan := k.chan.trans h.chan
  fixed i := (k.fixed i).trans (h.fixed i)
  claims i l hl := by
    obtain ⟨m, hm, channel, purpose⟩ := k.claims i l hl
    obtain ⟨n, hn, channel', purpose'⟩ := h.claims i m hm
    exact ⟨n, hn, channel'.trans channel, purpose'.trans purpose⟩
  queue := k.queue.trans h.queue
  hold := k.hold.trans h.hold
  outbox o ho := k.outbox o (h.outbox o ho)

/-- What leaves the claims as they are. -/
theorem of_same (chan : (q.chan c).post = (p.chan c).post) (ports : ∀ i, (q.port i).fixed true = (p.port i).fixed true ∧
    (q.port i).claim = (p.port i).claim) (queue : q.spareQueue = p.spareQueue) (hold : q.hold.Sublist p.hold)
    (outbox : ∀ o ∈ p.outbox, o ∈ q.outbox) : p.Follows q c where
  chan := chan
  fixed i := (ports i).1
  claims i l hl := ⟨l, (ports i).2 ▸ hl, rfl, rfl⟩
  queue := queue
  hold := hold
  outbox := outbox

theorem state (h : p.Follows q c) (i : PortNo) : (q.port i).state = (p.port i).state := (congrArg (·.2.1) (h.fixed i) :)

theorem holder (h : p.Follows q c) (i : PortNo) : (q.port i).holder = (p.port i).holder := (congrArg (·.2.2.2) (h.fixed i) :)

end Plant.Follows

theorem Plant.post_of_plans {p q : Plant} (h : q.plans = p.plans) (c : Chan) : (q.chan c).post = (p.chan c).post :=
  congrArg (fun x : Channel => { x with playlist := [], replica := .reset, watch := .reset }) (congrFun h c)

section
variable (p : Plant) (c : Chan)

theorem Plant.takeHeads_lists (d : Chan) (i : PortNo) : ((p.takeHeads d).port i).lists = (p.port i).lists := p.takeHeadsN_lists d i _

theorem Plant.settlePort_lists_other {i j : PortNo} (h : j ≠ i) : ((p.settlePort i).port j).claim = (p.port j).claim := by
  rw [Plant.settlePort_eq, Plant.arbitrate_port_other _ h]
  have taken := Plant.userTakes_lists (p.setPort i (p.port i).dropFinished) j i
  rw [Plant.port_setPort_other _ _ h] at taken
  exact congrArg Prod.fst taken

theorem Plant.settlePort_follows (i : PortNo) : p.Follows (p.settlePort i) c where
  chan := Plant.post_of_plans (p.settlePort_plans i) c
  fixed := (p.settlePort_spares i).1
  claims j l hl := by
    rcases Decidable.em (j = i) with rfl | other
    · obtain ⟨m, hm, channel, purpose, -⟩ := p.settlePort_claim j hl
      exact ⟨m, hm, channel.symm, purpose.symm⟩
    · rw [p.settlePort_lists_other other] at hl
      exact ⟨l, hl, rfl, rfl⟩
  queue := (p.settlePort_spares i).2
  hold := Plant.hold_of_store (p.settlePort_store i) ▸ .refl _
  outbox _ := (Plant.settlePort_tells (.refl p) i).mem

theorem Plant.takeHeads_follows (d : Chan) : p.Follows (p.takeHeads d) c :=
  .of_same (Plant.post_of_plans (p.takeHeads_plans d) c)
    (fun i => ⟨Plant.fixed_of_around (p.takeHeads_around (b := true) d) i, congrArg Prod.fst (p.takeHeads_lists d i)⟩)
    (Plant.spareQueue_of_around (p.takeHeads_around (b := true) d)) (Plant.hold_of_store (p.takeHeads_store d) ▸ .refl _) fun _ =>
      (Plant.takeHeads_tells (.refl p) d).mem

theorem Plant.wakeCue_follows (d : Chan) : p.Follows (p.wakeCue d) c := by
  unfold Plant.wakeCue
  split
  · exact p.settlePort_follows c _
  · exact p.takeHeads_follows c d

theorem Plant.wakeAfter_follows (q : Plant) (d : Chan) : q.Follows (p.wakeAfter q d) c := by
  unfold Plant.wakeAfter
  split
  · exact q.wakeCue_follows c d
  · exact .refl q c

/-! ## The store's operations -/

/-- R129: what an operation means for the ports: a command taken from a slot, or marked. -/
theorem Plant.cueEffect_ports (old : List Event) (o : PlOp) (i : PortNo) :
    ((p.cueEffect c old o).port i).fixed true = (p.port i).fixed true ∧ ((p.cueEffect c old o).port i).claim = (p.port i).claim := by
  have withdrawn : ∀ (q : Plant) which, q.ports = p.ports → ((q.withdrawCue c which).port i).fixed true = (p.port i).fixed true ∧
      ((q.withdrawCue c which).port i).claim = (p.port i).claim := fun q which same => by
    have port : q.port i = p.port i := by rw [Plant.port, same, Plant.port]
    rw [Plant.withdrawCue, Plant.mapPorts, Plant.port_mapPorts, port]
    simp
  cases o with
  | insert pred d =>
    simp only [Plant.cueEffect]
    repeat' split
    all_goals exact ⟨rfl, rfl⟩
  | replace d =>
    simp only [Plant.cueEffect]
    repeat' split
    all_goals exact ⟨rfl, rfl⟩
  | delete n =>
    simp only [Plant.cueEffect]
    split
    · exact ⟨rfl, rfl⟩
    · exact withdrawn _ _ rfl
  | empty => exact withdrawn _ _ rfl

theorem Channel.post_of_ran {p q : Plant} {os : List PlOp} {l : List Event} (h : p.Ran q c os l) : (q.chan c).post = (p.chan c).post :=
  calc (q.chan c).post
    _ = ({ q.chan c with seq := (p.chan c).seq, watch := (p.chan c).watch } : Channel).post := rfl
    _ = ({ p.chan c with playlist := l } : Channel).post := congrArg Channel.post h.own
    _ = (p.chan c).post := rfl

/-- What changes of the channel nothing but its playlist, its sequencing, its watch and its replica. -/
theorem Plant.modChan_follows {f : Channel → Channel} (h : (f (p.chan c)).post = (p.chan c).post) : p.Follows (p.modChan c f) c :=
  .of_same (by rw [Plant.chan_modChan_same, h]) (fun _ => ⟨rfl, rfl⟩) rfl (.refl _) fun _ h => h

theorem Plant.cueEffect_follows (old : List Event) (o : PlOp) : p.Follows (p.cueEffect c old o) c := by
  have ran := p.cueEffect_ran c old o
  exact .of_same (Channel.post_of_ran c ran) (p.cueEffect_ports c old o) ran.spares (ran.hold ▸ .refl _) fun _ h => ran.outbox ▸ h

theorem Plant.resolve_follows : p.Follows (p.resolve c) c := by
  unfold Plant.resolve
  exact p.modChan_follows c rfl

variable {p} {q : Plant}

theorem Plant.plRun_follows {o : PlOp} {done : PlDone} (h : p.plRun c o = .ok (q, done)) : p.Follows q c := by
  simp only [Plant.plRun] at h
  split at h
  · cases h
  · cases h
    exact (p.modChan_follows c rfl).trans (Plant.cueEffect_follows _ c _ _)

theorem Plant.plRunAll_follows (ops : List PlOp) : p.Follows (p.plRunAll c ops) c := by
  induction ops generalizing p with
  | nil => exact .refl p c
  | cons o ops ih =>
    simp only [Plant.plRunAll]
    split
    · exact ih
    · next h => exact (Plant.plRun_follows c h).trans ih

theorem Plant.edit_follows {o : PlOp} {done : PlDone} (h : p.edit c o = .ok (q, done)) : p.Follows q c := by
  simp only [Plant.edit, Plant.plOne] at h
  split at h
  · cases h
  · next one =>
    cases h
    split at one
    · cases one
    · next ran =>
      cases one
      exact ((Plant.plRun_follows c ran).trans (Plant.resolve_follows _ c)).trans (Plant.wakeAfter_follows _ c _ c)

theorem Plant.editList_follows {ops : List PlOp} (h : p.editList c ops = .ok q) : p.Follows q c := by
  simp only [Plant.editList, Plant.plList] at h
  split at h
  · cases h
  · next listed =>
    cases h
    split at listed
    · cases listed
    · cases listed
      exact ((Plant.plRunAll_follows c ops).trans (Plant.resolve_follows _ c)).trans (Plant.wakeAfter_follows _ c _ c)

theorem Plant.applyGroup_follows {g : List HoldEntry} (h : p.applyGroup c g = .ok q) : p.Follows q c := by
  unfold Plant.applyGroup at h
  split at h
  · split at h
    · split at h
      · next edited =>
        cases h
        exact Plant.edit_follows c edited
      · cases h
    · exact Plant.editList_follows c h
  · exact Plant.editList_follows c h

theorem Plant.goStale_follows (r : ReplicaReason) (refused : Option (Status × Nat)) : p.Follows (p.goStale c r refused) c := by
  rcases Decidable.em ((p.chan c).replica.state = .current ∨ (p.chan c).replica.state = .gap) with tracks | waits
  · rw [Plant.goStale_eq tracks]
    have own : (p.staled c r.code refused).chan c = { p.chan c with
        replica := { (p.chan c).replica with state := .stale, batch := none, gapTimer := none, reloadTimer := some 0 } } :=
      p.chan_setChan_same c _
    exact .of_same (by rw [own]; rfl) (fun _ => ⟨rfl, rfl⟩) rfl List.filter_sublist fun _ h => List.mem_append_left _ h
  · rw [Plant.goStale, if_neg waits]
    exact .refl p c

theorem Plant.applyDeferredN_follows (n : Nat) (l : List HoldEntry) : p.Follows (Plant.applyDeferredN n c l p) c := by
  induction n generalizing p l with
  | zero => exact .refl p c
  | succ n ih =>
    cases l with
    | nil => exact .refl p c
    | cons x t =>
      simp only [Plant.applyDeferredN]
      split
      · next h => exact (Plant.applyGroup_follows c h).trans (ih _)
      · exact Plant.goStale_follows c _ _

/-- R66: the deferred records applied. -/
theorem Plant.applyDeferred_follows : p.Follows (p.applyDeferred c) c :=
  (Plant.Follows.of_same rfl (fun _ => ⟨rfl, rfl⟩) rfl List.filter_sublist fun _ h => h : p.Follows
    (p.discard c fun h => h.kind == .deferred) c).trans
    (Plant.applyDeferredN_follows c _ _)

end

/-! ## The spare given back -/

/-- The ports stand in their states, and their claims gain nothing but joins on ports that are UP. -/
def Plant.Gives (p q : Plant) : Prop := ∀ i, (q.port i).state = (p.port i).state ∧ ∀ l ∈ (q.port i).claim,
  (∃ m ∈ (p.port i).claim, m.channel = l.channel ∧ m.purpose = l.purpose) ∨ (l.purpose = .join ∧ (p.port i).state = .up)

theorem Plant.Follows.gives {p q : Plant} {c : Chan} (h : p.Follows q c) : p.Gives q := fun i =>
  ⟨h.state i, fun l hl => .inl (h.claims i l hl)⟩

theorem Plant.Gives.refl (p : Plant) : p.Gives p := (Plant.Follows.refl p 0).gives

theorem Plant.Gives.trans {p q r : Plant} (h : p.Gives q) (k : q.Gives r) : p.Gives r := fun i => by
  refine ⟨(k i).1.trans (h i).1, fun l hl => ?_⟩
  rcases (k i).2 l hl with ⟨m, hm, channel, purpose⟩ | ⟨join, up⟩
  · rcases (h i).2 m hm with ⟨n, hn, channel', purpose'⟩ | ⟨join, up⟩
    · exact .inl ⟨n, hn, channel'.trans channel, purpose'.trans purpose⟩
    · exact .inr ⟨purpose ▸ join, up⟩
  · exact .inr ⟨join, (h i).1 ▸ up⟩

theorem Plant.Gives.of_same {p q : Plant} (h : ∀ i, (q.port i).state = (p.port i).state ∧ (q.port i).claim = (p.port i).claim) :
    p.Gives q := fun i => ⟨(h i).1, fun l hl => .inl ⟨l, (h i).2 ▸ hl, rfl, rfl⟩⟩

/-- R106, R107: the arbiter's grant leaves the claim without what is finished, its head without the command granted. -/
theorem Plant.arbitrate_claim (p : Plant) (i : PortNo) {l : CmdList} (hl : l ∈ ((p.arbitrate i).port i).claim) :
    ∃ m ∈ (p.port i).claim, m.channel = l.channel ∧ m.purpose = l.purpose := by
  have stood : ∀ m ∈ (p.port i).dropFinished.claim, m ∈ (p.port i).claim := fun m hm => by
    unfold Port.dropFinished at hm
    split at hm
    · exact hm
    · exact (List.dropWhile_sublist _).mem hm
  have kept : ∀ x : Port, (∀ m ∈ x.claim, m ∈ (p.port i).claim) → l ∈ x.claim →
      ∃ m ∈ (p.port i).claim, m.channel = l.channel ∧ m.purpose = l.purpose := fun x hx hl => ⟨l, hx l hl, rfl, rfl⟩
  have told : ∀ (r : Plant) d s, (r.tellCueLate d s).port i = r.port i := fun _ _ _ => rfl
  simp only [Plant.arbitrate] at hl
  generalize (p.port i).dropFinished = x at hl stood
  repeat' split at hl
  · rw [Plant.port_setPort_same] at hl
    exact kept x stood hl
  · rw [Plant.port_setPort_same, Port.grant_claim] at hl
    unfold Port.popCommand at hl
    split at hl
    · exact kept x stood hl
    · next k rest hc =>
      rw [hc] at stood
      rcases List.mem_cons.mp hl with rfl | hl
      · exact ⟨k, stood k List.mem_cons_self, rfl, rfl⟩
      · exact ⟨l, stood l (List.mem_cons_of_mem _ hl), rfl, rfl⟩
  · rw [Plant.port_setPort_same] at hl
    exact kept x stood hl
  · rw [told, Plant.port_setPort_same, Port.grant_claim] at hl
    exact kept x stood hl
  · rw [Plant.port_setPort_same, Port.grant_claim] at hl
    exact kept x stood hl
  · rw [Plant.port_setPort_same, Port.grant_claim] at hl
    exact kept x stood hl
  · rw [Plant.port_setPort_same] at hl
    exact kept x stood hl

/-- R107: a withdrawal leaves of the claim nothing that did not stand in it. -/
theorem Port.withdrawLists_mem {x : Port} {c : Chan} {all : Bool} {l : CmdList} (hl : l ∈ (x.withdrawLists c all).claim) :
    ∃ m ∈ x.claim, m.channel = l.channel ∧ m.purpose = l.purpose := by
  unfold Port.withdrawLists at hl
  simp only at hl
  split at hl
  · exact absurd hl List.not_mem_nil
  · next k rest e =>
    rw [e]
    have tail : ∀ f : CmdList → Bool, l ∈ rest.filter f → ∃ m ∈ k :: rest, m.channel = l.channel ∧ m.purpose = l.purpose := fun f m =>
      ⟨l, List.mem_cons_of_mem _ (List.mem_of_mem_filter m), rfl, rfl⟩
    repeat' split at hl
    · rcases List.mem_cons.mp hl with rfl | hl
      · exact ⟨k, List.mem_cons_self, rfl, rfl⟩
      · exact tail _ hl
    · exact tail _ hl
    · rcases List.mem_cons.mp hl with rfl | hl
      · exact ⟨l, List.mem_cons_self, rfl, rfl⟩
      · exact tail _ hl

section
variable {a p : Plant} (h : a.Gives p)
include h

theorem Plant.arbitrate_gives (i : PortNo) : a.Gives (p.arbitrate i) := h.trans fun j => by
  refine ⟨Plant.state_of_around (Plant.arbitrate_around (b := true) p 0 i) j, fun l hl => .inl ?_⟩
  rcases Decidable.em (j = i) with rfl | other
  · exact p.arbitrate_claim j hl
  · rw [p.arbitrate_port_other other] at hl
    exact ⟨l, hl, rfl, rfl⟩

/-- R107: a join's list handed to a port that is UP. -/
theorem Plant.handJoin_gives (i : PortNo) {l : CmdList} (join : l.purpose = .join) (up : (p.port i).state = .up) :
    a.Gives (p.handList i l) := by
  refine Plant.arbitrate_gives (h.trans fun j => ?_) i
  rcases Decidable.em (j = i) with rfl | other
  · rw [Plant.port_modPort_same]
    refine ⟨rfl, fun m hm => ?_⟩
    rcases List.mem_append.mp hm with hm | hm
    · exact .inl ⟨m, hm, rfl, rfl⟩
    · rw [List.mem_singleton.mp hm]
      exact .inr ⟨join, up⟩
  · rw [Plant.port_modPort_other _ _ other]
    exact ⟨rfl, fun m hm => .inl ⟨m, hm, rfl, rfl⟩⟩

theorem Plant.Gives.flushes {q : Plant} {d : Chan} (ports : ∀ j, q.port j = (p.port j).flushed d) : a.Gives q :=
  h.trans (.of_same fun i => by
    rw [ports]
    exact ⟨(congrArg (·.2.1) (Port.flushed_fixed (p.port i) d true) :), Port.flushed_claim _ _⟩)

theorem Plant.joinOn_gives (d : Chan) (i : PortNo) (now0 t : Nat) (e : Event) (up : (p.port i).state = .up) :
    a.Gives (p.joinOn d i now0 t e) := by
  obtain ⟨u, same, made⟩ : ∃ u : Plant, (∀ j, u.port j = p.port j) ∧ p.joinOn d i now0 t e =
      ((u.cueJoin d e.id (t - e.rstart) t).decideSwitch d .onLocal t .take .joinLocal).handList i
        (joinList d e t (p.port i).preroll) := by
    unfold Plant.joinOn
    refine ⟨_, ?_, rfl⟩
    exact fun _ => rfl
  obtain ⟨w, hw⟩ : ∃ w, w = (u.cueJoin d e.id (t - e.rstart) t).decideSwitch d .onLocal t .take .joinLocal := ⟨_, rfl⟩
  have ports : ∀ j, w.port j = (p.port j).flushed d := fun j => by
    obtain ⟨-, -, -, flushed⟩ := u.cueJoin_joined d e.id (t - e.rstart) t
    rw [hw, ← same]
    exact flushed j
  rw [made, ← hw]
  refine Plant.handJoin_gives (Plant.Gives.flushes h ports) i rfl ?_
  rw [ports]
  exact (congrArg (·.2.1) (Port.flushed_fixed (p.port i) d true) :).trans up

theorem Plant.coldJoin_gives (d : Chan) (i : PortNo) (now0 : Nat) (stage : Stage) (up : (p.port i).state = .up) :
    a.Gives (p.coldJoin d i now0 stage) := by
  have start : ∀ f j, ((p.keepBridge d).modTake d f).port j = p.port j := fun f j => Plant.keepBridge_port p d j
  simp only [Plant.coldJoin]
  generalize hq : (p.keepBridge d).modTake d (fun k => { k with stage := stage, port := some i }) = q
  have ports : ∀ j, q.port j = p.port j := fun j => hq ▸ start _ j
  have bridges : ∀ t r, a.Gives (q.bridgeAt d t r) := fun t r =>
    Plant.Gives.flushes h (d := d) fun j => by
      obtain ⟨-, -, -, flushed⟩ := (q.modTake d fun k => { k with join := none, bridgeReason := some r }).cueBridge_joined d t
      exact (flushed j).trans (congrArg (Port.flushed · d) (ports j))
  split
  · exact bridges _ _
  · split
    · exact bridges _ _
    · exact Plant.joinOn_gives (Plant.Gives.trans h (.of_same fun j => by rw [ports]; exact ⟨rfl, rfl⟩)) d i _ _ _ (by rw [ports]; exact up)

theorem Plant.spareFreed_gives (i : PortNo) : a.Gives (p.spareFreed i) := by
  unfold Plant.spareFreed
  simp only
  split
  · next free =>
    split
    · next d _ =>
      have lent : a.Gives ((p.leaveQueue d).lend d i) := h.trans (.of_same fun j => by
        rcases Decidable.em (j = i) with rfl | other
        · rw [Plant.lend_port_same]
          exact ⟨rfl, rfl⟩
        · rw [Plant.lend, Plant.notify_port, Plant.port_modPort_other _ _ other]
          exact ⟨rfl, rfl⟩)
      have up : (((p.leaveQueue d).lend d i).port i).state = .up := by
        rw [Plant.lend_port_same]
        exact free.2.1
      generalize (p.leaveQueue d).lend d i = u at lent up
      have joins : a.Gives ((u.usePort d (some i)).localJoinOn d i) :=
        Plant.coldJoin_gives (p := (u.usePort d (some i)).startLocalRec d) (lent.trans (.of_same fun _ => ⟨rfl, rfl⟩)) d i _ _ up
      unfold Plant.spareGranted
      split
      · exact joins
      · exact joins
      · exact lent.trans (.of_same fun _ => ⟨rfl, rfl⟩)
      · exact lent
    · exact h
  · exact h

end

/-- R111: what giving a spare back leaves of the ports. -/
theorem Plant.releaseSpare_gives (p : Plant) (c : Chan) : p.Gives (p.releaseSpare c) := by
  unfold Plant.releaseSpare
  split
  · exact .refl p
  · next i _ =>
    refine Plant.Gives.trans (Plant.spareFreed_gives (fun j => ?_) i) (Plant.settlePort_follows _ c i).gives
    rcases Decidable.em (j = i) with rfl | other
    · rw [Plant.port_modPort_same]
      refine ⟨?_, fun l hl => .inl (Port.withdrawLists_mem (c := c) (all := true) (Port.withdrawSlot_claim _ _ _ ▸ hl))⟩
      have fixed : (((p.port j).withdrawLists c true).withdrawSlot c fun _ => true).fixed true = (p.port j).fixed true := by simp
      exact (congrArg (·.2.1) fixed :)
    · rw [Plant.port_modPort_other _ _ other]
      exact ⟨rfl, fun l hl => .inl ⟨l, hl, rfl, rfl⟩⟩

end Sys2Proof.Machine
end

