-- ==== Sys2Proof/Proofs/StopsBehind.lean ====
section
/-! PROOFS. The STOP that a return leaves on the primary port (R172): it waits behind the lists there, or ends at once with TIMEOUT on a
port that is not UP (R107). -/

namespace Sys2Proof.Machine

/-! ## A STOP that waits stays the last of its claim -/

section
variable {p : Plant} {c : Chan} {i : PortNo} {f : Nat}

theorem Port.dropFinished_last {x : Port} {l : CmdList} (h : x.claim.getLast? = some l) (hl : l.cmds ≠ []) :
    x.dropFinished.claim.getLast? = some l := by
  unfold Port.dropFinished
  split
  · exact h
  · obtain ⟨init, split⟩ := List.getLast?_eq_some_iff.mp h
    have stays : l.cmds.isEmpty = false := by
      rw [Bool.eq_false_iff, ne_eq, List.isEmpty_iff]
      exact hl
    simp only [split, List.dropWhile_append, List.dropWhile_cons, stays, Bool.false_eq_true, if_false]
    split
    · rfl
    · exact List.getLast?_concat

/-- R107: a STOP whose frame has not begun is not granted. -/
theorem Plant.arbitrate_last (h : (p.port i).claim.getLast? = some (stopList c (some f))) (later : (p.chan c).now < f) :
    ((p.arbitrate i).port i).claim.getLast? = some (stopList c (some f)) := by
  have last := Port.dropFinished_last h (List.cons_ne_nil _ _)
  simp only [Plant.arbitrate]
  generalize (p.port i).dropFinished = x at last ⊢
  split
  · rw [Plant.port_setPort_same]
    exact last
  · split
    · next m cmd due =>
      rw [Plant.port_setPort_same, Port.grant_claim, Port.popCommand]
      unfold Plant.dueCommand at due
      split at due
      · cases due
      · next k rest claim =>
        rw [claim] at last
        cases rest with
        | nil =>
          obtain rfl : k = stopList c (some f) := by simpa using last
          simp [stopList, Nat.not_le.mpr later] at due
        | cons m rest =>
          rw [List.getLast?_cons_cons] at last
          exact last
    · have some : x.claim ≠ [] := fun empty => by simp [empty] at last
      rw [if_pos (by simpa using some), Plant.port_setPort_same]
      exact last

theorem Plant.settlePort_last (h : (p.port i).claim.getLast? = some (stopList c (some f))) (later : (p.chan c).now < f) :
    ((p.settlePort i).port i).claim.getLast? = some (stopList c (some f)) := by
  obtain ⟨u, hu⟩ : ∃ u, u = (p.setPort i (p.port i).dropFinished).userTakes i := ⟨_, rfl⟩
  have claim : (u.port i).claim = (p.port i).dropFinished.claim := by
    have lists := Plant.userTakes_lists (p.setPort i (p.port i).dropFinished) i i
    rw [Plant.port_setPort_same, ← hu] at lists
    exact congrArg Prod.fst lists
  have plans : u.plans = p.plans := by rw [hu]; simp
  have now : (u.chan c).now = (p.chan c).now := (congrArg Channel.now (congrFun plans c) :)
  rw [Plant.settlePort_eq, ← hu]
  exact Plant.arbitrate_last (by rw [claim]; exact Port.dropFinished_last h (List.cons_ne_nil _ _)) (by rw [now]; exact later)

/-- R107: a STOP handed to a port for a frame that has not begun waits there, the last. -/
theorem Plant.handStop_last (later : (p.chan c).now < f) :
    ((p.handStop c i (some f)).port i).claim.getLast? = some (stopList c (some f)) := by
  rw [Plant.handStop_waits p c i f later, Plant.handList]
  refine Plant.arbitrate_last ?_ later
  rw [Plant.port_modPort_same]
  exact List.getLast?_concat

/-! ## The last outcome TIMEOUT stays -/

/-- The channel works with a port that is not UP, and its last outcome is TIMEOUT. -/
structure Plant.TimedOut (p : Plant) (c : Chan) (i : PortNo) : Prop where
  port : (p.chan c).portInUse = some i
  awake : (p.chan c).mode ≠ .idle
  down : (p.port i).state ≠ .up
  last : (p.chan c).seq.last = some .timeout

theorem Plant.TimedOut.of_follows {q : Plant} (h : p.TimedOut c i) (k : p.Follows q c) (last : (q.chan c).seq.last = some .timeout) :
    q.TimedOut c i where
  port := (congrArg Channel.portInUse k.chan :).trans h.port
  awake := (congrArg Channel.mode k.chan :).symm ▸ h.awake
  down := (k.state i).symm ▸ h.down
  last := last

/-- R119, R124: a step that ends with TIMEOUT leaves it the last outcome. -/
theorem Plant.cueOutcome_timeout (s : StepEntry) (awake : (p.chan c).mode ≠ .idle) :
    ((p.cueOutcome c s .timeout).chan c).seq.last = some .timeout := by
  have wrote : ((p.writeLast c .timeout).chan c).seq.last = some .timeout := by
    rw [Plant.writeLast, if_neg awake, Plant.chan_modChan_same]
    rfl
  have skips : ∀ q : Plant, ((q.skipEvent c s).chan c).seq.last = (q.chan c).seq.last := fun q => by
    unfold Plant.skipEvent Plant.decideSwitch
    simp only
    repeat' split
    all_goals simp [Plant.modEvent_seq, Channel.dropEntriesLike]
  have halts : ∀ q : Plant, ((q.haltSequence c (.verify s.event s.step)).chan c).seq.last = (q.chan c).seq.last := fun q => by
    unfold Plant.haltSequence
    split
    · rfl
    · exact congrArg (·.seq.last) (q.chan_modChan_same c fun x => { x with seq := { x.seq with halted := true, queue := [] } })
  simp only [Plant.cueOutcome, if_neg awake]
  repeat' split
  · rw [Plant.modEvent_seq, wrote]
  · exact wrote
  · next matched => exact absurd matched (by simp [verifyMatches])
  · next action _ _ _ =>
    cases action with
    | ignore => exact wrote
    | skipEvent => exact (skips _).trans wrote
    | halt => exact (halts _).trans wrote
  · exact wrote

theorem Plant.TimedOut.pops {s : StepEntry} {rest : List StepEntry} (h : p.TimedOut c i) :
    ((p.modChan c fun x => { x with seq := { x.seq with queue := rest } }).taken c s).TimedOut c i := by
  have popped : (p.modChan c fun x => { x with seq := { x.seq with queue := rest } }).TimedOut c i := by
    obtain ⟨port, awake, down, last⟩ := h
    refine ⟨?_, ?_, down, ?_⟩ <;> rw [Plant.chan_modChan_same]
    · exact port
    · exact awake
    · exact last
  unfold Plant.taken
  split
  · obtain ⟨port, awake, down, last⟩ := popped
    exact ⟨by rw [Plant.modEvent, Plant.chan_modChan_same]; exact port, by rw [Plant.modEvent, Plant.chan_modChan_same]; exact awake,
      down, by rw [Plant.modEvent_seq]; exact last⟩
  · exact popped

theorem Plant.TimedOut.outcome (s : StepEntry) (h : p.TimedOut c i) : (p.cueOutcome c s .timeout).TimedOut c i where
  port := (congrArg Channel.portInUse (congrFun (p.cueOutcome_plans c s .timeout) c) :).trans h.port
  awake := (congrArg Channel.mode (congrFun (p.cueOutcome_plans c s .timeout) c) :).symm ▸ h.awake
  down := Plant.state_of_around (p.cueOutcome_around (b := true) c s .timeout) i ▸ h.down
  last := p.cueOutcome_timeout s h.awake

/-- R123: the heads taken with a port that is not UP end with TIMEOUT. -/
theorem Plant.TimedOut.takeHeadsN (n : Nat) : ∀ {p : Plant}, p.TimedOut c i → (Plant.takeHeadsN n c p).TimedOut c i := by
  induction n with
  | zero => exact fun h => h
  | succ n ih =>
    intro p h
    have down : (p.port i).state ≠ .up := h.down
    simp only [Plant.takeHeadsN, h.port, down, if_false]
    repeat' split
    · exact h
    · exact h
    · exact h
    · exact ih h.pops
    · exact ih (h.pops.outcome _)

theorem Plant.TimedOut.takeHeads (h : p.TimedOut c i) (d : Chan) : (p.takeHeads d).TimedOut c i := by
  rcases Decidable.em (d = c) with rfl | other
  · exact Plant.TimedOut.takeHeadsN _ h
  · have around := p.takeHeads_around (b := true) d
    have same := Plant.otherChans_of_around around c (Ne.symm other)
    exact ⟨by rw [same]; exact h.port, by rw [same]; exact h.awake, Plant.state_of_around around i ▸ h.down, by rw [same]; exact h.last⟩

theorem Plant.TimedOut.settles (h : p.TimedOut c i) (j : PortNo) : (p.settlePort j).TimedOut c i := by
  have takes : ∀ (l : List Chan) {q : Plant}, q.TimedOut c i → (l.foldl Plant.takeHeads q).TimedOut c i := fun l => by
    induction l with
    | nil => exact fun h => h
    | cons d l ih => exact fun h => ih (h.takeHeads d)
  have dropped : (p.setPort j (p.port j).dropFinished).TimedOut c i := by
    refine ⟨h.port, h.awake, ?_, h.last⟩
    rcases Decidable.em (i = j) with rfl | other
    · rw [Plant.port_setPort_same]
      have state : (p.port i).dropFinished.state = (p.port i).state := by
        unfold Port.dropFinished
        split <;> rfl
      rw [state]
      exact h.down
    · rw [Plant.port_setPort_other _ _ other]
      exact h.down
  obtain ⟨u, hu⟩ : ∃ u, u = (p.setPort j (p.port j).dropFinished).userTakes j := ⟨_, rfl⟩
  have taken : u.TimedOut c i := hu ▸ takes _ dropped
  have chan : ∀ d, (u.arbitrate j).chan d = u.chan d := fun d => by rw [Plant.chan, u.arbitrate_chans j, Plant.chan]
  rw [Plant.settlePort_eq, ← hu]
  exact ⟨by rw [chan]; exact taken.port, by rw [chan]; exact taken.awake,
    Plant.state_of_around (Plant.arbitrate_around (b := true) u 0 j) i ▸ taken.down, by rw [chan]; exact taken.last⟩

/-- R123: the Cue Sequencer of a channel whose port is not UP considers its queue. -/
theorem Plant.TimedOut.wakes (h : p.TimedOut c i) : (p.wakeCue c).TimedOut c i := by
  rw [Plant.wakeCue, h.port]
  exact h.settles i

end

end Sys2Proof.Machine
end

