-- ==== Sys2Proof/Proofs/ReturnsMade.lean ====
section
/-! PROOFS. The return switch at its line (R172): the channel handed back, its notices, its spare and the STOP on its primary port. -/

namespace Sys2Proof.Machine

/-! ## The STOP of a return -/

section
variable (p q : Plant) (c : Chan) (r : ReturnRec)

theorem Plant.stopBehind_around (b : Bool) : (p.stopBehind q c r).around c b = q.around c b := by
  rw [Plant.stopBehind]
  split
  · split <;> simp
  · rfl

theorem Plant.stopBehind_tells : q.Tells (p.stopBehind q c r) := by
  rw [Plant.stopBehind]
  split
  · split
    · exact Plant.handStop_tells (.refl q) c _ _
    · exact .refl q
  · exact .refl q

end

section
variable {p q : Plant} {c : Chan} {x : Channel} {g : ChannelConfig} {k : ReturnRec} (hx : p.chan c = x) (hg : x.config = some g)
include hx hg

theorem Plant.stopBehind_cold (cold : g.standby = .cold) (hi : x.portInUse = some g.primary) :
    p.stopBehind q c k = q.handStop c g.primary (some (k.tRet + 1)) := by
  have primary : p.primary c = some g.primary := Plant.primary_of_config (by rw [hx]; exact hg)
  have config : p.config c = some g := by rw [Plant.config, hx, hg]
  simp only [Plant.stopBehind, config, hx, hi, primary, cold, Option.isSome_some, beq_self_eq_true, Bool.and_self, and_self, if_true]

theorem Plant.stopBehind_none (h : g.standby = .hot ∨ x.portInUse ≠ some g.primary) : p.stopBehind q c k = q := by
  have primary : p.primary c = some g.primary := Plant.primary_of_config (by rw [hx]; exact hg)
  have config : p.config c = some g := by rw [Plant.config, hx, hg]
  simp only [Plant.stopBehind, config, hx, primary]
  refine if_neg fun ⟨cold, was⟩ => ?_
  rcases h with hot | other
  · rw [hot] at cold
    cases cold
  · obtain ⟨-, was⟩ := Bool.and_eq_true _ _ ▸ was
    exact other (beq_iff_eq.mp was)

end

/-! ## The channel handed back -/

section
variable {p : Plant} {c : Chan} {x : Channel} {k : ReturnRec} (hx : p.chan c = x)
include hx

/-- R172: of the channel, once its spare is given back. -/
theorem Plant.handedBack_plan : ((p.handedBack c k).chan c).plan = ({ x.handedOver k with portInUse := p.primary c } : Channel).plan := by
  obtain ⟨chan, -, -, -, spares, -⟩ := Plant.unlisted_parts (r := k) hx rfl
  exact (Plant.releaseSpare_plan (by rw [spares]; simp)).trans (congrArg Channel.plan chan)

theorem Plant.handedBack_waits : c ∉ (p.handedBack c k).spareQueue := by
  obtain ⟨-, -, -, -, spares, -⟩ := Plant.unlisted_parts (r := k) hx rfl
  exact (Plant.releaseSpare_spares (by rw [spares]; simp)).1

theorem Plant.handedBack_holds (one : ∀ i j, (p.port i).holder = some c → (p.port j).holder = some c → i = j) (i : PortNo) :
    ((p.handedBack c k).port i).holder ≠ some c := by
  obtain ⟨-, -, -, -, spares, -, ports⟩ := Plant.unlisted_parts (r := k) hx rfl
  have holder : ∀ j, ((p.unlisted c k).port j).holder = (p.port j).holder := fun j => by
    rw [ports]
    split <;> rfl
  exact Plant.releaseSpare_holds_none (by rw [spares]; simp) (fun i j => by rw [holder, holder]; exact one i j) i

theorem Plant.handedBack_outbox : ∃ closed, (p.unlisted c k).outbox =
    p.outbox ++ (closed ++ p.switched c { x with mode := .shadow } .main .retn) ∧ (p.unlisted c k).Tells (p.handedBack c k) := by
  obtain ⟨-, -, -, -, -, outbox, -⟩ := Plant.unlisted_parts (r := k) hx rfl
  obtain ⟨closed, -, -, wrote⟩ := Plant.handedOver_wrote (r := k) hx
  refine ⟨closed, ?_, Plant.releaseSpare_tells (.refl _) c⟩
  rw [outbox, wrote]
  rfl

/-- R172: what the channel's leave of the ports leaves of their claims. -/
theorem Plant.handedBack_gives : p.Gives (p.handedBack c k) := by
  obtain ⟨-, -, -, -, -, -, ports⟩ := Plant.unlisted_parts (r := k) hx rfl
  refine Plant.Gives.trans (fun i => ?_) (Plant.releaseSpare_gives _ c)
  rw [ports]
  split
  · exact ⟨rfl, fun l hl => .inl (Port.withdrawLists_mem hl)⟩
  · exact ⟨rfl, fun l hl => .inl ⟨l, hl, rfl, rfl⟩⟩

end

/-! ## The return switch -/

/-- R172, R66: the channel handed back with its deferred records applied. -/
def Plant.restored (p : Plant) (c : Chan) (r : ReturnRec) : Plant := (p.handedBack c r).applyDeferred c

/-- R172: and its STOP listed. -/
def Plant.stopped (p : Plant) (c : Chan) (r : ReturnRec) : Plant := p.stopBehind (p.restored c r) c r

/-- R172: RETURN DONE told. -/
def Plant.reported (p : Plant) (c : Chan) (r : ReturnRec) : Plant :=
  (p.stopped c r).notify .returnDone (some c)
    (u32 r.event ++ (p.stopped c r).ctfBytes c r.tRet ++ u8 ((p.stopped c r).chan c).replica.state.code)

theorem Plant.returnSwitch_reports (p : Plant) (c : Chan) (r : ReturnRec) : p.returnSwitch c r = (p.reported c r).wakeCue c :=
  Plant.returnSwitch_eq p c r rfl

section
variable {p : Plant} {c : Chan} {x : Channel} {g : ChannelConfig} {k : ReturnRec}

theorem Plant.restored_follows : (p.handedBack c k).Follows (p.restored c k) c := Plant.applyDeferred_follows c

theorem Plant.returnSwitch_follows : (p.reported c k).Follows (p.returnSwitch c k) c :=
  p.returnSwitch_reports c k ▸ (p.reported c k).wakeCue_follows c c

theorem Plant.reported_around : (p.reported c k).around c true = (p.restored c k).around c true := Plant.stopBehind_around p _ c k true

theorem Plant.reported_tells : (p.restored c k).Tells (p.reported c k) := Plant.notify_tells (Plant.stopBehind_tells p _ c k) _ _ _

variable (hx : p.chan c = x) (hg : x.config = some g) {q : Plant} (hq : q = p.returnSwitch c k)
include hx hg

theorem Plant.reported_post : ((p.reported c k).chan c).post =
    ({ x.handedOver k with portInUse := some g.primary } : Channel).post := by
  have plan := Plant.handedBack_plan (k := k) hx
  rw [Plant.primary_of_config (p := p) (c := c) (g := g) (by rw [hx]; exact hg)] at plan
  calc ((p.reported c k).chan c).post
    _ = ((p.restored c k).chan c).post := Plant.post_of_plans (Plant.stopBehind_plans p _ c k) c
    _ = ((p.handedBack c k).chan c).post := Plant.restored_follows.chan
    _ = _ := congrArg (fun x : Channel => { x with playlist := [], replica := .reset, watch := .reset }) plan

include hq

/-- R172: the channel after the return. -/
theorem Plant.returnSwitch_chan : (q.chan c).mode = .shadow ∧ (q.chan c).switch = .main ∧ (q.chan c).portInUse = some g.primary ∧
    (q.chan c).pendingSw = [] ∧ (q.chan c).returnRec = some { k with state := .done } ∧ (q.chan c).openEntry = none := by
  have post : (q.chan c).post = ({ x.handedOver k with portInUse := some g.primary } : Channel).post :=
    (hq ▸ Plant.returnSwitch_follows.chan).trans (Plant.reported_post hx hg)
  have mode : (q.chan c).mode = .shadow := (congrArg Channel.mode post :)
  have pending : (if (q.chan c).mode.running then [] else (q.chan c).pendingSw) = [] := (congrArg Channel.pendingSw post :)
  rw [mode] at pending
  exact ⟨mode, (congrArg Channel.switch post :), (congrArg Channel.portInUse post :), pending, (congrArg Channel.returnRec post :),
    (congrArg Channel.openEntry post :)⟩

omit hx hg in
/-- R66: nothing deferred stays in the hold. -/
theorem Plant.returnSwitch_hold : ∀ h ∈ q.hold, h.channel = c → h.kind ≠ .deferred := by
  intro h hh mine kind
  have kept := (p.returnSwitch_kept c k).2
  rw [hq, kept, Plant.applyDeferred] at hh
  have left := List.mem_filter.mp ((Plant.applyDeferredN_follows c _ _).hold.subset hh)
  simp [mine, kind] at left

omit hg in
/-- R111: the channel waits for no spare. -/
theorem Plant.returnSwitch_waits : c ∉ q.spareQueue := by
  rw [hq, Plant.returnSwitch_follows.queue, Plant.spareQueue_of_around Plant.reported_around, Plant.restored_follows.queue]
  exact Plant.handedBack_waits hx

omit hg in
/-- R111: and holds none. -/
theorem Plant.returnSwitch_holds (one : ∀ i j, (p.port i).holder = some c → (p.port j).holder = some c → i = j) (i : PortNo) :
    (q.port i).holder ≠ some c := by
  rw [hq, Plant.returnSwitch_follows.holder, Plant.holder_of_around Plant.reported_around, Plant.restored_follows.holder]
  exact Plant.handedBack_holds hx one i

omit hg in
/-- R172: SWITCH with the cause RETURN. -/
theorem Plant.returnSwitch_tells {o : Outgoing} (ho : o ∈ p.switched c { x with mode := .shadow } .main .retn) : o ∈ q.outbox := by
  obtain ⟨closed, outbox, told⟩ := Plant.handedBack_outbox (k := k) hx
  rw [hq]
  refine Plant.returnSwitch_follows.outbox _ (Plant.reported_tells.mem (Plant.restored_follows.outbox _ (told.mem ?_)))
  rw [outbox]
  exact List.mem_append_right _ (List.mem_append_right _ ho)

/-- R172: RETURN DONE. -/
theorem Plant.returnSwitch_done : .notice ⟨.returnDone, some c, u32 k.event ++ p.ctfBytes c k.tRet ++
    u8 (q.chan c).replica.state.code⟩ ∈ q.outbox := by
  have post := Plant.reported_post (k := k) hx hg
  have replica : (q.chan c).replica = ((p.stopped c k).chan c).replica := by
    rw [hq, Plant.returnSwitch_reports]
    exact (congrArg Channel.replica (congrFun ((p.reported c k).wakeCue_plans c) c) :)
  have rest : (p.stopped c k).rest = p.rest := by
    have kept := p.returnSwitch_rest c k
    rw [Plant.returnSwitch_reports, Plant.wakeCue_rest] at kept
    exact kept
  have bytes : (p.stopped c k).ctfBytes c k.tRet = p.ctfBytes c k.tRet :=
    Plant.ctfBytes_of_same ((congrArg Channel.config post :).trans (by rw [Plant.config, hx]; rfl)) (Plant.ref_of_rest rest)
      ((congrArg Channel.baseDay post :).trans (by rw [hx]; rfl)) _
  rw [replica, ← bytes, hq]
  exact Plant.returnSwitch_follows.outbox _ (List.mem_append_right _ (List.mem_singleton_self _))

/-- R172: the STOP of a COLD channel whose frame is still to begin waits on its primary port, the last. -/
theorem Plant.returnSwitch_stops (cold : g.standby = .cold) (hi : x.portInUse = some g.primary) (now : x.now = k.tRet) :
    (q.port g.primary).claim.getLast? = some (stopList c (some (k.tRet + 1))) := by
  have post := Plant.reported_post (k := k) hx hg
  have port : ((p.reported c k).chan c).portInUse = some g.primary := (congrArg Channel.portInUse post :)
  have later : ((p.reported c k).chan c).now < k.tRet + 1 := by
    have same : ((p.reported c k).chan c).now = x.now := (congrArg Channel.now post :)
    rw [same, now]
    exact Nat.lt_succ_self _
  have before : ((p.restored c k).chan c).now < k.tRet + 1 := by
    have same : ((p.reported c k).chan c).now = ((p.restored c k).chan c).now :=
      (congrArg Channel.now (congrFun (Plant.stopBehind_plans p _ c k) c) :)
    rwa [← same]
  have listed : ((p.reported c k).port g.primary).claim.getLast? = some (stopList c (some (k.tRet + 1))) := by
    have stop : p.stopped c k = (p.restored c k).handStop c g.primary (some (k.tRet + 1)) := Plant.stopBehind_cold hx hg cold hi
    rw [Plant.reported, Plant.notify_port, stop]
    exact Plant.handStop_last before
  rw [hq, Plant.returnSwitch_reports, Plant.wakeCue, port]
  exact Plant.settlePort_last listed later

omit hg hq in
/-- R107: a port that is not UP and had no list has none after. -/
theorem Plant.restored_idle {i : PortNo} (down : (p.port i).state ≠ .up) (idle : (p.port i).claim = []) :
    ((p.restored c k).port i).state ≠ .up ∧ ((p.restored c k).port i).claim = [] := by
  obtain ⟨state, claims⟩ := Plant.handedBack_gives (k := k) hx i
  have empty : ((p.handedBack c k).port i).claim = [] := List.eq_nil_iff_forall_not_mem.mpr fun l hl => by
    rcases claims l hl with ⟨m, hm, -⟩ | ⟨-, up⟩
    · rw [idle] at hm
      exact absurd hm List.not_mem_nil
    · exact down up
  refine ⟨by rw [Plant.restored_follows.state, state]; exact down, List.eq_nil_iff_forall_not_mem.mpr fun l hl => ?_⟩
  obtain ⟨m, hm, -⟩ := Plant.restored_follows.claims i l hl
  rw [empty] at hm
  exact absurd hm List.not_mem_nil

/-- R107: a STOP whose frame a forward step has passed ends at once with TIMEOUT on a port that is not UP. -/
theorem Plant.returnSwitch_stops_late (cold : g.standby = .cold) (hi : x.portInUse = some g.primary) (late : k.tRet < x.now)
    (down : (p.port g.primary).state ≠ .up) (idle : (p.port g.primary).claim = []) :
    (q.port g.primary).claim = [] ∧ (q.chan c).seq.last = some .timeout := by
  have post := Plant.reported_post (k := k) hx hg
  obtain ⟨down', idle'⟩ := Plant.restored_idle (k := k) hx down idle
  have now : ((p.restored c k).chan c).now = x.now := by
    have same : ((p.reported c k).chan c).now = ((p.restored c k).chan c).now :=
      (congrArg Channel.now (congrFun (Plant.stopBehind_plans p _ c k) c) :)
    exact same.symm.trans (congrArg Channel.now post :)
  have awake : ((p.restored c k).chan c).mode ≠ .idle := by
    have same : ((p.reported c k).chan c).mode = ((p.restored c k).chan c).mode :=
      (congrArg Channel.mode (congrFun (Plant.stopBehind_plans p _ c k) c) :)
    have shadow : ((p.reported c k).chan c).mode = .shadow := (congrArg Channel.mode post :)
    rw [← same, shadow]
    decide
  have stop : p.stopped c k = (p.restored c k).writeLast c .timeout :=
    (Plant.stopBehind_cold hx hg cold hi).trans (Plant.handStop_down _ c g.primary _ down' idle' fun f hf => by
      obtain rfl := Option.some.inj hf
      rw [now]
      exact late)
  have ports : ∀ i, (p.reported c k).port i = (p.restored c k).port i := fun i => by
    rw [Plant.reported, Plant.notify_port, stop, Plant.writeLast, if_neg awake]
    rfl
  have ended : (p.reported c k).TimedOut c g.primary := by
    refine ⟨(congrArg Channel.portInUse post :), ?_, by rw [ports]; exact down', ?_⟩
    · have shadow : ((p.reported c k).chan c).mode = .shadow := (congrArg Channel.mode post :)
      rw [shadow]
      decide
    · rw [Plant.reported, Plant.notify_chan, stop, Plant.writeLast, if_neg awake, Plant.chan_modChan_same]
      rfl
  refine ⟨List.eq_nil_iff_forall_not_mem.mpr fun l hl => ?_, ?_⟩
  · rw [hq] at hl
    obtain ⟨m, hm, -⟩ := Plant.returnSwitch_follows.claims g.primary l hl
    rw [ports, idle'] at hm
    exact absurd hm List.not_mem_nil
  · rw [hq, Plant.returnSwitch_reports]
    exact ended.wakes.last

/-- R172: where no STOP is to be sent none of the channel's joins a claim. -/
theorem Plant.returnSwitch_stops_none (h : g.standby = .hot ∨ x.portInUse ≠ some g.primary) (i : PortNo) {l : CmdList}
    (hl : l ∈ (q.port i).claim) (mine : l.channel = c) (stop : l.purpose = .stop) :
    ∃ m ∈ (p.port i).claim, m.channel = c ∧ m.purpose = .stop := by
  have none : p.stopped c k = p.restored c k := Plant.stopBehind_none hx hg h
  rw [hq] at hl
  obtain ⟨m, hm, channel, purpose⟩ := Plant.returnSwitch_follows.claims i l hl
  rw [Plant.reported, Plant.notify_port, none] at hm
  obtain ⟨m', hm', channel', purpose'⟩ := Plant.restored_follows.claims i m hm
  rcases (Plant.handedBack_gives (k := k) hx i).2 m' hm' with ⟨o, ho, channel'', purpose''⟩ | ⟨join, -⟩
  · exact ⟨o, ho, channel''.trans (channel'.trans (channel.trans mine)), purpose''.trans (purpose'.trans (purpose.trans stop))⟩
  · rw [purpose', purpose, stop] at join
    cases join

end

end Sys2Proof.Machine
end

