-- ==== Sys2Proof/Proofs/SwitchLinesMade.lean ====
section
/-! PROOFS. The obligation on a channel's switch line (R1, R141, R132, R157, R172, R176, R177). -/

namespace Sys2Proof.Machine

/-- R141: SWITCH depends on the position, the mode and now alone. -/
theorem Plant.switched_congr (p : Plant) (c : Chan) {y z : Channel} (switch : y.switch = z.switch) (mode : y.mode = z.mode)
    (now : y.now = z.now) (pos : SwitchPos) (cause : SwitchCause) : p.switched c y pos cause = p.switched c z pos cause := by
  rw [Plant.switched, Plant.switched, switch, mode, now]

section
variable {p : Plant} {c : Chan} {x : Channel} (hx : p.chan c = x)
include hx

/-- R132: the switch follows to LOCAL, or to FILLER with no open entry ended there. -/
theorem Plant.switchLine_follows_to (hm : x.mode = .onLocal) (free : ∀ w ∈ x.pendingSw, w.cause = .follow)
    (next : x.covering.map (·.id) ≠ x.cover) {pos : SwitchPos} (follows : x.followPos = pos) (side : pos = .onLocal ∨ pos = .filler)
    (stays : pos = .onLocal ∨ ∀ o, x.openEntry = some o → x.endsOnFiller x.switch o = false) : p.switchLine c =
      p.wrote c { x with
        switch := pos, cover := x.covering.map (·.id), pendingSw := x.pendingSw.filter fun w => decide (x.now < w.frame) }
        (p.switched c x pos .follow) := by
  rw [Plant.switchLine_follows hx hm free next]
  rcases side with rfl | rfl
  · exact Plant.follow_local (p := p) (c := c) (x := { x with pendingSw := x.pendingSw.filter fun w => decide (x.now < w.frame) })
      (by rw [hx]) (by rw [hx]) follows
  · refine (Plant.follow_filler (p := p) (c := c) (x := { x with
      pendingSw := x.pendingSw.filter fun w => decide (x.now < w.frame) }) (by rw [hx]) (by rw [hx]) follows).trans
      (Plant.cutOnFiller_stays ?_)
    rw [Plant.wrote_chan]
    exact stays.resolve_left nofun

/-- R132, R165: the switch follows to FILLER, which ends the open entry. -/
theorem Plant.switchLine_follows_cut (hm : x.mode = .onLocal) (free : ∀ w ∈ x.pendingSw, w.cause = .follow)
    (next : x.covering.map (·.id) ≠ x.cover) (follows : x.followPos = .filler) {o : OpenEntry} (ho : x.openEntry = some o)
    (ends : x.endsOnFiller x.switch o = true) : p.switchLine c =
      p.wrote c { x with
        switch := .filler, cover := x.covering.map (·.id), pendingSw := x.pendingSw.filter fun w => decide (x.now < w.frame)
        openEntry := none, playlist := loggedAs o.event x.playlist }
        (p.switched c x .filler .follow ++ [p.closing c o x.now .cut]) := by
  rw [Plant.switchLine_follows hx hm free next]
  refine (Plant.follow_filler (p := p) (c := c) (x := { x with
    pendingSw := x.pendingSw.filter fun w => decide (x.now < w.frame) }) (by rw [hx]) (by rw [hx]) follows).trans ?_
  exact Plant.cutOnFiller_cuts (p := p) (c := c) (x := { x with
    switch := .filler, cover := x.covering.map (·.id), pendingSw := x.pendingSw.filter fun w => decide (x.now < w.frame) })
    (by rw [hx]) (by rw [hx]) ho (by rw [show _ = x.mode from rfl, hm]; rfl) ends

end

/-- Settles O59: each decision that can be pending is made by the lemma on it, on the plant whose reference has come to the line. -/
theorem switchLineMakesPending : Obligations.SwitchLineMakesPending := by
  unfold Obligations.SwitchLineMakesPending
  intro c s x g r p own hg href
  have ran : exec (.switchLine c) s = .next (s.passed (s.plant.reachLine c)) := rfl
  refine ⟨fun idle => ?_, fun busy raised => ?_, fun busy late others hp => ?_⟩
  · rw [ran, Plant.reachLine_idle own hg idle]
  · rw [ran, Plant.reachLine_busy own hg busy, Plant.raiseLines_raised (href ▸ raised)]
  obtain ⟨n, hn⟩ := Plant.reachLine_alone own hg busy href late others hp
  have hx : p.chan c = x := by rw [hp, Plant.setRef_chan, own]
  have port : ∀ i, p.port i = s.plant.port i := fun i => by rw [hp, Plant.setRef_port]
  have waits : p.spareQueue = s.plant.spareQueue := by rw [hp]; cases g.reference <;> rfl
  have line : p.nextLineFrame c = x.now + 1 := by
    rw [Plant.nextLineFrame_of_config (by rw [hx]; exact hg), hx, hp, Plant.ref_setRef_same, if_pos (Nat.le_refl _)]
  have bytes : ∀ t, dayLabelBytes (dayLabelOf (p.family c) x.baseDay t) = p.ctfBytes c t := fun t => by rw [← hx]; rfl
  refine ⟨n, by rw [ran, hn], fun none mode adopt => ?_, fun w mode adopt release pending act due moves => ?_,
    fun k mode record pending due => ?_, ?_⟩
  · exact Plant.switchLine_stands hx (by rcases mode with m | m | m <;> rw [m] <;> rfl) none adopt
  · have moved : p.switched c x .filler .release = [.notice ⟨.switch, some c, u8 x.switch.code ++ u8 2 ++ u8 6 ++
        dayLabelBytes (dayLabelOf (p.family c) x.baseDay x.now) ++ u8 6⟩] := by
      rw [Plant.switched, if_neg moves, mode, bytes]
      rfl
    rw [Plant.switchLine_releases_filler hx mode adopt pending act due release, moved]
    rfl
  · obtain ⟨q, hq⟩ : ∃ q, q = p.switchLine c := ⟨_, rfl⟩
    have still : p.Still q := hq ▸ Plant.still_of_rest (p.switchLine_rest c)
    rw [← hq]
    rw [Plant.switchLine_returns (by rw [hx]; exact mode) (by rw [hx]; exact record) pending (by rw [hx]; exact due)] at hq
    obtain ⟨shadow, main, primary, none, done, closed⟩ := Plant.returnSwitch_chan hx hg hq
    refine ⟨shadow, main, primary, none, done, closed, Plant.returnSwitch_hold hq, still, Plant.returnSwitch_waits hx hq,
      fun one => ?_, fun moves => ?_, ?_, fun cold on now => ?_, fun cold on late down idle => ?_, fun hot i l hl mine stop => ?_⟩
    · exact Plant.returnSwitch_holds hx hq (by simpa only [port] using one)
    · refine Plant.returnSwitch_tells hx hq ?_
      rw [Plant.switched, if_neg moves, ← bytes]
      exact List.mem_singleton_self _
    · rw [bytes]
      exact Plant.returnSwitch_done hx hg hq
    · exact Plant.returnSwitch_stops hx hg hq cold on now
    · exact Plant.returnSwitch_stops_late hx hg hq cold on late (by rw [port]; exact down) (by rw [port]; exact idle)
    · rw [← port]
      exact Plant.returnSwitch_stops_none hx hg hq hot i hl mine stop
  intro cov at' swTo cuts hcuts hcov hat hswTo
  have covering : cov = x.covering := hcov
  have label : at' = p.ctfBytes c x.now := hat.trans (bytes _)
  have tells : ∀ pos cause m, swTo pos cause m = p.switched c { x with mode := m } pos cause := fun pos cause m => by
    rw [hswTo, label]
    rfl
  have ends : ∀ o, x.endsOnFiller x.switch o = true ↔ cuts o := fun o => (x.endsOnFiller_iff x.switch o).trans (hcuts o).symm
  refine ⟨fun pos z mode adopt free => ⟨fun same none => ?_, fun next side hz => ⟨fun stays => ?_, fun o filler ho cut => ?_⟩⟩,
    fun k mode record stage adopt ⟨w, pending, act, due⟩ => ?_, fun a mode adopt pending _ => ⟨fun left unqueued unheld => ?_,
      fun left q hq => ?_, fun covers q hq => ?_⟩, fun t w mode adopt release pending act due => ⟨fun shadow => ?_, fun idle q hq => ?_⟩⟩
  · exact Plant.switchLine_follows_none hx mode adopt none (covering ▸ same)
  · have follows : x.followPos = pos := by
      rcases side with ⟨rfl, e, he, clip, on, served, runs⟩ | ⟨rfl, off⟩
      · exact Channel.followPos_local (covering ▸ he) clip on served runs
      · exact Channel.followPos_filler (covering ▸ off)
    rw [Plant.switchLine_follows_to hx mode free (covering ▸ next) follows (side.imp (·.1) (·.1))
      (stays.imp_right fun h o ho => Bool.eq_false_iff.mpr fun e => h o ho ((ends o).mp e)), tells, hz, covering,
      p.switched_congr c (y := { x with mode := .onLocal }) (z := x) rfl mode.symm rfl]
    rfl
  · have follows : x.followPos = .filler := by
      rcases side with ⟨pos', -⟩ | ⟨-, off⟩
      · rw [pos'] at filler
        exact nomatch filler
      · exact Channel.followPos_filler (covering ▸ off)
    have closing : p.closing c o x.now .cut = .asRun {
        channel := c, event := o.event, start := dayLabelOf (p.family c) x.baseDay o.start
        finish := dayLabelOf (p.family c) x.baseDay x.now, kind := some o.kind, exit := .cut, port := o.port } := by
      rw [← hx]
      rfl
    rw [Plant.switchLine_follows_cut hx mode free (covering ▸ next) follows ho ((ends o).mpr cut), tells, hz, covering, filler, closing,
      p.switched_congr c (y := { x with mode := .onLocal }) (z := x) rfl mode.symm rfl, List.append_assoc]
    rfl
  · rw [Plant.switchLine_aborts hx mode adopt pending act due, tells]
    rfl
  · have failed := (Plant.switchLine_adopt_left hx hg mode adopt pending left rfl).1
    rw [failed, Plant.adoptFailed_bare hx hg .eventGone (by rw [waits]; exact unqueued) fun i => by rw [port]; exact unheld i]
    rfl
  · obtain ⟨failed, orphaned⟩ := Plant.switchLine_adopt_left hx hg mode adopt pending left hq
    obtain ⟨-, none, primary, unqueued, told, freed⟩ := Plant.adoptFailed_left hx hg .eventGone failed
    exact ⟨orphaned, none, primary, unqueued, told, fun one => freed (by simpa only [port] using one)⟩
  · obtain ⟨-, on, none, told, airing⟩ := Plant.switchLine_adopt_on hx mode adopt pending covers hq
    refine ⟨on, none, by rw [label]; exact told, airing, fun i hi up held ho => ?_, fun i hi primary down unheld unlent => ?_⟩
    · have works : p.portWorks c i = true := by
        simpa [Plant.portWorks, port] using And.intro up held
      exact Plant.switchLine_adopt_works hx mode adopt pending covers hq hi works ho
    · refine Plant.switchLine_adopt_down hx mode adopt pending covers hq hi hg line primary (by rw [port]; exact down)
        (fun j => by rw [port]; exact unheld j) fun j ⟨spare, up, nobody, mine⟩ => ?_
      rw [port] at spare up nobody
      rw [unlent j spare up nobody] at mine
      exact Bool.noConfusion mine
  · subst shadow
    rw [Plant.switchLine_releases_shadow hx mode adopt pending act due hg release, tells]
  · subst idle
    rw [tells]
    exact Plant.switchLine_releases_idle hx mode pending act due release hq

end Sys2Proof.Machine
end
